-- ==== Sys2Proof/Word.lean ====
section
/-! DEFINITION. The word types of the SL-256 (R2, R3, R146) and a list builder indexed from zero. -/

namespace Sys2Proof

abbrev Byte := BitVec 8
abbrev W16 := BitVec 16
abbrev W32 := BitVec 32
/-- A scalar register or channel entry (R71, R146). -/
abbrev Word := BitVec 64

/-- The all-ones word that several results use for "none". -/
def Word.ones : Word := BitVec.allOnes 64

/-- The list f i, …, f (i + n − 1). -/
def tabFrom {α : Type} (f : Nat → α) (i : Nat) : Nat → List α
  | 0 => []
  | n + 1 => f i :: tabFrom f (i + 1) n

/-- The list f 0, …, f (n − 1). -/
def tab {α : Type} (n : Nat) (f : Nat → α) : List α := tabFrom f 0 n

/-- A sparse table by number: pairs in strictly rising order of key. -/
abbrev SMap (α : Type) := List (Nat × α)

/-- One value for each engine of a strand. -/
structure PerEng (α : Type) where
  a : α
  x : α
  m : α
  w : α
  deriving DecidableEq, Repr

def PerEng.all {α : Type} (v : α) : PerEng α := ⟨v, v, v, v⟩

/-- A boolean as a number. -/
def b2n (b : Bool) : Nat := if b then 1 else 0

end Sys2Proof
end

