-- ==== Sys2Proof/Syntax.lean ====
section
/-! DEFINITION. The instruction set as syntax: the owning engine and ring bits of a first word (R60), the six
operand formats (R63), the extension payloads (R65, R66, R192, R266, R293, R335), what the events of the opcode
table bring with them, and Instr, the one inductive with a constructor per row of the table. -/

namespace Sys2Proof

/-- The four engines of a strand, in the order of the ring and of the ENG code (R60, R102). -/
inductive Eng where
  | a | x | m | w
  deriving DecidableEq, Repr

/-- ENG field of R60. -/
def Eng.code : Eng → BitVec 2
  | .a => 0 | .x => 1 | .m => 2 | .w => 3

def Eng.ofCode (c : BitVec 2) : Eng :=
  if c = 0 then .a else if c = 1 then .x else if c = 2 then .m else .w

/-- Successor on the ring A → X → M → W → A (R102). -/
def Eng.succ : Eng → Eng
  | .a => .x | .x => .m | .m => .w | .w => .a

def Eng.pred : Eng → Eng
  | .a => .w | .x => .a | .m => .x | .w => .m

/-- Ring bits [29:26] of a first word (R60). -/
structure Ring where
  wp : Bool
  wn : Bool
  sp : Bool
  sn : Bool
  deriving DecidableEq, Repr

def Ring.quiet : Ring := ⟨false, false, false, false⟩

/-- Header of a common instruction: its owning engine and its ring bits. -/
structure Hd where
  g    : Eng
  ring : Ring
  deriving DecidableEq, Repr

/-- Operand format F3 (R63). -/
structure F3 where
  d : BitVec 5
  a : BitVec 5
  b : BitVec 5
  s : BitVec 2
  deriving DecidableEq, Repr

/-- Operand format FI (R63): imm7 is signed. -/
structure FI where
  d   : BitVec 5
  a   : BitVec 5
  imm : BitVec 7
  deriving DecidableEq, Repr

/-- Operand format FU (R63). -/
structure FU where
  d   : BitVec 5
  imm : BitVec 12
  deriving DecidableEq, Repr

/-- Operand format FB (R63): off7 is signed, in words. -/
structure FB where
  a   : BitVec 5
  b   : BitVec 5
  off : BitVec 7
  deriving DecidableEq, Repr

/-- Operand format FZ (R63): off12 is signed, in words. -/
structure FZ where
  a   : BitVec 5
  off : BitVec 12
  deriving DecidableEq, Repr

/-- Operand format FL (R63). -/
structure FL where
  lv   : BitVec 2
  cnt  : BitVec 5
  endo : BitVec 10
  deriving DecidableEq, Repr

/-- Long layouts XI, XU, XB, XZ, XL, XK, XM and XR (R65); reserved payload bits have no field. -/
structure XI where
  immh : BitVec 25
  deriving DecidableEq, Repr

structure XU where
  immh : BitVec 20
  deriving DecidableEq, Repr

structure XB where
  pub  : BitVec 3
  offh : BitVec 16
  deriving DecidableEq, Repr

structure XZ where
  pub  : BitVec 3
  offh : BitVec 12
  deriving DecidableEq, Repr

structure XL where
  kind : Bool
  sh   : BitVec 4
  ext  : BitVec 2
  endh : BitVec 4
  deriving DecidableEq, Repr

structure XK where
  cnth : BitVec 26
  endh : BitVec 4
  deriving DecidableEq, Repr

structure XM where
  idx  : Bool
  offs : BitVec 27
  deriving DecidableEq, Repr

structure XR where
  c   : BitVec 5
  pos : BitVec 6
  wid : BitVec 6
  deriving DecidableEq, Repr

/-- The vector long form XV (R66). -/
structure XV where
  c     : BitVec 5
  pred  : BitVec 4
  fmt   : BitVec 4
  rnd   : BitVec 3
  sela  : BitVec 3
  selb  : BitVec 3
  flags : BitVec 8
  deriving DecidableEq, Repr

/-- The tile long form XH (R192). -/
structure XH where
  ha : BitVec 7
  hb : BitVec 7
  ia : Bool
  op : BitVec 14
  deriving DecidableEq, Repr

/-- The atomic long form XA (R293). -/
structure XA where
  op   : BitVec 4
  c    : BitVec 5
  offs : BitVec 21
  deriving DecidableEq, Repr

/-- The page long form XP (R335). -/
structure XP where
  npg  : BitVec 10
  size : BitVec 2
  deriving DecidableEq, Repr

/-- The M engine's long forms MC, NL and NO (R266). -/
structure MC where
  cn   : BitVec 6
  ic   : Bool
  side : Bool
  deriving DecidableEq, Repr

structure NL where
  kind : Bool
  sh   : BitVec 4
  ext  : BitVec 2
  k    : Bool
  sa   : BitVec 7
  sb   : BitVec 7
  sc   : BitVec 7
  deriving DecidableEq, Repr

structure NO where
  a0 : BitVec 6
  b0 : BitVec 6
  c0 : BitVec 6
  v0 : BitVec 6
  sx : BitVec 6
  deriving DecidableEq, Repr

/-- Storage that R309 names for a consumed uncorrectable error, with its code. -/
inductive Store where
  | device | near | comb | operand | accumulator | vector | checkpoint | buffer
  deriving DecidableEq, Repr

def Store.code : Store → Nat
  | .device => 1 | .near => 2 | .comb => 3 | .operand => 4
  | .accumulator => 5 | .vector => 6 | .checkpoint => 7 | .buffer => 8

/-- The coolant as measured: the inlet in °C, the flow in centilitres a minute (R26). -/
structure Coolant where
  tempC  : Nat
  flowCL : Nat
  deriving DecidableEq, Repr

/-- A firmware image offered to a live update (R400). -/
structure FwImage where
  version   : Nat
  handover  : Nat
  digest    : BitVec 512
  signature : BitVec 512
  deriving DecidableEq, Repr

/-- An Obdaok request with its data flits gathered (R403). -/
structure LinkReq where
  opk  : Nat
  opa  : BitVec 8
  fmt  : BitVec 8
  ctx  : Nat
  src  : BitVec 32
  tag  : BitVec 32
  rva  : Word
  len  : Nat
  opd  : Word
  opd2 : Word
  data : List Byte
  deriving DecidableEq, Repr

/-- An Obdaok response with its data flits gathered (R403). -/
structure LinkResp where
  status : Nat
  hint   : BitVec 8
  ctx    : Nat
  tag    : BitVec 32
  old    : Word
  data   : List Byte
  deriving DecidableEq, Repr

/-- One constructor per row of the opcode table. An instruction of every engine carries its header (owning
engine and ring bits); an engine's own instruction carries its ring bits; a joint word carries neither. An
event row carries what its rule says the event brings. -/
inductive Instr where
  -- common instructions (R67, R74)
  | nop (h : Hd)
  | b (h : Hd) (o : FZ) (x : Option XZ)
  | beq (h : Hd) (o : FB) (x : Option XB)
  | bne (h : Hd) (o : FB) (x : Option XB)
  | blt (h : Hd) (o : FB) (x : Option XB)
  | bge (h : Hd) (o : FB) (x : Option XB)
  | bltu (h : Hd) (o : FB) (x : Option XB)
  | bgeu (h : Hd) (o : FB) (x : Option XB)
  | bz (h : Hd) (o : FZ) (x : Option XZ)
  | bnz (h : Hd) (o : FZ) (x : Option XZ)
  | bfol (h : Hd) (o : FZ) (x : Option XZ)
  | call (h : Hd) (o : FZ) (x : Option XZ)
  | ret (h : Hd) (o : FZ)
  | jr (h : Hd) (o : FZ) (x : Option XZ)
  | loop (h : Hd) (o : FL) (x : Option XL)
  | loopi (h : Hd) (o : FL) (x : Option XK)
  | brkl (h : Hd) (o : FL)
  | trap (h : Hd) (o : FU)
  | gets (h : Hd) (o : FU)
  | sets (h : Hd) (o : FU)
  | tri (h : Hd)
  | waitt (h : Hd) (o : F3)
  | fence (h : Hd) (o : FU)
  | ldaq (h : Hd) (o : F3) (x : Option XM)
  | strl (h : Hd) (o : F3) (x : Option XM)
  | add (h : Hd) (o : F3)
  | sub (h : Hd) (o : F3)
  | mul (h : Hd) (o : F3)
  | mulh (h : Hd) (o : F3)
  | mulhu (h : Hd) (o : F3)
  | div (h : Hd) (o : F3)
  | divu (h : Hd) (o : F3)
  | rem (h : Hd) (o : F3)
  | remu (h : Hd) (o : F3)
  | and (h : Hd) (o : F3)
  | or (h : Hd) (o : F3)
  | xor (h : Hd) (o : F3)
  | shl (h : Hd) (o : F3)
  | shr (h : Hd) (o : F3)
  | sra (h : Hd) (o : F3)
  | min (h : Hd) (o : F3)
  | max (h : Hd) (o : F3)
  | minu (h : Hd) (o : F3)
  | maxu (h : Hd) (o : F3)
  | slt (h : Hd) (o : F3)
  | sltu (h : Hd) (o : F3)
  | seq (h : Hd) (o : F3)
  | madd (h : Hd) (o : F3) (x : XR)
  | clz (h : Hd) (o : F3)
  | popc (h : Hd) (o : F3)
  | bfx (h : Hd) (o : F3) (x : Option XR)
  | bfi (h : Hd) (o : F3) (x : Option XR)
  | addi (h : Hd) (o : FI) (x : Option XI)
  | andi (h : Hd) (o : FI) (x : Option XI)
  | ori (h : Hd) (o : FI) (x : Option XI)
  | xori (h : Hd) (o : FI) (x : Option XI)
  | shli (h : Hd) (o : FI) (x : Option XI)
  | shri (h : Hd) (o : FI) (x : Option XI)
  | srai (h : Hd) (o : FI) (x : Option XI)
  | slti (h : Hd) (o : FI) (x : Option XI)
  | li (h : Hd) (o : FU) (x : Option XU)
  | lih (h : Hd) (o : FU) (x : Option XU)
  | ld (h : Hd) (o : F3) (x : Option XM)
  | ldz (h : Hd) (o : F3) (x : Option XM)
  | st (h : Hd) (o : F3) (x : Option XM)
  | ldt (h : Hd) (o : F3) (x : Option XM)
  | stt (h : Hd) (o : F3) (x : Option XM)
  | shset (h : Hd) (o : F3)
  | shseti (h : Hd) (o : FU) (x : Option XU)
  | shget (h : Hd) (o : F3)
  | shmin (h : Hd) (o : F3)
  | shadd (h : Hd) (o : F3)
  | shcpy (h : Hd) (o : F3)
  | lyld (h : Hd) (o : F3) (x : Option XM)
  | lyst (h : Hd) (o : F3) (x : Option XM)
  | lyget (h : Hd) (o : F3)
  | lyset (h : Hd) (o : F3)
  | lyseg (h : Hd) (o : F3)
  -- joint words (R70)
  | sync
  | phase (o : BitVec 2)
  | phaseLong (o : BitVec 2) (x : BitVec 30)
  | mode (o : Bool)
  | endJ
  | yieldJ
  -- A engine (R75)
  | talloc (r : Ring) (o : F3) (x : XH)
  | tfree (r : Ring) (o : F3) (x : Option XH)
  | tshrink (r : Ring) (o : F3) (x : Option XH)
  | ttag (r : Ring) (o : F3) (x : Option XH)
  | tqry (r : Ring) (o : F3) (x : Option XH)
  | tcopy (r : Ring) (o : F3) (x : XH)
  | tslot (r : Ring) (o : F3) (x : Option XH)
  | tgath (r : Ring) (o : F3) (x : XH)
  | tscat (r : Ring) (o : F3) (x : XH)
  | twarm (r : Ring) (o : F3) (x : XH)
  | chkick (r : Ring) (o : F3) (x : Option XH)
  | chlink (r : Ring) (o : F3)
  | ixwalk (r : Ring) (o : F3)
  | ixsplit (r : Ring) (o : F3)
  | tblk (r : Ring) (o : F3)
  | atom (r : Ring) (o : F3) (x : XA)
  | atomr (r : Ring) (o : F3) (x : XA)
  | cas (r : Ring) (o : F3) (x : XA)
  | qsubmit (r : Ring) (o : F3)
  | qstat (r : Ring) (o : F3)
  | ginfo (r : Ring) (o : F3)
  | gyield (r : Ring) (o : F3)
  | mdisp (r : Ring) (o : F3)
  | ctxinfo (r : Ring) (o : F3)
  | bjoin (r : Ring) (o : F3)
  | barv (r : Ring) (o : F3)
  | bwait (r : Ring) (o : F3)
  | bleave (r : Ring) (o : F3)
  | ccadd (r : Ring) (o : F3)
  | ccwait (r : Ring) (o : F3)
  | pgfork (r : Ring) (o : F3) (x : Option XP)
  | pgdrop (r : Ring) (o : F3) (x : Option XP)
  | pgpin (r : Ring) (o : F3) (x : Option XP)
  | pgunpin (r : Ring) (o : F3) (x : Option XP)
  | pgqry (r : Ring) (o : F3)
  | pgmove (r : Ring) (o : F3) (x : Option XP)
  | xcpost (r : Ring) (o : F3)
  | xcarm (r : Ring) (o : F3)
  | xcwait (r : Ring) (o : F3)
  | xcqry (r : Ring) (o : F3)
  | stbindOpen (r : Ring) (o : F3)
  | stbindAppend (r : Ring) (o : F3)
  | stbindCommit (r : Ring) (o : F3)
  | stbindClose (r : Ring) (o : F3)
  | sttake (r : Ring) (o : F3)
  | sttick (r : Ring) (o : F3)
  | stlate (r : Ring) (o : F3)
  | stsink (r : Ring) (o : F3)
  | trmark (r : Ring) (o : F3)
  | trmarkL (r : Ring) (o : F3)
  | trspanBegin (r : Ring) (o : F3)
  | trspanEnd (r : Ring) (o : F3)
  | trqry (r : Ring) (o : F3)
  | staterd (r : Ring) (o : F3)
  -- X engine (R76)
  | vadd (r : Ring) (o : F3) (x : Option XV)
  | vsub (r : Ring) (o : F3) (x : Option XV)
  | vmul (r : Ring) (o : F3) (x : Option XV)
  | vfma (r : Ring) (o : F3) (x : XV)
  | vmin (r : Ring) (o : F3) (x : Option XV)
  | vmax (r : Ring) (o : F3) (x : Option XV)
  | vabs (r : Ring) (o : F3) (x : Option XV)
  | vneg (r : Ring) (o : F3) (x : Option XV)
  | vand (r : Ring) (o : F3) (x : Option XV)
  | vor (r : Ring) (o : F3) (x : Option XV)
  | vxor (r : Ring) (o : F3) (x : Option XV)
  | vnot (r : Ring) (o : F3) (x : Option XV)
  | vshl (r : Ring) (o : F3) (x : Option XV)
  | vshr (r : Ring) (o : F3) (x : Option XV)
  | vsra (r : Ring) (o : F3) (x : Option XV)
  | vcmp (r : Ring) (o : F3) (x : Option XV)
  | vsel (r : Ring) (o : F3) (x : Option XV)
  | vmov (r : Ring) (o : F3) (x : Option XV)
  | vsplat (r : Ring) (o : F3) (x : Option XV)
  | vidx (r : Ring) (o : F3) (x : Option XV)
  | vcvt (r : Ring) (o : F3) (x : XV)
  | vpack (r : Ring) (o : F3) (x : XV)
  | vunpk (r : Ring) (o : F3) (x : Option XV)
  | vqnt (r : Ring) (o : F3) (x : Option XV)
  | vdqnt (r : Ring) (o : F3) (x : Option XV)
  | vrotr (r : Ring) (o : F3) (x : Option XV)
  | vrotc (r : Ring) (o : F3) (x : Option XV)
  | vbcr (r : Ring) (o : F3) (x : Option XV)
  | vbcc (r : Ring) (o : F3) (x : Option XV)
  | vredr (r : Ring) (o : F3) (x : Option XV)
  | vredc (r : Ring) (o : F3) (x : Option XV)
  | vargr (r : Ring) (o : F3) (x : Option XV)
  | vargc (r : Ring) (o : F3) (x : Option XV)
  | vscanr (r : Ring) (o : F3) (x : Option XV)
  | vscanc (r : Ring) (o : F3) (x : Option XV)
  | vtrn (r : Ring) (o : F3) (x : Option XV)
  | vexp2 (r : Ring) (o : F3) (x : Option XV)
  | vlog2 (r : Ring) (o : F3) (x : Option XV)
  | vrcp (r : Ring) (o : F3) (x : Option XV)
  | vrsq (r : Ring) (o : F3) (x : Option XV)
  | vtanh (r : Ring) (o : F3) (x : Option XV)
  | vsigm (r : Ring) (o : F3) (x : Option XV)
  | vsin (r : Ring) (o : F3) (x : Option XV)
  | vcos (r : Ring) (o : F3) (x : Option XV)
  | vld (r : Ring) (o : F3) (x : Option XV)
  | vst (r : Ring) (o : F3) (x : Option XV)
  | vldg (r : Ring) (o : F3) (x : Option XV)
  | vstg (r : Ring) (o : F3) (x : Option XV)
  | pand (r : Ring) (o : F3) (x : Option XV)
  | por (r : Ring) (o : F3) (x : Option XV)
  | pxor (r : Ring) (o : F3) (x : Option XV)
  | pnot (r : Ring) (o : F3) (x : Option XV)
  | pcnt (r : Ring) (o : F3) (x : Option XV)
  | pfirst (r : Ring) (o : F3) (x : Option XV)
  | plen (r : Ring) (o : F3) (x : Option XV)
  | pseg (r : Ring) (o : F3) (x : Option XV)
  | vtox (r : Ring) (o : F3) (x : Option XV)
  | xtov (r : Ring) (o : F3) (x : Option XV)
  | vfmt (r : Ring) (o : F3)
  | vfmtImm (r : Ring) (o : F3) (x : XV)
  -- M engine (R77)
  | slclaim (r : Ring) (o : F3)
  | slrel (r : Ring) (o : F3)
  | slqry (r : Ring) (o : F3)
  | accz (r : Ring) (o : F3) (x : Option MC)
  | accld (r : Ring) (o : F3) (x : Option MC)
  | nlvl (r : Ring) (o : F3) (x : NL)
  | nops (r : Ring) (o : F3) (x : NO)
  | nepi (r : Ring) (o : F3) (x : Option XM)
  | nepiDef (r : Ring) (o : F3)
  | nmode (r : Ring) (o : F3)
  | nseg (r : Ring) (o : F3)
  | nscl (r : Ring) (o : F3)
  | ngo (r : Ring)
  | nwait (r : Ring)
  | ndrain (r : Ring) (o : F3) (x : Option MC)
  | smxrd (r : Ring) (o : F3) (x : Option MC)
  | smxset (r : Ring) (o : F3) (x : Option MC)
  | nqry (r : Ring) (o : F3)
  -- W engine (R77)
  | wst (r : Ring) (o : F3) (x : Option XM)
  | wstd (r : Ring) (o : F3) (x : Option XM)
  | wchain (r : Ring) (o : F3) (x : Option XH)
  | wpost (r : Ring) (o : F3)
  | wcmpl (r : Ring)
  | wflush (r : Ring)
  -- events: host writes, unit completions, link traffic, firmware
  | qkick (fn : Nat) (v : Word)
  | qevbits (fn : Nat) (v : Word)
  | stkick (fn : Nat) (v : Word)
  | pgdoneResident (fn : Nat) (rqid : BitVec 32)
  | pgdoneUnmappable (fn : Nat) (rqid : BitVec 32)
  | pgdoneDenied (fn : Nat) (rqid : BitVec 32)
  | mtflushGo (fn : Nat) (v : Word)
  | mtflushRetry (fn : Nat) (v : Word)
  | mtflushDiscard (fn : Nat) (v : Word)
  | tlbinv (fn : Nat) (v : Word)
  | ctxcmdLoad (fn : Nat) (ctx : BitVec 12)
  | ctxcmdSave (fn : Nat) (ctx : BitVec 12)
  | ctxcmdDrain (fn : Nat) (ctx : BitVec 12)
  | ctxcmdTeardown (fn : Nat) (ctx : BitVec 12)
  | ctxcmdRelease (fn : Nat) (ctx : BitVec 12)
  | ctxcmdSwap (fn : Nat) (ctx : BitVec 12)
  | ctxcmdAbort (fn : Nat) (ctx : BitVec 12)
  | ctxringConsWrite (fn : Nat) (handler : Bool) (cons : BitVec 32)
  | fpcmdAdd (fn : Nat) (v : Word)
  | fpcmdTake (fn : Nat) (v : Word)
  | fpcmdCount (fn : Nat) (v : Word)
  | inspdRead
  | inspdBreakpointWrite (v : Word)
  | inspdResume (v : Word)
  | traceSinkEnable (n : Nat) (v : Word)
  | registerWrite (fn off : Nat) (v : Word)
  | moduleReset
  | coolantLimit (tempC flowCL : Nat)
  | junctionTemperature (die tempC : Nat)
  | powerMeasure (die : Nat) (mW : List Nat)
  | patrolScrub (loc : Store) (addr : Nat) (bad : Bool)
  | timingReplay (die : Nat)
  | firmwareLiveUpdate (img : FwImage)
  | firmwareHeartbeatMiss
  | strandPlace (die : Nat)
  | strandStart (k : Nat)
  | strandEnded (k : Nat)
  | deadlock (k : Nat)
  | waittExpire (k : Nat) (g : Eng)
  | copyComplete (k op : Nat)
  | slotFillComplete (k op : Nat)
  | twarmComplete (k op : Nat)
  | chainCopy (k op : Nat)
  | chainGather (k op : Nat)
  | chainPost (k op : Nat)
  | chainWait (k op : Nat)
  | chainLoop (k op : Nat)
  | chainIf (k op : Nat)
  | chainLink (k op : Nat)
  | chainEnd (k op : Nat)
  | indexComplete (k op : Nat)
  | nestStep (k : Nat)
  | nestComplete (k : Nat)
  | nestSlotWaitLimit (k : Nat)
  | slclaimGrant (k : Nat)
  | phaseCommitDone (k : Nat)
  | phaseCancel (k : Nat)
  | phaseRefetchDone (k : Nat)
  | holdTimeout (k : Nat)
  | uncorrAbort (k : Nat) (loc : Store) (addr : Word)
  | pageWalk (k : Nat) (va : Word) (wr : Bool)
  | remoteRefusalRetry (tag : Nat)
  | atomicEngineServe (eng : Nat)
  | queueSlotGrant (die : Nat)
  | queueParse (q : Nat)
  | queueReread (q : Nat)
  | queueDispatch (die : Nat)
  | fencePacketTest (q : Nat)
  | qsubmitPush (k : Nat)
  | qsubmitFull (k : Nat)
  | taskRetire (task : Nat)
  | groupEvaluate (die : Nat)
  | bwaitTimeout (k : Nat)
  | ccwaitPoll (k : Nat)
  | ccwaitTimeout (k : Nat)
  | xcwaitTimeout (k : Nat)
  | contextLoadChecks (ctx : Nat)
  | contextResident (ctx : Nat)
  | contextSaved (ctx : Nat)
  | swapReload (ctx : Nat)
  | budgetPeriodRollover (ctx : Nat)
  | budgetExhausted (ctx : Nat)
  | preemptImmediate (k : Nat)
  | obdaokFrameReceive (port : Nat) (frame : List Byte)
  | linkWrite (port : Nat) (q : LinkReq)
  | linkWriteRed (port : Nat) (q : LinkReq)
  | linkRead (port : Nat) (q : LinkReq)
  | linkNotify (port : Nat) (q : LinkReq)
  | linkAtomic (port : Nat) (q : LinkReq)
  | linkAgree (port : Nat) (q : LinkReq)
  | linkResponse (port : Nat) (p : LinkResp)
  | linkKeepalive (port : Nat)
  | linkWidth (port lanes : Nat)
  | linkPause (port : Nat)
  | linkResume (port : Nat)
  | portEnable (port : Nat)
  | portTrainingEnd (port lanes : Nat)
  | portTrainingFail (port : Nat)
  | portLaneLost (port : Nat)
  | portDisable (port : Nat)
  | portReset (port : Nat)
  | ptpEventMessage (port : Nat) (offsetNs : Int)
  | grandmasterLoss
  | workEntryFire (w : Nat)
  | workEntryComplete (w : Nat)
  | collectiveExpand (cid : Nat)
  | linkHoldTimeout (task : Nat)
  | cadenceTick (ctx sid : Nat)
  | streamDeadline (ctx sid : Nat)
  | streamRecordAdmit (ctx sid : Nat)
  | traceSync (die : Nat)
  | traceEmitResume (k : Nat)
  | hostMemoryWrite (fn : Nat) (host : Bool) (pa : Nat) (data : List Byte)
  | pageMoveCopyDone (k : Nat)
  | tlbInvalidationComplete (fn : Nat)
  | inletReturn (c : Coolant)
  | heartbeatTimeout (unit : Nat)
  | hubAgentHoldLimit (a : Nat)
  | stepOpenTimeout (k : Nat)
  | linkChainAcceptance (k op : Nat)
  deriving DecidableEq, Repr

end Sys2Proof
end

