-- ==== Sys2Proof/WellFormed.lean ====
section
/-! DEFINITION. The checks of an instruction word that need no machine state: reserved fields (R78 check 5),
forbidden field values (check 6) and the syntactic part of check 7 (wrong-end channels R110, shape and slot
numbers R162, R170, R171, predicate fields R210, selectors). An instruction that fails one raises ILLEGAL. -/

namespace Sys2Proof

/-- The bits [lo + n − 1 : lo] of x, as a number. -/
def getBits {w : Nat} (x : BitVec w) (lo n : Nat) : Nat := x.toNat / 2 ^ lo % 2 ^ n

/-- Channel endpoints (R107). -/
def chanProducer : Nat → Eng
  | 0 => .a | 1 => .a | 2 => .x | 3 => .a | 4 => .m | 5 => .x | 6 => .w | _ => .a

def chanConsumer : Nat → Eng
  | 0 => .x | 1 => .x | 2 => .a | 3 => .m | 4 => .a | 5 => .w | 6 => .a | _ => .w

def isChan (n : BitVec 5) : Bool := decide (24 ≤ n.toNat)

def notChan (n : BitVec 5) : Bool := !isChan n

/-- M and W have no scalar registers 16 to 23 (R72). -/
def noReservedReg (g : Eng) (n : BitVec 5) : Bool :=
  !((g == .m || g == .w) && decide (16 ≤ n.toNat) && decide (n.toNat ≤ 23))

/-- A scalar source: an existing register, or a channel that the engine consumes (R72, R110). -/
def srcOk (g : Eng) (n : BitVec 5) : Bool :=
  noReservedReg g n && (notChan n || chanConsumer (n.toNat - 24) == g)

/-- A scalar destination: an existing register, or a channel that the engine produces (R72, R110). -/
def dstOk (g : Eng) (n : BitVec 5) : Bool :=
  noReservedReg g n && (notChan n || chanProducer (n.toNat - 24) == g)

/-- A peek bit stands only on a source that names a channel (R64): s[1] for a, s[0] for b. -/
def peekOk (a b : BitVec 5) (s : BitVec 2) : Bool :=
  (getBits s 1 1 == 0 || isChan a) && (getBits s 0 1 == 0 || isChan b)

def aluOk (g : Eng) (o : F3) : Bool :=
  dstOk g o.d && srcOk g o.a && srcOk g o.b && peekOk o.a o.b o.s

/-- Operands of a scalar memory access: with IDX = 0 the b field is reserved (R65, R154). -/
def memOk (g : Eng) (o : F3) (x : Option XM) : Bool :=
  srcOk g o.a && (match x with | some m => if m.idx then srcOk g o.b else o.b == 0 | none => srcOk g o.b)

def noPubZ (x : Option XZ) : Bool := match x with | some z => z.pub == 0 | none => true

/-- A publish mask is A's alone (R65). -/
def pubZ (g : Eng) (x : Option XZ) : Bool := match x with | some z => z.pub == 0 || g == .a | none => true

def pubB (g : Eng) (x : Option XB) : Bool := match x with | some z => z.pub == 0 || g == .a | none => true

/-- End offset of LOOP and LOOPI: the long form supplies the high bits (R65). -/
def loopEnd (o : FL) (x : Option XL) : Nat :=
  match x with | some l => l.endh.toNat * 1024 + o.endo.toNat | none => o.endo.toNat

def loopEndK (o : FL) (x : Option XK) : Nat :=
  match x with | some l => l.endh.toNat * 1024 + o.endo.toNat | none => o.endo.toNat

/-- LOOP: level 0 to 2, end offset not 0, count source 0 when the count is an extent (R64, R65). -/
def loopOk (g : Eng) (o : FL) (x : Option XL) : Bool :=
  o.lv != 3 && loopEnd o x != 0 &&
    (match x with | some l => if l.kind then o.cnt == 0 else srcOk g o.cnt | none => srcOk g o.cnt)

/-- GETS: index below 32, VFMT in X only (R80). -/
def getsOk (g : Eng) (i : BitVec 12) : Bool := decide (i.toNat < 32) && (i != 6 || g == .x)

/-- SETS: the writable registers of R142 (TEPC and TRET need the HANDLER state, checked when they issue). -/
def setsOk (g : Eng) (i : BitVec 12) : Bool :=
  i == 4 || i == 5 || (i == 6 && g == .x) || i == 19 || i == 20 || i == 21 || i == 27 || i == 28 || i == 29 || i == 30

/-- FENCE: bit 11 reserved, SCOPE 0 to 4 (R68). -/
def fenceOk (i : BitVec 12) : Bool := getBits i 11 1 == 0 && decide (getBits i 8 3 ≤ 4)

/-- BFX and BFI: the long form supplies position and width (R151). -/
def bfOk (g : Eng) (o : F3) (x : Option XR) : Bool :=
  srcOk g o.a &&
    (match x with
     | some r => o.b == 0 && r.c == 0 && peekOk o.a 0 o.s
     | none => srcOk g o.b && peekOk o.a o.b o.s)

/-- imm7 and imm32 of an FI instruction (R65, R152). -/
def immI (o : FI) (x : Option XI) : Int :=
  match x with | some e => (e.immh ++ o.imm).toInt | none => o.imm.toInt

def shiftImmOk (o : FI) (x : Option XI) : Bool := decide (0 ≤ immI o x) && decide (immI o x ≤ 63)

def shReg (n : BitVec 5) : Bool := decide (n.toNat < 16)
def extIx (n : BitVec 5) : Bool := decide (n.toNat < 4)
def lySlot (n : BitVec 5) : Bool := decide (n.toNat < 8)
def selMax (n : BitVec 5) (k : Nat) : Bool := decide (n.toNat ≤ k)
def evenReg (n : BitVec 5) : Bool := getBits n 0 1 == 0
def pReg (n : BitVec 5) : Bool := decide (n.toNat < 16)
def predDst (n : BitVec 5) : Bool := pReg n && n != 0

/-- The handle operand of a tile instruction: with IA = 1 the field a is reserved (R192). -/
def hA (a : BitVec 5) (x : Option XH) : Bool :=
  match x with | some e => if e.ia then a == 0 else srcOk .a a | none => srcOk .a a

/-- A long form that only names a handle. -/
def plainH (x : Option XH) : Bool := match x with | some e => e.hb == 0 && e.op == 0 | none => true

/-- TQRY: selectors 0 to 13; 7 to 11 and 13 read no handle (R197). -/
def tqryOk (o : F3) (x : Option XH) : Bool :=
  decide (o.b.toNat ≤ 13) &&
    (if decide (7 ≤ o.b.toNat) && o.b != 12 then
       o.a == 0 && (match x with | some e => !e.ia | none => true)
     else hA o.a x)

def tslotX (x : Option XH) : Bool := match x with | some e => e.hb == 0 && getBits e.op 0 13 == 0 | none => true

/-- TGATH and TSCAT: HB is the index forms' (R192, R193). -/
def gathX (x : XH) : Bool := (getBits x.op 13 1 == 1 || x.hb == 0) && getBits x.op 0 6 == 0

/-- CHKICK and WCHAIN: b is the offset of the tile form and reserved otherwise (R205). -/
def kickX (g : Eng) (o : F3) (x : Option XH) : Bool :=
  match x with
  | some e =>
    e.hb == 0 && getBits e.op 0 12 == 0 && (if e.ia then o.a == 0 else srcOk g o.a) &&
      (if getBits e.op 13 1 == 1 then srcOk g o.b else o.b == 0)
  | none => srcOk g o.a && o.b == 0

/-- Atomics: size 4 or 8, OP 0 to 9, no FADD of size 8 (R293). -/
def atomOk (o : F3) (x : XA) : Bool :=
  decide (2 ≤ o.s.toNat) && decide (x.op.toNat ≤ 9) && !(x.op == 9 && o.s == 3)

/-- Page instructions: NPG not 0, SIZE not 3 (R335). -/
def pgX (x : Option XP) : Bool := match x with | some p => p.npg != 0 && p.size != 3 | none => true

/-- The XV payload of an instruction that uses c or not and whose FLAGS bits are those of mask (R211). -/
def vx (useC : Bool) (mask : Nat) (x : Option XV) : Bool :=
  match x with
  | some v => (useC || v.c == 0) && decide (v.flags.toNat &&& mask = v.flags.toNat)
  | none => true

/-- The XV payload of opcodes 0xB0 to 0xB9: only FLAGS bits of mask may be set (R211). -/
def px (mask : Nat) (x : Option XV) : Bool :=
  match x with
  | some v => v.c == 0 && v.pred == 0 && v.fmt == 0 && v.rnd == 0 && v.sela == 0 && v.selb == 0 &&
      decide (v.flags.toNat &&& mask = v.flags.toNat)
  | none => true

/-- The FLAGS field at bit lo of width n holds a value up to k (R210). -/
def flagLe (x : Option XV) (lo n k : Nat) : Bool :=
  match x with | some v => decide (getBits v.flags lo n ≤ k) | none => true

/-- An accumulator field: an M register, or reserved when the long form names the tile (R266). -/
def accF (f : BitVec 5) (x : Option MC) : Bool :=
  match x with | some e => if e.ic then f == 0 else srcOk .m f | none => srcOk .m f

def noSide (x : Option MC) : Bool := match x with | some e => !e.side | none => true

/-- NDRAIN: d is a multiple of 4 unless SIDE = 1 (R266). -/
def ndrainOk (o : F3) (x : Option MC) : Bool :=
  getBits o.d 0 2 == 0 || (match x with | some e => e.side | none => false)

/-- WSTD: IDX must be 0 (R289); b is the descriptor operand. -/
def wstdX (x : Option XM) : Bool := match x with | some e => !e.idx | none => true

/-- Checks 5 to 7 of R78 as far as the words alone decide them. Events are well formed as they come. -/
def Instr.wellFormed : Instr → Bool
  | .nop .. => true
  | .b _ o x => o.a == 0 && noPubZ x
  | .beq h o x => srcOk h.g o.a && srcOk h.g o.b && pubB h.g x
  | .bne h o x => srcOk h.g o.a && srcOk h.g o.b && pubB h.g x
  | .blt h o x => srcOk h.g o.a && srcOk h.g o.b && pubB h.g x
  | .bge h o x => srcOk h.g o.a && srcOk h.g o.b && pubB h.g x
  | .bltu h o x => srcOk h.g o.a && srcOk h.g o.b && pubB h.g x
  | .bgeu h o x => srcOk h.g o.a && srcOk h.g o.b && pubB h.g x
  | .bz h o x => srcOk h.g o.a && pubZ h.g x
  | .bnz h o x => srcOk h.g o.a && pubZ h.g x
  | .bfol h o x => o.a == 0 && noPubZ x && h.g != .a
  | .call h o x => dstOk h.g o.a && noPubZ x
  | .ret h o => srcOk h.g o.a && o.off == 0
  | .jr h o x => srcOk h.g o.a && noPubZ x
  | .loop h o x => loopOk h.g o x
  | .loopi _ o x => o.lv != 3 && loopEndK o x != 0
  | .brkl _ o => o.lv != 3 && o.cnt == 0 && o.endo == 0
  | .trap _ o => o.d == 0
  | .gets h o => dstOk h.g o.d && getsOk h.g o.imm
  | .sets h o => srcOk h.g o.d && setsOk h.g o.imm
  | .tri h => h.ring == Ring.quiet
  | .waitt h o => srcOk h.g o.a && o.d == 0 && o.b == 0 && o.s == 0
  | .fence _ o => o.d == 0 && fenceOk o.imm
  | .ldaq h o x => dstOk h.g o.d && memOk h.g o x
  | .strl h o x => srcOk h.g o.d && memOk h.g o x
  | .add h o => aluOk h.g o
  | .sub h o => aluOk h.g o
  | .mul h o => aluOk h.g o
  | .mulh h o => aluOk h.g o
  | .mulhu h o => aluOk h.g o
  | .div h o => aluOk h.g o
  | .divu h o => aluOk h.g o
  | .rem h o => aluOk h.g o
  | .remu h o => aluOk h.g o
  | .and h o => aluOk h.g o
  | .or h o => aluOk h.g o
  | .xor h o => aluOk h.g o
  | .shl h o => aluOk h.g o
  | .shr h o => aluOk h.g o
  | .sra h o => aluOk h.g o
  | .min h o => aluOk h.g o
  | .max h o => aluOk h.g o
  | .minu h o => aluOk h.g o
  | .maxu h o => aluOk h.g o
  | .slt h o => aluOk h.g o
  | .sltu h o => aluOk h.g o
  | .seq h o => aluOk h.g o
  | .madd h o x => aluOk h.g o && srcOk h.g x.c && x.pos == 0 && x.wid == 0
  | .clz h o => aluOk h.g o && o.b == 0
  | .popc h o => aluOk h.g o && o.b == 0
  | .bfx h o x => dstOk h.g o.d && bfOk h.g o x
  | .bfi h o x => dstOk h.g o.d && notChan o.d && bfOk h.g o x
  | .addi h o _ => dstOk h.g o.d && srcOk h.g o.a
  | .andi h o _ => dstOk h.g o.d && srcOk h.g o.a
  | .ori h o _ => dstOk h.g o.d && srcOk h.g o.a
  | .xori h o _ => dstOk h.g o.d && srcOk h.g o.a
  | .shli h o x => dstOk h.g o.d && srcOk h.g o.a && shiftImmOk o x
  | .shri h o x => dstOk h.g o.d && srcOk h.g o.a && shiftImmOk o x
  | .srai h o x => dstOk h.g o.d && srcOk h.g o.a && shiftImmOk o x
  | .slti h o _ => dstOk h.g o.d && srcOk h.g o.a
  | .li h o _ => dstOk h.g o.d
  | .lih h o _ => dstOk h.g o.d && notChan o.d
  | .ld h o x => dstOk h.g o.d && memOk h.g o x
  | .ldz h o x => dstOk h.g o.d && memOk h.g o x
  | .st h o x => srcOk h.g o.d && memOk h.g o x
  | .ldt h o x => dstOk h.g o.d && memOk h.g o x
  | .stt h o x => srcOk h.g o.d && memOk h.g o x
  | .shset h o => shReg o.d && srcOk h.g o.a && extIx o.b && peekOk o.a 0 o.s
  | .shseti _ o _ => shReg o.d
  | .shget h o => dstOk h.g o.d && shReg o.a && extIx o.b && o.s == 0
  | .shmin h o => shReg o.d && srcOk h.g o.a && extIx o.b && peekOk o.a 0 o.s
  | .shadd h o => shReg o.d && srcOk h.g o.a && extIx o.b && peekOk o.a 0 o.s
  | .shcpy _ o => shReg o.d && shReg o.a && o.b == 0 && o.s == 0
  | .lyld h o x => lySlot o.d && memOk h.g o x && peekOk o.a o.b o.s
  | .lyst h o x => lySlot o.d && memOk h.g o x && peekOk o.a o.b o.s
  | .lyget h o => dstOk h.g o.d && lySlot o.a && decide (o.b.toNat ≤ 13) && o.s == 0
  | .lyset h o => lySlot o.d && srcOk h.g o.a && decide (o.b.toNat ≤ 12) && peekOk o.a 0 o.s
  | .lyseg h o => shReg o.d && lySlot o.a && srcOk h.g o.b && peekOk 0 o.b o.s
  | .sync => true
  | .phase .. => true
  | .phaseLong .. => true
  | .mode .. => true
  | .endJ => true
  | .yieldJ => true
  | .talloc _ o x => o.d == 0 && o.s == 0 && hA o.a (some x) && srcOk .a o.b && x.hb == 0 && getBits x.op 8 2 == 0
  | .tfree _ o x => o.d == 0 && o.b == 0 && o.s == 0 && hA o.a x && plainH x
  | .tshrink _ o x => o.d == 0 && o.s == 0 && hA o.a x && plainH x && srcOk .a o.b
  | .ttag _ o x => o.d == 0 && o.s == 0 && hA o.a x && plainH x && srcOk .a o.b
  | .tqry _ o x => dstOk .a o.d && o.s == 0 && plainH x && tqryOk o x
  | .tcopy _ o x => o.d == 0 && o.s == 0 && hA o.a (some x) && srcOk .a o.b && x.hb == 0 && getBits x.op 0 6 == 0
  | .tslot _ o x => srcOk .a o.d && o.s == 0 && hA o.a x && srcOk .a o.b && tslotX x
  | .tgath _ o x => o.d == 0 && o.s == 0 && hA o.a (some x) && srcOk .a o.b && gathX x
  | .tscat _ o x => o.d == 0 && o.s == 0 && hA o.a (some x) && srcOk .a o.b && gathX x
  | .twarm _ o x => o.d == 0 && o.a == 0 && o.b == 0 && o.s == 0 && x.hb == 0 && !x.ia && getBits x.op 0 6 == 0 && getBits x.op 13 1 == 0
  | .chkick _ o x => o.d == 0 && o.s == 0 && kickX .a o x
  | .chlink _ o => dstOk .a o.d && srcOk .a o.a && srcOk .a o.b && o.s == 0
  | .ixwalk _ o => o.d == 0 && srcOk .a o.a && o.b == 0 && o.s == 0
  | .ixsplit _ o => o.d == 0 && srcOk .a o.a && o.b == 0 && o.s == 0
  | .tblk _ o => dstOk .a o.d && lySlot o.a && srcOk .a o.b && o.s == 0
  | .atom _ o x => o.d == 0 && srcOk .a o.a && srcOk .a o.b && x.c == 0 && atomOk o x
  | .atomr _ o x => dstOk .a o.d && srcOk .a o.a && srcOk .a o.b && x.c == 0 && atomOk o x
  | .cas _ o x => dstOk .a o.d && srcOk .a o.a && srcOk .a o.b && srcOk .a x.c && x.op == 0 && atomOk o x
  | .qsubmit _ o => o.d == 0 && srcOk .a o.a && srcOk .a o.b && o.s == 0
  | .qstat _ o => dstOk .a o.d && srcOk .a o.a && selMax o.b 3 && o.s == 0
  | .ginfo _ o => dstOk .a o.d && srcOk .a o.a && selMax o.b 9 && o.s == 0 && (o.b == 3 || o.b == 4 || o.b == 8 || o.a == 0)
  | .gyield _ o => dstOk .a o.d && srcOk .a o.a && o.b == 0 && o.s == 0
  | .mdisp _ o => dstOk .a o.d && srcOk .a o.a && srcOk .a o.b && o.s == 0
  | .ctxinfo _ o => dstOk .a o.d && srcOk .a o.a && selMax o.b 5 && o.s == 0 && (o.b == 5 || o.a == 0)
  | .bjoin _ o => o.d == 0 && srcOk .a o.a && srcOk .a o.b && o.s == 0
  | .barv _ o => dstOk .a o.d && srcOk .a o.a && o.b == 0 && o.s == 0
  | .bwait _ o => o.d == 0 && srcOk .a o.a && srcOk .a o.b && o.s == 0
  | .bleave _ o => o.d == 0 && srcOk .a o.a && o.b == 0 && o.s == 0
  | .ccadd _ o => o.d == 0 && srcOk .a o.a && srcOk .a o.b && o.s == 0
  | .ccwait _ o => o.d == 0 && srcOk .a o.a && srcOk .a o.b && o.s == 0
  | .pgfork _ o x => dstOk .a o.d && srcOk .a o.a && srcOk .a o.b && o.s == 0 && pgX x
  | .pgdrop _ o x => dstOk .a o.d && srcOk .a o.a && o.b == 0 && o.s == 0 && pgX x
  | .pgpin _ o x => dstOk .a o.d && srcOk .a o.a && o.b == 0 && o.s == 0 && pgX x
  | .pgunpin _ o x => dstOk .a o.d && srcOk .a o.a && o.b == 0 && o.s == 0 && pgX x
  | .pgqry _ o => dstOk .a o.d && srcOk .a o.a && selMax o.b 2 && o.s == 0
  | .pgmove _ o x => dstOk .a o.d && srcOk .a o.a && srcOk .a o.b && o.s == 0 && pgX x
  | .xcpost _ o => dstOk .a o.d && srcOk .a o.a && o.b == 0 && getBits o.s 1 1 == 0
  | .xcarm _ o => dstOk .a o.d && srcOk .a o.a && o.b == 0 && o.s == 0
  | .xcwait _ o => dstOk .a o.d && srcOk .a o.a && o.b == 0 && o.s == 0
  | .xcqry _ o => dstOk .a o.d && srcOk .a o.a && selMax o.b 3 && o.s == 0 && (o.b == 0 || o.b == 1 || o.a == 0)
  | .stbindOpen _ o => dstOk .a o.d && srcOk .a o.a && o.b == 0 && o.s == 0
  | .stbindAppend _ o => dstOk .a o.d && srcOk .a o.a && srcOk .a o.b && o.s == 1
  | .stbindCommit _ o => o.d == 0 && srcOk .a o.a && o.b == 0 && o.s == 2
  | .stbindClose _ o => o.d == 0 && o.a == 0 && o.b == 0 && o.s == 3
  | .sttake _ o => dstOk .a o.d && srcOk .a o.a && srcOk .a o.b && o.s == 0
  | .sttick _ o => dstOk .a o.d && o.a == 0 && selMax o.b 3 && o.s == 0
  | .stlate _ o => dstOk .a o.d && srcOk .a o.a && selMax o.b 3 && o.s == 0
  | .stsink _ o => dstOk .a o.d && srcOk .a o.a && srcOk .a o.b && o.s == 0
  | .trmark _ o => o.d == 0 && srcOk .a o.a && srcOk .a o.b && o.s == 0
  | .trmarkL _ o => srcOk .a o.d && srcOk .a o.a && srcOk .a o.b && o.s == 1
  | .trspanBegin _ o => o.d == 0 && srcOk .a o.a && srcOk .a o.b && o.s == 0
  | .trspanEnd _ o => o.d == 0 && srcOk .a o.a && srcOk .a o.b && o.s == 1
  | .trqry _ o => dstOk .a o.d && srcOk .a o.a && selMax o.b 3 && o.s == 0 && (o.b == 0 || o.b == 1 || o.a == 0)
  | .staterd _ o => dstOk .a o.d && srcOk .a o.a && o.b == 0 && o.s == 0
  | .vadd _ o x => o.s == 0 && vx false 0 x
  | .vsub _ o x => o.s == 0 && vx false 0 x
  | .vmul _ o x => o.s == 0 && vx false 0 x
  | .vfma _ o x => o.s == 0 && vx true 0 (some x)
  | .vmin _ o x => o.s == 0 && vx false 0 x
  | .vmax _ o x => o.s == 0 && vx false 0 x
  | .vabs _ o x => o.b == 0 && o.s == 0 && vx false 0 x
  | .vneg _ o x => o.b == 0 && o.s == 0 && vx false 0 x
  | .vand _ o x => o.s == 0 && vx false 0 x
  | .vor _ o x => o.s == 0 && vx false 0 x
  | .vxor _ o x => o.s == 0 && vx false 0 x
  | .vnot _ o x => o.b == 0 && o.s == 0 && vx false 0 x
  | .vshl _ o x => o.s == 0 && vx false 0 x
  | .vshr _ o x => o.s == 0 && vx false 0 x
  | .vsra _ o x => o.s == 0 && vx false 0 x
  | .vcmp _ o x => o.s == 0 && vx false 7 x && predDst o.d && flagLe x 0 3 6
  | .vsel _ o x => o.s == 0 && vx false 0 x
  | .vmov _ o x => o.b == 0 && o.s == 0 && vx false 0 x
  | .vsplat _ o x => srcOk .x o.a && o.b == 0 && peekOk o.a 0 o.s && vx false 0 x
  | .vidx _ o x => srcOk .x o.a && o.b == 0 && peekOk o.a 0 o.s && vx false 3 x && flagLe x 0 2 2
  | .vcvt _ o x => o.b == 0 && o.s == 0 && vx false 15 (some x)
  | .vpack _ o x => o.b == 0 && o.s == 0 && vx true 7 (some x)
  | .vunpk _ o x => o.b == 0 && o.s == 0 && vx false 1 x
  | .vqnt _ o x => o.b == 0 && o.s == 0 && vx false 0 x && evenReg o.d
  | .vdqnt _ o x => o.s == 0 && vx false 0 x
  | .vrotr _ o x => srcOk .x o.b && peekOk 0 o.b o.s && vx false 0 x
  | .vrotc _ o x => srcOk .x o.b && peekOk 0 o.b o.s && vx false 0 x
  | .vbcr _ o x => srcOk .x o.b && peekOk 0 o.b o.s && vx false 0 x
  | .vbcc _ o x => srcOk .x o.b && peekOk 0 o.b o.s && vx false 0 x
  | .vredr _ o x => o.b == 0 && o.s == 0 && vx false 7 x && flagLe x 0 3 5
  | .vredc _ o x => o.b == 0 && o.s == 0 && vx false 7 x && flagLe x 0 3 5
  | .vargr _ o x => o.b == 0 && o.s == 0 && vx false 0 x && evenReg o.d
  | .vargc _ o x => o.b == 0 && o.s == 0 && vx false 0 x && evenReg o.d
  | .vscanr _ o x => o.b == 0 && o.s == 0 && vx false 7 x && flagLe x 0 3 5
  | .vscanc _ o x => o.b == 0 && o.s == 0 && vx false 7 x && flagLe x 0 3 5
  | .vtrn _ o x => o.b == 0 && o.s == 0 && vx false 0 x
  | .vexp2 _ o x => o.b == 0 && o.s == 0 && vx false 0 x
  | .vlog2 _ o x => o.b == 0 && o.s == 0 && vx false 0 x
  | .vrcp _ o x => o.b == 0 && o.s == 0 && vx false 0 x
  | .vrsq _ o x => o.b == 0 && o.s == 0 && vx false 0 x
  | .vtanh _ o x => o.b == 0 && o.s == 0 && vx false 0 x
  | .vsigm _ o x => o.b == 0 && o.s == 0 && vx false 0 x
  | .vsin _ o x => o.b == 0 && o.s == 0 && vx false 0 x
  | .vcos _ o x => o.b == 0 && o.s == 0 && vx false 0 x
  | .vld _ o x => srcOk .x o.a && srcOk .x o.b && peekOk o.a o.b o.s && vx false 3 x && flagLe x 0 2 2
  | .vst _ o x => srcOk .x o.a && srcOk .x o.b && peekOk o.a o.b o.s && vx false 0 x
  | .vldg _ o x => srcOk .x o.a && peekOk o.a 0 o.s && vx false 31 x && flagLe x 2 2 2
  | .vstg _ o x => srcOk .x o.a && peekOk o.a 0 o.s && vx false 15 x && flagLe x 2 2 2
  | .pand _ o x => predDst o.d && pReg o.a && pReg o.b && o.s == 0 && px 0 x
  | .por _ o x => predDst o.d && pReg o.a && pReg o.b && o.s == 0 && px 0 x
  | .pxor _ o x => predDst o.d && pReg o.a && pReg o.b && o.s == 0 && px 0 x
  | .pnot _ o x => predDst o.d && pReg o.a && o.b == 0 && o.s == 0 && px 0 x
  | .pcnt _ o x => dstOk .x o.d && pReg o.a && o.b == 0 && o.s == 0 && px 0 x
  | .pfirst _ o x => dstOk .x o.d && pReg o.a && o.b == 0 && o.s == 0 && px 0 x
  | .plen _ o x => predDst o.d && srcOk .x o.a && srcOk .x o.b && peekOk o.a o.b o.s && px 0 x
  | .pseg _ o x => predDst o.d && o.s == 0 && px 1 x
  | .vtox _ o x => dstOk .x o.d && srcOk .x o.b && peekOk 0 o.b o.s && px 1 x
  | .xtov _ o x => srcOk .x o.a && srcOk .x o.b && peekOk o.a o.b o.s && px 0 x
  | .vfmt _ o => o.d == 0 && srcOk .x o.a && o.b == 0 && peekOk o.a 0 o.s
  | .vfmtImm _ o x => o.d == 0 && o.a == 0 && o.b == 0 && o.s == 0 && x.pred == 0 && x.sela == 0 && x.selb == 0 && x.c == 0 && x.flags == 0
  | .slclaim _ o => dstOk .m o.d && srcOk .m o.a && o.b == 0 && getBits o.s 1 1 == 0
  | .slrel _ o => o.d == 0 && srcOk .m o.a && srcOk .m o.b && o.s == 0
  | .slqry _ o => dstOk .m o.d && srcOk .m o.a && o.b == 0 && o.s == 0
  | .accz _ o x => accF o.d x && o.a == 0 && o.b == 0 && o.s == 0 && noSide x
  | .accld _ o x => accF o.d x && srcOk .m o.a && srcOk .m o.b && o.s == 0 && noSide x
  | .nlvl _ o x => selMax o.d 5 && o.b == 0 && o.s == 0 && (if x.kind then o.a == 0 else srcOk .m o.a)
  | .nops _ o _ => selMax o.d 1 && o.a == 0 && o.b == 0 && o.s == 0
  | .nepi _ o x => o.d == 0 && memOk .m o x && o.s == 0
  | .nepiDef _ o => o.d == 0 && o.a == 0 && o.b == 0 && o.s == 1
  | .nmode _ o => selMax o.d 2 && o.a == 0 && o.b == 0 && o.s == 0
  | .nseg _ o => selMax o.d 2 && o.a == 0 && o.b == 0 && o.s == 0
  | .nscl _ o => selMax o.d 1 && srcOk .m o.a && o.b == 0 && o.s == 0
  | .ngo .. => true
  | .nwait .. => true
  | .ndrain _ o x => accF o.a x && o.b == 0 && o.s == 0 && ndrainOk o x
  | .smxrd _ o x => dstOk .m o.d && accF o.a x && srcOk .m o.b && o.s == 0 && noSide x
  | .smxset _ o x => accF o.d x && srcOk .m o.a && srcOk .m o.b && o.s == 0 && noSide x
  | .nqry _ o => dstOk .m o.d && selMax o.a 2 && o.b == 0 && o.s == 0
  | .wst _ o x => (o.d == 0 || o.d == 8) && memOk .w o x && o.s == 0
  | .wstd _ o x => (o.d == 0 || o.d == 8) && srcOk .w o.a && srcOk .w o.b && o.s == 0 && wstdX x
  | .wchain _ o x => o.d == 0 && o.s == 0 && kickX .w o x
  | .wpost _ o => o.d == 0 && srcOk .w o.a && srcOk .w o.b && o.s == 0
  | .wcmpl .. => true
  | .wflush .. => true
  | .qkick .. => true
  | .qevbits .. => true
  | .stkick .. => true
  | .pgdoneResident .. => true
  | .pgdoneUnmappable .. => true
  | .pgdoneDenied .. => true
  | .mtflushGo .. => true
  | .mtflushRetry .. => true
  | .mtflushDiscard .. => true
  | .tlbinv .. => true
  | .ctxcmdLoad .. => true
  | .ctxcmdSave .. => true
  | .ctxcmdDrain .. => true
  | .ctxcmdTeardown .. => true
  | .ctxcmdRelease .. => true
  | .ctxcmdSwap .. => true
  | .ctxcmdAbort .. => true
  | .ctxringConsWrite .. => true
  | .fpcmdAdd .. => true
  | .fpcmdTake .. => true
  | .fpcmdCount .. => true
  | .inspdRead => true
  | .inspdBreakpointWrite .. => true
  | .inspdResume .. => true
  | .traceSinkEnable .. => true
  | .registerWrite .. => true
  | .moduleReset => true
  | .coolantLimit .. => true
  | .junctionTemperature .. => true
  | .powerMeasure .. => true
  | .patrolScrub .. => true
  | .timingReplay .. => true
  | .firmwareLiveUpdate .. => true
  | .firmwareHeartbeatMiss => true
  | .strandPlace .. => true
  | .strandStart .. => true
  | .strandEnded .. => true
  | .deadlock .. => true
  | .waittExpire .. => true
  | .copyComplete .. => true
  | .slotFillComplete .. => true
  | .twarmComplete .. => true
  | .chainCopy .. => true
  | .chainGather .. => true
  | .chainPost .. => true
  | .chainWait .. => true
  | .chainLoop .. => true
  | .chainIf .. => true
  | .chainLink .. => true
  | .chainEnd .. => true
  | .indexComplete .. => true
  | .nestStep .. => true
  | .nestComplete .. => true
  | .nestSlotWaitLimit .. => true
  | .slclaimGrant .. => true
  | .phaseCommitDone .. => true
  | .phaseCancel .. => true
  | .phaseRefetchDone .. => true
  | .holdTimeout .. => true
  | .uncorrAbort .. => true
  | .pageWalk .. => true
  | .remoteRefusalRetry .. => true
  | .atomicEngineServe .. => true
  | .queueSlotGrant .. => true
  | .queueParse .. => true
  | .queueReread .. => true
  | .queueDispatch .. => true
  | .fencePacketTest .. => true
  | .qsubmitPush .. => true
  | .qsubmitFull .. => true
  | .taskRetire .. => true
  | .groupEvaluate .. => true
  | .bwaitTimeout .. => true
  | .ccwaitPoll .. => true
  | .ccwaitTimeout .. => true
  | .xcwaitTimeout .. => true
  | .contextLoadChecks .. => true
  | .contextResident .. => true
  | .contextSaved .. => true
  | .swapReload .. => true
  | .budgetPeriodRollover .. => true
  | .budgetExhausted .. => true
  | .preemptImmediate .. => true
  | .obdaokFrameReceive .. => true
  | .linkWrite .. => true
  | .linkWriteRed .. => true
  | .linkRead .. => true
  | .linkNotify .. => true
  | .linkAtomic .. => true
  | .linkAgree .. => true
  | .linkResponse .. => true
  | .linkKeepalive .. => true
  | .linkWidth .. => true
  | .linkPause .. => true
  | .linkResume .. => true
  | .portEnable .. => true
  | .portTrainingEnd .. => true
  | .portTrainingFail .. => true
  | .portLaneLost .. => true
  | .portDisable .. => true
  | .portReset .. => true
  | .ptpEventMessage .. => true
  | .grandmasterLoss => true
  | .workEntryFire .. => true
  | .workEntryComplete .. => true
  | .collectiveExpand .. => true
  | .linkHoldTimeout .. => true
  | .cadenceTick .. => true
  | .streamDeadline .. => true
  | .streamRecordAdmit .. => true
  | .traceSync .. => true
  | .traceEmitResume .. => true
  | .hostMemoryWrite .. => true
  | .pageMoveCopyDone .. => true
  | .tlbInvalidationComplete .. => true
  | .inletReturn .. => true
  | .heartbeatTimeout .. => true
  | .hubAgentHoldLimit .. => true
  | .stepOpenTimeout .. => true
  | .linkChainAcceptance .. => true

end Sys2Proof
end

