-- ==== Sys2Proof/Decode.lean ====
section
/-! DEFINITION. Decoding and encoding of instruction words (R59 to R78). decode reads a first word and, for
L = 1, its extension word, and rejects every other pair of words by the name of the check of R78 that fails
first. encode writes the words of an instruction from the same tables of the manual. -/

namespace Sys2Proof

/-- The checks of R78 that reject a word: 1, 2, 4, 5 and 6 or 7. -/
inductive DecodeError where
  /-- check 1: the extension word's ENG differs from the first word's -/
  | extEngine
  /-- check 2: no instruction has this opcode in the engine's space -/
  | unassigned
  /-- check 4: L = 1 with no long form, L = 0 where one is required, or no extension word in the text -/
  | longForm
  /-- check 5: a reserved bit is not zero -/
  | reservedBit
  /-- checks 6 and 7: a field holds a value its format or description forbids -/
  | forbidden
  deriving DecidableEq, Repr

abbrev Dec (α : Type) := Except DecodeError α

/-- The field [lo + n − 1 : lo] of a word. -/
def fld {w : Nat} (x : BitVec w) (lo n : Nat) : BitVec n := x.extractLsb' lo n

def flag {w : Nat} (x : BitVec w) (i : Nat) : Bool := x.getLsbD i

/-! ### Field layouts: reading and writing (R63, R65, R66, R192, R266, R293, R335) -/

def F3.of (o : BitVec 17) : F3 := ⟨fld o 12 5, fld o 7 5, fld o 2 5, fld o 0 2⟩
def F3.bits (f : F3) : BitVec 17 := f.d ++ f.a ++ f.b ++ f.s
def FI.of (o : BitVec 17) : FI := ⟨fld o 12 5, fld o 7 5, fld o 0 7⟩
def FI.bits (f : FI) : BitVec 17 := f.d ++ f.a ++ f.imm
def FU.of (o : BitVec 17) : FU := ⟨fld o 12 5, fld o 0 12⟩
def FU.bits (f : FU) : BitVec 17 := f.d ++ f.imm
def FB.of (o : BitVec 17) : FB := ⟨fld o 12 5, fld o 7 5, fld o 0 7⟩
def FB.bits (f : FB) : BitVec 17 := f.a ++ f.b ++ f.off
def FZ.of (o : BitVec 17) : FZ := ⟨fld o 12 5, fld o 0 12⟩
def FZ.bits (f : FZ) : BitVec 17 := f.a ++ f.off
def FL.of (o : BitVec 17) : FL := ⟨fld o 15 2, fld o 10 5, fld o 0 10⟩
def FL.bits (f : FL) : BitVec 17 := f.lv ++ f.cnt ++ f.endo

def XI.of (p : BitVec 30) : XI := ⟨fld p 0 25⟩
def XI.bits (x : XI) : BitVec 30 := 0#5 ++ x.immh
def XU.of (p : BitVec 30) : XU := ⟨fld p 0 20⟩
def XU.bits (x : XU) : BitVec 30 := 0#10 ++ x.immh
def XB.of (p : BitVec 30) : XB := ⟨fld p 27 3, fld p 0 16⟩
def XB.bits (x : XB) : BitVec 30 := x.pub ++ 0#11 ++ x.offh
def XZ.of (p : BitVec 30) : XZ := ⟨fld p 27 3, fld p 0 12⟩
def XZ.bits (x : XZ) : BitVec 30 := x.pub ++ 0#15 ++ x.offh
def XL.of (p : BitVec 30) : XL := ⟨flag p 29, fld p 25 4, fld p 23 2, fld p 0 4⟩
def XL.bits (x : XL) : BitVec 30 := BitVec.ofBool x.kind ++ x.sh ++ x.ext ++ 0#19 ++ x.endh
def XK.of (p : BitVec 30) : XK := ⟨fld p 4 26, fld p 0 4⟩
def XK.bits (x : XK) : BitVec 30 := x.cnth ++ x.endh
def XM.of (p : BitVec 30) : XM := ⟨flag p 27, fld p 0 27⟩
def XM.bits (x : XM) : BitVec 30 := 0#2 ++ BitVec.ofBool x.idx ++ x.offs
def XR.of (p : BitVec 30) : XR := ⟨fld p 25 5, fld p 6 6, fld p 0 6⟩
def XR.bits (x : XR) : BitVec 30 := x.c ++ 0#13 ++ x.pos ++ x.wid
def XV.of (p : BitVec 30) : XV := ⟨fld p 25 5, fld p 21 4, fld p 17 4, fld p 14 3, fld p 11 3, fld p 8 3, fld p 0 8⟩
def XV.bits (x : XV) : BitVec 30 := x.c ++ x.pred ++ x.fmt ++ x.rnd ++ x.sela ++ x.selb ++ x.flags
def XH.of (p : BitVec 30) : XH := ⟨fld p 23 7, fld p 16 7, flag p 15, fld p 0 14⟩
def XH.bits (x : XH) : BitVec 30 := x.ha ++ x.hb ++ BitVec.ofBool x.ia ++ 0#1 ++ x.op
def XA.of (p : BitVec 30) : XA := ⟨fld p 26 4, fld p 21 5, fld p 0 21⟩
def XA.bits (x : XA) : BitVec 30 := x.op ++ x.c ++ x.offs
def XP.of (p : BitVec 30) : XP := ⟨fld p 20 10, fld p 18 2⟩
def XP.bits (x : XP) : BitVec 30 := x.npg ++ x.size ++ 0#18
def MC.of (p : BitVec 30) : MC := ⟨fld p 24 6, flag p 23, flag p 22⟩
def MC.bits (x : MC) : BitVec 30 := x.cn ++ BitVec.ofBool x.ic ++ BitVec.ofBool x.side ++ 0#22
def NL.of (p : BitVec 30) : NL := ⟨flag p 29, fld p 25 4, fld p 23 2, flag p 22, fld p 15 7, fld p 8 7, fld p 1 7⟩
def NL.bits (x : NL) : BitVec 30 :=
  BitVec.ofBool x.kind ++ x.sh ++ x.ext ++ BitVec.ofBool x.k ++ x.sa ++ x.sb ++ x.sc ++ 0#1
def NO.of (p : BitVec 30) : NO := ⟨fld p 24 6, fld p 18 6, fld p 12 6, fld p 6 6, fld p 0 6⟩
def NO.bits (x : NO) : BitVec 30 := x.a0 ++ x.b0 ++ x.c0 ++ x.v0 ++ x.sx

def Ring.of (w : BitVec 4) : Ring := ⟨flag w 3, flag w 2, flag w 1, flag w 0⟩
def Ring.bits (r : Ring) : BitVec 4 :=
  BitVec.ofBool r.wp ++ BitVec.ofBool r.wn ++ BitVec.ofBool r.sp ++ BitVec.ofBool r.sn

/-! ### Forms: how an opcode's operand bits and payload become an instruction -/

/-- From the header, the operand bits [16:0] and the payload of the extension word, if any. -/
abbrev Form := Hd → BitVec 17 → Option (BitVec 30) → Dec Instr

/-- No operands: bits [16:0] reserved and no long form. -/
def formN (c : Hd → Instr) : Form := fun h o p =>
  if p.isSome then .error .longForm else if o = 0 then .ok (c h) else .error .reservedBit

/-- No long form. -/
def formS {α : Type} (of : BitVec 17 → α) (c : Hd → α → Instr) : Form := fun h o p =>
  if p.isSome then .error .longForm else .ok (c h (of o))

/-- A payload whose reserved bits are zero is the payload written from its own fields. -/
def payload {β : Type} (of : BitVec 30 → β) (bits : β → BitVec 30) (p : BitVec 30) : Dec β :=
  if bits (of p) = p then .ok (of p) else .error .reservedBit

/-- An optional long form. -/
def formO {α β : Type} (of : BitVec 17 → α) (xof : BitVec 30 → β) (xbits : β → BitVec 30)
    (c : Hd → α → Option β → Instr) : Form := fun h o p =>
  match p with
  | none => .ok (c h (of o) none)
  | some q => (payload xof xbits q).map fun x => c h (of o) (some x)

/-- A required long form. -/
def formR {α β : Type} (of : BitVec 17 → α) (xof : BitVec 30 → β) (xbits : β → BitVec 30)
    (c : Hd → α → β → Instr) : Form := fun h o p =>
  match p with
  | none => .error .longForm
  | some q => (payload xof xbits q).map fun x => c h (of o) x

/-- The instruction is chosen by the s field (bits [1:0]): STBIND, TRMARK, TRSPAN, NEPI. -/
def formSub (f : BitVec 2 → Option Form) : Form := fun h o p =>
  match f (fld o 0 2) with
  | some g => g h o p
  | none => .error .reservedBit

/-- The short and the long form are different instructions: VFMT. -/
def formSL (short long : Form) : Form := fun h o p => if p.isSome then long h o p else short h o p

/-! ### The opcode map (R74 to R77) -/

def commonOps0 : List (Nat × Form) := [
  (0x00, formN fun h => .nop h),
  (0x01, formO FZ.of XZ.of XZ.bits fun h o x => .b h o x),
  (0x02, formO FB.of XB.of XB.bits fun h o x => .beq h o x),
  (0x03, formO FB.of XB.of XB.bits fun h o x => .bne h o x),
  (0x04, formO FB.of XB.of XB.bits fun h o x => .blt h o x),
  (0x05, formO FB.of XB.of XB.bits fun h o x => .bge h o x),
  (0x06, formO FB.of XB.of XB.bits fun h o x => .bltu h o x),
  (0x07, formO FB.of XB.of XB.bits fun h o x => .bgeu h o x),
  (0x08, formO FZ.of XZ.of XZ.bits fun h o x => .bz h o x),
  (0x09, formO FZ.of XZ.of XZ.bits fun h o x => .bnz h o x),
  (0x0A, formO FZ.of XZ.of XZ.bits fun h o x => .bfol h o x),
  (0x0B, formO FZ.of XZ.of XZ.bits fun h o x => .call h o x),
  (0x0C, formS FZ.of fun h o => .ret h o),
  (0x0D, formO FZ.of XZ.of XZ.bits fun h o x => .jr h o x),
  (0x0E, formO FL.of XL.of XL.bits fun h o x => .loop h o x),
  (0x0F, formO FL.of XK.of XK.bits fun h o x => .loopi h o x),
  (0x10, formS FL.of fun h o => .brkl h o),
  (0x11, formS FU.of fun h o => .trap h o),
  (0x12, formS FU.of fun h o => .gets h o),
  (0x13, formS FU.of fun h o => .sets h o),
  (0x14, formN fun h => .tri h),
  (0x15, formS F3.of fun h o => .waitt h o),
  (0x16, formS FU.of fun h o => .fence h o),
  (0x17, formO F3.of XM.of XM.bits fun h o x => .ldaq h o x)]

def commonOps1 : List (Nat × Form) := [
  (0x18, formO F3.of XM.of XM.bits fun h o x => .strl h o x),
  (0x20, formS F3.of fun h o => .add h o),
  (0x21, formS F3.of fun h o => .sub h o),
  (0x22, formS F3.of fun h o => .mul h o),
  (0x23, formS F3.of fun h o => .mulh h o),
  (0x24, formS F3.of fun h o => .mulhu h o),
  (0x25, formS F3.of fun h o => .div h o),
  (0x26, formS F3.of fun h o => .divu h o),
  (0x27, formS F3.of fun h o => .rem h o),
  (0x28, formS F3.of fun h o => .remu h o),
  (0x29, formS F3.of fun h o => .and h o),
  (0x2A, formS F3.of fun h o => .or h o),
  (0x2B, formS F3.of fun h o => .xor h o),
  (0x2C, formS F3.of fun h o => .shl h o),
  (0x2D, formS F3.of fun h o => .shr h o),
  (0x2E, formS F3.of fun h o => .sra h o),
  (0x2F, formS F3.of fun h o => .min h o),
  (0x30, formS F3.of fun h o => .max h o),
  (0x31, formS F3.of fun h o => .minu h o),
  (0x32, formS F3.of fun h o => .maxu h o),
  (0x33, formS F3.of fun h o => .slt h o),
  (0x34, formS F3.of fun h o => .sltu h o),
  (0x35, formS F3.of fun h o => .seq h o),
  (0x36, formR F3.of XR.of XR.bits fun h o x => .madd h o x)]

def commonOps2 : List (Nat × Form) := [
  (0x37, formS F3.of fun h o => .clz h o),
  (0x38, formS F3.of fun h o => .popc h o),
  (0x39, formO F3.of XR.of XR.bits fun h o x => .bfx h o x),
  (0x3A, formO F3.of XR.of XR.bits fun h o x => .bfi h o x),
  (0x40, formO FI.of XI.of XI.bits fun h o x => .addi h o x),
  (0x41, formO FI.of XI.of XI.bits fun h o x => .andi h o x),
  (0x42, formO FI.of XI.of XI.bits fun h o x => .ori h o x),
  (0x43, formO FI.of XI.of XI.bits fun h o x => .xori h o x),
  (0x44, formO FI.of XI.of XI.bits fun h o x => .shli h o x),
  (0x45, formO FI.of XI.of XI.bits fun h o x => .shri h o x),
  (0x46, formO FI.of XI.of XI.bits fun h o x => .srai h o x),
  (0x47, formO FI.of XI.of XI.bits fun h o x => .slti h o x),
  (0x48, formO FU.of XU.of XU.bits fun h o x => .li h o x),
  (0x49, formO FU.of XU.of XU.bits fun h o x => .lih h o x),
  (0x4B, formO F3.of XM.of XM.bits fun h o x => .ld h o x),
  (0x4C, formO F3.of XM.of XM.bits fun h o x => .ldz h o x),
  (0x4D, formO F3.of XM.of XM.bits fun h o x => .st h o x),
  (0x4E, formO F3.of XM.of XM.bits fun h o x => .ldt h o x),
  (0x4F, formO F3.of XM.of XM.bits fun h o x => .stt h o x),
  (0x50, formS F3.of fun h o => .shset h o),
  (0x51, formO FU.of XU.of XU.bits fun h o x => .shseti h o x),
  (0x52, formS F3.of fun h o => .shget h o),
  (0x53, formS F3.of fun h o => .shmin h o),
  (0x54, formS F3.of fun h o => .shadd h o)]

def commonOps3 : List (Nat × Form) := [
  (0x55, formS F3.of fun h o => .shcpy h o),
  (0x56, formO F3.of XM.of XM.bits fun h o x => .lyld h o x),
  (0x57, formO F3.of XM.of XM.bits fun h o x => .lyst h o x),
  (0x58, formS F3.of fun h o => .lyget h o),
  (0x59, formS F3.of fun h o => .lyset h o),
  (0x5A, formS F3.of fun h o => .lyseg h o)]

/-- The common opcodes (R74). -/
def commonOps : List (Nat × Form) := commonOps0 ++ commonOps1 ++ commonOps2 ++ commonOps3

def aOps0 : List (Nat × Form) := [
  (0x60, formR F3.of XH.of XH.bits fun h o x => .talloc h.ring o x),
  (0x61, formO F3.of XH.of XH.bits fun h o x => .tfree h.ring o x),
  (0x62, formO F3.of XH.of XH.bits fun h o x => .tshrink h.ring o x),
  (0x63, formO F3.of XH.of XH.bits fun h o x => .ttag h.ring o x),
  (0x64, formO F3.of XH.of XH.bits fun h o x => .tqry h.ring o x),
  (0x65, formR F3.of XH.of XH.bits fun h o x => .tcopy h.ring o x),
  (0x66, formO F3.of XH.of XH.bits fun h o x => .tslot h.ring o x),
  (0x67, formR F3.of XH.of XH.bits fun h o x => .tgath h.ring o x),
  (0x68, formR F3.of XH.of XH.bits fun h o x => .tscat h.ring o x),
  (0x69, formR F3.of XH.of XH.bits fun h o x => .twarm h.ring o x),
  (0x6A, formO F3.of XH.of XH.bits fun h o x => .chkick h.ring o x),
  (0x6B, formS F3.of fun h o => .chlink h.ring o),
  (0x6C, formS F3.of fun h o => .ixwalk h.ring o),
  (0x6D, formS F3.of fun h o => .ixsplit h.ring o),
  (0x6E, formS F3.of fun h o => .tblk h.ring o),
  (0x70, formR F3.of XA.of XA.bits fun h o x => .atom h.ring o x),
  (0x71, formR F3.of XA.of XA.bits fun h o x => .atomr h.ring o x),
  (0x72, formR F3.of XA.of XA.bits fun h o x => .cas h.ring o x),
  (0x78, formS F3.of fun h o => .qsubmit h.ring o),
  (0x79, formS F3.of fun h o => .qstat h.ring o),
  (0x7A, formS F3.of fun h o => .ginfo h.ring o),
  (0x7B, formS F3.of fun h o => .gyield h.ring o),
  (0x7C, formS F3.of fun h o => .mdisp h.ring o),
  (0x7D, formS F3.of fun h o => .ctxinfo h.ring o)]

def aOps1 : List (Nat × Form) := [
  (0x80, formS F3.of fun h o => .bjoin h.ring o),
  (0x81, formS F3.of fun h o => .barv h.ring o),
  (0x82, formS F3.of fun h o => .bwait h.ring o),
  (0x83, formS F3.of fun h o => .bleave h.ring o),
  (0x84, formS F3.of fun h o => .ccadd h.ring o),
  (0x85, formS F3.of fun h o => .ccwait h.ring o),
  (0x88, formO F3.of XP.of XP.bits fun h o x => .pgfork h.ring o x),
  (0x89, formO F3.of XP.of XP.bits fun h o x => .pgdrop h.ring o x),
  (0x8A, formO F3.of XP.of XP.bits fun h o x => .pgpin h.ring o x),
  (0x8B, formO F3.of XP.of XP.bits fun h o x => .pgunpin h.ring o x),
  (0x8C, formS F3.of fun h o => .pgqry h.ring o),
  (0x8D, formO F3.of XP.of XP.bits fun h o x => .pgmove h.ring o x),
  (0x90, formS F3.of fun h o => .xcpost h.ring o),
  (0x91, formS F3.of fun h o => .xcarm h.ring o),
  (0x92, formS F3.of fun h o => .xcwait h.ring o),
  (0x93, formS F3.of fun h o => .xcqry h.ring o),
  (0x98, formSub fun s =>
      if s = 0 then some (formS F3.of fun h o => .stbindOpen h.ring o)
      else if s = 1 then some (formS F3.of fun h o => .stbindAppend h.ring o)
      else if s = 2 then some (formS F3.of fun h o => .stbindCommit h.ring o)
      else if s = 3 then some (formS F3.of fun h o => .stbindClose h.ring o)
      else none),
  (0x99, formS F3.of fun h o => .sttake h.ring o),
  (0x9A, formS F3.of fun h o => .sttick h.ring o),
  (0x9B, formS F3.of fun h o => .stlate h.ring o),
  (0x9C, formS F3.of fun h o => .stsink h.ring o),
  (0xA0, formSub fun s =>
      if s = 0 then some (formS F3.of fun h o => .trmark h.ring o)
      else if s = 1 then some (formS F3.of fun h o => .trmarkL h.ring o)
      else none),
  (0xA1, formSub fun s =>
      if s = 0 then some (formS F3.of fun h o => .trspanBegin h.ring o)
      else if s = 1 then some (formS F3.of fun h o => .trspanEnd h.ring o)
      else none),
  (0xA2, formS F3.of fun h o => .trqry h.ring o)]

def aOps2 : List (Nat × Form) := [
  (0xA8, formS F3.of fun h o => .staterd h.ring o)]

/-- The A engine's own opcodes (R75). -/
def aOps : List (Nat × Form) := aOps0 ++ aOps1 ++ aOps2

def xOps0 : List (Nat × Form) := [
  (0x60, formO F3.of XV.of XV.bits fun h o x => .vadd h.ring o x),
  (0x61, formO F3.of XV.of XV.bits fun h o x => .vsub h.ring o x),
  (0x62, formO F3.of XV.of XV.bits fun h o x => .vmul h.ring o x),
  (0x63, formR F3.of XV.of XV.bits fun h o x => .vfma h.ring o x),
  (0x64, formO F3.of XV.of XV.bits fun h o x => .vmin h.ring o x),
  (0x65, formO F3.of XV.of XV.bits fun h o x => .vmax h.ring o x),
  (0x66, formO F3.of XV.of XV.bits fun h o x => .vabs h.ring o x),
  (0x67, formO F3.of XV.of XV.bits fun h o x => .vneg h.ring o x),
  (0x68, formO F3.of XV.of XV.bits fun h o x => .vand h.ring o x),
  (0x69, formO F3.of XV.of XV.bits fun h o x => .vor h.ring o x),
  (0x6A, formO F3.of XV.of XV.bits fun h o x => .vxor h.ring o x),
  (0x6B, formO F3.of XV.of XV.bits fun h o x => .vnot h.ring o x),
  (0x6C, formO F3.of XV.of XV.bits fun h o x => .vshl h.ring o x),
  (0x6D, formO F3.of XV.of XV.bits fun h o x => .vshr h.ring o x),
  (0x6E, formO F3.of XV.of XV.bits fun h o x => .vsra h.ring o x),
  (0x6F, formO F3.of XV.of XV.bits fun h o x => .vcmp h.ring o x),
  (0x70, formO F3.of XV.of XV.bits fun h o x => .vsel h.ring o x),
  (0x71, formO F3.of XV.of XV.bits fun h o x => .vmov h.ring o x),
  (0x72, formO F3.of XV.of XV.bits fun h o x => .vsplat h.ring o x),
  (0x73, formO F3.of XV.of XV.bits fun h o x => .vidx h.ring o x),
  (0x74, formR F3.of XV.of XV.bits fun h o x => .vcvt h.ring o x),
  (0x75, formR F3.of XV.of XV.bits fun h o x => .vpack h.ring o x),
  (0x76, formO F3.of XV.of XV.bits fun h o x => .vunpk h.ring o x),
  (0x77, formO F3.of XV.of XV.bits fun h o x => .vqnt h.ring o x)]

def xOps1 : List (Nat × Form) := [
  (0x78, formO F3.of XV.of XV.bits fun h o x => .vdqnt h.ring o x),
  (0x80, formO F3.of XV.of XV.bits fun h o x => .vrotr h.ring o x),
  (0x81, formO F3.of XV.of XV.bits fun h o x => .vrotc h.ring o x),
  (0x82, formO F3.of XV.of XV.bits fun h o x => .vbcr h.ring o x),
  (0x83, formO F3.of XV.of XV.bits fun h o x => .vbcc h.ring o x),
  (0x84, formO F3.of XV.of XV.bits fun h o x => .vredr h.ring o x),
  (0x85, formO F3.of XV.of XV.bits fun h o x => .vredc h.ring o x),
  (0x86, formO F3.of XV.of XV.bits fun h o x => .vargr h.ring o x),
  (0x87, formO F3.of XV.of XV.bits fun h o x => .vargc h.ring o x),
  (0x88, formO F3.of XV.of XV.bits fun h o x => .vscanr h.ring o x),
  (0x89, formO F3.of XV.of XV.bits fun h o x => .vscanc h.ring o x),
  (0x8A, formO F3.of XV.of XV.bits fun h o x => .vtrn h.ring o x),
  (0x90, formO F3.of XV.of XV.bits fun h o x => .vexp2 h.ring o x),
  (0x91, formO F3.of XV.of XV.bits fun h o x => .vlog2 h.ring o x),
  (0x92, formO F3.of XV.of XV.bits fun h o x => .vrcp h.ring o x),
  (0x93, formO F3.of XV.of XV.bits fun h o x => .vrsq h.ring o x),
  (0x94, formO F3.of XV.of XV.bits fun h o x => .vtanh h.ring o x),
  (0x95, formO F3.of XV.of XV.bits fun h o x => .vsigm h.ring o x),
  (0x96, formO F3.of XV.of XV.bits fun h o x => .vsin h.ring o x),
  (0x97, formO F3.of XV.of XV.bits fun h o x => .vcos h.ring o x),
  (0xA0, formO F3.of XV.of XV.bits fun h o x => .vld h.ring o x),
  (0xA1, formO F3.of XV.of XV.bits fun h o x => .vst h.ring o x),
  (0xA2, formO F3.of XV.of XV.bits fun h o x => .vldg h.ring o x),
  (0xA3, formO F3.of XV.of XV.bits fun h o x => .vstg h.ring o x)]

def xOps2 : List (Nat × Form) := [
  (0xB0, formO F3.of XV.of XV.bits fun h o x => .pand h.ring o x),
  (0xB1, formO F3.of XV.of XV.bits fun h o x => .por h.ring o x),
  (0xB2, formO F3.of XV.of XV.bits fun h o x => .pxor h.ring o x),
  (0xB3, formO F3.of XV.of XV.bits fun h o x => .pnot h.ring o x),
  (0xB4, formO F3.of XV.of XV.bits fun h o x => .pcnt h.ring o x),
  (0xB5, formO F3.of XV.of XV.bits fun h o x => .pfirst h.ring o x),
  (0xB6, formO F3.of XV.of XV.bits fun h o x => .plen h.ring o x),
  (0xB7, formO F3.of XV.of XV.bits fun h o x => .pseg h.ring o x),
  (0xB8, formO F3.of XV.of XV.bits fun h o x => .vtox h.ring o x),
  (0xB9, formO F3.of XV.of XV.bits fun h o x => .xtov h.ring o x),
  (0xBA, formSL (formS F3.of fun h o => .vfmt h.ring o)
      (formR F3.of XV.of XV.bits fun h o x => .vfmtImm h.ring o x))]

/-- The X engine's own opcodes (R76). -/
def xOps : List (Nat × Form) := xOps0 ++ xOps1 ++ xOps2

/-- The M engine's own opcodes (R77). -/
def mOps : List (Nat × Form) := [
  (0x60, formS F3.of fun h o => .slclaim h.ring o),
  (0x61, formS F3.of fun h o => .slrel h.ring o),
  (0x62, formS F3.of fun h o => .slqry h.ring o),
  (0x63, formO F3.of MC.of MC.bits fun h o x => .accz h.ring o x),
  (0x64, formO F3.of MC.of MC.bits fun h o x => .accld h.ring o x),
  (0x65, formR F3.of NL.of NL.bits fun h o x => .nlvl h.ring o x),
  (0x66, formR F3.of NO.of NO.bits fun h o x => .nops h.ring o x),
  (0x67, formSub fun s =>
      if s = 0 then some (formO F3.of XM.of XM.bits fun h o x => .nepi h.ring o x)
      else if s = 1 then some (formS F3.of fun h o => .nepiDef h.ring o)
      else none),
  (0x68, formS F3.of fun h o => .nmode h.ring o),
  (0x69, formS F3.of fun h o => .nseg h.ring o),
  (0x6A, formS F3.of fun h o => .nscl h.ring o),
  (0x6B, formN fun h => .ngo h.ring),
  (0x6C, formN fun h => .nwait h.ring),
  (0x6D, formO F3.of MC.of MC.bits fun h o x => .ndrain h.ring o x),
  (0x6E, formO F3.of MC.of MC.bits fun h o x => .smxrd h.ring o x),
  (0x6F, formO F3.of MC.of MC.bits fun h o x => .smxset h.ring o x),
  (0x70, formS F3.of fun h o => .nqry h.ring o)]

/-- The W engine's own opcodes (R77). -/
def wOps : List (Nat × Form) := [
  (0x60, formO F3.of XM.of XM.bits fun h o x => .wst h.ring o x),
  (0x61, formO F3.of XM.of XM.bits fun h o x => .wstd h.ring o x),
  (0x62, formO F3.of XH.of XH.bits fun h o x => .wchain h.ring o x),
  (0x63, formS F3.of fun h o => .wpost h.ring o),
  (0x64, formN fun h => .wcmpl h.ring),
  (0x65, formN fun h => .wflush h.ring)]

def ownOps : Eng → List (Nat × Form)
  | .a => aOps | .x => xOps | .m => mOps | .w => wOps

/-- The form of an opcode in an engine's space; the common opcodes lie below 0x60. -/
def findForm (g : Eng) (opc : Nat) : Option Form :=
  if opc < 0x60 then commonOps.lookup opc else (ownOps g).lookup opc

/-- A joint word (R70): SUB, T and MHI; bits outside them reserved; only PHASE has a long form. -/
def decodeJoint (ring : BitVec 4) (o : BitVec 17) (p : Option (BitVec 30)) : Dec Instr :=
  let sub := (fld o 12 5).toNat
  let t := flag o 11
  let mhi := fld o 0 2
  let rest := fld o 2 9
  if 4 < sub then .error .unassigned
  else if p.isSome && sub != 1 then .error .longForm
  else if ring != 0 || rest != 0 || (t && sub != 2) || (mhi != 0 && sub != 1) then .error .reservedBit
  else if sub = 0 then .ok .sync
  else if sub = 1 then
    match p with
    | none => .ok (.phase mhi)
    | some q => .ok (.phaseLong mhi q)
  else if sub = 2 then .ok (.mode t)
  else if sub = 3 then .ok .endJ
  else .ok .yieldJ

/-- The header of a first word. -/
def headOf (w : W32) : Hd := ⟨Eng.ofCode (fld w 30 2), Ring.of (fld w 26 4)⟩

def isLong (w : W32) : Bool := flag w 25

/-- Checks 1, 2, 4 and 5 of R78. w1 is the next word of the text, if there is one. -/
def decodeWords (w0 : W32) (w1 : Option W32) : Dec Instr :=
  let h := headOf w0
  let opc := (fld w0 17 8).toNat
  let o := fld w0 0 17
  let ext := if isLong w0 then w1 else none
  if isLong w0 && w1.isNone then .error .longForm
  else if (match ext with | some e => fld e 30 2 != fld w0 30 2 | none => false) then .error .extEngine
  else
    let p := ext.map fun e => fld e 0 30
    if h.g = .a ∧ opc = 0xFF then decodeJoint (fld w0 26 4) o p
    else match findForm h.g opc with
      | none => .error .unassigned
      | some f => f h o p

/-- The instruction of a first word and the word after it, total on any words. -/
def decode (w0 : W32) (w1 : Option W32) : Dec Instr :=
  match decodeWords w0 w1 with
  | .error e => .error e
  | .ok i => if i.wellFormed then .ok i else .error .forbidden

/-! ### The encoder -/

/-- What an instruction's words hold: the engine, the ring bits, the opcode, the operand bits and the payload. -/
structure Parts where
  g   : Eng
  rb  : BitVec 4
  opc : Nat
  o   : BitVec 17
  p   : Option (BitVec 30)
  deriving DecidableEq, Repr

def joint (sub : BitVec 5) (t : Bool) (mhi : BitVec 2) (p : Option (BitVec 30)) : Option Parts :=
  some ⟨.a, 0, 0xFF, sub ++ BitVec.ofBool t ++ 0#9 ++ mhi, p⟩

/-- The parts of an instruction; an event has no words. -/
def Instr.parts : Instr → Option Parts
  | .nop h => some ⟨h.g, h.ring.bits, 0x00, 0, none⟩
  | .b h o x => some ⟨h.g, h.ring.bits, 0x01, o.bits, x.map XZ.bits⟩
  | .beq h o x => some ⟨h.g, h.ring.bits, 0x02, o.bits, x.map XB.bits⟩
  | .bne h o x => some ⟨h.g, h.ring.bits, 0x03, o.bits, x.map XB.bits⟩
  | .blt h o x => some ⟨h.g, h.ring.bits, 0x04, o.bits, x.map XB.bits⟩
  | .bge h o x => some ⟨h.g, h.ring.bits, 0x05, o.bits, x.map XB.bits⟩
  | .bltu h o x => some ⟨h.g, h.ring.bits, 0x06, o.bits, x.map XB.bits⟩
  | .bgeu h o x => some ⟨h.g, h.ring.bits, 0x07, o.bits, x.map XB.bits⟩
  | .bz h o x => some ⟨h.g, h.ring.bits, 0x08, o.bits, x.map XZ.bits⟩
  | .bnz h o x => some ⟨h.g, h.ring.bits, 0x09, o.bits, x.map XZ.bits⟩
  | .bfol h o x => some ⟨h.g, h.ring.bits, 0x0A, o.bits, x.map XZ.bits⟩
  | .call h o x => some ⟨h.g, h.ring.bits, 0x0B, o.bits, x.map XZ.bits⟩
  | .ret h o => some ⟨h.g, h.ring.bits, 0x0C, o.bits, none⟩
  | .jr h o x => some ⟨h.g, h.ring.bits, 0x0D, o.bits, x.map XZ.bits⟩
  | .loop h o x => some ⟨h.g, h.ring.bits, 0x0E, o.bits, x.map XL.bits⟩
  | .loopi h o x => some ⟨h.g, h.ring.bits, 0x0F, o.bits, x.map XK.bits⟩
  | .brkl h o => some ⟨h.g, h.ring.bits, 0x10, o.bits, none⟩
  | .trap h o => some ⟨h.g, h.ring.bits, 0x11, o.bits, none⟩
  | .gets h o => some ⟨h.g, h.ring.bits, 0x12, o.bits, none⟩
  | .sets h o => some ⟨h.g, h.ring.bits, 0x13, o.bits, none⟩
  | .tri h => some ⟨h.g, h.ring.bits, 0x14, 0, none⟩
  | .waitt h o => some ⟨h.g, h.ring.bits, 0x15, o.bits, none⟩
  | .fence h o => some ⟨h.g, h.ring.bits, 0x16, o.bits, none⟩
  | .ldaq h o x => some ⟨h.g, h.ring.bits, 0x17, o.bits, x.map XM.bits⟩
  | .strl h o x => some ⟨h.g, h.ring.bits, 0x18, o.bits, x.map XM.bits⟩
  | .add h o => some ⟨h.g, h.ring.bits, 0x20, o.bits, none⟩
  | .sub h o => some ⟨h.g, h.ring.bits, 0x21, o.bits, none⟩
  | .mul h o => some ⟨h.g, h.ring.bits, 0x22, o.bits, none⟩
  | .mulh h o => some ⟨h.g, h.ring.bits, 0x23, o.bits, none⟩
  | .mulhu h o => some ⟨h.g, h.ring.bits, 0x24, o.bits, none⟩
  | .div h o => some ⟨h.g, h.ring.bits, 0x25, o.bits, none⟩
  | .divu h o => some ⟨h.g, h.ring.bits, 0x26, o.bits, none⟩
  | .rem h o => some ⟨h.g, h.ring.bits, 0x27, o.bits, none⟩
  | .remu h o => some ⟨h.g, h.ring.bits, 0x28, o.bits, none⟩
  | .and h o => some ⟨h.g, h.ring.bits, 0x29, o.bits, none⟩
  | .or h o => some ⟨h.g, h.ring.bits, 0x2A, o.bits, none⟩
  | .xor h o => some ⟨h.g, h.ring.bits, 0x2B, o.bits, none⟩
  | .shl h o => some ⟨h.g, h.ring.bits, 0x2C, o.bits, none⟩
  | .shr h o => some ⟨h.g, h.ring.bits, 0x2D, o.bits, none⟩
  | .sra h o => some ⟨h.g, h.ring.bits, 0x2E, o.bits, none⟩
  | .min h o => some ⟨h.g, h.ring.bits, 0x2F, o.bits, none⟩
  | .max h o => some ⟨h.g, h.ring.bits, 0x30, o.bits, none⟩
  | .minu h o => some ⟨h.g, h.ring.bits, 0x31, o.bits, none⟩
  | .maxu h o => some ⟨h.g, h.ring.bits, 0x32, o.bits, none⟩
  | .slt h o => some ⟨h.g, h.ring.bits, 0x33, o.bits, none⟩
  | .sltu h o => some ⟨h.g, h.ring.bits, 0x34, o.bits, none⟩
  | .seq h o => some ⟨h.g, h.ring.bits, 0x35, o.bits, none⟩
  | .madd h o x => some ⟨h.g, h.ring.bits, 0x36, o.bits, some x.bits⟩
  | .clz h o => some ⟨h.g, h.ring.bits, 0x37, o.bits, none⟩
  | .popc h o => some ⟨h.g, h.ring.bits, 0x38, o.bits, none⟩
  | .bfx h o x => some ⟨h.g, h.ring.bits, 0x39, o.bits, x.map XR.bits⟩
  | .bfi h o x => some ⟨h.g, h.ring.bits, 0x3A, o.bits, x.map XR.bits⟩
  | .addi h o x => some ⟨h.g, h.ring.bits, 0x40, o.bits, x.map XI.bits⟩
  | .andi h o x => some ⟨h.g, h.ring.bits, 0x41, o.bits, x.map XI.bits⟩
  | .ori h o x => some ⟨h.g, h.ring.bits, 0x42, o.bits, x.map XI.bits⟩
  | .xori h o x => some ⟨h.g, h.ring.bits, 0x43, o.bits, x.map XI.bits⟩
  | .shli h o x => some ⟨h.g, h.ring.bits, 0x44, o.bits, x.map XI.bits⟩
  | .shri h o x => some ⟨h.g, h.ring.bits, 0x45, o.bits, x.map XI.bits⟩
  | .srai h o x => some ⟨h.g, h.ring.bits, 0x46, o.bits, x.map XI.bits⟩
  | .slti h o x => some ⟨h.g, h.ring.bits, 0x47, o.bits, x.map XI.bits⟩
  | .li h o x => some ⟨h.g, h.ring.bits, 0x48, o.bits, x.map XU.bits⟩
  | .lih h o x => some ⟨h.g, h.ring.bits, 0x49, o.bits, x.map XU.bits⟩
  | .ld h o x => some ⟨h.g, h.ring.bits, 0x4B, o.bits, x.map XM.bits⟩
  | .ldz h o x => some ⟨h.g, h.ring.bits, 0x4C, o.bits, x.map XM.bits⟩
  | .st h o x => some ⟨h.g, h.ring.bits, 0x4D, o.bits, x.map XM.bits⟩
  | .ldt h o x => some ⟨h.g, h.ring.bits, 0x4E, o.bits, x.map XM.bits⟩
  | .stt h o x => some ⟨h.g, h.ring.bits, 0x4F, o.bits, x.map XM.bits⟩
  | .shset h o => some ⟨h.g, h.ring.bits, 0x50, o.bits, none⟩
  | .shseti h o x => some ⟨h.g, h.ring.bits, 0x51, o.bits, x.map XU.bits⟩
  | .shget h o => some ⟨h.g, h.ring.bits, 0x52, o.bits, none⟩
  | .shmin h o => some ⟨h.g, h.ring.bits, 0x53, o.bits, none⟩
  | .shadd h o => some ⟨h.g, h.ring.bits, 0x54, o.bits, none⟩
  | .shcpy h o => some ⟨h.g, h.ring.bits, 0x55, o.bits, none⟩
  | .lyld h o x => some ⟨h.g, h.ring.bits, 0x56, o.bits, x.map XM.bits⟩
  | .lyst h o x => some ⟨h.g, h.ring.bits, 0x57, o.bits, x.map XM.bits⟩
  | .lyget h o => some ⟨h.g, h.ring.bits, 0x58, o.bits, none⟩
  | .lyset h o => some ⟨h.g, h.ring.bits, 0x59, o.bits, none⟩
  | .lyseg h o => some ⟨h.g, h.ring.bits, 0x5A, o.bits, none⟩
  | .sync => joint 0 false 0 none
  | .phase mhi => joint 1 false mhi none
  | .phaseLong mhi m => joint 1 false mhi (some m)
  | .mode t => joint 2 t 0 none
  | .endJ => joint 3 false 0 none
  | .yieldJ => joint 4 false 0 none
  | .talloc r o x => some ⟨.a, r.bits, 0x60, o.bits, some x.bits⟩
  | .tfree r o x => some ⟨.a, r.bits, 0x61, o.bits, x.map XH.bits⟩
  | .tshrink r o x => some ⟨.a, r.bits, 0x62, o.bits, x.map XH.bits⟩
  | .ttag r o x => some ⟨.a, r.bits, 0x63, o.bits, x.map XH.bits⟩
  | .tqry r o x => some ⟨.a, r.bits, 0x64, o.bits, x.map XH.bits⟩
  | .tcopy r o x => some ⟨.a, r.bits, 0x65, o.bits, some x.bits⟩
  | .tslot r o x => some ⟨.a, r.bits, 0x66, o.bits, x.map XH.bits⟩
  | .tgath r o x => some ⟨.a, r.bits, 0x67, o.bits, some x.bits⟩
  | .tscat r o x => some ⟨.a, r.bits, 0x68, o.bits, some x.bits⟩
  | .twarm r o x => some ⟨.a, r.bits, 0x69, o.bits, some x.bits⟩
  | .chkick r o x => some ⟨.a, r.bits, 0x6A, o.bits, x.map XH.bits⟩
  | .chlink r o => some ⟨.a, r.bits, 0x6B, o.bits, none⟩
  | .ixwalk r o => some ⟨.a, r.bits, 0x6C, o.bits, none⟩
  | .ixsplit r o => some ⟨.a, r.bits, 0x6D, o.bits, none⟩
  | .tblk r o => some ⟨.a, r.bits, 0x6E, o.bits, none⟩
  | .atom r o x => some ⟨.a, r.bits, 0x70, o.bits, some x.bits⟩
  | .atomr r o x => some ⟨.a, r.bits, 0x71, o.bits, some x.bits⟩
  | .cas r o x => some ⟨.a, r.bits, 0x72, o.bits, some x.bits⟩
  | .qsubmit r o => some ⟨.a, r.bits, 0x78, o.bits, none⟩
  | .qstat r o => some ⟨.a, r.bits, 0x79, o.bits, none⟩
  | .ginfo r o => some ⟨.a, r.bits, 0x7A, o.bits, none⟩
  | .gyield r o => some ⟨.a, r.bits, 0x7B, o.bits, none⟩
  | .mdisp r o => some ⟨.a, r.bits, 0x7C, o.bits, none⟩
  | .ctxinfo r o => some ⟨.a, r.bits, 0x7D, o.bits, none⟩
  | .bjoin r o => some ⟨.a, r.bits, 0x80, o.bits, none⟩
  | .barv r o => some ⟨.a, r.bits, 0x81, o.bits, none⟩
  | .bwait r o => some ⟨.a, r.bits, 0x82, o.bits, none⟩
  | .bleave r o => some ⟨.a, r.bits, 0x83, o.bits, none⟩
  | .ccadd r o => some ⟨.a, r.bits, 0x84, o.bits, none⟩
  | .ccwait r o => some ⟨.a, r.bits, 0x85, o.bits, none⟩
  | .pgfork r o x => some ⟨.a, r.bits, 0x88, o.bits, x.map XP.bits⟩
  | .pgdrop r o x => some ⟨.a, r.bits, 0x89, o.bits, x.map XP.bits⟩
  | .pgpin r o x => some ⟨.a, r.bits, 0x8A, o.bits, x.map XP.bits⟩
  | .pgunpin r o x => some ⟨.a, r.bits, 0x8B, o.bits, x.map XP.bits⟩
  | .pgqry r o => some ⟨.a, r.bits, 0x8C, o.bits, none⟩
  | .pgmove r o x => some ⟨.a, r.bits, 0x8D, o.bits, x.map XP.bits⟩
  | .xcpost r o => some ⟨.a, r.bits, 0x90, o.bits, none⟩
  | .xcarm r o => some ⟨.a, r.bits, 0x91, o.bits, none⟩
  | .xcwait r o => some ⟨.a, r.bits, 0x92, o.bits, none⟩
  | .xcqry r o => some ⟨.a, r.bits, 0x93, o.bits, none⟩
  | .stbindOpen r o => some ⟨.a, r.bits, 0x98, o.bits, none⟩
  | .stbindAppend r o => some ⟨.a, r.bits, 0x98, o.bits, none⟩
  | .stbindCommit r o => some ⟨.a, r.bits, 0x98, o.bits, none⟩
  | .stbindClose r o => some ⟨.a, r.bits, 0x98, o.bits, none⟩
  | .sttake r o => some ⟨.a, r.bits, 0x99, o.bits, none⟩
  | .sttick r o => some ⟨.a, r.bits, 0x9A, o.bits, none⟩
  | .stlate r o => some ⟨.a, r.bits, 0x9B, o.bits, none⟩
  | .stsink r o => some ⟨.a, r.bits, 0x9C, o.bits, none⟩
  | .trmark r o => some ⟨.a, r.bits, 0xA0, o.bits, none⟩
  | .trmarkL r o => some ⟨.a, r.bits, 0xA0, o.bits, none⟩
  | .trspanBegin r o => some ⟨.a, r.bits, 0xA1, o.bits, none⟩
  | .trspanEnd r o => some ⟨.a, r.bits, 0xA1, o.bits, none⟩
  | .trqry r o => some ⟨.a, r.bits, 0xA2, o.bits, none⟩
  | .staterd r o => some ⟨.a, r.bits, 0xA8, o.bits, none⟩
  | .vadd r o x => some ⟨.x, r.bits, 0x60, o.bits, x.map XV.bits⟩
  | .vsub r o x => some ⟨.x, r.bits, 0x61, o.bits, x.map XV.bits⟩
  | .vmul r o x => some ⟨.x, r.bits, 0x62, o.bits, x.map XV.bits⟩
  | .vfma r o x => some ⟨.x, r.bits, 0x63, o.bits, some x.bits⟩
  | .vmin r o x => some ⟨.x, r.bits, 0x64, o.bits, x.map XV.bits⟩
  | .vmax r o x => some ⟨.x, r.bits, 0x65, o.bits, x.map XV.bits⟩
  | .vabs r o x => some ⟨.x, r.bits, 0x66, o.bits, x.map XV.bits⟩
  | .vneg r o x => some ⟨.x, r.bits, 0x67, o.bits, x.map XV.bits⟩
  | .vand r o x => some ⟨.x, r.bits, 0x68, o.bits, x.map XV.bits⟩
  | .vor r o x => some ⟨.x, r.bits, 0x69, o.bits, x.map XV.bits⟩
  | .vxor r o x => some ⟨.x, r.bits, 0x6A, o.bits, x.map XV.bits⟩
  | .vnot r o x => some ⟨.x, r.bits, 0x6B, o.bits, x.map XV.bits⟩
  | .vshl r o x => some ⟨.x, r.bits, 0x6C, o.bits, x.map XV.bits⟩
  | .vshr r o x => some ⟨.x, r.bits, 0x6D, o.bits, x.map XV.bits⟩
  | .vsra r o x => some ⟨.x, r.bits, 0x6E, o.bits, x.map XV.bits⟩
  | .vcmp r o x => some ⟨.x, r.bits, 0x6F, o.bits, x.map XV.bits⟩
  | .vsel r o x => some ⟨.x, r.bits, 0x70, o.bits, x.map XV.bits⟩
  | .vmov r o x => some ⟨.x, r.bits, 0x71, o.bits, x.map XV.bits⟩
  | .vsplat r o x => some ⟨.x, r.bits, 0x72, o.bits, x.map XV.bits⟩
  | .vidx r o x => some ⟨.x, r.bits, 0x73, o.bits, x.map XV.bits⟩
  | .vcvt r o x => some ⟨.x, r.bits, 0x74, o.bits, some x.bits⟩
  | .vpack r o x => some ⟨.x, r.bits, 0x75, o.bits, some x.bits⟩
  | .vunpk r o x => some ⟨.x, r.bits, 0x76, o.bits, x.map XV.bits⟩
  | .vqnt r o x => some ⟨.x, r.bits, 0x77, o.bits, x.map XV.bits⟩
  | .vdqnt r o x => some ⟨.x, r.bits, 0x78, o.bits, x.map XV.bits⟩
  | .vrotr r o x => some ⟨.x, r.bits, 0x80, o.bits, x.map XV.bits⟩
  | .vrotc r o x => some ⟨.x, r.bits, 0x81, o.bits, x.map XV.bits⟩
  | .vbcr r o x => some ⟨.x, r.bits, 0x82, o.bits, x.map XV.bits⟩
  | .vbcc r o x => some ⟨.x, r.bits, 0x83, o.bits, x.map XV.bits⟩
  | .vredr r o x => some ⟨.x, r.bits, 0x84, o.bits, x.map XV.bits⟩
  | .vredc r o x => some ⟨.x, r.bits, 0x85, o.bits, x.map XV.bits⟩
  | .vargr r o x => some ⟨.x, r.bits, 0x86, o.bits, x.map XV.bits⟩
  | .vargc r o x => some ⟨.x, r.bits, 0x87, o.bits, x.map XV.bits⟩
  | .vscanr r o x => some ⟨.x, r.bits, 0x88, o.bits, x.map XV.bits⟩
  | .vscanc r o x => some ⟨.x, r.bits, 0x89, o.bits, x.map XV.bits⟩
  | .vtrn r o x => some ⟨.x, r.bits, 0x8A, o.bits, x.map XV.bits⟩
  | .vexp2 r o x => some ⟨.x, r.bits, 0x90, o.bits, x.map XV.bits⟩
  | .vlog2 r o x => some ⟨.x, r.bits, 0x91, o.bits, x.map XV.bits⟩
  | .vrcp r o x => some ⟨.x, r.bits, 0x92, o.bits, x.map XV.bits⟩
  | .vrsq r o x => some ⟨.x, r.bits, 0x93, o.bits, x.map XV.bits⟩
  | .vtanh r o x => some ⟨.x, r.bits, 0x94, o.bits, x.map XV.bits⟩
  | .vsigm r o x => some ⟨.x, r.bits, 0x95, o.bits, x.map XV.bits⟩
  | .vsin r o x => some ⟨.x, r.bits, 0x96, o.bits, x.map XV.bits⟩
  | .vcos r o x => some ⟨.x, r.bits, 0x97, o.bits, x.map XV.bits⟩
  | .vld r o x => some ⟨.x, r.bits, 0xA0, o.bits, x.map XV.bits⟩
  | .vst r o x => some ⟨.x, r.bits, 0xA1, o.bits, x.map XV.bits⟩
  | .vldg r o x => some ⟨.x, r.bits, 0xA2, o.bits, x.map XV.bits⟩
  | .vstg r o x => some ⟨.x, r.bits, 0xA3, o.bits, x.map XV.bits⟩
  | .pand r o x => some ⟨.x, r.bits, 0xB0, o.bits, x.map XV.bits⟩
  | .por r o x => some ⟨.x, r.bits, 0xB1, o.bits, x.map XV.bits⟩
  | .pxor r o x => some ⟨.x, r.bits, 0xB2, o.bits, x.map XV.bits⟩
  | .pnot r o x => some ⟨.x, r.bits, 0xB3, o.bits, x.map XV.bits⟩
  | .pcnt r o x => some ⟨.x, r.bits, 0xB4, o.bits, x.map XV.bits⟩
  | .pfirst r o x => some ⟨.x, r.bits, 0xB5, o.bits, x.map XV.bits⟩
  | .plen r o x => some ⟨.x, r.bits, 0xB6, o.bits, x.map XV.bits⟩
  | .pseg r o x => some ⟨.x, r.bits, 0xB7, o.bits, x.map XV.bits⟩
  | .vtox r o x => some ⟨.x, r.bits, 0xB8, o.bits, x.map XV.bits⟩
  | .xtov r o x => some ⟨.x, r.bits, 0xB9, o.bits, x.map XV.bits⟩
  | .vfmt r o => some ⟨.x, r.bits, 0xBA, o.bits, none⟩
  | .vfmtImm r o x => some ⟨.x, r.bits, 0xBA, o.bits, some x.bits⟩
  | .slclaim r o => some ⟨.m, r.bits, 0x60, o.bits, none⟩
  | .slrel r o => some ⟨.m, r.bits, 0x61, o.bits, none⟩
  | .slqry r o => some ⟨.m, r.bits, 0x62, o.bits, none⟩
  | .accz r o x => some ⟨.m, r.bits, 0x63, o.bits, x.map MC.bits⟩
  | .accld r o x => some ⟨.m, r.bits, 0x64, o.bits, x.map MC.bits⟩
  | .nlvl r o x => some ⟨.m, r.bits, 0x65, o.bits, some x.bits⟩
  | .nops r o x => some ⟨.m, r.bits, 0x66, o.bits, some x.bits⟩
  | .nepi r o x => some ⟨.m, r.bits, 0x67, o.bits, x.map XM.bits⟩
  | .nepiDef r o => some ⟨.m, r.bits, 0x67, o.bits, none⟩
  | .nmode r o => some ⟨.m, r.bits, 0x68, o.bits, none⟩
  | .nseg r o => some ⟨.m, r.bits, 0x69, o.bits, none⟩
  | .nscl r o => some ⟨.m, r.bits, 0x6A, o.bits, none⟩
  | .ngo r => some ⟨.m, r.bits, 0x6B, 0, none⟩
  | .nwait r => some ⟨.m, r.bits, 0x6C, 0, none⟩
  | .ndrain r o x => some ⟨.m, r.bits, 0x6D, o.bits, x.map MC.bits⟩
  | .smxrd r o x => some ⟨.m, r.bits, 0x6E, o.bits, x.map MC.bits⟩
  | .smxset r o x => some ⟨.m, r.bits, 0x6F, o.bits, x.map MC.bits⟩
  | .nqry r o => some ⟨.m, r.bits, 0x70, o.bits, none⟩
  | .wst r o x => some ⟨.w, r.bits, 0x60, o.bits, x.map XM.bits⟩
  | .wstd r o x => some ⟨.w, r.bits, 0x61, o.bits, x.map XM.bits⟩
  | .wchain r o x => some ⟨.w, r.bits, 0x62, o.bits, x.map XH.bits⟩
  | .wpost r o => some ⟨.w, r.bits, 0x63, o.bits, none⟩
  | .wcmpl r => some ⟨.w, r.bits, 0x64, 0, none⟩
  | .wflush r => some ⟨.w, r.bits, 0x65, 0, none⟩
  | .qkick .. => none
  | .qevbits .. => none
  | .stkick .. => none
  | .pgdoneResident .. => none
  | .pgdoneUnmappable .. => none
  | .pgdoneDenied .. => none
  | .mtflushGo .. => none
  | .mtflushRetry .. => none
  | .mtflushDiscard .. => none
  | .tlbinv .. => none
  | .ctxcmdLoad .. => none
  | .ctxcmdSave .. => none
  | .ctxcmdDrain .. => none
  | .ctxcmdTeardown .. => none
  | .ctxcmdRelease .. => none
  | .ctxcmdSwap .. => none
  | .ctxcmdAbort .. => none
  | .ctxringConsWrite .. => none
  | .fpcmdAdd .. => none
  | .fpcmdTake .. => none
  | .fpcmdCount .. => none
  | .inspdRead => none
  | .inspdBreakpointWrite .. => none
  | .inspdResume .. => none
  | .traceSinkEnable .. => none
  | .registerWrite .. => none
  | .moduleReset => none
  | .coolantLimit .. => none
  | .junctionTemperature .. => none
  | .powerMeasure .. => none
  | .patrolScrub .. => none
  | .timingReplay .. => none
  | .firmwareLiveUpdate .. => none
  | .firmwareHeartbeatMiss => none
  | .strandPlace .. => none
  | .strandStart .. => none
  | .strandEnded .. => none
  | .deadlock .. => none
  | .waittExpire .. => none
  | .copyComplete .. => none
  | .slotFillComplete .. => none
  | .twarmComplete .. => none
  | .chainCopy .. => none
  | .chainGather .. => none
  | .chainPost .. => none
  | .chainWait .. => none
  | .chainLoop .. => none
  | .chainIf .. => none
  | .chainLink .. => none
  | .chainEnd .. => none
  | .indexComplete .. => none
  | .nestStep .. => none
  | .nestComplete .. => none
  | .nestSlotWaitLimit .. => none
  | .slclaimGrant .. => none
  | .phaseCommitDone .. => none
  | .phaseCancel .. => none
  | .phaseRefetchDone .. => none
  | .holdTimeout .. => none
  | .uncorrAbort .. => none
  | .pageWalk .. => none
  | .remoteRefusalRetry .. => none
  | .atomicEngineServe .. => none
  | .queueSlotGrant .. => none
  | .queueParse .. => none
  | .queueReread .. => none
  | .queueDispatch .. => none
  | .fencePacketTest .. => none
  | .qsubmitPush .. => none
  | .qsubmitFull .. => none
  | .taskRetire .. => none
  | .groupEvaluate .. => none
  | .bwaitTimeout .. => none
  | .ccwaitPoll .. => none
  | .ccwaitTimeout .. => none
  | .xcwaitTimeout .. => none
  | .contextLoadChecks .. => none
  | .contextResident .. => none
  | .contextSaved .. => none
  | .swapReload .. => none
  | .budgetPeriodRollover .. => none
  | .budgetExhausted .. => none
  | .preemptImmediate .. => none
  | .obdaokFrameReceive .. => none
  | .linkWrite .. => none
  | .linkWriteRed .. => none
  | .linkRead .. => none
  | .linkNotify .. => none
  | .linkAtomic .. => none
  | .linkAgree .. => none
  | .linkResponse .. => none
  | .linkKeepalive .. => none
  | .linkWidth .. => none
  | .linkPause .. => none
  | .linkResume .. => none
  | .portEnable .. => none
  | .portTrainingEnd .. => none
  | .portTrainingFail .. => none
  | .portLaneLost .. => none
  | .portDisable .. => none
  | .portReset .. => none
  | .ptpEventMessage .. => none
  | .grandmasterLoss => none
  | .workEntryFire .. => none
  | .workEntryComplete .. => none
  | .collectiveExpand .. => none
  | .linkHoldTimeout .. => none
  | .cadenceTick .. => none
  | .streamDeadline .. => none
  | .streamRecordAdmit .. => none
  | .traceSync .. => none
  | .traceEmitResume .. => none
  | .hostMemoryWrite .. => none
  | .pageMoveCopyDone .. => none
  | .tlbInvalidationComplete .. => none
  | .inletReturn .. => none
  | .heartbeatTimeout .. => none
  | .hubAgentHoldLimit .. => none
  | .stepOpenTimeout .. => none
  | .linkChainAcceptance .. => none

def Parts.first (q : Parts) : W32 :=
  q.g.code ++ q.rb ++ BitVec.ofBool q.p.isSome ++ BitVec.ofNat 8 q.opc ++ q.o

def Parts.ext (q : Parts) : Option W32 := q.p.map fun e => q.g.code ++ e

/-- The words of an instruction: its first word, and its extension word if it has one (R60, R62). -/
def encode (i : Instr) : Option (W32 × Option W32) := i.parts.map fun q => (q.first, q.ext)

/-- The engine that owns an instruction; a joint word is every engine's, written in A's space (R70). -/
def Instr.engine? (i : Instr) : Option Eng := i.parts.map Parts.g

/-- Words an instruction takes in the text. -/
def Instr.len (i : Instr) : Nat := match i.parts with | some q => if q.p.isSome then 2 else 1 | none => 0

def Instr.isJoint : Instr → Bool
  | .sync => true | .phase _ => true | .phaseLong _ _ => true | .mode _ => true | .endJ => true | .yieldJ => true
  | _ => false

/-- STATERD is the one privileged opcode: A's 0xA8 (R75, R78 check 3). -/
def privilegedWord (w0 : W32) : Bool := fld w0 30 2 == 0 && fld w0 17 8 == 0xA8

/-- The instruction of a row's bits, numbered from bit 0 of the first word. -/
def decodeTableWord (nbits w : Nat) : Option Instr :=
  let v := w % 2 ^ nbits
  match decode (BitVec.ofNat 32 v) (some (BitVec.ofNat 32 (v / 2 ^ 32))) with
  | .ok i => some i
  | .error _ => none

end Sys2Proof
end

