-- ==== Sys2Proof/Config.lean ====
section
/-! DEFINITION. What the manual fixes as constants, the choices this model makes where the manual leaves a value
open at reset, and the free values: opaque functions of which nothing can be proved. -/

namespace Sys2Proof.Config

/-! ### Free values (no body: nothing is known of them) -/

/-- Byte `off` of storage whose contents the manual leaves undefined (R194, R248); `seed` tells one use of the
storage from another. -/
opaque freeByte : Nat → Nat → BitVec 8

/-- Sidecar or descriptor `i` of such storage. -/
opaque freeSide : Nat → Nat → BitVec 32
opaque freeDesc : Nat → Nat → BitVec 16

/-- Whether lane `lane` of the vector result numbered `n` is late at THRIFT 1 to 3 (R54). -/
opaque lateLane : Nat → Nat → Bool

/-- Which value within 1 ulp the fast path of special function `f` delivers for input `x` in format `fmt` (R51). -/
opaque fastPick : Nat → Nat → Nat → Nat

/-- Whether an Ed25519 signature verifies: key, message bytes, signature bytes (R342, R399, R410). -/
opaque ed25519 : List (BitVec 8) → List (BitVec 8) → List (BitVec 8) → Bool

/-- The same for a firmware image's digest (R399, R400). -/
opaque imageSigned : BitVec 512 → BitVec 512 → Bool

/-- The ports a chip can be reached through when a process-group entry names none (R405). -/
opaque portsReaching : BitVec 32 → BitVec 16

/-- A value the manual gives no rule for, fresh with each count. -/
opaque freeWord : Nat → BitVec 64

/-- The device identity key that the hub's SRAM PUF and the helper data in module flash give (R398). -/
opaque identityKey : BitVec 256 → BitVec 256 → BitVec 256

/-! ### Constants of the manual -/

/-- Words of a text store (R20). -/
def textWords : Nat := 16384
/-- Entries of a phase store buffer (R301). -/
def bufEntries : Nat := 1024
/-- Entries of a core's range scoreboard (R187). -/
def scoreboardEntries : Nat := 64
/-- Memory requests that a core may have outstanding (R20). -/
def coreRequests : Nat := 2048
/-- In-flight X results (R122). -/
def xResults : Nat := 32
/-- Bytes of device memory homed on one die (R18): 512 GiB. -/
def dieBytes : Nat := 2 ^ 39
/-- Device memory of the module (R23): 2 TiB. -/
def devBytes : Nat := 2 ^ 41
/-- Bytes of a die's descriptor area (R332): 16 GiB. -/
def descAreaBytes : Nat := 2 ^ 34
/-- Outstanding page requests (R322). -/
def pageRequests : Nat := 4096
/-- TLB entries of a core and of a cluster walker (R319). -/
def coreTlb : Nat := 1024
def walkTlb : Nat := 8192
/-- Resident queue slots of a die (R356), resident contexts (R391), armed work entries (R408). -/
def queueSlots : Nat := 1024
def residentContexts : Nat := 256
def armedEntries : Nat := 65536
/-- Engine-clock periods in a nanosecond (R23): 4.0 GHz. -/
def periodsPerNs : Nat := 4
/-- Reset value of the retry-after hint (R333). -/
def retryHint : BitVec 8 := 0x20

/-! ### Choices of this model (assumption log 7): where firmware places what the manual gives no address -/

/-- Base of function fn's queue table in device memory (R353); each function's table takes 64 MiB. -/
def queueTable (fn : Nat) : Nat := 2 ^ 40 + fn * 2 ^ 26

end Sys2Proof.Config
end

