-- ==== Sys2Proof/Machine/State.lean ====
section
/-! DEFINITION. The state of the SL-256 as plain data, and its value after a module reset. Registers are bit
vectors of the manual's widths; counts, addresses and indices are natural numbers; sparse storage is a list of
pairs in rising order of key. INVENTORY.md lists every piece with its rule and reset value. -/

namespace Sys2Proof.Machine

/-- Why a step stops. -/
inductive Fault where
  /-- A translation gave a device physical address at or beyond the 2 TiB that the module has (R23): the manual
  says no memory is there. Raised by the memory access. Safe: nothing is claimed of such an access. -/
  | absentMemory
  deriving DecidableEq, Repr

/-- Why a step is refused. -/
inductive Refusal where
  /-- The instruction has no meaning in the model. Raised by an arm of exec only. Safe. -/
  | notModelled (mnemonic : String)
  deriving DecidableEq, Repr

/-! ### Memory -/

/-- Bytes by address, strictly rising, none equal to the 0 that an unlisted address reads as. -/
abbrev Memory := List Host.Cell

/-! ### Scalar side of a strand -/

/-- States of a strand (R95); free: the slot holds no strand. -/
inductive StrandSt where
  | free | staged | running | ending | handler | halted | saved | ended
  deriving DecidableEq, Repr

/-- One hardware loop level (R115); ord is its place in the order of starts. -/
structure Level where
  active : Bool
  start  : Nat
  stop   : Nat
  cnt    : BitVec 32
  ord    : Nat
  deriving DecidableEq, Repr

def Level.off : Level := ⟨false, 0, 0, 0, 0⟩

/-- A trap taken at the next instruction boundary (R204, R259, R307, R318, R416). -/
structure LateTrap where
  code : Nat
  t0   : Word
  t1   : Word
  t2   : Word
  t3   : Word
  deriving DecidableEq, Repr

/-- A WAITT that has issued and not retired (R133, R141): the time it waits for, the signals it owes. -/
structure Waiting where
  time : Word
  sp   : Bool
  sn   : Bool
  deriving DecidableEq, Repr

/-- One engine of a strand (R97 to R101, R115, R125, R130, R132, R141). -/
structure Engine where
  pc      : Nat
  tick    : Word
  levels  : List Level
  starts  : Nat
  tepc    : BitVec 14
  tret    : Option Word
  arrived : Bool
  atEnd   : Bool
  moving  : Option Nat
  bubble  : Nat
  spread  : Bool
  blocked : Bool
  why     : Nat
  tri     : Option Nat
  since   : Option Nat
  late    : Option LateTrap
  wait    : Option Waiting
  deriving DecidableEq, Repr

def Engine.new (pc : Nat) : Engine :=
  { pc, tick := 0, levels := [.off, .off, .off], starts := 0, tepc := 0, tret := none, arrived := false,
    atEnd := false, moving := some pc, bubble := 0, spread := false, blocked := false, why := 0, tri := none,
    since := none, late := none, wait := none }

/-- A token counter (R102): tokens that can be consumed, its value at the start of the period, tokens posted in
the period (visible from the next one, R104). -/
structure Token where
  now   : Nat
  start : Nat
  add   : Nat
  deriving DecidableEq, Repr

/-- A channel or an outcome queue (R107, R113), with the same three parts. -/
structure Fifo (α : Type) where
  q     : List α
  start : Nat
  add   : List α
  deriving DecidableEq, Repr

def Token.empty : Token := ⟨0, 0, 0⟩
def Fifo.empty {α : Type} : Fifo α := ⟨[], 0, []⟩

/-- Ring and channels of a strand. sn.g counts tokens that g signals to its successor, sp.g to its predecessor. -/
structure Links where
  sn    : PerEng Token
  sp    : PerEng Token
  chans : List (Fifo Word)
  outc  : PerEng (Fifo Bool)
  deriving DecidableEq, Repr

def Links.empty : Links := ⟨.all .empty, .all .empty, List.replicate 8 .empty, .all .empty⟩

/-- A 64-byte layout record (R163). -/
structure Layout where
  base  : Word
  tag   : W16
  rank  : Byte
  flags : Byte
  shx   : Byte
  rsv   : BitVec 24
  ext   : List W32
  st    : List Word
  offs  : Word
  deriving DecidableEq, Repr

/-- A filled layout slot: the record, the VA that LYLD read it from, the mark of R351. -/
structure LySlot where
  lay    : Layout
  src    : Option Word
  marked : Bool
  deriving DecidableEq, Repr

/-- Who answers a load or atomic that left its engine before its data was there (R121, R295): a request to a peer, or
one to a home atomic engine, by tag. -/
inductive Source where
  | peer (tag : Nat)
  | atom (tag : Nat)
  deriving DecidableEq, Repr

/-- What one result writes when it retires: registers of its engine; extents, layout slots and tile bytes, which all
engines share; or a register whose value is still to come from `src`: its bytes but those that the strand's own buffer held,
sign-extended or not. -/
inductive Wb where
  | reg  (n : BitVec 5) (v : Word)
  | vec  (n : Nat) (mask : BitVec 1024) (v : List W32)
  | pred (n : Nat) (mask : BitVec 1024) (v : BitVec 1024)
  | ext  (n k : Nat) (v : W32)
  | shape (n : Nat) (v : List W32)
  | slot (n : Nat) (v : LySlot)
  | tile (h off : Nat) (bytes : List Byte)
  | await (n : BitVec 5) (src : Source) (va : Word) (own : List (Option Byte)) (signed : Bool)
  deriving DecidableEq, Repr

/-- A result in flight: remaining ticks (of a register result of X in a timed region: its landing tick less X's next
tick), what it writes, the signals it owes (R104, R119, R124). -/
structure Flight where
  g    : Eng
  rem  : Nat
  wb   : List Wb
  sp   : Bool
  sn   : Bool
  seq  : Nat
  deriving DecidableEq, Repr

/-- A write that takes effect at the end of a period (R140, R160, R245); forget: a layout slot's source VA (R351). -/
inductive Late where
  | ext  (n k : Nat) (v : W32)
  | shape (n : Nat) (v : List W32)
  | slot (n : Nat) (v : Option LySlot)
  | forget (n : Nat)
  | sys  (g : Eng) (i : Nat) (v : Word)
  deriving DecidableEq, Repr

/-- System registers of a strand (R142). -/
structure Sys where
  strand : Word
  ctx    : BitVec 12
  win    : BitVec 9
  stl    : BitVec 32
  vfmt   : BitVec 7
  phasen : BitVec 32
  trapc  : BitVec 8
  li     : List W32
  grank  : W32
  gsize  : W32
  thrift : BitVec 2
  tvec   : BitVec 32
  tmask  : BitVec 32
  tinfo  : Word
  targ   : List Word
  deriving DecidableEq, Repr

/-- X's own file and units (R118 to R122, R207, R208). -/
structure XUnit where
  v     : List (List W32)
  p     : List (BitVec 1024)
  timed : Bool
  dp    : Nat
  sfu   : Nat
  alu   : Nat
  adv   : Bool
  deriving DecidableEq, Repr

/-- What HANDLER state sets aside (R124, R128): with the landing queue, how long X's units are still occupied. -/
structure Aside where
  levels  : PerEng (List Level)
  outc    : PerEng (Fifo Bool)
  landing : List Flight
  timed   : Bool
  dp      : Nat
  sfu     : Nat
  alu     : Nat
  deriving DecidableEq, Repr

/-! ### Tiles and operations -/

/-- One allocation in a ring: cells held, skip cells included; owner: strand key and handle (or entry) (R178). -/
structure Span where
  start : Nat
  len   : Nat
  owner : Nat × Nat
  live  : Bool
  deriving DecidableEq, Repr

/-- A bump-and-ring allocator (R177): size S, head H, tail T, used U, allocations in ring order. -/
structure RingAlloc where
  size  : Nat
  head  : Nat
  tail  : Nat
  used  : Nat
  spans : List Span
  deriving DecidableEq, Repr

def RingAlloc.empty (size : Nat) : RingAlloc := ⟨size, 0, 0, 0, []⟩

/-- One half of a tile's storage: data bytes, row sidecars, block descriptors; what is not listed is undefined
(R194) and reads as a free value of the seed. -/
structure Half where
  seed : Nat
  data : SMap Byte
  side : SMap W32
  desc : SMap W16
  deriving DecidableEq, Repr

/-- A held tile (R174 to R176); hdr is its header in bytes as allocated (R180), ro marks an alias (R394). -/
structure Tile where
  near  : Bool
  sc    : Bool
  ds    : Bool
  db    : Bool
  half  : Bool
  tag   : W16
  rows  : Nat
  rbu   : Nat
  hdr   : Nat
  start : Nat
  ro    : Bool
  h0    : Half
  h1    : Half
  deriving DecidableEq, Repr

/-- A row range of a tile that an operation holds in the range scoreboard (R187). -/
structure Touch where
  h    : Nat
  half : Bool
  lo   : Nat
  hi   : Nat
  wr   : Bool
  deriving DecidableEq, Repr

/-- The window of a row operation, captured at issue (R198, R199): layout with its extents resolved, offsets of a
ragged layout; for a gather or scatter, whether it walks pages or the tile whose elements name the rows. -/
structure RowOp where
  lay  : Layout
  ly   : Nat
  f    : Nat
  n    : Nat
  j2   : Nat
  j3   : Nat
  h    : Nat
  row  : Nat
  offs : List Nat
  pick : Bool
  hb   : Option Nat
  deriving DecidableEq, Repr

/-- A chain entry of 32 bytes as read (R203). -/
structure ChainEnt where
  kind  : Nat
  flags : Nat
  rsv   : Nat
  w4    : Nat
  q8    : Word
  q16   : Word
  q24   : Word
  deriving DecidableEq, Repr

/-- A chain address: device memory or a tile (R203). -/
inductive ChainAddr where
  | mem (va : Word)
  | tile (h off : Nat)
  deriving DecidableEq, Repr

/-- A running chain: the entry it stands at, the entries it has passed with their addresses (a LOOP body works on
copies), the body it is repeating, entries left of the body (R204). -/
structure Chain where
  kick : Nat
  ce   : Nat
  addr : ChainAddr
  past : List (ChainAddr × ChainEnt)
  body : List ChainEnt
  pos  : Nat
  left : Nat
  resume : ChainAddr
  ended : Bool
  deriving DecidableEq, Repr

/-- An asynchronous operation of a strand (R105); a fill keeps the tag that its tile had at issue (R186). -/
inductive OpKind where
  | load  (r : RowOp) (mixed : Bool)
  | store (r : RowOp)
  | fill  (slot h row0 col0 : Nat) (t : Bool) (tag : W16)
  | warm  (r : RowOp) (vas : List Word)
  | chain (c : Chain)
  | walk  (va : Word) (bytes : List Byte)
  | split (va : Word) (bytes : List Byte)
  | accept (va : Word) (coll arm : Bool) (hand : Nat) (last : Option Nat)
  deriving DecidableEq, Repr

structure AsyncOp where
  id    : Nat
  g     : Eng
  opc   : Nat
  sp    : Bool
  sn    : Bool
  kind  : OpKind
  touch : List Touch
  done  : Bool
  since : Option Nat
  issued : Nat
  deriving DecidableEq, Repr

/-! ### Slots, accumulators and the nest -/

inductive SlotSt where
  | free | claimed | filling | full | busy
  deriving DecidableEq, Repr

/-- An operand slot (R246). -/
structure OpSlot where
  st     : SlotSt
  holder : Option Nat
  tag    : W16
  body   : Half
  filled : Bool
  deriving DecidableEq, Repr

/-- An accumulator tile (R251): 4,096 elements row by row, m and l of each row, PI. -/
structure AccTile where
  c  : List W32
  m  : List W32
  l  : List W32
  pi : Bool
  deriving DecidableEq, Repr

def AccTile.zero (pi : Bool) : AccTile :=
  ⟨List.replicate 4096 0, List.replicate 64 0xFF800000#32, List.replicate 64 0, pi⟩

structure NestLevel where
  count : Nat
  sa    : Int
  sb    : Int
  sc    : Int
  k     : Bool
  deriving DecidableEq, Repr

/-- The epilogue parameter block (R263), field by field. -/
structure Epi where
  kind  : Nat
  ofmt  : Nat
  act   : Nat
  flags : Nat
  scale : W32
  clo   : W32
  chi   : W32
  bias  : Word
  bstep : BitVec 32
  dstep : BitVec 32
  dest  : Word
  rstr  : Word
  rsv   : Nat
  deriving DecidableEq, Repr

/-- The nest configuration (R256). -/
structure NestCfg where
  lv      : List NestLevel
  a0      : Nat
  b0      : Nat
  c0      : Nat
  v0      : Nat
  sx      : Nat
  acc     : Bool
  mode    : Nat
  seg     : Nat
  gscale  : W32
  smscale : W32
  epi     : Epi
  deriving DecidableEq, Repr

def Epi.default : Epi := ⟨0, 1, 0, 0, 0x3F800000, 0, 0, 0, 0, 0, 0, 0, 0⟩

def NestCfg.default : NestCfg :=
  { lv := List.replicate 6 ⟨1, 0, 0, 0, false⟩, a0 := 0, b0 := 0, c0 := 0, v0 := 0, sx := 0, acc := false,
    mode := 0, seg := 0, gscale := 0x3F800000, smscale := 0x3F800000, epi := .default }

/-- A running or pending nest: its active copy, steps started, when the next step may start, since when it waits on which
slots, the signals NGO owes (R259, R261). -/
structure Nest where
  cfg   : NestCfg
  done  : Nat
  ready : Nat
  since : SMap Nat
  issued : Nat
  sp    : Bool
  sn    : Bool
  deriving DecidableEq, Repr

/-! ### Phases and the store buffer -/

inductive PhaseSt where
  | opened | unrep | held | cancelled | committing
  deriving DecidableEq, Repr

/-- What an entry of the phase store buffer holds (R301): block bytes with their mask as listed offsets, or an
ordered entry. -/
inductive BufKind where
  | data (bytes : SMap Byte) (desc : Option W16) (strl : Bool)
  | atom (op size : Nat) (opd : Word)
  | counter (k : Nat) (add : Word)
  | submit (qid : Nat) (va : Word) (since : Option Nat)
  | append (ctx seq layer n : Nat)
  | commit (ctx seq n : Nat)
  | close (ctx seq : Nat)
  | tag (va : Word) (t : W16)
  deriving DecidableEq, Repr

/-- An entry: the VA and the home and physical address of its block (or of the atom), the page's order, the paths that
its stores took (as R68 numbers them). -/
structure BufEntry where
  va   : Word
  home : Nat
  pa   : Nat
  ord  : Nat
  paths : BitVec 8
  kind : BufKind
  deriving DecidableEq, Repr

/-- The checkpoint (R298), with the slots held at the phase's start (R250), X's region
(assumption log 14) and the open step (R424). -/
structure Ckpt where
  regs   : PerEng (List Word)
  p      : List (BitVec 1024)
  v      : SMap (List W32)
  levels : PerEng (List Level)
  sh     : List (List W32)
  ly     : List (Option LySlot)
  nest   : NestCfg
  win    : BitVec 9
  stl    : BitVec 32
  vfmt   : BitVec 7
  tvec   : BitVec 32
  tmask  : BitVec 32
  slots  : List Nat
  timed  : Bool
  step   : Option (Nat × Nat)
  deriving DecidableEq, Repr

/-- A translation fault that a strand waits on (R307, R322): the VA, whether it writes, code and level and entry
of R324, the request, since when, the operation that waits (none: the engine's own access),
the answer (0 none yet, 4 PAGE, 5 PROTECT). -/
structure Held where
  g     : Eng
  op    : Option Nat
  va    : Word
  wr    : Bool
  code  : Nat
  level : Nat
  entry : Word
  rqid  : BitVec 32
  since : Nat
  opc   : Nat
  ans   : Nat
  deriving DecidableEq, Repr

/-- The phase object (R296, R297), its input record (R304), marks of a replay (R303, R305), the storage and address of
the uncorrectable error that cancelled it (R304). -/
structure Phase where
  st      : PhaseSt
  start   : Nat
  rep     : Bool
  cancels : Nat
  reason  : Nat
  faultVa : Word
  ckpt    : Ckpt
  buf     : List BufEntry
  input   : List Nat
  allocs  : List Nat
  marks   : List Nat
  frees   : List (Nat × Nat)
  gone    : List Nat
  relSlots : List Nat
  held    : List Held
  bad     : Option (Nat × Word)
  released : Nat
  deriving DecidableEq, Repr

/-! ### The strand -/

/-- A barrier joined (R378): number, PHASEN and GEN of the last arrival. -/
structure Join where
  b   : Nat
  aph : Option (BitVec 32)
  ag  : BitVec 24
  deriving DecidableEq, Repr

/-- A link handle (R414): its status, the entries completed, whether its chain is still being accepted; id is unlike that
of any earlier use. -/
structure LinkH where
  held   : Bool
  id     : Nat
  status : Nat
  done   : Nat
  opened : Bool
  deriving DecidableEq, Repr

def LinkH.free : LinkH := ⟨false, 0, 0, 0, false⟩

/-- A window-table entry of the kernel (R320). -/
structure Window where
  va   : Word
  pa   : Nat
  log2 : Nat
  attr : Byte
  deriving DecidableEq, Repr

/-- A strand. key = 2 × core device number + slot while it is placed, from 2^24 on while it is saved; kept holds the
operand slots of a saved strand (R248), later lists the
engines whose turn is put off to the end of the tick, with its rank there (R96, R181, R249, R310, R379), gy says that it is saved by GYIELD, node the core whose completion node counts it (R384). -/
structure Strand where
  key    : Nat
  st     : StrandSt
  back   : StrandSt
  fresh  : Bool
  priv   : Bool
  task   : Nat
  kern   : Nat
  entry  : Nat
  text   : List W32
  nslots : Nat
  wins   : List Window
  regs   : PerEng (List Word)
  eng    : PerEng Engine
  pc0    : PerEng Nat
  links  : Links
  sys    : Sys
  x      : XUnit
  sh     : List (List W32)
  ly     : List (Option LySlot)
  lates  : List (Eng × Late)
  fl     : List Flight
  seq    : Nat
  aside  : Option Aside
  tiles  : SMap Tile
  lring  : RingAlloc
  ops    : List AsyncOp
  ixres  : Word
  shadow : NestCfg
  nest   : Option Nest
  pend   : Option Nest
  acc    : List AccTile
  ph     : Phase
  joins  : List Join
  hand   : List LinkH
  step   : Option (Nat × Nat)
  dead   : Nat
  later  : List (Eng × Nat)
  stalls : Word
  preempt : Bool
  gy     : Bool
  kept   : List (Nat × OpSlot)
  took   : Nat
  node   : Nat
  deriving DecidableEq, Repr

def Sys.new (win : BitVec 9) : Sys :=
  { strand := 0, ctx := 0, win, stl := 1048576, vfmt := 1, phasen := 0, trapc := 0, li := List.replicate 6 0,
    grank := 0, gsize := 1, thrift := 0, tvec := 0, tmask := 0, tinfo := 0, targ := [0, 0, 0, 0] }

def XUnit.new : XUnit :=
  { v := List.replicate 32 (List.replicate 1024 0), p := BitVec.allOnes 1024 :: List.replicate 15 0,
    timed := false, dp := 0, sfu := 0, alu := 0, adv := false }

/-- Registers of a new strand (R94): 24 in A and X, 16 in M and W. -/
def newRegs : PerEng (List Word) :=
  ⟨List.replicate 24 0, List.replicate 24 0, List.replicate 16 0, List.replicate 16 0⟩

def Ckpt.new (sh0 : List W32) (win : BitVec 9) : Ckpt :=
  { regs := newRegs, p := XUnit.new.p, v := tab 32 fun n => (n, List.replicate 1024 0),
    levels := .all [.off, .off, .off], sh := sh0 :: List.replicate 15 [0, 0, 0, 0],
    ly := List.replicate 8 none, nest := .default, win, stl := 1048576, vfmt := 1, tvec := 0, tmask := 0,
    slots := [], timed := false, step := none }

def Phase.new (start : Nat) (k : Ckpt) : Phase :=
  { st := .opened, start, rep := true, cancels := 0, reason := 0, faultVa := 0, ckpt := k, buf := [], input := [],
    allocs := [], marks := [], frees := [], gone := [], relSlots := [], held := [], bad := none, released := 0 }

/-- A strand as dispatch loads it (R94): entry address, launch extents, WIN, text. -/
def Strand.new (key entry : Nat) (sh0 : List W32) (win : BitVec 9) (text : List W32) : Strand :=
  { key, st := .staged, back := .running, fresh := true, priv := false, task := 0, kern := 0, entry, text,
    nslots := 0, wins := [], regs := newRegs, eng := .all (.new entry), pc0 := .all entry, links := .empty,
    sys := .new win, x := .new, sh := sh0 :: List.replicate 15 [0, 0, 0, 0], ly := List.replicate 8 none,
    lates := [], fl := [], seq := 0, aside := none, tiles := [], lring := .empty 0, ops := [], ixres := 0,
    shadow := .default, nest := none, pend := none, acc := [], ph := .new entry (.new sh0 win), joins := [],
    hand := List.replicate 16 .free, step := none, dead := 0, later := [], stalls := 0, preempt := false, gy := false, kept := [], took := 0,
    node := key / 2 }

/-- The empty slot that the machine looks at after reset. -/
def Strand.empty : Strand := { Strand.new 0 0 [0, 0, 0, 0] 64 [] with st := .free }

/-! ### Memory system -/

/-- A translation that a walk supplied (R319): context, level of the leaf, VA of its page, the leaf. -/
structure TlbEnt where
  ctx   : Nat
  level : Nat
  va    : Nat
  leaf  : Word
  deriving DecidableEq, Repr

/-- An outstanding page request (R322); shared is the frame, with its level, that a write to a COW page found there. -/
structure PageReq where
  rqid : BitVec 32
  ctx  : Nat
  va   : Word
  code : Nat
  acc  : Nat
  time : Nat
  shared : Option (Nat × Nat)
  deriving DecidableEq, Repr

/-- A page on the move (R326): the strand that moves it, its VA, size and level, the destination frame. -/
structure Move where
  key   : Nat
  ctx   : Nat
  va    : Nat
  size  : Nat
  level : Nat
  home  : Nat
  frame : Nat
  deriving DecidableEq, Repr

/-- What a unit's own step does: the events that no outside party brings; ring: a record in line for a context's
ring (R388); agentStore: a write that waits for its page. -/
inductive What where
  | strandPlace | strandStart | strandEnded | deadlock | copyComplete | slotFillComplete | twarmComplete |
  chainCopy | chainGather | chainPost | chainWait | chainLoop | chainIf | chainLink | chainEnd | indexComplete |
  linkChainAcceptance | nestStep | nestComplete | nestSlotWaitLimit | slclaimGrant | phaseCommitDone |
  phaseCancel | phaseRefetchDone | holdTimeout | remoteRefusalRetry | atomicEngineServe | queueSlotGrant |
  queueParse | queueReread | queueDispatch | fencePacketTest | qsubmitPush | qsubmitFull | taskRetire |
  groupEvaluate | contextLoadChecks | contextResident | contextSaved | swapReload | budgetPeriodRollover |
  budgetExhausted | preemptImmediate | tlbInvalidationComplete | pageMoveCopyDone | workEntryFire |
  workEntryComplete | collectiveExpand | linkHoldTimeout | cadenceTick | streamDeadline | streamRecordAdmit |
  traceSync | traceEmitResume | hubAgentHoldLimit | stepOpenTimeout | agentStore | ring
  deriving DecidableEq, Repr

/-- A step that a unit has yet to take, with the two numbers that name its object. -/
structure Post where
  what : What
  a    : Nat
  b    : Nat
  deriving DecidableEq, Repr

/-- A hub agent's access that waits for a page (R468): context, page and VA, request, since when, the source field of its
error record, the unit step to take up again, whether the access is to be dropped. -/
structure AgentWait where
  ctx   : Nat
  va    : Nat
  first : Word
  rqid  : BitVec 32
  since : Nat
  src   : W32
  item  : Post
  drop  : Bool
  deriving DecidableEq, Repr

/-- A hub agent's write of a strand or sequence that waits for its page: bytes, or an add to a counter. -/
structure AgentStore where
  id    : Nat
  key   : Nat
  ctx   : Nat
  va    : Word
  bytes : List Byte
  add   : Option Word
  src   : Nat
  deriving DecidableEq, Repr

/-- A request to an atomic engine (R290, R292): engine, arrival, who asks (strand key; 2^20 + port for a link, with
its tag and the sender's chip), whose work it is part of, the core it came from, the context and kernel, the operation, whether it is a released
entry of the strand's buffer (nobody takes its old value), and the old value once it is served. -/
structure AtomReq where
  eng   : Nat
  since : Nat
  key   : Nat
  tag   : BitVec 32
  chip  : BitVec 32
  owner : Nat
  core  : Option Nat
  ctx   : Nat
  kern  : Nat
  op    : Nat
  size  : Nat
  home  : Nat
  pa    : Nat
  opd   : Word
  new   : Word
  post  : Bool
  old   : Option Word
  deriving DecidableEq, Repr

/-- The memory system: device and host memory; uncorrectable and correctable errors by home, address and length (R313, R314);
TLBs; page requests, moves, frame counts, the frames of saturated counts (context, frame, level) and pools; queued atomics
with the engines' hot lines; what hub agents wait for. -/
structure Mem where
  dev     : Memory
  host    : Memory
  poison  : List (Nat × Nat × Nat)
  soft    : List (Nat × Nat × Nat)
  coreTlb : SMap (List TlbEnt)
  walkTlb : SMap (List TlbEnt)
  reqs    : List PageReq
  rqNext  : BitVec 32
  moves   : List Move
  frames  : SMap W16
  full    : List (Nat × Nat × Nat)
  pools   : SMap (List Nat)
  hint    : BitVec 8
  atoms   : List AtomReq
  hot     : SMap (List Nat)
  waits   : List AgentWait
  stores  : List AgentStore
  deriving DecidableEq, Repr

/-! ### Work: kernels, queues, tasks, groups -/

/-- A valid method entry with its index (R343). -/
structure Method where
  index : Nat
  op    : Nat
  tags  : List W16
  kern  : Nat
  entry : Nat
  cost  : Nat
  deriving DecidableEq, Repr

/-- A result of the search of R346: the method, the CONVERT entries by operand; else the reason of R350. ktab is the
kernel table's VA. -/
structure Choice where
  found : Option Method
  convs : List (Nat × Method)
  why   : Nat
  ktab  : Word
  deriving DecidableEq, Repr

/-- What dispatch takes from a kernel image (R339, R340, R320): text, loop levels as KIND and extent, operand slots,
accumulator tiles, WIN, windows. -/
structure Image where
  text   : List W32
  levels : List (Nat × Nat)
  nslots : Nat
  nacc   : Nat
  win    : Nat
  wins   : List Window
  deriving DecidableEq, Repr

def Image.none : Image := ⟨[], [], 0, 0, 64, []⟩

/-- A cached key and result of a die's method dispatch cache (R347). -/
structure CacheEnt where
  die  : Nat
  ctx  : Nat
  op   : W16
  tags : List W16
  conv : List Bool
  res  : Choice
  deriving DecidableEq, Repr

inductive QSt where
  | dormant | idle | parse | ready | parked | stale
  deriving DecidableEq, Repr

/-- Facts of a stream step that its task carries (R431). -/
structure StepFacts where
  sid   : Nat
  t     : Nat
  cut   : Int
  flags : Nat
  deriving DecidableEq, Repr

/-- A conversion as planned: operand, CONVERT entry, destination record but for BASE, bytes of space. -/
structure Plan where
  i    : Nat
  c    : Method
  dest : Layout
  size : Nat
  deriving DecidableEq, Repr

/-- The choice made for a packet when its parsing starts (R347): tags g0 to g2, the result of the search, the conversions. -/
structure Pick where
  gs     : List W16
  choice : Choice
  plans  : List Plan
  deriving DecidableEq, Repr

/-- A queue (R353, R356), once a kick, a push or a residency has touched it. key = function × 2^20 + QID. parked is its
parked list, retry a RETRY of its oldest task that is still to come, held whether it had a slot at the last save, aborts the packets that an ABORT named, steps the
stream steps among its packets; pick the choice for its head packet, repick that for the parked task that a RETRY named;
kicked the tick of its last kick with TAIL before it. -/
structure Queue where
  key    : Nat
  st     : QSt
  ctx    : Nat
  ring   : Word
  log2n  : Nat
  flags  : Nat
  age    : Nat
  vec    : Nat
  cring  : Word
  die    : Nat
  tail   : BitVec 32
  head   : BitVec 32
  evt    : Word
  qsave  : Nat
  slot   : Option Nat
  held   : Bool
  record : List Byte
  reads  : Nat
  nextRd : Nat
  readyAt : Option Nat
  servedAt : Nat
  parked : List (BitVec 32 × List Byte)
  retry  : Bool
  aborts : List (BitVec 32)
  steps  : List (BitVec 32 × StepFacts)
  pick   : Option Pick
  repick : Option Pick
  kicked : Option (Nat × BitVec 32)
  deriving DecidableEq, Repr

/-- A strand to be placed (R367, R368). -/
structure Pending where
  task  : Nat
  li    : List W32
  grank : W32
  gsize : W32
  saved : Option Strand
  deriving DecidableEq, Repr

/-- A task dispatched and not yet retired (R357, R358, R384), or a packet whose completion is under way: counted says
whether it was dispatched, done how many steps of R358 are over, seven whether it was dispatched at level 7. -/
structure Task where
  id     : Nat
  serial : BitVec 32
  q      : Nat
  index  : BitVec 32
  ctx    : Nat
  record : List Byte
  kern   : Nat
  entry  : Nat
  image  : Image
  convOf : Option Nat
  waits  : List Nat
  toPlace : Nat
  nodes  : SMap Nat
  status : Nat
  counted : Bool
  done   : Nat
  step   : Option StepFacts
  die    : Nat
  seven  : Bool
  linkSince : Option Nat
  deriving DecidableEq, Repr

inductive GroupSt where
  | forming | active | resizing
  deriving DecidableEq, Repr

/-- A group (R371, R372): stage of a context on a die; leaving: the core marked so, and the context and stage it goes
to (none: the idle pool). -/
structure Group where
  ctx   : Nat
  die   : Nat
  stage : W32
  st    : GroupSt
  cores : List Nat
  leaving : Option (Nat × Option (Nat × W32))
  pend  : List Pending
  deriving DecidableEq, Repr

/-- A barrier (R377). -/
structure Barrier where
  v       : Bool
  ctx     : BitVec 12
  target  : BitVec 8
  members : BitVec 8
  arrived : BitVec 8
  gen     : BitVec 24
  deriving DecidableEq, Repr

structure Work where
  cache  : List CacheEnt
  images : List (Nat × Nat × Nat)
  queues : SMap Queue
  asks   : List Nat
  lastSlot : SMap Nat
  qevset : SMap Nat
  tasks  : SMap Task
  nextTask : Nat
  serial : BitVec 32
  groups : List Group
  bars   : SMap Barrier
  cores  : SMap (List OpSlot)
  nrings : SMap RingAlloc
  deriving DecidableEq, Repr

/-! ### Contexts -/

inductive CtxSt where
  | free | loading | ready | running | preempting | saved | draining | tornDown
  deriving DecidableEq, Repr

/-- The 256-byte context record, field by field (R386). -/
structure CtxRec where
  ptroot : Word
  mtroot : Word
  wtset  : Word
  cntbase : Word
  ncnt   : Nat
  tenant : Byte
  ceil   : Nat
  thrift : BitVec 2
  policy : Byte
  trapq  : Word
  handq  : Word
  tqlog2 : Nat
  hqlog2 : Nat
  diemask : BitVec 4
  poollog2 : Nat
  lquota : Nat
  nbar   : Nat
  pgtva  : Word
  p      : Nat
  hold   : Nat
  stgva  : Word
  arena  : List Nat
  convva : Word
  convsz : Nat
  period : Nat
  coreus : Nat
  nshare : Nat
  dshare : Nat
  cadus  : Nat
  saveva : Word
  saven  : Nat
  nttva  : Word
  nnt    : Nat
  strmva : Word
  evmask : Word
  poolva : Word
  kkey   : List Byte
  deriving DecidableEq, Repr

def CtxRec.zero : CtxRec :=
  { ptroot := 0, mtroot := 0, wtset := 0, cntbase := 0, ncnt := 0, tenant := 0, ceil := 0, thrift := 0, policy := 0,
    trapq := 0, handq := 0, tqlog2 := 0, hqlog2 := 0, diemask := 0, poollog2 := 0, lquota := 0, nbar := 0,
    pgtva := 0, p := 0, hold := 0, stgva := 0, arena := [0, 0, 0, 0], convva := 0, convsz := 0, period := 0,
    coreus := 0, nshare := 0, dshare := 0, cadus := 0, saveva := 0, saven := 0, nttva := 0, nnt := 0, strmva := 0,
    evmask := 0, poolva := 0, kkey := [] }

/-- A process-group entry (R369). -/
structure Peer where
  chip  : BitVec 32
  rank  : Nat
  mac   : BitVec 48
  ports : BitVec 16
  deriving DecidableEq, Repr

/-- A stage descriptor (R371). -/
structure Stage where
  stage : W32
  min   : Nat
  max   : Nat
  inq   : W32
  hiwat : Nat
  lowat : Nat
  deriving DecidableEq, Repr

/-- A context (R386 to R396); res says whether it holds its resources, spent since when its strands are to be pre-empted,
loaded whether it has been READY since its LOAD, live whether a task has been dispatched or parked since the last IDLE
record (R385). -/
structure Context where
  st      : CtxSt
  res     : Bool
  lerr    : Nat
  oversub : Bool
  fn      : Nat
  recVa   : Word
  record  : CtxRec
  priv    : Bool
  peers   : List Peer
  rank    : Nat
  stages  : List Stage
  near    : SMap Tile
  conv    : RingAlloc
  tprod   : BitVec 32
  tcons   : BitVec 32
  hprod   : BitVec 32
  hcons   : BitVec 32
  vec     : BitVec 11
  nomethod : Nat
  usedQ   : Nat
  cadQ    : Nat
  nstrm   : Nat
  spent   : Option Nat
  start   : Nat
  pending : Bool
  loaded  : Bool
  live    : Bool
  stash   : List Strand
  bars    : List (Nat × Barrier)
  swap    : Option (Word × Word)
  colls   : Nat
  held    : List (Bool × List Byte)
  deriving DecidableEq, Repr

def Context.free : Context :=
  { st := .free, res := false, lerr := 0, oversub := false, fn := 0, recVa := 0, record := .zero, priv := false, peers := [], rank := 0,
    stages := [], near := [], conv := .empty 0, tprod := 0, tcons := 0, hprod := 0, hcons := 0, vec := 0,
    nomethod := 0, usedQ := 0, cadQ := 0, nstrm := 0, spent := none, start := 0, pending := false, loaded := false, live := false,
    stash := [], bars := [], swap := none, colls := 0, held := [] }

/-- Registers of one function's window that hold a value (R389, R390, R396); tlbAt is when the invalidation that is under
way started. -/
structure FnRegs where
  tlba   : Word
  tlbb   : Word
  tlbAt  : Nat
  arg0   : Word
  arg1   : Word
  cmd    : Word
  sel    : BitVec 12
  fpcmd  : Word
  fparg  : Word
  fpsts  : Word
  deriving DecidableEq, Repr

def FnRegs.zero : FnRegs := ⟨0, 0, 0, 0, 0, 0, 0, 0, 0, 0⟩

/-- Boot and firmware (R398 to R400, R315): puf is what the hub's SRAM PUF gives, helper the identity helper data in module
flash, idKey the device identity key once it is derived (R16, R18). -/
structure Firmware where
  puf       : BitVec 256
  helper    : BitVec 256
  idKey     : Option (BitVec 256)
  recovery  : Bool
  booted    : Bool
  chip      : BitVec 32
  minVer    : Nat
  slot      : Nat
  descDies  : BitVec 4
  privCtx   : List Nat
  etherType : W16
  configOk  : Bool
  images    : List FwImage
  measured  : List Nat
  runVer    : Nat
  update    : Option FwImage
  lost      : List Nat
  deriving DecidableEq, Repr

/-- Control: the error records on the host port and the reports through MCTP (R26); contexts, register windows, breakpoints by strand key × 16 + engine × 4 + number (R389). -/
structure Ctl where
  ctxs  : SMap Context
  fns   : SMap FnRegs
  breaks : SMap (BitVec 32)
  evvec : BitVec 11
  inspa : Word
  fw    : Firmware
  msix  : List (Nat × Nat)
  errs  : List (Nat × Nat)
  mctp  : List (Nat × Nat)
  readv : Word
  deriving DecidableEq, Repr

/-! ### Links -/

inductive PortSt where
  | down | training | up | degraded | failed
  deriving DecidableEq, Repr

/-- A fabric port (R402, R404): the next number to send, the last one acknowledged, the last one received in order; retry
and out hold flits with the destination's MAC and ports before them, out by message; part the flits received of a message
that is not complete; peerLanes the lanes that the partner finds good. -/
structure Port where
  st      : PortSt
  lanes   : Nat
  peerLanes : Nat
  fails   : Nat
  resent  : Nat
  txSeq   : Nat
  ackSeq  : Nat
  rxSeq   : Nat
  retry   : List (List Byte)
  out     : List (List (List Byte))
  part    : List (List Byte)
  resends : Nat
  paused  : Bool
  nak     : Bool
  trainAt : Option Nat
  deriving DecidableEq, Repr

def Port.down : Port :=
  { st := .down, lanes := 0, peerLanes := 8, fails := 0, resent := 0, txSeq := 0, ackSeq := 4095, rxSeq := 4095, retry := [],
    out := [], part := [], resends := 0, paused := false, nak := false, trainAt := none }

/-- A queue-pair work entry (R407). -/
structure Qpe where
  op   : Nat
  red  : Nat
  fmt  : Nat
  flags : Nat
  rank : Nat
  rsv  : Nat
  lva  : Word
  rva  : Word
  len  : Word
  armk : W32
  cmpk : W32
  armt : Word
  cinc : Word
  next : Word
  deriving DecidableEq, Repr

/-- An accepted work entry (R408): whose it is, the use of a handle that it belongs to, the XCARM phase that armed it, the
entry that must fire before it is armed, whether it has fired, its first failure, the ports that its chain uses by rank. -/
structure WorkEnt where
  ctx   : Nat
  key   : Nat
  hand  : Nat
  va    : Word
  e     : Qpe
  arm   : Bool
  phase : BitVec 32
  prev  : Option Nat
  fired : Bool
  status : Nat
  routes : SMap Nat
  deriving DecidableEq, Repr

/-- A posted collective (R410, R411): descriptor bytes, its number, where it stands (0 posted, 1 expanded, 2 fired, 3 asks
its tree parent, 4 agreed, 5 its result on the way to memory), its counts, its data as it fired, the agreement (R412). -/
structure Coll where
  ctx   : Nat
  key   : Nat
  hand  : Nat
  n     : Nat
  desc  : List Byte
  stage : Nat
  counts : List Byte
  data  : List Byte
  agreed : List (Option Int × List Nat)
  deriving DecidableEq, Repr

/-- A request to a peer (R290, R403, R409): who asks (a strand's key; 2^40 + n for work entry n, 2^41 + n for collective
n, 2^43 + source for a hub agent, with its step), the request's fields, whether somebody takes the answer, the answer; when
it was sent, when it may be sent; the strand's paths that it is on, the opcode and the VA of its access. -/
structure Remote where
  paths : BitVec 8
  opc   : Nat
  va    : Word
  tag   : Nat
  key   : Nat
  ctx   : Nat
  rank  : Nat
  opk   : Nat
  opa   : Nat
  fmt   : Nat
  rva   : Word
  n     : Nat
  bytes : List Byte
  opd   : Word
  opd2  : Word
  wait  : Bool
  ans   : Option (List Byte)
  old   : Word
  status : Nat
  port  : Option Nat
  sentAt : Option Nat
  due   : Nat
  since : Nat
  who   : Option Post := none
  deriving DecidableEq, Repr

/-- Links: agrees are the agreement messages not yet answered, with their ports; kept the requests that wait for a pinned
page; sent every frame that has left. -/
structure Net where
  ports  : List Port
  work   : SMap WorkEnt
  nextW  : Nat
  colls  : SMap Coll
  agrees : List (Nat × LinkReq)
  kept   : List (Nat × LinkReq)
  tagN   : BitVec 32
  remote : List Remote
  sent   : List (Nat × List Byte)
  ptpOff : Int
  holdover : Bool
  deriving DecidableEq, Repr

/-! ### Sequences and streams -/

/-- A sequence (R421, R422): record fields, committed length, cursors by layer, the strand with the open step. -/
structure Sequence where
  va    : Word
  btva  : Word
  l     : Word
  b     : Nat
  nlayer : Nat
  s     : Nat
  w     : Nat
  btn   : Nat
  curs  : List Nat
  opened : Option Nat
  deriving DecidableEq, Repr

inductive StreamSt where
  | armed | step | waiting
  deriving DecidableEq, Repr

/-- A token record (R426). Its sequence number is counted on beyond 2^16. -/
structure Token32 where
  stamp : Int
  sid   : Nat
  tok   : W32
  pay   : Word
  flags : W16
  seqn  : Nat
  deriving DecidableEq, Repr

/-- A stream (R425 to R430, R447): its record; TAIL and the read index; the pending set; stamps of the last W records
taken; numbers taken or filled; NEXT; the last cut-off; the next tick's time; the T of the tick in hand; the counters; a
step whose dispatch is still to come, and since when it finds its ring full; the tick that a SAVED context owes. -/
structure Stream where
  ring   : Word
  rlog2  : Nat
  policy : Nat
  seq    : Nat
  period : Nat
  grace  : Nat
  lag    : Nat
  filler : W32
  qid    : Nat
  taskva : Word
  st     : StreamSt
  tail   : BitVec 32
  rd     : BitVec 32
  pend   : List Token32
  taken  : List Int
  seen   : List Nat
  next   : Option Nat
  last   : Option Int
  due    : Nat
  tick   : Nat
  missed : W32
  late   : W32
  dropped : W32
  filled : W32
  send   : Option StepFacts
  since  : Option Nat
  owed   : Option Nat
  deriving DecidableEq, Repr

structure Strm where
  seqs    : SMap Sequence
  streams : SMap Stream
  deriving DecidableEq, Repr

/-! ### Trace, counters, power -/

/-- A trace sink (R445). -/
structure Sink where
  ctl  : Word
  base : Word
  ten  : List Word
  prod : BitVec 32
  cons : BitVec 32
  lost : BitVec 32
  deriving DecidableEq, Repr

def Sink.zero : Sink := ⟨0, 0, [0, 0, 0, 0], 0, 0, 0⟩

/-- A trace record on its way to the sinks (R437, R438): its key and words, the sinks that take it. -/
structure TraceRec where
  time  : Nat
  die   : Nat
  seq   : Word
  srcw  : W32
  p0    : W32
  p1    : Word
  sync  : Bool
  sinks : List Nat
  deriving DecidableEq, Repr

/-- A block of event counters (R448): 16 of a core, 64 of a die. -/
structure Counters where
  esel : SMap Word
  ecnt : SMap Word
  ethr : SMap Word
  ests : Word
  deriving DecidableEq, Repr

def Counters.zero : Counters := ⟨[], [], [], 0⟩

/-- An FP event slot (R55, R56). -/
structure FpSlot where
  key : Word
  cnt : SMap W32
  thr : SMap W32
  sts : W16
  deriving DecidableEq, Repr

def FpSlot.zero : FpSlot := ⟨0, [], [], 0⟩

structure Trace where
  sinks : List Sink
  seqs  : SMap Word
  held  : List TraceRec
  wait  : List (Nat × Nat × TraceRec)
  cnts  : SMap Counters
  fps   : SMap FpSlot
  lanes : Nat
  deriving DecidableEq, Repr

/-- A die's power controller (R24 to R26): allotments and last ten measurements by consumer, in mW; whether the
junction halves the allotments; consumers throttled; the core whose issue stalls next. -/
structure Power where
  allot : List Nat
  hist  : List (List Nat)
  hot   : Bool
  throttled : List Bool
  turn  : Nat
  deriving DecidableEq, Repr

/-- An upset of one of the three results that a TRI word votes (R125): which of the three, which part of the result and
which element of it, the bits that flip. -/
structure Upset where
  copy : Nat
  part : Nat
  elem : Nat
  flip : Word
  deriving DecidableEq, Repr

/-- The plant: power, the hub's own lines (R24), whether the inlet or the flow halves the allotments (R26), and what the outside does to the next words that are voted, word by word. -/
structure Plant where
  dies : List Power
  hub  : List Nat
  inlet : Bool
  flow : Bool
  upsets : List (List Upset)
  deriving DecidableEq, Repr

/-! ### The machine -/

/-- Whose turn it is in the period (assumption log 1): the units, the engines of each strand, the turns that were put
off, the end of the period. -/
inductive Turn where
  | units
  | eng (g : Eng)
  | again (g : Eng)
  | close
  deriving DecidableEq, Repr

/-- The machine. cur is the strand whose engines have the turn, others the strands of the other slots by key. -/
structure State where
  turn   : Turn
  clock  : Nat
  cur    : Strand
  others : SMap Strand
  inputs : List Instr
  todo   : List Post
  left   : Nat
  free   : Nat
  mem    : Mem
  work   : Work
  ctl    : Ctl
  net    : Net
  strm   : Strm
  trc    : Trace
  plant  : Plant
  deriving DecidableEq, Repr

/-! ### Reset -/

def Mem.reset : Mem :=
  { dev := [], host := [], poison := [], soft := [], coreTlb := [], walkTlb := [], reqs := [], rqNext := 0, moves := [],
    frames := [], full := [], pools := [], hint := Config.retryHint, atoms := [], hot := [],
    waits := [], stores := [] }

def Work.reset : Work :=
  { cache := [], images := [], queues := [], asks := [], lastSlot := [], qevset := [], tasks := [],
    nextTask := 0, serial := 0, groups := [], bars := [], cores := [], nrings := [] }

/-- The configuration record's values are not the manual's: assumption log 3. -/
def Firmware.reset : Firmware :=
  { puf := 0, helper := 0, idKey := none, recovery := false, booted := false, chip := 0, minVer := 0, slot := 0, descDies := 0, privCtx := [],
    etherType := 0x88B5, configOk := true, images := [⟨0, 0, 0, 0⟩, ⟨0, 0, 0, 0⟩], measured := [], runVer := 0,
    update := none, lost := [] }

def Ctl.reset : Ctl :=
  { ctxs := [], fns := [], breaks := [], evvec := 0, inspa := 0, fw := .reset, msix := [], errs := [], mctp := [], readv := 0 }

def Net.reset : Net :=
  { ports := List.replicate 16 .down, work := [], nextW := 0, colls := [], agrees := [], kept := [], tagN := 0, remote := [], sent := [], ptpOff := 0,
    holdover := false }

def Trace.reset : Trace :=
  { sinks := List.replicate 16 .zero, seqs := [], held := [], wait := [], cnts := [], fps := [], lanes := 0 }

/-- Quarter shares of the arrays, vector units, SRAM and LPDDR lines, in mW (R24). -/
def Power.reset : Power :=
  { allot := [337500, 62500, 75000, 37500], hist := [], hot := false, throttled := [false, false, false, false],
    turn := 0 }

/-- The hub keeps the fabric, hub-and-host and remainder lines, in mW (R24). -/
def Plant.reset : Plant := ⟨List.replicate 4 .reset, [200000, 100000, 50000], false, false, []⟩

/-- The machine right after a module reset: no context, no strand, memory with nothing listed. -/
def State.reset : State :=
  { turn := .units, clock := 0, cur := .empty, others := [], inputs := [], todo := [], left := 0, free := 0,
    mem := .reset, work := .reset, ctl := .reset, net := .reset, strm := ⟨[], []⟩, trc := .reset, plant := .reset }

end Sys2Proof.Machine
end

