-- ==== Sys2Proof/Machine/Data.lean ====
section
/-! DEFINITION. Operations on the model's data: sparse tables, memories in canonical form, one value per engine,
little-endian bytes (R3). -/

namespace Sys2Proof

/-! ### Sparse tables -/

def SMap.get? {α : Type} : SMap α → Nat → Option α
  | [], _ => none
  | (k, v) :: m, i => if i = k then some v else if i < k then none else SMap.get? m i

def SMap.getD {α : Type} (m : SMap α) (i : Nat) (d : α) : α := (m.get? i).getD d

def SMap.set {α : Type} : SMap α → Nat → α → SMap α
  | [], i, x => [(i, x)]
  | (k, v) :: m, i, x =>
    if i = k then (k, x) :: m else if i < k then (i, x) :: (k, v) :: m else (k, v) :: SMap.set m i x

def SMap.del {α : Type} : SMap α → Nat → SMap α
  | [], _ => []
  | (k, v) :: m, i => if i = k then m else if i < k then (k, v) :: m else (k, v) :: SMap.del m i

def SMap.keys {α : Type} (m : SMap α) : List Nat := m.map (·.1)
def SMap.vals {α : Type} (m : SMap α) : List α := m.map (·.2)

/-- Keys strictly rising. -/
def SMap.sorted {α : Type} : SMap α → Bool
  | [] => true
  | [_] => true
  | (k, _) :: (j, v) :: m => decide (k < j) && SMap.sorted ((j, v) :: m)

/-- Change the entry of i, or the default where there is none. -/
def SMap.upd {α : Type} (m : SMap α) (i : Nat) (d : α) (f : α → α) : SMap α := m.set i (f (m.getD i d))

/-- Keep the pairs with keys outside [lo, lo + n). -/
def SMap.drop {α : Type} (m : SMap α) (lo n : Nat) : SMap α := m.filter fun p => decide (p.1 < lo ∨ lo + n ≤ p.1)

/-- Write a list of values at consecutive keys. -/
def SMap.puts {α : Type} (m : SMap α) (i : Nat) : List α → SMap α
  | [] => m
  | x :: xs => SMap.puts (m.set i x) (i + 1) xs

/-! ### One value per engine -/

def PerEng.get {α : Type} (p : PerEng α) : Eng → α
  | .a => p.a | .x => p.x | .m => p.m | .w => p.w

def PerEng.set {α : Type} (p : PerEng α) (g : Eng) (v : α) : PerEng α :=
  match g with
  | .a => { p with a := v } | .x => { p with x := v } | .m => { p with m := v } | .w => { p with w := v }

def PerEng.map {α β : Type} (p : PerEng α) (f : α → β) : PerEng β := ⟨f p.a, f p.x, f p.m, f p.w⟩

def PerEng.any {α : Type} (p : PerEng α) (f : α → Bool) : Bool := f p.a || f p.x || f p.m || f p.w
def PerEng.every {α : Type} (p : PerEng α) (f : α → Bool) : Bool := f p.a && f p.x && f p.m && f p.w

def Eng.list : List Eng := [.a, .x, .m, .w]

/-- The largest value of the three engines other than g. -/
def PerEng.maxOther (p : PerEng Nat) (g : Eng) : Nat :=
  (Eng.list.filter (· != g)).foldl (fun n e => max n (p.get e)) 0

/-- The smallest value of the three engines other than g. -/
def PerEng.minOther (p : PerEng Nat) (g : Eng) : Nat :=
  match (Eng.list.filter (· != g)).map p.get with
  | [] => 0
  | n :: ns => ns.foldl min n

/-! ### Bytes -/

/-- The number that little-endian bytes hold. -/
def leNat : List Byte → Nat
  | [] => 0
  | b :: bs => b.toNat + 256 * leNat bs

/-- n little-endian bytes of a number. -/
def leBytes : Nat → Nat → List Byte
  | 0, _ => []
  | n + 1, v => BitVec.ofNat 8 v :: leBytes n (v / 256)

/-- The field of size n at offset off of a record. -/
def field (r : List Byte) (off n : Nat) : Nat := leNat ((r.drop off).take n)

/-- Replace the bytes of a record from off on. -/
def putBytes (r : List Byte) (off : Nat) (v : List Byte) : List Byte :=
  r.take off ++ v ++ r.drop (off + v.length)

/-- Network order (R3): the first byte is the most significant. -/
def beNat (bs : List Byte) : Nat := leNat bs.reverse

/-- Replace element i of a list. -/
def upd {α : Type} (l : List α) (i : Nat) (f : α → α) : List α :=
  match l[i]? with
  | some v => l.set i (f v)
  | none => l

/-- Insertion sort by a total order: elements that tie keep their order. -/
def insertBy {α : Type} (le : α → α → Bool) (x : α) : List α → List α
  | [] => [x]
  | y :: ys => if le x y then x :: y :: ys else y :: insertBy le x ys

def sortBy {α : Type} (le : α → α → Bool) : List α → List α
  | [] => []
  | x :: xs => insertBy le x (sortBy le xs)

/-- Signed reading of the low w bits of a number. -/
def toSigned (w n : Nat) : Int :=
  let m := n % 2 ^ w
  if 2 ^ (w - 1) ≤ m then (m : Int) - (2 ^ w : Nat) else m

/-- The residue of an integer as a word. -/
def wordOf (i : Int) : Word := BitVec.ofInt 64 i

namespace Machine

/-! ### Memory in canonical form -/

/-- A byte of memory: an unlisted address reads as 0 (assumption log 6). -/
def Memory.read (m : Memory) (a : Nat) : Byte := SMap.getD m a 0

/-- A write keeps the form: writing 0 removes the entry. -/
def Memory.write (m : Memory) (a : Nat) (b : Byte) : Memory :=
  if b = 0 then SMap.del m a else SMap.set m a b

def Memory.readN (m : Memory) (a n : Nat) : List Byte := tab n fun i => Memory.read m (a + i)

def Memory.writeN (m : Memory) (a : Nat) : List Byte → Memory
  | [] => m
  | b :: bs => Memory.writeN (Memory.write m a b) (a + 1) bs

/-- The canonical form: addresses strictly rising, no listed byte equal to 0. -/
def Memory.wf (m : Memory) : Bool := SMap.sorted m && m.all fun c => c.2 != 0

/-! ### The half of a tile that VLD, VST, LDT and STT see (R195) -/

def Half.put (h : Half) (i : Nat) (b : List Byte) : Half := { h with data := SMap.puts h.data i b }

def Tile.front (t : Tile) : Half := if t.half then t.h1 else t.h0
def Tile.setFront (t : Tile) (h : Half) : Tile := if t.half then { t with h1 := h } else { t with h0 := h }

/-! ### Fields of a strand, by engine -/

def Strand.engine (t : Strand) (g : Eng) : Engine := t.eng.get g

def Strand.setEngine (t : Strand) (g : Eng) (f : Engine → Engine) : Strand :=
  { t with eng := t.eng.set g (f (t.eng.get g)) }

/-- Change the strand that has the turn. -/
def State.setCur (s : State) (f : Strand → Strand) : State := { s with cur := f s.cur }

def State.setEng (s : State) (g : Eng) (f : Engine → Engine) : State := s.setCur fun t => t.setEngine g f

/-- Core, slot, die and cluster of a strand key (R21); a saved strand's key ends in that of the slot it left. -/
def keyCore (k : Nat) : Nat := k / 2 % 256
def keySlot (k : Nat) : Nat := k % 2
def coreDie (c : Nat) : Nat := c / 64
def coreCluster (c : Nat) : Nat := c / 4

/-! ### Strands of other slots -/

/-- Bring the strand of key k to the front; the strand that was there is kept under its key. A slot without a
strand is kept nowhere. -/
def State.swapTo (s : State) (k : Nat) : State :=
  if s.cur.key = k ∧ s.cur.st ≠ .free then s
  else match SMap.get? s.others k with
    | none => s
    | some t =>
      let o := SMap.del s.others k
      { s with cur := t, others := if s.cur.st = .free then o else SMap.set o s.cur.key s.cur }

/-- The strand of a key. -/
def State.strand? (s : State) (k : Nat) : Option Strand :=
  if s.cur.key = k ∧ s.cur.st ≠ .free then some s.cur else SMap.get? s.others k

/-- Act on the strand of key k as the strand at the front, then bring the former one back. -/
def State.at (s : State) (k : Nat) (f : State → State) : State :=
  match s.strand? k with
  | none => s
  | some _ => (f (s.swapTo k)).swapTo s.cur.key

/-- Every strand there is, by key. -/
def State.strands (s : State) : SMap Strand :=
  if s.cur.st = .free then s.others else SMap.set s.others s.cur.key s.cur

/-- Ask for a unit step; each is served once at the units' turn (assumption log 1). -/
def State.post (s : State) (w : What) (a : Nat) (b : Nat := 0) : State := { s with todo := s.todo ++ [⟨w, a, b⟩] }

/-- The same, unless it is asked for already. -/
def State.postOnce (s : State) (w : What) (a : Nat) (b : Nat := 0) : State :=
  if s.todo.contains ⟨w, a, b⟩ then s else s.post w a b

def State.repost (s : State) (p : Post) : State := s.postOnce p.what p.a p.b

/-- PTP nanoseconds (R142). -/
def State.ns (s : State) : Nat := s.clock / Config.periodsPerNs

/-- The context of the strand at the front. -/
def State.ctxOf (s : State) (c : Nat) : Context := SMap.getD s.ctl.ctxs c .free

def State.setCtx (s : State) (c : Nat) (f : Context → Context) : State :=
  { s with ctl := { s.ctl with ctxs := SMap.upd s.ctl.ctxs c .free f } }

def State.curCtx (s : State) : Context := s.ctxOf s.cur.sys.ctx.toNat

end Machine

end Sys2Proof
end

