-- ==== Sys2Proof/Machine/Fp.lean ====
section
/-! DEFINITION. Number formats and arithmetic (R27 to R54, R57): exact values, Round, Sat, BlockSum, the
dual-shift weight, scales, the special functions, and the events a result raises. -/

namespace Sys2Proof

/-- Format codes 0x0 to 0xC (R27). -/
inductive Fmt where
  | untyped | f32 | bf16 | f16 | e4m3 | e5m2 | e2m1 | dsw8 | s8 | s4 | s32 | ix32 | desc
  deriving DecidableEq, Repr

def Fmt.ofCode : Nat → Option Fmt
  | 0 => some .untyped | 1 => some .f32 | 2 => some .bf16 | 3 => some .f16 | 4 => some .e4m3 | 5 => some .e5m2
  | 6 => some .e2m1 | 7 => some .dsw8 | 8 => some .s8 | 9 => some .s4 | 10 => some .s32 | 11 => some .ix32
  | 12 => some .desc | _ => none

/-- Element width in bits; 0 for NONE, 8 for DESC (R27, R166). -/
def Fmt.bits : Fmt → Nat
  | .untyped => 0 | .f32 => 32 | .bf16 => 16 | .f16 => 16 | .e4m3 => 8 | .e5m2 => 8 | .e2m1 => 4 | .dsw8 => 8
  | .s8 => 8 | .s4 => 4 | .s32 => 32 | .ix32 => 32 | .desc => 8

/-- A floating-point layout: exponent bits, mantissa bits, bias, infinities, NaN (R28, R29). -/
structure FloatLay where
  eb   : Nat
  mb   : Nat
  bias : Nat
  infs : Bool
  nans : Bool
  deriving DecidableEq, Repr

def Fmt.float : Fmt → Option FloatLay
  | .f32 => some ⟨8, 23, 127, true, true⟩
  | .bf16 => some ⟨8, 7, 127, true, true⟩
  | .f16 => some ⟨5, 10, 15, true, true⟩
  | .e4m3 => some ⟨4, 3, 7, false, true⟩
  | .e5m2 => some ⟨5, 2, 15, true, true⟩
  | .e2m1 => some ⟨2, 1, 1, false, false⟩
  | _ => none

/-- Range of an integer format (R34). -/
def Fmt.intRange : Fmt → Option (Int × Int)
  | .s8 => some (-128, 127)
  | .s4 => some (-8, 7)
  | .s32 => some (-2147483648, 2147483647)
  | .ix32 => some (0, 4294967295)
  | _ => none

/-- An exact value: NaN, a signed infinity, or a signed magnitude n / d with d > 0 (R37). -/
inductive Val where
  | nan
  | inf (neg : Bool)
  | fin (neg : Bool) (n d : Nat)
  deriving DecidableEq, Repr

def Val.zero : Val := .fin false 0 1
def Val.ofInt (i : Int) : Val := .fin (decide (i < 0)) i.natAbs 1

/-- The magnitude m × 2^e. -/
def Val.dyadic (neg : Bool) (m : Nat) (e : Int) : Val :=
  if 0 ≤ e then .fin neg (m * 2 ^ e.toNat) 1 else .fin neg m (2 ^ (-e).toNat)

def Val.isNan : Val → Bool
  | .nan => true | _ => false
def Val.isFin : Val → Bool
  | .fin .. => true | _ => false
def Val.isZero : Val → Bool
  | .fin _ n _ => n == 0 | _ => false
def Val.neg : Val → Bool
  | .nan => false | .inf s => s | .fin s _ _ => s
def Val.negate : Val → Val
  | .nan => .nan | .inf s => .inf (!s) | .fin s n d => .fin (!s) n d
def Val.abs : Val → Val
  | .nan => .nan | .inf _ => .inf false | .fin _ n d => .fin false n d

/-! ### Reading encodings -/

def FloatLay.exact (l : FloatLay) (e : Nat) : Val :=
  let man := e % 2 ^ l.mb
  let exp := e / 2 ^ l.mb % 2 ^ l.eb
  let s := decide (e / 2 ^ (l.mb + l.eb) % 2 = 1)
  if l.infs && exp == 2 ^ l.eb - 1 then (if man = 0 then .inf s else .nan)
  else if !l.infs && l.nans && exp == 2 ^ l.eb - 1 && man == 2 ^ l.mb - 1 then .nan
  else if exp = 0 then .dyadic s man (1 - (l.bias : Int) - l.mb)
  else .dyadic s (2 ^ l.mb + man) ((exp : Int) - l.bias - l.mb)

/-- One term of a dual-shift weight, in 64ths (R31). -/
def dswTerm (s c : Nat) : Int := if c = 7 then 0 else if s = 1 then -(2 ^ (6 - c) : Int) else 2 ^ (6 - c)

def dswValue (e : Nat) : Val :=
  let v := dswTerm (e / 128 % 2) (e / 16 % 8) + dswTerm (e / 8 % 2) (e % 8)
  .fin (decide (v < 0)) v.natAbs 64

/-- Exact(e, fmt) (R37); untyped and descriptor formats have no value of their own. -/
def exact (f : Fmt) (e : Nat) : Val :=
  match f.float with
  | some l => l.exact e
  | none =>
    match f with
    | .dsw8 => dswValue (e % 256)
    | .ix32 => .fin false (e % 2 ^ 32) 1
    | .s8 => .ofInt (toSigned 8 e)
    | .s4 => .ofInt (toSigned 4 e)
    | .s32 => .ofInt (toSigned 32 e)
    | _ => .zero

/-- The value of a UE5M3 scale byte (R38). -/
def scaleValue (s : Nat) : Val :=
  let e := s / 8 % 32
  let m := s % 8
  if s % 256 = 255 then .nan
  else if e = 0 then .dyadic false m (-17) else .dyadic false (8 + m) ((e : Int) - 18)

/-! ### Rounding -/

/-- floor(log2(n / d)) for n, d > 0. -/
def floorLog2 (n d : Nat) : Int :=
  let e : Int := (Nat.log2 n : Int) - Nat.log2 d
  if 0 ≤ e then (if d * 2 ^ e.toNat ≤ n then e else e - 1)
  else (if d ≤ n * 2 ^ (-e).toNat then e else e - 1)

/-- Whether a remainder rounds the magnitude up: mode, sign, oddness, remainder, divisor (R39). -/
def roundsUp (rnd : Nat) (neg odd : Bool) (r d : Nat) : Bool :=
  if r = 0 then false
  else match rnd with
    | 1 => false
    | 2 => neg
    | 3 => !neg
    | 4 => decide (d ≤ 2 * r)
    | _ => decide (d < 2 * r) || (decide (2 * r = d) && odd)

/-- n / d rounded to an integer. -/
def roundNat (rnd : Nat) (neg : Bool) (n d : Nat) : Nat :=
  let k := n / d
  if roundsUp rnd neg (k % 2 == 1) (n % d) d then k + 1 else k

/-- What Round delivers: the encoding, and whether it overflowed or underflowed (R57). -/
structure Rounded where
  enc : Nat
  ovf : Bool
  unf : Bool
  deriving DecidableEq, Repr

/-- Largest finite magnitude, as an encoding without sign. -/
def FloatLay.maxEnc (l : FloatLay) : Nat :=
  if l.infs then 2 ^ (l.mb + l.eb) - 2 ^ l.mb - 1
  else if l.nans then 2 ^ (l.mb + l.eb) - 2
  else 2 ^ (l.mb + l.eb) - 1

def FloatLay.signBit (l : FloatLay) (neg : Bool) : Nat := if neg then 2 ^ (l.mb + l.eb) else 0

/-- Canonical NaN (R29); a format without NaN gives +0. -/
def FloatLay.nanEnc (l : FloatLay) : Nat :=
  if !l.nans then 0
  else if l.infs then 2 ^ (l.mb + l.eb) - 2 ^ (l.mb - 1) else 2 ^ (l.mb + l.eb) - 1

def FloatLay.infEnc (l : FloatLay) (neg : Bool) : Nat := (2 ^ l.eb - 1) * 2 ^ l.mb + l.signBit neg

/-- The result of a finite overflow (R41). -/
def FloatLay.overflow (l : FloatLay) (rnd : Nat) (neg : Bool) : Nat :=
  let big := l.maxEnc + l.signBit neg
  let out := if l.infs then l.infEnc neg else if l.nans then l.nanEnc else big
  match rnd with
  | 1 => big
  | 2 => if neg then out else big
  | 3 => if neg then big else out
  | 5 => big
  | _ => out

/-- The magnitude n / d in steps of its grid: the step count and the exponent of the step. -/
def FloatLay.steps (l : FloatLay) (rnd : Nat) (neg : Bool) (n d : Nat) : Nat × Int × Bool :=
  let emin : Int := 1 - l.bias
  let e := max (floorLog2 n d) emin
  let q := e - l.mb
  let n' := if q < 0 then n * 2 ^ (-q).toNat else n
  let d' := if q < 0 then d else d * 2 ^ q.toNat
  (roundNat rnd neg n' d', q, n' % d' != 0)

/-- Encoding of k × 2^q on the grid of the format, without sign. -/
def FloatLay.encode (l : FloatLay) (k : Nat) (q : Int) : Nat :=
  let ef := (q + l.mb + l.bias).toNat
  if k < 2 ^ l.mb then k
  else if k < 2 ^ (l.mb + 1) then ef * 2 ^ l.mb + (k - 2 ^ l.mb)
  else (ef + 1) * 2 ^ l.mb

def FloatLay.round (l : FloatLay) (x : Val) (rnd : Nat) : Rounded :=
  match x with
  | .nan => ⟨l.nanEnc, false, false⟩
  | .inf s =>
    if rnd = 5 then ⟨l.maxEnc + l.signBit s, false, false⟩
    else if l.infs then ⟨l.infEnc s, false, false⟩
    else if l.nans then ⟨l.nanEnc, false, false⟩ else ⟨l.maxEnc + l.signBit s, false, false⟩
  | .fin s n d =>
    if n = 0 then ⟨l.signBit s, false, false⟩
    else
      let (k, q, inexact) := l.steps rnd s n d
      let c := l.encode k q
      if l.maxEnc < c then ⟨l.overflow rnd s, true, false⟩
      else ⟨c + l.signBit s, false, inexact && decide (floorLog2 n d < 1 - (l.bias : Int))⟩

/-- Positive values of the dual-shift weight in 64ths with their canonical bytes (R32). -/
def dswTable : List (Nat × Nat) := [
  (1, 0x67), (2, 0x57), (3, 0x56), (4, 0x47), (5, 0x46), (6, 0x45), (7, 0x3E), (8, 0x37), (9, 0x36), (10, 0x35),
  (12, 0x34), (14, 0x2D), (15, 0x2E), (16, 0x27), (17, 0x26), (18, 0x25), (20, 0x24), (24, 0x23), (28, 0x1C),
  (30, 0x1D), (31, 0x1E), (32, 0x17), (33, 0x16), (34, 0x15), (36, 0x14), (40, 0x13), (48, 0x12), (56, 0x0B),
  (60, 0x0C), (62, 0x0D), (63, 0x0E), (64, 0x07), (65, 0x06), (66, 0x05), (68, 0x04), (72, 0x03), (80, 0x02),
  (96, 0x01), (128, 0x00)]

/-- The canonical byte of −v from that of v (R32). -/
def dswNeg (b : Nat) : Nat :=
  if b = 0x77 then b else if b % 8 = 7 then b ||| 0x80 else b ^^^ 0x88

/-- Distance of v / 64 from n / d, scaled by 64 d. -/
def dswGap (v n d : Nat) : Nat := if v * d ≤ 64 * n then 64 * n - v * d else v * d - 64 * n

/-- The nearest value; a tie keeps the smaller (R33). -/
def dswNearest (n d : Nat) : Nat :=
  (dswTable.foldl (fun (best : Nat × Nat) (e : Nat × Nat) =>
    if dswGap e.1 n d < dswGap best.1 n d then e else best) (0, 0x77)).2

def dswRound (x : Val) : Rounded :=
  match x with
  | .nan => ⟨0x77, true, false⟩
  | .inf s => ⟨if s then 0x88 else 0x00, true, false⟩
  | .fin s n d => let b := dswNearest n d; ⟨if s then dswNeg b else b, decide (2 * d < n), false⟩

/-- Clamp an integer to a range and encode it in w bits. -/
def clampEnc (lo hi : Int) (w : Nat) (i : Int) : Nat :=
  ((if i < lo then lo else if hi < i then hi else i) % (2 ^ w : Nat)).toNat

/-- Round(x, fmt, rnd) with its events (R40). -/
def roundE (x : Val) (f : Fmt) (rnd : Nat) : Rounded :=
  match f.float with
  | some l => l.round x rnd
  | none =>
    if f = .dsw8 then dswRound x
    else match f.intRange with
      | none => ⟨0, false, false⟩
      | some (lo, hi) =>
        match x with
        | .nan => ⟨0, false, false⟩
        | .inf s => ⟨clampEnc lo hi f.bits (if s then lo else hi), false, false⟩
        | .fin s n d =>
          let k : Int := roundNat (if rnd = 5 then 0 else rnd) s n d
          ⟨clampEnc lo hi f.bits (if s then -k else k), false, false⟩

def round (x : Val) (f : Fmt) (rnd : Nat) : Nat := (roundE x f rnd).enc

/-- Round to F32 with RNE. -/
def rnF32 (x : Val) : Nat := round x .f32 0

/-! ### Exact arithmetic (R37, R44, R48) -/

/-- Signed numerator over the product of the denominators. -/
def Val.num (s : Bool) (n : Nat) : Int := if s then -(n : Int) else n

/-- The sum; equal magnitudes of opposite sign give +0, −0 in RDN. -/
def Val.add (rnd : Nat) : Val → Val → Val
  | .nan, _ => .nan
  | _, .nan => .nan
  | .inf s, .inf t => if s = t then .inf s else .nan
  | .inf s, _ => .inf s
  | _, .inf t => .inf t
  | .fin s n d, .fin t m e =>
    if n = 0 ∧ m = 0 then .fin (if s = t then s else rnd == 2) 0 1
    else
      let k := Val.num s n * e + Val.num t m * d
      if k = 0 then .fin (rnd == 2) 0 1 else .fin (decide (k < 0)) k.natAbs (d * e)

def Val.sub (rnd : Nat) (a b : Val) : Val := Val.add rnd a b.negate

def Val.mul : Val → Val → Val
  | .nan, _ => .nan
  | _, .nan => .nan
  | .inf s, .inf t => .inf (s != t)
  | .inf s, .fin t m _ => if m = 0 then .nan else .inf (s != t)
  | .fin s n _, .inf t => if n = 0 then .nan else .inf (s != t)
  | .fin s n d, .fin t m e => .fin (s != t) (n * m) (d * e)

/-- The exact quotient by a non-zero finite value. -/
def Val.div : Val → Val → Val
  | .nan, _ => .nan
  | _, .nan => .nan
  | .inf _, .inf _ => .nan
  | .inf s, .fin t _ _ => .inf (s != t)
  | .fin s _ _, .inf t => .fin (s != t) 0 1
  | .fin s n d, .fin t m e =>
    if m = 0 then (if n = 0 then .nan else .inf (s != t)) else .fin (s != t) (n * e) (d * m)

/-- Order of two values that are not NaN: −1, 0, 1; zeros are equal. -/
def Val.cmp : Val → Val → Int
  | .nan, _ => 0
  | _, .nan => 0
  | .inf s, .inf t => if s = t then 0 else if s then -1 else 1
  | .inf s, .fin .. => if s then -1 else 1
  | .fin .., .inf t => if t then 1 else -1
  | .fin s n d, .fin t m e =>
    let k := Val.num s n * e - Val.num t m * d
    if k < 0 then -1 else if k = 0 then 0 else 1

/-- IEEE 754-2019 maximum: NaN wins, −0 below +0 (R49). -/
def Val.max (a b : Val) : Val :=
  if a.isNan || b.isNan then .nan
  else match a.cmp b with
    | 0 => if a.isZero && a.neg then b else a
    | 1 => a
    | _ => b

def Val.min (a b : Val) : Val := (Val.max a.negate b.negate).negate

/-- Rank of a value in the total order of R50, for values that are not NaN: the order, then −0 below +0. -/
def Val.above (a b : Val) : Bool :=
  if b.isNan then false
  else if a.isNan then true
  else match a.cmp b with
    | 1 => true
    | 0 => a.isZero && b.isZero && !a.neg && b.neg
    | _ => false

/-! ### Array arithmetic (R46, R47) -/

/-- BlockSum over a block's exact products (R46). -/
def blockSum (p : List Val) : Val :=
  if p.any Val.isNan then .nan
  else if p.any (· == .inf false) && p.any (· == .inf true) then .nan
  else if p.any (· == .inf false) then .inf false
  else if p.any (· == .inf true) then .inf true
  else
    let mags := p.filterMap fun v => match v with
      | .fin s n d => if n = 0 then none else some (s, n, d)
      | _ => none
    match mags with
    | [] => .zero
    | (_, n0, d0) :: rest =>
      let e := rest.foldl (fun (b : Int) (t : Bool × Nat × Nat) => max b (floorLog2 t.2.1 t.2.2)) (floorLog2 n0 d0)
      let g := e - 60
      let units : List Int := mags.map fun t =>
        let k := if g < 0 then t.2.1 * 2 ^ (-g).toNat / t.2.2 else t.2.1 / (t.2.2 * 2 ^ g.toNat)
        Val.num t.1 k
      let s : Int := units.foldl (fun a b => a + b) 0
      Val.dyadic (decide (s < 0)) s.natAbs g

/-- A block of an operand row as the array sees it: element formats and encodings, ZERO, SCALED, scale (R254). -/
structure Block where
  fmt    : Fmt
  elems  : List Nat
  zero   : Bool
  scaled : Bool
  scale  : Nat
  deriving DecidableEq, Repr

/-- The contribution of one K block to an element (R47). -/
def blockTerm (a b : Block) : Val :=
  let sv := fun (o : Block) => if o.scaled then scaleValue o.scale else .fin false 1 1
  if a.zero && b.zero then .zero
  else if a.zero || b.zero then
    let o := if a.zero then b else a
    if (sv o).isNan || o.elems.any (fun e => !(exact o.fmt e).isFin) then .nan else .zero
  else
    let ps := (a.elems.zip b.elems).map fun e => Val.mul (exact a.fmt e.1) (exact b.fmt e.2)
    Val.mul (Val.mul (blockSum ps) (sv a)) (sv b)

/-- acc ← Round(acc + t); an exact zero leaves acc (R47). -/
def accStep (acc : Nat) (t : Val) : Nat :=
  if t.isZero then acc else rnF32 (Val.add 0 (exact .f32 acc) t)

/-! ### Special functions (R51, R52) -/

inductive SpecFn where
  | exp2 | log2 | rcp | rsq | tanh | sigm | sin | cos
  deriving DecidableEq, Repr

def SpecFn.code : SpecFn → Nat
  | .exp2 => 0 | .log2 => 1 | .rcp => 2 | .rsq => 3 | .tanh => 4 | .sigm => 5 | .sin => 6 | .cos => 7

/-- Fixed-point enclosure: lo ≤ 2^p × value ≤ hi. -/
abbrev Enc := Int × Int

/-- Σ of alternating or plain odd powers t^(2k+1) / (2k+1) of t = 1 / r at p bits, with fuel terms. -/
def oddSeries (p r : Nat) (alt : Bool) : Nat → Nat → Nat → Int
  | 0, _, _ => 0
  | fuel + 1, pw, k =>
    let term : Int := (pw / (2 * k + 1) : Nat)
    (if alt && k % 2 == 1 then -term else term) + oddSeries p r alt fuel (pw / (r * r)) (k + 1)

/-- ln 2 = 2 atanh(1/3) at p bits, within p units. -/
def ln2Fix (p : Nat) : Int := 2 * oddSeries p 3 false p (2 ^ p / 3) 0

/-- π = 16 atan(1/5) − 4 atan(1/239) at p bits, within 20 p units. -/
def piFix (p : Nat) : Int :=
  16 * oddSeries p 5 true p (2 ^ p / 5) 0 - 4 * oddSeries p 239 true p (2 ^ p / 239) 0

/-- Σ t^k / k! from the term `cur` on at p bits. -/
def expSeries (p : Nat) (t : Int) : Nat → Int → Nat → Int
  | 0, _, _ => 0
  | fuel + 1, cur, k => cur + expSeries p t fuel (cur * t / (2 ^ p : Nat) / ((k + 1 : Nat) : Int)) (k + 1)

/-- Σ (−1)^k t^(2k+j) / (2k+j)! from the term `cur` of degree n on. -/
def trigSeries (p : Nat) (t2 : Int) : Nat → Int → Nat → Int
  | 0, _, _ => 0
  | fuel + 1, cur, n =>
    cur + trigSeries p t2 fuel (-(cur * t2 / (2 ^ p : Nat) / (((n + 1) * (n + 2) : Nat) : Int))) (n + 2)

/-- atanh(z) for 0 ≤ z ≤ 1/3 at p bits. -/
def atanhSeries (p : Nat) (z2 : Int) : Nat → Int → Nat → Int
  | 0, _, _ => 0
  | fuel + 1, pw, k => pw / ((2 * k + 1 : Nat) : Int) + atanhSeries p z2 fuel (pw * z2 / (2 ^ p : Nat)) (k + 1)

/-- Floor of the square root, bit by bit from bit b. -/
def isqrtFrom (n : Nat) : Nat → Nat → Nat
  | 0, r => r
  | b + 1, r => let c := r + 2 ^ b; isqrtFrom n b (if c * c ≤ n then c else r)

def isqrt (n : Nat) : Nat := isqrtFrom n (Nat.log2 n / 2 + 1) 0

/-- A closed rational enclosure of a value: sign and magnitude bounds of each end as signed fractions. -/
structure Bounds where
  lo : Val
  hi : Val
  deriving DecidableEq, Repr

def fixVal (p : Nat) (i : Int) (e : Int) : Val := .dyadic (decide (i < 0)) i.natAbs (e - p)

/-- 2^(t / 2^p) with an error of `err` units in t. -/
def exp2Fix (p : Nat) (t err : Int) : Bounds :=
  let one : Int := (2 ^ p : Nat)
  let k := t / one
  let r := (t % one) * ln2Fix p / one
  let m := expSeries p r (p + 8) one 0
  let e := 4 * (p : Int) + 64 + 2 * err
  ⟨fixVal p (m - e) k, fixVal p (m + e) k⟩

/-- x at p bits, towards −∞. -/
def Val.fix (p : Nat) : Val → Int
  | .fin s n d => let k : Int := (n * 2 ^ p / d : Nat); if s then -k - 1 else k
  | _ => 0

def Val.fixNear (p : Nat) : Val → Int
  | .fin s n d => let k : Int := (n * 2 ^ p / d : Nat); if s then -k else k
  | _ => 0

/-- e^x at p bits, for |x| below 4,096. -/
def expFix (p : Nat) (x : Val) : Bounds :=
  let l := ln2Fix p
  let t := x.fixNear p * (2 ^ p : Nat) / l
  exp2Fix p t (8 * (p : Int) * 4096)

def boundMap (b : Bounds) (f : Val → Val) (anti : Bool) : Bounds :=
  if anti then ⟨f b.hi, f b.lo⟩ else ⟨f b.lo, f b.hi⟩

def one : Val := .fin false 1 1

/-- An enclosure of the function at p bits of working precision, for a finite argument that R52 does not name. -/
def SpecFn.enclose (f : SpecFn) (p : Nat) (x : Val) : Bounds :=
  let tiny : Val := .dyadic false 1 (-4000)
  match f, x with
  | .exp2, .fin s n d =>
    if n % d = 0 ∧ n / d ≤ 4000 then
      let v : Val := .dyadic false 1 (if s then -((n / d : Nat) : Int) else (n / d : Nat)); ⟨v, v⟩
    else if 4000 * d < n then (let v : Val := .dyadic false 3 (if s then -4000 else 4000); ⟨v, v⟩)
    else exp2Fix p (x.fixNear p) 2
  | .log2, .fin _ n d =>
    let e := floorLog2 n d
    let m : Val := if 0 ≤ e then .fin false n (d * 2 ^ e.toNat) else .fin false (n * 2 ^ (-e).toNat) d
    let mf := m.fix p
    let one : Int := (2 ^ p : Nat)
    if mf = one ∧ m.cmp (.fin false 1 1) = 0 then (let v := Val.ofInt e; ⟨v, v⟩)
    else
      let z := (mf - one) * one / (mf + one)
      let ln := 2 * atanhSeries p (z * z / one) (p + 8) z 0
      let r := ln * one / ln2Fix p + e * one
      let err : Int := 16 * (p : Int) + 64
      ⟨fixVal p (r - err) 0, fixVal p (r + err) 0⟩
  | .rcp, .fin s n d => ⟨.fin s d n, .fin s d n⟩
  | .rsq, .fin _ n d =>
    -- 1 / √(n/d) = √(d/n)
    let e := floorLog2 d n
    let h : Int := (p : Int) + 8 - e / 2
    let v := if 0 ≤ h then d * 2 ^ (2 * h.toNat) / n else d / (n * 2 ^ (2 * (-h).toNat))
    let r := isqrt v
    if r * r * n = (if 0 ≤ h then d * 2 ^ (2 * h.toNat) else d) ∧ 0 ≤ h then
      (let w : Val := .dyadic false r (-h); ⟨w, w⟩)
    else ⟨.dyadic false r (-h), .dyadic false (r + 1) (-h)⟩
  | .tanh, .fin s n d =>
    let ax : Val := .fin false n d
    let b : Bounds := if 200 * d < n then ⟨Val.sub 0 one (.dyadic false 1 (-280)), one⟩
      else
        let g := expFix p (.fin false (2 * n) d)
        boundMap g (fun v => Val.div (Val.sub 0 v one) (Val.add 0 v one)) false
    let b := ⟨Val.max b.lo (.fin false 0 1), Val.min b.hi ax⟩
    if s then ⟨b.hi.negate, b.lo.negate⟩ else b
  | .sigm, .fin s n d =>
    if 2000 * d < n then (if s then ⟨tiny, tiny⟩ else ⟨Val.sub 0 one tiny, one⟩)
    else
      let g := expFix p (.fin (!s) n d)
      boundMap g (fun v => Val.div one (Val.add 0 one v)) true
  | .sin, .fin s n d | .cos, .fin s n d =>
    let q := p + 140
    let tau := 2 * piFix q
    let xq : Int := (n * 2 ^ q / d : Nat)
    let r := (xq % tau) / (2 ^ 140 : Nat)          -- in [0, 2π) at p bits
    let pi1 := tau / 2 / (2 ^ 140 : Nat)
    let r' := if pi1 < r then r - 2 * pi1 else r       -- in [−π, π]
    let t2 := r' * r' / (2 ^ p : Nat)
    let one : Int := (2 ^ p : Nat)
    let v := if f = .sin then trigSeries p t2 (p + 8) r' 1 else trigSeries p t2 (p + 8) one 0
    let v := if f = .sin && s then -v else v
    let err : Int := 64 * (p : Int) + 64
    ⟨fixVal p (v - err) 0, fixVal p (v + err) 0⟩
  | _, v => ⟨v, v⟩

/-- Results of R52, decided before any path. -/
def SpecFn.special (f : SpecFn) (x : Val) : Option Val :=
  match f, x with
  | _, .nan => some .nan
  | .exp2, .inf s => some (if s then .zero else .inf false)
  | .log2, .inf s => some (if s then .nan else .inf false)
  | .rcp, .inf s => some (.fin s 0 1)
  | .rsq, .inf s => some (if s then .nan else .zero)
  | .tanh, .inf s => some (.fin s 1 1)
  | .sigm, .inf s => some (if s then .zero else one)
  | .sin, .inf _ => some .nan
  | .cos, .inf _ => some .nan
  | .exp2, .fin .. => none
  | .log2, .fin s n _ => if n = 0 then some (.inf true) else if s then some .nan else none
  | .rcp, .fin s n _ => if n = 0 then some (.inf s) else none
  | .rsq, .fin s n _ => if n = 0 then some (.inf s) else if s then some .nan else none
  | .tanh, .fin s n _ => if n = 0 then some (.fin s 0 1) else none
  | .sigm, .fin .. => none
  | .sin, .fin s n _ => if n = 0 then some (.fin s 0 1) else none
  | .cos, .fin .. => none

/-- A rounding of the value that an enclosure holds: the working precision doubles until both ends round alike; the last
resort is the middle. -/
def SpecFn.settle (f : SpecFn) (x : Val) (rd : Val → Rounded) : Nat → Nat → Rounded
  | 0, p =>
    let b := f.enclose p x
    rd (Val.mul (Val.add 0 b.lo b.hi) (.fin false 1 2))
  | fuel + 1, p =>
    let b := f.enclose p x
    let u := rd b.lo
    let v := rd b.hi
    if u.enc = v.enc then ⟨u.enc, u.ovf && v.ovf, u.unf || v.unf⟩ else f.settle x rd fuel (2 * p)

/-- The exact result under a rounding; results of R52 first. -/
def SpecFn.rounded (f : SpecFn) (x : Val) (rd : Val → Rounded) : Rounded :=
  match f.special x with
  | some v => rd v
  | none => f.settle x rd 2 160

/-- The correctly rounded result. -/
def SpecFn.nearest (f : SpecFn) (x : Val) (fmt : Fmt) (rnd : Nat) : Nat := (f.rounded x fun v => roundE v fmt rnd).enc

/-- Magnitude strictly below k. -/
def Val.within (x : Val) (k : Nat) : Bool :=
  match x with
  | .fin _ n d => decide (n < k * d)
  | _ => false

/-- Whether a float encoding is a normal number. -/
def FloatLay.isNormal (l : FloatLay) (e : Nat) : Bool :=
  let exp := e / 2 ^ l.mb % 2 ^ l.eb
  exp != 0 && (l.exact e).isFin

/-- Whether an input lies strictly inside the fast interval (R51); e is its encoding in fmt. -/
def SpecFn.fast (f : SpecFn) (fmt : Fmt) (e : Nat) : Bool :=
  let x := exact fmt e
  (f.special x).isNone &&
  match f with
  | .exp2 => x.within 64
  | .log2 => match x with
      | .fin _ n d => decide (n < d * 2 ^ 64) && decide (d < n * 2 ^ 64)
      | _ => false
  | .rcp | .rsq => match fmt.float with
      | some l => l.isNormal e && l.isNormal (f.nearest x fmt 0)
      | none => false
  | .tanh | .sigm => x.within 9
  | .sin | .cos => x.within 4096

/-- Whether an exact result is certainly more than 1 ulp past the largest finite value. -/
def SpecFn.beyond (f : SpecFn) (x : Val) (l : FloatLay) : Bool :=
  ((f.enclose 160 x).lo.abs).cmp (.dyadic false 1 (2 ^ l.eb - 1 - (l.bias : Int))) == 1 &&
    ((f.enclose 160 x).hi.abs).cmp (.dyadic false 1 (2 ^ l.eb - 1 - (l.bias : Int))) == 1

/-- The encodings within 1 ulp of the exact value: its two neighbours, or itself and the next ones; past the largest
finite value by more, the correctly rounded one. -/
def SpecFn.near (f : SpecFn) (x : Val) (fmt : Fmt) : List Nat :=
  let lo := f.nearest x fmt 2
  let hi := f.nearest x fmt 3
  match fmt.float with
  | some l =>
    if f.beyond x l then [f.nearest x fmt 0]
    else if lo ≠ hi then [lo, hi]
    else
      let mag := lo % 2 ^ (l.mb + l.eb)
      if mag = 0 ∨ l.maxEnc ≤ mag then [lo] else [lo, lo + 1, lo - 1]
  | none => [lo, hi]

/-- Whether a result is below the smallest normal of its format and not zero. -/
def subnormal (fmt : Fmt) (e : Nat) : Bool :=
  (exact fmt e).isFin && !(exact fmt e).isZero && match fmt.float with | some l => !l.isNormal e | none => false

/-- The function on one encoding: the fast path delivers some value within 1 ulp, which one is free; the exact path
is correctly rounded (R51). Overflow is that of the delivered value, underflow that of the exact one (R57). -/
def SpecFn.apply (f : SpecFn) (fmt : Fmt) (e : Nat) : Rounded :=
  let x := exact fmt e
  if f.fast fmt e then
    let c := f.near x fmt
    let lo := f.rounded x fun v => roundE v fmt 2
    let r := c.getD (Config.fastPick f.code e fmt.bits % c.length) (f.nearest x fmt 0)
    ⟨r, !(exact fmt r).isFin, lo.unf || (subnormal fmt lo.enc && r != lo.enc)⟩
  else f.rounded x fun v => roundE v fmt 0

/-- x rounded RNE to 8 significant bits, then in the destination format (R54): magnitudes below the smallest normal
keep the spacing that 8 bits of the smallest normal have. Where 8 bits reach past the largest finite value the rule's
rounding and its bound differ, and the model delivers the infinity (DESIGN CHOICE, assumption log 4). -/
def eightBits (x : Val) (fmt : Fmt) : Rounded :=
  match x with
  | .fin s n d =>
    if n = 0 then roundE x fmt 0
    else
      let emin : Int := match fmt.float with | some l => 1 - (l.bias : Int) | none => -4000
      let e := max (floorLog2 n d) emin
      let q := e - 7
      let n' := if q < 0 then n * 2 ^ (-q).toNat else n
      let d' := if q < 0 then d else d * 2 ^ q.toNat
      let r := roundE (.dyadic s (roundNat 0 s n' d') q) fmt 0
      { r with unf := fmt.float.isSome && decide (floorLog2 n d < emin) && (exact fmt r.enc).cmp x != 0 }
  | _ => roundE x fmt 0

/-! ### FP events (R57) -/

/-- NaN produced, infinity produced, overflow, underflow of one result element. -/
structure Events where
  nan : Bool
  inf : Bool
  ovf : Bool
  unf : Bool
  deriving DecidableEq, Repr

/-- Events of a result: its encoding and rounding in fmt, whether a source held a NaN or was not finite. -/
def eventsOf (fmt : Fmt) (r : Rounded) (srcNan srcInf : Bool) : Events :=
  let v := exact fmt r.enc
  ⟨(v.isNan && !srcNan) || (srcNan && !(fmt.float.map FloatLay.nans).getD false && fmt.float.isSome) ||
     (srcNan && fmt == .dsw8),
   (match v with | .inf _ => true | _ => false) && !srcNan && !srcInf, r.ovf, r.unf⟩

/-- Format group of an event counter (R56). -/
def Fmt.group : Fmt → Option Nat
  | .f32 => some 0 | .bf16 => some 1 | .f16 => some 2
  | .e4m3 => some 3 | .e5m2 => some 3 | .e2m1 => some 3 | .dsw8 => some 3
  | _ => none

end Sys2Proof
end

