-- ==== Sys2Proof/Machine/Trc.lean ====
section
/-! DEFINITION. Event counters (R448, R449, R58), FP event slots (R55 to R58) and the emission of trace records
(R437 to R447), with the messages and error counts that every unit posts to the host. -/

namespace Sys2Proof.Machine

/-! ### Messages to the host -/

/-- Post MSI-X vector v of a function (R388, R389). -/
def State.msix (s : State) (fn v : Nat) : State := { s with ctl := { s.ctl with msix := s.ctl.msix ++ [(fn, v)] } }

/-- An interrupt of the counters or FP slots (R449). -/
def State.counterInterrupt (s : State) : State := s.msix 0 s.ctl.evvec.toNat

/-- An error record on the host port (R26, R314): kind and argument. -/
def State.hostError (s : State) (kind arg : Nat) : State :=
  { s with ctl := { s.ctl with errs := s.ctl.errs ++ [(kind, arg)] } }

/-! ### Event counters (R448, R449) -/

/-- Block of a die's counters, the hub being die 4, and of a core's. -/
def dieBlock (d : Nat) : Nat := d
def coreBlock (c : Nat) : Nat := 8 + c

/-- Whether a select register counts a code of a context (and, in a core's block, of an engine). -/
def eselCounts (core : Bool) (sel : Word) (code : Nat) (ctx : Option Nat) (eng : Option Eng) : Bool :=
  sel.getLsbD 63 && sel.toNat % 4096 == code &&
  (!sel.getLsbD 62 || ctx == some (sel.toNat / 2 ^ 32 % 4096)) &&
  (!core || sel.toNat / 4096 % 16 == 0 ||
    match eng with | some g => sel.getLsbD (12 + g.code.toNat) | none => true)

/-- Whether a count passes a threshold (R58). -/
def passes (old new thr : Nat) : Bool := thr != 0 && decide (old < thr) && decide (thr ≤ new)

/-- Add to a saturating count: the new count, and whether it passes the threshold (R58). -/
def bump (bits : Nat) (cnt thr n : Nat) : Nat × Bool :=
  let new := min (cnt + n) (2 ^ bits - 1)
  (new, passes cnt new thr)

/-- One counter of a block counts n events. -/
def countOne (core : Bool) (code : Nat) (ctx : Option Nat) (eng : Option Eng) (n : Nat)
    (acc : Counters × Nat) (i : Nat) : Counters × Nat :=
  let c := acc.1
  if eselCounts core (SMap.getD c.esel i 0) code ctx eng then
    let r := bump 64 (SMap.getD c.ecnt i 0).toNat (SMap.getD c.ethr i 0).toNat n
    let c := { c with ecnt := SMap.set c.ecnt i (BitVec.ofNat 64 r.1) }
    if r.2 && !c.ests.getLsbD i then ({ c with ests := c.ests ||| BitVec.ofNat 64 (2 ^ i) }, acc.2 + 1) else (c, acc.2)
  else acc

/-- Count n occurrences in a block; threshold hits interrupt. A block no register of which was written counts
nothing. -/
def State.countIn (s : State) (block code : Nat) (ctx : Option Nat) (eng : Option Eng) (n : Nat) : State :=
  match SMap.get? s.trc.cnts block with
  | none => s
  | some c =>
    let core := decide (8 ≤ block)
    let r := (tab (if core then 16 else 64) id).foldl (countOne core code ctx eng n) (c, 0)
    let s := { s with trc := { s.trc with cnts := SMap.set s.trc.cnts block r.1 } }
    (List.range r.2).foldl (fun s _ => s.counterInterrupt) s

/-- Count events of a core, in its block and its die's (R448). -/
def State.countCore (s : State) (core code : Nat) (ctx : Nat) (eng : Option Eng) (n : Nat) : State :=
  (s.countIn (coreBlock core) code (some ctx) eng n).countIn (dieBlock (coreDie core)) code (some ctx) eng n

def State.countDie (s : State) (d code : Nat) (ctx : Option Nat) (n : Nat) : State := s.countIn (dieBlock d) code ctx none n

/-- Count under HUB_IGNORED (R440). -/
def State.ignored (s : State) : State := s.countDie 4 0x440 none 1

/-- The die's events of the current strand's core. -/
def State.countCur (s : State) (code : Nat) (eng : Option Eng) (n : Nat) : State :=
  s.countCore (keyCore s.cur.key) code s.cur.sys.ctx.toNat eng n

/-! ### FP events (R55 to R58) -/

/-- The slot of a die that counts for a context and kernel: the lowest whose key matches. -/
def fpSlot (t : Trace) (die ctx kern : Nat) : Option Nat :=
  (tab 64 fun i => die * 64 + i).find? fun i =>
    let k := (SMap.getD t.fps i .zero).key
    k.getLsbD 63 && k.toNat % 4096 == ctx && (k.getLsbD 62 || k.toNat / 2 ^ 32 % 65536 == kern)

/-- A software write of counter i, which may pass the threshold too: the slot, and whether an interrupt is due (R58). -/
def FpSlot.write (f : FpSlot) (i : Nat) (v : W32) : FpSlot × Bool :=
  let hit := passes (SMap.getD f.cnt i 0).toNat v.toNat (SMap.getD f.thr i 0).toNat && !f.sts.getLsbD i
  ({ f with cnt := SMap.set f.cnt i v, sts := if hit then f.sts ||| BitVec.ofNat 16 (2 ^ i) else f.sts }, hit)

/-- Counter i of a slot counts n events. -/
def FpSlot.count (f : FpSlot) (i n : Nat) : FpSlot × Bool :=
  let r := bump 32 (SMap.getD f.cnt i 0).toNat (SMap.getD f.thr i 0).toNat n
  let f := { f with cnt := SMap.set f.cnt i (BitVec.ofNat 32 r.1) }
  if r.2 && !f.sts.getLsbD i then ({ f with sts := f.sts ||| BitVec.ofNat 16 (2 ^ i) }, true) else (f, false)

/-- Count n events i in the slot that matches. -/
def State.fpCount (s : State) (die ctx kern i n : Nat) : State :=
  if n = 0 then s
  else match fpSlot s.trc die ctx kern with
    | none => s
    | some k =>
      let r := (SMap.getD s.trc.fps k .zero).count i n
      let s := { s with trc := { s.trc with fps := SMap.set s.trc.fps k r.1 } }
      if r.2 then s.counterInterrupt else s

/-! ### Records -/

/-- Kind of a code (R439): long when bit 11 is set; 0xFFF is the sync record. Units of 16 bytes. -/
def codeUnits (code : Nat) : Nat := if 2048 ≤ code then 2 else 1

/-- SRCW of a core engine's record (R438). -/
def srcCore (core : Nat) (g : Eng) (code ten : Nat) : W32 :=
  BitVec.ofNat 32 (core * 2 ^ 24 + g.code.toNat * 2 ^ 22 + code * 2 ^ 10 + ten * 4)

/-- SRCW of a cluster unit's record: die and cluster, unit number. -/
def srcUnit (core unit code ten : Nat) : W32 :=
  BitVec.ofNat 32 (coreCluster core * 2 ^ 26 + unit * 2 ^ 22 + code * 2 ^ 10 + ten * 4)

/-- SRCW of a hub unit's record. -/
def srcHub (unit code ten : Nat) : W32 := BitVec.ofNat 32 (unit * 2 ^ 22 + code * 2 ^ 10 + ten * 4)

def recCode (w : W32) : Nat := w.toNat / 1024 % 4096
def recTenant (w : W32) : Nat := w.toNat / 4 % 256

/-- Whether the context's mask lets a code through (R446). -/
def evAllowed (mask : Word) (code : Nat) : Bool := mask.getLsbD (code / 512 % 4 * 16 + code / 32 % 16)

def Sink.enabled (k : Sink) : Bool := k.ctl.getLsbD 63
def Sink.lossless (k : Sink) : Bool := k.ctl.getLsbD 62
def Sink.units (k : Sink) : Nat := 2 ^ (k.ctl.toNat % 32)
def Sink.tenant (k : Sink) (t : Nat) : Bool := (k.ten.getD (t / 64) 0).getLsbD (t % 64)

/-- Sinks that take a record: enabled, tenant in the set, or every enabled one for a sync record (R444, R446). -/
def takers (t : Trace) (srcw : W32) (allowed sync : Bool) : List Nat :=
  (tab 16 id).filter fun n =>
    match t.sinks[n]? with
    | some k => k.enabled && (sync || (allowed && k.tenant (recTenant srcw)))
    | none => false

/-- Order of records (R442). -/
def TraceRec.before (a b : TraceRec) : Bool :=
  decide (a.time < b.time) ||
    (a.time == b.time && (decide (a.die < b.die) || (a.die == b.die && decide (a.seq.toNat < b.seq.toNat))))

def TraceRec.units (r : TraceRec) : Nat := if r.sync then 2 else codeUnits (recCode r.srcw)

/-- Units that a record takes at ring position p: a record that would cross the ring's end has a PAD before it. -/
def padUnits (k : Sink) (p u : Nat) : Nat := if u = 2 ∧ p % k.units = k.units - 1 then 1 else 0

/-- Ring position after the held records that sink n takes, from position p. -/
def afterHeld (k : Sink) (n : Nat) (held : List TraceRec) (p : Nat) : Nat :=
  held.foldl (fun p r => if r.sinks.contains n then p + padUnits k p r.units + r.units else p) p

/-- Insert a record in key order. -/
def insertRec (r : TraceRec) : List TraceRec → List TraceRec
  | [] => [r]
  | x :: xs => if r.before x then r :: x :: xs else x :: insertRec r xs

/-- The records before r in key order that are on their way or wait to be emitted (R447); r takes its die's next number. -/
def Trace.ahead (t : Trace) (r : TraceRec) : List TraceRec :=
  let waits := t.wait.map (·.2.2)
  let first := (t.held ++ waits.takeWhile (· != r)).filter fun h => h.before r || (h.time == r.time && h.die == r.die)
  (first ++ (waits.dropWhile (· != r)).filter fun h => h.before r).foldr insertRec []

/-- Room in sink n for a record behind the records before it (R445, R447). -/
def hasRoom (t : Trace) (n : Nat) (r : TraceRec) : Bool :=
  match t.sinks[n]? with
  | none => true
  | some k =>
    let p0 := k.prod.toNat
    let p := afterHeld k n (t.ahead r) p0
    decide ((k.prod - k.cons).toNat + (p + padUnits k p r.units + r.units - p0) ≤ k.units)

/-- Whether the emitter must stall: a lossless sink that takes the record lacks room. -/
def mustStall (t : Trace) (r : TraceRec) : Bool :=
  r.sinks.any fun n => (match t.sinks[n]? with | some k => k.lossless | none => false) && !hasRoom t n r

/-- Put a record on its way to the sinks with the next number of its die (R442). -/
def Trace.accept (t : Trace) (r : TraceRec) : Trace :=
  let n := SMap.getD t.seqs r.die 0
  { t with held := t.held ++ [{ r with seq := n }], seqs := SMap.set t.seqs r.die (n + 1) }

/-- Emit a record from the source `src` (4 × strand key + engine; others from 2^20 on); it waits when a lossless
sink has no room. A record that no sink takes leaves nothing. -/
def State.emitRec (s : State) (src : Nat) (r : TraceRec) : State :=
  if r.sinks.isEmpty then s
  else if (s.trc.wait.any fun w => w.1 == src) || mustStall s.trc r then
    { s with trc := { s.trc with wait := s.trc.wait ++ [(src, s.clock, r)] } }
  else { s with trc := s.trc.accept r }

/-- Build and emit a record of a unit on die d for context c (none: no context). -/
def State.emitFrom (s : State) (src d : Nat) (ctx : Option Nat) (mk : Nat → W32) (code : Nat) (p0 : W32) (p1 : Word) :
    State :=
  let ten := match ctx with | some c => (s.ctxOf c).record.tenant.toNat | none => 0
  let ok := match ctx with | some c => evAllowed (s.ctxOf c).record.evmask code | none => true
  let w := mk ten
  s.emitRec src ⟨s.ns, d, 0, w, p0, p1, false, takers s.trc w ok false⟩

/-- A record of engine g of the strand at the front. -/
def State.emitCore (s : State) (g : Eng) (code : Nat) (p0 : W32) (p1 : Word) : State :=
  let c := keyCore s.cur.key
  (s.emitFrom (4 * s.cur.key + g.code.toNat) (coreDie c) (some s.cur.sys.ctx.toNat)
    (fun ten => srcCore c g code ten) code p0 p1).countCur code (some g) 1

/-- A record of a hub unit. -/
def State.emitHub (s : State) (unit code : Nat) (ctx : Option Nat) (p0 : W32) (p1 : Word) : State :=
  (s.emitFrom (2 ^ 20 + unit) 4 ctx (fun ten => srcHub unit code ten) code p0 p1).countDie 4 code ctx 1

/-- A record of a cluster unit near a core. -/
def State.emitUnit (s : State) (core unit code : Nat) (ctx : Option Nat) (p0 : W32) (p1 : Word) : State :=
  (s.emitFrom (2 ^ 19 + coreCluster core * 16 + unit) (coreDie core) ctx (fun ten => srcUnit core unit code ten) code
    p0 p1).countDie (coreDie core) code ctx 1

/-- Whether a source waits to emit (R447). -/
def State.emitting (s : State) (src : Nat) : Bool := s.trc.wait.any fun w => w.1 == src

/-- Bytes of a record (R437). -/
def TraceRec.bytes (r : TraceRec) : List Byte :=
  leBytes 8 r.time ++ leBytes 4 r.srcw.toNat ++ leBytes 4 r.p0.toNat ++
    (if r.sync then leBytes 6 (r.time / 1000000000) ++ leBytes 4 (r.time % 1000000000) ++ leBytes 6 0
     else if codeUnits (recCode r.srcw) = 2 then leBytes 8 r.seq.toNat ++ leBytes 8 r.p1.toNat else [])

/-- PAD: code 0, with the time and source of the record it precedes. -/
def TraceRec.pad (r : TraceRec) : List Byte :=
  leBytes 8 r.time ++ leBytes 4 (r.srcw.toNat - recCode r.srcw * 1024) ++ leBytes 4 0

/-- Write a record into sink n, or drop it there when it does not fit (R445, R446). -/
def writeSink (r : TraceRec) (s : State) (n : Nat) : State :=
  match s.trc.sinks[n]? with
  | none => s
  | some k =>
    let p := k.prod.toNat
    let pad := padUnits k p r.units
    let put := fun k => { s.trc with sinks := s.trc.sinks.set n k }
    if !k.enabled then s
    else if (k.prod - k.cons).toNat + pad + r.units ≤ k.units then
      let at' := fun q => k.base.toNat + 16 * (q % k.units)
      let h := if pad = 1 then Memory.writeN s.mem.host (at' p) r.pad else s.mem.host
      { s with mem := { s.mem with host := Memory.writeN h (at' (p + pad)) r.bytes },
               trc := put { k with prod := k.prod + BitVec.ofNat 32 (pad + r.units) } }
    else { s with trc := put { k with lost := if k.lost = BitVec.allOnes 32 then k.lost else k.lost + 1 } }

/-- Whether a lossless sink that takes a record has no room for it yet. -/
def State.sinkFull (s : State) (r : TraceRec) : Bool :=
  r.sinks.any fun n => match s.trc.sinks[n]? with
    | some k => k.enabled && k.lossless &&
        decide (k.units < (k.prod - k.cons).toNat + padUnits k k.prod.toNat r.units + r.units)
    | none => false

/-- Write records in order, as far as they are of past nanoseconds, none stands behind a record that still waits to be
emitted, and no lossless sink is full. -/
def State.mergeOut : List TraceRec → State → State
  | [], s => { s with trc := { s.trc with held := [] } }
  | r :: rs, s =>
    let behind := s.trc.wait.any fun w => decide (w.2.2.time < r.time) || (w.2.2.time == r.time && decide (w.2.2.die ≤ r.die))
    if decide (s.ns ≤ r.time) || behind || s.sinkFull r then { s with trc := { s.trc with held := r :: rs } }
    else State.mergeOut rs (r.sinks.foldl (writeSink r) s)

/-- The merge unit (R442). -/
def State.mergeTrace (s : State) : State :=
  if s.trc.held.isEmpty then s else State.mergeOut (s.trc.held.foldr insertRec []) s

end Sys2Proof.Machine
end

