-- ==== Sys2Proof/Machine/Mem.lean ====
section
/-! DEFINITION. Pages and translation (R316 to R334): walks, TLBs, page requests, described pages, frame counts and
pools (R396), records posted to a context's rings (R388), and the accesses of the hub's agents (R468). -/

namespace Sys2Proof.Machine

/-! ### Physical memory -/

/-- Bytes of device memory (home 0) or host memory (home 1). -/
def Mem.bytes (m : Mem) (home pa n : Nat) : List Byte := Memory.readN (if home = 1 then m.host else m.dev) pa n

/-- A poisoned range: home, address, length. -/
def overlaps (a n b k : Nat) : Bool := decide (a < b + k) && decide (b < a + n)

/-- Poison that a write of whole words or blocks leaves (R314). -/
def unpoison (p : List (Nat × Nat × Nat)) (home pa n : Nat) : List (Nat × Nat × Nat) :=
  p.filter fun e => !(e.1 == home && decide (pa ≤ e.2.1) && decide (e.2.1 + e.2.2 ≤ pa + n))

/-- Lines of 64 bytes that a write of n bytes to device memory removes from the stores of hot lines (R291). -/
def coolLines (hot : SMap (List Nat)) (home pa n : Nat) : SMap (List Nat) :=
  if home = 0 then hot.map fun e => (e.1, e.2.filter fun l => !overlaps (64 * l) 64 pa n) else hot

def Mem.put (m : Mem) (home pa : Nat) (b : List Byte) : Mem :=
  let m := { m with poison := unpoison m.poison home pa b.length, soft := unpoison m.soft home pa b.length, hot := coolLines m.hot home pa b.length }
  if home = 1 then { m with host := Memory.writeN m.host pa b } else { m with dev := Memory.writeN m.dev pa b }

/-- An atomic engine of a die touches a line (R291): it becomes the newest of at most 64. -/
def Mem.touchLine (m : Mem) (eng home pa : Nat) : Mem :=
  if home = 0 then
    let l := pa / 64
    { m with hot := SMap.set m.hot eng ((l :: (SMap.getD m.hot eng []).filter (· != l)).take 64) }
  else m

def Mem.poisoned (m : Mem) (home pa n : Nat) : Bool :=
  m.poison.any fun e => e.1 == home && overlaps pa n e.2.1 e.2.2

/-- Where in a range the first uncorrectable error lies. -/
def Mem.badAt (m : Mem) (home pa n : Nat) : Nat :=
  ((m.poison.filter fun e => e.1 == home && overlaps pa n e.2.1 e.2.2).map fun e => e.2.1 - pa).foldl min n

/-- Where storage of a core lies in the addresses that a scrub gives (assumption log 42). -/
def spot (core off : Nat) : Nat := core * 2 ^ 32 + off

/-- Whether a range of on-package storage holds an uncorrectable error (R314). -/
def Mem.spoilt (m : Mem) (st : Store) (addr n : Nat) : Bool :=
  !m.poison.isEmpty && m.poison.any fun e => e.1 == 16 + st.code && overlaps addr n e.2.1 e.2.2

/-- A write of on-package storage clears the poison of the whole words that it covers (R314). -/
def Mem.heal (m : Mem) (st : Store) (addr n : Nat) : Mem :=
  if m.poison.isEmpty then m else { m with poison := unpoison m.poison (16 + st.code) addr n }

def Mem.word (m : Mem) (pa : Nat) : Word := BitVec.ofNat 64 (leNat (m.bytes 0 pa 8))

/-- The die that homes a device address (R18; contiguous quarters, assumption log 7). -/
def dieOf (pa : Nat) : Nat := pa / Config.dieBytes

/-- Whether an address lies in an enabled descriptor area (R332). -/
def inDescArea (fw : Firmware) (pa : Nat) : Bool :=
  fw.descDies.getLsbD (dieOf pa) && decide (Config.dieBytes - Config.descAreaBytes ≤ pa % Config.dieBytes)

/-- Address of the descriptor of the block at pa (R332). -/
def descAddr (pa : Nat) : Nat :=
  dieOf pa * Config.dieBytes + (Config.dieBytes - Config.descAreaBytes) +
    2048 * (pa % Config.dieBytes / 65536) + 2 * (pa % 65536 / 64)

/-! ### Walks (R316 to R318) -/

/-- A virtual address is canonical when bits [63:57] equal bit 56. -/
def canonical (va : Word) : Bool := va == (va.extractLsb' 0 57).signExtend 64

inductive Access where
  | read | write | text
  deriving DecidableEq, Repr

/-- A translation or permission fault: its code (3 is permission), where the walk stopped. -/
structure TFault where
  va    : Word
  wr    : Bool
  code  : Nat
  level : Nat
  entry : Word
  deriving DecidableEq, Repr

/-- A translation: home, address (peer: rank and aperture offset), page kind, leaf as cached. -/
structure Xlate where
  home : Nat
  pa   : Nat
  ord  : Nat
  desc : Bool
  leaf : Word
  deriving DecidableEq, Repr

def levelShift : Nat → Nat
  | 0 => 16 | 1 => 21 | 2 => 30 | 3 => 39 | _ => 48

/-- Log2 of the page size of R335's SIZE codes and of a leaf's level. -/
def pageShift (size : Nat) : Nat := levelShift size

def leafV (e : Word) : Bool := e.getLsbD 0
def leafW (e : Word) : Bool := e.getLsbD 1
def leafX (e : Word) : Bool := e.getLsbD 2
def leafOrd (e : Word) : Nat := e.toNat / 8 % 4
def leafHome (e : Word) : Nat := e.toNat / 32 % 4
def leafD (e : Word) : Bool := e.getLsbD 7
def leafA (e : Word) : Bool := e.getLsbD 8
def leafPin (e : Word) : Bool := e.getLsbD 9
def leafCow (e : Word) : Bool := e.getLsbD 10
def leafDesc (e : Word) : Bool := e.getLsbD 11
/-- The address that the FRAME field names. -/
def leafPa (e : Word) : Nat := e.toNat / 65536 % 2 ^ 36 * 65536
def setBit (e : Word) (i : Nat) (b : Bool) : Word :=
  if b then e ||| BitVec.ofNat 64 (2 ^ i) else e &&& ~~~(BitVec.ofNat 64 (2 ^ i))

/-- Reserved bits of a leaf, forbidden codes and frame bits below its size (R318, code 2). -/
def badLeaf (level : Nat) (e : Word) : Bool :=
  e.toNat / 2 ^ 52 % 2 ^ 11 != 0 || e.toNat / 2 ^ 12 % 16 != 0 || leafOrd e == 3 || leafHome e == 3 ||
  leafPa e % 2 ^ levelShift level != 0

/-- R318, code 5. -/
def badDesc (fw : Firmware) (e : Word) : Bool :=
  (leafDesc e && (leafHome e != 0 || !fw.descDies.getLsbD (dieOf (leafPa e)))) ||
  (leafHome e == 0 && inDescArea fw (leafPa e))

/-- Where a walk ends: a valid leaf with its own address, or the entry that stops it. -/
inductive Walk where
  | leaf (pa : Nat) (e : Word) (level : Nat)
  | stop (code level pa : Nat) (e : Word)
  | absent
  deriving DecidableEq, Repr

/-- Walk from the table of level n − 1 on. -/
def walkAt (m : Mem) (fw : Firmware) (va : Nat) : Nat → Nat → Walk
  | 0, _ => .absent
  | l + 1, table =>
    let pa := table + 8 * (va / 2 ^ levelShift l % (if l = 0 then 32 else 512))
    if Config.devBytes ≤ pa then .absent
    else
      let e := m.word pa
      if !leafV e then .stop 1 l pa e
      else if e.getLsbD 63 then
        (if 3 ≤ l ∨ badLeaf l e then .stop 2 l pa e else if badDesc fw e then .stop 5 l pa e else .leaf pa e l)
      else if l = 0 ∨ e.toNat / 2 ^ 52 ≠ 0 ∨ e.toNat % 4096 ≠ 1 then .stop 2 l pa e
      else walkAt m fw va l (e.toNat / 4096 * 4096)

def State.walk (s : State) (ctx : Nat) (va : Word) : Walk :=
  walkAt s.mem s.ctl.fw (va.toNat % 2 ^ 57) 5 (s.ctxOf ctx).record.ptroot.toNat

/-- Permission or COW fault of a valid leaf (R318). -/
def leafFault (e : Word) (acc : Access) : Nat :=
  match acc with
  | .read => 0
  | .text => if leafX e then 0 else 3
  | .write => if !leafW e then 3 else if leafCow e then 4 else 0

/-- The translation that a leaf of a level gives for a VA. -/
def leafXlate (e : Word) (level : Nat) (va : Word) : Xlate :=
  ⟨leafHome e, leafPa e + va.toNat % 2 ^ levelShift level, leafOrd e, leafDesc e, e⟩

def TlbEnt.covers (t : TlbEnt) (ctx : Nat) (va : Word) : Bool :=
  t.ctx == ctx && t.va == va.toNat / 2 ^ levelShift t.level

/-- What a translation gives. -/
inductive XRes where
  | ok (x : Xlate) (s : State)
  | fault (f : TFault)
  | moving
  | absent

def findWindow (ws : List Window) (va : Word) : Option Window :=
  ws.find? fun w => w.attr.getLsbD 0 && va.toNat / 2 ^ w.log2 == w.va.toNat / 2 ^ w.log2

/-- Keep at most n entries, the newest first. -/
def keepFirst {α : Type} (n : Nat) (l : List α) : List α := l.take n

/-- Fill the walker's TLB and the core's (R321). -/
def fillTlb (m : Mem) (core : Nat) (t : TlbEnt) : Mem :=
  let add := fun (k n : Nat) (tab : SMap (List TlbEnt)) =>
    SMap.upd tab k [] fun l => keepFirst n (t :: l.filter fun u => !(u.ctx == t.ctx && u.level == t.level && u.va == t.va))
  { m with coreTlb := add core Config.coreTlb m.coreTlb, walkTlb := add (coreCluster core) Config.walkTlb m.walkTlb }

/-- A cached translation that still serves: a write needs W, no COW and D set (R327). -/
def tlbServes (e : Word) (acc : Access) : Bool := leafFault e acc == 0 && (acc != .write || leafD e)

def tlbFind (m : Mem) (core ctx : Nat) (va : Word) : Option TlbEnt :=
  match (SMap.getD m.coreTlb core []).find? fun t => t.covers ctx va with
  | some t => some t
  | none => (SMap.getD m.walkTlb (coreCluster core) []).find? fun t => t.covers ctx va

/-- Whether a valid window covers some byte of a range. -/
def windowIn (ws : List Window) (va : Word) (n : Nat) : Bool :=
  ws.any fun w => w.attr.getLsbD 0 && overlaps (w.va.toNat / 2 ^ w.log2 * 2 ^ w.log2) (2 ^ w.log2) va.toNat n

/-- Whether some page of a range is MOVING (R326). -/
def movingIn (m : Mem) (ctx : Nat) (va : Word) (n : Nat) : Bool :=
  m.moves.any fun v => v.ctx == ctx && overlaps v.va v.size va.toNat n

def movingAt (m : Mem) (ctx : Nat) (va : Word) : Bool :=
  m.moves.any fun v => v.ctx == ctx && decide (v.va ≤ va.toNat) && decide (va.toNat < v.va + v.size)

/-- A walk on behalf of an access: sets A, and D for a write (R327), and fills the TLBs of a core's access. -/
def State.walkFor (s : State) (ctx : Nat) (core : Option Nat) (va : Word) (acc : Access) : XRes :=
  match s.walk ctx va with
  | .absent => .absent
  | .stop code level _ e => .fault ⟨va, acc == .write, code, level, e⟩
  | .leaf pa e level =>
    if leafFault e acc ≠ 0 then .fault ⟨va, acc == .write, leafFault e acc, level, e⟩
    else if leafHome e = 0 ∧ Config.devBytes < leafPa e + 2 ^ levelShift level then .absent
    else
      let e' := setBit (if acc == .write then setBit e 7 true else e) 8 true
      let m := if e' = e then s.mem else s.mem.put 0 pa (leBytes 8 e'.toNat)
      let m := match core with
        | some c => fillTlb m c ⟨ctx, level, va.toNat / 2 ^ levelShift level, e'⟩
        | none => m
      .ok (leafXlate e' level va) { s with mem := m }

/-- Translate in the order of R319: window table, TLBs, walk. -/
def State.translate (s : State) (ctx : Nat) (ws : List Window) (core : Option Nat) (va : Word) (acc : Access) : XRes :=
  match findWindow ws va with
  | some w =>
    if acc == .write && !w.attr.getLsbD 1 then .fault ⟨va, true, 3, 0, 0⟩
    else
      let home := b2n (w.attr.getLsbD 5)
      let pa := w.pa + va.toNat % 2 ^ w.log2
      if home = 0 ∧ Config.devBytes ≤ pa then .absent
      else .ok ⟨home, pa, w.attr.toNat / 8 % 4, false, 0⟩ s
  | none =>
    if movingAt s.mem ctx va then .moving
    else match core with
      | none => s.walkFor ctx none va acc
      | some c =>
        match tlbFind s.mem c ctx va with
        | some t => if tlbServes t.leaf acc then .ok (leafXlate t.leaf t.level va) s else s.walkFor ctx core va acc
        | none => s.walkFor ctx core va acc

/-! ### Records in a context's rings (R388) -/

/-- Put a record in line for the trap ring (false) or the handler ring (true). -/
def State.pushRecord (s : State) (ctx : Nat) (handler : Bool) (r : List Byte) : State :=
  s.setCtx ctx fun c => { c with held := c.held ++ [(handler, r)] }

/-- An error-frame record (R358): index, STATUS, argument, source. -/
def errorRecord (ns idx status arg src : Nat) : List Byte :=
  leBytes 8 ns ++ leBytes 4 idx ++ leBytes 2 status ++ leBytes 2 0 ++ leBytes 8 arg ++ leBytes 4 src ++ leBytes 4 0

def State.postError (s : State) (ctx idx status arg src : Nat) : State :=
  s.pushRecord ctx true (errorRecord s.ns idx status arg src)

/-- Source field when no queue or stream is concerned (R358). -/
def noSource : Nat := 0xFFFFFFFF

/-! ### Page requests (R322, R323) -/

def pageOf (va : Word) : Nat := va.toNat / 65536 * 65536

def Mem.request? (m : Mem) (ctx : Nat) (va : Word) : Option PageReq :=
  m.reqs.find? fun r => r.ctx == ctx && r.va.toNat == pageOf va

/-- The frame, with its level, that a page shares with others: a COW leaf of device memory. -/
def State.sharedFrame (s : State) (ctx : Nat) (va : Word) : Option (Nat × Nat) :=
  match s.walk ctx va with
  | .leaf _ e level => if leafCow e && leafHome e == 0 then some (leafPa e, level) else none
  | _ => none

/-- Post a page request, or join the one outstanding; none when 4,096 are outstanding (R322). `core` is the core
whose cluster walker met the fault. -/
def State.requestPage (s : State) (ctx : Nat) (va : Word) (code acc : Nat) (core : Option Nat) : Option (BitVec 32) × State :=
  match s.mem.request? ctx va with
  | some r => (some r.rqid, s)
  | none =>
    if Config.pageRequests ≤ s.mem.reqs.length then (none, s)
    else
      let id := s.mem.rqNext
      let r : PageReq := ⟨id, ctx, BitVec.ofNat 64 (pageOf va), code, acc, s.ns, if code = 4 then s.sharedFrame ctx va else none⟩
      let s := { s with mem := { s.mem with reqs := s.mem.reqs ++ [r], rqNext := id + 1 } }
      let s := s.pushRecord ctx true (leBytes 8 (pageOf va) ++ leBytes 4 id.toNat ++ leBytes 2 ctx ++ leBytes 1 code ++
        leBytes 1 acc ++ leBytes 8 s.ns ++ leBytes 8 0)
      (some id, match core with
        | some c => s.emitUnit c 4 0xA01 (some ctx) (BitVec.ofNat 32 id.toNat) (BitVec.ofNat 64 (pageOf va))
        | none => s)

/-! ### Requests to atomic engines and to peers (R290, R403) -/

/-- The engine that serves an address: that of its cluster on its die, or the hub. -/
def atomEngine (home pa : Nat) : Nat := if home = 1 then 64 else dieOf pa * 16 + pa / 64 % 16

/-- Put a request in line at its engine. -/
def State.queueAtom (s : State) (r : AtomReq) : State :=
  State.postOnce { s with mem := { s.mem with atoms := s.mem.atoms ++ [r] } } .atomicEngineServe r.eng

/-- Rank and offset in the peer's aperture of a peer-homed address (R317). -/
def peerRank (pa : Nat) : Nat := pa / 2 ^ 40
def peerOffset (pa : Nat) : Word := BitVec.ofNat 64 (pa % 2 ^ 40)

/-- OPA of an atomic of n bytes (R403); OP 10 is CAS. -/
def linkOp (op n : Nat) : Nat := (if op = 10 then 32 else op) + 16 * (n / 8)

/-- Put a request to a peer on its way; the link engine sends it (assumption log 10). -/
def State.askPeer (s : State) (r : Remote) : State :=
  let tag := s.net.tagN.toNat
  let s := { s with net := { s.net with tagN := s.net.tagN + 1, remote := s.net.remote ++ [{ r with tag }] } }
  s.post .remoteRefusalRetry tag

/-- Whether a request already on its way is the same access. -/
def Remote.same (r q : Remote) : Bool :=
  q.key == r.key && q.opk == r.opk && q.rank == r.rank && q.rva == r.rva && q.n == r.n && q.opa == r.opa && q.wait && r.wait

/-- Cut n bytes at a remote address into requests of at most 1,216 bytes, none of which ends inside a block but the last
(R403): offsets and lengths. -/
def cutRequest (rva off n : Nat) : Nat → List (Nat × Nat)
  | 0 => []
  | fuel + 1 =>
    let k := min n (1216 - rva % 64)
    if n = 0 then [] else (off, k) :: cutRequest (rva + k) (off + k) (n - k) fuel

def requestsOf (rva n : Nat) : List (Nat × Nat) := cutRequest rva 0 n (n / 1152 + 2)

/-- Who a hub agent's requests come from, by the source field of its error records. -/
def agentKey (src : Nat) : Nat := 2 ^ 43 + src

/-- A hub agent's request to the peer of a peer-homed address. -/
def agentRequest (ctx ns src : Nat) (va : Word) (pa opk n : Nat) (bytes : List Byte) (item : Post) : Remote :=
  { paths := 0, opc := 0, va, tag := 0, key := agentKey src, ctx, rank := peerRank pa, opk, opa := 0, fmt := 0,
    rva := peerOffset pa, n, bytes, opd := 0, opd2 := 0, wait := false, ans := none, old := 0, status := 0, port := none,
    sentAt := none, due := ns, since := ns, who := some item }

/-! ### Hub agents' accesses (R468) -/

/-- Hold limit of a context in ns (R307, R386). -/
def Context.holdNs (c : Context) : Nat := (if c.record.hold = 0 then 10000 else c.record.hold) * 1000

inductive AgentRes (α : Type) where
  | ok (a : α) (s : State)
  | drop (s : State)
  | wait (s : State)

/-- The wait that a unit step has on a page. -/
def AgentWait.is (w : AgentWait) (ctx : Nat) (va : Word) (item : Post) : Bool :=
  w.ctx == ctx && w.va == pageOf va && w.item == item

/-- Reads whose failure R345 and R361 decide: no AGENTFAULT record, no hold limit. -/
def What.own (w : What) : Bool :=
  match w with
  | .queueParse | .queueReread | .queueDispatch | .fencePacketTest => true
  | _ => false

/-- The ACC field of a request (R322): write, text load. -/
def accBits (acc : Access) : Nat := match acc with | .read => 0 | .write => 1 | .text => 2

/-- Translate for an agent. A fault posts a request and the step `item` is taken up again when it is answered; a
permission fault, or an answer that refuses, drops the access. An address where no memory is counts as dropped. -/
def State.agentXlate (s : State) (ctx : Nat) (va : Word) (wr : Bool) (src : Nat) (item : Post)
    (acc : Access := if wr then .write else .read) : AgentRes Xlate :=
  let mine := s.mem.waits.find? fun w => w.is ctx va item
  let others := s.mem.waits.filter fun w => !w.is ctx va item
  let clear := fun (s : State) => { s with mem := { s.mem with waits := others } }
  let report := fun (s : State) => if item.what.own || item.what == .ring then clear s else (clear s).postError ctx 0 0x105 va.toNat src
  if (mine.map AgentWait.drop).getD false then .drop (clear s)
  else if !canonical va then .drop (report s)
  else match s.translate ctx [] none va acc with
    | .ok x t => .ok x (clear t)
    | .absent => .drop (clear s)
    | .moving => .wait (s.repost item)
    | .fault f =>
      if f.code = 3 then .drop (report s)
      else match mine with
        | some _ => .wait s
        | none =>
          let r := s.requestPage ctx va f.code (accBits acc) none
          match r.1 with
          | none => .wait (r.2.repost item)
          | some id =>
            let w : AgentWait := ⟨ctx, pageOf va, va, id, s.ns, BitVec.ofNat 32 src, item, false⟩
            let t := { r.2 with mem := { r.2.mem with waits := r.2.mem.waits ++ [w] } }
            .wait (if item.what.own then t else t.postOnce .hubAgentHoldLimit id.toNat)

/-- The requests by which an agent reads n bytes from a peer. -/
def agentAsks (ctx ns src : Nat) (va : Word) (pa n : Nat) (item : Post) : List Remote :=
  (requestsOf pa n).map fun p => { agentRequest ctx ns src (va + BitVec.ofNat 64 p.1) (pa + p.1) 2 p.2 [] item with wait := true }

/-- Read n bytes from a peer: the agent's step is taken up again with each answer (R345); a read that the peer does not
perform is dropped. -/
def State.agentAsk (s : State) (rs : List Remote) : AgentRes (List Byte) :=
  let found := fun (r : Remote) => s.net.remote.find? fun q => q.who == r.who && q.same r
  let s' := rs.foldl (fun (s : State) r => if (found r).isSome then s else s.askPeer r) s
  let got := rs.filterMap found
  if got.any fun q => q.ans.isSome && q.status != 0 then .drop s
  else if got.length = rs.length ∧ (got.all fun q => q.ans.isSome) then
    .ok ((rs.zip got).map fun p => (p.2.ans.getD []).take p.1.n).flatten s
  else .wait s'

/-- Read n bytes inside one page. -/
def State.agentRead (s : State) (ctx : Nat) (va : Word) (n src : Nat) (item : Post) (acc : Access := .read) :
    AgentRes (List Byte) :=
  match s.agentXlate ctx va false src item acc with
  | .ok x t => if x.home = 2 then t.agentAsk (agentAsks ctx t.ns src va x.pa n item) else .ok (t.mem.bytes x.home x.pa n) t
  | .drop t => .drop t
  | .wait t => .wait t

def State.agentWrite (s : State) (ctx : Nat) (va : Word) (b : List Byte) (src : Nat) (item : Post) : AgentRes Unit :=
  match s.agentXlate ctx va true src item with
  | .ok x t => .ok () (if x.home = 2 then t.askPeer (agentRequest ctx t.ns src va x.pa 0 b.length b item)
      else { t with mem := t.mem.put x.home x.pa b })
  | .drop t => .drop t
  | .wait t => .wait t

/-- Add to a counter in memory, as an atomic add of 8 bytes at its home engine (R290, R382), as part of an owner's work. -/
def State.agentAdd (s : State) (owner ctx : Nat) (va add : Word) (src : Nat) (item : Post) : AgentRes Unit :=
  match s.agentXlate ctx va true src item with
  | .ok x t =>
    .ok () (if x.home = 2 then t.askPeer { agentRequest ctx t.ns src va x.pa 4 8 [] item with opa := linkOp 0 8, opd := add }
      else t.queueAtom
        { eng := atomEngine x.home x.pa, since := t.clock, key := agentKey src, tag := 0, chip := 0, owner, core := none, ctx, kern := 65536,
          op := 0, size := 8, home := x.home, pa := x.pa, opd := add, new := 0, post := true, old := none })
  | .drop t => .drop t
  | .wait t => .wait t

/-- Mark an agent's wait as refused: the access is dropped, an AGENTFAULT record names it, and its step goes on. -/
def State.dropWait (s : State) (w : AgentWait) : State :=
  let s := { s with mem := { s.mem with waits := s.mem.waits.map fun v => if v = w then { v with drop := true } else v } }
  let s := if w.item.what.own || w.item.what == .ring then s else s.postError w.ctx 0 0x105 w.first.toNat w.src.toNat
  s.repost w.item

/-! ### Writing the rings -/

/-- The step that a ring's record waits with. -/
def ringItem (ctx : Nat) (handler : Bool) : Post := ⟨.ring, ctx, b2n handler⟩

/-- Write the oldest record in line of one ring: fuel bounds how many. -/
def State.flushRing (ctx : Nat) (handler : Bool) : Nat → State → State
  | 0, s => s
  | fuel + 1, s =>
    let c := s.ctxOf ctx
    match c.held.find? fun h => h.1 == handler with
    | none => s
    | some r =>
      let log2 := if handler then c.record.hqlog2 else c.record.tqlog2
      let prod := if handler then c.hprod else c.tprod
      let cons := if handler then c.hcons else c.tcons
      let va := (if handler then c.record.handq else c.record.trapq) +
        BitVec.ofNat 64 ((if handler then 32 else 64) * (prod.toNat % 2 ^ log2))
      let gone := fun (s : State) => s.setCtx ctx fun c => { c with held := c.held.erase r }
      if 2 ^ log2 ≤ (prod - cons).toNat then s
      else match s.agentWrite ctx va r.2 noSource (ringItem ctx handler) with
        | .wait t => t
        | .drop t => flushRing ctx handler fuel (gone t).ignored
        | .ok _ t =>
          let t := (gone t).setCtx ctx fun c =>
            if handler then { c with hprod := c.hprod + 1 } else { c with tprod := c.tprod + 1 }
          flushRing ctx handler fuel (t.msix c.fn c.vec.toNat)

/-- Every ring that has records in line. -/
def State.flushRings (s : State) : State :=
  s.ctl.ctxs.foldl (fun s e =>
    if e.2.held.isEmpty then s
    else State.flushRing e.1 true e.2.held.length (State.flushRing e.1 false e.2.held.length s)) s

/-! ### Frames and pools (R329, R330, R396) -/

def frameCount (m : Mem) (pa : Nat) : Nat := (SMap.getD m.frames (pa / 65536) 0).toNat

def Mem.setCount (m : Mem) (pa n : Nat) : Mem :=
  { m with frames := if n = 0 then SMap.del m.frames (pa / 65536) else SMap.set m.frames (pa / 65536) (BitVec.ofNat 16 n) }

/-- Count a sharer more, up to 65,535, where the count sticks: the frame is then noted for its context (R330). -/
def Mem.share (m : Mem) (ctx pa level : Nat) : Mem :=
  let n := frameCount m pa
  if n = 65535 then m
  else
    let m := m.setCount pa (n + 1)
    if n = 65534 then { m with full := m.full ++ [(ctx, pa, level)] } else m

/-- A pool entry (R396). -/
def poolEntry (pa size : Nat) : Nat := pa / 65536 % 2 ^ 36 + size * 2 ^ 36

def poolKey (ctx pool : Nat) : Nat := ctx * 8 + pool

/-- The pool a frame goes to: its die, or 4 for host memory. -/
def poolOf (home pa : Nat) : Nat := if home = 1 then 4 else dieOf pa

/-- The device's copy of the pool in memory follows the stack; a page that does not translate keeps its old bytes. -/
def State.writePool (s : State) (ctx pool : Nat) : State :=
  let r := (s.ctxOf ctx).record
  let l := SMap.getD s.mem.pools (poolKey ctx pool) []
  match l with
  | [] => s
  | e :: rest =>
    let va := r.poolva + BitVec.ofNat 64 (8 * 2 ^ r.poollog2 * pool + 8 * rest.length)
    match s.translate ctx [] none va .write with
    | .ok x t => if x.home = 2 then t.askPeer (agentRequest ctx s.ns noSource va x.pa 0 8 (leBytes 8 e) ⟨.ring, ctx, 0⟩)
      else { t with mem := t.mem.put x.home x.pa (leBytes 8 e) }
    | _ => s

/-- Push a frame onto its pool, or report it (R396). -/
def State.returnFrame (s : State) (ctx home pa size : Nat) : State :=
  let r := (s.ctxOf ctx).record
  let k := poolKey ctx (poolOf home pa)
  let l := SMap.getD s.mem.pools k []
  if home = 2 then s
  else if r.poollog2 = 0 ∨ 2 ^ r.poollog2 ≤ l.length then s.postError ctx 0 0x104 pa noSource
  else State.writePool { s with mem := { s.mem with pools := SMap.set s.mem.pools k (poolEntry pa size :: l) } } ctx (poolOf home pa)

/-- Drop one sharer of a frame; at 0 it returns to its pool (R329, R330). -/
def State.unshare (s : State) (ctx home pa size : Nat) : State :=
  if home = 1 then s.returnFrame ctx home pa size
  else if home = 2 then s
  else
    let n := frameCount s.mem pa
    if n = 65535 then s
    else if n ≤ 1 then State.returnFrame { s with mem := s.mem.setCount pa 0 } ctx home pa size
    else { s with mem := s.mem.setCount pa (n - 1) }

/-- Take the entry nearest the top of a pool with the page's size. -/
def State.takeFrame (s : State) (ctx pool size : Nat) : Option (Nat × State) :=
  let k := poolKey ctx pool
  let l := SMap.getD s.mem.pools k []
  match l.find? fun e => e / 2 ^ 36 == size with
  | none => none
  | some e => some (e % 2 ^ 36 * 65536, { s with mem := { s.mem with pools := SMap.set s.mem.pools k (l.erase e) } })

/-! ### The leaf slot of a page -/

/-- What stands at a page's place in the tables: the entry of its level; a path that ends above it; anything else. -/
inductive PageSlot where
  | entry (pa : Nat) (e : Word)
  | noPath (level : Nat) (e : Word)
  | other
  deriving DecidableEq, Repr

/-- Go down from the table of level l − 1 to the entry of level `size`. -/
def slotAt (m : Mem) (va size : Nat) : Nat → Nat → PageSlot
  | 0, _ => .other
  | l + 1, table =>
    let pa := table + 8 * (va / 2 ^ levelShift l % (if l = 0 then 32 else 512))
    if Config.devBytes ≤ pa then .other
    else
      let e := m.word pa
      if l = size then (if leafV e && !e.getLsbD 63 then .other else .entry pa e)
      else if !leafV e then .noPath l e
      else if e.getLsbD 63 then .other
      else slotAt m va size l (e.toNat / 4096 * 4096)

/-- Whether an atomic in line or a request to a peer uses a page's frame. -/
def Mem.inUse (m : Mem) (net : Net) (ctx : Nat) (va : Word) (home pa n : Nat) : Bool :=
  (m.atoms.any fun r => r.old.isNone && r.home == home && overlaps pa n r.pa r.size) ||
    (net.remote.any fun r => r.ctx == ctx && r.ans.isNone && decide (va.toNat ≤ r.va.toNat) && decide (r.va.toNat < va.toNat + n))

/-! ### Invalidation (R334) -/

/-- Drop the translations of a context for n 64 KiB ranges from va (n = 0: all of them). -/
def Mem.invalidate (m : Mem) (ctx va n : Nat) : Mem :=
  let keep := fun (t : TlbEnt) =>
    let lo := t.va * 2 ^ levelShift t.level
    !(t.ctx == ctx && (n == 0 || overlaps lo (2 ^ levelShift t.level) va (n * 65536)))
  let f := fun (tab : SMap (List TlbEnt)) => tab.map fun e => (e.1, e.2.filter keep)
  { m with coreTlb := f m.coreTlb, walkTlb := f m.walkTlb }

end Sys2Proof.Machine
end

