-- ==== Sys2Proof/Machine/Path.lean ====
section
/-! DEFINITION. A strand's accesses to memory: the action monad in which an instruction or operation works, the phase
store buffer (R279, R301), the values of atomics (R294), requests to peers (R290) and loads (R154, R155). -/

namespace Sys2Proof.Machine

/-- Why an action does not complete. -/
inductive Stop where
  /-- Trap(code) with its arguments (R79) -/
  | trap (code : Nat) (args : List Word)
  /-- it cannot go on in this period; the reason code of R132, 0 when the wait is no block -/
  | wait (why : Nat) (s : State)
  /-- a translation fault (R318, codes 1, 2, 4, 5) -/
  | fault (f : TFault) (s : State)
  /-- a consumed uncorrectable error (R314): storage and VA -/
  | uncorr (st : Store) (va : Word) (s : State)
  /-- an access that a peer did not perform within the hold limit (R416): its VA, the time spent in µs -/
  | lost (va : Word) (us : Nat)
  /-- a device address where no memory is -/
  | absent

/-- What an action gives. -/
inductive Res (α : Type) where
  | ok (a : α) (s : State)
  | stop (r : Stop)

/-- An action on the machine. -/
abbrev Act (α : Type) : Type := State → Res α

def Act.pure {α : Type} (a : α) : Act α := fun s => .ok a s

def Act.bind {α β : Type} (x : Act α) (f : α → Act β) : Act β := fun s =>
  match x s with
  | .ok a t => f a t
  | .stop r => .stop r

/-- One action after another. -/
def Act.andThen {α β : Type} (x : Act α) (y : Act β) : Act β := x.bind fun _ => y

def Act.get : Act State := fun s => .ok s s
def Act.modify (f : State → State) : Act Unit := fun s => .ok () (f s)
def Act.trap {α : Type} (code : Nat) (args : List Word) : Act α := fun _ => .stop (.trap code args)
def Act.wait {α : Type} (why : Nat) : Act α := fun s => .stop (.wait why s)

/-- Trap when a check fails. -/
def Act.check (ok : Bool) (code : Nat) (args : List Word) : Act Unit :=
  if ok then Act.pure () else Act.trap code args

/-- Wait unless a condition holds. -/
def Act.until (ok : Bool) (why : Nat) : Act Unit := if ok then Act.pure () else Act.wait why

/-- An action for each element, in order. -/
def Act.each {α : Type} (f : α → Act Unit) : List α → Act Unit
  | [] => Act.pure ()
  | x :: xs => (f x).andThen (Act.each f xs)

def Act.map {α β : Type} (f : α → Act β) : List α → Act (List β)
  | [] => Act.pure []
  | x :: xs => (f x).bind fun y => (Act.map f xs).bind fun ys => Act.pure (y :: ys)

/-! ### Trap codes (R81) -/

def tILLEGAL : Nat := 0x01
def tPRIV : Nat := 0x02
def tALIGN : Nat := 0x03
def tPAGE : Nat := 0x04
def tPROTECT : Nat := 0x05
def tCHANNEL : Nat := 0x06
def tDEADLOCK : Nat := 0x07
def tWINDOW : Nat := 0x08
def tEXHAUST : Nat := 0x09
def tTAGCONFLICT : Nat := 0x0B
def tSLOT : Nat := 0x0C
def tNEST : Nat := 0x0D
def tSHAPE : Nat := 0x0E
def tRAGGED : Nat := 0x0F
def tHANDLE : Nat := 0x10
def tRANGE : Nat := 0x11
def tUNCORR : Nat := 0x12
def tVOTE : Nat := 0x13
def tREPLAY : Nat := 0x14
def tTIMEOUT : Nat := 0x15
def tSWTRAP : Nat := 0x16
def tBREAK : Nat := 0x17
def tATOMIC : Nat := 0x18
def tCOLLECTIVE : Nat := 0x19
def tSTREAM : Nat := 0x1A

def w64 (n : Nat) : Word := BitVec.ofNat 64 n

/-! ### Translation by the strand at the front -/

/-- Arguments of PAGE and PROTECT (R324). -/
def faultArgs (f : TFault) (rqid : Option (BitVec 32)) : List Word :=
  [f.va, w64 (f.code + 256 * b2n f.wr + 512 * f.level), f.entry,
   match rqid with | some r => w64 r.toNat | none => 0]

/-- Device pages reach memory; a peer's page has rank and offset in its address. -/
def xlate (va : Word) (acc : Access) : Act Xlate := fun s =>
  match s.translate s.cur.sys.ctx.toNat s.cur.wins (some (keyCore s.cur.key)) va acc with
  | .ok x t => .ok x t
  | .fault f => .stop (if f.code = 3 then .trap tPROTECT (faultArgs f none) else .fault f s)
  | .moving => .stop (.wait 0 s)
  | .absent => .stop .absent

/-- The address checks of R154: alignment, then canonical form. -/
def checkAddr (va : Word) (size : Nat) (wr : Bool) : Act Unit :=
  (Act.check (va.toNat % size == 0) tALIGN []).andThen
    (Act.check (canonical va) tPROTECT [va, w64 (256 * b2n wr)])

/-! ### The phase store buffer (R301) -/

def BufKind.isData : BufKind → Bool
  | .data .. => true | _ => false

/-- A store that later plain stores may pass: no ordered entry, no STRL, no SO page. -/
def BufEntry.plain (e : BufEntry) : Bool :=
  match e.kind with
  | .data _ _ strl => !strl && e.ord != 0
  | .tag .. => true
  | _ => false

/-- A store to one block: the path it takes, offsets and bytes, the block's descriptor if it writes one, whether it is an
STRL. -/
structure BlockStore where
  path  : Nat
  va    : Word
  home  : Nat
  pa    : Nat
  ord   : Nat
  bytes : SMap Byte
  desc  : Option W16
  strl  : Bool
  deriving DecidableEq, Repr

/-- The bit of a path in a PATHS field (R68). -/
def pathBit (n : Nat) : BitVec 8 := BitVec.ofNat 8 (2 ^ n)

def BlockStore.same (b : BlockStore) (e : BufEntry) : Bool := e.home == b.home && e.pa == b.pa && e.kind.isData

def BlockStore.merge (b : BlockStore) (e : BufEntry) : BufEntry :=
  match e.kind with
  | .data old d strl =>
    { e with paths := e.paths ||| pathBit b.path, kind := .data (b.bytes.foldl (fun m c => SMap.set m c.1 c.2) old) (b.desc.or d) (strl || b.strl) }
  | _ => e

def BlockStore.entry (b : BlockStore) : BufEntry :=
  ⟨b.va, b.home, b.pa, b.ord, pathBit b.path, .data b.bytes b.desc b.strl⟩

/-- Merge into the entry for the block among the plain entries at the newest end; newest first. -/
def mergePlain (b : BlockStore) : List BufEntry → Option (List BufEntry)
  | [] => none
  | e :: es =>
    if !e.plain then none
    else if b.same e then some (b.merge e :: es)
    else (mergePlain b es).map fun r => e :: r

/-- Enter a store: none when it needs an entry and all are in use. -/
def bufStore (buf : List BufEntry) (b : BlockStore) : Option (List BufEntry) :=
  let rev := buf.reverse
  let merged :=
    if b.strl || b.ord == 0 then
      (match rev with | e :: es => if b.same e then some (b.merge e :: es) else none | [] => none)
    else mergePlain b rev
  match merged with
  | some r => some r.reverse
  | none => if buf.length < Config.bufEntries then some (buf ++ [b.entry]) else none

/-- The byte that the buffer holds for an address, the newest first. -/
def bufByte (buf : List BufEntry) (home pa : Nat) : Option Byte :=
  buf.reverse.findSome? fun e =>
    match e.kind with
    | .data bytes _ _ => if e.home = home ∧ e.pa = pa / 64 * 64 then SMap.get? bytes (pa % 64) else none
    | _ => none

def bufDesc (buf : List BufEntry) (pa : Nat) : Option W16 :=
  buf.reverse.findSome? fun e =>
    match e.kind with
    | .data _ d _ => if e.home = 0 ∧ e.pa = pa / 64 * 64 then d else none
    | _ => none

/-! ### Atomics (R294) -/

/-- The new value of an atomic of n bytes: OP code, 10 being CAS with `new` as the new value. -/
def atomicValue (op n : Nat) (old b new : Word) : Word :=
  let w := 8 * n
  let o := old.toNat % 2 ^ w
  let v := b.toNat % 2 ^ w
  let r : Nat :=
    match op with
    | 0 => o + v
    | 1 => if toSigned w o ≤ toSigned w v then o else v
    | 2 => if toSigned w o ≤ toSigned w v then v else o
    | 3 => if o ≤ v then o else v
    | 4 => if o ≤ v then v else o
    | 5 => o &&& v
    | 6 => o ||| v
    | 7 => o ^^^ v
    | 8 => v
    | 9 => rnF32 (Val.add 0 (exact .f32 o) (exact .f32 v))
    | _ => if o = v then new.toNat else o
  w64 (r % 2 ^ w)

/-- FP events of an FADD (R57): counted in the F32 group. -/
def atomicEvents (op : Nat) (old b : Word) : Events :=
  if op = 9 then
    let x := exact .f32 (old.toNat % 2 ^ 32)
    let y := exact .f32 (b.toNat % 2 ^ 32)
    eventsOf .f32 (roundE (Val.add 0 x y) .f32 0) (x.isNan || y.isNan) (!x.isFin || !y.isFin)
  else ⟨false, false, false, false⟩

/-- Perform an atomic on memory: the old value. -/
def Mem.atomic (m : Mem) (home pa op n : Nat) (b new : Word) : Word × Mem :=
  let old := w64 (leNat (m.bytes home pa n))
  (old, m.put home pa (leBytes n (atomicValue op n old b new).toNat))

/-- Count the four events of one result element. -/
def State.countEvents (s : State) (die ctx kern group : Nat) (e : Events) : State :=
  (((s.fpCount die ctx kern (4 * group) (b2n e.nan)).fpCount die ctx kern (4 * group + 1) (b2n e.inf)).fpCount die ctx kern
    (4 * group + 2) (b2n e.ovf)).fpCount die ctx kern (4 * group + 3) (b2n e.unf)

def State.curDie (s : State) : Nat := coreDie (keyCore s.cur.key)
def State.curCore (s : State) : Nat := keyCore s.cur.key

def State.fpCur (s : State) (group : Nat) (e : Events) : State :=
  s.countEvents s.curDie s.cur.sys.ctx.toNat s.cur.kern group e

/-! ### Accesses to peers (R290, R409) -/

def State.peerRequest (s : State) (opk : Nat) (pa n : Nat) (bytes : List Byte) (paths : BitVec 8 := 0) (opc : Nat := 0)
    (va : Word := 0) : Remote :=
  { paths, opc, va, tag := 0, key := s.cur.key, ctx := s.cur.sys.ctx.toNat, rank := peerRank pa, opk, opa := 0, fmt := 0,
    rva := peerOffset pa, n, bytes, opd := 0, opd2 := 0, wait := opk == 2, ans := none, old := 0, status := 0, port := none,
    sentAt := none, due := s.ns, since := s.ns }

/-- Time since a request was made, in µs. -/
def State.spentUs (s : State) (q : Remote) : Nat := (s.ns - q.since) / 1000

/-- Whether a request to a peer may write there. -/
def Remote.writes (q : Remote) : Bool := q.opk != 2

/-- What a failed answer raises: PROTECT when rejected, TIMEOUT when it found no route or was refused beyond the hold
limit (R416). -/
def peerTrap {α : Type} (q : Remote) (va : Word) : Act α := fun s =>
  .stop (if q.status = 4 then .trap tPROTECT [va, w64 (256 * b2n q.writes), 0, 0] else .lost va (s.spentUs q))

/-- Arguments of a TIMEOUT (R309). -/
def Strand.timeoutArgs (t : Strand) (va : Word) (opc us : Nat) : List Word :=
  [va, w64 opc, w64 us, t.sys.phasen.setWidth 64]

/-- The trap that a failed request raises after its instruction has left its engine (R416). -/
def State.sendTrap (s : State) (t : Strand) (q : Remote) (status : Nat) : Nat × List Word :=
  if status = 4 then (tPROTECT, [q.va, w64 (256 * b2n q.writes), 0, 0])
  else (tTIMEOUT, t.timeoutArgs q.va q.opc (s.spentUs q))

/-- A trap taken at an engine's next instruction boundary; the first one stays. -/
def Strand.lateTrap (t : Strand) (g : Eng) (code : Nat) (args : List Word) : Strand :=
  t.setEngine g fun e =>
    { e with late := e.late.or (some ⟨code, args.getD 0 0, args.getD 1 0, args.getD 2 0, args.getD 3 0⟩) }

/-- Whether the core of the strand at the front may make another memory request (R20); a local access is over when it is
made. -/
def State.requestRoom (s : State) : Bool :=
  let core := s.curCore
  decide ((s.net.remote.filter fun q => q.ans.isNone && q.key < 2 ^ 24 && keyCore q.key == core).length +
    (s.mem.atoms.filter fun r => r.old.isNone && r.core == some core).length < Config.coreRequests)

/-- Wait for room for a request (R20). -/
def requestFree : Act Unit := Act.get.bind fun s => Act.until s.requestRoom 0

/-- Take the answer to a request of this strand, or ask and wait. -/
def peerAsk (r : Remote) (va : Word) : Act (List Byte × Word) := fun s =>
  match s.net.remote.find? r.same with
  | none => .stop (.wait 0 (if s.requestRoom then s.askPeer r else s))
  | some q =>
    match q.ans with
    | none => .stop (.wait 0 s)
    | some bytes =>
      if q.status = 0 then .ok (bytes, q.old) { s with net := { s.net with remote := s.net.remote.erase q } }
      else peerTrap q va s

/-- Ask every peer that a list of reads needs, and wait until all have answered. -/
def peerAll (rs : List Remote) : Act Unit := fun s =>
  let s := rs.foldl (fun (s : State) r => if s.net.remote.any r.same || !s.requestRoom then s else s.askPeer r) s
  if rs.all fun r => s.net.remote.any fun q => r.same q && q.ans.isSome then .ok () s else .stop (.wait 0 s)

/-- Whether a result in flight waits for the answer of a source. -/
def Strand.awaitsFrom (t : Strand) (src : Source) : Bool :=
  t.fl.any fun f => f.wb.any fun w => match w with | .await _ k .. => k == src | _ => false

/-- Answers that a trapping strand leaves behind: read answers and failed ones that no result in flight waits for are
dropped. -/
def State.dropAnswers (s : State) : State :=
  if s.net.remote.isEmpty then s
  else { s with net := { s.net with remote := s.net.remote.filter fun q =>
    !(q.key == s.cur.key && q.ans.isSome && q.wait && (q.opk == 2 || q.status != 0) && !s.cur.awaitsFrom (.peer q.tag)) } }

def State.setPhase (s : State) (f : Phase → Phase) : State := s.setCur fun t => { t with ph := f t.ph }

/-! ### Loads -/

/-- Note a read in the phase input record: distinct 64 KiB ranges, at most 256 (R304). -/
def Phase.note (p : Phase) (va : Word) : Phase :=
  let k := va.toNat / 65536
  if p.input.contains k || decide (256 ≤ p.input.length) then p else { p with input := p.input ++ [k] }

def noteRead (va : Word) : Act Unit := Act.modify fun s => s.setCur fun t => { t with ph := t.ph.note va }

/-- Bytes as the strand sees them: its buffered bytes over memory (R155). -/
def State.seen (s : State) (home pa n : Nat) : List Byte :=
  tab n fun i => match bufByte s.cur.ph.buf home (pa + i) with
    | some b => b
    | none => Memory.read (if home = 1 then s.mem.host else s.mem.dev) (pa + i)

/-- The bytes that the strand's buffer holds of a range. -/
def State.ownBytes (s : State) (home pa n : Nat) : List (Option Byte) := tab n fun i => bufByte s.cur.ph.buf home (pa + i)

/-- Bytes from a peer with those of the strand's own buffer over them (R155). -/
def overlay (own : List (Option Byte)) (b : List Byte) : List Byte := (own.zip b).map fun e => e.1.getD e.2

/-- A read corrects what is correctable in its range, writes it back and counts it (R313). -/
def State.corrected (s : State) (home pa n : Nat) : State :=
  let hit := fun (e : Nat × Nat × Nat) => e.1 == home && overlaps pa n e.2.1 e.2.2
  let k := (s.mem.soft.filter hit).length
  if k = 0 then s
  else State.countDie { s with mem := { s.mem with soft := s.mem.soft.filter fun e => !hit e } } (if home < 16 then dieOf pa else coreDie (pa / 2 ^ 32 % 256)) 0x262 none k

/-- Read n bytes at a translated address: the strand's own buffered bytes stand over what memory or the peer has (R155).
An uncorrectable error there is one of device memory (R309); a correctable one is corrected (R313). -/
def readAt (x : Xlate) (va : Word) (n : Nat) : Act (List Byte) :=
  if x.home = 2 then fun s =>
    (Act.map (fun p => (peerAsk (s.peerRequest 2 (x.pa + p.1) p.2 []) va).bind (fun r => Act.pure (r.1.take p.2)))
      (requestsOf x.pa n)).bind (fun bs => Act.pure (overlay (s.ownBytes 2 x.pa n) bs.flatten)) s
  else fun s => if s.mem.poisoned x.home x.pa n then
      .stop (.uncorr .device (va + w64 (s.mem.badAt x.home x.pa n)) s)
    else .ok (s.seen x.home x.pa n) (s.corrected x.home x.pa n)

/-- A piece of an access: where, how many bytes; it lies in one page. -/
abbrev Piece := Word × Nat

/-- Post requests for the other faulting pages of an access (R325). -/
def State.requestRest (acc : Access) (ps : List Piece) (s : State) : State :=
  ps.foldl (fun s p => match xlate p.1 acc s with
    | .stop (.fault f u) => (u.requestPage u.cur.sys.ctx.toNat f.va f.code (b2n f.wr) (some u.curCore)).2
    | _ => s) s

/-- Translate every piece: the first that faults decides (R325). -/
def xlateAll (acc : Access) : List Piece → Act (List (Xlate × Piece))
  | [] => Act.pure []
  | p :: ps => fun s =>
    match (Act.check (canonical p.1) tPROTECT [p.1, w64 (256 * b2n (acc == .write))]).andThen (xlate p.1 acc) s with
    | .ok x t => (xlateAll acc ps).bind (fun xs => Act.pure ((x, p) :: xs)) t
    | .stop (.fault f u) => .stop (.fault f (u.requestRest acc ps))
    | .stop r => .stop r

/-- Read every piece, all of them translated first; `note` says whether R304 lists the access. -/
def readPieces (ps : List Piece) (note : Bool := true) : Act (List (List Byte)) :=
  (xlateAll .read ps).bind fun xs =>
  (if note then Act.each (fun p => noteRead p.1) ps else Act.pure ()).andThen <| Act.get.bind fun s =>
  (peerAll (xs.map fun e => if e.1.home = 2 then
      (requestsOf e.1.pa e.2.2).map fun p => s.peerRequest 2 (e.1.pa + p.1) p.2 [] else []).flatten).andThen <|
  Act.map (fun e => readAt e.1 e.2.1 e.2.2) xs

/-- Cut n bytes from va into pieces that cross no multiple of `size`. -/
def pieces (size : Nat) : Nat → Nat → Nat → List Piece
  | 0, _, _ => []
  | fuel + 1, va, n =>
    if n = 0 then [] else
      let k := min n (size - va % size)
      (w64 va, k) :: pieces size fuel (va + k) (n - k)

/-- Pieces of a range by 64 KiB pages. -/
def pagePieces (va : Word) (n : Nat) : List Piece := pieces 65536 (n / 65536 + 2) va.toNat n

/-- Load n bytes of any length. -/
def loadBytes (va : Word) (n : Nat) (note : Bool := true) : Act (List Byte) :=
  (readPieces (pagePieces va n) note).bind fun bs => Act.pure bs.flatten

/-- Load several ranges at once. -/
def loadRanges (rs : List Piece) : Act (List (List Byte)) :=
  let cut := rs.map fun r => pagePieces r.1 r.2
  (readPieces cut.flatten).bind fun bs =>
    Act.pure ((cut.foldl (fun (acc : List (List Byte) × List (List Byte)) ps =>
      (acc.1 ++ [(acc.2.take ps.length).flatten], acc.2.drop ps.length)) ([], bs)).1)

/-- Load n bytes that lie in one page, from an address already checked. -/
def loadOne (va : Word) (n : Nat) (note : Bool := true) : Act (List Byte) :=
  (xlate va .read).bind fun x => (if note then noteRead va else Act.pure ()).andThen (readAt x va n)

/-- A load of n bytes into register d that leaves its engine at once: the value, or where it comes from when the page is a
peer's (R121); opc is the load's opcode. -/
def loadLate (opc : Nat) (d : BitVec 5) (va : Word) (n : Nat) (value : List Byte → Word) (signed : Bool) : Act Wb :=
  (xlate va .read).bind fun x => (noteRead va).andThen <|
  if x.home = 2 then requestFree.andThen fun s =>
    let r := s.peerRequest 2 x.pa n [] 0 opc va
    .ok (.await d (.peer s.net.tagN.toNat) va (s.ownBytes 2 x.pa n) signed) (s.askPeer r)
  else (readAt x va n).bind fun b => Act.pure (.reg d (value b))

def loadNat (va : Word) (n : Nat) (note : Bool := true) : Act Nat := (loadOne va n note).bind fun b => Act.pure (leNat b)

/-- Descriptor of the block at a translated address (R332); buffered descriptors first. -/
def State.descAt (s : State) (pa : Nat) : W16 :=
  match bufDesc s.cur.ph.buf pa with
  | some d => d
  | none => BitVec.ofNat 16 (leNat (s.mem.bytes 0 (descAddr pa) 2))

end Sys2Proof.Machine
end

