-- ==== Sys2Proof/Machine/Ops.lean ====
section
/-! DEFINITION. The strand's shared operations: registers and channels (R71, R72, R107 to R110), ring tokens (R102 to
R106), results in flight (R104, R118 to R124), walking the text (R98 to R101, R115 to R117), taking a trap and
returning from its handler (R127 to R131), holds and cancels (R303, R307), and the issue of an instruction. -/

namespace Sys2Proof.Machine

/-! ### Registers -/

/-- A scalar register; a0 reads zero (R72). -/
def Strand.reg (t : Strand) (g : Eng) (n : BitVec 5) : Word :=
  if g = .a ∧ n = 0 then 0 else (t.regs.get g).getD n.toNat 0

/-- Write a scalar register; a write to a0 is discarded (R72). -/
def Strand.setReg (t : Strand) (g : Eng) (n : BitVec 5) (v : Word) : Strand :=
  if g = .a ∧ n = 0 then t else { t with regs := t.regs.set g ((t.regs.get g).set n.toNat v) }

/-- Predicate n; p0 reads all ones (R72). -/
def XUnit.pred (x : XUnit) (n : Nat) : BitVec 1024 := if n = 0 then BitVec.allOnes 1024 else x.p.getD n 0

def XUnit.vec (x : XUnit) (n : Nat) : List W32 := x.v.getD n []

/-- Lane-wise choice: the new value where the mask is set. -/
def mixLanes (mask : BitVec 1024) (new old : List W32) : List W32 :=
  (new.zip old).zipIdx.map fun e => if mask.getLsbD e.2 then e.1.1 else e.1.2

def mixBits (mask new old : BitVec 1024) : BitVec 1024 := (new &&& mask) ||| (old &&& ~~~mask)

/-! ### Channels and tokens -/

def Links.chan (l : Links) (n : Nat) : Fifo Word := l.chans.getD n .empty

def Links.setChan (l : Links) (n : Nat) (f : Fifo Word → Fifo Word) : Links := { l with chans := upd l.chans n f }

/-- Room for a push in this period (R108). -/
def Fifo.room {α : Type} (f : Fifo α) : Bool := decide (f.start + f.add.length < 8)

def Fifo.push {α : Type} (f : Fifo α) (v : α) : Fifo α := { f with add := f.add ++ [v] }

/-- Room for a token in this period (R106). -/
def Token.room (t : Token) : Bool := decide (t.start + t.add < 15)

def Token.post (t : Token) : Token := { t with add := t.add + 1 }
def Token.take (t : Token) : Token := { t with now := t.now - 1 }

/-- Whether both signals of an instruction of g can be posted (R104, R106). -/
def Links.canSignal (l : Links) (g : Eng) (sp sn : Bool) : Bool :=
  (!sp || (l.sp.get g).room) && (!sn || (l.sn.get g).room)

def Links.signal (l : Links) (g : Eng) (sp sn : Bool) : Links :=
  let l := if sp then { l with sp := l.sp.set g (l.sp.get g).post } else l
  if sn then { l with sn := l.sn.set g (l.sn.get g).post } else l

/-- The reason an instruction with these waits must stall: 1 on WP, 2 on WN (R103, R132). -/
def Links.waitsOn (l : Links) (g : Eng) (r : Ring) : Option Nat :=
  if r.wp && (l.sn.get g.pred).now == 0 then some 1
  else if r.wn && (l.sp.get g.succ).now == 0 then some 2 else none

/-- Consume the tokens that an instruction waits on. -/
def Links.consume (l : Links) (g : Eng) (r : Ring) : Links :=
  let l := if r.wp then { l with sn := l.sn.set g.pred (l.sn.get g.pred).take } else l
  if r.wn then { l with sp := l.sp.set g.succ (l.sp.get g.succ).take } else l

/-- The start of the next period: posts become visible. -/
def Token.next (t : Token) : Token := let n := t.now + t.add; ⟨n, n, 0⟩
def Fifo.next {α : Type} (f : Fifo α) : Fifo α := let q := f.q ++ f.add; ⟨q, q.length, []⟩
def Links.next (l : Links) : Links :=
  ⟨l.sn.map Token.next, l.sp.map Token.next, l.chans.map Fifo.next, l.outc.map Fifo.next⟩

/-- The scalar register number as a channel. -/
def chanNo (n : BitVec 5) : Nat := n.toNat - 24

/-- Whether a producer can push to channel n no more: it waits at END and nothing of it is on its way (R110). -/
def Strand.closed (t : Strand) (n : Nat) : Bool :=
  let g := chanProducer n
  (t.engine g).arrived && (t.engine g).atEnd && (t.links.chan n).add.isEmpty &&
    !(t.fl.any fun f => f.g == g && f.wb.any fun w => match w with | .reg r _ => isChan r && chanNo r == n | _ => false)

/-- What reading the sources gives. -/
inductive Srcs where
  | ok (vs : List Word) (l : Links)
  | closed (n : Nat)
  | empty

/-- Read sources in order: a channel pops, or with its peek bit shows its head (R109). An instruction whose pops find too
few entries in a closed channel raises CHANNEL, as R110 states of an empty one (DESIGN CHOICE, assumption log 44). -/
def Strand.readSrcs (t : Strand) (g : Eng) : List (BitVec 5 × Bool) → Links → Srcs
  | [], l => .ok [] l
  | (r, pk) :: rest, l =>
    if isChan r then
      let n := chanNo r
      match (l.chan n).q with
      | [] => if t.closed n then .closed n else .empty
      | v :: q =>
        match t.readSrcs g rest (if pk then l else l.setChan n fun f => { f with q }) with
        | .ok vs l' => .ok (v :: vs) l'
        | e => e
    else
      match t.readSrcs g rest l with
      | .ok vs l' => .ok (t.reg g r :: vs) l'
      | e => e

/-! ### Results in flight -/

/-- What an instruction reads or writes, as far as pending results matter (R118). -/
inductive Name where
  | reg (n : BitVec 5)
  | vec (n : Nat)
  | pred (n : Nat)
  | sh (n : Nat)
  | ly (n : Nat)
  deriving DecidableEq, Repr

def Wb.name : Wb → Option Name
  | .reg n _ => some (.reg n) | .vec n _ _ => some (.vec n) | .pred n _ _ => some (.pred n) | .ext n _ _ => some (.sh n)
  | .shape n _ => some (.sh n) | .slot n _ => some (.ly n) | .await n _ _ _ _ => some (.reg n) | .tile .. => none

/-- Channels are ordered by their own rules. -/
def Name.isChan : Name → Bool
  | .reg n => Sys2Proof.isChan n | _ => false

/-- Whether a name has a write of engine g pending. -/
def Strand.pending (t : Strand) (g : Eng) (n : Name) : Bool :=
  !n.isChan && t.fl.any fun f => f.g == g && f.wb.any fun w => w.name == some n

/-- Whether X runs in a timed region and g is X (R112, R119). -/
def Strand.timed (t : Strand) (g : Eng) : Bool := g == .x && t.x.timed

/-- Apply one result; a push goes to its channel. -/
def Strand.write (t : Strand) (g : Eng) : Wb → Strand
  | .reg n v => if isChan n then { t with links := t.links.setChan (chanNo n) (Fifo.push · v) } else t.setReg g n v
  | .vec n mask v => { t with x := { t.x with v := upd t.x.v n (mixLanes mask v) } }
  | .pred n mask v => { t with x := { t.x with p := upd t.x.p n (mixBits mask v) } }
  | .ext n k v => { t with lates := t.lates ++ [(g, .ext n k v)] }
  | .shape n v => { t with lates := t.lates ++ [(g, .shape n v)] }
  | .slot n v => { t with lates := t.lates ++ [(g, .slot n (some v))] }
  | .tile h off b =>
    match SMap.get? t.tiles h with
    | some v => { t with tiles := SMap.set t.tiles h (v.setFront (v.front.put off b)) }
    | none => t
  | .await .. => t

/-- Room for every push of a result. -/
def Strand.canPush (t : Strand) (wb : List Wb) : Bool :=
  wb.all fun w => match w with | .reg n _ => !isChan n || (t.links.chan (chanNo n)).room | _ => true

/-- The reason a result cannot land now: 3 a full counter, 5 a full channel. -/
def Strand.landBlock (t : Strand) (f : Flight) : Option Nat :=
  if !t.links.canSignal f.g f.sp f.sn then some 3 else if !t.canPush f.wb then some 5 else none

/-- A result lands: its writes, pushes and signals. -/
def Strand.land (t : Strand) (f : Flight) : Strand :=
  let t := f.wb.foldl (fun t w => t.write f.g w) t
  { t with links := t.links.signal f.g f.sp f.sn }

/-- Whether a part of a result writes a register of its engine. -/
def Wb.own : Wb → Bool
  | .reg .. | .vec .. | .pred .. | .await .. => true
  | .ext .. | .shape .. | .slot .. | .tile .. => false

/-- Whether a result waits for data (R121, R295). -/
def Flight.awaits (f : Flight) : Bool := f.wb.any fun w => match w with | .await .. => true | _ => false

/-- Whether a result lands with X's own ticks: a register result of X in a timed region (R119). What all engines share is
written at retirement (R157, R160), and an instruction without a result retires as it issues (R104). -/
def Strand.ticks (t : Strand) (f : Flight) : Bool := t.timed f.g && f.wb.any Wb.own

/-- Place the result of an instruction with latency L (R104): at most 1, or none, retires now; while its posts or pushes must wait
nothing of it is written (R106). In a timed region a register result of X lands L of X's ticks later (R119). A push that
retires now goes in before one of an earlier, longer instruction that ends in this period (DESIGN CHOICE, assumption
log 44). -/
def Strand.deliver (t : Strand) (g : Eng) (lat : Nat) (wb : List Wb) (sp sn : Bool) : Strand :=
  let t := { t with seq := t.seq + 1 }
  let f : Flight := ⟨g, max 1 lat, wb, sp, sn, t.seq⟩
  if (1 < lat && !wb.isEmpty) || t.ticks f || f.awaits then { t with fl := t.fl ++ [f] }
  else if (t.landBlock f).isSome then { t with fl := t.fl ++ [{ f with rem := 0 }] } else t.land f

/-- Whether the flights of an engine go on in this period: X in a timed region only with its ticks (R119). -/
def Strand.advances (t : Strand) (g : Eng) : Bool := if t.timed g then t.x.adv else true

/-- One period of the results in flight, in issue order: those that end land, or stay and block their engine; one whose
data is not there stays. M's land last, so that an NDRAIN stands over a result of X (R271). -/
def Strand.flyOn (t : Strand) : Strand :=
  ((t.fl.filter fun f => f.g != .m) ++ t.fl.filter fun f => f.g == .m).foldl (fun t f =>
    let f := if t.advances f.g then { f with rem := f.rem - 1 } else f
    if f.rem ≠ 0 ∨ t.ticks f ∨ f.awaits then { t with fl := t.fl ++ [f] }
    else match t.landBlock f with
      | none => t.land f
      | some why =>
        ({ t with fl := t.fl ++ [f] }).setEngine f.g fun e => { e with blocked := true, why })
    { (Eng.list.foldl (fun t g => t.setEngine g fun e => { e with blocked := false }) t) with fl := [] }

/-- Whether a result lands at the start of X's next tick. -/
def Strand.due (t : Strand) (f : Flight) : Bool := t.ticks f && f.rem == 0

/-- The results that land at the start of X's next tick (R119, R123), in issue order; if one of them cannot, none does,
and why X is stalled: 3 a full counter, 5 a full channel (R106), 0 data that is not there (R121). -/
def Strand.landDue (t : Strand) : Strand × Option Nat :=
  let r := (t.fl.filter t.due).foldl (fun (r : Strand × Option Nat) f =>
    match r.2 with
    | some _ => r
    | none => if f.awaits then (t, some 0) else match r.1.landBlock f with
      | some why => (t, some why)
      | none => (r.1.land f, none)) ({ t with fl := t.fl.filter fun f => !t.due f }, none)
  if r.2.isSome then (t, r.2) else r

/-! ### Walking the text (R61, R98 to R101, R115 to R117) -/

def wordLong (w : W32) : Bool := w.getLsbD 25

/-- Whether word p is a continuation: it follows a first word with L = 1. -/
def contFrom : Bool → List W32 → Nat → Bool
  | _, [], _ => false
  | c, _ :: _, 0 => c
  | c, w :: ws, p + 1 => contFrom (!c && wordLong w) ws p

def isCont (text : List W32) (p : Nat) : Bool := contFrom false text p

/-- A joint word: ENG 0 and OPC 0xFF (R70). -/
def wordJoint (w : W32) : Bool := fld w 30 2 == 0 && fld w 17 8 == 0xFF

/-- Whether engine g issues the word: its own, or a joint word. -/
def owns (g : Eng) (w : W32) : Bool := wordJoint w || fld w 30 2 == g.code

def wordLen (w : W32) : Nat := if wordLong w then 2 else 1

/-- A level whose body holds c and that a move from c to n leaves. -/
def Level.left (l : Level) (c n : Nat) : Bool := l.active && decide (l.start ≤ c) && decide (c ≤ l.stop) && decide (l.stop < n)

/-- The level, by index, most recently started among those that pass a test. -/
def newest (ls : List Level) (p : Level → Bool) : Option (Nat × Level) :=
  ls.zipIdx.foldl (fun best e =>
    if p e.1 then
      (match best with
       | some (i, l) => if l.ord < e.1.ord then some (e.2, e.1) else some (i, l)
       | none => some (e.2, e.1))
    else best) none

/-- The end action of R116 for a move from c to n; fuel is the number of levels. The back-edge's start and body end. -/
def endAction (c n : Nat) : Nat → List Level → List Level × Option (Nat × Nat)
  | 0, ls => (ls, none)
  | fuel + 1, ls =>
    match newest ls fun l => l.left c n with
    | none => (ls, none)
    | some (i, l) =>
      if 1 < l.cnt.toNat then (ls.set i { l with cnt := l.cnt - 1 }, some (l.start, l.stop))
      else endAction c n fuel (ls.set i { l with cnt := 0, active := false })

/-- Where stepping ends: at an own word or past the text, or at a back-edge. -/
inductive Stepped where
  | own (pc : Nat) (ls : List Level)
  | edge (start stop : Nat) (ls : List Level)
  deriving DecidableEq, Repr

/-- Step from word n over the words of other engines. -/
def stepOver (text : List W32) (g : Eng) : Nat → List Level → Nat → Stepped
  | 0, ls, n => .own n ls
  | fuel + 1, ls, n =>
    match text[n]? with
    | none => .own n ls
    | some w =>
      if owns g w then .own n ls
      else
        match endAction n (n + wordLen w) 3 ls with
        | (ls, some (a, b)) => .edge a b ls
        | (ls, none) => stepOver text g fuel ls (n + wordLen w)

/-- Arguments of WINDOW (R132). -/
def windowArgs (target win maxOther : Nat) : List Word := [w64 target, w64 win, w64 maxOther]

/-- Whether a transfer to `target` falls below the window (R100). -/
def Strand.below (t : Strand) (g : Eng) (target : Nat) : Bool :=
  decide (target + t.sys.win.toNat < t.pc0.maxOther g)

/-- A transfer of more than 255 words costs a bubble (R101). -/
def farJump (p target : Nat) : Bool := decide (p + 255 < target) || decide (target + 255 < p)

/-- Move an engine to word n, or to the next own word from it, as far as the slip window lets it (R98, R99); loop
back-edges on the way are taken, at most `edges` of them and one more that leaves the engine on its way. The
arguments of a WINDOW trap, if a back-edge raises it (R116). -/
def Strand.moveOver (g : Eng) : Nat → Nat → Strand → Strand × Option (List Word)
  | edges, n, t =>
    match stepOver t.text g (t.text.length + 1) (t.engine g).levels n with
    | .own q ls =>
      if q ≤ t.pc0.minOther g + t.sys.win.toNat then
        (t.setEngine g fun e => { e with levels := ls, pc := q, moving := none }, none)
      else (t.setEngine g fun e => { e with levels := ls, moving := some q }, none)
    | .edge a b ls =>
      let t := t.setEngine g fun e =>
        { e with levels := ls, moving := some a, bubble := e.bubble + b2n (farJump b a) }
      if t.below g a then (t, some (windowArgs a t.sys.win.toNat (t.pc0.maxOther g)))
      else match edges with
        | 0 => (t, none)
        | m + 1 => Strand.moveOver g m a t

/-- The same with every back-edge on the way: each takes one from a level's counter. -/
def Strand.moveTo (g : Eng) (n : Nat) (t : Strand) : Strand × Option (List Word) :=
  Strand.moveOver g ((t.engine g).levels.map fun l => l.cnt.toNat).sum n t

/-- Move on from a retired word of length len: the end action, then the next own word. -/
def Strand.moveOn (t : Strand) (g : Eng) (len : Nat) : Strand × Option (List Word) :=
  let e := t.engine g
  match endAction e.pc (e.pc + len) 3 e.levels with
  | (ls, none) => Strand.moveTo g (e.pc + len) (t.setEngine g fun e => { e with levels := ls })
  | (ls, some (a, b)) =>
    let t := t.setEngine g fun e =>
      { e with levels := ls, moving := some a, bubble := e.bubble + b2n (farJump b a) }
    if t.below g a then (t, some (windowArgs a t.sys.win.toNat (t.pc0.maxOther g)))
    else Strand.moveTo g a t

/-- The first word at an address and, with L = 1, its extension. -/
def Strand.wordsAt (t : Strand) (p : Nat) : W32 × Option W32 :=
  let w := t.text.getD p 0
  (w, if wordLong w then t.text[p + 1]? else none)

/-- Arguments of ILLEGAL and PRIV (R132). -/
def Strand.illegalArgs (t : Strand) (g : Eng) : List Word :=
  let w := t.wordsAt (t.engine g).pc
  [w.1.setWidth 64, match w.2 with | some x => x.setWidth 64 | none => 0]

/-- The checks of a transfer of control to a target (R61, R100): the trap it raises. -/
def Strand.checkTarget (t : Strand) (g : Eng) (target : Nat) : Option (Nat × List Word) :=
  if t.text.length ≤ target then some (tPROTECT, [w64 target])
  else if isCont t.text target then some (tILLEGAL, t.illegalArgs g)
  else if t.below g target then some (tWINDOW, windowArgs target t.sys.win.toNat (t.pc0.maxOther g))
  else none

/-- A transfer out of a level's body makes it and every level started after it inactive (R117). -/
def dropLevels (ls : List Level) (target : Nat) : List Level :=
  let out := fun (l : Level) => l.active && (decide (target < l.start) || decide (l.stop < target))
  let first := ls.foldl (fun (m : Option Nat) l => if out l then some (match m with | some n => min n l.ord | none => l.ord) else m) none
  match first with
  | none => ls
  | some n => ls.map fun l => if l.active ∧ n ≤ l.ord then { l with active := false } else l

/-! ### Traps (R127 to R131) -/

/-- Whether the engines of a strand issue. -/
def Strand.runs (t : Strand) : Bool := t.st == .running || t.st == .handler

/-- The address that an engine would issue next. -/
def Engine.issueAddr (e : Engine) : Nat :=
  match e.tri with
  | some p => p
  | none => match e.moving with | some n => n | none => e.pc

/-- An engine on its way finds the word that it would issue next (R128), however far the window lets it go: it stays on
its way to that word. -/
def Strand.settleMove (t : Strand) (g : Eng) : Strand :=
  match (t.engine g).moving with
  | none => t
  | some n =>
    let u := (Strand.moveTo g n { t with sys := { t.sys with win := BitVec.allOnes 9 } }).1.engine g
    let q := u.moving.getD u.pc
    t.setEngine g fun e => { e with levels := u.levels, bubble := u.bubble, moving := some q }

/-- Every engine but g finds its next word. -/
def Strand.settleMoves (t : Strand) (g : Option Eng) : Strand :=
  Eng.list.foldl (fun t h => if g = some h then t else t.settleMove h) t

/-- Results of X in flight. -/
def Strand.resultsOfX (t : Strand) : List Flight := t.fl.filter fun f => f.g == .x && !f.wb.isEmpty

/-- What is left of a count of X's ticks at its next tick: one less if it has had its tick in this period. -/
def XUnit.left (x : XUnit) (n : Nat) : Nat := if x.adv then n - 1 else n

/-- The landing queue when issue stops in a timed region (R124): each result with its remaining ticks. -/
def Strand.landingQueue (t : Strand) : List Flight :=
  t.resultsOfX.map fun f => { f with rem := t.x.left f.rem }

/-- TINFO (R144). -/
def Strand.tinfo (t : Strand) (g : Eng) (code : Nat) : Word :=
  let lq := if t.x.timed then t.landingQueue.length else 0
  w64 (t.sys.ctx.toNat * 2 ^ 48 + t.kern * 2 ^ 32 + keyCore t.key * 2 ^ 24 + keySlot t.key * 2 ^ 23 + lq * 2 ^ 16 +
    b2n (t.st == .handler) * 2 ^ 11 + b2n t.x.timed * 2 ^ 10 + g.code.toNat * 2 ^ 8 + code)

/-- Four argument words: those that a rule does not name are zero (R132). -/
def fourArgs (args : List Word) : List Word := (args ++ [0, 0, 0, 0]).take 4

/-- The argument words of a trap; where no rule names any word of it they are free values (assumption log 17). -/
def State.trapArgs (s : State) (args : List Word) : List Word × State :=
  if args.isEmpty then (tab 4 fun i => Config.freeWord (s.free + i), { s with free := s.free + 4 })
  else (fourArgs args, s)

/-- The trap record (R131). -/
def Strand.trapRecord (t : Strand) (ns : Nat) (info : Word) (args : List Word) : List Byte :=
  leBytes 8 ns ++ leBytes 8 info.toNat ++ (Eng.list.map fun g => leBytes 4 (t.engine g).tepc.toNat).flatten ++
    (args.map fun a => leBytes 8 a.toNat).flatten

/-- The tasks' status word of the strand's task: 1 for a strand error, kept if another is set. -/
def State.taskStatus (s : State) (task status : Nat) : State :=
  match SMap.get? s.work.tasks task with
  | none => s
  | some k =>
    let k := { k with status := if k.status = 0 then status else k.status }
    { s with work := { s.work with tasks := SMap.set s.work.tasks task k } }

/-- Abort the strand at the front (R95, R127): its buffer is discarded, its task fails; the slot is freed once its
started operations are done (STRAND_ENDED). -/
def State.abortStrand (s : State) (status : Nat) : State :=
  let s := s.taskStatus s.cur.task status
  let s := s.setCur fun t => { t with st := .ended, ph := { t.ph with buf := [], held := [] } }
  s.postOnce .strandEnded s.cur.key

/-- Entry of the strand's own handler (R128). -/
def Strand.enterHandler (t : Strand) (addr : Nat) : Strand :=
  let aside : Aside :=
    ⟨t.eng.map Engine.levels, t.links.outc, if t.x.timed then t.landingQueue else [], t.x.timed, t.x.left t.x.dp,
      t.x.left t.x.sfu, t.x.left t.x.alu⟩
  { t with
    st := .handler, aside := some aside,
    fl := if t.x.timed then t.fl.filter fun f => f.g != .x || f.wb.isEmpty else t.fl,
    x := { t.x with timed := false },
    links := { t.links with outc := .all .empty },
    eng := t.eng.map fun e =>
      { e with pc := addr, moving := some addr, levels := e.levels.map (fun l => { l with active := false }), tret := none,
               arrived := false, atEnd := false, bubble := 0, spread := false, tri := none, why := 0, since := none },
    pc0 := .all addr }

/-- A trap is noted: an engine that was on its way keeps its TRI, every engine its address; TRAPC, TEPC, the TRAP event
(R127, R128). -/
def State.noteTrap (s : State) (g : Eng) (code : Nat) (info : Word) (args : List Word) : State :=
  let s := s.setEng g fun e => if e.moving.isNone then { e with tri := none } else e
  let s := s.setCur fun t => { t with
    sys := { t.sys with trapc := BitVec.ofNat 8 code }
    eng := t.eng.map fun e => { e with tepc := BitVec.ofNat 14 e.issueAddr } }
  s.emitCore g 0x803 (info.setWidth 32) (args.headD 0)

/-- A trap that is not routed: a record, and the strand is halted by BREAK, aborted by any other (R127, R131). -/
def State.unroutedTrap (s : State) (code : Nat) (info : Word) (args : List Word) : State :=
  let s := s.pushRecord s.cur.sys.ctx.toNat false (s.cur.trapRecord s.ns info args)
  if code = tBREAK then s.setCur fun t => { t with back := t.st, st := .halted }
  else s.abortStrand 1

/-- Whether a trap goes to the strand's own handler (R128). -/
def Strand.routes (t : Strand) (code : Nat) : Bool :=
  t.sys.tvec.getLsbD 31 && t.sys.tmask.getLsbD code && t.st == .running

/-- TRAPC names the trap that TVEC.ADDR raises in place of the one routed to it. -/
def State.badVector (s : State) (code : Nat) : State :=
  s.setCur fun t => { t with sys := { t.sys with trapc := BitVec.ofNat 8 code } }

/-- A noted trap goes to the handler, or is not routed; an address of the handler outside the text, or of a continuation
word, makes it a trap of its own that is not routed. -/
def State.routeTrap (s : State) (g : Eng) (code : Nat) (info : Word) (args : List Word) : State :=
  let t := s.cur
  let addr := t.sys.tvec.toNat % 16384
  if t.routes code then
    if t.text.length ≤ addr then
      (s.badVector tPROTECT).unroutedTrap tPROTECT (t.tinfo g tPROTECT) (fourArgs [w64 addr])
    else if isCont t.text addr then
      (s.badVector tILLEGAL).unroutedTrap tILLEGAL (t.tinfo g tILLEGAL) (fourArgs (t.illegalArgs g))
    else s.setCur fun t => { t.enterHandler addr with sys := { t.sys with tinfo := info, targ := args } }
  else s.unroutedTrap code info args

/-- A trap in an engine of the strand at the front, every engine's address standing as it is. -/
def State.enterTrap (s : State) (g : Eng) (code : Nat) (args : List Word) : State :=
  let r := s.trapArgs args
  let info := r.2.cur.tinfo g code
  (r.2.noteTrap g code info r.1).routeTrap g code info r.1

/-- Take a trap in an engine of the strand at the front: the one operation behind every trap (R79, R127, R128,
R131). -/
def State.takeTrap (s : State) (g : Eng) (code : Nat) (args : List Word) : State :=
  (s.dropAnswers.setCur fun t => t.settleMoves (some g)).enterTrap g code args

/-- Spread of the resumption addresses. -/
def spreadOf (p : PerEng Nat) : Nat := max (max p.a p.x) (max p.m p.w) - min (min p.a p.x) (min p.m p.w)

/-- The fourth write of TRET (R130): the resumption addresses are checked, then levels, outcome queues, landing queue
and region come back. A write of 1 moves past the instruction at TEPC. -/
def State.leaveHandler (s : State) : State :=
  let t := s.cur
  match t.aside with
  | none => s
  | some a =>
    let back := fun (g : Eng) (t : Strand) => t.setEngine g fun e =>
      { e with levels := a.levels.get g, pc := e.tepc.toNat, moving := none }
    let t1 := Eng.list.foldl (fun t g => back g t) t
    let t1 := { t1 with pc0 := t1.eng.map Engine.pc }
    -- moves past retired instructions; the window is checked on the addresses they give
    let past := fun (t : Strand) (g : Eng) =>
      if (t.engine g).tret = some 1 then
        (({ t with sys := { t.sys with win := BitVec.allOnes 9 }, pc0 := .all (t.engine g).pc }).moveOn g
          (wordLen (t.text.getD (t.engine g).pc 0))).1
      else t.setEngine g fun e => { e with moving := some e.pc }
    let t2 := Eng.list.foldl past t1
    let addrs := t2.eng.map Engine.issueAddr
    if t.sys.win.toNat < spreadOf addrs then
      s.takeTrap .a tWINDOW (windowArgs addrs.a t.sys.win.toNat (addrs.maxOther .a))
    else
      s.setCur fun _ => { t2 with
        st := .running, aside := none, sys := t.sys, fl := t.fl ++ a.landing,
        x := { t.x with timed := a.timed, dp := a.dp, sfu := a.sfu, alu := a.alu, adv := false },
        links := { t.links with outc := a.outc },
        eng := t2.eng.map fun e => { e with tret := none, pc := e.issueAddr, moving := some e.issueAddr, why := 0 },
        pc0 := addrs }

/-! ### Holds and cancels (R303, R307) -/

/-- A translation fault of the strand at the front. In a repeatable phase it cancels the phase; otherwise the access
is held, from its first fault on that page on. `op` names the asynchronous operation that waits. A full request table makes
the access wait. -/
def State.phaseFault (s : State) (g : Eng) (op : Option Nat) (f : TFault) (opc : Nat) : State :=
  let r := s.requestPage s.cur.sys.ctx.toNat f.va f.code (b2n f.wr) (some s.curCore)
  match r.1 with
  | none => r.2
  | some id =>
    let s := r.2
    let since := ((s.cur.ph.held.find? fun k => k.g == g && k.op == op && pageOf k.va == pageOf f.va).map Held.since).getD s.ns
    let h : Held := ⟨g, op, f.va, f.wr, f.code, f.level, f.entry, id, since, opc, 0⟩
    if s.cur.ph.rep then
      let s := s.setPhase fun p => { p with
        st := .cancelled, reason := 1, faultVa := if p.st = .cancelled then p.faultVa else f.va, held := p.held ++ [h] }
      s.postOnce .phaseCancel s.cur.key
    else if s.cur.ph.held.any fun k => k.g == g && k.op == op && k.rqid == id then s
    else
      let s := s.setPhase fun p => { p with
        st := .held, held := (p.held.filter fun k => !(k.g == g && k.op == op)) ++ [h] }
      s.postOnce .holdTimeout s.cur.key

/-- The hold of an engine or operation is over. -/
def State.unhold (s : State) (g : Eng) (op : Option Nat) : State :=
  if s.cur.ph.held.isEmpty ∨ s.cur.ph.rep then s
  else s.setPhase fun p =>
    let held := p.held.filter fun k => !(k.g == g && k.op == op)
    { p with held, st := if held.isEmpty ∧ p.st = .held then .unrep else p.st }

/-- Abort the strand with UNCORR (R308): never routed. -/
def State.uncorrAbort (s : State) (st : Store) (va : Word) : State :=
  let args := fourArgs [va, w64 st.code, s.cur.sys.phasen.setWidth 64]
  let s := s.setCur fun t => t.settleMoves none
  let s := s.setCur fun t => { t with
    sys := { t.sys with trapc := BitVec.ofNat 8 tUNCORR }
    eng := t.eng.map fun e => { e with tepc := BitVec.ofNat 14 e.issueAddr } }
  let info := s.cur.tinfo .a tUNCORR
  let s := s.emitCore .a 0x803 (info.setWidth 32) va
  (s.pushRecord s.cur.sys.ctx.toNat false (s.cur.trapRecord s.ns info args)).abortStrand 1

/-- A consumed uncorrectable error (R303, R308); one in the checkpoint or in the buffer always aborts (R299, R314). -/
def State.uncorr (s : State) (st : Store) (va : Word) : State :=
  if s.cur.ph.rep && st != .checkpoint && st != .buffer then
    (s.setPhase fun p => { p with st := .cancelled, reason := 2, faultVa := 0, bad := some (st.code, va) }).postOnce
      .phaseCancel s.cur.key
  else s.uncorrAbort st va

/-! ### Issue -/

abbrev Out := Host.Outcome State Fault Refusal

/-- X's functional units (R120). -/
inductive Unit3 where
  | free | dp | sfu | alu
  deriving DecidableEq, Repr

/-- What an instruction asks of the issue stage: engine, ring bits, length in words, opcode; its scalar sources in the
order of R109 with their peek bits; names it reads and writes besides; its latency (0 and 1 retire in the issue tick);
whether its signals are owed by the operation it starts (R105); X's unit; whether its vector sources conflict in a
bank; whether the checks of R78 that rest on the strand's state pass, and the trap of a check 7 that needs no operand's
value; the vector registers it reads. -/
structure Issue where
  g     : Eng
  ring  : Ring
  len   : Nat
  opc   : Nat
  srcs  : List (BitVec 5 × Bool)
  uses  : List Name
  lat   : Nat
  async : Bool := false
  unit  : Unit3 := .free
  clash : Bool := false
  legal : Bool := true
  early : Option (Nat × List Word) := none
  vecs  : List Nat := []
  deriving DecidableEq, Repr

/-- What an instruction's body gives: results, the target of a taken transfer, whether the word after it is passed
over at once (false: the body has moved the engine itself). -/
structure Done where
  wb   : List Wb
  goto : Option Nat
  deriving DecidableEq, Repr

def Done.of (wb : List Wb) : Done := ⟨wb, none⟩

/-- The machine with the results in place that land at the start of engine g's tick (R119). -/
def State.landed (s : State) (g : Eng) : State := if g = .x then s.setCur fun t => t.landDue.1 else s

/-- The results that were due in s are in flight again: X stalls (R119). -/
def State.unland (u s : State) (g : Eng) : State :=
  if g = .x ∧ s.cur.fl.any s.cur.due then
    u.setCur fun t => { t with regs := s.cur.regs, x := s.cur.x, links := s.cur.links, fl := s.cur.fl }
  else u

/-- A tick of an engine (R97). -/
def State.tickOn (s : State) (g : Eng) : State :=
  let s := (s.landed g).setEng g fun e => { e with tick := e.tick + 1 }
  if g = .x then s.setCur fun t => { t with x := { t.x with adv := true } } else s

/-- The engine stalls: no tick; the reason of R132, or 0 (R97). -/
def State.stall (s : State) (g : Eng) (why : Nat) : State :=
  (s.setEng g fun e => { e with why }).countCur 0x041 (some g) 1

/-- The engine takes a bubble: its tick advances (R97, R120). -/
def State.bubble (s : State) (g : Eng) : State := (s.setEng g fun e => { e with why := 0 }).tickOn g

/-- Whether the unit that an X instruction of a timed region needs is busy (R120). -/
def Strand.unitBusy (t : Strand) (q : Issue) : Bool :=
  t.timed q.g &&
    match q.unit with
    | .free => false | .dp => t.x.dp != 0 | .sfu => t.x.sfu != 0 | .alu => t.x.alu != 0

/-- The unit is occupied: 4, 8 or 1 ticks, three times as long under TRI (R120, R125). -/
def XUnit.occupy (x : XUnit) (u : Unit3) (k : Nat) : XUnit :=
  match u with
  | .free => x | .dp => { x with dp := 4 * k } | .sfu => { x with sfu := 8 * k } | .alu => { x with alu := k }

/-! ### Triple issue (R125) -/

/-- Element e of a part of a result: a lane of a vector or predicate, else a scalar's only element. -/
def Wb.elem (w : Wb) (e : Nat) : Word :=
  match w with
  | .reg _ v => v
  | .vec _ _ v => (v.getD e 0).setWidth 64
  | .pred _ _ v => w64 (b2n (v.getLsbD e))
  | _ => 0

/-- A part of a result with one element replaced. -/
def Wb.setElem (w : Wb) (e : Nat) (x : Word) : Wb :=
  match w with
  | .reg n _ => .reg n x
  | .vec n m v => .vec n m (upd v e fun _ => x.setWidth 32)
  | .pred n m v =>
    let bit := BitVec.ofNat 1024 (2 ^ e)
    .pred n m (if x.getLsbD 0 then v ||| bit else v &&& ~~~bit)
  | w => w

/-- Whether a part of a result has an element that the instruction writes. -/
def Wb.writes (w : Wb) (e : Nat) : Bool :=
  match w with
  | .reg .. => e == 0
  | .vec _ m v => m.getLsbD e && decide (e < v.length)
  | .pred _ m _ => decide (e < 1024) && m.getLsbD e
  | _ => false

/-- The three values of an element under a list of upsets. -/
def voted (us : List Upset) (part e : Nat) (v : Word) : Word × Word × Word :=
  let copy := fun (c : Nat) => us.foldl (fun w u => if u.copy = c ∧ u.part = part ∧ u.elem = e then w ^^^ u.flip else w) v
  (copy 0, copy 1, copy 2)

/-- What a vote gives: the results as two of three agree on them, and whether one disagreed; or the three values and the
number of an element of which all differ. -/
inductive Vote where
  | agree (wb : List Wb) (differ : Bool)
  | split (a b c : Word) (e : Nat)
  deriving DecidableEq, Repr

/-- The vote on the element that one upset touches, wb being the results without upsets. -/
def voteOn (us : List Upset) (wb : List Wb) (r : Vote) (u : Upset) : Vote :=
  match r with
  | .split .. => r
  | .agree ws d =>
    match ws[u.part]?, wb[u.part]? with
    | some w, some w0 =>
      if !w.writes u.elem then r
      else
        let v := voted us u.part u.elem (w0.elem u.elem)
        if v.1 = v.2.1 ∨ v.1 = v.2.2 then
          .agree (ws.set u.part (w.setElem u.elem v.1)) (d || v.1 != v.2.1 || v.1 != v.2.2)
        else if v.2.1 = v.2.2 then .agree (ws.set u.part (w.setElem u.elem v.2.1)) true
        else .split v.1 v.2.1 v.2.2 u.elem
    | _, _ => r

/-- Vote the elements that upsets touch, in their order: only these can differ. -/
def vote (us : List Upset) (wb : List Wb) : Vote := us.foldl (voteOn us wb) (.agree wb false)

/-- The next voted word's upsets are over. -/
def State.voteDone (s : State) : State := { s with plant := { s.plant with upsets := s.plant.upsets.drop 1 } }

/-! ### Errors in on-package storage (R313, R314) -/

/-- A write of on-package storage clears the errors of the whole words that it covers. -/
def State.heal (s : State) (st : Store) (addr n : Nat) : State :=
  if s.mem.poison.isEmpty then s else { s with mem := s.mem.heal st addr n }

/-- Where a vector register of the strand lies in the addresses that a scrub gives (assumption log 42). -/
def State.vecSpot (s : State) (n : Nat) : Nat := spot s.curCore (keySlot s.cur.key * 2 ^ 20 + n * 4096)

/-- The first vector register of a list that holds an uncorrectable error. -/
def State.badVec (s : State) (vs : List Nat) : Option Nat := vs.find? fun n => s.mem.spoilt .vector (s.vecSpot n) 4096

/-- The reads of vector registers correct what is correctable. -/
def State.readVecs (s : State) (vs : List Nat) : State :=
  if s.mem.soft.isEmpty then s else vs.foldl (fun s n => s.corrected (16 + Store.vector.code) (s.vecSpot n) 4096) s

/-- A result for vector registers clears the errors of the words of 64 bits that it writes whole. -/
def State.healVecs (s : State) (wb : List Wb) : State :=
  if s.mem.poison.isEmpty then s
  else wb.foldl (fun s w => match w with
    | .vec n m _ => ((tab 512 id).filter fun i => m.getLsbD (2 * i) && m.getLsbD (2 * i + 1)).foldl
        (fun s i => s.heal .vector (s.vecSpot n + 8 * i) 8) s
    | _ => s) s

/-- A completed instruction's results are placed: sources popped, tokens consumed, results, signals and the tick of its
engine (R101, R103, R104). -/
def State.deliver (s : State) (q : Issue) (links : Links → Links) (wb : List Wb) : State :=
  let tri := (s.cur.engine q.g).tri.isSome
  let s := (s.healVecs wb).setCur fun t => { t with links := (links t.links).consume q.g q.ring }
  let sig := !q.async
  let lat := if tri then q.lat + 8 else q.lat
  let s := s.setCur fun t => { t with x := t.x.occupy q.unit (if tri then 3 else 1) }
  let s := s.setCur fun t => t.deliver q.g lat wb (q.ring.sp && sig) (q.ring.sn && sig)
  let s := (s.setEng q.g fun e => { e with why := 0, tri := none, spread := false, since := none }).tickOn q.g
  s.countCur 0x040 (some q.g) 1

/-- An engine moves on from a word of length len, or to a target (R98, R101, R116). -/
def State.leaveWord (s : State) (g : Eng) (len : Nat) (goto : Option Nat) : State :=
  let r := match goto with
    | none => s.cur.moveOn g len
    | some target =>
      let p := (s.cur.engine g).pc
      Strand.moveTo g target (s.cur.setEngine g fun e => { e with bubble := e.bubble + b2n (farJump p target) })
  let s := { s with cur := r.1 }
  match r.2 with
  | some args => s.takeTrap g tWINDOW args
  | none => s

/-- The effect of a completed instruction on its engine: its results are placed and the engine moves on. -/
def State.retire (s : State) (q : Issue) (links : Links → Links) (d : Done) : State :=
  (s.deliver q links d.wb).leaveWord q.g q.len d.goto

/-- Whether a name read or written has a pending write that the engine must await: never X in a timed region. R118 names
reads; a destination with a write pending is awaited too, so that writes keep program order (DESIGN CHOICE, assumption
log 44). -/
def Strand.mustAwait (t : Strand) (q : Issue) : Bool :=
  !t.timed q.g && ((q.srcs.any fun r => t.pending q.g (.reg r.1)) || q.uses.any (t.pending q.g))

/-- Channels with the entries popped that are popped in l. -/
def Links.popped (l k : Links) : Links := { k with chans := (l.chans.zip k.chans).map fun e => { e.2 with q := e.1.q } }

/-- Whether X holds as many results in flight as it may (R122). -/
def Strand.fullX (t : Strand) : Bool := decide (Config.xResults ≤ t.resultsOfX.length)

/-- Completion of an instruction whose body has given d and left u; s is the machine before it, and x X's state once the
results due have landed. A result of X that would be the 33rd in flight takes a bubble (R122); a word under TRI is voted
(R125). -/
def State.complete (s : State) (x : Strand) (u : State) (q : Issue) (links : Links → Links) (d : Done) : State :=
  if q.g = .x ∧ !d.wb.isEmpty ∧ x.fullX then s.bubble q.g
  else if (s.cur.engine q.g).tri.isNone ∨ s.plant.upsets.isEmpty then (u.unhold q.g none).retire q links d
  else match vote (s.plant.upsets.headD []) d.wb with
    | .agree wb differ =>
      let u := if differ then u.countCur 0x043 (some q.g) 1 else u
      (u.voteDone.unhold q.g none).retire q links { d with wb }
    | .split a b c e => s.voteDone.takeTrap q.g tVOTE [a, b, c, w64 e]

/-- Issue an instruction: ring waits, the results that land as its tick begins, channels, pending results, the body's
checks and effects, completion. -/
def issue (q : Issue) (body : List Word → Act Done) (s : State) : Out :=
  if !q.legal then .next (s.takeTrap q.g tILLEGAL (s.cur.illegalArgs q.g))
  else match q.early with
  | some p => .next (s.takeTrap q.g p.1 p.2)
  | none =>
  match s.cur.links.waitsOn q.g q.ring with
  | some why => .next (s.stall q.g why)
  | none =>
    let w := s.landed q.g
    match w.cur.readSrcs q.g q.srcs w.cur.links with
    | .closed n => .next (s.takeTrap q.g tCHANNEL [w64 n])
    | .empty => .next (s.stall q.g 4)
    | .ok vs l =>
      if s.cur.mustAwait q then .next (s.stall q.g 0)
      else if s.cur.unitBusy q then .next (s.bubble q.g)
      else if q.clash && !(s.cur.engine q.g).spread then
        .next ((s.setEng q.g fun e => { e with spread := true }).bubble q.g)
      else match w.badVec q.vecs with
      | some n => .next (s.uncorr .vector (w64 (s.vecSpot n)))
      | none =>
        match body vs (w.readVecs q.vecs) with
        | .ok d u => .next (s.complete w.cur u q l.popped d)
        | .stop (.trap code args) => .next (s.takeTrap q.g code args)
        | .stop (.wait why u) => .next ((u.unland s q.g).stall q.g why)
        | .stop (.fault f u) => .next (((u.unland s q.g).phaseFault q.g none f q.opc).stall q.g 0)
        | .stop (.uncorr st va u) => .next ((u.unland s q.g).uncorr st va)
        | .stop (.lost va us) => .next (s.takeTrap q.g tTIMEOUT (s.cur.timeoutArgs va q.opc us))
        | .stop .absent => .fault .absentMemory

/-- Trap ILLEGAL at the instruction of engine g (R132). -/
def illegal {α : Type} (g : Eng) : Act α := fun s => .stop (.trap tILLEGAL (s.cur.illegalArgs g))

def legal (g : Eng) (ok : Bool) : Act Unit := if ok then Act.pure () else illegal g

/-- A check of R78 that needs no operand's value. -/
def earlyCheck (ok : Bool) (code : Nat) (args : List Word) : Option (Nat × List Word) := if ok then none else some (code, args)

/-- Finish with one scalar result. -/
def result (d : BitVec 5) (v : Word) : Act Done := Act.pure (.of [.reg d v])

def noResult : Act Done := Act.pure (.of [])

end Sys2Proof.Machine
end

