-- ==== Sys2Proof/Machine/Buffer.lean ====
section
/-! DEFINITION. Writes that hub agents make for a strand (R468), the release of the phase store buffer (R279, R300,
R301), atomics at their home engine (R290 to R292), and stores (R154, R301). -/

namespace Sys2Proof.Machine

/-! ### Writes of the hub's agents (R468) -/

/-- Ask again for a hub write that waits for its page, or perform it (R468). -/
def State.agentTry (s : State) (a : AgentStore) : State :=
  let item : Post := ⟨.agentStore, a.id, 0⟩
  let gone := fun (t : State) => { t with mem := { t.mem with stores := t.mem.stores.erase a } }
  let r := match a.add with
    | some v => s.agentAdd a.key a.ctx a.va v a.src item
    | none => s.agentWrite a.ctx a.va a.bytes a.src item
  match r with
  | .ok _ t => gone t
  | .drop t => gone t
  | .wait t => t

/-- A hub agent writes bytes, or adds to a counter, on behalf of a strand or sequence. -/
def State.agentPut (s : State) (key ctx : Nat) (va : Word) (bytes : List Byte) (add : Option Word) (src : Nat) : State :=
  let id := match s.mem.stores.getLast? with | some a => a.id + 1 | none => 0
  let a : AgentStore := ⟨id, key, ctx, va, bytes, add, src⟩
  State.agentTry { s with mem := { s.mem with stores := s.mem.stores ++ [a] } } a

/-- Counter k of a context (R381). -/
def counterVa (c : Context) (k : Nat) : Word := c.record.cntbase + w64 (8 * k)

/-- Drop the valid leaf e at pa, of a level (R337). -/
def State.dropLeaf (s : State) (ctx : Nat) (va : Word) (pa : Nat) (e : Word) (level : Nat) : State :=
  let size := 2 ^ levelShift level
  let m := s.mem.put 0 pa (leBytes 8 (setBit e 0 false).toNat)
  let m := m.invalidate ctx (va.toNat / size * size) (size / 65536)
  State.unshare { s with mem := m } ctx (leafHome e) (leafPa e) level

/-- The level of the leaf that stands on a page's path, valid for a walk or not. -/
def State.leafLevel (s : State) (ctx : Nat) (va : Word) : Option (Nat × Nat × Word) :=
  ([2, 1, 0].findSome? fun l => match slotAt s.mem (va.toNat % 2 ^ 57) l 5 (s.ctxOf ctx).record.ptroot.toNat with
    | .entry pa e => if leafV e then some (l, pa, e) else none
    | _ => none)

/-- PGDROP of the page that a VA lies on, whatever its size (R337, R423): reason 0 or 3. -/
def State.dropPage (s : State) (ctx : Nat) (va : Word) : Nat × State :=
  match s.leafLevel ctx va with
  | some (level, pa, e) => if leafPin e then (3, s) else (0, s.dropLeaf ctx va pa e level)
  | none => (0, s)

def seqKey (ctx seq : Nat) : Nat := ctx * 65536 + seq

/-- Set PIN in the leaf of a block's page; a block whose table entry or page does not translate here is left as it is
(DESIGN CHOICE, assumption log 44; R421, R436). -/
def State.pinBlock (s : State) (ctx : Nat) (q : Sequence) (pin : Bool) (j : Nat) : State :=
  match s.translate ctx [] none (q.btva + w64 (8 * j)) .read with
  | .ok x t =>
    let page := w64 (leNat (t.mem.bytes x.home x.pa 8))
    if page = 0 ∨ x.home = 2 then t
    else match t.walk ctx page with
      | .leaf pa e level =>
        let size := 2 ^ levelShift level
        let m := t.mem.put 0 pa (leBytes 8 (setBit e 9 pin).toNat)
        { t with mem := m.invalidate ctx (page.toNat / size * size) (size / 65536) }
      | _ => t
  | _ => s

/-- The sinks of a sequence change from q.s to n blocks. -/
def State.setSinks (s : State) (ctx : Nat) (q : Sequence) (n : Nat) : State :=
  let s := (tab (min n q.btn) id).foldl (fun s j => s.pinBlock ctx q true j) s
  ((tab (min q.s q.btn) id).filter fun j => decide (n ≤ j)).foldl (fun s j => s.pinBlock ctx q false j) s

/-- Release the blocks of a sequence that its window has left: block j of the next n (R423). -/
def State.windowDrop (ctx key : Nat) (q : Sequence) : Nat → Nat → State → State
  | 0, _, s => s
  | n + 1, j, s =>
    let next := State.windowDrop ctx key q n (j + 1)
    if j < q.s ∨ q.l.toNat ≤ (j + 1) * q.b - 1 + q.w then next s
    else
      let slot := q.btva + w64 (8 * j)
      match s.translate ctx [] none slot .read with
      | .ok x t =>
        let page := BitVec.ofNat 64 (leNat (t.mem.bytes x.home x.pa 8))
        if page = 0 ∨ x.home = 2 then next t
        else
          let r := t.dropPage ctx page
          if r.1 = 3 then next (r.2.countDie 4 0x441 (some ctx) 1)
          else next (r.2.agentPut key ctx slot (leBytes 8 0) none noSource)
      | _ => next s

def State.setSeq (s : State) (k : Nat) (q : Sequence) : State :=
  { s with strm := { s.strm with seqs := SMap.set s.strm.seqs k q } }

/-- The commit of a step: L grows, cursors and step close, the window moves (R422, R423). -/
def State.seqCommit (s : State) (ctx seq n : Nat) : State :=
  match SMap.get? s.strm.seqs (seqKey ctx seq) with
  | none => s
  | some q =>
    let q := { q with l := q.l + w64 n, curs := List.replicate q.nlayer 0, opened := none }
    let s := s.setSeq (seqKey ctx seq) q
    let s := s.agentPut (2 ^ 24) ctx (q.va + 8) (leBytes 8 q.l.toNat) none noSource
    s.windowDrop ctx (2 ^ 24) q ((q.l.toNat - q.w) / q.b + 1) 0

def State.seqAppend (s : State) (ctx seq layer n : Nat) : State :=
  match SMap.get? s.strm.seqs (seqKey ctx seq) with
  | none => s
  | some q => s.setSeq (seqKey ctx seq) { q with curs := upd q.curs layer (· + n) }

def State.seqClose (s : State) (ctx seq : Nat) : State :=
  match SMap.get? s.strm.seqs (seqKey ctx seq) with
  | none => s
  | some q => s.setSeq (seqKey ctx seq) { q with curs := List.replicate q.nlayer 0, opened := none }

/-- Runs of consecutive offsets of a block's bytes. -/
def byteRuns : SMap Byte → List (Nat × List Byte)
  | [] => []
  | (o, b) :: rest =>
    match byteRuns rest with
    | (p, bs) :: more => if p = o + 1 then (o, b :: bs) :: more else (o, [b]) :: (p, bs) :: more
    | [] => [(o, [b])]

/-- Write a block's bytes where it is homed; a discarded entry (home 3) is counted under STORE_DROPPED (R336). -/
def State.putBlock (s : State) (va : Word) (home pa : Nat) (bytes : SMap Byte) (desc : Option W16) (paths : BitVec 8) : State :=
  if home = 3 then s.countCur 0x046 none 1
  else if home = 2 then
    (byteRuns bytes).foldl (fun s r => s.askPeer (s.peerRequest 0 (pa + r.1) r.2.length r.2 paths 0 (va + w64 r.1))) s
  else
    let m := (byteRuns bytes).foldl (fun (m : Mem) r => m.put home (pa + r.1) r.2) s.mem
    { s with mem := match desc with | some d => m.put 0 (descAddr pa) (leBytes 2 d.toNat) | none => m }

/-! ### Atomics at their home (R290 to R292) -/

/-- A request of the strand at the front; its tag is unlike that of any other it has made. -/
def State.atomReq (s : State) (home pa op n : Nat) (b new : Word) (post : Bool) : AtomReq :=
  { eng := atomEngine home pa, since := s.clock, key := s.cur.key, tag := BitVec.ofNat 32 s.cur.seq, chip := 0,
    owner := s.cur.key, core := some s.curCore, ctx := s.cur.sys.ctx.toNat, kern := s.cur.kern, op, size := n, home, pa, opd := b, new, post,
    old := none }

/-- Perform a released atomic: at its home engine, which the release waits for; sent to a peer's, it is on its way.
Whether it is performed. -/
def State.performAtom (s : State) (e : BufEntry) (op n : Nat) (b : Word) : Bool × State :=
  if e.home = 3 then (true, s.countCur 0x046 none 1)
  else if e.home = 2 then
    (true, s.askPeer { s.peerRequest 4 e.pa n [] (pathBit 4) 0x70 e.va with opa := linkOp op n, opd := b })
  else if s.mem.atoms.any fun r => r.key == s.cur.key && r.post then (false, s)
  else (false, s.queueAtom (s.atomReq e.home e.pa op n b 0 true))

/-- The checks that an atomic makes at issue: the translation of its address. -/
def atomicAddr (va : Word) (n op : Nat) : Act Xlate :=
  (Act.check (va.toNat % n == 0) tALIGN []).andThen <|
  (Act.check (canonical va) tPROTECT [va, w64 256]).andThen <| (xlate va .write).bind fun x =>
  (Act.check (!x.desc) tATOMIC []).andThen <|
  (Act.check (x.home != 1 || op == 0 || op == 8 || op == 10) tATOMIC []).andThen (Act.pure x)

/-! ### Release (R279, R300, R301) -/

/-- Whether a load or atomic of the strand has left its engine and not been answered. -/
def Strand.awaiting (t : Strand) : Bool := t.fl.any Flight.awaits

/-- The release is taken up again later. -/
def State.releaseLater (s : State) : State := s.postOnce .qsubmitPush s.cur.key

/-- Write a tag (R351): only a translation or permission fault drops it. -/
def State.performTag (s : State) (va : Word) (t : W16) : Bool × State :=
  match s.translate s.cur.sys.ctx.toNat s.cur.wins (some s.curCore) va .write with
  | .ok x u =>
    if x.home = 2 then (true, u.askPeer (u.peerRequest 0 x.pa 2 (leBytes 2 t.toNat) (pathBit 1) 0 va))
    else (true, { u with mem := u.mem.put x.home x.pa (leBytes 2 t.toNat) })
  | .moving => (false, s.releaseLater)
  | _ => (true, s.countCur 0x046 none 1)

/-- Perform a released add: the agent translates again, and the release holds while it waits for the page; an access that it
drops counts as made (R382, R468). -/
def State.performAdd (s : State) (e : BufEntry) (v : Word) : Bool × State :=
  if e.home = 3 then s.performAtom e 0 8 v
  else match s.agentXlate s.cur.sys.ctx.toNat e.va true noSource ⟨.qsubmitPush, s.cur.key, 0⟩ with
    | .ok x t => t.performAtom { e with home := x.home, pa := x.pa } 0 8 v
    | .drop t => (true, t)
    | .wait t => (false, t)

/-- Perform one released entry: whether it is performed, or the release holds at it. An STRL and an add to a counter come
after every earlier load (R281, R382). -/
def State.perform (s : State) (e : BufEntry) : Bool × State :=
  match e.kind with
  | .data bytes desc strl => if strl && s.cur.awaiting then (false, s.releaseLater) else (true, s.putBlock e.va e.home e.pa bytes desc e.paths)
  | .atom op n b => s.performAtom e op n b
  | .counter _ v => if s.cur.awaiting then (false, s.releaseLater) else s.performAdd e v
  | .submit .. => (false, s.releaseLater)
  | .append c q l n => (true, s.seqAppend c q l n)
  | .commit c q n =>
    (true, (s.seqCommit c q n).setCur fun t => if t.step = some (c, q) then { t with step := none } else t)
  | .close c q => (true, (s.seqClose c q).setCur fun t => if t.step = some (c, q) then { t with step := none } else t)
  | .tag va t => s.performTag va t

/-- Whether an uncorrectable error lies in the entry that is released next (R314). -/
def State.bufferBad (s : State) : Bool :=
  !s.cur.ph.rep && !s.cur.ph.buf.isEmpty &&
    s.mem.spoilt .buffer (spot s.curCore (keySlot s.cur.key * 65536 + 64 * s.cur.ph.released)) 64

/-- Release the entries in order, until one holds; none after one with an uncorrectable error (R314), nor while the core
may make no request (R20). -/
def State.releaseFrom : List BufEntry → State → State
  | [], s => s.setPhase fun p => { p with buf := [], released := 0 }
  | e :: es, s =>
    let s := s.setPhase fun p => { p with buf := e :: es }
    if s.bufferBad then s
    else if !s.requestRoom then s.releaseLater
    else match s.perform e with
      | (true, t) => State.releaseFrom es (t.setPhase fun p => { p with released := p.released + 1 })
      | (false, t) => t

def State.release (s : State) : State := s.releaseFrom s.cur.ph.buf

/-- Continue the release of the strand at the front behind its first entry. -/
def State.releaseRest (s : State) : State :=
  (s.setPhase fun p => { p with released := p.released + 1 }).releaseFrom (s.cur.ph.buf.drop 1)

/-- The phase becomes unrepeatable and its buffer is released (R302); not once it is cancelled (R310). -/
def State.unrepeat (s : State) : State :=
  if s.cur.ph.rep ∧ s.cur.ph.st ≠ .cancelled then
    (s.setPhase fun p => { p with rep := false, st := if p.st = .opened then .unrep else p.st }).release
  else s

/-- Room for an access that is performed as it is made, in an unrepeatable phase: none while an earlier release still
holds at an entry, or an earlier load is not answered. -/
def storeReady : Act Unit := Act.get.bind fun s =>
  Act.until (s.cur.ph.rep || (s.cur.ph.buf.isEmpty && !s.cur.awaiting && s.requestRoom)) 0

/-- The phase becomes unrepeatable; wait until the release has passed every entry. -/
def unrepeatAct : Act Unit :=
  (Act.modify State.unrepeat).andThen <| Act.get.bind fun s => Act.until (s.cur.ph.buf.isEmpty && !s.cur.awaiting) 0

/-! ### Stores -/

/-- An entry for a store or an ordered entry: an overflow releases the buffer, and what overflowed waits for that
(R301). -/
def bufferRoom (fits : List BufEntry → Bool) : Act Unit := Act.get.bind fun s =>
  if s.cur.ph.rep && !fits s.cur.ph.buf then unrepeatAct else storeReady

/-- A store to one block of a translated page: buffered while the phase is repeatable, else written through. -/
def State.storeBlock (s : State) (b : BlockStore) : State :=
  match if s.cur.ph.rep then bufStore s.cur.ph.buf b else none with
  | some buf => s.setPhase fun p => { p with buf }
  | none => s.putBlock b.va b.home b.pa b.bytes b.desc (pathBit b.path)

/-- Store bytes that lie in one 64-byte block. An STRL counts as one on an RC page only (R282, R288), and waits for every
load before it (R281). -/
def storeBytes (va : Word) (bytes : List Byte) (desc : Option W16) (strl : Bool) (path : Nat := 0) : Act Unit :=
  (xlate va .write).bind fun x =>
    let b : BlockStore := ⟨path, w64 (va.toNat / 64 * 64), x.home, x.pa / 64 * 64, x.ord, SMap.puts [] (x.pa % 64) bytes,
      if x.desc then desc else none, strl && x.ord == 1⟩
    (bufferRoom fun buf => (bufStore buf b).isSome).andThen <| Act.get.bind fun s =>
    (Act.until (!b.strl || !s.cur.awaiting) 0).andThen <| Act.modify fun s => s.storeBlock b

/-- Bytes to store: where, what, the block's descriptor if the store writes one. -/
structure StorePiece where
  va    : Word
  bytes : List Byte
  desc  : Option W16
  deriving DecidableEq, Repr

/-- Cut a store into pieces of one 64-byte block. -/
def storePieces (va : Word) (bytes : List Byte) : List StorePiece :=
  ((pieces 64 (bytes.length / 64 + 2) va.toNat bytes.length).foldl (fun (acc : List StorePiece × List Byte) p =>
    (acc.1 ++ [⟨p.1, acc.2.take p.2, none⟩], acc.2.drop p.2)) ([], bytes)).1

/-- Store every piece on a path, all of them translated first. -/
def storeAll (ps : List StorePiece) (path : Nat := 1) : Act Unit :=
  (xlateAll .write (ps.map fun p => (p.va, p.bytes.length))).andThen <| storeReady.andThen <|
  Act.each (fun p => storeBytes p.va p.bytes p.desc false path) ps

/-- An ordered entry: it never merges; in an unrepeatable phase it is performed at once. -/
def State.orderedEntry (s : State) (e : BufEntry) : State :=
  let s := s.setPhase fun p => { p with buf := p.buf ++ [e] }
  if s.cur.ph.rep then s else s.release

/-- Enter an ordered entry once there is room. -/
def enterOrdered (e : BufEntry) : Act Unit :=
  (bufferRoom fun buf => decide (buf.length < Config.bufEntries)).andThen (Act.modify fun s => s.orderedEntry e)

/-- An add to counter i at va: an ordered entry of the buffer, performed as ADD at its home (R189, R279, R301, R382). -/
def addCounter (va : Word) (i : Nat) (v : Word) : Act Unit :=
  (atomicAddr va 8 0).bind fun t => enterOrdered ⟨va, t.home, t.pa, t.ord, pathBit 4, .counter i v⟩

end Sys2Proof.Machine
end

