-- ==== Sys2Proof/Machine/Operands.lean ====
section
/-! DEFINITION. Operand forms: what an instruction of each format asks of the issue stage (R63, R64), immediates and
offsets of the short and long forms (R65), memory addresses, shape extents and layouts (R159 to R173). -/

namespace Sys2Proof

open Machine

/-! ### Formats -/

/-- Length in words of an instruction with an optional extension. -/
def lenOf {α : Type} (x : Option α) : Nat := if x.isSome then 2 else 1

/-- Issue of a common instruction: opcodes from 0x20 on use X's scalar ALU (R120, R156). -/
def Hd.issue (h : Hd) (opc len : Nat) (srcs : List (BitVec 5 × Bool)) (uses : List Name) (lat : Nat) : Issue :=
  { g := h.g, ring := h.ring, len, opc, srcs, uses, lat,
    unit := if h.g = .x ∧ 0x20 ≤ opc then .alu else .free }

/-- Issue of an engine's own instruction. -/
def Ring.issue (r : Ring) (g : Eng) (opc len : Nat) (srcs : List (BitVec 5)) (uses : List Name) (lat : Nat) : Issue :=
  { g, ring := r, len, opc, srcs := srcs.map fun n => (n, false), uses, lat }

/-- Sources a and b with their peek bits (R64). -/
def F3.srcs (o : F3) : List (BitVec 5 × Bool) := [(o.a, flag o.s 1), (o.b, flag o.s 0)]

/-- A source that pops. -/
def pop (n : BitVec 5) : BitVec 5 × Bool := (n, false)

/-! ### Immediates and offsets (R63 to R65) -/

/-- imm7 or imm32 = IMMH, imm7, sign-extended. -/
def FI.value (o : FI) (x : Option XI) : Word :=
  match x with
  | none => o.imm.signExtend 64
  | some e => (e.immh ++ o.imm).signExtend 64

/-- imm12, or imm32 = IMMH, imm12. -/
def FU.value (o : FU) (x : Option XU) : W32 :=
  match x with
  | none => o.imm.setWidth 32
  | some e => e.immh ++ o.imm

def FB.offset (o : FB) (x : Option XB) : Int :=
  match x with
  | none => o.off.toInt
  | some e => (e.offh ++ o.off).toInt

def FZ.offset (o : FZ) (x : Option XZ) : Int :=
  match x with
  | none => o.off.toInt
  | some e => (e.offh ++ o.off).toInt

/-- Sources of a memory operand: base and, short or with IDX, index. -/
def memSrcs (a b : BitVec 5) (x : Option XM) : List (BitVec 5) :=
  match x with
  | some e => if e.idx then [a, b] else [a]
  | none => [a, b]

/-- Sum of base, index and offset: the sources of a memory operand are the first values. -/
def memAddr (x : Option XM) (vs : List Word) : Word :=
  match x with
  | some e => vs.headD 0 + (if e.idx then vs.getD 1 0 else 0) + e.offs.signExtend 64
  | none => vs.headD 0 + vs.getD 1 0

/-- The value behind the memory operand: a store's data. -/
def memData (x : Option XM) (vs : List Word) : Word :=
  match x with
  | some e => if e.idx then vs.getD 2 0 else vs.getD 1 0
  | none => vs.getD 2 0

/-- Access size of R64 in bytes. -/
def F3.size (o : F3) : Nat := 2 ^ o.s.toNat

/-! ### Vector fields (R66, R209 to R212) -/

/-- Format code. -/
def XV.code (v : XV) : Nat := v.fmt.toNat

/-- The effective format. -/
def XV.format (v : XV) : Fmt := (Fmt.ofCode v.code).getD .untyped

/-- Peek bits of field a and of field b (R211). -/
def F3.srcA (o : F3) : BitVec 5 × Bool := (o.a, flag o.s 1)
def F3.srcB (o : F3) : BitVec 5 × Bool := (o.b, flag o.s 0)

/-- Whether a format's results can be late. -/
def Fmt.isFp (f : Fmt) : Bool := f.float.isSome || f == .dsw8

namespace Machine

/-! ### Shape registers -/

/-- Extent k of shape register n. -/
def Strand.ext (t : Strand) (n k : Nat) : W32 := (t.sh.getD n []).getD k 0

end Machine

end Sys2Proof
end

