-- ==== Sys2Proof/Machine/Scalar.lean ====
section
/-! DEFINITION. Integer arithmetic (R146 to R153), scalar loads and stores (R154), FENCE, LDAQ and STRL (R287, R288). -/

namespace Sys2Proof.Machine

/-! ### Register arithmetic (R147 to R149) -/

/-- A register ALU instruction of latency lat. -/
def alu (h : Hd) (opc lat : Nat) (o : F3) (f : Word → Word → Word) : State → Out :=
  issue (h.issue opc 1 o.srcs [.reg o.d] lat) fun vs => result o.d (f (vs.headD 0) (vs.getD 1 0))

/-- Bits [127:64] of a product. -/
def mulHigh (a b : Int) : Word := wordOf (a * b / 2 ^ 64)

/-- Signed division truncated toward zero; a zero divisor gives −1 (R148). -/
def divSigned (a b : Word) : Word := if b = 0 then Word.ones else wordOf (a.toInt.tdiv b.toInt)
def divUnsigned (a b : Word) : Word := if b = 0 then Word.ones else a / b
def remSigned (a b : Word) : Word := if b = 0 then a else wordOf (a.toInt.tmod b.toInt)
def remUnsigned (a b : Word) : Word := if b = 0 then a else a % b

/-- The shift amount b[5:0]. -/
def shiftBy (b : Word) : Nat := b.toNat % 64

def boolWord (b : Bool) : Word := if b then 1 else 0
def minSigned (a b : Word) : Word := if b.slt a then b else a
def maxSigned (a b : Word) : Word := if a.slt b then b else a
def minUnsigned (a b : Word) : Word := if b.ult a then b else a
def maxUnsigned (a b : Word) : Word := if a.ult b then b else a

def execAdd (h : Hd) (o : F3) (s : State) : Out := alu h 0x20 1 o (· + ·) s
def execSub (h : Hd) (o : F3) (s : State) : Out := alu h 0x21 1 o (· - ·) s
def execMul (h : Hd) (o : F3) (s : State) : Out := alu h 0x22 3 o (· * ·) s
def execMulh (h : Hd) (o : F3) (s : State) : Out := alu h 0x23 3 o (fun a b => mulHigh a.toInt b.toInt) s
def execMulhu (h : Hd) (o : F3) (s : State) : Out := alu h 0x24 3 o (fun a b => mulHigh a.toNat b.toNat) s
def execDiv (h : Hd) (o : F3) (s : State) : Out := alu h 0x25 18 o divSigned s
def execDivu (h : Hd) (o : F3) (s : State) : Out := alu h 0x26 18 o divUnsigned s
def execRem (h : Hd) (o : F3) (s : State) : Out := alu h 0x27 18 o remSigned s
def execRemu (h : Hd) (o : F3) (s : State) : Out := alu h 0x28 18 o remUnsigned s
def execAnd (h : Hd) (o : F3) (s : State) : Out := alu h 0x29 1 o (· &&& ·) s
def execOr (h : Hd) (o : F3) (s : State) : Out := alu h 0x2A 1 o (· ||| ·) s
def execXor (h : Hd) (o : F3) (s : State) : Out := alu h 0x2B 1 o (· ^^^ ·) s
def execShl (h : Hd) (o : F3) (s : State) : Out := alu h 0x2C 1 o (fun a b => a <<< shiftBy b) s
def execShr (h : Hd) (o : F3) (s : State) : Out := alu h 0x2D 1 o (fun a b => a >>> shiftBy b) s
def execSra (h : Hd) (o : F3) (s : State) : Out := alu h 0x2E 1 o (fun a b => a.sshiftRight (shiftBy b)) s
def execMin (h : Hd) (o : F3) (s : State) : Out := alu h 0x2F 1 o minSigned s
def execMax (h : Hd) (o : F3) (s : State) : Out := alu h 0x30 1 o maxSigned s
def execMinu (h : Hd) (o : F3) (s : State) : Out := alu h 0x31 1 o minUnsigned s
def execMaxu (h : Hd) (o : F3) (s : State) : Out := alu h 0x32 1 o maxUnsigned s
def execSlt (h : Hd) (o : F3) (s : State) : Out := alu h 0x33 1 o (fun a b => boolWord (a.slt b)) s
def execSltu (h : Hd) (o : F3) (s : State) : Out := alu h 0x34 1 o (fun a b => boolWord (a.ult b)) s
def execSeq (h : Hd) (o : F3) (s : State) : Out := alu h 0x35 1 o (fun a b => boolWord (a == b)) s

/-- R149: bits [63:0] do not depend on where the sum wraps. -/
def execMadd (h : Hd) (o : F3) (x : XR) (s : State) : Out :=
  issue (h.issue 0x36 2 (o.srcs ++ [pop x.c]) [.reg o.d] 3)
    (fun vs => result o.d (vs.headD 0 * vs.getD 1 0 + vs.getD 2 0)) s

/-- Leading zeros of the low n bits. -/
def leadingZeros (a : Word) : Nat → Nat
  | 0 => 0
  | n + 1 => if a.getLsbD n then 0 else 1 + leadingZeros a n

/-- One bits among the low n bits. -/
def onesBelow (a : Word) : Nat → Nat
  | 0 => 0
  | n + 1 => b2n (a.getLsbD n) + onesBelow a n

def execClz (h : Hd) (o : F3) (s : State) : Out :=
  issue (h.issue 0x37 1 [(o.a, flag o.s 1)] [.reg o.d] 1) (fun vs => result o.d (w64 (leadingZeros (vs.headD 0) 64))) s

def execPopc (h : Hd) (o : F3) (s : State) : Out :=
  issue (h.issue 0x38 1 [(o.a, flag o.s 1)] [.reg o.d] 1) (fun vs => result o.d (w64 (onesBelow (vs.headD 0) 64))) s

/-! ### Bit fields (R151) -/

/-- Position and width: from XR, or from b. -/
def fieldPos (x : Option XR) (vs : List Word) : Nat × Nat :=
  let pw := match x with
    | some r => (r.pos.toNat, r.wid.toNat)
    | none => let b := vs.getD 1 0; (getBits b 0 6, getBits b 8 6)
  (pw.1, if pw.2 = 0 then 64 else pw.2)

def fieldSrcs (o : F3) (x : Option XR) : List (BitVec 5 × Bool) :=
  match x with | some _ => [(o.a, flag o.s 1)] | none => o.srcs

def lowMask (w : Nat) : Word := w64 (2 ^ w - 1)

/-- Bits [p + w − 1 : p] of a. -/
def extractField (a : Word) (p w : Nat) : Word := (a >>> p) &&& lowMask w

/-- d with bits [p + w − 1 : p] replaced by the low bits of a. -/
def insertField (d a : Word) (p w : Nat) : Word :=
  (d &&& ~~~(lowMask w <<< p)) ||| ((a &&& lowMask w) <<< p)

/-- Issue of BFX and BFI: the field of the long form is checked before anything is waited for (R78). -/
def fieldIssue (h : Hd) (opc : Nat) (o : F3) (x : Option XR) : Issue :=
  let f := fieldPos x []
  { h.issue opc (lenOf x) (fieldSrcs o x) [.reg o.d] 1 with
    early := earlyCheck (x.isNone || decide (f.1 + f.2 ≤ 64)) tRANGE [w64 (f.1 + f.2)] }

def execBfx (h : Hd) (o : F3) (x : Option XR) (s : State) : Out :=
  issue (fieldIssue h 0x39 o x) (fun vs =>
    let f := fieldPos x vs
    (Act.check (decide (f.1 + f.2 ≤ 64)) tRANGE [w64 (f.1 + f.2)]).andThen
      (result o.d (extractField (vs.headD 0) f.1 f.2))) s

def execBfi (h : Hd) (o : F3) (x : Option XR) (s : State) : Out :=
  issue (fieldIssue h 0x3A o x) (fun vs => Act.get.bind fun s =>
    let f := fieldPos x vs
    (Act.check (decide (f.1 + f.2 ≤ 64)) tRANGE [w64 (f.1 + f.2)]).andThen
      (result o.d (insertField (s.cur.reg h.g o.d) (vs.headD 0) f.1 f.2))) s

/-! ### Immediates (R152, R153) -/

/-- An immediate ALU instruction. -/
def aluImm (h : Hd) (opc : Nat) (o : FI) (x : Option XI) (f : Word → Word → Word) : State → Out :=
  issue (h.issue opc (lenOf x) [pop o.a] [.reg o.d] 1) fun vs => result o.d (f (vs.headD 0) (o.value x))

def execAddi (h : Hd) (o : FI) (x : Option XI) (s : State) : Out := aluImm h 0x40 o x (· + ·) s
def execAndi (h : Hd) (o : FI) (x : Option XI) (s : State) : Out := aluImm h 0x41 o x (· &&& ·) s
def execOri (h : Hd) (o : FI) (x : Option XI) (s : State) : Out := aluImm h 0x42 o x (· ||| ·) s
def execXori (h : Hd) (o : FI) (x : Option XI) (s : State) : Out := aluImm h 0x43 o x (· ^^^ ·) s
def execShli (h : Hd) (o : FI) (x : Option XI) (s : State) : Out := aluImm h 0x44 o x (fun a b => a <<< shiftBy b) s
def execShri (h : Hd) (o : FI) (x : Option XI) (s : State) : Out := aluImm h 0x45 o x (fun a b => a >>> shiftBy b) s
def execSrai (h : Hd) (o : FI) (x : Option XI) (s : State) : Out :=
  aluImm h 0x46 o x (fun a b => a.sshiftRight (shiftBy b)) s
def execSlti (h : Hd) (o : FI) (x : Option XI) (s : State) : Out :=
  aluImm h 0x47 o x (fun a b => boolWord (a.slt b)) s

def execLi (h : Hd) (o : FU) (x : Option XU) (s : State) : Out :=
  issue (h.issue 0x48 (lenOf x) [] [.reg o.d] 1) (fun _ =>
    result o.d (match x with | some _ => (o.value x).signExtend 64 | none => o.imm.setWidth 64)) s

def execLih (h : Hd) (o : FU) (x : Option XU) (s : State) : Out :=
  issue (h.issue 0x49 (lenOf x) [] [.reg o.d] 1) (fun _ => Act.get.bind fun s =>
    result o.d (o.value x ++ (s.cur.reg h.g o.d).setWidth 32)) s

/-! ### Loads and stores (R154, R288) -/

/-- Issue of an access whose operand is memory: sources pop; a store's data register comes last. -/
def memIssue (h : Hd) (opc : Nat) (o : F3) (x : Option XM) (store : Bool) : Issue :=
  h.issue opc (lenOf x) ((memSrcs o.a o.b x ++ (if store then [o.d] else [])).map pop)
    (if store then [] else [.reg o.d]) (if store then 1 else 40)

/-- Bytes extended to a word. -/
def extended (signed : Bool) (b : List Byte) : Word :=
  if signed then wordOf (toSigned (8 * b.length) (leNat b)) else w64 (leNat b)

/-- A load: address checks, then bytes, extended to a word. The bytes of a peer's page come later (R121). -/
def loadWord (h : Hd) (opc : Nat) (o : F3) (x : Option XM) (signed : Bool) : State → Out :=
  issue (memIssue h opc o x false) fun vs =>
    let va := memAddr x vs
    (checkAddr va o.size false).andThen <|
    (loadLate opc o.d va o.size (extended signed) signed).bind fun w => Act.pure (.of [w])

/-- LDAQ: the engine stays until the bytes are there, so that no later access passes it (R281). -/
def acquireWord (h : Hd) (o : F3) (x : Option XM) : State → Out :=
  issue (memIssue h 0x17 o x false) fun vs =>
    let va := memAddr x vs
    (checkAddr va o.size false).andThen <| (loadOne va o.size false).bind fun b => result o.d (extended true b)

def storeWord (h : Hd) (opc : Nat) (o : F3) (x : Option XM) (strl : Bool) : State → Out :=
  issue (memIssue h opc o x true) fun vs =>
    let va := memAddr x vs
    (checkAddr va o.size true).andThen <|
    (storeBytes va (leBytes o.size (memData x vs).toNat) none strl).andThen noResult

def execLd (h : Hd) (o : F3) (x : Option XM) (s : State) : Out := loadWord h 0x4B o x true s
def execLdz (h : Hd) (o : F3) (x : Option XM) (s : State) : Out := loadWord h 0x4C o x false s
def execSt (h : Hd) (o : F3) (x : Option XM) (s : State) : Out := storeWord h 0x4D o x false s
def execLdaq (h : Hd) (o : F3) (x : Option XM) (s : State) : Out := acquireWord h o x s
def execStrl (h : Hd) (o : F3) (x : Option XM) (s : State) : Out := storeWord h 0x18 o x true s

/-! ### FENCE (R68, R287) -/

/-- The path bit that an asynchronous operation belongs to. -/
def OpKind.path : OpKind → Nat
  | .walk .. => 3 | .split .. => 3 | .accept .. => 5 | _ => 1

/-- Whether the operations of the named paths issued before `since` are complete. -/
def Strand.fencePassed (t : Strand) (paths : BitVec 12) (since : Nat) : Bool :=
  (t.ops.all fun o => o.done || !flag paths o.kind.path || decide (since ≤ o.issued)) &&
  (!flag paths 2 || ((t.nest.toList ++ t.pend.toList).all fun n => decide (since ≤ n.issued)))

/-- Accesses of the strand at the front on the named paths (LS, CP, MX, AT) that are not performed: released ones behind
an entry that the release holds at, and loads and atomics not answered (R287). -/
def State.accessesOut (s : State) (paths : BitVec 12) : Bool :=
  let named := getBits paths 0 8
  (!s.cur.ph.rep && s.cur.ph.buf.any fun e => e.paths.toNat &&& named != 0) ||
  (s.cur.fl.any fun f => f.wb.any fun w => match w with
    | .await _ (.peer _) _ _ _ => flag paths 0
    | .await _ (.atom _) _ _ _ => flag paths 4
    | _ => false)

/-- Writes and atomics of the strand to peers on their way, on the named paths: performed at system scope when they are
answered. -/
def State.sendsOut (s : State) (paths : BitVec 12) : Bool :=
  s.net.remote.any fun r =>
    r.key == s.cur.key && r.opk != 2 && r.ans.isNone && r.paths.toNat &&& getBits paths 0 8 != 0

/-- The time that the engine's wait began, noted at its first attempt. -/
def waitSince (g : Eng) : Act Nat := fun s =>
  let n := (s.cur.engine g).since.getD s.clock
  .ok n (s.setEng g fun e => { e with since := some n })

/-- A fence waits for what is on its way on the named paths, and at system scope for peers; a buffered store satisfies it
(R287). -/
def execFence (h : Hd) (o : FU) (s : State) : Out :=
  issue (h.issue 0x16 1 [] [] 1) (fun _ => (waitSince h.g).bind fun since => Act.get.bind fun s =>
    (Act.until (s.cur.fencePassed o.imm since && !s.accessesOut o.imm &&
      (getBits o.imm 8 3 != 4 || !s.sendsOut o.imm)) 0).andThen noResult) s

end Sys2Proof.Machine
end

