-- ==== Sys2Proof/Machine/Shape.lean ====
section
/-! DEFINITION. Shape registers (R158 to R162) and layout slots (R163 to R173). -/

namespace Sys2Proof.Machine

/-! ### Layout records (R163 to R168) -/

/-- The record of 64 bytes. -/
def Layout.ofBytes (r : List Byte) : Layout :=
  { base := w64 (field r 0 8), tag := BitVec.ofNat 16 (field r 8 2), rank := BitVec.ofNat 8 (field r 10 1),
    flags := BitVec.ofNat 8 (field r 11 1), shx := BitVec.ofNat 8 (field r 12 1), rsv := BitVec.ofNat 24 (field r 13 3),
    ext := tab 4 fun i => BitVec.ofNat 32 (field r (16 + 4 * i) 4), st := tab 3 fun i => w64 (field r (32 + 8 * i) 8),
    offs := w64 (field r 56 8) }

def Layout.bytes (l : Layout) : List Byte :=
  leBytes 8 l.base.toNat ++ leBytes 2 l.tag.toNat ++ leBytes 1 l.rank.toNat ++ leBytes 1 l.flags.toNat ++
    leBytes 1 l.shx.toNat ++ leBytes 3 l.rsv.toNat ++ (l.ext.map fun e => leBytes 4 e.toNat).flatten ++
    (l.st.map fun e => leBytes 8 e.toNat).flatten ++ leBytes 8 l.offs.toNat

/-- Fields of a tag word (R164). -/
def tagFmt (t : W16) : Nat := getBits t 0 4
def tagScaled (t : W16) : Bool := flag t 4
def tagSpc (t : W16) : Nat := getBits t 5 3
def tagLay (t : W16) : Nat := getBits t 8 3

def Layout.lay (l : Layout) : Nat := tagLay l.tag
def Layout.ragged (l : Layout) : Bool := flag l.flags 0
def Layout.described (l : Layout) : Bool := flag l.flags 1
def Layout.segids (l : Layout) : Bool := flag l.flags 2
def Layout.stride (l : Layout) (i : Nat) : Word := l.st.getD (i - 1) 0

/-- Element width of a format code: 0 where there is none (R27, R166). -/
def codeBits (c : Nat) : Nat := match Fmt.ofCode c with | some f => f.bits | none => 0

def Layout.bits (l : Layout) : Nat := codeBits (tagFmt l.tag)

/-- The trap that a record raises, if it is not valid, in the order of R168. -/
def Layout.fault (l : Layout) : Option Nat :=
  if l.rsv ≠ 0 ∨ getBits l.tag 11 5 ≠ 0 ∨ getBits l.flags 3 5 ≠ 0 then some tSHAPE
  else if 12 < tagFmt l.tag ∨ 2 < tagSpc l.tag ∨ 4 < l.lay then some tSHAPE
  else if l.rank = 0 ∨ 4 < l.rank.toNat ∨ (15 < l.shx.toNat ∧ l.shx ≠ 0xFF) then some tSHAPE
  else if l.ragged ≠ (l.lay == 4) ∨ (l.segids ∧ !l.ragged) then some tSHAPE
  else if l.lay = 4 ∧ (l.rank ≠ 3 ∨ l.stride 2 ≠ 0 ∨ l.stride 3 ≠ 0) then some tSHAPE
  else if l.lay = 4 ∧ l.offs.toNat % 4 ≠ 0 then some tALIGN
  else if l.lay = 3 ∧ l.offs.toNat % 8 ≠ 0 then some tALIGN
  else if l.lay < 3 ∧ l.offs ≠ 0 then some tSHAPE
  else if (tagFmt l.tag = 12 ∧ !l.described) ∨ (tagSpc l.tag ≠ 0 ∧ l.rank.toNat < 2) ∨ (tagSpc l.tag = 2 ∧ l.lay ≠ 0) then
    some tSHAPE
  else if l.base.toNat % max 1 (l.bits / 8) ≠ 0 ∨ (l.lay = 2 ∧ l.base.toNat % 64 ≠ 0) then some tALIGN
  else none

/-- Effective extents, captured at issue: bound or inline, 1 at or above the rank (R167). -/
def Strand.extents (t : Strand) (l : Layout) : List Nat :=
  tab 4 fun k =>
    if l.rank.toNat ≤ k then 1
    else if l.shx = 0xFF then (l.ext.getD k 0).toNat else (t.ext l.shx.toNat k).toNat

/-- Slot n of the strand. -/
def Strand.slot (t : Strand) (n : Nat) : Option LySlot := t.ly.getD n none

/-- The shape register that slot n's extents are read from (R118, R167). -/
def Strand.bound (t : Strand) (n : Nat) : List Name :=
  match t.slot n with
  | some k => if k.lay.shx = 0xFF then [] else [.sh k.lay.shx.toNat]
  | none => []

/-- The slot's record with its effective extents written in; SHAPE if empty (R167, R171). -/
def layoutOf (n : Nat) : Act LySlot := fun s =>
  match s.cur.slot n with
  | none => .stop (.trap tSHAPE [])
  | some k => .ok { k with lay := { k.lay with ext := (s.cur.extents k.lay).map (BitVec.ofNat 32), shx := 0xFF } } s

/-! ### Shape registers (R162) -/

/-- Write extent k of shN at the end of the tick in which the instruction retires (R160). -/
def setExt (n k : Nat) (v : W32) : Act Done := Act.pure (.of [.ext n k v])

/-- A shape instruction on extent b[1:0] of shD with a scalar value. -/
def shapeOp (h : Hd) (opc : Nat) (o : F3) (f : W32 → Word → Act W32) : State → Out :=
  let n := o.d.toNat
  let k := getBits o.b 0 2
  issue (h.issue opc 1 [(o.a, flag o.s 1)] [.sh n] 1) fun vs => Act.get.bind fun s =>
    (f (s.cur.ext n k) (vs.headD 0)).bind fun v => setExt n k v

def execShset (h : Hd) (o : F3) (s : State) : Out :=
  shapeOp h 0x50 o (fun _ v => (Act.check (decide (v.toNat < 2 ^ 32)) tRANGE [v]).andThen (Act.pure (v.setWidth 32))) s

def execShseti (h : Hd) (o : FU) (x : Option XU) (s : State) : Out :=
  let n := o.d.toNat
  issue (h.issue 0x51 (lenOf x) [] [.sh n] 1) (fun _ =>
    let low := getBits o.imm 0 10
    let v := match x with | some e => e.immh.toNat * 1024 + low | none => low
    setExt n (getBits o.imm 10 2) (BitVec.ofNat 32 v)) s

def execShget (h : Hd) (o : F3) (s : State) : Out :=
  issue (h.issue 0x52 1 [] [.reg o.d, .sh o.a.toNat] 1) (fun _ => Act.get.bind fun s =>
    result o.d ((s.cur.ext o.a.toNat (getBits o.b 0 2)).setWidth 64)) s

def execShmin (h : Hd) (o : F3) (s : State) : Out :=
  shapeOp h 0x53 o (fun e v => Act.pure (BitVec.ofNat 32 (min e.toNat v.toNat))) s

def execShadd (h : Hd) (o : F3) (s : State) : Out :=
  shapeOp h 0x54 o (fun e v =>
    let t := (e.toNat : Int) + v.toInt
    (Act.check (decide (0 ≤ t) && decide (t < 2 ^ 32)) tRANGE [v]).andThen (Act.pure (BitVec.ofInt 32 t))) s

def execShcpy (h : Hd) (o : F3) (s : State) : Out :=
  issue (h.issue 0x55 1 [] [.sh o.d.toNat, .sh o.a.toNat] 1) (fun _ => Act.get.bind fun s =>
    if o.d = o.a then noResult else Act.pure (.of [.shape o.d.toNat (s.cur.sh.getD o.a.toNat [])])) s

/-! ### Layout slots (R170 to R173) -/

/-- A slot write at the end of the tick in which the instruction retires (R161). -/
def setSlot (n : Nat) (k : LySlot) : Act Done := Act.pure (.of [.slot n k])

/-- Sources of a memory operand with their peek bits. -/
def memPeeks (o : F3) (x : Option XM) : List (BitVec 5 × Bool) :=
  match x with
  | some e => if e.idx then o.srcs else [(o.a, flag o.s 1)]
  | none => o.srcs

def execLyld (h : Hd) (o : F3) (x : Option XM) (s : State) : Out :=
  let n := o.d.toNat
  issue (h.issue 0x56 (lenOf x) (memPeeks o x) [.ly n] 40) (fun vs =>
    let va := memAddr x vs
    (checkAddr va 64 false).andThen <| (loadOne va 64).bind fun b =>
    let l := Layout.ofBytes b
    match l.fault with
    | some code => Act.trap code []
    | none => Act.pure (.of [.slot n ⟨l, some va, false⟩])) s

def execLyst (h : Hd) (o : F3) (x : Option XM) (s : State) : Out :=
  let n := o.d.toNat
  issue (h.issue 0x57 (lenOf x) (memPeeks o x) [.ly n] 1) (fun vs => Act.get.bind fun s =>
    let va := memAddr x vs
    (Act.check (va.toNat % 64 == 0) tALIGN []).andThen <|
    match s.cur.slot n with
    | none => Act.trap tSHAPE []
    | some k =>
      (Act.check (canonical va) tPROTECT [va, w64 256]).andThen <| (storeBytes va k.lay.bytes none false).andThen noResult) s

/-- The field that LYGET returns. -/
def Layout.getSel (l : Layout) (ext : List Nat) (sel : Nat) : Word :=
  match sel with
  | 0 => l.base
  | 1 => l.tag.setWidth 64
  | 2 => l.rank.setWidth 64
  | 3 => l.flags.setWidth 64
  | 4 => l.shx.setWidth 64
  | 5 | 6 | 7 | 8 => w64 (ext.getD (sel - 5) 0)
  | 9 | 10 | 11 => l.st.getD (sel - 9) 0
  | 12 => l.offs
  | _ => w64 l.bits

def execLyget (h : Hd) (o : F3) (s : State) : Out :=
  issue (h.issue 0x58 1 [] ([.reg o.d, .ly o.a.toNat] ++ s.cur.bound o.a.toNat) 1) (fun _ => Act.get.bind fun s =>
    match s.cur.slot o.a.toNat with
    | none => Act.trap tSHAPE []
    | some k => result o.d (k.lay.getSel (s.cur.extents k.lay) o.b.toNat)) s

/-- Bits that LYSET's field takes. -/
def selBits (sel : Nat) : Nat :=
  match sel with
  | 1 => 16
  | 2 | 3 | 4 => 8
  | 5 | 6 | 7 | 8 => 32
  | _ => 64

/-- The record with one field written. -/
def Layout.setSel (l : Layout) (sel : Nat) (v : Word) : Layout :=
  match sel with
  | 0 => { l with base := v }
  | 1 => { l with tag := v.setWidth 16 }
  | 2 => { l with rank := v.setWidth 8 }
  | 3 => { l with flags := v.setWidth 8 }
  | 4 => { l with shx := v.setWidth 8 }
  | 5 | 6 | 7 | 8 => { l with ext := upd l.ext (sel - 5) fun _ => v.setWidth 32 }
  | 9 | 10 | 11 => { l with st := upd l.st (sel - 9) fun _ => v }
  | _ => { l with offs := v }

/-- LYSET makes the slot forget its source VA (R351). An empty slot is found before a value that is too wide (DESIGN
CHOICE, assumption log 44). -/
def execLyset (h : Hd) (o : F3) (s : State) : Out :=
  let n := o.d.toNat
  issue (h.issue 0x59 1 [(o.a, flag o.s 1)] [.ly n] 1) (fun vs => Act.get.bind fun s =>
    let v := vs.headD 0
    match s.cur.slot n with
    | none => Act.trap tSHAPE []
    | some k =>
      (Act.check (decide (v.toNat < 2 ^ selBits o.b.toNat)) tRANGE []).andThen <|
      let l := k.lay.setSel o.b.toNat v
      match l.fault with
      | some code => Act.trap code []
      | none => setSlot n { k with lay := l, src := none }) s

/-- One offset of a ragged layout's vector (R169). -/
def raggedOffset (l : Layout) (i : Nat) : Act Nat :=
  (loadBytes (l.offs + w64 (4 * i)) 4).bind fun b => Act.pure (leNat b)

/-- R173; slot M keeps its record and forgets its source VA (R351). -/
def execLyseg (h : Hd) (o : F3) (s : State) : Out :=
  let n := o.d.toNat
  let m := o.a.toNat
  issue (h.issue 0x5A 1 [(o.b, flag o.s 0)] ([.sh n, .ly m] ++ s.cur.bound m) 40) (fun vs => Act.get.bind fun s =>
    let i := vs.headD 0
    match s.cur.slot m with
    | none => Act.trap tSHAPE []
    | some k =>
      let e := s.cur.extents k.lay
      (Act.check k.lay.ragged tRAGGED []).andThen <|
      (Act.check (decide (i.toNat < e.getD 2 0)) tRANGE [i]).andThen <|
      (raggedOffset k.lay i.toNat).bind fun lo => (raggedOffset k.lay (i.toNat + 1)).bind fun hi =>
      (Act.check (decide (lo ≤ hi) && decide (hi ≤ e.getD 1 0)) tRAGGED [w64 lo, w64 hi]).andThen <|
      (Act.modify fun s => s.setCur fun t => { t with lates := t.lates ++ [(h.g, .forget m)] }).andThen <|
      Act.pure (.of [.shape n [BitVec.ofNat 32 (e.getD 0 0), BitVec.ofNat 32 (hi - lo), BitVec.ofNat 32 lo, i.setWidth 32]])) s

end Sys2Proof.Machine
end

