-- ==== Sys2Proof/Machine/Tile.lean ====
section
/-! DEFINITION. Tiles: storage (R175, R184 to R186), the allocation rings (R177 to R183), the range scoreboard (R187,
R188), and the instructions that act on handles at once (R157, R192 to R197). -/

namespace Sys2Proof.Machine

/-! ### Storage -/

def Half.byte (h : Half) (i : Nat) : Byte := (SMap.get? h.data i).getD (Config.freeByte h.seed i)
def Half.sidecar (h : Half) (r : Nat) : W32 := (SMap.get? h.side r).getD (Config.freeSide h.seed r)
def Half.blockDesc (h : Half) (j : Nat) : W16 := (SMap.get? h.desc j).getD (Config.freeDesc h.seed j)
def Half.bytes (h : Half) (i n : Nat) : List Byte := tab n fun k => h.byte (i + k)

/-- Fresh storage: nothing in it is defined (R194, R248). -/
def Half.fresh (seed : Nat) : Half := ⟨seed, [], [], []⟩

/-- RB: bytes of a row. -/
def rowBytes (rbu : Nat) : Nat := (if rbu = 0 then 256 else rbu) * 64
def Tile.rb (t : Tile) : Nat := rowBytes t.rbu
def Tile.size (t : Tile) : Nat := t.rows * t.rb

/-- Header bytes of R175. -/
def headerBytes (rows rb : Nat) (sc ds : Bool) : Nat :=
  let n := (if sc then rows * 4 else 0) + (if ds then rows * rb / 32 else 0)
  (n + 63) / 64 * 64

/-- Cells of R175. -/
def tileCells (hdr rows rb : Nat) (db : Bool) : Nat := (hdr + rows * rb + 255) / 256 * (if db then 2 else 1)

/-- The half that ordinary accesses use, and the half that copies write (R184). -/
def Tile.copyHalf (t : Tile) : Half := if t.half == t.db then t.h0 else t.h1
def Tile.setCopyHalf (t : Tile) (h : Half) : Tile := if t.half == t.db then { t with h0 := h } else { t with h1 := h }

/-- Sidecar of row r: SEG 0 and POS r where none is stored (R185). -/
def Tile.sidecar (t : Tile) (r : Nat) : W32 := if t.sc then t.front.sidecar r else BitVec.ofNat 32 (r % 65536)

/-- Descriptor of data block j: the format of the tag where none is stored (R200). -/
def Tile.blockDesc (t : Tile) (j : Nat) : W16 := if t.ds then t.front.blockDesc j else BitVec.ofNat 16 (tagFmt t.tag)

/-- Whether a descriptor can be decoded (R36). -/
def descOk (d : W16) : Bool := decide (1 ≤ getBits d 0 4) && decide (getBits d 0 4 ≤ 9) && getBits d 6 2 == 0
def descFmt (d : W16) : Nat := getBits d 0 4
def descScaled (d : W16) : Bool := flag d 4
def descZero (d : W16) : Bool := flag d 5
def descScale (d : W16) : Nat := getBits d 8 8

/-- The padding sidecar. -/
def padding : W32 := BitVec.allOnes 32

def tagOf (fmt : Nat) (scaled : Bool) (spc : Nat) : W16 := BitVec.ofNat 16 (fmt + 16 * b2n scaled + 32 * spc)

/-! ### The tile table -/

def Strand.tile? (t : Strand) (h : Nat) : Option Tile := SMap.get? t.tiles h
def Strand.setTile (t : Strand) (h : Nat) (v : Tile) : Strand := { t with tiles := SMap.set t.tiles h v }

/-- Field a with its peek-free pop, or HA (R192). -/
def handleSrcs (a : BitVec 5) (x : Option XH) : List (BitVec 5) :=
  match x with
  | some e => if e.ia then [] else [a]
  | none => [a]

/-- The handle that the first source or HA names, and the other sources. -/
def handleArg (x : Option XH) (vs : List Word) : Word × List Word :=
  match x with
  | some e => if e.ia then (e.ha.setWidth 64, vs) else (vs.headD 0, vs.drop 1)
  | none => (vs.headD 0, vs.drop 1)

/-- HANDLE at a register value (R192). -/
def badHandle {α : Type} (v : Word) : Act α := Act.trap tHANDLE [v]

/-- A number that can name a handle. -/
def handleNo (v : Word) : Act Nat := if v.toNat < 128 then Act.pure v.toNat else badHandle v

/-- A held tile. -/
def heldTile (v : Word) : Act (Nat × Tile) :=
  (handleNo v).bind fun h => Act.get.bind fun s =>
    match s.cur.tile? h with
    | some t => Act.pure (h, t)
    | none => badHandle v

/-- A held tile that may be written: an alias raises HANDLE (R394). -/
def writableTile (v : Word) : Act (Nat × Tile) :=
  (heldTile v).bind fun p => if p.2.ro then badHandle v else Act.pure p

def updTile (h : Nat) (f : Tile → Tile) : Act Unit := Act.modify fun s => s.setCur fun t =>
  match t.tile? h with
  | some v => t.setTile h (f v)
  | none => t

/-! ### Errors in tile storage (R314) -/

/-- Where byte off of a tile's half lies in the addresses that a scrub gives (assumption log 42). -/
def State.tileSpot (s : State) (t : Tile) (half : Bool) (off : Nat) : Nat :=
  let cell := 256 * t.start + t.hdr + off + (if half then (t.hdr + t.size + 255) / 256 * 256 else 0)
  if t.near then spot (s.cur.sys.ctx.toNat * 65536 + s.curDie * 64) cell else spot s.curCore (keySlot s.cur.key * 2 ^ 31 + cell)

def Tile.store (t : Tile) : Store := if t.near then .near else .comb

/-- A read of n bytes at an address of on-package storage consumes an uncorrectable error there, and corrects others. -/
def sound (st : Store) (addr n : Nat) : Act Unit := fun s =>
  if s.mem.spoilt st addr n then .stop (.uncorr st (w64 (addr + s.mem.badAt (16 + st.code) addr n)) s)
  else .ok () (s.corrected (16 + st.code) addr n)

/-- A read of n bytes of a tile's front half. -/
def tileSound (t : Tile) (off n : Nat) : Act Unit := Act.get.bind fun s => sound t.store (s.tileSpot t t.half off) n

/-- A read of n bytes from byte off of rows of a tile on. -/
def rowsSound (t : Tile) (rows : List Nat) (off n : Nat) : Act Unit := fun s =>
  if s.mem.poison.isEmpty && s.mem.soft.isEmpty then .ok () s else Act.each (fun r => tileSound t (r * t.rb + off) n) rows s

/-- A write of n bytes of a tile: of its front half, or of the half that copies write. -/
def tileHeal (t : Tile) (copy : Bool) (off n : Nat) : Act Unit := Act.modify fun s =>
  s.heal t.store (s.tileSpot t (if copy then t.half != t.db else t.half) off) n

/-! ### Rings (R177 to R182) -/

/-- Cells skipped by an allocation of n from head h in a ring of s. -/
def skipCells (h n s : Nat) : Nat := if s < h + n then s - h else 0

/-- An empty ring starts at 0 (R178). -/
def RingAlloc.rewind (r : RingAlloc) : RingAlloc := if r.used = 0 then { r with head := 0, tail := 0 } else r

def growLast (k : Nat) : List Span → List Span
  | [] => []
  | [x] => [{ x with len := x.len + k }]
  | x :: xs => x :: growLast k xs

/-- Allocate n cells: the start and the ring; none is EXHAUST. -/
def RingAlloc.alloc (r : RingAlloc) (n : Nat) (owner : Nat × Nat) : Option (Nat × RingAlloc) :=
  let r := r.rewind
  let k := skipCells r.head n r.size
  if r.size - r.used < n + k then none
  else
    let start := if k = 0 then r.head else 0
    let spans := if k = 0 then r.spans else growLast k r.spans
    some (start, { r with head := (start + n) % r.size, used := r.used + n + k, spans := spans ++ [⟨start, n, owner, true⟩] })

/-- The tail moves over every released span that begins at it (R179). -/
def RingAlloc.sweepFrom : List Span → RingAlloc → RingAlloc
  | [], r => { r with spans := [] }
  | x :: xs, r =>
    if x.live then { r with spans := x :: xs }
    else RingAlloc.sweepFrom xs { r with used := r.used - x.len, tail := (r.tail + x.len) % r.size }

def RingAlloc.sweep (r : RingAlloc) : RingAlloc := (RingAlloc.sweepFrom r.spans r).rewind

/-- Release the live span of an owner. -/
def RingAlloc.release (r : RingAlloc) (owner : Nat × Nat) : RingAlloc :=
  RingAlloc.sweep { r with spans := r.spans.map fun (x : Span) => if x.owner = owner then { x with live := false } else x }

/-- Shrink an owner's span to n cells in a list of spans of a ring of `size`; the start and the cells freed when it is
the newest. -/
def shrinkSpans (size n : Nat) (owner : Nat × Nat) : List Span → List Span × Option (Nat × Nat)
  | [] => ([], none)
  | x :: xs =>
    if x.live ∧ x.owner = owner then
      (match xs with
       | [] => ([{ x with len := n }], some (x.start, x.len - n))
       | _ =>
         if x.len = n then (x :: xs, none)
         else ({ x with len := n } :: ⟨(x.start + n) % size, x.len - n, owner, false⟩ :: xs, none))
    else (x :: (shrinkSpans size n owner xs).1, (shrinkSpans size n owner xs).2)

/-- Shrink an owner's span to n cells (R180). -/
def RingAlloc.shrink (r : RingAlloc) (owner : Nat × Nat) (n : Nat) : RingAlloc :=
  let p := shrinkSpans r.size n owner r.spans
  match p.2 with
  | some (start, freed) => { r with spans := p.1, head := (start + n) % r.size, used := r.used - freed }
  | none => { r with spans := p.1 }

/-- Cells of the live span at a start (skip cells included). -/
def RingAlloc.spanAt (r : RingAlloc) (start : Nat) : Nat :=
  match r.spans.find? fun x => x.live && x.start == start with
  | some x => x.len
  | none => 0

/-- Arguments of EXHAUST (R182). -/
def RingAlloc.exhaustArgs (r : RingAlloc) (n : Nat) (near : Bool) : List Word :=
  let r := r.rewind
  let oldest := match r.spans.find? fun x => x.live with
    | some x => w64 (x.owner.2 % 256 + keyCore x.owner.1 % 256 * 256 + keySlot x.owner.1 * 65536)
    | none => Word.ones
  [w64 (n + skipCells r.head n r.size * 2 ^ 32), w64 (r.size - r.used),
   w64 (r.head % 2 ^ 21 + r.tail % 2 ^ 21 * 2 ^ 21 + r.size % 2 ^ 21 * 2 ^ 42 + b2n near * 2 ^ 63), oldest]

def nringKey (ctx die : Nat) : Nat := ctx * 4 + die

/-- The context's N ring on a die. -/
def State.nring (s : State) (ctx die : Nat) : RingAlloc := SMap.getD s.work.nrings (nringKey ctx die) (.empty 0)

def State.setNring (s : State) (ctx die : Nat) (r : RingAlloc) : State :=
  { s with work := { s.work with nrings := SMap.set s.work.nrings (nringKey ctx die) r } }

/-- The ring of a level, for the strand at the front. -/
def State.ring (s : State) (near : Bool) : RingAlloc :=
  if near then s.nring s.cur.sys.ctx.toNat s.curDie else s.cur.lring

def State.setRing (s : State) (near : Bool) (r : RingAlloc) : State :=
  if near then s.setNring s.cur.sys.ctx.toNat s.curDie r else s.setCur fun t => { t with lring := r }

/-- Free a held handle (R179); an alias frees the handle only (R394). -/
def State.freeTile (s : State) (h : Nat) : State :=
  match s.cur.tile? h with
  | none => s
  | some t =>
    let s := s.setCur fun u => { u with tiles := SMap.del u.tiles h }
    if t.ro then s else s.setRing t.near ((s.ring t.near).release (s.cur.key, h))

/-- At ENDED: N tiles in ascending handle order, then the L ring empties (R183). -/
def State.freeTiles (s : State) : State :=
  let s := (SMap.keys s.cur.tiles).foldl State.freeTile s
  s.setCur fun t => { t with tiles := [], lring := .empty t.lring.size }

/-! ### The range scoreboard (R187, R188) -/

/-- Entries that a strand's operations use, and its nests that write a tile (R187, R265). -/
def Strand.entries (t : Strand) : Nat :=
  ((t.ops.filter fun o => !o.done).map fun o => o.touch.length).foldl (· + ·) 0 +
    ((t.nest.toList ++ t.pend.toList).filter fun n => n.cfg.epi.kind == 2).length

/-- Entries in use on a core: both slots'. -/
def State.scoreboard (s : State) (core : Nat) : Nat :=
  ((s.strands.filter fun e => keyCore e.1 == core).map fun e => e.2.entries).foldl (· + ·) 0

def Touch.overlaps (a b : Touch) : Bool := a.h == b.h && a.half == b.half && decide (a.lo < b.hi) && decide (b.lo < a.hi)

/-- What an index of a nest can add to its base over all steps, or over the steps with last = 1 (R257). -/
def levelOffsets (step : NestLevel → Int) (last : Bool) (lv : List NestLevel) : List Int :=
  lv.foldl (fun acc l =>
    let own : List Int :=
      if step l = 0 then [0]
      else if last && l.k then [((l.count : Int) - 1) * step l]
      else tab (min l.count 64) fun i => (i : Int) * step l
    ((acc.map fun a => own.map fun b => a + b).flatten).eraseDups) [0]

/-- Bytes of a row of 64 output elements (R265). -/
def Epi.rowOut (e : Epi) : Nat := 8 * codeBits e.ofmt

/-- Data offsets in a KIND 2 destination where the nest's output blocks begin. -/
def NestCfg.tileStarts (c : NestCfg) : List Int :=
  (levelOffsets NestLevel.sc true c.lv).map fun d => ((c.epi.dest.toNat / 2 ^ 32 : Nat) : Int) + d * c.epi.dstep.toInt

/-- Rows of its destination tile that a nest can write (R265). -/
def Strand.nestTouch (t : Strand) (n : Nest) : List Touch :=
  if n.cfg.epi.kind ≠ 2 then []
  else match t.tile? (n.cfg.epi.dest.toNat % 128) with
    | none => []
    | some v => n.cfg.tileStarts.map fun b =>
        ⟨n.cfg.epi.dest.toNat % 128, v.half, b.toNat / v.rb, (b.toNat + 63 * v.rb + n.cfg.epi.rowOut - 1) / v.rb + 1, true⟩

def Strand.nests (t : Strand) : List Nest := t.nest.toList ++ t.pend.toList

/-- Whether an engine's access to rows of the front half must stall: an entry overlaps them that was there before this
period. -/
def State.rowsBusy (s : State) (h lo hi : Nat) : Bool :=
  match s.cur.tile? h with
  | none => false
  | some v =>
    let want : Touch := ⟨h, v.half, lo, hi, false⟩
    (s.cur.ops.any fun o => !o.done && decide (o.issued < s.clock) && o.touch.any fun k => k.overlaps want) ||
    (s.cur.nests.any fun n => decide (n.issued < s.clock) && (s.cur.nestTouch n).any fun k => k.overlaps want)

/-- Whether an earlier operation or nest stands in the way of the rows that operation id wants. -/
def Strand.copyBlocked (t : Strand) (id : Nat) (want : List Touch) : Bool :=
  let since := match t.ops.find? fun o => o.id == id with | some o => o.issued | none => 0
  let hits := fun (k : Touch) => want.any fun w => k.overlaps w && (k.wr || w.wr)
  (t.ops.any fun o => !o.done && decide (o.id < id) && o.touch.any hits) ||
    (t.nests.any fun n => decide (n.issued < since) && (t.nestTouch n).any hits)

/-- Whether an operation names a tile: it touches its rows, or it is a chain whose entries lie there. -/
def AsyncOp.names (o : AsyncOp) (h : Nat) : Bool :=
  (o.touch.any fun k => k.h == h) ||
    match o.kind with
    | .chain c => [c.addr, c.resume].any fun a => match a with | .tile k _ => k == h | .mem _ => false
    | _ => false

/-- Operations in flight that name a tile (R176, R196). -/
def Strand.naming (t : Strand) (h : Nat) : Nat :=
  (t.ops.filter fun o => !o.done && o.names h).length +
    (t.nests.filter fun n => n.cfg.epi.kind == 2 && n.cfg.epi.dest.toNat % 128 == h).length

/-! ### Handles: R194 to R197 -/

/-- Whether a cancelled attempt held handle h with this mark (R305). -/
def Strand.marked (t : Strand) (h : Nat) : Bool := t.ph.marks.contains h
def Strand.unmark (t : Strand) (h : Nat) : Strand := { t with ph := { t.ph with marks := t.ph.marks.erase h } }

def execTalloc (r : Ring) (o : F3) (x : XH) (s : State) : Out :=
  let near := flag x.op 13
  issue (r.issue .a 0x60 2 (handleSrcs o.a (some x) ++ [o.b]) [] (if near then 8 else 2)) (fun vs =>
    let (hv, vs) := handleArg (some x) vs
    (handleNo hv).bind fun h => Act.get.bind fun s =>
    if (s.cur.tile? h).isSome then badHandle hv
    else
      let rows := vs.headD 0
      (Act.check (decide (1 ≤ rows.toNat) && decide (rows.toNat ≤ 65535)) tRANGE [rows]).andThen <|
      let n := rows.toNat
      let rbu := getBits x.op 0 8
      let sc := flag x.op 12
      let ds := flag x.op 11
      let db := flag x.op 10
      let hdr := headerBytes n (rowBytes rbu) sc ds
      let cells := tileCells hdr n (rowBytes rbu) db
      match (s.ring near).alloc cells (s.cur.key, h) with
      | none => Act.trap tEXHAUST ((s.ring near).exhaustArgs cells near)
      | some (start, ring) =>
        let v : Tile := ⟨near, sc, ds, db, false, 0, n, rbu, hdr, start, false, .fresh s.free, .fresh (s.free + 1)⟩
        (Act.modify fun s => State.setCur (State.setRing { s with free := s.free + 2 } near ring) fun t =>
          { (t.setTile h v).unmark h with ph := { (t.unmark h).ph with allocs := (t.ph.allocs.erase h) ++ [h] } }).andThen noResult) s

/-- Wait until nothing in flight names the tile (R196). -/
def tileQuiet (h : Nat) : Act Unit := Act.get.bind fun s => Act.until (s.cur.naming h == 0) 0

/-- Record what this attempt frees or shrinks, for its replay (R305). -/
def noteFree (h rows : Nat) : Act Unit := Act.modify fun s => s.setPhase fun p => { p with frees := p.frees ++ [(h, rows)] }

/-- In a replayed attempt a marked handle that the cancelled attempt freed, or shrank to the same rows, is passed over; a
further replay passes it over again. -/
def replayed (h rows : Nat) : Act Bool := Act.get.bind fun s =>
  if s.cur.marked h ∧ s.cur.ph.gone.contains (h * 65536 + rows) then
    (Act.modify fun s => s.setCur fun t => t.unmark h).andThen (Act.pure true)
  else Act.pure false

def execTfree (r : Ring) (o : F3) (x : Option XH) (s : State) : Out :=
  issue (r.issue .a 0x61 (lenOf x) (handleSrcs o.a x) [] 1) (fun vs =>
    let hv := (handleArg x vs).1
    (handleNo hv).bind fun h => (replayed h 0).bind fun done =>
    if done then (noteFree h 0).andThen noResult
    else (heldTile hv).andThen <| (tileQuiet h).andThen <| (noteFree h 0).andThen <|
      (Act.modify fun s => State.setCur (s.freeTile h) fun t =>
        { t.unmark h with ph := { (t.unmark h).ph with allocs := t.ph.allocs.erase h } }).andThen noResult) s

def execTshrink (r : Ring) (o : F3) (x : Option XH) (s : State) : Out :=
  issue (r.issue .a 0x62 (lenOf x) (handleSrcs o.a x ++ [o.b]) [] 1) (fun vs =>
    let (hv, vs) := handleArg x vs
    let rows := vs.headD 0
    (handleNo hv).bind fun h => (replayed h (rows.toNat % 65536)).bind fun done =>
    if done ∧ 0 < rows.toNat ∧ rows.toNat < 65536 then (noteFree h rows.toNat).andThen noResult
    else (writableTile hv).bind fun p => (tileQuiet h).andThen <|
      (Act.check (decide (1 ≤ rows.toNat) && decide (rows.toNat ≤ p.2.rows)) tRANGE []).andThen <|
      (Act.check (!p.2.db) tRANGE [0, w64 0x62]).andThen <|
      (noteFree h rows.toNat).andThen <|
      (Act.modify fun s =>
        let s := s.setCur fun t => t.unmark h
        if rows.toNat = p.2.rows then s
        else
          let n := tileCells p.2.hdr rows.toNat p.2.rb false
          let s := s.setRing p.2.near ((s.ring p.2.near).shrink (s.cur.key, h) n)
          s.setCur fun t => t.setTile h { p.2 with rows := rows.toNat }).andThen noResult) s

/-- A tag that TTAG takes (R195). -/
def tileTagOk (v : Word) : Bool := decide (v.toNat < 256) && decide (getBits v 0 4 ≤ 12) && decide (getBits v 5 3 ≤ 2)

def execTtag (r : Ring) (o : F3) (x : Option XH) (s : State) : Out :=
  issue (r.issue .a 0x63 (lenOf x) (handleSrcs o.a x ++ [o.b]) [] 1) (fun vs =>
    let (hv, vs) := handleArg x vs
    let v := vs.headD 0
    (writableTile hv).bind fun p =>
    (Act.check (tileTagOk v) tSHAPE []).andThen <|
    (Act.check (getBits v 0 4 != 12 || p.2.ds) tTAGCONFLICT []).andThen <|
    (updTile p.1 fun t =>
      let t := { t with tag := v.setWidth 16 }
      if t.ds && getBits v 0 4 != 12 then
        let new := fun (h : Half) (j : Nat) => (j, (h.blockDesc j &&& 0xFFF0) ||| BitVec.ofNat 16 (getBits v 0 4))
        let f := fun (h : Half) => { h with desc := tab (t.size / 64) (new h) }
        { t with h0 := f t.h0, h1 := f t.h1 }
      else t).andThen noResult) s

/-- Selectors of TQRY that read no handle (R197). -/
def tqryPlain (sel : Nat) : Bool := (decide (7 ≤ sel) && decide (sel ≤ 11)) || sel == 13

def execTqry (r : Ring) (o : F3) (x : Option XH) (s : State) : Out :=
  let sel := o.b.toNat
  issue (r.issue .a 0x64 (lenOf x) (if tqryPlain sel then [] else handleSrcs o.a x) [.reg o.d] 1) (fun vs => Act.get.bind fun s =>
    let hv := (handleArg x vs).1
    let l := s.ring false
    let n := s.ring true
    match sel with
    | 6 => (handleNo hv).bind fun h => result o.d (boolWord (s.cur.tile? h).isSome)
    | 7 => result o.d (w64 (l.head % 65536 + l.tail % 65536 * 65536 + l.size * 2 ^ 32))
    | 8 => result o.d (w64 (l.size - l.used))
    | 9 => result o.d (w64 n.head)
    | 10 => result o.d (w64 n.tail)
    | 11 => result o.d (w64 (n.size - n.used))
    | 13 => result o.d s.cur.ixres
    | _ => (heldTile hv).bind fun p =>
      let t := p.2
      result o.d <| match sel with
        | 0 => w64 t.rows
        | 1 => w64 t.rb
        | 2 => w64 ((s.ring t.near).spanAt t.start)
        | 3 => t.tag.setWidth 64
        | 4 => w64 (b2n t.near + 2 * b2n t.sc + 4 * b2n t.ds + 8 * b2n t.db + 16 * b2n t.half)
        | 5 => w64 t.start
        | _ => w64 (s.cur.naming p.1)) s

/-! ### LDT and STT (R157) -/

/-- Byte offset in the tile, and a store's data behind it: the handle is the first value. -/
def tileOffset (x : Option XM) (vs : List Word) : Word :=
  match x with
  | some e => (if e.idx then vs.getD 1 0 else 0) + e.offs.signExtend 64
  | none => vs.getD 1 0

/-- The checks of an access of n bytes at offset o, and its wait. -/
def tileAccess (t : Nat × Tile) (o : Word) (n : Nat) : Act Unit :=
  (Act.check (o.toNat % n == 0) tALIGN []).andThen <|
  (Act.check (decide (o.toNat + n ≤ t.2.size)) tRANGE []).andThen <|
  Act.get.bind fun s =>
    Act.until (!s.rowsBusy t.1 (o.toNat / t.2.rb) ((o.toNat + n - 1) / t.2.rb + 1)) 0

/-- LDT takes 12 ticks from level L and 40 from level N (R156). -/
def execLdt (h : Hd) (o : F3) (x : Option XM) (s : State) : Out :=
  let near := match s.cur.readSrcs h.g [(o.a, true)] s.cur.links with
    | .ok (v :: _) _ => ((s.cur.tile? v.toNat).map Tile.near).getD false
    | _ => false
  issue { memIssue h 0x4E o x false with lat := if near then 40 else 12 } (fun vs =>
    (heldTile (vs.headD 0)).bind fun t =>
    let off := tileOffset x vs
    (tileAccess t off o.size).andThen <| (tileSound t.2 off.toNat o.size).andThen <|
    result o.d (w64 (leNat (t.2.front.bytes off.toNat o.size)))) s

def execStt (h : Hd) (o : F3) (x : Option XM) (s : State) : Out :=
  issue (memIssue h 0x4F o x true) (fun vs =>
    (writableTile (vs.headD 0)).bind fun t =>
    let off := tileOffset x vs
    (tileAccess t off o.size).andThen <| (tileHeal t.2 false off.toNat o.size).andThen <|
    Act.pure (.of [.tile t.1 off.toNat (leBytes o.size (memData x vs).toNat)])) s

end Sys2Proof.Machine
end

