-- ==== Sys2Proof/Machine/Async.lean ====
section
/-! DEFINITION. Asynchronous operations (R105): how they start, run in the units' turn, fault, complete and post their
signals. -/

namespace Sys2Proof.Machine

/-- A new operation of the strand at the front. Its number is higher than every earlier one's. -/
def State.startOp (s : State) (g : Eng) (opc : Nat) (r : Ring) (kind : OpKind) (touch : List Touch) (done : Bool) : Nat × State :=
  let id := s.cur.seq + 1
  (id, s.setCur fun t => { t with seq := id, ops := t.ops ++
    [{ id, g, opc, sp := r.sp, sn := r.sn, kind, touch, done, since := none, issued := s.clock }] })

/-- Start an operation and ask for its unit step; an operation that moves nothing is done at once. -/
def startAct (g : Eng) (opc : Nat) (r : Ring) (kind : OpKind) (touch : List Touch) (step : Option What) : Act Unit :=
  Act.modify fun s =>
    let p := s.startOp g opc r kind touch step.isNone
    match step with
    | some w => p.2.post w s.cur.key p.1
    | none => p.2

/-- Room in the core's scoreboard for n more entries (R187). -/
def scoreRoom (n : Nat) : Act Unit := Act.get.bind fun s =>
  Act.until (decide (s.scoreboard s.curCore + n ≤ Config.scoreboardEntries)) 0

def Strand.op? (t : Strand) (id : Nat) : Option AsyncOp := t.ops.find? fun o => o.id == id && !o.done

def Strand.updOp (t : Strand) (id : Nat) (f : AsyncOp → AsyncOp) : Strand :=
  { t with ops := t.ops.map fun o => if o.id = id then f o else o }

/-- The operation is complete; its signals are posted at the end of the period (R106). -/
def State.completeOp (s : State) (o : AsyncOp) : State :=
  (s.unhold o.g (some o.id)).setCur fun t => t.updOp o.id fun o => { o with done := true, touch := [] }

/-- The operation is abandoned: no signals. -/
def State.abandonOp (s : State) (o : AsyncOp) : State :=
  (s.unhold o.g (some o.id)).setCur fun t => { t with ops := t.ops.filter fun k => k.id != o.id }

/-- A trap taken at an engine's next instruction boundary; the first one stays. -/
def State.lateTrap (s : State) (g : Eng) (code : Nat) (args : List Word) : State :=
  s.setCur fun t => t.lateTrap g code args

/-- Post the signals of completed operations in issue order, as far as there is room. -/
def Strand.settleOps (t : Strand) : Strand :=
  if t.ops.all fun o => !o.done then t
  else t.ops.foldl (fun t o =>
    if o.done && t.links.canSignal o.g o.sp o.sn then { t with links := t.links.signal o.g o.sp o.sn }
    else { t with ops := t.ops ++ [o] }) { t with ops := [] }

/-- Run a step on the strand of key k at the front, and bring the former strand back. -/
def onStrand (k : Nat) (f : State → Out) (s : State) : Out :=
  match s.strand? k with
  | none => .next s
  | some _ =>
    match f (s.swapTo k) with
    | .next t => .next (t.swapTo s.cur.key)
    | o => o

/-- Take up operation id of strand k: it completes, waits for its next turn, is held or abandoned (R189, R303, R307,
R318). `after` says what completion is. -/
def runOp (k id : Nat) (step : What) (body : AsyncOp → Act Unit) (after : AsyncOp → State → State) : State → Out :=
  onStrand k fun s =>
    match s.cur.op? id with
    | none => .next s
    | some o =>
      match body o s with
      | .ok _ u => .next (after o u)
      | .stop (.wait _ u) => .next (u.postOnce step k id)
      | .stop (.fault f u) => .next ((u.phaseFault o.g (some id) f o.opc).postOnce step k id)
      | .stop (.trap code args) => .next ((s.abandonOp o).lateTrap o.g code args)
      | .stop (.uncorr st va u) => .next (u.uncorr st va)
      | .stop (.lost va us) => .next ((s.abandonOp o).lateTrap o.g tTIMEOUT (s.cur.timeoutArgs va o.opc us))
      | .stop .absent => .fault .absentMemory

def completes (o : AsyncOp) (s : State) : State := s.completeOp o

end Sys2Proof.Machine
end

