-- ==== Sys2Proof/Machine/Copy.lean ====
section
/-! DEFINITION. Copies between tiles, slots and memory: TCOPY, TGATH, TSCAT, TSLOT, TWARM, TBLK (R185, R186, R189 to
R191, R198 to R202) and the unit steps that complete them. -/

namespace Sys2Proof.Machine

/-! ### Rows of a layout (R166, R190, R191) -/

def Layout.e (l : Layout) (i : Nat) : Nat := (l.ext.getD i 0).toNat

/-- Stored bytes of a row: R198, and R191 for SPC 1. -/
def Layout.rowLen (l : Layout) : Nat :=
  if tagSpc l.tag = 1 then l.e 0 * l.bits / 16 + l.e 0 / 8 else l.e 0 * l.bits / 8

/-- The checks that every consumer makes of the extents (R167). -/
def Layout.extOk (l : Layout) : Bool := l.e 0 * l.bits % 8 == 0 && (l.lay != 2 || (l.e 0 % 64 == 0 && l.e 1 % 64 == 0))

/-- Those that a copy makes: of SPC 1 rows as well (R191). -/
def Layout.shapeOk (l : Layout) : Bool := l.extOk && (tagSpc l.tag != 1 || l.e 0 % 64 == 0)

/-- Rows per block of a paged layout. -/
def Layout.blockRows (l : Layout) : Nat := (l.stride 3).toNat

def Layout.pagedOk (l : Layout) : Bool :=
  decide (l.rank.toNat ≤ 3) && decide (1 ≤ l.blockRows) && decide (l.blockRows ≤ 65536) && 2 ^ Nat.log2 l.blockRows == l.blockRows

/-- A run of a row's bytes: offset in the row, where it is (none: it reads as zero), length. -/
structure Run where
  off : Nat
  va  : Option Word
  n   : Nat
  deriving DecidableEq, Repr

/-- Runs of row (i1, j2, j3) of a tiled layout: 64 elements of each tile, as far as the stored row goes; an SPC 1 row fills
the first of them (DESIGN CHOICE, assumption log 44). -/
def tiledRuns (l : Layout) (i1 j2 j3 : Nat) : List Run :=
  let w := 8 * l.bits
  tab (l.e 0 / 64) fun c => ⟨c * w, some (l.base + w64 (i1 / 64) * l.stride 1 + w64 (c * 512 * l.bits) +
    w64 j2 * l.stride 2 + w64 j3 * l.stride 3 + w64 (i1 % 64 * w)), min w (l.rowLen - c * w)⟩

/-- Blocks in a row of blocks of a block-sparse layout. -/
def blockCols (l : Layout) : Nat := (l.e 0 + 63) / 64

/-- Bytes of the bitmap, and set bits before bit k. -/
def bitmapBytes (l : Layout) : Nat := ((l.e 1 + 63) / 64 * blockCols l + 7) / 8
def bitAt (m : List Byte) (k : Nat) : Bool := (m.getD (k / 8) 0).getLsbD (k % 8)
def bitsBefore (m : List Byte) : Nat → Nat
  | 0 => 0
  | k + 1 => b2n (bitAt m k) + bitsBefore m k

/-- Runs of row i1 of a block-sparse layout with its bitmap read: absent blocks are zero. -/
def sparseRuns (l : Layout) (m : List Byte) (i1 j2 j3 : Nat) : List Run :=
  let w := 8 * l.bits
  let data := (bitmapBytes l + 63) / 64 * 64
  tab (blockCols l) fun bj =>
    let k := i1 / 64 * blockCols l + bj
    ⟨bj * w, if bitAt m k then some (l.base + w64 j2 * l.stride 2 + w64 j3 * l.stride 3 +
        w64 (data + bitsBefore m k * 64 * w + i1 % 64 * w)) else none, min w (l.rowLen - bj * w)⟩

/-- Where row i1 lies; none when its block-table entry names no block. -/
def rowRuns (l : Layout) (i1 j2 j3 : Nat) : Act (Option (List Run)) :=
  let rl := l.rowLen
  if l.lay = 3 then
    (loadBytes (l.offs + w64 (8 * (i1 / l.blockRows))) 8).bind fun b =>
    let e := leNat b
    if e = 0 ∨ e % 64 ≠ 0 then Act.pure none
    else Act.pure (some [⟨0, some (w64 e + l.base + w64 (i1 % l.blockRows) * l.stride 1 + w64 j2 * l.stride 2), rl⟩])
  else if tagSpc l.tag = 2 then
    (loadBytes (l.base + w64 j2 * l.stride 2 + w64 j3 * l.stride 3) (bitmapBytes l)).bind fun m =>
    Act.pure (some (sparseRuns l m i1 j2 j3))
  else if l.lay = 2 then Act.pure (some (tiledRuns l i1 j2 j3))
  else Act.pure (some [⟨0, some (l.base + w64 i1 * l.stride 1 + w64 j2 * l.stride 2 + w64 j3 * l.stride 3), rl⟩])

/-- The VA of byte off of a row. -/
def runAddr (rs : List Run) (off : Nat) : Option Word :=
  match rs.find? fun r => decide (r.off ≤ off) && decide (off < r.off + r.n) with
  | some r => r.va.map fun v => v + w64 (off - r.off)
  | none => none

/-! ### Sidecars and tags (R185, R186) -/

/-- The sequence that row i1 lies in. -/
def sequenceOf (offs : List Nat) (i1 : Nat) : Option (Nat × Nat) :=
  (offs.zip (offs.drop 1)).zipIdx.findSome? fun p =>
    if p.1.1 ≤ i1 ∧ i1 < p.1.2 then some (p.2, p.1.1) else none

def Layout.sidecarOf (l : Layout) (offs : List Nat) (i1 : Nat) : W32 :=
  if l.ragged then
    match sequenceOf offs i1 with
    | some (i, lo) => BitVec.ofNat 32 ((if l.segids then i % 65536 else 0) * 65536 + (i1 - lo) % 65536)
    | none => padding
  else BitVec.ofNat 32 (i1 % 65536)

/-- The descriptor of a block written from a source that has none: a scaled tag has scale 1 (R37). -/
def plainDesc (fmt : Nat) (scaled : Bool) : W16 := BitVec.ofNat 16 (fmt + (if scaled then 16 + 0x78 * 256 else 0))

/-- Effect of a typed write on a tile's tag at issue (R186): the new tag, and whether its completion settles FMT; none
is TAGCONFLICT. -/
def Tile.retag (t : Tile) (fmt : Nat) (scaled : Bool) (spc : Nat) (described : Bool) : Option (W16 × Bool) :=
  if described && !t.ds then none
  else if tagFmt t.tag = 0 then some (tagOf fmt scaled (if spc = 2 then 0 else spc), false)
  else if tagFmt t.tag = fmt ∧ tagScaled t.tag = scaled ∧ !described then some (t.tag, false)
  else if t.ds then some (tagOf 12 false (tagSpc t.tag), true)
  else none

/-- The descriptors of a tile's halves. -/
def Tile.allDescs (t : Tile) : List W16 :=
  tab (t.size / 64) t.h0.blockDesc ++ (if t.db then tab (t.size / 64) t.h1.blockDesc else [])

/-- When every descriptor of the tile holds one format and SCALED, the tag takes them. -/
def Tile.settleTag (t : Tile) : Tile :=
  let d := t.allDescs.headD 0
  if t.ds && tagFmt t.tag == 12 &&
      t.allDescs.all fun k => descFmt k == descFmt d && descScaled k == descScaled d
  then { t with tag := tagOf (descFmt d) (descScaled d) (tagSpc t.tag) }
  else t

/-- Whether a tile may be copied to a layout (R186). -/
def Tile.mayStore (t : Tile) (l : Layout) : Bool :=
  (tagFmt l.tag == tagFmt t.tag || (l.described && t.ds)) &&
    (l.described || !t.ds ||
      (tab (t.size / 64) t.blockDesc).all fun d => descFmt d == tagFmt l.tag && !descScaled d)

/-- Alignment of a described layout's rows (R186). -/
def Layout.describedOk (l : Layout) : Bool :=
  !l.described || (l.base.toNat % 64 == 0 && (l.stride 1).toNat % 64 == 0 &&
    (l.lay == 3 || ((l.stride 2).toNat % 64 == 0 && (l.stride 3).toNat % 64 == 0)))

/-! ### Checks at issue (R198, R199) -/

/-- Read the offsets vector of a ragged layout whole: badly formed raises RAGGED (R169). -/
def offsetsOf (l : Layout) : Act (List Nat) :=
  if !l.ragged then Act.pure []
  else (loadBytes l.offs (4 * (l.e 2 + 1))).bind fun b =>
    let offs := tab (l.e 2 + 1) fun i => field b (4 * i) 4
    (Act.check (((offs.zip (offs.drop 1)).all fun p => decide (p.1 ≤ p.2)) && decide (offs.getLastD 0 ≤ l.e 1)) tRAGGED []).andThen
      (Act.pure offs)

/-- What a row operation captures: the window of shape register sh. -/
structure Win where
  f  : Nat
  n  : Nat
  j2 : Nat
  j3 : Nat
  deriving DecidableEq, Repr

def windowOf (sh : Nat) : Act Win := Act.get.bind fun s =>
  let e := fun k => (s.cur.ext sh k).toNat
  Act.pure ⟨e 0, e 1, e 2, e 3⟩

/-- The checks of a row operation up to the tags: which layout codes it takes, whether rows must lie below e1. -/
def rowChecks (t : Tile) (row : Word) (w : Win) (l : Layout) (lays : List Nat) (inside store : Bool) : Act (List Nat) :=
  (Act.check (lays.contains l.lay && l.shapeOk && (l.lay != 3 || l.pagedOk) && !(store && tagSpc l.tag == 2)) tSHAPE []).andThen <|
  (Act.check (decide (l.rowLen ≤ t.rb)) tSHAPE []).andThen <|
  (Act.check (decide (row.toNat + w.n ≤ t.rows)) tRANGE []).andThen <|
  (Act.check (!inside || decide (w.f + w.n ≤ l.e 1)) tRANGE []).andThen <|
  offsetsOf l

/-- Issue a row operation: its tag checks and its scoreboard entries. -/
def startRows (g : Eng) (opc : Nat) (ring : Ring) (store : Bool) (t : Tile) (r : RowOp) (extra : List Touch) : Act Unit :=
  (if store then Act.check (t.mayStore r.lay) tTAGCONFLICT []
   else Act.check (t.retag (tagFmt r.lay.tag) (tagScaled r.lay.tag) (tagSpc r.lay.tag) r.lay.described).isSome tTAGCONFLICT []).andThen <|
  (Act.check r.lay.describedOk tALIGN [r.lay.base]).andThen <|
  (scoreRoom (1 + extra.length)).andThen <|
  let half := if store then t.half else t.half != t.db
  let touch : List Touch := ⟨r.h, half, r.row, r.row + r.n, !store⟩ :: extra
  let mixed := match t.retag (tagFmt r.lay.tag) (tagScaled r.lay.tag) (tagSpc r.lay.tag) r.lay.described with
    | some (tag, m) => (tag, m)
    | none => (t.tag, false)
  (if store || r.n == 0 then Act.pure () else updTile r.h fun v => { v with tag := mixed.1 }).andThen <|
  startAct g opc ring (if store then .store r else .load r mixed.2) touch (if r.n = 0 then none else some .copyComplete)

/-- XH fields of a row operation: layout slot and shape register. -/
def xhLy (x : XH) : Nat := getBits x.op 10 3
def xhSh (x : XH) : Nat := getBits x.op 6 4

def execTcopy (r : Ring) (o : F3) (x : XH) (s : State) : Out :=
  let store := flag x.op 13
  issue { r.issue .a 0x65 2 (handleSrcs o.a (some x) ++ [o.b]) ([.ly (xhLy x), .sh (xhSh x)] ++ s.cur.bound (xhLy x)) 1 with async := true } (fun vs =>
    let (hv, vs) := handleArg (some x) vs
    let row := vs.headD 0
    (if store then heldTile hv else writableTile hv).bind fun p => (layoutOf (xhLy x)).bind fun k => (windowOf (xhSh x)).bind fun w =>
    (rowChecks p.2 row w k.lay [0, 2, 4] true store).bind fun offs =>
    (startRows .a 0x65 r store p.2 ⟨k.lay, xhLy x, w.f, w.n, w.j2, w.j3, p.1, row.toNat, offs, false, none⟩ []).andThen noResult) s

/-- TGATH and TSCAT (R199). -/
def gatherRows (r : Ring) (opc : Nat) (o : F3) (x : XH) (store : Bool) (s : State) : Out :=
  let indexed := flag x.op 13
  issue { r.issue .a opc 2 (handleSrcs o.a (some x) ++ [o.b]) ([.ly (xhLy x), .sh (xhSh x)] ++ s.cur.bound (xhLy x)) 1 with async := true } (fun vs =>
    let (hv, vs) := handleArg (some x) vs
    let row := vs.headD 0
    (if store then heldTile hv else writableTile hv).bind fun p => (layoutOf (xhLy x)).bind fun k => (windowOf (xhSh x)).bind fun w =>
    (rowChecks p.2 row w k.lay (if indexed then [0, 2, 3, 4] else [3]) (!indexed) store).bind fun offs =>
    (if indexed then (heldTile (x.hb.setWidth 64)).bind fun q =>
        (Act.check (tagFmt q.2.tag == 11) tTAGCONFLICT []).andThen <|
        (Act.check (decide (4 * (w.f + w.n) ≤ q.2.size)) tRANGE []).andThen <|
        Act.pure [⟨q.1, q.2.half, 4 * w.f / q.2.rb, (4 * (w.f + w.n) + q.2.rb - 1) / q.2.rb, false⟩]
     else Act.pure []).bind fun extra =>
    (startRows .a opc r store p.2 ⟨k.lay, xhLy x, w.f, w.n, w.j2, w.j3, p.1, row.toNat, offs, true,
      if indexed then some x.hb.toNat else none⟩ extra).andThen noResult) s

def execTgath (r : Ring) (o : F3) (x : XH) (s : State) : Out := gatherRows r 0x67 o x false s
def execTscat (r : Ring) (o : F3) (x : XH) (s : State) : Out := gatherRows r 0x68 o x true s

/-! ### The transfers -/

/-- A row number that a gather picks: none at or above e1; such a number other than 0xFFFFFFFF counts. -/
def picked (l : Layout) (i : Nat) : Option Nat × Bool :=
  if i = 0xFFFFFFFF ∨ l.e 1 ≤ i then (none, i != 0xFFFFFFFF) else (some i, false)

/-- Row r of the window as a row of the layout: none when it has no source by its number. -/
def RowOp.index (r : RowOp) (t : Strand) (k : Nat) : Option Nat × Bool :=
  let i := match r.hb with
    | some h => match t.tile? h with
      | some v => leNat (v.front.bytes (4 * (r.f + k)) 4)
      | none => 0xFFFFFFFF
    | none => r.f + k
  if r.pick then picked r.lay i else (some i, false)

/-- A row with its place: none has no source; whether it counts under GATHER_NOSRC. -/
structure RowAt where
  k    : Nat
  i1   : Nat
  runs : Option (List Run)
  lost : Bool
  deriving DecidableEq, Repr

/-- The rows of a window from their numbers. -/
def rowsAt (l : Layout) (j2 j3 n : Nat) (index : Nat → Option Nat × Bool) : Act (List RowAt) :=
  Act.map (fun k =>
    match index k with
    | (none, lost) => Act.pure ⟨k, 0, none, lost⟩
    | (some i, _) => (rowRuns l i j2 j3).bind fun rs => Act.pure ⟨k, i, rs, rs.isNone⟩) (tab n id)

/-- The read of the tile whose elements name the rows. -/
def RowOp.indexSound (r : RowOp) : Act Unit := Act.get.bind fun s =>
  match r.hb.bind s.cur.tile? with
  | some v => tileSound v (4 * r.f) (4 * r.n)
  | none => Act.pure ()

def RowOp.rows (r : RowOp) : Act (List RowAt) :=
  r.indexSound.andThen <| Act.get.bind fun s => rowsAt r.lay r.j2 r.j3 r.n (r.index s.cur)

/-- Descriptor of the aligned block at a VA; a page that is not described gives a free value (assumption log 12). -/
def descOf (va : Word) : Act W16 :=
  (xlate va .read).bind fun x => Act.get.bind fun s =>
    if x.desc then Act.pure (s.descAt (x.pa / 64 * 64))
    else (Act.modify fun s => { s with free := s.free + 1 }).andThen (Act.pure (Config.freeDesc s.free 0))

/-- The ranges of memory that a row's runs read. -/
def runRanges (rs : List Run) : List Piece := rs.filterMap fun r => r.va.map fun v => (v, r.n)

/-- Fill a row's bytes from the ranges read. -/
def fillRuns : List Run → List (List Byte) → List Byte
  | [], _ => []
  | r :: rs, bs =>
    match r.va, bs with
    | some _, b :: rest => b ++ fillRuns rs rest
    | _, bs => List.replicate r.n 0 ++ fillRuns rs bs

/-- A row as read: its bytes, sidecar and block descriptors. -/
structure RowData where
  k     : Nat
  bytes : List Byte
  side  : W32
  descs : List W16
  deriving DecidableEq, Repr

def blocksOf (n : Nat) : Nat := (n + 63) / 64

/-- Read one row; a row with no source is zero and padding. -/
def readRow (l : Layout) (offs : List Nat) (a : RowAt) : Act RowData :=
  let nb := blocksOf l.rowLen
  let d := plainDesc (tagFmt l.tag) (tagScaled l.tag)
  match a.runs with
  | none => Act.pure ⟨a.k, List.replicate l.rowLen 0, padding, List.replicate nb d⟩
  | some rs =>
    (loadRanges (runRanges rs)).bind fun bs =>
    (if l.described then Act.map (fun j => match runAddr rs (64 * j) with
        | some va => descOf va
        | none => Act.pure d) (tab nb id)
     else Act.pure (List.replicate nb d)).bind fun ds =>
    Act.pure ⟨a.k, fillRuns rs bs, l.sidecarOf offs a.i1, ds⟩

/-- Write rows into the half of a tile that copies write. -/
def Tile.putRow (t : Tile) (row : Nat) (d : RowData) : Tile :=
  let h := t.copyHalf.put ((row + d.k) * t.rb) d.bytes
  let h := if t.sc then { h with side := SMap.set h.side (row + d.k) d.side } else h
  t.setCopyHalf (if t.ds then { h with desc := SMap.puts h.desc ((row + d.k) * t.rb / 64) d.descs } else h)

/-- Count rows that had no source (R199). -/
def countLost (rs : List RowAt) : Act Unit :=
  Act.modify fun s => s.countCur 0x045 none (rs.filter RowAt.lost).length

/-- Writes of rows clear the errors of the words that they cover (R314). -/
def healRows (h row : Nat) (ds : List RowData) : Act Unit :=
  Act.each (fun (d : RowData) => Act.get.bind fun s =>
    match s.cur.tile? h with
    | some t => tileHeal t true ((row + d.k) * t.rb) d.bytes.length
    | none => Act.pure ()) ds

/-- A load: every row read, then written into the tile (R198, R199). -/
def loadFrom (l : Layout) (offs : List Nat) (rows : List RowAt) (h row : Nat) (mixed : Bool) : Act Unit :=
  (Act.map (readRow l offs) rows).bind fun ds =>
  (countLost rows).andThen <| (healRows h row ds).andThen <| updTile h fun t =>
    let t := ds.foldl (fun t d => t.putRow row d) t
    if mixed then t.settleTag else t

def loadRows (r : RowOp) (mixed : Bool) : Act Unit := r.rows.bind fun rows => loadFrom r.lay r.offs rows r.h r.row mixed

/-- The pieces that a tile row stores to a layout row. -/
def rowStores (l : Layout) (t : Tile) (row : Nat) (a : RowAt) : List StorePiece :=
  match a.runs with
  | none => []
  | some rs => (rs.map fun r =>
    match r.va with
    | none => []
    | some v =>
      let start := (row + a.k) * t.rb
      (storePieces v (t.front.bytes (start + r.off) r.n)).map fun p =>
        let off := r.off + (p.va - v).toNat
        { p with desc := if l.described then some (t.blockDesc (start / 64 + off / 64)) else none }).flatten

/-- Blocks of other formats written through a slot mark it (R351); a row without a destination writes none. -/
def markSlot (r : RowOp) (t : Tile) (rows : List RowAt) : Act Unit := Act.modify fun s => s.setCur fun u =>
  let nb := blocksOf r.lay.rowLen
  let odd := (rows.filter fun a => a.runs.isSome).any fun a => (tab nb id).any fun j =>
    descFmt (t.blockDesc ((r.row + a.k) * t.rb / 64 + j)) != tagFmt r.lay.tag
  if r.lay.described && odd then
    { u with ly := upd u.ly r.ly fun k => k.map fun (v : LySlot) =>
        if v.lay.base = r.lay.base ∧ v.lay.described then
          { v with lay := { v.lay with tag := (v.lay.tag &&& 0xFFF0) ||| 12 }, marked := true }
        else v }
  else u

/-- The reads of a store: every row of the tile that has a destination. -/
def storeSound (r : RowOp) (t : Tile) (rows : List RowAt) : Act Unit :=
  rowsSound t ((rows.filter fun a => a.runs.isSome).map fun a => r.row + a.k) 0 r.lay.rowLen

/-- A store: every row into the phase store buffer. -/
def storeRows (r : RowOp) : Act Unit :=
  r.rows.bind fun rows => Act.get.bind fun s =>
    match s.cur.tile? r.h with
    | none => Act.pure ()
    | some t =>
      (storeSound r t rows).andThen <|
      (storeAll (rows.map (rowStores r.lay t r.row)).flatten).andThen <| (countLost rows).andThen <| markSlot r t rows

/-- Whether a copy that was issued earlier is not complete: copies are performed in their issue order (R275; one copy engine
serves a strand, DESIGN CHOICE, assumption log 44). -/
def Strand.copyBefore (t : Strand) (id : Nat) : Bool :=
  t.ops.any fun o => !o.done && decide (o.id < id) && match o.kind with | .load .. | .store .. => true | _ => false

/-- COPY_COMPLETE: TCOPY, TGATH or TSCAT does its transfer, once earlier operations leave its rows (R188). -/
def execCopyComplete (k op : Nat) (s : State) : Out :=
  runOp k op .copyComplete (fun o => Act.get.bind fun s =>
    (Act.until (!s.cur.copyBlocked o.id o.touch && !s.cur.copyBefore o.id) 0).andThen <|
    match o.kind with
    | .load r mixed => loadRows r mixed
    | .store r => storeRows r
    | _ => Act.pure ()) completes s

/-! ### TSLOT (R200, R247 to R249) -/

def OpSlot.free : OpSlot := ⟨.free, none, 0, .fresh 0, false⟩

/-- The 64 operand slots of a core. -/
def State.slots (s : State) (core : Nat) : List OpSlot := SMap.getD s.work.cores core (List.replicate 64 .free)

def State.slot (s : State) (core n : Nat) : OpSlot := (s.slots core).getD n .free

def State.setSlot (s : State) (core n : Nat) (f : OpSlot → OpSlot) : State :=
  { s with work := { s.work with cores := SMap.set s.work.cores core (upd (s.slots core) n f) } }

/-- Change a slot of the core, whose contents and tag are no longer readable (R248): both are free values. -/
def State.loseSlot (s : State) (n : Nat) (f : OpSlot → OpSlot) : State :=
  State.setSlot { s with free := s.free + 1 } s.curCore n fun v => f { v with tag := Config.freeDesc s.free 0, body := .fresh s.free }

def OpSlot.heldBy (o : OpSlot) (key : Nat) : Bool := o.holder == some key && o.st != .free

def execTslot (r : Ring) (o : F3) (x : Option XH) (s : State) : Out :=
  let t := match x with | some e => flag e.op 13 | none => false
  issue { r.issue .a 0x66 (lenOf x) (handleSrcs o.a x ++ [o.b, o.d]) [] 1 with async := true } (fun vs =>
    let (hv, vs) := handleArg x vs
    let b := vs.headD 0
    let org := vs.getD 1 0
    let row0 := getBits org 0 16
    let col0 := getBits org 16 16
    (heldTile hv).bind fun p => Act.get.bind fun s =>
    let slot := s.slot s.curCore b.toNat
    let bits := codeBits (tagFmt p.2.tag)
    let rows := if t then 1024 / bits else 64
    (Act.check (decide (org.toNat < 2 ^ 32)) tRANGE []).andThen <|
    (Act.check (decide (b.toNat ≤ 63)) tRANGE []).andThen <|
    (Act.check (slot.heldBy s.cur.key) tSLOT []).andThen <|
    (Act.check (col0 % 64 == 0) tALIGN []).andThen <|
    (Act.check (tagFmt p.2.tag != 0) tTAGCONFLICT []).andThen <|
    (Act.check (!t || bits == 8 || bits == 16) tRANGE []).andThen <|
    (Act.check (!t || (!p.2.ds && !tagScaled p.2.tag)) tTAGCONFLICT []).andThen <|
    (Act.until (slot.st == .claimed || slot.st == .full) 0).andThen <|
    (scoreRoom 1).andThen <|
    (Act.modify fun s => s.loseSlot b.toNat fun v => { v with st := .filling, filled := true }).andThen <|
    (startAct .a 0x66 r (.fill b.toNat p.1 row0 col0 t p.2.tag) [⟨p.1, p.2.half, row0, row0 + rows, false⟩] (some .slotFillComplete)).andThen
      noResult) s

/-- Bytes of a tile row from column c; past ROWS or RB they read as zero. -/
def Tile.window (t : Tile) (row c n : Nat) : List Byte :=
  tab n fun i => if row < t.rows ∧ c + i < t.rb then t.front.byte (row * t.rb + c + i) else 0

/-- Element e of a tile row in units of w bytes, as bytes. -/
def Tile.element (t : Tile) (row e w : Nat) : List Byte := t.window row (e * w) w

/-- Where an operand slot lies in the addresses that a scrub gives (assumption log 42). -/
def slotSpot (core n : Nat) : Nat := spot core (n * 65536)

/-- What a fill puts into a slot. A block of a DS tile beyond ROWS or RB, of which the rule says nothing, takes the format of
the tile's tag, as a block of any other tile does (DESIGN CHOICE, assumption log 44). -/
def Tile.slotBody (t : Tile) (row0 col0 : Nat) (transposed : Bool) : Half :=
  let plain := BitVec.ofNat 16 (tagFmt t.tag)
  if transposed then
    let w := codeBits (tagFmt t.tag) / 8
    let kk := 128 / w
    { seed := 0,
      data := (tab 64 fun j => (tab kk fun k => t.element (row0 + k) (col0 / w + j) w).flatten).flatten.zipIdx.map fun e => (e.2, e.1),
      side := tab 64 fun j => (j, BitVec.ofNat 32 j), desc := tab 128 fun j => (j, plain) }
  else
    { seed := 0,
      data := (tab 64 fun j => t.window (row0 + j) col0 128).flatten.zipIdx.map fun e => (e.2, e.1),
      side := tab 64 fun j => (j, if row0 + j < t.rows then t.sidecar (row0 + j) else padding),
      desc := tab 128 fun j =>
        let row := row0 + j / 2
        let c := col0 + 64 * (j % 2)
        (j, if t.ds && decide (row < t.rows) && decide (c < t.rb) then t.front.blockDesc (row * t.rb / 64 + c / 64) else plain) }

/-- The reads of a fill: the rows of its square, of the tile at the tag it takes. -/
def fillSound (t : Tile) (row0 col0 : Nat) (transposed : Bool) (tag : W16) : Act Unit :=
  if transposed then rowsSound t (tab (1024 / codeBits (tagFmt tag)) (row0 + ·)) col0 (8 * codeBits (tagFmt tag))
  else rowsSound t (tab 64 (row0 + ·)) col0 128

/-- SLOT_FILL_COMPLETE. -/
def execSlotFillComplete (k op : Nat) (s : State) : Out :=
  runOp k op .slotFillComplete (fun o => Act.get.bind fun s =>
    (Act.until (!s.cur.copyBlocked o.id o.touch) 0).andThen <|
    match o.kind with
    | .fill slot h row0 col0 t tag =>
      (match s.cur.tile? h with
       | some v => (fillSound v row0 col0 t tag).andThen <|
          Act.modify fun s => State.setSlot (s.heal .operand (slotSpot s.curCore slot) 8192) s.curCore slot fun e =>
          { e with st := .full, tag := tag &&& 0xF8FF, body := Tile.slotBody { v with tag } row0 col0 t }
       | none => Act.pure ())
    | _ => Act.pure ()) completes s

/-! ### TWARM (R201) -/

/-- Pages that a range touches. -/
def pagesOf (p : Piece) : List Word :=
  if p.2 = 0 then [] else
    let lo := p.1.toNat / 65536
    tab ((p.1.toNat + p.2 - 1) / 65536 - lo + 1) fun i => w64 ((lo + i) * 65536)

def addNew (l : List Word) (v : Word) : List Word := if l.contains v then l else l ++ [v]

/-- Pages of the tables that the rows need. -/
def tablePages (l : Layout) (w : Win) : List Word :=
  if l.lay = 3 then pagesOf (l.offs + w64 (8 * (w.f / l.blockRows)), 8 * ((w.f + w.n - 1) / l.blockRows - w.f / l.blockRows + 1))
  else if l.ragged then pagesOf (l.offs, 4 * (l.e 2 + 1))
  else if tagSpc l.tag = 2 then pagesOf (l.base, bitmapBytes l)
  else []

def execTwarm (r : Ring) (o : F3) (x : XH) (s : State) : Out :=
  let _ := o
  issue { r.issue .a 0x69 2 [] ([.ly (xhLy x), .sh (xhSh x)] ++ s.cur.bound (xhLy x)) 1 with async := true } (fun _ =>
    (layoutOf (xhLy x)).bind fun k => (windowOf (xhSh x)).bind fun w =>
    (Act.check (k.lay.extOk && (k.lay.lay != 3 || k.lay.pagedOk)) tSHAPE []).andThen <|
    (startAct .a 0x69 r (.warm ⟨k.lay, xhLy x, w.f, w.n, w.j2, w.j3, 0, 0, [], false, none⟩
      (if w.n = 0 then [] else tablePages k.lay w)) [] (if w.n = 0 then none else some .twarmComplete)).andThen noResult) s

/-- Make one page resident: it is, or a request is outstanding. -/
def State.warmPage (s : State) (va : Word) : Bool × State :=
  if !canonical va then (true, s)
  else match s.translate s.cur.sys.ctx.toNat s.cur.wins (some s.curCore) va .read with
    | .ok _ t => (true, t)
    | .absent => (true, s)
    | .moving => (false, s)
    | .fault f =>
      if f.code = 3 then (true, s)
      else (false, (s.requestPage s.cur.sys.ctx.toNat f.va f.code 0 (some s.curCore)).2)

def State.warmAll (s : State) (vas : List Word) : Bool × State :=
  vas.foldl (fun p va => let q := p.2.warmPage va; (p.1 && q.1, q.2)) (true, s)

/-- TWARM_COMPLETE: the tables first, then the rows they name. -/
def execTwarmComplete (k op : Nat) (s : State) : Out :=
  runOp k op .twarmComplete (fun o =>
    match o.kind with
    | .warm r vas => fun s =>
      let a := s.warmAll vas
      if !a.1 then .stop (.wait 0 a.2)
      else match r.rows a.2 with
        | .ok rows t =>
          let ps := (rows.map fun (e : RowAt) => ((runRanges (e.runs.getD [])).map pagesOf).flatten).flatten.foldl addNew []
          let b := t.warmAll ps
          if b.1 then .ok () b.2 else .stop (.wait 0 b.2)
        | .stop (.wait w u) => .stop (.wait w u)
        | .stop (.fault f u) => .stop (.wait 0 (u.warmPage f.va).2)
        | .stop .absent => .stop .absent
        | .stop _ => .ok () a.2
    | _ => Act.pure ()) completes s

/-! ### TBLK (R202) -/

def execTblk (r : Ring) (o : F3) (s : State) : Out :=
  let n := o.a.toNat
  issue (r.issue .a 0x6E 1 [o.b] ([.reg o.d, .ly n] ++ s.cur.bound n) 40) (fun vs => Act.get.bind fun s =>
    match s.cur.slot n with
    | none => Act.trap tSHAPE []
    | some k =>
      let l := { k.lay with ext := (s.cur.extents k.lay).map (BitVec.ofNat 32) }
      (Act.check (l.lay == 3 && l.pagedOk && l.extOk) tSHAPE []).andThen <|
      let i := (vs.headD 0).toNat
      (Act.check (decide (i < l.e 1)) tRANGE []).andThen <|
      (loadBytes (l.offs + w64 (8 * (i / l.blockRows))) 8).bind fun b =>
      let e := leNat b
      (Act.check (e != 0 && e % 64 == 0) tRANGE [w64 e]).andThen <|
      result o.d (w64 e + l.base + w64 (i % l.blockRows) * l.stride 1)) s

end Sys2Proof.Machine
end

