-- ==== Sys2Proof/Machine/Chain.lean ====
section
/-! DEFINITION. Command chains: CHKICK, WCHAIN, CHLINK and the steps of the copy engine that walks a chain (R203 to
R205). A chain holds one entry at a time: each entry is complete before the next starts. -/

namespace Sys2Proof.Machine

/-! ### Entries (R203) -/

def ChainEnt.ofBytes (b : List Byte) : ChainEnt :=
  ⟨field b 0 1, field b 1 1, field b 2 2, field b 4 4, w64 (field b 8 8), w64 (field b 16 8), w64 (field b 24 8)⟩

/-- An address as software writes it. -/
def ChainAddr.word : ChainAddr → Word
  | .mem va => va
  | .tile h off => w64 (h + off * 2 ^ 32)

def ChainAddr.add (a : ChainAddr) (n : Int) : ChainAddr :=
  match a with
  | .mem va => .mem (va + wordOf n)
  | .tile h off => .tile h ((off : Int) + n).toNat

/-- A tile address: handle and offset; bits [31:7] are reserved. -/
def tileAddr (w : Word) : Option (Nat × Nat) :=
  if getBits w 7 25 = 0 then some (getBits w 0 7, getBits w 32 32) else none

/-- Reserved bits of an entry (R203), and the bounds of a LOOP (R204). -/
def ChainEnt.ok (e : ChainEnt) : Bool :=
  e.rsv == 0 &&
  match e.kind with
  | 0 => decide (e.flags < 2) && e.q16 == 0 && e.q24 == 0
  | 1 => decide (e.flags < 4) && e.q24 == 0 && (e.flags % 2 == 0 || (tileAddr e.q8).isSome) &&
      (e.flags / 2 == 0 || (tileAddr e.q16).isSome)
  | 2 => e.flags == 0
  | 3 => e.flags == 0 && e.q16 == 0 && e.q24 == 0
  | 4 => e.flags == 0 && e.q16 == 0 && e.q24 == 0
  | 5 => e.flags == 0 && getBits e.q8 32 32 == 0 && e.w4 != 0 && e.q8 != 0 && decide (e.q8.toNat ≤ 255)
  | 6 => e.flags == 0 && getBits e.q16 32 32 == 0 && e.q24 == 0
  | 7 => decide (e.flags < 2) && e.w4 == 0 && e.q16 == 0 && e.q24 == 0 && (e.flags == 0 || (tileAddr e.q8).isSome)
  | _ => false

/-- A malformed entry stops the chain: RANGE with its address and the kicking opcode (R204). -/
def malformed {α : Type} (c : Chain) (a : ChainAddr) : Act α := Act.trap tRANGE [a.word, w64 c.kick]

/-- Read the entry at an address. -/
def readEntry (c : Chain) (a : ChainAddr) : Act ChainEnt := Act.get.bind fun s =>
  match a with
  | .mem va => if va.toNat % 32 ≠ 0 then malformed c a else (loadBytes va 32).bind fun b => Act.pure (.ofBytes b)
  | .tile h off =>
    match s.cur.tile? h with
    | some t => if off % 32 ≠ 0 ∨ t.size < off + 32 then malformed c a else (tileSound t off 32).andThen (Act.pure (.ofBytes (t.front.bytes off 32)))
    | none => malformed c a

/-- The entry that a chain stands at, with its address; in a loop body its own copy, which a LOOP's steps may have made
malformed. -/
def currentEntry (c : Chain) : Act (ChainAddr × ChainEnt) :=
  match c.body[c.pos]? with
  | some e => if e.ok then Act.pure (c.addr, e) else malformed c c.addr
  | none => (readEntry c c.addr).bind fun e => if e.ok then Act.pure (c.addr, e) else malformed c c.addr

/-- The unit step of an entry kind. -/
def kindStep : Nat → What
  | 1 => .chainCopy | 2 => .chainGather | 3 => .chainPost | 4 => .chainWait | 5 => .chainLoop | 6 => .chainIf
  | 7 => .chainLink | _ => .chainEnd

/-! ### Moving on -/

/-- Add the steps to every COPY of a body. -/
def stepBody (src dst : Word) (body : List ChainEnt) : List ChainEnt :=
  body.map fun e => if e.kind = 1 then { e with q8 := e.q8 + src, q16 := e.q16 + dst } else e

/-- Leave a loop body at its end: another run, or on behind the LOOP entry. The LOOP's steps stand in the last entry
of `past`. -/
def Chain.bodyEnd (c : Chain) : Chain :=
  match c.past.getLast? with
  | some (a, l) =>
    if 1 < c.left then
      { c with left := c.left - 1, pos := 0, body := stepBody l.q16 l.q24 c.body, addr := a.add (-(32 * c.body.length : Nat)) }
    else { c with left := 0, pos := 0, body := [], addr := c.resume }
  | none => { c with left := 0, pos := 0, body := [], addr := c.resume }

/-- Pass k entries from the current one on; it is noted as passed. An IF that skips past the end of a LOOP's body leaves the
loop, and the LOOP entry is one of those that it skips (DESIGN CHOICE, assumption log 44). -/
def Chain.pass (c : Chain) (e : ChainEnt) (k : Nat) : Chain :=
  if c.body.isEmpty then
    { c with past := (c.past ++ [(c.addr, e)]).drop (c.past.length + 1 - 255), addr := c.addr.add (32 * k : Nat) }
  else
    let p := c.pos + k
    if p < c.body.length then { c with pos := p, addr := c.addr.add (32 * k : Nat) }
    else if p = c.body.length then c.bodyEnd
    else { c with left := 0, pos := 0, body := [], addr := c.resume.add (32 * (p - c.body.length - 1) : Nat) }

/-- Run one step of chain op of strand k for entries of kind `kind`; another kind's step is asked for instead. -/
def chainStep (kind k op : Nat) (body : Chain → ChainAddr → ChainEnt → Act Chain) : State → Out :=
  runOp k op (kindStep kind) (fun o =>
    match o.kind with
    | .chain c => (currentEntry c).bind fun p =>
      if p.2.kind ≠ kind then Act.modify fun s => s.post (kindStep p.2.kind) k op
      else (body c p.1 p.2).bind fun c' => Act.modify fun s =>
        let s := State.setCur (s.unhold o.g (some op)) fun t => t.updOp op fun o => { o with kind := .chain c', touch := [] }
        if c'.ended then s else s.post (kindStep kind) k op
    | _ => Act.pure ()) fun o s =>
      match s.cur.op? o.id with
      | some p => (match p.kind with | .chain c => if c.ended then s.completeOp o else s | _ => s)
      | none => s

/-! ### COPY and GATHER -/

/-- The rows that n bytes at off of a tile touch; none past the tile or of a handle not held. -/
def tileRange (t : Strand) (h off n : Nat) : Option Tile :=
  match t.tile? h with
  | some v => if off + n ≤ v.size then some v else none
  | none => none

/-- Whether any other operation of the strand, or a nest, holds rows in the way. -/
def Strand.chainBlocked (t : Strand) (id : Nat) (want : List Touch) : Bool :=
  let hits := fun (k : Touch) => want.any fun w => k.overlaps w && (k.wr || w.wr)
  (t.ops.any fun o => !o.done && o.id != id && o.touch.any hits) || (t.nests.any fun n => (t.nestTouch n).any hits)

/-- A chain entry starts: once nothing is in the way and the scoreboard has room, its tiles are recorded there (R204); its
transfer comes in a later step, and chainStep removes the entries with it. -/
def chainStarts (op : Nat) (want : List Touch) : Act Unit := Act.get.bind fun s =>
  if want.isEmpty || ((s.cur.op? op).map fun o => o.touch == want).getD false then Act.pure ()
  else
    (Act.until (!s.cur.chainBlocked op want) 0).andThen <| (scoreRoom want.length).andThen <|
    (Act.modify fun s => s.setCur fun t => t.updOp op fun o => { o with touch := want }).andThen (Act.wait 0)

def touchBytes (t : Tile) (h off n : Nat) (wr : Bool) : Touch :=
  ⟨h, if wr then t.half != t.db else t.half, off / t.rb, (off + n + t.rb - 1) / t.rb, wr⟩

/-- Sidecars go with the rows of a tile-to-tile copy (R185): each row of the destination takes the sidecar of the row
that its first copied byte comes from. -/
def moveSidecars (src dst : Tile) (so d0 n : Nat) (h : Half) : Half :=
  if !dst.sc ∨ n = 0 then h
  else
    let lo := d0 / dst.rb
    { h with side := (tab ((d0 + n - 1) / dst.rb - lo + 1) id).foldl (fun m i =>
        let first := max d0 ((lo + i) * dst.rb)
        SMap.set m (lo + i) (src.sidecar ((so + (first - d0)) / src.rb))) h.side }

/-- The descriptor that travels with a block from a described page (R36, R332): of the block at the same place in the source,
when source and destination lie alike in their blocks. -/
def carried (src dst : Word) (p : StorePiece) : Act StorePiece :=
  let va := src + (p.va - dst)
  if src.toNat % 64 ≠ dst.toNat % 64 then Act.pure p
  else (xlate va .read).bind fun x => Act.get.bind fun s =>
    Act.pure (if x.desc then { p with desc := some (s.descAt (x.pa / 64 * 64)) } else p)

/-- The COPY entry: LEN bytes between memory and tiles. -/
def chainCopyBody (op : Nat) (c : Chain) (a : ChainAddr) (e : ChainEnt) : Act Chain := Act.get.bind fun s =>
  let n := e.w4
  let src := if e.flags % 2 = 1 then tileAddr e.q8 else none
  let dst := if e.flags / 2 = 1 then tileAddr e.q16 else none
  let st := src.map fun p => (p, tileRange s.cur p.1 p.2 n)
  let dt := dst.map fun p => (p, tileRange s.cur p.1 p.2 n)
  if (st.map fun p => p.2.isNone).getD false ∨ (dt.map fun p => p.2.isNone).getD false then malformed c a
  else if (dt.map fun p => (p.2.map Tile.ro).getD false).getD false then Act.trap tHANDLE [e.q16]
  else
    let want := (match st with | some (p, some t) => [touchBytes t p.1 p.2 n false] | _ => []) ++
      (match dt with | some (p, some t) => [touchBytes t p.1 p.2 n true] | _ => [])
    (chainStarts op want).andThen <|
    (match st with
     | some (p, some t) => (tileSound t p.2 n).andThen (Act.pure (t.front.bytes p.2 n))
     | _ => loadBytes e.q8 n).bind fun bytes =>
    (match dt with
     | some (p, some t0) => (tileHeal t0 true p.2 n).andThen <| updTile p.1 fun t =>
        let h := t.copyHalf.put p.2 bytes
        t.setCopyHalf (match st with
          | some (q, some u) => moveSidecars u t q.2 p.2 n h
          | _ => h)
     | _ =>
       (if st.isSome then Act.pure (storePieces e.q16 bytes)
        else Act.map (carried e.q8 e.q16) (storePieces e.q16 bytes)).bind storeAll).andThen <|
    Act.pure (c.pass e 1)

/-- The GATHER entry: as TGATH, with its layout record and index list read from memory. A check of TGATH that fails ends the
chain, and its trap is raised at the kicking engine's next boundary (DESIGN CHOICE, assumption log 44). -/
def chainGatherBody (op : Nat) (c : Chain) (a : ChainAddr) (e : ChainEnt) : Act Chain :=
  let n := e.w4
  let first := getBits e.q24 0 32
  let h := getBits e.q24 32 8
  let row := getBits e.q24 40 24
  (loadBytes e.q8 64).bind fun b => Act.get.bind fun s =>
  let l0 := Layout.ofBytes b
  match s.cur.tile? h, l0.fault with
  | none, _ => malformed c a
  | some _, some code => Act.trap code []
  | some t, none =>
    if t.rows < row + n then malformed c a
    else if t.ro then Act.trap tHANDLE [w64 h]
    else
      let l := { l0 with ext := (s.cur.extents l0).map (BitVec.ofNat 32), shx := 0xFF }
      let indexed := e.q16 != 0
      (chainStarts op [⟨h, t.half != t.db, row, row + n, true⟩]).andThen <|
      (rowChecks t (w64 row) ⟨first, n, 0, 0⟩ l (if indexed then [0, 2, 3, 4] else [3]) (!indexed) false).bind fun offs =>
      (Act.check l.describedOk tALIGN [l.base]).andThen <|
      match t.retag (tagFmt l.tag) (tagScaled l.tag) (tagSpc l.tag) l.described with
      | none => Act.trap tTAGCONFLICT []
      | some (tag, mixed) =>
        (if indexed then loadBytes (e.q16 + w64 (4 * first)) (4 * n) else Act.pure []).bind fun list =>
        (rowsAt l 0 0 n fun k => picked l (if indexed then field list (4 * k) 4 else first + k)).bind fun rows =>
        (updTile h fun v => if n = 0 then v else { v with tag }).andThen <|
        (loadFrom l offs rows h row mixed).andThen <| Act.pure (c.pass e 1)

def execChainCopy (k op : Nat) (s : State) : Out := chainStep 1 k op (chainCopyBody op) s
def execChainGather (k op : Nat) (s : State) : Out := chainStep 2 k op (chainGatherBody op) s

/-! ### Counters (R203, R381) -/

/-- Counter of an entry; an index past NCNT stops the chain (assumption log 13). -/
def chainCounter (c : Chain) (a : ChainAddr) (e : ChainEnt) : Act Word := Act.get.bind fun s =>
  if s.curCtx.record.ncnt ≤ e.w4 then malformed c a else Act.pure (counterVa s.curCtx e.w4)

/-- A counter's value, read on the AT path: buffered stores are not seen. -/
def counterRead (va : Word) : Act Word :=
  (xlate va .read).bind fun x =>
  if x.home = 2 then fun s => (peerAsk (s.peerRequest 2 x.pa 8 []) va).bind (fun r => Act.pure (w64 (leNat r.1))) s
  else fun s =>
    if s.mem.poisoned x.home x.pa 8 then .stop (.uncorr .device va s)
    else .ok (w64 (leNat (s.mem.bytes x.home x.pa 8))) (s.corrected x.home x.pa 8)

/-- Whether (counter − threshold) is at least 0. -/
def counterPast (va threshold : Word) : Act Bool :=
  (counterRead va).bind fun v => Act.pure (decide (0 ≤ (v - threshold).toInt))

def execChainPost (k op : Nat) (s : State) : Out :=
  chainStep 3 k op (fun c a e => (chainCounter c a e).bind fun va => (addCounter va e.w4 e.q8).andThen <| Act.pure (c.pass e 1)) s

def execChainWait (k op : Nat) (s : State) : Out :=
  chainStep 4 k op (fun c a e => (chainCounter c a e).bind fun va => (counterPast va e.q8).bind fun ok =>
    (Act.until ok 0).andThen (Act.pure (c.pass e 1))) s

def execChainIf (k op : Nat) (s : State) : Out :=
  chainStep 6 k op (fun c a e => (chainCounter c a e).bind fun va => (counterPast va e.q8).bind fun ok =>
    Act.pure (c.pass e (if ok then 1 else 1 + e.q16.toNat))) s

/-! ### LOOP, LINK, END -/

/-- The k entries just before an address: as passed, else as they stand. -/
def bodyBefore (c : Chain) (a : ChainAddr) (k : Nat) : Act (List ChainEnt) :=
  Act.map (fun i =>
    let b := a.add (-(32 * (k - i) : Nat))
    match c.past.reverse.find? fun p => p.1 == b with
    | some p => Act.pure p.2
    | none => (readEntry c b).bind fun e => if e.ok then Act.pure e else malformed c b) (tab k id)

def execChainLoop (k op : Nat) (s : State) : Out :=
  chainStep 5 k op (fun c a e =>
    (bodyBefore c a e.q8.toNat).bind fun body =>
    if body.any fun x => x.kind == 5 || x.kind == 7 || x.kind == 0 then malformed c a
    else
      let c := c.pass e 1
      if e.w4 = 1 then Act.pure c
      else Act.pure { c with body := stepBody e.q16 e.q24 body, pos := 0, left := e.w4 - 1, resume := c.addr,
                             addr := a.add (-(32 * body.length : Nat)) }) s

def execChainLink (k op : Nat) (s : State) : Out :=
  chainStep 7 k op (fun c _ e =>
    let c := c.pass e 1
    match if e.flags = 1 then tileAddr e.q8 else none with
    | some (h, off) => Act.pure { c with addr := .tile h off, past := [] }
    | none => Act.pure { c with addr := .mem e.q8, past := [] }) s

def execChainEnd (k op : Nat) (s : State) : Out :=
  chainStep 0 k op (fun c a e =>
    (if e.flags = 1 then (chainCounter c a e).bind fun va => addCounter va e.w4 e.q8 else Act.pure ()).andThen <|
    Act.pure { c with ended := true }) s

/-! ### Kicks (R205) -/

def Chain.start (kick ce : Nat) (a : ChainAddr) : Chain := ⟨kick, ce, a, [], [], 0, 0, a, false⟩

/-- CHKICK and WCHAIN. In the long form with TL = 0, IA and HA name no tile and are not looked at (DESIGN CHOICE, assumption
log 44). -/
def kickChain (g : Eng) (r : Ring) (opc : Nat) (o : F3) (x : Option XH) : State → Out :=
  let tl := match x with | some e => flag e.op 13 | none => false
  let ce := match x with | some e => b2n (flag e.op 12) | none => 0
  let srcs := if tl then handleSrcs o.a x ++ [o.b] else [o.a]
  issue { r.issue g opc (lenOf x) srcs [] 1 with async := true } fun vs =>
    (if tl then
      let (hv, vs) := handleArg x vs
      let off := vs.headD 0
      (Act.check (off.toNat % 32 == 0) tALIGN []).andThen <|
      (heldTile hv).bind fun p => Act.pure (ChainAddr.tile p.1 off.toNat)
     else
      (Act.check ((vs.headD 0).toNat % 32 == 0) tALIGN []).andThen (Act.pure (ChainAddr.mem (vs.headD 0)))).bind fun a =>
    (startAct g opc r (.chain (.start opc ce a)) [] (some .chainCopy)).andThen noResult

def execChkick (r : Ring) (o : F3) (x : Option XH) (s : State) : Out := kickChain .a r 0x6A o x s
def execWchain (r : Ring) (o : F3) (x : Option XH) (s : State) : Out := kickChain .w r 0x62 o x s

/-- Whether a running chain of the context stands at the entry at VA a; the copy engine that it runs on. -/
def State.chainAt (s : State) (a : Word) : Option Nat :=
  ((s.strands.filter fun e => e.2.sys.ctx == s.cur.sys.ctx).map fun e => e.2.ops.findSome? fun o =>
    if o.done then none
    else match o.kind with
      | .chain c => if c.addr = .mem a ∧ c.body.isEmpty then some c.ce else none
      | _ => none).findSome? id

def execChlink (r : Ring) (o : F3) (s : State) : Out :=
  issue (r.issue .a 0x6B 1 [o.a, o.b] [.reg o.d] 40) (fun vs =>
    let a := vs.headD 0
    let b := vs.getD 1 0
    (Act.check (a.toNat % 32 == 0) tRANGE []).andThen <| (loadBytes a 32 false).bind fun e =>
    (Act.check (field e 0 1 == 0) tRANGE []).andThen <| Act.get.bind fun s =>
    match s.chainAt a with
    | some ce =>
      (startAct .a 0x6B Ring.quiet (.chain (.start 0x6B ce (.mem b))) [] (some .chainCopy)).andThen (result o.d 0)
    | none =>
      (storeBytes a (leBytes 8 7 ++ leBytes 8 b.toNat ++ leBytes 16 0) none false).andThen (result o.d 1)) s

end Sys2Proof.Machine
end

