-- ==== Sys2Proof/Machine/Control.lean ====
section
/-! DEFINITION. Control instructions (R133 to R141), system registers (R140, R142 to R145), TRI (R125), and the joint
words SYNC and MODE (R111, R112). -/

namespace Sys2Proof.Machine

/-! ### Transfers of control -/

/-- Check a transfer from the engine's word to a target; a taken branch leaves the loops around it when `drop` is set
(R61, R100, R117). -/
def transfer (g : Eng) (target : Int) (drop : Bool) (wb : List Wb) : Act Done :=
  Act.get.bind fun s =>
    match target with
    | .negSucc _ => Act.trap tPROTECT [wordOf target]
    | .ofNat n =>
      match s.cur.checkTarget g n with
      | some (code, args) => Act.trap code args
      | none =>
        (Act.modify fun s => if drop then s.setEng g fun e => { e with levels := dropLevels e.levels n } else s).andThen
          (Act.pure ⟨wb, some n⟩)

/-- The word that engine g issues. -/
def State.pc (s : State) (g : Eng) : Nat := (s.cur.engine g).pc

/-- A transfer by a signed word offset. -/
def branch (g : Eng) (off : Int) : Act Done :=
  Act.get.bind fun s => transfer g ((s.pc g : Int) + off) true []

/-- A register target: bits [63:14] must be zero (R135). -/
def registerTarget (v : Word) (opc : Nat) : Act Nat :=
  (Act.check (decide (v.toNat < 16384)) tRANGE [v, w64 opc]).andThen (Act.pure v.toNat)

/-! ### Published outcomes (R113) -/

/-- Engines that a publish mask names. -/
def pubEngines (pub : BitVec 3) : List Eng :=
  (if flag pub 0 then [.x] else []) ++ (if flag pub 1 then [.m] else []) ++ (if flag pub 2 then [.w] else [])

def Links.publish (l : Links) (gs : List Eng) (taken : Bool) : Links :=
  gs.foldl (fun l g => { l with outc := l.outc.set g ((l.outc.get g).push taken) }) l

/-- A conditional branch: wait for room in the named queues, publish, go (R134). -/
def condBranch (g : Eng) (pub : BitVec 3) (off : Int) (taken : Bool) : Act Done :=
  let gs := pubEngines pub
  Act.get.bind fun s =>
    (Act.until (gs.all fun e => (s.cur.links.outc.get e).room) 7).andThen <|
    (if taken then branch g off else noResult).bind fun d =>
    (Act.modify fun s => s.setCur fun t => { t with links := t.links.publish gs taken }).andThen (Act.pure d)

def pubOfB (x : Option XB) : BitVec 3 := match x with | some e => e.pub | none => 0
def pubOfZ (x : Option XZ) : BitVec 3 := match x with | some e => e.pub | none => 0

/-- The six comparing branches. -/
def compareBranch (h : Hd) (opc : Nat) (o : FB) (x : Option XB) (c : Word → Word → Bool) : State → Out :=
  issue (h.issue opc (lenOf x) [pop o.a, pop o.b] [] 1) fun vs =>
    condBranch h.g (pubOfB x) (o.offset x) (c (vs.headD 0) (vs.getD 1 0))

/-- BZ and BNZ. -/
def testBranch (h : Hd) (opc : Nat) (o : FZ) (x : Option XZ) (c : Word → Bool) : State → Out :=
  issue (h.issue opc (lenOf x) [pop o.a] [] 1) fun vs => condBranch h.g (pubOfZ x) (o.offset x) (c (vs.headD 0))

/-! ### Meanings: branches and calls -/

/-- R138. -/
def execNop (h : Hd) (s : State) : Out := issue (h.issue 0x00 1 [] [] 1) (fun _ => noResult) s

/-- R134. -/
def execB (h : Hd) (o : FZ) (x : Option XZ) (s : State) : Out :=
  issue (h.issue 0x01 (lenOf x) [] [] 1) (fun _ => branch h.g (o.offset x)) s

def execBeq (h : Hd) (o : FB) (x : Option XB) (s : State) : Out := compareBranch h 0x02 o x (· == ·) s
def execBne (h : Hd) (o : FB) (x : Option XB) (s : State) : Out := compareBranch h 0x03 o x (· != ·) s
def execBlt (h : Hd) (o : FB) (x : Option XB) (s : State) : Out := compareBranch h 0x04 o x BitVec.slt s
def execBge (h : Hd) (o : FB) (x : Option XB) (s : State) : Out := compareBranch h 0x05 o x (fun a b => !a.slt b) s
def execBltu (h : Hd) (o : FB) (x : Option XB) (s : State) : Out := compareBranch h 0x06 o x BitVec.ult s
def execBgeu (h : Hd) (o : FB) (x : Option XB) (s : State) : Out := compareBranch h 0x07 o x (fun a b => !a.ult b) s
def execBz (h : Hd) (o : FZ) (x : Option XZ) (s : State) : Out := testBranch h 0x08 o x (· == 0) s
def execBnz (h : Hd) (o : FZ) (x : Option XZ) (s : State) : Out := testBranch h 0x09 o x (· != 0) s

/-- Whether A waits at END, with no outcome of it on its way to g (R110). -/
def Strand.noOutcome (t : Strand) (g : Eng) : Bool :=
  t.eng.a.arrived && t.eng.a.atEnd && (t.links.outc.get g).add.isEmpty

/-- R114; in a handler ILLEGAL (R129). -/
def execBfol (h : Hd) (o : FZ) (x : Option XZ) (s : State) : Out :=
  issue { h.issue 0x0A (lenOf x) [] [] 1 with legal := s.cur.st != .handler } (fun _ => Act.get.bind fun s =>
    match (s.cur.links.outc.get h.g).q with
    | [] =>
      if s.cur.noOutcome h.g then Act.trap tCHANNEL [w64 (7 + h.g.code.toNat)] else Act.wait 6
    | taken :: q =>
      (if taken then branch h.g (o.offset x) else noResult).bind fun d =>
      (Act.modify fun s => s.setCur fun t =>
        { t with links := { t.links with outc := t.links.outc.set h.g { t.links.outc.get h.g with q } } }).andThen
        (Act.pure d)) s

/-- R135: the return address is written in the issue tick. -/
def execCall (h : Hd) (o : FZ) (x : Option XZ) (s : State) : Out :=
  issue (h.issue 0x0B (lenOf x) [] [.reg o.a] 1) (fun _ => Act.get.bind fun s =>
    transfer h.g ((s.pc h.g : Int) + o.offset x) false [.reg o.a (w64 (s.pc h.g + lenOf x))]) s

def execRet (h : Hd) (o : FZ) (s : State) : Out :=
  issue (h.issue 0x0C 1 [pop o.a] [] 1) (fun vs =>
    (registerTarget (vs.headD 0) 0x0C).bind fun n => transfer h.g n false []) s

def execJr (h : Hd) (o : FZ) (x : Option XZ) (s : State) : Out :=
  issue (h.issue 0x0D (lenOf x) [pop o.a] [] 1) (fun vs =>
    (registerTarget (vs.headD 0) 0x0D).bind fun n => transfer h.g ((n : Int) + o.offset x) true []) s

/-! ### Loops (R136, R137) -/

/-- The checks of R136 on the body's end. -/
def Strand.bodyOk (t : Strand) (g : Eng) (len e : Nat) : Bool :=
  let p := (t.engine g).pc + e
  decide (len ≤ e) && decide (p < t.text.length) &&
    (isCont t.text p || !wordLong (t.text.getD p 0)) && t.st != .handler

/-- Start a level, or skip the body of a zero count. -/
def startLoop (g : Eng) (lv len e n : Nat) : Act Done :=
  Act.get.bind fun s =>
    let p := s.pc g
    if n = 0 then transfer g ((p + e + 1 : Nat) : Int) false []
    else
      (Act.modify fun s => s.setEng g fun en =>
        { en with levels := en.levels.set lv ⟨true, p + len, p + e, BitVec.ofNat 32 n, en.starts⟩, starts := en.starts + 1 }).andThen
        noResult

def execLoop (h : Hd) (o : FL) (x : Option XL) (s : State) : Out :=
  let e := loopEnd o x
  let fromShape := match x with | some l => l.kind | none => false
  let uses := match x with | some l => if l.kind then [.sh l.sh.toNat] else [] | none => []
  let q := h.issue 0x0E (lenOf x) (if fromShape then [] else [pop o.cnt]) uses 1
  issue { q with legal := s.cur.bodyOk h.g (lenOf x) e } (fun vs => Act.get.bind fun s =>
    let n := match x with
      | some l => if l.kind then (s.cur.ext l.sh.toNat l.ext.toNat).setWidth 64 else vs.headD 0
      | none => vs.headD 0
    (Act.check (decide (n.toNat < 2 ^ 32)) tRANGE [n, w64 0x0E]).andThen (startLoop h.g o.lv.toNat (lenOf x) e n.toNat)) s

def execLoopi (h : Hd) (o : FL) (x : Option XK) (s : State) : Out :=
  let e := loopEndK o x
  let n := match x with | some k => (k.cnth ++ o.cnt).toNat | none => o.cnt.toNat
  issue { h.issue 0x0F (lenOf x) [] [] 1 with legal := s.cur.bodyOk h.g (lenOf x) e }
    (fun _ => startLoop h.g o.lv.toNat (lenOf x) e n) s

/-- The level that a number names. -/
def Engine.level (e : Engine) (lv : Nat) : Level := e.levels.getD lv .off

def execBrkl (h : Hd) (o : FL) (s : State) : Out :=
  let l := (s.cur.engine h.g).level o.lv.toNat
  issue { h.issue 0x10 1 [] [] 1 with legal := s.cur.st != .handler && l.active } (fun _ =>
    (transfer h.g ((l.stop + 1 : Nat) : Int) false []).bind fun d =>
    (Act.modify fun s => s.setEng h.g fun e =>
      { e with levels := (e.levels.set o.lv.toNat { l with cnt := 0, active := false }).map fun k =>
          if k.active ∧ l.ord ≤ k.ord then { k with active := false } else k }).andThen (Act.pure d)) s

/-- R139. -/
def execTrap (h : Hd) (o : FU) (s : State) : Out :=
  issue (h.issue 0x11 1 [] [] 1) (fun _ => Act.trap tSWTRAP [o.imm.setWidth 64]) s

/-! ### System registers (R140, R142) -/

/-- RINGST, taken at the start of the tick (R145). -/
def Links.ringst (l : Links) : Word :=
  let occ := (l.chans.zipIdx.map fun c => c.1.start * 2 ^ (32 + 4 * c.2)).foldl (· + ·) 0
  w64 (occ + l.sp.a.start * 2 ^ 28 + l.sp.w.start * 2 ^ 24 + l.sp.m.start * 2 ^ 20 + l.sp.x.start * 2 ^ 16 +
    l.sn.w.start * 2 ^ 12 + l.sn.m.start * 2 ^ 8 + l.sn.x.start * 2 ^ 4 + l.sn.a.start)

/-- Counter of a loop level; in a handler the set-aside one (R129). -/
def Strand.loopCounter (t : Strand) (g : Eng) (n : Nat) : W32 :=
  let ls := match t.aside with | some a => a.levels.get g | none => (t.engine g).levels
  (ls.getD n .off).cnt

/-- The value of a system register. -/
def Strand.sysReg (t : Strand) (ns : Nat) (g : Eng) (i : Nat) : Word :=
  match i with
  | 0 => (t.engine g).tick
  | 1 => w64 ns
  | 2 => t.sys.strand
  | 3 => t.sys.ctx.setWidth 64
  | 4 => t.sys.win.setWidth 64
  | 5 => t.sys.stl.setWidth 64
  | 6 => t.sys.vfmt.setWidth 64
  | 7 => w64 (b2n t.x.timed)
  | 8 => t.sys.phasen.setWidth 64
  | 9 => t.sys.trapc.setWidth 64
  | 10 | 11 | 12 | 13 | 14 | 15 => (t.sys.li.getD (i - 10) 0).setWidth 64
  | 16 => t.sys.grank.setWidth 64
  | 17 => t.sys.gsize.setWidth 64
  | 18 => t.sys.thrift.setWidth 64
  | 19 => t.sys.tvec.setWidth 64
  | 20 => t.sys.tmask.setWidth 64
  | 21 => (t.engine g).tepc.setWidth 64
  | 22 => t.sys.tinfo
  | 23 | 24 | 25 | 26 => t.sys.targ.getD (i - 23) 0
  | 28 | 29 | 30 => (t.loopCounter g (i - 28)).setWidth 64
  | 31 => t.links.ringst
  | _ => 0

def execGets (h : Hd) (o : FU) (s : State) : Out :=
  issue (h.issue 0x12 1 [] [.reg o.d] 1) (fun _ => Act.get.bind fun s =>
    result o.d (s.cur.sysReg s.ns h.g o.imm.toNat)) s

/-- Values that a writable system register takes (R130, R142, R143). -/
def sysValueOk (i : Nat) (v : Word) : Bool :=
  let n := v.toNat
  match i with
  | 4 => decide (16 ≤ n) && decide (n ≤ 256)
  | 5 => decide (n < 2 ^ 32) && (n == 0 || decide (1024 ≤ n))
  | 6 => decide (n < 128)
  | 19 => decide (n < 2 ^ 32) && getBits v 14 17 == 0
  | 20 => decide (n < 2 ^ 27) && !v.getLsbD 0 && !v.getLsbD 18
  | 21 => decide (n < 16384)
  | 27 => decide (n ≤ 1)
  | _ => decide (n < 2 ^ 32)

/-- A SETS that takes effect (R140). -/
def Strand.setSys (t : Strand) (g : Eng) (i : Nat) (v : Word) : Strand :=
  match i with
  | 4 => { t with sys := { t.sys with win := v.setWidth 9 } }
  | 5 => { t with sys := { t.sys with stl := v.setWidth 32 } }
  | 6 => { t with sys := { t.sys with vfmt := v.setWidth 7 } }
  | 19 => { t with sys := { t.sys with tvec := v.setWidth 32 } }
  | 20 => { t with sys := { t.sys with tmask := v.setWidth 32 } }
  | 21 => t.setEngine g fun e => { e with tepc := v.setWidth 14 }
  | 27 => t.setEngine g fun e => { e with tret := some v }
  | 28 | 29 | 30 =>
    let f := fun (ls : List Level) => upd ls (i - 28) fun l => { l with cnt := v.setWidth 32 }
    match t.aside with
    | some a => { t with aside := some { a with levels := a.levels.set g (f (a.levels.get g)) } }
    | none => t.setEngine g fun e => { e with levels := f e.levels }
  | _ => t

/-- TEPC and TRET are written in HANDLER state only (R130); the write takes effect at the end of the tick. -/
def execSets (h : Hd) (o : FU) (s : State) : Out :=
  let i := o.imm.toNat
  issue { h.issue 0x13 1 [pop o.d] [] 1 with legal := s.cur.st == .handler || (i != 21 && i != 27) } (fun vs =>
    let v := vs.headD 0
    (Act.check (sysValueOk i v) tRANGE [v, w64 i]).andThen <|
    (Act.modify fun s => s.setCur fun t => { t with lates := t.lates ++ [(h.g, .sys h.g i v)] }).andThen noResult) s

/-! ### TRI and WAITT (R125, R141) -/

/-- Whether TRI may govern an instruction. -/
def triGoverns (g : Eng) (w : W32) : Bool :=
  let opc := (fld w 17 8).toNat
  !wordJoint w && ((decide (0x20 ≤ opc) && decide (opc ≤ 0x49)) ||
    (g == .x && ((decide (0x60 ≤ opc) && decide (opc ≤ 0x97)) || (decide (0xB0 ≤ opc) && decide (opc ≤ 0xB7)))))

/-- Whether an instruction that TRI may govern stands at a word; one that is ill-formed traps at its own issue, and past
the text the fetch decides. -/
def Strand.triOk (t : Strand) (g : Eng) (p : Nat) : Bool :=
  match t.text[p]? with
  | none => true
  | some w => triGoverns g w &&
    (match decode (t.wordsAt p).1 (t.wordsAt p).2 with | .ok _ => true | .error e => decide (e ≠ .unassigned))

/-- The prefix moves the engine to the instruction that it governs, which issues in the same tick (R97). -/
def execTri (h : Hd) (s : State) : Out :=
  let p := s.pc h.g
  let r := s.cur.moveOn h.g 1
  match r.2 with
  | some args => .next (State.takeTrap { s with cur := r.1 } h.g tWINDOW args)
  | none =>
    if r.1.triOk h.g (r.1.engine h.g).issueAddr then
      .next { s with cur := r.1.setEngine h.g fun e => { e with tri := some p, why := 0 } }
    else .next (s.takeTrap h.g tILLEGAL (s.cur.illegalArgs h.g))

/-- A wait ends: the WAITT retires and posts its signals, when there is room for them (R106, R133). -/
def State.endWait (s : State) (g : Eng) (w : Waiting) : State :=
  (s.setEng g fun e => { e with wait := none }).setCur fun t => t.deliver g 1 [] w.sp w.sn

/-- R133, R141: a WAITT issues in one tick; when its time is to come it retires then, and its engine stalls until it
does. -/
def execWaitt (h : Hd) (o : F3) (s : State) : Out :=
  let vs := match s.cur.readSrcs h.g [pop o.a] s.cur.links with | .ok vs _ => vs | _ => []
  let later := decide (s.ns < (vs.headD 0).toNat)
  issue { h.issue 0x15 1 [pop o.a] [] 1 with async := later } (fun vs => Act.get.bind fun s =>
    (if s.ns < (vs.headD 0).toNat then
      Act.modify fun s => s.setEng h.g fun e => { e with wait := some ⟨vs.headD 0, h.ring.sp, h.ring.sn⟩ }
     else Act.pure ()).andThen noResult) s

/-! ### Joint words (R111, R112) -/

/-- The engine that has the turn. -/
def Turn.engine : Turn → Option Eng
  | .eng g | .again g => some g
  | .units | .close => none

/-- The engine that has the turn waits at the joint word. -/
def State.waitJoint (s : State) (isEnd : Bool) : State :=
  match s.turn.engine with
  | none => s
  | some g => (s.setEng g fun e => { e with arrived := true, atEnd := isEnd, why := 9, since := some (e.since.getD s.clock) }).tickOn g

/-- All four engines leave a joint word of length len. -/
def State.leaveJoint (s : State) (len : Nat) : State :=
  Eng.list.foldl (fun s g =>
    let t := s.cur.setEngine g fun e => { e with arrived := false, atEnd := false, why := 0, since := none }
    let r := t.moveOn g len
    let s := { s with cur := r.1 }
    match r.2 with
    | some args => if s.cur.st == .running || s.cur.st == .handler then s.takeTrap g tWINDOW args else s
    | none => s) s

/-- No X result in flight. -/
def Strand.quietX (t : Strand) : Bool := t.fl.all fun f => f.g != .x

/-- Whether all four engines wait at one joint word. -/
def Strand.met (t : Strand) : Bool := t.eng.every fun e => e.arrived && e.pc == t.eng.w.pc

/-- A joint word: its effect comes at W's turn, once all four engines have arrived at it and `ready` holds. -/
def joint (isEnd : Bool) (ready : State → Bool) (effect : State → Out) (s : State) : Out :=
  let s := s.waitJoint isEnd
  if s.turn.engine = some .w ∧ s.cur.met ∧ ready s then effect s else .next s

/-- R112: the meeting only. -/
def execSync (s : State) : Out := joint false (fun s => s.cur.quietX) (fun s => .next (s.leaveJoint 1)) s

/-- Whether every result is written and every deferred signal posted. -/
def Strand.allQuiet (t : Strand) : Bool :=
  t.fl.isEmpty && (t.ops.all fun o => !(o.sp || o.sn)) && !((t.nest.map fun n => n.sp || n.sn).getD false) &&
    !((t.pend.map fun n => n.sp || n.sn).getD false)

/-- R112: X enters the region that T names. -/
def execMode (o : Bool) (s : State) : Out :=
  joint false (fun s => s.cur.allQuiet) (fun s =>
    .next ((s.setCur fun t => { t with x := { t.x with timed := o, dp := 0, sfu := 0, alu := 0 } }).leaveJoint 1)) s

end Sys2Proof.Machine
end

