-- ==== Sys2Proof/Machine/Flags.lean ====
section
/-! DEFINITION. What a floating-point result leaves besides its value: the FP events of R57 and R58, and the substitutes
that late lanes deliver at THRIFT 1 to 3 (R54). The machine has no condition flags. -/

namespace Sys2Proof.Machine

/-- One element of a result: its encoding, its events, whether it is a substitute. -/
structure Lane where
  v   : Nat
  ev  : Events
  sub : Bool
  deriving DecidableEq, Repr

def Events.none : Events := ⟨false, false, false, false⟩

/-- An element that raises no event. -/
def Lane.plain (v : Nat) : Lane := ⟨v, Events.none, false⟩

/-- An FP element: its exact value x as rounded to r in the format; a late lane substitutes (R54). A NaN, an infinity
and an overflow stand. -/
def fpLane (fmt : Fmt) (late : Bool) (x : Val) (r : Rounded) (srcNan srcInf : Bool) : Lane :=
  if late && (exact fmt r.enc).isFin && !r.ovf && x.isFin then
    let e := eightBits x fmt
    ⟨e.enc, eventsOf fmt e srcNan srcInf, true⟩
  else ⟨r.enc, eventsOf fmt r srcNan srcInf, false⟩

/-- Count events of several elements together (R58). -/
def State.fpEvents (s : State) (group : Nat) (es : List Events) : State :=
  let ctx := s.cur.sys.ctx.toNat
  let n := fun (f : Events → Bool) => (es.filter f).length
  (((s.fpCount s.curDie ctx s.cur.kern (4 * group) (n Events.nan)).fpCount s.curDie ctx s.cur.kern (4 * group + 1)
    (n Events.inf)).fpCount s.curDie ctx s.cur.kern (4 * group + 2) (n Events.ovf)).fpCount s.curDie ctx s.cur.kern
    (4 * group + 3) (n Events.unf)

/-- Count the events of a result's elements in the group of its format, and its substitutions under THRIFT_SUB. -/
def countLanes (fmt : Fmt) (ls : List Lane) : Act Unit := Act.modify fun s =>
  let s := match fmt.group with
    | some g => s.fpEvents g (ls.map Lane.ev)
    | none => s
  let n := (ls.filter Lane.sub).length
  if n = 0 then s else s.countDie s.curDie 0x261 (some s.cur.sys.ctx.toNat) n

/-- Which lanes of the result that X issues now are late: none at THRIFT 0, in formats that are not floating-point, or
under TRI (R54, R125); otherwise a free value per lane. -/
def lateLanes (fp : Bool) : Act (Nat → Bool) := fun s =>
  if !fp || s.cur.sys.thrift == 0 || s.cur.eng.x.tri.isSome then .ok (fun _ => false) s
  else .ok (Config.lateLane s.free) { s with free := s.free + 1 }

end Sys2Proof.Machine
end

