-- ==== Sys2Proof/Machine/Vector.lean ====
section
/-! DEFINITION. The vector file: element-wise instructions, conversion, axis instructions, special functions, tile and
memory accesses, predicates and moves of the X engine (R207 to R245). -/

namespace Sys2Proof.Machine

/-! ### The long form in effect (R66, R73) -/

/-- XV fields of an instruction: those of its extension, or of the short form with VFMT's format and rounding. -/
def Strand.xv (t : Strand) (x : Option XV) : XV :=
  match x with
  | some v => v
  | none =>
    { c := 0, pred := 0, fmt := BitVec.ofNat 4 (getBits t.sys.vfmt 0 4), rnd := BitVec.ofNat 3 (getBits t.sys.vfmt 4 3),
      sela := 0, selb := 0, flags := 0 }

/-- The governing predicate (R208). -/
def Strand.governs (t : Strand) (v : XV) : BitVec 1024 := t.x.pred v.pred.toNat

/-- Formats that instructions accept (R212). -/
def arithFmts : List Nat := [1, 2, 3, 10, 11]
def signFmts : List Nat := [1, 2, 3, 10]
def specialFmts : List Nat := [1, 2, 3]
def convFmts : List Nat := [1, 2, 3, 4, 5, 6, 7, 8, 9, 10, 11]
def quantFmts : List Nat := [4, 5, 6, 7, 8, 9]
def tileFmts : List Nat := 0 :: convFmts
def anyFmts : List Nat := 12 :: tileFmts

/-- Selectors below which a packed field of width w is named (R209). -/
def selLimit (code : Nat) : Nat := 32 / max 1 (codeBits code)

/-- Field s of width w of an element (R209). -/
def pick (w s : Nat) (e : W32) : Nat := e.toNat / 2 ^ (w * s) % 2 ^ w

/-- Three registers read in one bank (R214). -/
def bankClash (vs : List Nat) : Bool :=
  let ds := vs.foldl (fun (l : List Nat) n => if l.contains n then l else n :: l) []
  (tab 4 id).any fun b => decide (3 ≤ (ds.filter fun n => n % 4 == b).length)

/-- What an X instruction asks of the issue stage: vector sources, names it writes or reads besides, its unit and
latency, accepted formats, limits of SELA and SELB (1: the selector must be 0), other checks of R78; whether lanes can be late (R54). -/
structure VIssue where
  srcs  : List (BitVec 5 × Bool) := []
  vecs  : List Nat := []
  names : List Name := []
  unit  : Unit3 := .dp
  lat   : Nat := 6
  fmts  : List Nat := anyFmts
  sela  : Nat := 1
  selb  : Nat := 1
  ok    : Bool := true
  fp    : Bool := false
  deriving DecidableEq, Repr

def VIssue.issue (q : VIssue) (r : Ring) (opc : Nat) (x : Option XV) (t : Strand) : Issue :=
  let v := t.xv x
  { g := .x, ring := r, len := lenOf x, opc, srcs := q.srcs,
    uses := q.vecs.map Name.vec ++ (if v.pred = 0 then [] else [.pred v.pred.toNat]) ++ q.names,
    lat := q.lat, unit := q.unit, clash := bankClash q.vecs, vecs := q.vecs,
    legal := q.fmts.contains v.code && decide (v.rnd.toNat ≤ 5) && decide (v.sela.toNat < q.sela) &&
      decide (v.selb.toNat < q.selb) && q.ok }

/-! ### Results -/

/-- One element for each lane that the mask enables, computed from the lanes of three registers. -/
def laneMap (mask : BitVec 1024) (f : Nat → W32 → W32 → W32 → Lane) (a b c : List W32) : List Lane :=
  (a.zip (b.zip c)).zipIdx.map fun e =>
    if mask.getLsbD e.2 then f e.2 e.1.1 e.1.2.1 e.1.2.2 else Lane.plain 0

/-- Write lanes to register d under a mask and count their events. -/
def lanesDone (fmt : Fmt) (d : BitVec 5) (mask : BitVec 1024) (ls : List Lane) : Act Done :=
  (countLanes fmt ls).andThen (Act.pure (.of [.vec d.toNat mask (ls.map fun l => BitVec.ofNat 32 l.v)]))

/-- An element-wise instruction: f takes the rounding code, whether the lane is late, and the elements. -/
def elementwise (r : Ring) (opc : Nat) (o : F3) (x : Option XV) (q : VIssue) (useB useC : Bool)
    (f : XV → (Nat → Bool) → Nat → W32 → W32 → W32 → Lane) (s : State) : Out :=
  let v := s.cur.xv x
  let vecs := [o.a.toNat] ++ (if useB then [o.b.toNat] else []) ++ (if useC then [v.c.toNat] else [])
  issue ({ q with vecs, names := .vec o.d.toNat :: q.names }.issue r opc x s.cur) (fun _ =>
    (lateLanes (q.fp && v.format.isFp)).bind fun late => Act.get.bind fun s =>
    let mask := s.cur.governs v
    let a := s.cur.x.vec o.a.toNat
    let b := if useB then s.cur.x.vec o.b.toNat else a
    let c := if useC then s.cur.x.vec v.c.toNat else a
    lanesDone v.format o.d mask (laneMap mask (f v late) a b c)) s

/-! ### Arithmetic (R216 to R218) -/

/-- Signed for S32, unsigned otherwise. -/
def intOf (f : Fmt) (e : Nat) : Int := if f = .ix32 then (e % 2 ^ 32 : Nat) else toSigned 32 e

/-- An integer result: saturated when RND = 5, else modulo 2^32. -/
def intResult (f : Fmt) (rnd : Nat) (i : Int) : Nat :=
  if rnd = 5 then
    match f.intRange with
    | some (lo, hi) => clampEnc lo hi 32 i
    | none => 0
  else (i % (2 ^ 32 : Nat)).toNat

/-- VADD, VSUB, VMUL, VFMA on one lane. -/
def arithLane (fp : Nat → Val → Val → Val → Val) (int : Int → Int → Int → Int) (three : Bool)
    (v : XV) (late : Nat → Bool) (i : Nat) (a b c : W32) : Lane :=
  let f := v.format
  let w := f.bits
  let x := pick w v.sela.toNat a
  let y := pick w v.selb.toNat b
  let z := pick w 0 c
  if f.float.isSome then
    let xs := [exact f x, exact f y] ++ (if three then [exact f z] else [])
    let e := fp v.rnd.toNat (exact f x) (exact f y) (exact f z)
    fpLane f (late i) e (roundE e f v.rnd.toNat) (xs.any Val.isNan) (xs.any fun k => !k.isFin)
  else Lane.plain (intResult f v.rnd.toNat (int (intOf f x) (intOf f y) (intOf f z)))

/-- Limits of the two selectors in the effective format. -/
def State.selOf (s : State) (x : Option XV) : Nat := selLimit (s.cur.xv x).code

def arith (r : Ring) (opc : Nat) (o : F3) (x : Option XV) (fp : Nat → Val → Val → Val)
    (int : Int → Int → Int) (s : State) : Out :=
  elementwise r opc o x { fp := true, fmts := arithFmts, sela := s.selOf x, selb := s.selOf x } true false
    (arithLane (fun rnd a b _ => fp rnd a b) (fun a b _ => int a b) false) s

def execVadd (r : Ring) (o : F3) (x : Option XV) (s : State) : Out := arith r 0x60 o x Val.add (· + ·) s
def execVsub (r : Ring) (o : F3) (x : Option XV) (s : State) : Out := arith r 0x61 o x Val.sub (· - ·) s
def execVmul (r : Ring) (o : F3) (x : Option XV) (s : State) : Out := arith r 0x62 o x (fun _ => Val.mul) (· * ·) s

def execVfma (r : Ring) (o : F3) (x : XV) (s : State) : Out :=
  elementwise r 0x63 o (some x) { fp := true, fmts := arithFmts, sela := s.selOf (some x), selb := s.selOf (some x), lat := 8 } true true
    (arithLane (fun rnd a b c => Val.add rnd (Val.mul a b) c) (fun a b c => a * b + c) true) s

/-- Canonical NaN of a format. -/
def nanOf (f : Fmt) : Nat := match f.float with | some l => l.nanEnc | none => 0

/-- The greater (or lesser) of two encodings: R49, or integer order. -/
def maxEnc (f : Fmt) (less : Bool) (a b : Nat) : Nat :=
  if f.float.isSome then
    let x := exact f a
    let y := exact f b
    if x.isNan || y.isNan then nanOf f
    else if (if less then Val.above y x else Val.above x y) then a else b
  else if (if less then decide (intOf f a < intOf f b) else decide (intOf f b < intOf f a)) then a else b

/-- An FP element that is chosen, not rounded. -/
def chosenLane (f : Fmt) (late : Bool) (e : Nat) (srcNan : Bool) : Lane :=
  if f.float.isSome then fpLane f late (exact f e) ⟨e, false, false⟩ srcNan true else Lane.plain e

def minMax (r : Ring) (opc : Nat) (o : F3) (x : Option XV) (less : Bool) (s : State) : Out :=
  elementwise r opc o x { fp := true, fmts := arithFmts, sela := s.selOf x, selb := s.selOf x } true false
    (fun v late i a b _ =>
      let f := v.format
      let p := pick f.bits v.sela.toNat a
      let q := pick f.bits v.selb.toNat b
      chosenLane f (late i) (maxEnc f less p q) ((exact f p).isNan || (exact f q).isNan)) s

def execVmin (r : Ring) (o : F3) (x : Option XV) (s : State) : Out := minMax r 0x64 o x true s
def execVmax (r : Ring) (o : F3) (x : Option XV) (s : State) : Out := minMax r 0x65 o x false s

/-- VABS and VNEG: the sign bit, moved without arithmetic (R29) and so never substituted (R54), or an integer (R218). -/
def signOp (r : Ring) (opc : Nat) (o : F3) (x : Option XV) (bits : Nat → Nat → Nat) (int : Int → Int) (s : State) : Out :=
  elementwise r opc o x { fmts := signFmts, sela := s.selOf x } false false
    (fun v _ _ a _ _ =>
      let f := v.format
      let p := pick f.bits v.sela.toNat a
      if f.float.isSome then Lane.plain (bits f.bits p)
      else Lane.plain (intResult f v.rnd.toNat (int (intOf f p)))) s

def execVabs (r : Ring) (o : F3) (x : Option XV) (s : State) : Out :=
  signOp r 0x66 o x (fun w p => p % 2 ^ (w - 1)) (fun i => (i.natAbs : Int)) s
def execVneg (r : Ring) (o : F3) (x : Option XV) (s : State) : Out :=
  signOp r 0x67 o x (fun w p => (p + 2 ^ (w - 1)) % 2 ^ w) (fun i => -i) s

/-! ### Logic, shifts, compare, select, moves (R219 to R222) -/

/-- A bitwise instruction on whole elements. -/
def bitwise (r : Ring) (opc : Nat) (o : F3) (x : Option XV) (useB : Bool) (f : W32 → W32 → W32) : State → Out :=
  elementwise r opc o x {} useB false fun _ _ _ a b _ => Lane.plain (f a b).toNat

/-- Shift amount B[4:0]. -/
def shift5 (b : W32) : Nat := b.toNat % 32

def execVand (r : Ring) (o : F3) (x : Option XV) (s : State) : Out := bitwise r 0x68 o x true (· &&& ·) s
def execVor (r : Ring) (o : F3) (x : Option XV) (s : State) : Out := bitwise r 0x69 o x true (· ||| ·) s
def execVxor (r : Ring) (o : F3) (x : Option XV) (s : State) : Out := bitwise r 0x6A o x true (· ^^^ ·) s
def execVnot (r : Ring) (o : F3) (x : Option XV) (s : State) : Out := bitwise r 0x6B o x false (fun a _ => ~~~a) s
def execVshl (r : Ring) (o : F3) (x : Option XV) (s : State) : Out := bitwise r 0x6C o x true (fun a b => a <<< shift5 b) s
def execVshr (r : Ring) (o : F3) (x : Option XV) (s : State) : Out := bitwise r 0x6D o x true (fun a b => a >>> shift5 b) s
def execVsra (r : Ring) (o : F3) (x : Option XV) (s : State) : Out :=
  bitwise r 0x6E o x true (fun a b => a.sshiftRight (shift5 b)) s
def execVmov (r : Ring) (o : F3) (x : Option XV) (s : State) : Out := bitwise r 0x71 o x false (fun a _ => a) s

/-- Bits of a list, the first in bit 0. -/
def bitsOf (l : List Bool) : BitVec 1024 := BitVec.ofNat 1024 (l.foldr (fun b n => b2n b + 2 * n) 0)

/-- The test of a CC (R220). -/
def compareTest (f : Fmt) (cc a b : Nat) : Bool :=
  if f.float.isSome then
    let x := exact f a
    let y := exact f b
    let un := x.isNan || y.isNan
    match cc with
    | 0 => !un && x.cmp y == 0
    | 1 => un || x.cmp y != 0
    | 2 => !un && x.cmp y == -1
    | 3 => !un && x.cmp y != 1
    | 4 => !un && x.cmp y == 1
    | 5 => !un && x.cmp y != -1
    | _ => un
  else
    let i := intOf f a
    let j := intOf f b
    match cc with
    | 0 => i == j
    | 1 => i != j
    | 2 => decide (i < j)
    | 3 => decide (i ≤ j)
    | 4 => decide (j < i)
    | 5 => decide (j ≤ i)
    | _ => false

def execVcmp (r : Ring) (o : F3) (x : Option XV) (s : State) : Out :=
  let v := s.cur.xv x
  let q : VIssue := { fmts := arithFmts, sela := s.selOf x, selb := s.selOf x, vecs := [o.a.toNat, o.b.toNat],
                      names := [.pred o.d.toNat] }
  issue (q.issue r 0x6F x s.cur) (fun _ => Act.get.bind fun s =>
    let f := v.format
    let bit := fun (e : W32 × W32) =>
      compareTest f (getBits v.flags 0 3) (pick f.bits v.sela.toNat e.1) (pick f.bits v.selb.toNat e.2)
    let p := bitsOf (((s.cur.x.vec o.a.toNat).zip (s.cur.x.vec o.b.toNat)).map bit)
    Act.pure (.of [.pred o.d.toNat (s.cur.governs v) p])) s

def allLanes : BitVec 1024 := BitVec.allOnes 1024

def execVsel (r : Ring) (o : F3) (x : Option XV) (s : State) : Out :=
  let v := s.cur.xv x
  let q : VIssue := { vecs := [o.a.toNat, o.b.toNat], names := [.vec o.d.toNat] }
  issue (q.issue r 0x70 x s.cur) (fun _ => Act.get.bind fun s =>
    Act.pure (.of [.vec o.d.toNat allLanes
      (mixLanes (s.cur.governs v) (s.cur.x.vec o.a.toNat) (s.cur.x.vec o.b.toNat))])) s

/-- An instruction that writes a value of a scalar to every enabled element. -/
def splat (r : Ring) (opc : Nat) (o : F3) (x : Option XV) (f : XV → W32 → Nat → W32) (s : State) : Out :=
  let v := s.cur.xv x
  let q : VIssue := { srcs := [o.srcA], names := [.vec o.d.toNat] }
  issue (q.issue r opc x s.cur) (fun vs => Act.get.bind fun s =>
    Act.pure (.of [.vec o.d.toNat (s.cur.governs v) (tab 1024 (f v ((vs.headD 0).setWidth 32)))])) s

def execVsplat (r : Ring) (o : F3) (x : Option XV) (s : State) : Out := splat r 0x72 o x (fun _ k _ => k) s

/-- KIND 0: column, 1: row, 2: linear index. -/
def execVidx (r : Ring) (o : F3) (x : Option XV) (s : State) : Out :=
  splat r 0x73 o x (fun v k i =>
    k + BitVec.ofNat 32 (match getBits v.flags 0 2 with | 0 => i % 64 | 1 => i / 64 | _ => i)) s

/-! ### Conversion and quantisation (R223 to R226) -/

def execVcvt (r : Ring) (o : F3) (x : XV) (s : State) : Out :=
  let sf := getBits x.flags 0 4
  let src := (Fmt.ofCode sf).getD .untyped
  let q : VIssue := { fmts := convFmts, sela := selLimit sf, ok := convFmts.contains sf, vecs := [o.a.toNat],
                      names := [.vec o.d.toNat] }
  issue (q.issue r 0x74 (some x) s.cur) (fun _ =>
    (lateLanes x.format.isFp).bind fun late => Act.get.bind fun s =>
    let mask := s.cur.governs x
    let a := s.cur.x.vec o.a.toNat
    let f := x.format
    lanesDone f o.d mask (laneMap mask (fun i a _ _ =>
      let e := exact src (pick src.bits x.sela.toNat a)
      fpLane f (late i) e (roundE e f x.rnd.toNat) e.isNan (!e.isFin)) a a a)) s

def execVpack (r : Ring) (o : F3) (x : XV) (s : State) : Out :=
  let w := codeBits x.code
  let lo := w * getBits x.flags 0 3
  let q : VIssue := { fmts := convFmts, sela := selLimit x.code, ok := decide (getBits x.flags 0 3 < selLimit x.code),
                      vecs := [o.a.toNat, x.c.toNat], names := [.vec o.d.toNat] }
  issue (q.issue r 0x75 (some x) s.cur) (fun _ => Act.get.bind fun s =>
    let put := fun (e : W32 × W32) =>
      let m := BitVec.ofNat 32 (2 ^ w - 1) <<< lo
      (e.2 &&& ~~~m) ||| (BitVec.ofNat 32 (pick w x.sela.toNat e.1) <<< lo)
    Act.pure (.of [.vec o.d.toNat (s.cur.governs x)
      (((s.cur.x.vec o.a.toNat).zip (s.cur.x.vec x.c.toNat)).map put)])) s

def execVunpk (r : Ring) (o : F3) (x : Option XV) (s : State) : Out :=
  let v := s.cur.xv x
  let w := codeBits v.code
  let sx := flag v.flags 0
  let q : VIssue := { fmts := convFmts, sela := selLimit v.code, ok := !sx || [8, 9, 10, 11].contains v.code,
                      vecs := [o.a.toNat], names := [.vec o.d.toNat] }
  issue (q.issue r 0x76 x s.cur) (fun _ => Act.get.bind fun s =>
    let out := fun (e : W32) =>
      let p := pick w v.sela.toNat e
      if sx then BitVec.ofInt 32 (toSigned w p) else BitVec.ofNat 32 p
    Act.pure (.of [.vec o.d.toNat (s.cur.governs v) ((s.cur.x.vec o.a.toNat).map out)])) s

/-- M(f) of R225. -/
def quantMax (f : Fmt) : Nat :=
  match f with
  | .e4m3 => 448 | .e5m2 => 57344 | .e2m1 => 6 | .dsw8 => 2 | .s8 => 127 | _ => 7

/-- The scale byte of a row whose greatest magnitude is m: the least whose value is at least m / M. -/
def quantScale (f : Fmt) (m : Val) : Nat :=
  if m.isZero then 0
  else ((tabFrom id 1 254).find? fun s =>
    (Val.mul (scaleValue s) (.fin false (quantMax f) 1)).cmp m != -1).getD 0xFE

/-- Whether a quotient overflows its format before it is clamped. -/
def quantOver (f : Fmt) (x : Val) (rnd : Nat) (r : Rounded) : Bool :=
  !x.isFin || r.ovf || !(exact f r.enc).isFin ||
    match f.intRange, x with
    | some (lo, hi), .fin s n d =>
      let k : Int := roundNat (if rnd = 5 then 0 else rnd) s n d
      decide ((if s then -k else k) < lo) || decide (hi < (if s then -k else k))
    | _, _ => false

/-- One element of a row under scale s. -/
def quantLane (f : Fmt) (rnd s : Nat) (late : Bool) (a : Val) : Lane :=
  if a.isNan then fpLane f false .nan (roundE .nan f rnd) true true
  else if s = 0 then Lane.plain (round .zero f rnd)
  else
    let x := Val.div a (scaleValue s)
    let r := roundE x f rnd
    if quantOver f x rnd r then
      let e := (roundE (.fin a.neg (quantMax f) 1) f 5).enc
      ⟨e, { Events.none with ovf := true }, false⟩
    else fpLane f late x r false (!a.isFin)

/-- Lists of k elements each. -/
def chunks {α : Type} (k n : Nat) (l : List α) : List (List α) := tab n fun i => (l.drop (k * i)).take k

def execVqnt (r : Ring) (o : F3) (x : Option XV) (s : State) : Out :=
  let v := s.cur.xv x
  let q : VIssue := { fmts := quantFmts, lat := 10, vecs := [o.a.toNat], names := [.vec o.d.toNat, .vec (o.d.toNat + 1)] }
  issue (q.issue r 0x77 x s.cur) (fun _ =>
    (lateLanes v.format.isFp).bind fun late => Act.get.bind fun s =>
    let mask := s.cur.governs v
    let f := v.format
    let rows := (chunks 64 16 ((s.cur.x.vec o.a.toNat).map fun e => exact .f32 e.toNat)).zipIdx
    let scale := fun (row : List Val × Nat) => quantScale f ((row.1.zipIdx.filter fun e =>
      mask.getLsbD (64 * row.2 + e.2) && !e.1.isNan).foldl (fun m e => if m.cmp e.1.abs = -1 then e.1.abs else m) .zero)
    let scales := rows.map scale
    let lane := fun (s : Nat) (row : Nat) (e : Val × Nat) =>
      if mask.getLsbD (64 * row + e.2) then quantLane f v.rnd.toNat s (late (64 * row + e.2)) e.1 else Lane.plain 0
    let codes := ((rows.zip scales).map fun p => p.1.1.zipIdx.map (lane p.2 p.1.2)).flatten
    (lanesDone f o.d mask codes).bind fun d =>
    Act.pure { d with wb := d.wb ++ [.vec (o.d.toNat + 1) allLanes
      (scales.map fun s => List.replicate 64 (BitVec.ofNat 32 s)).flatten] }) s

def execVdqnt (r : Ring) (o : F3) (x : Option XV) (s : State) : Out :=
  let v := s.cur.xv x
  let f := v.format
  let q : VIssue := { fmts := quantFmts, sela := selLimit v.code, selb := 4, lat := 10, vecs := [o.a.toNat, o.b.toNat],
                      names := [.vec o.d.toNat] }
  issue (q.issue r 0x78 x s.cur) (fun _ =>
    (lateLanes true).bind fun late => Act.get.bind fun s =>
    let mask := s.cur.governs v
    let a := s.cur.x.vec o.a.toNat
    let b := s.cur.x.vec o.b.toNat
    lanesDone .f32 o.d mask (laneMap mask (fun i a b _ =>
      let e := exact f (pick f.bits v.sela.toNat a)
      let k := scaleValue (pick 8 v.selb.toNat b)
      let p := Val.mul e k
      fpLane .f32 (late i) p (roundE p .f32 0) (e.isNan || k.isNan) (!e.isFin || !k.isFin)) a b a)) s

/-! ### Axes (R227 to R233) -/

/-- Columns of 16 rows of 64, and back. -/
def columns {α : Type} (d : α) (rows : List (List α)) : List (List α) := tab 64 fun c => rows.map (·.getD c d)
def rowsOfColumns {α : Type} (d : α) (cols : List (List α)) : List (List α) := tab 16 fun r => cols.map (·.getD r d)

/-- A register as its lines along the row axis (16 of 64) or the column axis (64 of 16), and back. -/
def toLines {α : Type} (d : α) (byRow : Bool) (l : List α) : List (List α) :=
  if byRow then chunks 64 16 l else columns d (chunks 64 16 l)
def ofLines {α : Type} (d : α) (byRow : Bool) (ls : List (List α)) : List α :=
  if byRow then ls.flatten else (rowsOfColumns d ls).flatten

/-- A line turned by k: position i takes what was at i − k. -/
def rotateLine {α : Type} (k : Nat) (l : List α) : List α :=
  let j := k % max 1 l.length
  l.drop (l.length - j) ++ l.take (l.length - j)

/-- A move of whole lines. -/
def moveLines (r : Ring) (opc : Nat) (o : F3) (x : Option XV) (lat : Nat) (byRow : Bool) (bound : Option Nat)
    (f : Nat → List W32 → List W32) (s : State) : Out :=
  let v := s.cur.xv x
  let q : VIssue := { lat, srcs := [o.srcB], vecs := [o.a.toNat], names := [.vec o.d.toNat] }
  issue (q.issue r opc x s.cur) (fun vs =>
    let k := vs.headD 0
    (Act.check (match bound with | some n => decide (k.toNat < n) | none => true) tRANGE [k]).andThen <| Act.get.bind fun s =>
    Act.pure (.of [.vec o.d.toNat (s.cur.governs v)
      (ofLines 0 byRow ((toLines 0 byRow (s.cur.x.vec o.a.toNat)).map (f k.toNat)))])) s

def spreadElem (k : Nat) (l : List W32) : List W32 := List.replicate l.length (l.getD k 0)

def execVrotr (r : Ring) (o : F3) (x : Option XV) (s : State) : Out := moveLines r 0x80 o x 6 true none rotateLine s
def execVrotc (r : Ring) (o : F3) (x : Option XV) (s : State) : Out := moveLines r 0x81 o x 8 false none rotateLine s
def execVbcr (r : Ring) (o : F3) (x : Option XV) (s : State) : Out := moveLines r 0x82 o x 6 true (some 64) spreadElem s
def execVbcc (r : Ring) (o : F3) (x : Option XV) (s : State) : Out := moveLines r 0x83 o x 8 false (some 16) spreadElem s

/-- Identity of an operation (R230). -/
def identityOf (f : Fmt) (op : Nat) : Nat :=
  match op with
  | 1 => match f.float with | some l => l.infEnc true | none => if f = .s32 then 2 ^ 31 else 0
  | 2 => match f.float with | some l => l.infEnc false | none => if f = .s32 then 2 ^ 31 - 1 else 2 ^ 32 - 1
  | 3 => 2 ^ 32 - 1
  | _ => 0

/-- One combination of two encodings with its events; integer sums are formed elsewhere. -/
def combine (f : Fmt) (op rnd a b : Nat) : Rounded :=
  match op with
  | 0 => roundE (Val.add rnd (exact f a) (exact f b)) f rnd
  | 1 => ⟨maxEnc f false a b, false, false⟩
  | 2 => ⟨maxEnc f true a b, false, false⟩
  | 3 => ⟨a &&& b, false, false⟩
  | 4 => ⟨a ||| b, false, false⟩
  | _ => ⟨a ^^^ b, false, false⟩

/-- One level of the tree: neighbours pair by pair. -/
def pairUp (f : Rounded → Rounded → Rounded) : List Rounded → List Rounded
  | a :: b :: l => f a b :: pairUp f l
  | l => l

/-- The fixed tree over a line. -/
def tree (f : Rounded → Rounded → Rounded) : Nat → List Rounded → Rounded
  | 0, l => l.headD ⟨0, false, false⟩
  | n + 1, l => tree f n (pairUp f l)

/-- Whether an operation of a format works on whole bits: OP 3 to 5. -/
def bitOp (op : Nat) : Bool := decide (3 ≤ op)

/-- Sum of integers as a result of the format. -/
def sumInts (f : Fmt) (l : List Nat) : Int := l.foldl (fun s e => s + intOf f e) 0

/-- The reduction of a line. -/
def reduceLine (f : Fmt) (op rnd : Nat) (l : List Nat) : Rounded :=
  if op = 0 ∧ f.float.isNone then ⟨intResult f rnd (sumInts f l), false, false⟩
  else tree (fun a b => combine f op rnd a.enc b.enc) 6 (l.map fun e => ⟨e, false, false⟩)

/-- The prefixes of a line from the second element on, after prefix `acc` of the elements `seen`. -/
def scanFrom (f : Fmt) (op rnd : Nat) (acc : Nat) (seen : List Nat) : List Nat → List (Rounded × List Nat)
  | [] => []
  | e :: es =>
    let seen := e :: seen
    let r : Rounded := if op = 0 ∧ f.float.isNone then ⟨intResult f rnd (sumInts f seen), false, false⟩
      else combine f op rnd acc e
    (r, seen) :: scanFrom f op rnd r.enc seen es

def scanLine (f : Fmt) (op rnd : Nat) : List Nat → List (Rounded × List Nat)
  | [] => []
  | e :: es =>
    let r : Rounded := if op = 0 ∧ f.float.isNone then ⟨intResult f rnd (intOf f e), false, false⟩ else ⟨e, false, false⟩
    (r, [e]) :: scanFrom f op rnd r.enc [e] es

/-- The elements that take part, identities elsewhere, as lines of encodings. -/
def State.axisLines (s : State) (v : XV) (byRow : Bool) (op : Nat) (a : Nat) : List (List Nat) :=
  let f := v.format
  let w := if bitOp op then 32 else f.bits
  let mask := s.cur.governs v
  toLines 0 byRow ((s.cur.x.vec a).zipIdx.map fun e =>
    if mask.getLsbD e.2 then pick w v.sela.toNat e.1 else identityOf f op)

/-- A lane of a reduction or scan: its value, from the elements l; substitution acts on the value written (R215). -/
def axisLane (f : Fmt) (op : Nat) (late : Bool) (r : Rounded) (l : List Nat) : Lane :=
  if bitOp op || f.float.isNone then Lane.plain r.enc
  else fpLane f late (exact f r.enc) r (l.any fun e => (exact f e).isNan) (l.any fun e => !(exact f e).isFin)

/-- VREDR, VREDC, VSCANR, VSCANC: from each line, what each of its positions is given with its elements. -/
def axisOp (r : Ring) (opc : Nat) (o : F3) (x : Option XV) (lat : Nat) (byRow : Bool)
    (f : Fmt → Nat → Nat → List Nat → List (Rounded × List Nat)) (s : State) : Out :=
  let v := s.cur.xv x
  let op := getBits v.flags 0 3
  let q : VIssue := { lat, fmts := if bitOp op then anyFmts else arithFmts, sela := if bitOp op then 1 else s.selOf x,
                      vecs := [o.a.toNat], names := [.vec o.d.toNat] }
  issue (q.issue r opc x s.cur) (fun _ =>
    (lateLanes (!bitOp op && v.format.isFp)).bind fun late => Act.get.bind fun s =>
    let out := (s.axisLines v byRow op o.a.toNat).map (f v.format op v.rnd.toNat)
    let flat := ofLines (⟨0, false, false⟩, []) byRow out
    lanesDone (if bitOp op then .s32 else v.format) o.d allLanes
      (flat.zipIdx.map fun e => axisLane v.format op (late e.2) e.1.1 e.1.2)) s

def reduceAll (f : Fmt) (op rnd : Nat) (l : List Nat) : List (Rounded × List Nat) :=
  List.replicate l.length (reduceLine f op rnd l, l)

def execVredr (r : Ring) (o : F3) (x : Option XV) (s : State) : Out := axisOp r 0x84 o x 10 true reduceAll s
def execVredc (r : Ring) (o : F3) (x : Option XV) (s : State) : Out := axisOp r 0x85 o x 8 false reduceAll s
def execVscanr (r : Ring) (o : F3) (x : Option XV) (s : State) : Out := axisOp r 0x88 o x 12 true scanLine s
def execVscanc (r : Ring) (o : F3) (x : Option XV) (s : State) : Out := axisOp r 0x89 o x 9 false scanLine s

/-- Greater under the order of R50. -/
def above (f : Fmt) (a b : Nat) : Bool :=
  if f.float.isSome then Val.above (exact f a) (exact f b) else decide (intOf f b < intOf f a)

/-- A NaN with its quiet bit set. -/
def quieten (f : Fmt) (e : Nat) : Nat :=
  match f.float with
  | some l => if (exact f e).isNan then e ||| 2 ^ (l.mb - 1) else e
  | none => e

/-- The greatest enabled element of a line with its index; elements come with whether they are enabled. -/
def greatest (f : Fmt) (l : List (Nat × Bool)) : Option (Nat × Nat) :=
  l.zipIdx.foldl (fun best e =>
    if !e.1.2 then best
    else match best with
      | some b => if above f e.1.1 b.1 then some (e.1.1, e.2) else some b
      | none => some (e.1.1, e.2)) none

def argOp (r : Ring) (opc : Nat) (o : F3) (x : Option XV) (lat : Nat) (byRow : Bool) (s : State) : Out :=
  let v := s.cur.xv x
  let q : VIssue := { lat, fmts := arithFmts, sela := s.selOf x, vecs := [o.a.toNat],
                      names := [.vec o.d.toNat, .vec (o.d.toNat + 1)] }
  issue (q.issue r opc x s.cur) (fun _ =>
    (lateLanes v.format.isFp).bind fun late => Act.get.bind fun s =>
    let f := v.format
    let mask := s.cur.governs v
    let lines := toLines (0, false) byRow ((s.cur.x.vec o.a.toNat).zipIdx.map fun e =>
      (pick f.bits v.sela.toNat e.1, mask.getLsbD e.2))
    let best := lines.map fun l =>
      let b := match greatest f l with
        | some (e, i) => (quieten f e, i)
        | none => (identityOf f 1, 2 ^ 32 - 1)
      List.replicate l.length b
    let flat := ofLines (0, 0) byRow best
    (lanesDone f o.d allLanes (flat.zipIdx.map fun e => chosenLane f (late e.2) e.1.1 true)).bind fun d =>
    Act.pure { d with wb := d.wb ++ [.vec (o.d.toNat + 1) allLanes (flat.map fun e => BitVec.ofNat 32 e.2)] }) s

def execVargr (r : Ring) (o : F3) (x : Option XV) (s : State) : Out := argOp r 0x86 o x 10 true s
def execVargc (r : Ring) (o : F3) (x : Option XV) (s : State) : Out := argOp r 0x87 o x 8 false s

/-- Transpose of each 16 × 16 block (R233). -/
def transpose16 (l : List W32) : List W32 :=
  let rows := chunks 64 16 l
  (tab 16 fun r => (tab 4 fun q => tab 16 fun j => (rows.getD j []).getD (16 * q + r) 0).flatten).flatten

def execVtrn (r : Ring) (o : F3) (x : Option XV) (s : State) : Out :=
  let v := s.cur.xv x
  let q : VIssue := { lat := 10, vecs := [o.a.toNat], names := [.vec o.d.toNat] }
  issue (q.issue r 0x8A x s.cur) (fun _ => Act.get.bind fun s =>
    Act.pure (.of [.vec o.d.toNat (s.cur.governs v) (transpose16 (s.cur.x.vec o.a.toNat))])) s

/-! ### Special functions (R234) -/

/-- The result of a special function on an encoding. A late lane inside the fast interval delivers the fast result, as
any lane there does; elsewhere the exact result to 8 bits; a special case of R52, a NaN and an infinity stand (R54). -/
def specialLane (fn : SpecFn) (v : XV) (late : Nat → Bool) (i : Nat) (a _ _ : W32) : Lane :=
  let f := v.format
  let e := pick f.bits v.sela.toNat a
  let x := exact f e
  let r := fn.apply f e
  let sub := late i && (exact f r.enc).isFin && (fn.special x).isNone
  let r := if sub && !fn.fast f e then fn.rounded x fun y => eightBits y f else r
  ⟨r.enc, eventsOf f r x.isNan (!x.isFin), sub⟩

def specialFn (r : Ring) (opc : Nat) (o : F3) (x : Option XV) (fn : SpecFn) (s : State) : Out :=
  elementwise r opc o x { fp := true, fmts := specialFmts, sela := s.selOf x, unit := .sfu, lat := 24 } false false (specialLane fn) s

def execVexp2 (r : Ring) (o : F3) (x : Option XV) (s : State) : Out := specialFn r 0x90 o x .exp2 s
def execVlog2 (r : Ring) (o : F3) (x : Option XV) (s : State) : Out := specialFn r 0x91 o x .log2 s
def execVrcp (r : Ring) (o : F3) (x : Option XV) (s : State) : Out := specialFn r 0x92 o x .rcp s
def execVrsq (r : Ring) (o : F3) (x : Option XV) (s : State) : Out := specialFn r 0x93 o x .rsq s
def execVtanh (r : Ring) (o : F3) (x : Option XV) (s : State) : Out := specialFn r 0x94 o x .tanh s
def execVsigm (r : Ring) (o : F3) (x : Option XV) (s : State) : Out := specialFn r 0x95 o x .sigm s
def execVsin (r : Ring) (o : F3) (x : Option XV) (s : State) : Out := specialFn r 0x96 o x .sin s
def execVcos (r : Ring) (o : F3) (x : Option XV) (s : State) : Out := specialFn r 0x97 o x .cos s

/-! ### Tiles (R235, R236) -/

/-- The tile and origin checks that VLD and VST share. -/
def tileOrigin (h org : Word) (write : Bool) (side : Nat) : Act (Nat × Tile) :=
  (if write then writableTile h else heldTile h).bind fun p =>
  (Act.check (decide (org.toNat < 2 ^ 32)) tRANGE []).andThen <|
  (Act.check (side != 0 || org.toNat / 65536 % 4 == 0) tALIGN []).andThen <|
  (Act.check (side == 0 || org.toNat / 65536 == 0) tRANGE []).andThen <|
  Act.get.bind fun s =>
  let row := org.toNat % 65536
  (Act.until (!s.rowsBusy p.1 row (row + if side = 2 then 64 else 16)) 0).andThen (Act.pure p)

def Tile.rowSide (t : Tile) (r : Nat) : W32 := if t.rows ≤ r then padding else t.sidecar r

/-- What VLD reads for element (r, c). -/
def Tile.vldElem (t : Tile) (side row off r c : Nat) : W32 :=
  match side with
  | 1 => t.rowSide (row + r)
  | 2 => t.rowSide (row + c)
  | _ =>
    if t.rows ≤ row + r ∨ t.rb < off + 4 * c + 4 then 0
    else BitVec.ofNat 32 (leNat (t.front.bytes ((row + r) * t.rb + off + 4 * c) 4))

/-- Level N of the tile that the next read of x register a names (R213). -/
def State.nearTile (s : State) (a : BitVec 5) : Bool :=
  match s.cur.readSrcs .x [(a, true)] s.cur.links with
  | .ok (v :: _) _ => ((s.cur.tile? v.toNat).map Tile.near).getD false
  | _ => false

def execVld (r : Ring) (o : F3) (x : Option XV) (s : State) : Out :=
  let v := s.cur.xv x
  let side := getBits v.flags 0 2
  let q : VIssue := { srcs := o.srcs, names := [.vec o.d.toNat], lat := if s.nearTile o.a then 40 else 12 }
  issue (q.issue r 0xA0 x s.cur) (fun vs =>
    let org := vs.getD 1 0
    (tileOrigin (vs.headD 0) org false side).bind fun p => Act.get.bind fun s =>
    let mask := s.cur.governs v
    let row := org.toNat % 65536
    (if side = 0 then rowsSound p.2 ((tab 16 (row + ·)).filter fun i => decide (i < p.2.rows)) (org.toNat / 65536) 256
     else Act.pure ()).andThen <|
    Act.pure (.of [.vec o.d.toNat mask (tab 1024 fun i =>
      if mask.getLsbD i then p.2.vldElem side row (org.toNat / 65536) (i / 64) (i % 64) else 0)])) s

/-- Linear indices that a mask enables. -/
def enabled (mask : BitVec 1024) : List Nat := (tab 1024 id).filter fun i => mask.getLsbD i

/-- Tag and descriptors of a write through VST or an epilogue (R186): the tag at once; descriptors of the blocks at
the given offsets; FMT settles where that is due. -/
def Tile.typed (t : Tile) (tag : W16) (settle : Bool) (desc : W16) (blocks : List Nat) : Tile :=
  let t := { t with tag }
  if !t.ds then t
  else
    let h := { t.front with desc := blocks.foldl (fun m j => SMap.set m j desc) t.front.desc }
    let t := t.setFront h
    let all := t.allDescs
    let d := all.headD 0
    if settle && all.all fun k => descFmt k == descFmt d && descScaled k == descScaled d then
      { t with tag := tagOf (descFmt d) (descScaled d) (tagSpc t.tag) }
    else t

/-- Writes of whole words of 64 bits at the given places of a tile's front half clear the errors there (R314). -/
def healWords (t : Tile) (at' : List Nat) : Act Unit := Act.modify fun s =>
  if s.mem.poison.isEmpty then s
  else at'.foldl (fun s o => s.heal t.store (s.tileSpot t t.half o) 8) s

def execVst (r : Ring) (o : F3) (x : Option XV) (s : State) : Out :=
  let v := s.cur.xv x
  let q : VIssue := { srcs := o.srcs, vecs := [o.d.toNat], fmts := tileFmts, lat := 1 }
  issue (q.issue r 0xA1 x s.cur) (fun vs =>
    let org := vs.getD 1 0
    (tileOrigin (vs.headD 0) org true 0).bind fun p => Act.get.bind fun s =>
    let row := org.toNat % 65536
    let off := org.toNat / 65536
    let es := enabled (s.cur.governs v)
    let data := s.cur.x.vec o.d.toNat
    let t := p.2
    (Act.check (es.all fun i => decide (row + i / 64 < t.rows) && decide (off + 4 * (i % 64) + 4 ≤ t.rb)) tRANGE [org]).andThen <|
    let place := fun i => (row + i / 64) * t.rb + off + 4 * (i % 64)
    (if v.code = 0 then Act.pure (t.tag, false)
     else match t.retag v.code false 0 false with
       | some m => Act.pure m
       | none => Act.trap tTAGCONFLICT []).bind fun m =>
    (healWords t ((es.filter fun i => place i % 8 == 0 && i % 64 != 63 && es.contains (i + 1)).map place)).andThen <|
    (updTile p.1 fun t =>
      let h := es.foldl (fun (h : Half) i => h.put (place i) (leBytes 4 (data.getD i 0).toNat)) t.front
      let t := t.setFront h
      if v.code = 0 then t else t.typed m.1 m.2 (plainDesc v.code false) (es.map fun i => place i / 64)).andThen noResult) s

/-! ### Memory (R237, R238) -/

/-- Addresses of the enabled elements in linear order, with the checks of R237. -/
def gatherAddrs (base : Word) (idx : List W32) (v : XV) (mask : BitVec 1024) (wr : Bool) : Act (List (Nat × Word)) :=
  let size := 2 ^ getBits v.flags 2 2
  let es : List (Nat × Word) := (enabled mask).map fun i => (i, base + ((idx.getD i 0).signExtend 64 <<< getBits v.flags 0 2))
  (match es.find? fun (e : Nat × Word) => e.2.toNat % size != 0 with
   | some (_, a) => Act.trap tALIGN [a]
   | none => Act.pure ()).andThen <|
  (match es.find? fun (e : Nat × Word) => !canonical e.2 with
   | some (_, a) => Act.trap tPROTECT [a, w64 (256 * b2n wr)]
   | none => Act.pure ()).andThen (Act.pure es)

def execVldg (r : Ring) (o : F3) (x : Option XV) (s : State) : Out :=
  let v := s.cur.xv x
  let size := 2 ^ getBits v.flags 2 2
  let q : VIssue := { srcs := [o.srcA], vecs := [o.b.toNat], names := [.vec o.d.toNat], lat := 40, ok := !s.cur.x.timed }
  issue (q.issue r 0xA2 x s.cur) (fun vs => Act.get.bind fun s =>
    let mask := s.cur.governs v
    (gatherAddrs (vs.headD 0) (s.cur.x.vec o.b.toNat) v mask false).bind fun es =>
    (readPieces (es.map fun e => (e.2, size))).bind fun bs =>
    let val := fun (b : List Byte) =>
      if flag v.flags 4 then BitVec.ofInt 32 (toSigned (8 * size) (leNat b)) else BitVec.ofNat 32 (leNat b)
    let out := (es.zip bs).foldl (fun (m : SMap W32) e => SMap.set m e.1.1 (val e.2)) []
    Act.pure (.of [.vec o.d.toNat mask (tab 1024 fun i => SMap.getD out i 0)])) s

def execVstg (r : Ring) (o : F3) (x : Option XV) (s : State) : Out :=
  let v := s.cur.xv x
  let size := 2 ^ getBits v.flags 2 2
  let q : VIssue := { srcs := [o.srcA], vecs := [o.d.toNat, o.b.toNat], lat := 1, ok := !s.cur.x.timed }
  issue (q.issue r 0xA3 x s.cur) (fun vs => Act.get.bind fun s =>
    let data := s.cur.x.vec o.d.toNat
    (gatherAddrs (vs.headD 0) (s.cur.x.vec o.b.toNat) v (s.cur.governs v) true).bind fun es =>
    (storeAll (es.map fun e => ⟨e.2, leBytes size (data.getD e.1 0).toNat, none⟩) 0).andThen noResult) s

/-! ### Predicates and moves (R240 to R245) -/

/-- Issue of a predicate or move instruction: no format, no governing predicate. -/
def predIssue (r : Ring) (opc len lat : Nat) (unit : Unit3) (srcs : List (BitVec 5 × Bool)) (vecs : List Nat)
    (uses : List Name) : Issue :=
  { g := .x, ring := r, len, opc, srcs, uses := vecs.map Name.vec ++ uses, lat, unit, clash := bankClash vecs, vecs }

/-- A bitwise predicate instruction. -/
def predOp (r : Ring) (opc : Nat) (o : F3) (x : Option XV) (f : BitVec 1024 → BitVec 1024 → BitVec 1024) : State → Out :=
  issue (predIssue r opc (lenOf x) 2 .alu [] [] [.pred o.a.toNat, .pred o.b.toNat, .pred o.d.toNat]) fun _ =>
    Act.get.bind fun s =>
    Act.pure (.of [.pred o.d.toNat allLanes (f (s.cur.x.pred o.a.toNat) (s.cur.x.pred o.b.toNat))])

def execPand (r : Ring) (o : F3) (x : Option XV) (s : State) : Out := predOp r 0xB0 o x (· &&& ·) s
def execPor (r : Ring) (o : F3) (x : Option XV) (s : State) : Out := predOp r 0xB1 o x (· ||| ·) s
def execPxor (r : Ring) (o : F3) (x : Option XV) (s : State) : Out := predOp r 0xB2 o x (· ^^^ ·) s
def execPnot (r : Ring) (o : F3) (x : Option XV) (s : State) : Out := predOp r 0xB3 o x (fun a _ => ~~~a) s

/-- PCNT and PFIRST: a number from a predicate. -/
def predNumber (r : Ring) (opc : Nat) (o : F3) (x : Option XV) (f : List Nat → Nat) : State → Out :=
  issue (predIssue r opc (lenOf x) 4 .alu [] [] [.pred o.a.toNat, .reg o.d]) fun _ => Act.get.bind fun s =>
    result o.d (w64 (f (enabled (s.cur.x.pred o.a.toNat))))

def execPcnt (r : Ring) (o : F3) (x : Option XV) (s : State) : Out := predNumber r 0xB4 o x List.length s
def execPfirst (r : Ring) (o : F3) (x : Option XV) (s : State) : Out := predNumber r 0xB5 o x (·.headD 1024) s

def execPlen (r : Ring) (o : F3) (x : Option XV) (s : State) : Out :=
  issue (predIssue r 0xB6 (lenOf x) 2 .alu o.srcs [] [.pred o.d.toNat]) (fun vs =>
    let rows := (vs.headD 0).toNat
    let cols := (vs.getD 1 0).toNat
    Act.pure (.of [.pred o.d.toNat allLanes
      (bitsOf (tab 1024 fun i => decide (i / 64 < rows) && decide (i % 64 < cols)))])) s

/-- The mask of R243, also of segment-equal and causal masking in the nest (R271). -/
def segMatch (causal : Bool) (a b : W32) : Bool :=
  a != padding && b != padding && getBits a 16 16 == getBits b 16 16 &&
    (!causal || decide (getBits b 0 16 ≤ getBits a 0 16))

def execPseg (r : Ring) (o : F3) (x : Option XV) (s : State) : Out :=
  let causal := match x with | some v => flag v.flags 0 | none => false
  issue (predIssue r 0xB7 (lenOf x) 6 .dp [] [o.a.toNat, o.b.toNat] [.pred o.d.toNat]) (fun _ => Act.get.bind fun s =>
    Act.pure (.of [.pred o.d.toNat allLanes
      (bitsOf (((s.cur.x.vec o.a.toNat).zip (s.cur.x.vec o.b.toNat)).map fun e => segMatch causal e.1 e.2))])) s

def execVtox (r : Ring) (o : F3) (x : Option XV) (s : State) : Out :=
  let sx := match x with | some v => flag v.flags 0 | none => false
  issue (predIssue r 0xB8 (lenOf x) 6 .dp [o.srcB] [o.a.toNat] [.reg o.d]) (fun vs =>
    let i := vs.headD 0
    (Act.check (decide (i.toNat < 1024)) tRANGE [i]).andThen <| Act.get.bind fun s =>
    let e := (s.cur.x.vec o.a.toNat).getD i.toNat 0
    result o.d (if sx then e.signExtend 64 else e.setWidth 64)) s

def execXtov (r : Ring) (o : F3) (x : Option XV) (s : State) : Out :=
  issue (predIssue r 0xB9 (lenOf x) 6 .dp o.srcs [] [.vec o.d.toNat]) (fun vs =>
    let i := vs.getD 1 0
    (Act.check (decide (i.toNat < 1024)) tRANGE [i]).andThen <|
    Act.pure (.of [.vec o.d.toNat ((1 : BitVec 1024) <<< (i.toNat % 1024)) (List.replicate 1024 ((vs.headD 0).setWidth 32))])) s

/-- VFMT takes effect at the end of the tick (R245). -/
def setVfmt (v : Word) : Act Done :=
  (Act.modify fun s => s.setCur fun t => { t with lates := t.lates ++ [(.x, .sys .x 6 v)] }).andThen noResult

def execVfmt (r : Ring) (o : F3) (s : State) : Out :=
  issue (predIssue r 0xBA 1 1 .alu [o.srcA] [] []) (fun vs =>
    let v := vs.headD 0
    (Act.check (decide (v.toNat < 128)) tRANGE []).andThen (setVfmt v)) s

def execVfmtImm (r : Ring) (_ : F3) (x : XV) (s : State) : Out :=
  issue (predIssue r 0xBA 2 1 .alu [] [] []) (fun _ => setVfmt (w64 (x.fmt.toNat + 16 * x.rnd.toNat))) s

end Sys2Proof.Machine
end

