-- ==== Sys2Proof/Machine/Nest.lean ====
section
/-! DEFINITION. Operand slots, accumulator tiles, the matrix nest and its epilogue: the M engine's instructions and the
steps of the nest unit (R246 to R271). -/

namespace Sys2Proof.Machine

/-! ### Slots (R247 to R250, R267) -/

/-- Slots of the core that the strand at the front holds. -/
def State.heldSlots (s : State) : List Nat :=
  ((s.slots s.curCore).zipIdx.filter fun e => e.1.heldBy s.cur.key).map (·.2)

/-- The least run of n free slots. -/
def freeRun (slots : List OpSlot) (n : Nat) : Option Nat :=
  (tab (65 - n) id).find? fun k => ((slots.drop k).take n).all fun o => o.st == .free

/-- Claim slots k to k + n − 1 for the strand at the front; their contents and tags are undefined. -/
def State.claim (s : State) (k n : Nat) : State :=
  let key := s.cur.key
  (List.range n).foldl (fun s i => s.loseSlot (k + i) fun v => { v with st := .claimed, holder := some key, filled := false }) s

/-- Free one slot. -/
def State.freeSlot (s : State) (n : Nat) : State :=
  s.setSlot s.curCore n fun o => { o with st := .free, holder := none, filled := false }

def execSlclaim (r : Ring) (o : F3) (s : State) : Out :=
  issue (r.issue .m 0x60 1 [o.a] [.reg o.d] 2) (fun vs => Act.get.bind fun s =>
    let n := (vs.headD 0).toNat
    (Act.check (decide (1 ≤ n) && decide (n ≤ 64)) tRANGE []).andThen <|
    (Act.check (decide (s.heldSlots.length + n ≤ s.cur.nslots)) tSLOT []).andThen <|
    match freeRun (s.slots s.curCore) n with
    | some k => (Act.modify fun s => s.claim k n).andThen (result o.d (w64 k))
    | none =>
      if flag o.s 0 then result o.d Word.ones
      else (Act.modify fun s => s.postOnce .slclaimGrant s.cur.key).andThen (Act.wait 0)) s

/-- SLCLAIM_GRANT: a waiting SLCLAIM is granted in the period in which enough slots are free, after the period's
releases (R249, R267). -/
def execSlclaimGrant (k : Nat) (s : State) : Out :=
  onStrand k (fun s =>
    if s.cur.st ≠ .running ∧ s.cur.st ≠ .handler then .next s
    else
      let w := s.cur.wordsAt (s.cur.engine .m).pc
      match decode w.1 w.2 with
      | .ok (.slclaim r o) =>
        match s.cur.readSrcs .m [(o.a, false)] s.cur.links with
        | .ok (v :: _) _ =>
          if (freeRun (s.slots s.curCore) v.toNat).isSome ∧ (s.cur.engine .m).moving.isNone then execSlclaim r o s else .next s
        | _ => .next s
      | _ => .next s) s

/-- A slot that a cancelled attempt released and that the strand no longer holds (R250). -/
def Strand.lostSlot (t : Strand) (n : Nat) : Bool := t.ph.relSlots.contains (n + 64)

def execSlrel (r : Ring) (o : F3) (s : State) : Out :=
  issue (r.issue .m 0x61 1 [o.a, o.b] [] 1) (fun vs => Act.get.bind fun s =>
    let k := (vs.headD 0).toNat
    let n := (vs.getD 1 0).toNat
    (Act.check (decide (k + n ≤ 64)) tRANGE []).andThen <|
    let all := tabFrom id k (min n 64)
    let held := all.filter fun i => (s.slot s.curCore i).heldBy s.cur.key
    (Act.check (all.all fun i => held.contains i || s.cur.lostSlot i) tSLOT []).andThen <|
    (Act.until (held.all fun i => (s.slot s.curCore i).st == .claimed || (s.slot s.curCore i).st == .full) 0).andThen <|
    (Act.modify fun s => State.setPhase (held.foldl State.freeSlot s) fun p =>
      { p with relSlots := p.relSlots ++ held.filter fun i => !p.relSlots.contains i }).andThen noResult) s

def SlotSt.code : SlotSt → Nat
  | .free => 0 | .claimed => 1 | .filling => 2 | .full => 3 | .busy => 4

def execSlqry (r : Ring) (o : F3) (s : State) : Out :=
  issue (r.issue .m 0x62 1 [o.a] [.reg o.d] 1) (fun vs => Act.get.bind fun s =>
    let n := (vs.headD 0).toNat
    let slots := s.slots s.curCore
    if n = 64 then result o.d (w64 (slots.filter fun k => k.st == .free).length)
    else if 64 < n then Act.trap tRANGE []
    else
      let k := s.slot s.curCore n
      result o.d (w64 (k.st.code + 8 * b2n (k.heldBy s.cur.key) + 16 * k.tag.toNat))) s

/-! ### Accumulator tiles (R251, R266, R268, R271) -/

/-- The register that names an accumulator tile, unless the long form does. -/
def accSrcs (f : BitVec 5) (x : Option MC) : List (BitVec 5) :=
  match x with
  | some e => if e.ic then [] else [f]
  | none => [f]

def accArg (x : Option MC) (vs : List Word) : Word × List Word :=
  match x with
  | some e => if e.ic then (e.cn.setWidth 64, vs) else (vs.headD 0, vs.drop 1)
  | none => (vs.headD 0, vs.drop 1)

/-- Tiles that a nest holds (R261): those that c, SX or a KIND 1 destination can name, in every mode. -/
def NestCfg.holds (c : NestCfg) (n : Nat) : Bool :=
  ((levelOffsets NestLevel.sc false c.lv).any fun d => (c.c0 : Int) + d == n) || c.sx == n ||
    (c.epi.kind == 1 && (levelOffsets NestLevel.sc true c.lv).any fun d =>
      ((c.epi.dest.toNat % 64 : Nat) : Int) + d * c.epi.dstep.toInt == n)

/-- An accumulator tile of the strand, once no nest holds it. -/
def accTile (v : Word) : Act (Nat × AccTile) := Act.get.bind fun s =>
  match s.cur.acc[v.toNat]? with
  | none => Act.trap tHANDLE [v]
  | some c => (Act.until (!(s.cur.nests.any fun n => n.cfg.holds v.toNat)) 0).andThen (Act.pure (v.toNat, c))

/-- Where byte off of an accumulator tile lies in the addresses that a scrub gives: 16 KiB of elements, then m and l of
each row (assumption log 42). -/
def State.accSpot (s : State) (n off : Nat) : Nat := spot s.curCore (keySlot s.cur.key * 2 ^ 24 + n * 2 ^ 16 + off)

/-- A read of n bytes of an accumulator tile. -/
def accSound (c off n : Nat) : Act Unit := fun s => sound .accumulator (s.accSpot c off) n s

/-- A write of n bytes of an accumulator tile. -/
def accHeal (c off n : Nat) : Act Unit := Act.modify fun s => s.heal .accumulator (s.accSpot c off) n

def Strand.setAcc (t : Strand) (n : Nat) (c : AccTile) : Strand := { t with acc := upd t.acc n fun _ => c }

def putAcc (n : Nat) (c : AccTile) : Act Unit := Act.modify fun s => s.setCur fun t => t.setAcc n c

def execAccz (r : Ring) (o : F3) (x : Option MC) (s : State) : Out :=
  issue (r.issue .m 0x63 (lenOf x) (accSrcs o.d x) [] 8) (fun vs =>
    (accTile (accArg x vs).1).bind fun p => (accHeal p.1 0 16896).andThen <| (putAcc p.1 (.zero true)).andThen noResult) s

/-- The tile number when its register comes after two others (R109). -/
def accLast (x : Option MC) (vs : List Word) : Word := (accArg x (vs.drop 2)).1

/-- Level N of the tile that ACCLD's handle register names, as its sources stand. -/
def State.accldNear (s : State) (o : F3) (x : Option MC) : Bool :=
  match s.cur.readSrcs .m ((o.a :: accSrcs o.d x).map fun n => (n, true)) s.cur.links with
  | .ok vs _ => ((vs.head?.bind fun v => s.cur.tile? v.toNat).map Tile.near).getD false
  | _ => false

def execAccld (r : Ring) (o : F3) (x : Option MC) (s : State) : Out :=
  issue (r.issue .m 0x64 (lenOf x) ([o.a, o.b] ++ accSrcs o.d x) [] (if s.accldNear o x then 72 else 40)) (fun vs =>
    let row0 := (vs.getD 1 0).toNat
    (accTile (accLast x vs)).bind fun p => (heldTile (vs.headD 0)).bind fun t =>
    (Act.check (tagFmt t.2.tag ≤ 1) tTAGCONFLICT []).andThen <| Act.get.bind fun s =>
    (Act.until (!s.rowsBusy t.1 row0 (row0 + 64)) 0).andThen <|
    (rowsSound t.2 ((tab 64 (row0 + ·)).filter fun i => decide (i < t.2.rows)) 0 256).andThen <| (accHeal p.1 0 16384).andThen <|
    let elem := fun e => t.2.vldElem 0 row0 0 (e / 64) (e % 64)
    (putAcc p.1 { p.2 with c := tab 4096 elem, pi := true }).andThen noResult) s

def execNdrain (r : Ring) (o : F3) (x : Option MC) (s : State) : Out :=
  let side := match x with | some e => e.side | none => false
  let d := o.d.toNat
  issue (r.issue .m 0x6D (lenOf x) (accSrcs o.a x) (if side then [.vec d] else tab 4 fun q => .vec (d + q)) 36) (fun vs =>
    (accTile (accArg x vs).1).bind fun p => (if side then accSound p.1 16384 512 else accSound p.1 0 16384).andThen <|
    Act.pure (.of (if side then [.vec d allLanes (p.2.m ++ p.2.l ++ List.replicate 896 0)]
      else tab 4 fun q => .vec (d + q) allLanes ((p.2.c.drop (1024 * q)).take 1024)))) s

def execSmxrd (r : Ring) (o : F3) (x : Option MC) (s : State) : Out :=
  issue (r.issue .m 0x6E (lenOf x) (accSrcs o.a x ++ [o.b]) [.reg o.d] 2) (fun vs =>
    let (cv, vs) := accArg x vs
    let b := (vs.headD 0).toNat
    (accTile cv).bind fun p => (Act.check (decide (b < 64)) tRANGE []).andThen <| (accSound p.1 (16384 + 8 * b) 8).andThen <|
    result o.d (p.2.l.getD b 0 ++ p.2.m.getD b 0)) s

def execSmxset (r : Ring) (o : F3) (x : Option MC) (s : State) : Out :=
  issue (r.issue .m 0x6F (lenOf x) ([o.a, o.b] ++ accSrcs o.d x) [] 2) (fun vs =>
    let v := vs.headD 0
    let b := (vs.getD 1 0).toNat
    (accTile (accLast x vs)).bind fun p => (Act.check (decide (b < 64)) tRANGE []).andThen <| (accHeal p.1 (16384 + 8 * b) 8).andThen <|
    (putAcc p.1 { p.2 with m := upd p.2.m b fun _ => v.setWidth 32, l := upd p.2.l b fun _ => (v >>> 32).setWidth 32 }).andThen
      noResult) s

/-! ### The shadow configuration (R256, R263, R269) -/

def setShadow (f : NestCfg → NestCfg) : Act Done :=
  (Act.modify fun s => s.setCur fun t => { t with shadow := f t.shadow }).andThen noResult

def execNlvl (r : Ring) (o : F3) (x : NL) (s : State) : Out :=
  issue (r.issue .m 0x65 2 (if x.kind then [] else [o.a]) (if x.kind then [.sh x.sh.toNat] else []) 1) (fun vs => Act.get.bind fun s =>
    let n := if x.kind then (s.cur.ext x.sh.toNat x.ext.toNat).toNat else (vs.headD 0).toNat
    (Act.check (decide (n < 2 ^ 32)) tRANGE []).andThen <|
    setShadow fun c => { c with lv := upd c.lv o.d.toNat fun _ => ⟨n, x.sa.toInt, x.sb.toInt, x.sc.toInt, x.k⟩ }) s

def execNops (r : Ring) (o : F3) (x : NO) (s : State) : Out :=
  issue { r.issue .m 0x66 2 [] [] 1 with
      early := (earlyCheck (decide (x.c0.toNat < 48)) tHANDLE [x.c0.setWidth 64]).or
        (earlyCheck (decide (x.sx.toNat < 48)) tHANDLE [x.sx.setWidth 64]) } (fun _ => setShadow fun c => { c with a0 := x.a0.toNat, b0 := x.b0.toNat, c0 := x.c0.toNat, v0 := x.v0.toNat, sx := x.sx.toNat, acc := flag o.d 0 }) s

def execNmode (r : Ring) (o : F3) (s : State) : Out :=
  issue (r.issue .m 0x68 1 [] [] 1) (fun _ => setShadow fun c => { c with mode := o.d.toNat }) s

def execNseg (r : Ring) (o : F3) (s : State) : Out :=
  issue (r.issue .m 0x69 1 [] [] 1) (fun _ => setShadow fun c => { c with seg := o.d.toNat }) s

def execNscl (r : Ring) (o : F3) (s : State) : Out :=
  issue (r.issue .m 0x6A 1 [o.a] [] 1) (fun vs =>
    let v := vs.headD 0
    (Act.check (decide (v.toNat < 2 ^ 32)) tRANGE []).andThen <|
    setShadow fun c => if o.d = 0 then { c with gscale := v.setWidth 32 } else { c with smscale := v.setWidth 32 }) s

/-- The block of 64 bytes. -/
def Epi.ofBytes (b : List Byte) : Epi :=
  { kind := field b 0 1, ofmt := field b 1 1, act := field b 2 1, flags := field b 3 1,
    scale := BitVec.ofNat 32 (field b 4 4), clo := BitVec.ofNat 32 (field b 8 4), chi := BitVec.ofNat 32 (field b 12 4),
    bias := w64 (field b 16 8), bstep := BitVec.ofNat 32 (field b 24 4), dstep := BitVec.ofNat 32 (field b 28 4),
    dest := w64 (field b 32 8), rstr := w64 (field b 40 8), rsv := field b 48 16 }

def Epi.biased (e : Epi) : Bool := e.flags % 2 == 1
def Epi.clamped (e : Epi) : Bool := e.flags / 2 % 2 == 1
def Epi.quant (e : Epi) : Bool := e.flags / 4 % 2 == 1
def Epi.normed (e : Epi) : Bool := e.flags / 8 % 2 == 1
def Epi.rnd (e : Epi) : Nat := e.flags / 16 % 8

/-- Exact value of an F32 encoding. -/
def f32v (w : W32) : Val := exact .f32 w.toNat

/-- The checks of R263. -/
def Epi.ok (e : Epi) : Bool :=
  decide (e.kind ≤ 3) && decide (1 ≤ e.ofmt) && decide (e.ofmt ≤ 9) && (decide (2 ≤ e.kind) || e.ofmt == 1) &&
  decide (e.act ≤ 4) && decide (e.flags < 128) && decide (e.rnd ≤ 5) &&
  (!e.clamped || (!(f32v e.clo).isNan && !(f32v e.chi).isNan && (f32v e.clo).cmp (f32v e.chi) != 1)) &&
  (!e.quant || ([4, 5, 7, 8].contains e.ofmt && decide (2 ≤ e.kind))) &&
  (match e.kind with
   | 0 => e.dest == 0
   | 1 => decide (e.dest.toNat < 64)
   | 2 => getBits e.dest 7 25 == 0
   | _ => true) &&
  (e.kind == 3 || e.rstr == 0) && e.rsv == 0

def execNepi (r : Ring) (o : F3) (x : Option XM) (s : State) : Out :=
  issue (r.issue .m 0x67 (lenOf x) (memSrcs o.a o.b x) [] 40) (fun vs =>
    let va := memAddr x vs
    (checkAddr va 64 false).andThen <| (loadOne va 64 false).bind fun b =>
    let e := Epi.ofBytes b
    (Act.check e.ok tNEST [7]).andThen (setShadow fun c => { c with epi := e })) s

def execNepiDef (r : Ring) (_ : F3) (s : State) : Out :=
  issue (r.issue .m 0x67 1 [] [] 1) (fun _ => setShadow fun c => { c with epi := .default }) s

/-! ### The steps of a nest (R257) -/

def NestCfg.total (c : NestCfg) : Nat := c.lv.foldl (fun n l => n * l.count) 1

/-- The index vector of step n, the innermost level last. -/
def indexVector : List NestLevel → Nat → List Nat
  | [], _ => []
  | l :: rest, n => (n / (rest.foldl (fun m k => m * k.count) 1) % max 1 l.count) :: indexVector rest n

/-- What the indices add to a base. -/
def indexSum (step : NestLevel → Int) (lv : List NestLevel) (ix : List Nat) : Int :=
  (lv.zip ix).foldl (fun a e => a + (e.2 : Int) * step e.1) 0

/-- Operands of a step; whether it is the first, the last of its reduction. -/
structure NestStep where
  a : Nat
  b : Nat
  c : Nat
  v : Nat
  dc : Int
  first : Bool
  last : Bool
  deriving DecidableEq, Repr

def NestCfg.stepAt (c : NestCfg) (n : Nat) : NestStep :=
  let ix := indexVector c.lv n
  let db := indexSum NestLevel.sb c.lv ix
  let dc := indexSum NestLevel.sc c.lv ix
  { a := ((c.a0 : Int) + indexSum NestLevel.sa c.lv ix).toNat, b := ((c.b0 : Int) + db).toNat,
    c := ((c.c0 : Int) + dc).toNat, v := ((c.v0 : Int) + db).toNat, dc,
    first := (c.lv.zip ix).all fun e => !e.1.k || e.2 == 0,
    last := (c.lv.zip ix).all fun e => !e.1.k || e.2 + 1 == e.1.count }

/-- Smallest and largest value of an index over all steps. -/
def indexRange (base : Nat) (step : NestLevel → Int) (lv : List NestLevel) : Int × Int :=
  lv.foldl (fun r l =>
    let d := ((l.count : Int) - 1) * step l
    (r.1 + min 0 d, r.2 + max 0 d)) (base, base)

def inRange (r : Int × Int) (n : Nat) : Bool := decide (0 ≤ r.1) && decide (r.2 < n)

/-! ### NGO and its checks (R258, R261, R270) -/

/-- Slots that a nest can name. -/
def NestCfg.slotsNamed (c : NestCfg) : List Nat :=
  let at' := fun (base : Nat) (step : NestLevel → Int) => (levelOffsets step false c.lv).map fun d => ((base : Int) + d).toNat
  at' c.a0 NestLevel.sa ++ at' c.b0 NestLevel.sb ++ (if c.mode = 1 then at' c.v0 NestLevel.sb else [])

/-- Checks 1, 2, 3. -/
def ngoSlots (c : NestCfg) : Act Unit := Act.get.bind fun s =>
  let nacc := s.cur.acc.length
  let ranges := inRange (indexRange c.a0 NestLevel.sa c.lv) 64 && inRange (indexRange c.b0 NestLevel.sb c.lv) 64 &&
    inRange (indexRange c.c0 NestLevel.sc c.lv) nacc &&
    (c.mode != 1 || (inRange (indexRange c.v0 NestLevel.sb c.lv) 64 && decide (c.sx < nacc)))
  let sx := (levelOffsets NestLevel.sc false c.lv).any fun d => (c.c0 : Int) + d == c.sx
  let positive := match f32v c.smscale with | .fin neg n _ => !neg && n != 0 | _ => false
  (Act.check ranges tNEST [6]).andThen <|
  (Act.check (c.mode != 1 || (!sx && positive)) tNEST [8]).andThen <|
  Act.check (c.slotsNamed.all fun n => (s.slot s.curCore n).heldBy s.cur.key) tSLOT []

/-- Checks 4 to 7; the tag that a KIND 2 destination takes. -/
def ngoDest (c : NestCfg) : Act Unit := Act.get.bind fun s =>
  let e := c.epi
  match e.kind with
  | 1 =>
    match (levelOffsets NestLevel.sc true c.lv).find? fun d =>
        let n := ((e.dest.toNat % 64 : Nat) : Int) + d * e.dstep.toInt
        decide (n < 0) || decide ((s.cur.acc.length : Int) ≤ n) with
    | some d => Act.trap tHANDLE [wordOf (((e.dest.toNat % 64 : Nat) : Int) + d * e.dstep.toInt)]
    | none => Act.pure ()
  | 2 =>
    (writableTile (w64 (e.dest.toNat % 128))).bind fun p =>
    (Act.check (c.tileStarts.all fun b => decide (0 ≤ b) && decide (b + 63 * p.2.rb + e.rowOut ≤ p.2.size)) tRANGE []).andThen <|
    match p.2.retag e.ofmt e.quant 0 false with
    | none => Act.trap tTAGCONFLICT []
    | some (tag, _) => updTile p.1 fun t => { t with tag }
  | 3 =>
    Act.check (e.dest.toNat % max 1 (codeBits e.ofmt / 8) == 0 && e.rstr.toNat % e.rowOut == 0) tALIGN []
  | _ => Act.pure ()

def execNgo (r : Ring) (s : State) : Out :=
  issue { r.issue .m 0x6B 1 [] [] 1 with async := true } (fun _ => Act.get.bind fun s =>
    (Act.until s.cur.pend.isNone 0).andThen <|
    let c := s.cur.shadow
    if c.total = 0 then (startAct .m 0x6B r (.fill 0 0 0 0 false 0) [] none).andThen noResult
    else
      (ngoSlots c).andThen <| (ngoDest c).andThen <|
      (Act.modify fun s =>
        let n : Nest := ⟨c, 0, s.clock, [], s.clock, r.sp, r.sn⟩
        if s.cur.nest.isSome then s.setCur fun t => { t with pend := some n }
        else (s.setCur fun t => { t with nest := some n }).post .nestStep s.cur.key).andThen noResult) s

def execNwait (r : Ring) (s : State) : Out :=
  issue (r.issue .m 0x6C 1 [] [] 1) (fun _ => Act.get.bind fun s => (Act.until s.cur.nest.isNone 0).andThen noResult) s

/-- Steps completed: a step is under way until the next one may start (R270). -/
def Nest.completed (n : Nest) (clock : Nat) : Nat := if clock < n.ready then n.done - 1 else n.done

def execNqry (r : Ring) (o : F3) (s : State) : Out :=
  issue (r.issue .m 0x70 1 [] [.reg o.d] 1) (fun _ => Act.get.bind fun s =>
    result o.d (w64 (match o.a.toNat with
      | 0 => b2n s.cur.nest.isSome + 2 * b2n s.cur.pend.isSome
      | 1 => (s.cur.nest.map fun n => n.completed s.clock).getD 0
      | _ => (s.cur.nest.map fun n => n.cfg.total).getD 0))) s

/-! ### The tile operation (R253 to R255, R260) -/

/-- Elements of w bits of a row of bytes. -/
def unpack (w : Nat) (b : List Byte) : List Nat :=
  let n := leNat b
  tab (8 * b.length / max 1 w) fun k => n / 2 ^ (w * k) % 2 ^ w

/-- Block kb of row i of a slot (R254). -/
def OpSlot.block (o : OpSlot) (i kb : Nat) : Nat × Block :=
  let d := o.body.blockDesc (2 * i + kb)
  let desc := tagFmt o.tag == 12
  let governs := desc || tagScaled o.tag
  let code := if desc then descFmt d else tagFmt o.tag
  (code, { fmt := (Fmt.ofCode code).getD .untyped, elems := unpack (codeBits code) (o.body.bytes (128 * i + 64 * kb) 64),
           zero := governs && descZero d, scaled := governs && descScaled d, scale := descScale d })

/-- Whether every descriptor that governs a block of the slot can be decoded (R36, R254). -/
def OpSlot.descsOk (o : OpSlot) : Bool :=
  !(tagFmt o.tag == 12 || tagScaled o.tag) || (tab 128 o.body.blockDesc).all descOk

/-- Rows of two blocks. -/
abbrev BlockRows := List (List (Nat × Block))

def OpSlot.rows (o : OpSlot) : BlockRows := tab 64 fun i => tab 2 fun kb => o.block i kb

/-- The 2-bit index of kept element e of row i. -/
def OpSlot.keptIndex (o : OpSlot) (i e : Nat) : Nat := (o.body.byte (128 * i + 64 + e / 4)).toNat / 4 ^ (e % 4) % 4

/-- The encoding of +0 in a format (R32). -/
def zeroCode (fmt : Nat) : Nat := if fmt = 7 then 0x77 else 0

/-- The logical row of a sparse A slot: none when a group's indices do not rise. -/
def OpSlot.sparseRow (o : OpSlot) (i : Nat) : Option (List Nat) :=
  let w := codeBits (tagFmt o.tag)
  let kept := unpack w (o.body.bytes (128 * i) 64)
  let n := kept.length
  if (tab (n / 2) id).all fun g => decide (o.keptIndex i (2 * g) < o.keptIndex i (2 * g + 1)) then
    some (tab (2 * n) fun p =>
      let g := p / 4
      if o.keptIndex i (2 * g) = p % 4 then kept.getD (2 * g) 0
      else if o.keptIndex i (2 * g + 1) = p % 4 then kept.getD (2 * g + 1) 0 else zeroCode (tagFmt o.tag))
  else none

def OpSlot.sparseRows (o : OpSlot) : Option BlockRows :=
  (tab 64 id).foldr (fun i acc =>
    match o.sparseRow i, acc with
    | some row, some rest =>
      let code := tagFmt o.tag
      let half := row.length / 2
      let blk := fun es => (code, ({ fmt := (Fmt.ofCode code).getD .untyped, elems := es, zero := false, scaled := false, scale := 0 } : Block))
      some ([blk (row.take half), blk (row.drop half)] :: rest)
    | _, _ => none) (some [])

/-- Pairs that the array accepts (R45). -/
def pairOk (a b : Nat) : Bool :=
  (a == 2 && b == 2) || (a == 3 && b == 3) ||
  ([4, 5, 7, 8].contains a && [4, 5, 7, 8].contains b && !(a == 5 && b == 5)) ||
  ([6, 9].contains a && [6, 9].contains b)

/-- Every pair of blocks is accepted. -/
def pairsOk (a b : BlockRows) : Bool :=
  (tab 2 id).all fun kb =>
    let fs := fun (r : BlockRows) => (r.map fun row => (row.getD kb (0, ⟨.untyped, [], false, false, 0⟩)).1).eraseDups
    (fs a).all fun x => (fs b).all fun y => pairOk x y

/-- What a block brings to a step as sources: its elements and scale, or the +0 of a ZERO block (R37, R57). -/
def blockSources (b : Block) : List Val :=
  if b.zero then [] else b.elems.map (exact b.fmt) ++ (if b.scaled then [scaleValue b.scale] else [])

/-- One block step with its events: source NaNs and infinities are those of the accumulator and the blocks. -/
def arrayStep (acc : Nat × List Events) (p : (Nat × Block) × (Nat × Block)) : Nat × List Events :=
  let a := p.1.2
  let b := p.2.2
  let t := blockTerm a b
  if t.isZero then acc
  else
    let x := exact .f32 acc.1
    let r := roundE (Val.add 0 x t) .f32 0
    let vals := [x] ++ blockSources a ++ blockSources b
    (r.enc, acc.2 ++ [eventsOf .f32 r (vals.any Val.isNan) (vals.any fun v => !v.isFin)])

/-- One tile operation over 64 × 64 elements. -/
def tileOperation (c : List W32) (a b : BlockRows) (masked : Nat → Nat → Bool) : List W32 × List Events :=
  let out := c.zipIdx.map fun e =>
    if masked (e.2 / 64) (e.2 % 64) then (e.1, ([] : List Events))
    else
      let r := ((a.getD (e.2 / 64) []).zip (b.getD (e.2 % 64) [])).foldl arrayStep (e.1.toNat, [])
      (BitVec.ofNat 32 r.1, r.2)
  (out.map (·.1), (out.map (·.2)).flatten)

/-- Masked elements of a step (R260). -/
def stepMask (seg : Nat) (a b : OpSlot) (i j : Nat) : Bool :=
  seg != 0 && !segMatch (seg == 2) (a.body.sidecar i) (b.body.sidecar j)

/-- What a step's array work gives: the C tile, the scratch tile, events in F32, those of P with their format group,
whether it accumulates into a tile that this phase has not initialised (R252). -/
structure StepOut where
  c   : AccTile
  sx  : Option (List W32)
  ev  : List Events
  pev : Nat × List Events
  unrep : Bool

/-- Plain and sparse steps: the reason that stops the nest, or the result. -/
def plainStep (cfg : NestCfg) (st : NestStep) (a b : OpSlot) (c : AccTile) : Except Nat StepOut :=
  let sparse := cfg.mode == 2
  let aOk := if sparse then tagSpc a.tag == 1 && [2, 3, 4, 5, 7, 8].contains (tagFmt a.tag) && !tagScaled a.tag
    else tagSpc a.tag == 0
  if !aOk || tagSpc b.tag != 0 then .error 2
  else match if sparse then a.sparseRows else some a.rows with
    | none => .error 2
    | some ra =>
      if !pairsOk ra b.rows then .error 1
      else
        let init := st.first && !cfg.acc
        let c0 := if init then { c with c := List.replicate 4096 0, pi := true } else c
        let r := tileOperation c0.c ra b.rows (stepMask cfg.seg a b)
        .ok ⟨{ c0 with c := r.1 }, none, r.2, (0, []), !init && !c.pi⟩

/-- An F32 value on its way through several roundings: whether one overflowed, whether the last underflowed. -/
structure FpVal where
  v   : Val
  ovf : Bool
  unf : Bool
  deriving DecidableEq, Repr

def FpVal.start (x : W32) : FpVal := ⟨f32v x, false, false⟩

/-- The next value, rounded to F32. -/
def FpVal.next (t : FpVal) (f : Val → Val) : FpVal :=
  let r := roundE (f t.v) .f32 0
  ⟨exact .f32 r.enc, t.ovf || r.ovf, r.unf⟩

/-- A special function of the value. -/
def FpVal.spec (t : FpVal) (f : SpecFn) : FpVal :=
  let r := f.apply .f32 (rnF32 t.v)
  ⟨exact .f32 r.enc, t.ovf || r.ovf, r.unf⟩

/-- One of two values: what rounding did to it stands only if it is the one chosen. -/
def FpVal.pick (t : FpVal) (e : Nat) : FpVal :=
  let v := exact .f32 e
  if v = t.v then t else ⟨v, false, false⟩

/-- The events of an element that has gone through stages and is written as lane l (R57, R264): a NaN or an infinity of
its own making, from operands that hold none. -/
def FpVal.events (t : FpVal) (l : Lane) (srcNan : Bool) : Lane :=
  { l with ev := { l.ev with
      nan := l.ev.nan || (t.v.isNan && !srcNan), ovf := l.ev.ovf || (t.ovf && !t.v.isFin), unf := l.ev.unf || (t.unf && !t.v.isZero) } }

/-- The element rounded to a format, from operands of which some hold a NaN or are not finite. -/
def FpVal.lane (t : FpVal) (fmt : Fmt) (rnd : Nat) (ops : List Val) : Lane :=
  t.events (fpLane fmt false t.v (roundE t.v fmt rnd) t.v.isNan (ops.any fun v => !v.isFin)) (ops.any Val.isNan)

/-- VEXP2 in F32 of a value rounded to F32. -/
def expOf (x : Val) : FpVal := (FpVal.next ⟨x, false, false⟩ id).spec .exp2

/-- What a row of a softmax-chained step gives: P, the new m and l, the row of C; l and C with their events. -/
structure SmxRow where
  p : List Lane
  m : W32
  l : Lane
  c : List Lane
  deriving DecidableEq, Repr

/-- Row i of a softmax-chained step: S, its mask, m and l of the row, the row of C. -/
def softmaxRow (fmt : Fmt) (scale : Val) (s : List W32) (masked : Nat → Bool) (m l : W32) (c : List W32) : SmxRow :=
  let mx := s.zipIdx.foldl (fun b e => if masked e.2 then b else maxEnc .f32 false b e.1.toNat) 0xFF800000
  let mNew := maxEnc .f32 false m.toNat mx
  let mv := exact .f32 mNew
  let none' := mv == .inf true
  let p := s.zipIdx.map fun e =>
    if none' || masked e.2 then Lane.plain 0
    else (expOf (Val.mul (Val.sub 0 (f32v e.1) mv) scale)).lane fmt 0 [f32v e.1, mv]
  let alpha := if none' then one else (expOf (Val.mul (Val.sub 0 (f32v m) mv) scale)).v
  let rs := rnF32 (p.foldl (fun a e => Val.add 0 a (exact fmt e.v)) .zero)
  let lNew := ((FpVal.start l).next fun v => Val.mul v alpha).next fun v => Val.add 0 v (exact .f32 rs)
  { p, m := BitVec.ofNat 32 mNew, l := lNew.lane .f32 0 [f32v l, alpha, exact .f32 rs],
    c := c.map fun e => ((FpVal.start e).next fun v => Val.mul v alpha).lane .f32 0 [f32v e, alpha] }

/-- A softmax-chained step (R262). What a slot holds is what its tag's FMT says: a slot tagged DESC stops the nest, its
blocks' formats whatever they are (DESIGN CHOICE, assumption log 44). -/
def softmaxStep (cfg : NestCfg) (st : NestStep) (a b v : OpSlot) (c : AccTile) : Except Nat StepOut :=
  let f := tagFmt a.tag
  if !((f == 2 || f == 3) && tagFmt b.tag == f && tagFmt v.tag == f) then .error 3
  else if tagSpc a.tag != 0 || tagSpc b.tag != 0 || tagSpc v.tag != 0 then .error 2
  else
    let fmt := (Fmt.ofCode f).getD .bf16
    let masked := stepMask cfg.seg a b
    let r := tileOperation (List.replicate 4096 0) a.rows b.rows masked
    let sFull := r.1.zipIdx.map fun e => if masked (e.2 / 64) (e.2 % 64) then 0xFF800000#32 else e.1
    let sRows := chunks 64 64 sFull
    let cRows := chunks 64 64 c.c
    let rows := tab 64 fun i => softmaxRow fmt (f32v cfg.smscale) (sRows.getD i []) (masked i) (c.m.getD i 0) (c.l.getD i 0)
      (cRows.getD i [])
    let pRows : BlockRows := rows.map fun x =>
      let p := x.p.map Lane.v
      [(f, ⟨fmt, p.take 32, false, false, 0⟩), (f, ⟨fmt, p.drop 32, false, false, 0⟩)]
    let q := tileOperation (rows.map fun x => x.c.map fun e => BitVec.ofNat 32 e.v).flatten pRows v.rows fun _ _ => false
    .ok { c := { c with c := q.1, m := rows.map SmxRow.m, l := rows.map fun x => BitVec.ofNat 32 x.l.v }, sx := some sFull,
          ev := r.2 ++ (rows.map fun x => (x.l :: x.c).map Lane.ev).flatten ++ q.2,
          pev := (fmt.group.getD 0, (rows.map fun x => x.p.map Lane.ev).flatten), unrep := st.first && !c.pi }

/-! ### The epilogue (R263 to R265) -/

def rv (x : Val) : Val := exact .f32 (rnF32 x)

/-- ACT of an element. -/
def activate (act : Nat) (t : FpVal) : FpVal :=
  let fn := fun (f : SpecFn) (x : Val) => exact .f32 (f.apply .f32 (rnF32 x)).enc
  match act with
  | 1 => t.pick (maxEnc .f32 false (rnF32 t.v) 0)
  | 2 => t.next fun x =>
    let u := rv (Val.mul (rv (Val.mul x x)) x)
    let u := rv (Val.add 0 x (rv (Val.mul (exact .f32 0x3D372713) u)))
    let h := fn .tanh (rv (Val.mul (exact .f32 0x3F4C422A) u))
    Val.mul x (rv (Val.mul (exact .f32 0x3F000000) (rv (Val.add 0 one h))))
  | 3 => t.next fun x => Val.mul x (fn .sigm x)
  | 4 => t.spec .exp2
  | _ => t

/-- An element on its way to memory or a tile, and the operands that made it. -/
structure OutElem where
  t   : FpVal
  ops : List Val
  deriving DecidableEq, Repr

/-- Whether NORM divides a row by its l. -/
def NestCfg.norms (cfg : NestCfg) (l : W32) : Bool := cfg.mode == 1 && cfg.epi.normed && !(f32v l).isZero

/-- An element through the stages up to the clamp: its row's l, its column's bias. -/
def epilogueValue (cfg : NestCfg) (x : W32) (l : W32) (bias : Option W32) : OutElem :=
  let e := cfg.epi
  let t := (FpVal.start x).next fun v => Val.mul v (f32v cfg.gscale)
  let t := if cfg.norms l then t.next fun v => Val.div v (f32v l) else t
  let t := match bias with | some b => t.next fun v => Val.add 0 v (f32v b) | none => t
  let t := activate e.act (t.next fun v => Val.mul v (f32v e.scale))
  ⟨if e.clamped then t.pick (maxEnc .f32 true (maxEnc .f32 false (rnF32 t.v) e.clo.toNat) e.chi.toNat) else t,
    [f32v x, f32v cfg.gscale, f32v e.scale] ++ (if cfg.norms l then [f32v l] else []) ++ (bias.map f32v).toList⟩

/-- Where the row i of an output block begins: an offset in the tile's data, or a VA. -/
def outputRow (cfg : NestCfg) (rb : Nat) (dc : Int) (i : Nat) : Nat :=
  let e := cfg.epi
  if e.kind = 2 then (((e.dest.toNat / 2 ^ 32 : Nat) : Int) + dc * e.dstep.toInt).toNat + i * rb
  else (e.dest + wordOf (dc * e.dstep.toInt) + w64 i * e.rstr).toNat

/-- The greatest magnitude that the pass writes into each block of 64 bytes, by block number. -/
def blockMaxima (rows : List (Nat × List OutElem)) : SMap Val :=
  rows.foldl (fun m r => r.2.zipIdx.foldl (fun (m : SMap Val) e =>
    let k := (r.1 + e.2) / 64
    let old := SMap.getD m k .zero
    let v := e.1.t.v
    SMap.set m k (if v.isNan then old else if old.cmp v.abs = -1 then v.abs else old)) m) []

/-- Encoded rows and, with QUANT, the scale byte of each block. -/
def encodeRows (e : Epi) (rows : List (Nat × List OutElem)) : List (Nat × List Lane) × SMap Nat :=
  let f := (Fmt.ofCode e.ofmt).getD .f32
  if e.quant then
    let scales : SMap Nat := (blockMaxima rows).map fun b => (b.1, quantScale f b.2)
    (rows.map fun r => (r.1, r.2.zipIdx.map fun v =>
      v.1.t.events (quantLane f e.rnd (SMap.getD scales ((r.1 + v.2) / 64) 0) false v.1.t.v) (v.1.ops.any Val.isNan)), scales)
  else (rows.map fun r => (r.1, r.2.map fun v => v.t.lane f e.rnd v.ops), [])

/-- Elements of w bits as bytes, the lower index in the lower bits. -/
def packBytes (w : Nat) (vs : List Nat) : List Byte :=
  leBytes (w * vs.length / 8) (vs.zipIdx.foldl (fun n e => n + e.1 * 2 ^ (w * e.2)) 0)

/-- The descriptor of an output block. -/
def Epi.descOf (e : Epi) (scales : SMap Nat) (k : Nat) : W16 :=
  if e.quant then BitVec.ofNat 16 (e.ofmt + 16 + 256 * SMap.getD scales k 0) else plainDesc e.ofmt false

/-- Output rows as bytes with their places. -/
def outBytes (w : Nat) (rows : List (Nat × List Lane)) : List (Nat × List Byte) :=
  rows.map fun r => (r.1, packBytes w (r.2.map Lane.v))

/-- Write output rows into a KIND 2 tile, with descriptors and tag (R186). -/
def Tile.putOutput (t : Tile) (e : Epi) (bytes : List (Nat × List Byte)) (scales : SMap Nat) : Tile :=
  let t := t.setFront (bytes.foldl (fun (h : Half) r => h.put r.1 r.2) t.front)
  if !t.ds then t
  else
    let blocks := ((bytes.map fun r => tabFrom id (r.1 / 64) ((r.1 + r.2.length - 1) / 64 - r.1 / 64 + 1)).flatten).eraseDups
    let t := t.setFront { t.front with desc := blocks.foldl (fun m k => SMap.set m k (e.descOf scales k)) t.front.desc }
    t.typed t.tag (tagFmt t.tag == 12) 0 []

/-- Output rows as stores. -/
def outStores (e : Epi) (bytes : List (Nat × List Byte)) (scales : SMap Nat) : List StorePiece :=
  (bytes.map fun r => (storePieces (w64 r.1) r.2).map fun (p : StorePiece) =>
    { p with desc := if e.quant then some (e.descOf scales (p.va.toNat / 64)) else none }).flatten

/-- Rows written to a tile's front half clear the errors there (R314). -/
def healOutput (h : Nat) (bytes : List (Nat × List Byte)) : Act Unit := Act.modify fun s =>
  match s.cur.tile? h with
  | some t => bytes.foldl (fun s r => s.heal t.store (s.tileSpot t t.half r.1) r.2.length) s
  | none => s

/-- Write the output of tile c, which the last step leaves as it is given here (R265). -/
def epilogueWrite (cfg : NestCfg) (st : NestStep) (c : AccTile) (out : List (Nat × List Lane) × SMap Nat) : Act Unit :=
  let e := cfg.epi
  let bytes := outBytes (codeBits e.ofmt) out.1
  let whole := (out.1.map fun r => r.2.map fun (l : Lane) => BitVec.ofNat 32 l.v).flatten
  match e.kind with
  | 0 => putAcc st.c { c with c := whole, pi := true }
  | 1 =>
    let n := (((e.dest.toNat % 64 : Nat) : Int) + st.dc * e.dstep.toInt).toNat
    (putAcc st.c c).andThen <| (accHeal n 0 16384).andThen <| Act.modify fun s => s.setCur fun t =>
    { t with acc := upd t.acc n fun d => { d with c := whole, pi := true } }
  | 2 => (putAcc st.c c).andThen <| (healOutput (e.dest.toNat % 128) bytes).andThen <|
    updTile (e.dest.toNat % 128) fun t => t.putOutput e bytes out.2
  | _ =>
    let ps := outStores e bytes out.2
    (if e.quant then (xlateAll .write (ps.map fun p => (p.va, p.bytes.length))).bind fun xs =>
        Act.check (xs.all fun x => x.1.desc) tTAGCONFLICT []
     else Act.pure ()).andThen <| (storeAll ps 2).andThen (putAcc st.c c)

/-- Run the epilogue on tile c, as a last step leaves it: everything that can fault comes before anything is written. -/
def epilogueAct (cfg : NestCfg) (st : NestStep) (c : AccTile) : Act Unit :=
  let e := cfg.epi
  (if e.biased then (loadBytes (e.bias + wordOf (st.dc * e.bstep.toInt)) 256 false).bind fun b =>
      Act.pure (some b)
   else Act.pure none).bind fun bias => Act.get.bind fun s =>
  let value := fun (i j : Nat) => epilogueValue cfg (c.c.getD (64 * i + j) 0) (c.l.getD i 0)
    (bias.map fun b => BitVec.ofNat 32 (field b (4 * j) 4))
  let rb := if e.kind = 2 then ((s.cur.tile? (e.dest.toNat % 128)).map Tile.rb).getD 64 else 64
  let out := encodeRows e (tab 64 fun i => (outputRow cfg rb st.dc i, tab 64 fun j => value i j))
  (epilogueWrite cfg st c out).andThen <|
  countLanes ((Fmt.ofCode e.ofmt).getD .f32) (out.1.map fun r => r.2).flatten

/-! ### The nest unit (R259, R261) -/

/-- Slots that the strand's nest is reading have been read. -/
def State.slotsRead (s : State) : State :=
  s.heldSlots.foldl (fun s n => s.setSlot s.curCore n fun o => if o.st = .busy then { o with st := .full } else o) s

/-- The nest stops, its pending nest with it; M raises a trap at its next boundary. -/
def State.nestStop (s : State) (code : Nat) (args : List Word) : State :=
  let s := (s.unhold .m (some 0)).slotsRead
  (s.setCur fun t => { t with nest := none, pend := none }).lateTrap .m code args

/-- Arguments of NEST for a step that fails. -/
def nestArgs (reason : Nat) (n : Nest) : List Word :=
  let st := n.cfg.stepAt n.done
  [w64 reason, w64 n.done, w64 (st.a % 64 + st.b % 64 * 2 ^ 8 + st.c % 64 * 2 ^ 16 + (if n.cfg.mode = 1 then st.v % 64 else 0) * 2 ^ 24)]

/-- Slots of a step. -/
def NestCfg.stepSlots (c : NestCfg) (st : NestStep) : List Nat := [st.a, st.b] ++ (if c.mode = 1 then [st.v] else [])

/-- The reads of a step: its slots, and its tile unless the step initialises it (R314). -/
def stepSound (n : Nest) (st : NestStep) : Act Unit := Act.get.bind fun s =>
  if s.mem.poison.isEmpty && s.mem.soft.isEmpty then Act.pure ()
  else (Act.each (fun i => sound .operand (slotSpot s.curCore i) 8192) (n.cfg.stepSlots st)).andThen <|
    (if n.cfg.mode ≠ 1 ∧ st.first ∧ !n.cfg.acc then Act.pure () else accSound st.c 0 16384).andThen <|
    if n.cfg.mode = 1 then accSound st.c 16384 512 else Act.pure ()

/-- One step: the slots' descriptors are decoded (R36), then array work; S is written before the epilogue that a last
step runs (R262). The reason for which the nest stops, if it does. -/
def stepAct (n : Nest) : Act (Option Nat) := Act.get.bind fun s =>
  let st := n.cfg.stepAt n.done
  let slot := s.slot s.curCore
  match s.cur.acc[st.c]? with
  | none => Act.pure (some 6)
  | some c =>
    (stepSound n st).andThen <|
    (Act.check ((n.cfg.stepSlots st).all fun i => (slot i).descsOk) tTAGCONFLICT []).andThen <|
    match if n.cfg.mode = 1 then softmaxStep n.cfg st (slot st.a) (slot st.b) (slot st.v) c
          else plainStep n.cfg st (slot st.a) (slot st.b) c with
    | .error why => Act.pure (some why)
    | .ok r =>
      (Act.modify fun s => if r.unrep then s.unrepeat else s).andThen <|
      (match r.sx with
       | some l => (accHeal n.cfg.sx 0 16384).andThen <|
          Act.modify fun s => s.setCur fun t => { t with acc := upd t.acc n.cfg.sx fun d => { d with c := l } }
       | none => Act.pure ()).andThen <|
      (accHeal st.c 0 16384).andThen <|
      (if st.last then epilogueAct n.cfg st r.c else putAcc st.c r.c).andThen <|
      (Act.modify fun s => (s.fpEvents 0 r.ev).fpEvents r.pev.1 r.pev.2).andThen (Act.pure none)

/-- Periods from a step's start to the next one's: the array's, those of the chained step, and an epilogue that the
next step's would follow (R253, R262, R264). -/
def NestCfg.pace (c : NestCfg) (st : NestStep) (done : Nat) : Nat :=
  (if c.mode = 1 then 96 else 32) + (if st.last ∧ (done + 1 = c.total ∨ (c.stepAt (done + 1)).last) then 32 else 0)

/-- Whether the power controller stalls a consumer of a core in this period (R25): 0 the arrays, 1 the vector units,
2 the SRAM, 3 the LPDDR. -/
def State.throttled (s : State) (consumer core : Nat) : Bool :=
  match s.plant.dies[coreDie core]? with
  | some p => p.throttled.getD consumer false && p.turn == core % 64
  | none => false

/-- Whether a step has waited on one slot for more than STL periods (R259). -/
def State.slotLimit (s : State) (since : SMap Nat) : Bool :=
  let stl := s.cur.sys.stl.toNat
  stl != 0 && since.any fun e => decide (stl < s.clock - e.2)

/-- NEST_STEP: the running nest's next step, when it may start. -/
def execNestStep (k : Nat) (s : State) : Out :=
  onStrand k (fun s =>
    match s.cur.nest with
    | none => .next s
    | some n =>
      let again := fun (s : State) => s.postOnce .nestStep k
      let set := fun (n : Nest) (s : State) => s.setCur fun t => { t with nest := some n }
      if s.cur.ph.st = .cancelled ∨ s.cur.st = .saved then .next s
      else if s.throttled 0 s.curCore then
        .next (again ((set { n with ready := n.ready + 1 } s).countDie s.curDie 0x263 none 1))
      else if s.clock < n.ready then .next (again s)
      else
        let s := s.slotsRead
        if n.cfg.total ≤ n.done then .next (s.postOnce .nestComplete k)
        else
          let st := n.cfg.stepAt n.done
          let slots := n.cfg.stepSlots st
          if !(slots.all fun i => (s.slot s.curCore i).heldBy k) then .next (s.nestStop tNEST (nestArgs 4 n))
          else if !(slots.all fun i => (s.slot s.curCore i).st == .full) then
            let late := slots.filter fun i => (s.slot s.curCore i).st != .full
            let since : SMap Nat := late.foldl (fun m i => SMap.set m i (SMap.getD n.since i s.clock)) []
            let s := set { n with since } s
            .next (if s.slotLimit since then s.postOnce .nestSlotWaitLimit k else again s)
          else match stepAct n s with
            | .ok none u =>
              let u := (u.unhold .m (some 0))
              let u := slots.foldl (fun (s : State) i => s.setSlot s.curCore i fun o => { o with st := .busy }) u
              .next (again (set { n with done := n.done + 1, ready := s.clock + n.cfg.pace st n.done, since := [] } u))
            | .ok (some why) u => .next (u.nestStop tNEST (nestArgs why n))
            | .stop (.wait _ u) => .next (again u)
            | .stop (.fault f u) => .next (again (u.phaseFault .m (some 0) f 0x6B))
            | .stop (.trap code args) => .next (s.nestStop code args)
            | .stop (.uncorr store va u) => .next (u.uncorr store va)
            | .stop (.lost va us) => .next (s.nestStop tTIMEOUT (s.cur.timeoutArgs va 0x6B us))
            | .stop .absent => .fault .absentMemory) s

/-- NEST_COMPLETE: NGO's signals are posted and a pending nest starts. -/
def execNestComplete (k : Nat) (s : State) : Out :=
  onStrand k (fun s =>
    match s.cur.nest with
    | none => .next s
    | some n =>
      if n.done < n.cfg.total ∨ s.clock < n.ready then .next s
      else
        let s := s.slotsRead.emitCore .m 0x007 (BitVec.ofNat 32 n.done) 0
        let p := s.startOp .m 0x6B { Ring.quiet with sp := n.sp, sn := n.sn } (.fill 0 0 0 0 false 0) [] true
        let s := p.2
        match s.cur.pend with
        | none => .next (s.setCur fun t => { t with nest := none })
        | some m =>
          .next ((s.setCur fun t => { t with nest := some { m with ready := s.clock }, pend := none }).postOnce .nestStep k)) s

/-- NEST_SLOT_WAIT_LIMIT. -/
def execNestSlotWaitLimit (k : Nat) (s : State) : Out :=
  onStrand k (fun s =>
    match s.cur.nest with
    | none => .next s
    | some n =>
      if !(s.slotLimit (n.since.filter fun e => (s.slot s.curCore e.1).st != .full)) then .next (s.postOnce .nestStep k)
      else .next (s.nestStop tNEST (nestArgs 5 n))) s

end Sys2Proof.Machine
end

