-- ==== Sys2Proof/Machine/Access.lean ====
section
/-! DEFINITION. The W engine's block stores and WFLUSH (R289, R311), atomics and their engines (R290 to R295),
completion counters (R381 to R383) and the checks of hold limits (R307, R380). -/

namespace Sys2Proof.Machine

/-! ### Block stores (R289) -/

/-- The eight data registers from d on. -/
def dataRegs (d : BitVec 5) : List (BitVec 5) := tab 8 fun i => d + BitVec.ofNat 5 i

def dataBytes (vs : List Word) : List Byte := (vs.map fun v => leBytes 8 v.toNat).flatten

def execWst (r : Ring) (o : F3) (x : Option XM) (s : State) : Out :=
  let srcs := memSrcs o.a o.b x
  issue { r.issue .w 0x60 (lenOf x) (srcs ++ dataRegs o.d) [] 1 with legal := o.d == 0 || o.d == 8 } (fun vs =>
    let va := memAddr x vs
    (checkAddr va 64 true).andThen <|
    (storeBytes va (dataBytes (vs.drop srcs.length)) none false).andThen noResult) s

/-- a + OFFS, or a in the short form. -/
def wstdAddr (x : Option XM) (a : Word) : Word := match x with | some e => a + e.offs.signExtend 64 | none => a

def execWstd (r : Ring) (o : F3) (x : Option XM) (s : State) : Out :=
  issue { r.issue .w 0x61 (lenOf x) ([o.a, o.b] ++ dataRegs o.d) [] 1 with
      legal := (o.d == 0 || o.d == 8) && !((x.map XM.idx).getD false) } (fun vs =>
    let va := wstdAddr x (vs.headD 0)
    let b := vs.getD 1 0
    let d := b.setWidth 16
    (checkAddr va 64 true).andThen <| (xlate va .write).bind fun t =>
    (Act.check (decide (b.toNat < 65536)) tRANGE []).andThen <|
    (Act.check (t.desc && descOk d) tTAGCONFLICT []).andThen <|
    (storeBytes va (dataBytes (vs.drop 2)) (some d) false).andThen noResult) s

/-- WFLUSH (R311). -/
def execWflush (r : Ring) (s : State) : Out :=
  issue (r.issue .w 0x65 1 [] [] 1) (fun _ => unrepeatAct.andThen noResult) s

/-! ### Hold limits -/

/-- Periods that a context's hold limit lasts. -/
def State.holdPeriods (s : State) : Nat := s.curCtx.holdNs * Config.periodsPerNs

/-- Whether the wait of engine g has lasted the hold limit. -/
def State.waitedOut (s : State) (g : Eng) : Bool :=
  match (s.cur.engine g).since with
  | some n => decide (s.holdPeriods ≤ s.clock - n)
  | none => false

/-- Wait for a condition as a memory stall; at the hold limit TIMEOUT. -/
def holdWait (g : Eng) (ok : Bool) (args : List Word) : Act Unit :=
  if ok then Act.pure ()
  else (waitSince g).bind fun _ => Act.get.bind fun s =>
    if s.waitedOut g then Act.trap tTIMEOUT args else Act.wait 0

/-- The instruction that engine g of the strand at the front would issue. -/
def State.nextInstr (s : State) (g : Eng) : Option Instr :=
  let w := s.cur.wordsAt (s.pc g)
  match decode w.1 w.2 with
  | .ok i => some i
  | .error _ => none

/-- Take up the wait of engine A of strand k, when `pick` says what its instruction does: for a time limit (`due`) only
once the hold limit is reached. -/
def retake (k : Nat) (due : Bool) (pick : Instr → Option (State → Out)) : State → Out :=
  onStrand k fun s =>
    if !(s.cur.st == .running || s.cur.st == .handler) || s.cur.ph.st == .cancelled || s.cur.ph.st == .committing ||
       (s.cur.engine .a).since.isNone || (s.cur.engine .a).arrived || (due && !s.waitedOut .a) then .next s
    else match (s.nextInstr .a).bind pick with
      | some f => f s
      | none => .next s

/-! ### Atomics (R290 to R295) -/

/-- ATOM: an ordered entry of the buffer, performed at release. -/
def execAtom (r : Ring) (o : F3) (x : XA) (s : State) : Out :=
  issue { r.issue .a 0x70 2 [o.a, o.b] [] 1 with legal := decide (2 ≤ o.s.toNat) } (fun vs =>
    let va := vs.headD 0 + x.offs.signExtend 64
    (atomicAddr va o.size x.op.toNat).bind fun t =>
    (enterOrdered ⟨va, t.home, t.pa, t.ord, pathBit 4, .atom x.op.toNat o.size (vs.getD 1 0)⟩).andThen noResult) s

/-- Send an atomic to its home engine, or to the peer's: register d is written when the old value returns. -/
def askAtomic (opc : Nat) (d : BitVec 5) (va : Word) (t : Xlate) (op n : Nat) (b new : Word) : Act Done := fun s =>
  let own := List.replicate n none
  if t.home = 2 then
    let r := s.peerRequest 4 t.pa n [] (pathBit 4) opc va
    .ok (.of [.await d (.peer s.net.tagN.toNat) va own false])
      (s.askPeer { r with wait := true, opa := linkOp op n, opd := b, opd2 := new })
  else
    .ok (.of [.await d (.atom s.cur.seq) va own false]) (s.queueAtom (s.atomReq t.home t.pa op n b new false))

/-- ATOMR and CAS: the buffer is released, then the operation is sent; A goes on, and what reads d waits (R118, R295). -/
def returning (r : Ring) (opc : Nat) (o : F3) (x : XA) (op : Nat) (srcs : List (BitVec 5)) : State → Out :=
  issue { r.issue .a opc 2 srcs [.reg o.d] 1 with legal := decide (2 ≤ o.s.toNat) } fun vs =>
    let va := vs.headD 0 + x.offs.signExtend 64
    (atomicAddr va o.size op).bind fun t => unrepeatAct.andThen <| requestFree.andThen <|
    askAtomic opc o.d va t op o.size (vs.getD 1 0) (vs.getD 2 0)

def execAtomr (r : Ring) (o : F3) (x : XA) (s : State) : Out := returning r 0x71 o x x.op.toNat [o.a, o.b] s
def execCas (r : Ring) (o : F3) (x : XA) (s : State) : Out := returning r 0x72 o x 10 [o.a, o.b, x.c] s

/-- The request that an engine serves next (R292): the oldest that has waited 16 ticks; else one of its own cluster's,
the earliest, in rotating core order; else another core's; else a link's. -/
def nextAtom (eng clock : Nat) (rs : List AtomReq) : Option AtomReq :=
  let rs := rs.filter fun r => r.eng == eng && r.old.isNone
  let own := fun (r : AtomReq) => match r.core with | some c => coreCluster c == eng | none => false
  let turn := fun (r : AtomReq) => r.since * 4 + ((r.core.getD 0) % 4 + 4 - r.since % 4) % 4
  let first := (rs.filter own).foldl (fun (b : Option AtomReq) r =>
    match b with | none => some r | some q => if turn r < turn q then some r else some q) none
  (rs.find? fun r => decide (16 ≤ clock - r.since)).or <| first.or <|
    (rs.find? fun r => r.core.isSome).or rs.head?

/-! ### Completion counters (R381 to R383) -/

/-- The counter that a register names. -/
def counterOf (k : Word) : Act Word := Act.get.bind fun s =>
  (Act.check (decide (k.toNat < s.curCtx.record.ncnt)) tRANGE [k]).andThen (Act.pure (counterVa s.curCtx k.toNat))

def postCounter (r : Ring) (g : Eng) (opc : Nat) (o : F3) : State → Out :=
  issue (r.issue g opc 1 [o.a, o.b] [] 1) fun vs =>
    (counterOf (vs.headD 0)).bind fun va => (addCounter va (vs.headD 0).toNat (vs.getD 1 0)).andThen noResult

def execCcadd (r : Ring) (o : F3) (s : State) : Out := postCounter r .a 0x84 o s
def execWpost (r : Ring) (o : F3) (s : State) : Out := postCounter r .w 0x63 o s

def execCcwait (r : Ring) (o : F3) (s : State) : Out :=
  issue (r.issue .a 0x85 1 [o.a, o.b] [] 1) (fun vs =>
    let b := vs.getD 1 0
    (counterOf (vs.headD 0)).bind fun va => (counterRead va).bind fun v =>
    (holdWait .a (decide (0 ≤ (v - b).toInt)) [vs.headD 0, b, v]).andThen noResult) s

/-- CCWAIT_POLL: another read of the counter. -/
def execCcwaitPoll (k : Nat) (s : State) : Out :=
  retake k false (fun i => match i with | .ccwait r o => some (execCcwait r o) | _ => none) s

/-- CCWAIT_TIMEOUT. -/
def execCcwaitTimeout (k : Nat) (s : State) : Out :=
  retake k true (fun i => match i with | .ccwait r o => some (execCcwait r o) | _ => none) s

/-- Whether an add to a counter is an entry of the buffer. -/
def BufEntry.isCounter (e : BufEntry) : Bool := match e.kind with | .counter .. => true | _ => false

/-- Whether a WCHAIN of the strand runs, or an add that it has released is not performed. -/
def State.postsOut (s : State) : Bool :=
  (s.cur.ops.any fun o => o.g == .w && o.opc == 0x62 && !o.done) ||
  (!s.cur.ph.rep && s.cur.ph.buf.any BufEntry.isCounter)

/-- WCMPL (R383). -/
def execWcmpl (r : Ring) (s : State) : Out :=
  issue (r.issue .w 0x64 1 [] [] 1) (fun _ => Act.get.bind fun s => (Act.until (!s.postsOut) 0).andThen noResult) s

end Sys2Proof.Machine
end

