-- ==== Sys2Proof/Machine/Barrier.lean ====
section
/-! DEFINITION. Barriers and the barrier instructions (R377 to R380). -/

namespace Sys2Proof.Machine

/-- Number of barrier b of a die among the module's. -/
def barKey (die b : Nat) : Nat := die * 256 + b

def State.bar (s : State) (k : Nat) : Option Barrier := SMap.get? s.work.bars k

def State.setBar (s : State) (k : Nat) (v : Barrier) : State := { s with work := { s.work with bars := SMap.set s.work.bars k v } }

/-- The completion test, made once a tick, after every arrival and leave (R379). -/
def Barrier.test (b : Barrier) : Barrier :=
  if b.target ≠ 0 ∧ b.target ≤ b.arrived then { b with gen := b.gen + 1, arrived := 0 } else b

/-- A member leaves: MEMBERS and TARGET fall, ARRIVED too if it arrived in this generation. -/
def Barrier.leave (b : Barrier) (j : Join) : Barrier :=
  { b with
    members := b.members - 1, target := b.target - 1,
    arrived := if j.aph.isSome ∧ j.ag = b.gen then b.arrived - 1 else b.arrived }

/-- The completion tests of a tick (R379). -/
def State.testBars (s : State) : State :=
  { s with work := { s.work with bars := s.work.bars.map fun e => (e.1, e.2.test) } }

/-- Remove the strand at the front from a barrier of its record. -/
def State.leaveBar (s : State) (j : Join) : State :=
  let k := barKey s.curDie j.b
  let s := s.setCur fun t => { t with joins := t.joins.filter fun i => i.b != j.b }
  match s.bar k with
  | some b => if b.ctx = s.cur.sys.ctx then s.setBar k (b.leave j) else s
  | none => s

/-- Remove it from every barrier, in ascending order (R380). -/
def State.leaveBars (s : State) : State :=
  (tab 256 id).foldl (fun s n => match s.cur.joins.find? fun j => j.b == n with
    | some j => s.leaveBar j
    | none => s) s

/-- The barrier that register a names, with its number among the module's. -/
def barrierOf (a : Word) : Act (Nat × Barrier) := Act.get.bind fun s =>
  let k := barKey s.curDie a.toNat
  match if a.toNat < 256 then s.bar k else none with
  | some b => if b.v ∧ b.ctx = s.cur.sys.ctx then Act.pure (k, b) else Act.trap tRANGE [a]
  | none => Act.trap tRANGE [a]

def Strand.join? (t : Strand) (b : Nat) : Option Join := t.joins.find? fun j => j.b == b

/-- The join record of barrier a. -/
def joined (a : Word) : Act Join := Act.get.bind fun s =>
  match s.cur.join? a.toNat with
  | some j => Act.pure j
  | none => Act.trap tRANGE []

def execBjoin (r : Ring) (o : F3) (s : State) : Out :=
  issue (r.issue .a 0x80 1 [o.a, o.b] [] 8) (fun vs =>
    let a := vs.headD 0
    let n := vs.getD 1 0
    (barrierOf a).bind fun k => Act.get.bind fun s =>
    if (s.cur.join? a.toNat).isSome then noResult
    else
      (Act.check (n != 0 && decide (n.toNat ≤ 128)) tRANGE []).andThen <|
      (Act.check (decide (s.cur.joins.length < 4) &&
        (k.2.members == 0 || (k.2.target.toNat == n.toNat && k.2.members != k.2.target))) tRANGE []).andThen <|
      (Act.modify fun s =>
        let b := if k.2.members = 0 then { k.2 with target := n.setWidth 8, members := 1 }
          else { k.2 with members := k.2.members + 1 }
        (s.setBar k.1 b).setCur fun t => { t with joins := t.joins ++ [⟨a.toNat, none, 0⟩] }).andThen noResult) s

/-- Whether every operation issued before `since` is complete, the nests included. -/
def Strand.opsPassed (t : Strand) (since : Nat) : Bool :=
  (t.ops.all fun o => o.done || decide (since ≤ o.issued)) && (t.nests.all fun n => decide (since ≤ n.issued))

def execBarv (r : Ring) (o : F3) (s : State) : Out :=
  issue (r.issue .a 0x81 1 [o.a] [.reg o.d] 8) (fun vs =>
    let a := vs.headD 0
    (barrierOf a).bind fun k => (joined a).bind fun j => Act.get.bind fun s =>
    if j.aph = some s.cur.sys.phasen then result o.d (j.ag.setWidth 64)
    else
      (waitSince .a).bind fun since => (Act.until (s.cur.opsPassed since && !s.accessesOut 0xFF) 0).andThen <|
      (Act.modify fun s => (s.setBar k.1 { k.2 with arrived := k.2.arrived + 1 }).setCur fun t =>
        { t with joins := t.joins.map fun i => if i.b = j.b then { i with aph := some t.sys.phasen, ag := k.2.gen } else i }).andThen <|
      result o.d (k.2.gen.setWidth 64)) s

def execBwait (r : Ring) (o : F3) (s : State) : Out :=
  issue (r.issue .a 0x82 1 [o.a, o.b] [] 1) (fun vs =>
    let a := vs.headD 0
    (barrierOf a).bind fun k => (joined a).bind fun _ =>
    (holdWait .a (k.2.gen != (vs.getD 1 0).setWidth 24) [a, k.2.gen.setWidth 64]).andThen noResult) s

def execBleave (r : Ring) (o : F3) (s : State) : Out :=
  issue (r.issue .a 0x83 1 [o.a] [] 8) (fun vs =>
    let a := vs.headD 0
    (barrierOf a).bind fun _ => Act.get.bind fun s =>
    match s.cur.join? a.toNat with
    | none => noResult
    | some j => (Act.modify fun s => s.leaveBar j).andThen noResult) s

/-- BWAIT_TIMEOUT. -/
def execBwaitTimeout (k : Nat) (s : State) : Out :=
  retake k true (fun i => match i with | .bwait r o => some (execBwait r o) | _ => none) s

/-- The bits of a barrier's register (R377). -/
def Barrier.word (b : Barrier) : Word :=
  w64 (b2n b.v * 2 ^ 63 + b.ctx.toNat * 2 ^ 49 + b.target.toNat * 2 ^ 41 + b.members.toNat * 2 ^ 33 +
    b.arrived.toNat * 2 ^ 25 + b.gen.toNat)

end Sys2Proof.Machine
end

