-- ==== Sys2Proof/Machine/Index.lean ====
section
/-! DEFINITION. The index engine: IXWALK and IXSPLIT (R206). -/

namespace Sys2Proof.Machine

/-- A handle that a descriptor names: held, and writable. -/
def indexTile (n : Nat) : Act (Nat × Tile) := writableTile (w64 n)

/-- The whole of a tile as a scoreboard entry. -/
def wholeTile (p : Nat × Tile) : Touch := ⟨p.1, p.2.half, 0, p.2.rows, true⟩

def execIxwalk (r : Ring) (o : F3) (s : State) : Out :=
  issue { r.issue .a 0x6C 1 [o.a] [] 1 with async := true } (fun vs =>
    let va := vs.headD 0
    (Act.check (va.toNat % 32 == 0) tALIGN []).andThen <| (loadBytes va 32).bind fun d =>
    let fl := field d 12 1
    (indexTile (field d 13 1)).bind fun a => (indexTile (field d 14 1)).bind fun b =>
    (if fl / 2 % 2 = 1 then (indexTile (field d 15 1)).bind fun c => Act.pure [c] else Act.pure []).bind fun c =>
    (Act.check (decide (fl < 4)) tRANGE []).andThen <|
    (scoreRoom (2 + c.length)).andThen <|
    (startAct .a 0x6C r (.walk va d) ((a :: b :: c).map wholeTile) (some .indexComplete)).andThen noResult) s

def execIxsplit (r : Ring) (o : F3) (s : State) : Out :=
  issue { r.issue .a 0x6D 1 [o.a] [] 1 with async := true } (fun vs =>
    let va := vs.headD 0
    (Act.check (va.toNat % 32 == 0) tALIGN []).andThen <| (loadBytes va 32 false).bind fun d =>
    let p := field d 14 2
    (indexTile (field d 13 1)).bind fun t =>
    (Act.check (decide (field d 12 1 < 4) && field d 16 16 == 0) tRANGE []).andThen <|
    (Act.check (decide (1 ≤ p) && decide (p ≤ 4096)) tRANGE []).andThen <|
    (Act.check (decide (8 * p ≤ t.2.size)) tRANGE []).andThen <|
    (scoreRoom 1).andThen <|
    (startAct .a 0x6D r (.split va d) [wholeTile t] (some .indexComplete)).andThen noResult) s

/-! ### The coordinate list -/

/-- Rows and columns of the list's n pairs. -/
def coordinates (d : List Byte) : Act (List (Nat × Nat)) :=
  let n := field d 8 4
  let w := if field d 12 1 % 2 = 1 then 4 else 2
  (loadBytes (w64 (field d 0 8)) (2 * w * n)).bind fun b =>
  Act.pure (tab n fun i => (field b (2 * w * i) w, field b (2 * w * i + w) w))

/-- IX32 elements from element i of a tile on. -/
def putIndex (h i : Nat) (vs : List Nat) : Act Unit :=
  (Act.get.bind fun s => match s.cur.tile? h with
    | some t => tileHeal t false (4 * i) (4 * vs.length)
    | none => Act.pure ()).andThen <| updTile h fun t => t.setFront (t.front.put (4 * i) (vs.map fun v => leBytes 4 v).flatten)

/-- Entries that a walk keeps, with their places in the list. -/
def walkKeeps (d : List Byte) (cs : List (Nat × Nat)) : List (Nat × Nat × Nat) :=
  (cs.zipIdx.map fun e => (e.1.1, e.1.2, e.2)).filter fun e =>
    decide (field d 16 4 ≤ e.1) && decide (e.1 < field d 20 4) && decide (field d 24 4 ≤ e.2.1) && decide (e.2.1 < field d 28 4)

def setIxres (v : Nat) : Act Unit := Act.modify fun s => s.setCur fun t => { t with ixres := w64 v }

/-- The walk writes kept entries until a tile is full. -/
def walkBody (d : List Byte) : Act Unit :=
  (coordinates d).bind fun cs => Act.get.bind fun s =>
    let eidx := field d 12 1 / 2 % 2 = 1
    let hs := [field d 13 1, field d 14 1] ++ (if eidx then [field d 15 1] else [])
    let room := (hs.map fun h => match s.cur.tile? h with | some t => t.size / 4 | none => 0).foldl min (2 ^ 32)
    let kept := walkKeeps d cs
    let out := kept.take room
    (putIndex (field d 13 1) 0 (out.map (·.1))).andThen <|
    (putIndex (field d 14 1) 0 (out.map (·.2.1))).andThen <|
    (if eidx then putIndex (field d 15 1) 0 (out.map (·.2.2)) else Act.pure ()).andThen <|
    setIxres (out.length + if room < kept.length then 2 ^ 32 else 0)

/-- Starts of the p parts: cut q of ROWCUT moves to the nearest row change, ties to the smaller; cuts never fall. -/
def rowCuts (rows : List Nat) (n p : Nat) : List Nat :=
  let changes := 0 :: ((tab n id).filter fun k => decide (1 ≤ k) && rows.getD k 0 != rows.getD (k - 1) 0) ++ [n]
  -- distances from q × n / p, scaled by p
  let gap := fun (q m : Nat) => if m * p ≤ q * n then q * n - m * p else m * p - q * n
  let near := fun (q : Nat) => changes.foldl (fun b m => if gap q m < gap q b then m else b) 0
  (tab p id).foldl (fun acc q => acc ++ [if q = 0 then 0 else max (near q) (acc.getLastD 0)]) []

def plainCuts (n p : Nat) : List Nat := tab p fun q => q * (n / p) + min q (n % p)

def splitBody (d : List Byte) : Act Unit :=
  let n := field d 8 4
  let p := field d 14 2
  let rowcut := field d 12 1 / 2 % 2 = 1
  (if rowcut then coordinates d else Act.pure []).bind fun cs =>
  let rows := cs.map (·.1)
  let cuts := if rowcut then rowCuts rows n p else plainCuts n p
  let falls := (rows.zip (rows.drop 1)).any fun e => decide (e.2 < e.1)
  let parts := (cuts.zip (cuts.drop 1 ++ [n])).map fun e => [e.1, e.2 - e.1]
  (putIndex (field d 13 1) 0 (if n = 0 then List.replicate (2 * p) 0 else parts.flatten)).andThen <|
  setIxres (p + if rowcut ∧ falls then 2 ^ 33 else 0)

/-- INDEX_COMPLETE. -/
def execIndexComplete (k op : Nat) (s : State) : Out :=
  runOp k op .indexComplete (fun o => Act.get.bind fun s =>
    (Act.until (!s.cur.copyBlocked o.id o.touch) 0).andThen <|
    match o.kind with
    | .walk _ d => walkBody d
    | .split _ d => splitBody d
    | _ => Act.pure ()) completes s

end Sys2Proof.Machine
end

