-- ==== Sys2Proof/Machine/Save.lean ====
section
/-! DEFINITION. A strand's life: its start (R95, R251), its end (R112, R183, R247, R384), its saving and restoring (R393,
R247, R183). -/

namespace Sys2Proof.Machine

/-! ### The completion tree (R384) -/

/-- Nodes of a task: cores from 0, clusters from 256, dies from 320, the device 324. -/
def nodeParent (n : Nat) : Option Nat :=
  if n < 256 then some (256 + n / 4) else if n < 320 then some (320 + (n - 256) / 16) else if n < 324 then some 324 else none

/-- Add to a node; its first addition adds to its parent. The number bounds the levels. -/
def treeAdd : Nat → Nat → SMap Nat → SMap Nat
  | 0, _, m => m
  | fuel + 1, n, m =>
    let c := SMap.getD m n 0
    let m := SMap.set m n (c + 1)
    match if c = 0 then nodeParent n else none with
    | some p => treeAdd fuel p m
    | none => m

/-- Subtract from a node; one that returns to zero subtracts from its parent. -/
def treeSub : Nat → Nat → SMap Nat → SMap Nat
  | 0, _, m => m
  | fuel + 1, n, m =>
    let c := SMap.getD m n 0
    let m := if c ≤ 1 then SMap.del m n else SMap.set m n (c - 1)
    match if c = 1 then nodeParent n else none with
    | some p => treeSub fuel p m
    | none => m

def State.task (s : State) (id : Nat) : Option Task := SMap.get? s.work.tasks id

def State.setTask (s : State) (k : Task) : State := { s with work := { s.work with tasks := SMap.set s.work.tasks k.id k } }

def State.updTask (s : State) (id : Nat) (f : Task → Task) : State :=
  match s.task id with
  | some k => s.setTask (f k)
  | none => s

/-- Whether nothing of a task is placed or still to be placed. -/
def Task.drained (k : Task) : Bool := (SMap.get? k.nodes 324).isNone && k.toPlace == 0

/-- A strand of a task has ended on a core. -/
def State.leaveTree (s : State) (task core : Nat) : State :=
  let s := s.updTask task fun k => { k with nodes := treeSub 4 core k.nodes }
  match s.task task with
  | some k => if k.drained then s.postOnce .taskRetire task else s
  | none => s

/-! ### Streams of an ended strand (R424, R434) -/

def sat32 (v : W32) (n : Nat) : W32 := BitVec.ofNat 32 (min (v.toNat + n) (2 ^ 32 - 1))

def streamKey (ctx sid : Nat) : Nat := ctx * 4096 + sid

def State.updStream (s : State) (k : Nat) (f : Stream → Stream) : State :=
  match SMap.get? s.strm.streams k with
  | some v => { s with strm := { s.strm with streams := SMap.set s.strm.streams k (f v) } }
  | none => s

/-- Facts of the stream step that the strand's task is. -/
def State.stepOf (s : State) : Option StepFacts := (s.task s.cur.task).bind Task.step

/-! ### Names of a strand elsewhere -/

/-- Give everything that names a strand by its key the new key. -/
def State.rename (s : State) (old new : Nat) : State :=
  let k := fun (n : Nat) => if n = old then new else n
  { s with
    work := { s.work with nrings := s.work.nrings.map fun e =>
      (e.1, { e.2 with spans := e.2.spans.map fun x => { x with owner := (k x.owner.1, x.owner.2) } }) }
    net := { s.net with
      work := s.net.work.map fun e => (e.1, { e.2 with key := k e.2.key })
      colls := s.net.colls.map fun e => (e.1, { e.2 with key := k e.2.key })
      remote := s.net.remote.map fun r => { r with key := k r.key } }
    mem := { s.mem with
      atoms := s.mem.atoms.map fun r => { r with key := k r.key, owner := k r.owner }
      stores := s.mem.stores.map fun a => { a with key := k a.key } }
    strm := { s.strm with seqs := s.strm.seqs.map fun e => (e.1, { e.2 with opened := e.2.opened.map k }) } }

/-- The key of link operations that outlive their strand: their task's (R414). -/
def taskKey (task : Nat) : Nat := 2 ^ 32 + task

/-! ### Start -/

/-- Whether a strand takes the core's running slot: every state from RUNNING to ENDED. -/
def StrandSt.onCore (st : StrandSt) : Bool :=
  match st with
  | .free | .staged => false
  | _ => true

/-- A strand other than k that holds the core's running slot. -/
def State.coreTaken (s : State) (core k : Nat) : Bool :=
  s.strands.any fun e => e.1 != k && keyCore e.1 == core && e.2.st.onCore

/-- STAGED to RUNNING at the front: a new strand is granted its accumulators; a saved one takes its slots again. -/
def State.startStrand (s : State) : State :=
  let t := s.cur
  let s := t.kept.foldl (fun (s : State) e => s.setSlot s.curCore e.1 fun _ => { e.2 with holder := some t.key }) s
  let nacc := ((s.task t.task).map fun k => k.image.nacc).getD 0
  let s := s.setCur fun t => { t with
    st := t.back, kept := [], fresh := false
    acc := if t.fresh then List.replicate nacc (AccTile.zero false) else t.acc }
  let s := if t.ph.rep then s else
    let s := if t.ph.held.isEmpty then s else s.postOnce .holdTimeout t.key
    if t.ph.buf.isEmpty then s else s.postOnce .qsubmitPush t.key
  let s := if t.ph.st = .committing ∧ t.back ≠ .ending then s.postOnce .phaseCommitDone t.key else s
  let s := if t.nest.isSome then s.postOnce .nestStep t.key else s
  let s := if t.ph.st = .cancelled then s.postOnce .phaseRefetchDone t.key else s
  let s := if s.curCtx.spent.isNone then s
    else (s.setCur fun t => { t with preempt := true }).postOnce .preemptImmediate t.key
  if t.fresh then s.emitCore .a 0x801 t.sys.grank t.sys.strand else s

/-- Whether a group has marked a core leaving (R372). -/
def State.coreLeaves (s : State) (core : Nat) : Bool := s.work.groups.any fun g => g.leaving.map (·.1) == some core

/-- STRAND_START: the staged strand of slot k starts when its core's running slot is free; the engines issue from the
next tick. -/
def execStrandStart (k : Nat) (s : State) : Out :=
  onStrand k (fun s =>
    if s.cur.st ≠ .staged ∨ s.coreTaken s.curCore k ∨ s.coreLeaves s.curCore then .next s else .next s.startStrand) s

/-- The other slot of a strand's core. -/
def otherKey (k : Nat) : Nat := k / 2 * 2 + (1 - k % 2)

/-- Empty the slot at the front; what is staged on the core may start, and the slot takes another strand. -/
def State.vacate (s : State) : State :=
  let k := s.cur.key
  State.postOnce (State.postOnce { s with cur := { Strand.empty with key := k } } .strandStart (otherKey k))
    .strandPlace (coreDie (keyCore k))

/-! ### End -/

/-- Free the slots of the strand at the front (R247). -/
def State.freeSlots (s : State) : State := s.heldSlots.foldl State.freeSlot s

/-- Release what the strand at the front holds: tiles, slots, accumulators, barriers, its open step, its link handles. -/
def State.releaseAll (s : State) : State :=
  let s := s.freeTiles.freeSlots.leaveBars
  let s := match s.cur.step with
    | some (c, q) => s.seqClose c q
    | none => s
  let k := s.cur.key
  let t := s.cur.task
  let s := { s with mem := { s.mem with atoms := s.mem.atoms.filter fun r => !(r.key == k && r.old.isSome) },
                    net := { s.net with remote := s.net.remote.filter fun r => !(r.key == k && r.ans.isSome) } }
  (s.rename k (taskKey t)).setCur fun t => { t with acc := [], step := none, hand := List.replicate 16 .free }

/-- Entries left in channels, counters and outcome queues (R112). -/
def Links.leftovers (l : Links) : Nat :=
  let tok := fun (p : PerEng Token) => (Eng.list.map fun g => (p.get g).now + (p.get g).add).foldl (· + ·) 0
  tok l.sn + tok l.sp + (l.chans.map fun c => c.q.length + c.add.length).foldl (· + ·) 0 +
    (Eng.list.map fun g => (l.outc.get g).q.length + (l.outc.get g).add.length).foldl (· + ·) 0

/-- The strand at the front has ended: its resources and its slot are freed, its task's tree drains. -/
def State.finishStrand (s : State) : State :=
  let t := s.cur
  let s := match s.stepOf with
    | some f => if t.st == StrandSt.ended then s.updStream (streamKey t.sys.ctx.toNat f.sid) fun v => { v with dropped := sat32 v.dropped t.took } else s
    | none => s
  let s := s.releaseAll
  let s := s.emitCore .a 0x002 t.sys.phasen 0
  (s.vacate).leaveTree t.task t.node

/-! ### Saving (R393) -/

/-- Strands that a context has in its save frames. -/
def State.savedCount (s : State) (ctx : Nat) : Nat :=
  (s.ctxOf ctx).stash.length + ((s.work.groups.filter fun g => g.ctx == ctx).map fun g =>
    (g.pend.filter fun p => p.saved.isSome).length).foldl (· + ·) 0

/-- Whether a save frame is free for the strand at the front. -/
def State.frameFree (s : State) : Bool :=
  decide (s.savedCount s.cur.sys.ctx.toNat < s.curCtx.record.saven)

/-- A strand under another key: the spans of its L ring name their owner by it. -/
def Strand.rekey (t : Strand) (key : Nat) : Strand :=
  { t with key, lring := { t.lring with spans := t.lring.spans.map fun x => { x with owner := (key, x.owner.2) } } }

/-- Take the strand at the front out of its slot; `why` is PREEMPT's payload: 0 at YIELD, 1 at PHASE, 2 immediate. -/
def State.saveStrand (s : State) (why : Nat) : Strand × State :=
  let s := s.slotsRead.emitCore .a 0x006 (BitVec.ofNat 32 why) 0
  let key := 2 ^ 24 + s.free * 512 + s.cur.key % 512
  let kept := s.heldSlots.map fun n => (n, s.slot s.curCore n)
  let s := s.freeSlots
  let t := s.cur
  let s := (State.rename { s with free := s.free + 1 } t.key key).vacate
  ({ t.rekey key with st := .saved, back := if t.st = .saved then t.back else t.st, kept, preempt := false }, s)

/-- Save into the context's frames. -/
def State.stashStrand (s : State) (why : Nat) : State :=
  let c := s.cur.sys.ctx.toNat
  let r := s.saveStrand why
  let s := r.2.setCtx c fun x => { x with stash := x.stash ++ [r.1] }
  if (s.strands.any fun e => e.2.sys.ctx.toNat == c) || (s.ctxOf c).st ≠ .preempting then s else s.postOnce .contextSaved c

end Sys2Proof.Machine
end

