-- ==== Sys2Proof/Machine/Phase.lean ====
section
/-! DEFINITION. Phases (R296 to R310): opening and committing, cancelling and replaying, holding; END (R112); DEADLOCK
(R126); the protection of stored data (R312 to R314). -/

namespace Sys2Proof.Machine

/-! ### Opening (R296, R298) -/

def State.checkpoint (s : State) (mask : W32) : Ckpt :=
  let t := s.cur
  { regs := t.regs, p := t.x.p, v := (tab 32 fun n => (n, t.x.vec n)).filter fun e => mask.getLsbD e.1,
    levels := t.eng.map Engine.levels, sh := t.sh, ly := t.ly, nest := t.shadow, win := t.sys.win, stl := t.sys.stl,
    vfmt := t.sys.vfmt, tvec := t.sys.tvec, tmask := t.sys.tmask, slots := s.heldSlots, timed := t.x.timed, step := t.step }

def State.openPhase (s : State) (start : Nat) (mask : W32) : State :=
  let k := s.checkpoint mask
  let s := s.heldSlots.foldl (fun (s : State) n => s.setSlot s.curCore n fun o => { o with filled := false }) s
  s.setCur fun t => { t with ph := .new start k }

/-! ### Committing (R300) -/

/-- Whether the strand's nests and operations are complete. -/
def Strand.workDone (t : Strand) : Bool := t.nest.isNone && t.pend.isNone && t.ops.all fun o => o.done

/-- Channels, counters and outcome queues are empty. -/
def Links.empty? (l : Links) : Bool := l.leftovers == 0

/-- The tags of marked slots, as last entries of the release (R351). -/
def Strand.tagEntries (t : Strand) : List BufEntry :=
  t.ly.filterMap fun k => match k with
    | some v => if v.marked then v.src.map fun a => ⟨a + 8, 0, 0, 0, pathBit 1, .tag (a + 8) v.lay.tag⟩ else none
    | none => none

/-- Begin the release of a commit. -/
def State.startCommit (s : State) : State :=
  let tags := s.cur.tagEntries
  let s := s.setPhase fun p => { p with st := .committing, rep := false, buf := p.buf ++ tags }
  s.release

/-- Every double-buffered tile swaps its halves (R184). -/
def Strand.swapHalves (t : Strand) : Strand :=
  { t with tiles := t.tiles.map fun e => (e.1, { e.2 with half := if e.2.db then !e.2.half else e.2.half }) }

/-- Every PI bit is cleared (R252). -/
def Strand.clearPi (t : Strand) : Strand := { t with acc := t.acc.map fun a => { a with pi := false } }

def Strand.unmarkSlots (t : Strand) : Strand :=
  { t with ly := t.ly.map fun k => k.map fun v => { v with marked := false } }

/-- Length and vector mask of the PHASE word at an address: the mask is MHI above the payload (R70). -/
def Strand.phaseWord (t : Strand) (p : Nat) : Nat × W32 :=
  let w := t.wordsAt p
  match decode w.1 w.2 with
  | .ok (.phase o) => (1, o ++ (0 : BitVec 30))
  | .ok (.phaseLong o x) => (2, o ++ x)
  | _ => (1, 0)

/-- The release is over: the rest of PHASE's commit actions, then the engines leave; a pending pre-emption is taken. -/
def State.finishPhase (s : State) : State :=
  let p := s.pc .a
  let w := s.cur.phaseWord p
  let s := s.emitCore .a 0x004 s.cur.sys.phasen 0
  let s := s.setCur fun t => let t := t.swapHalves.clearPi.unmarkSlots; { t with sys := { t.sys with phasen := t.sys.phasen + 1 } }
  let s := (s.openPhase (p + w.1) w.2).leaveJoint w.1
  if s.cur.preempt && (s.cur.st == .running || s.cur.st == .handler) && s.frameFree then s.stashStrand 1 else s

/-- PHASE takes effect: ILLEGAL in A unless everything between the engines is empty. -/
def phaseEffect (s : State) : Out :=
  if !s.cur.links.empty? then .next (s.takeTrap .a tILLEGAL (s.cur.illegalArgs .a))
  else
    let s := s.startCommit
    .next (if s.cur.ph.buf.isEmpty then s.finishPhase else s.postOnce .phaseCommitDone s.cur.key)

def phaseReady (s : State) : Bool := s.cur.quietX && s.cur.workDone && !s.cur.awaiting

def execPhase (o : BitVec 2) (s : State) : Out := let _ := o; joint false phaseReady phaseEffect s
def execPhaseLong (o : BitVec 2) (x : BitVec 30) (s : State) : Out := let _ := (o, x); joint false phaseReady phaseEffect s

/-- PHASE_COMMIT_DONE: the engines leave the PHASE once every entry is released. -/
def execPhaseCommitDone (k : Nat) (s : State) : Out :=
  onStrand k (fun s =>
    if s.cur.ph.st ≠ .committing ∨ !(s.cur.st == .running || s.cur.st == .handler) then .next s
    else if s.cur.ph.buf.isEmpty then .next s.finishPhase
    else .next (s.postOnce .phaseCommitDone k)) s

/-! ### END (R95, R112) -/

/-- The table of R95 lists END for a RUNNING strand only: the engines of a handler that arrive at END wait there (R11;
DEDUCED, assumption log 45). -/
def execEndJ (s : State) : Out :=
  joint true (fun s => s.cur.quietX && s.cur.st == .running) (fun s =>
    .next ((s.setCur fun t => { t with st := .ending }).postOnce .strandEnded s.cur.key)) s

/-- Whether nothing that the strand sent is still on its way to a peer or a page (R286). -/
def State.nothingOut (s : State) : Bool :=
  !(s.net.remote.any fun r => r.key == s.cur.key && r.opk != 2 && r.ans.isNone) &&
  !(s.mem.stores.any fun a => a.key == s.cur.key) && !(s.mem.atoms.any fun r => r.owner == s.cur.key && r.old.isNone)

/-- END's commit, when the strand leaves ENDING: no swap and no checkpoint. -/
def State.finishEnd (s : State) : State :=
  let s := s.emitCore .a 0x004 s.cur.sys.phasen 0
  let n := s.cur.links.leftovers
  let s := if n = 0 then s else s.countCur 0x044 none n
  (s.setCur fun t => { t.clearPi.unmarkSlots with links := .empty }).finishStrand

/-- STRAND_ENDED: an ENDING strand whose operations are complete commits and ends; an aborted one ends once its
operations are complete or abandoned. -/
def execStrandEnded (k : Nat) (s : State) : Out :=
  onStrand k (fun s =>
    let again := fun (s : State) => Host.Outcome.next (s.postOnce .strandEnded k)
    match s.cur.st with
    | .ending =>
      if s.cur.ph.st = .cancelled then .next s
      else if !s.cur.workDone || s.cur.awaiting then again s
      else
        let s := if s.cur.ph.st = .committing then s else s.startCommit
        if s.cur.ph.buf.isEmpty && s.nothingOut then .next s.finishEnd else again s
    | .ended => if s.cur.workDone && s.nothingOut then .next s.finishStrand else again s
    | _ => .next s) s

/-! ### Cancelling (R303) -/

/-- Restore the set of held slots (R250). -/
def State.restoreSlots (s : State) : State :=
  let key := s.cur.key
  let old := s.cur.ph.ckpt.slots
  let rel := s.cur.ph.relSlots
  let one := fun (s : State) (n : Nat) =>
    let o := s.slot s.curCore n
    if o.heldBy key then
      (if !old.contains n then s.freeSlot n
       else s.setSlot s.curCore n fun o =>
         { o with st := if o.filled || rel.contains n then .claimed else if o.st = .busy then .full else o.st, filled := false })
    else if old.contains n && o.st == .free then
      s.setSlot s.curCore n fun o => { o with st := .claimed, holder := some key, filled := false }
    else s
  (tab 64 id).foldl one s

/-- Withdraw what XCARM armed in the cancelled attempt and has not fired (R416). -/
def State.withdraw (s : State) : State :=
  let mine := fun (e : WorkEnt) => e.key == s.cur.key && e.arm && e.phase == s.cur.sys.phasen && !e.fired
  let hs := ((SMap.vals s.net.work).filter mine).map WorkEnt.hand
  if hs.isEmpty then s
  else
    let s := { s with net := { s.net with work := s.net.work.filter fun e => !mine e.2 } }
    s.setCur fun t => { t with hand := t.hand.map fun h => if h.held && hs.contains h.id then .free else h }

/-- Engine state at the start of an attempt. -/
def Engine.restart (e : Engine) (levels : List Level) (p : Nat) : Engine :=
  { e with pc := p, levels, moving := some p, arrived := false, atEnd := false, bubble := 0, spread := false,
           blocked := false, why := 0, tri := none, since := none, late := none, tret := none, wait := none }

/-- Steps 1 to 4 of a cancel, for the strand at the front. -/
def State.cancelPhase (s : State) : State :=
  let t := s.cur
  let p := t.ph
  let k := p.ckpt
  let s := s.slotsRead.restoreSlots.withdraw
  let s := ((p.allocs.filter fun h => (t.tile? h).isSome).reverse).foldl State.freeTile s
  let s := if t.step ≠ k.step then (match t.step with | some (c, q) => s.seqClose c q | none => s) else s
  let s := { s with
    mem := { s.mem with atoms := s.mem.atoms.filter fun r => r.key != t.key }
    net := { s.net with remote := s.net.remote.filter fun r => !(r.key == t.key && r.opk == 2) } }
  let marks := (SMap.keys s.cur.tiles ++ p.frees.map (·.1) ++ p.marks).foldl (fun l h => if l.contains h then l else l ++ [h]) []
  let n := p.cancels + 1
  let s := s.setCur fun t => { t with
    st := if t.st = .ended then .ended else .running
    regs := k.regs, sh := k.sh, ly := k.ly, shadow := k.nest, lates := [], later := [], fl := [], ops := [], nest := none, pend := none
    step := k.step, aside := none
    links := match t.aside with | some a => { t.links with outc := a.outc } | none => t.links
    x := { t.x with p := k.p, v := t.x.v.zipIdx.map (fun e => (SMap.get? k.v e.2).getD e.1), timed := k.timed,
                    dp := 0, sfu := 0, alu := 0 }
    sys := { t.sys with win := k.win, stl := k.stl, vfmt := k.vfmt, tvec := k.tvec, tmask := k.tmask }
    eng := ⟨t.eng.a.restart k.levels.a p.start, t.eng.x.restart k.levels.x p.start, t.eng.m.restart k.levels.m p.start,
            t.eng.w.restart k.levels.w p.start⟩
    pc0 := .all p.start
    ph := { p with cancels := n, buf := [], allocs := [], marks, frees := [],
                   gone := p.gone ++ p.frees.map fun f => f.1 * 65536 + f.2,
                   relSlots := p.relSlots.map fun n => if n < 64 then n + 64 else n } }
  s.emitCore .a 0x805 (BitVec.ofNat 32 (n % 256 + p.reason * 256)) p.faultVa

/-- Where the checkpoint of the strand at the front lies (assumption log 42). -/
def State.ckptSpot (s : State) : Nat := spot s.curCore (keySlot s.cur.key * 2 ^ 20)

/-- Whether the restore would read an uncorrectable error from the checkpoint (R299). -/
def State.checkpointBad (s : State) : Bool := s.mem.spoilt .checkpoint s.ckptSpot (2 ^ 20)

/-- PHASE_CANCEL. An aborted strand's operations are abandoned, and nothing is replayed; a pending pre-emption saves the
strand with the restored state, which refetches once it is placed again (R310). -/
def execPhaseCancel (k : Nat) (s : State) : Out :=
  onStrand k (fun s =>
    if s.cur.ph.st ≠ .cancelled then .next s
    else if s.cur.st = .ended then
      .next (State.postOnce (s.slotsRead.setCur fun t => { t with
        ops := t.ops.filter (fun o => o.done), nest := none, pend := none, ph := { t.ph with st := .opened, held := [] } })
        .strandEnded k)
    else if s.checkpointBad then .next (s.uncorrAbort .checkpoint (w64 s.ckptSpot))
    else
      let s := s.cancelPhase
      .next (if s.cur.preempt && s.frameFree then s.stashStrand 2 else s.postOnce .phaseRefetchDone k)) s

/-! ### Refetch and replay (R304, R306) -/

/-- The engines go to the start address: from the PHASE word before it, as they left it (a PHASE may end a loop body). -/
def State.restartEngines (s : State) : State :=
  let start := s.cur.ph.start
  let before := if 2 ≤ start ∧ isCont s.cur.text (start - 1) then start - 2 else start - 1
  if start = 0 ∨ !wordJoint (s.cur.text.getD before 0) then s
  else Eng.list.foldl (fun (s : State) g =>
    let t := s.cur.setEngine g fun e => { e with pc := before, moving := none }
    { s with cur := (t.moveOn g (start - before)).1 }) s

/-- The attempt opens: the input record is empty and nothing is held. -/
def State.reopen (s : State) (cancels : Nat) : State :=
  s.setPhase fun p => { p with st := .opened, cancels, input := [], held := [], bad := none }

/-- Whether the location of the consumed error still is uncorrectable. -/
def State.stillBad (s : State) : Bool :=
  match s.cur.ph.bad with
  | none => false
  | some (1, va) =>
    (match s.translate s.cur.sys.ctx.toNat s.cur.wins none va .read with
     | .ok x _ => s.mem.poisoned x.home x.pa 1
     | _ => false)
  | some (code, a) => s.mem.poisoned (16 + code) a.toNat 1

def storeOfCode (n : Nat) : Store :=
  (([.device, .near, .comb, .operand, .accumulator, .vector, .checkpoint, .buffer] : List Store).find? fun k => k.code == n).getD .device

/-- The refetch is over: resume, or REPLAY, PAGE or PROTECT in A with every TEPC at the start address, or UNCORR. -/
def State.endRefetch (s : State) : State :=
  let p := s.cur.ph
  if s.stillBad then
    (match p.bad with | some (c, va) => s.uncorrAbort (storeOfCode c) va | none => s)
  else match p.held.find? fun h => h.ans != 0 with
    | some h =>
      (s.reopen p.cancels).enterTrap .a h.ans
        (faultArgs ⟨h.va, h.wr, h.code, h.level, h.entry⟩ (some h.rqid))
    | none =>
      if 3 ≤ p.cancels then
        (s.reopen 0).enterTrap .a tREPLAY [p.faultVa, w64 p.reason, s.cur.sys.phasen.setWidth 64, 3]
      else (s.reopen p.cancels).restartEngines

/-- Warm one page of the refetch: resident, or requested, so that the answer reaches the strand (R304); one that may no
longer be read is answered PROTECT. -/
def State.refetchPage (s : State) (va : Word) : Bool × State :=
  match s.translate s.cur.sys.ctx.toNat s.cur.wins (some s.curCore) va .read with
  | .ok _ t => (true, t)
  | .absent => (true, s)
  | .moving => (false, s)
  | .fault f =>
    let hold := fun (s : State) (rqid : BitVec 32) (ans : Nat) => s.setPhase fun p =>
      if p.held.any fun h => h.ans == ans && h.rqid == rqid && h.va == va then p
      else { p with held := p.held ++ [⟨.a, none, va, false, f.code, f.level, f.entry, rqid, s.ns, 0, ans⟩] }
    if f.code = 3 then (false, hold s 0 tPROTECT)
    else
      let r := s.requestPage s.cur.sys.ctx.toNat va f.code 0 (some s.curCore)
      (false, match r.1 with | some id => hold r.2 id 0 | none => r.2)

def State.refetch (s : State) (vas : List Word) : Bool × State :=
  vas.foldl (fun p va => let q := p.2.refetchPage va; (p.1 && q.1, q.2)) (true, s)

/-- PHASE_REFETCH_DONE: when every request is answered and every recorded range is resident. -/
def execPhaseRefetchDone (k : Nat) (s : State) : Out :=
  onStrand k (fun s =>
    let p := s.cur.ph
    if p.st ≠ .cancelled ∨ s.cur.st ≠ .running then .next s
    else if p.held.any fun h => h.ans == 0 && s.mem.reqs.any fun r => r.rqid == h.rqid then
      .next (s.postOnce .phaseRefetchDone k)
    else if p.held.any fun h => h.ans != 0 then .next s.endRefetch
    else
      let r := s.refetch (p.held.map Held.va ++ p.input.map fun n => w64 (n * 65536))
      .next (if r.1 then r.2.endRefetch else r.2.postOnce .phaseRefetchDone k)) s

/-! ### Holding (R307) -/

/-- What a held access raises: a held instruction precisely, an operation at its engine's next boundary. -/
def State.deliverHeld (s : State) (h : Held) (code : Nat) (args : List Word) : State :=
  let s := s.unhold h.g h.op
  match h.op with
  | none => if s.cur.st == .running || s.cur.st == .handler then s.takeTrap h.g code args else s
  | some 0 => s.nestStop code args
  | some id =>
    match s.cur.op? id with
    | some o => (s.abandonOp o).lateTrap h.g code args
    | none => s

/-- The answers and limits of the strand's holds. -/
def State.checkHolds (s : State) : State :=
  s.cur.ph.held.foldl (fun s h =>
    if h.ans ≠ 0 then s.deliverHeld h h.ans (faultArgs ⟨h.va, h.wr, h.code, h.level, h.entry⟩ (some h.rqid))
    else if s.curCtx.holdNs ≤ s.ns - h.since then
      s.deliverHeld h tTIMEOUT [h.va, w64 h.opc, w64 ((s.ns - h.since) / 1000), s.cur.sys.phasen.setWidth 64]
    else s) s

/-- HOLD_TIMEOUT. -/
def execHoldTimeout (k : Nat) (s : State) : Out :=
  onStrand k (fun s =>
    if s.cur.ph.st = .cancelled ∨ s.cur.ph.rep then .next s
    else
      let s := s.checkHolds
      .next (if s.cur.ph.held.isEmpty then s else s.postOnce .holdTimeout k)) s

/-! ### Deadlock and waits -/

/-- DEADLOCK (R126): in the first engine that does not wait at a joint word, else in A. -/
def State.deadlocked (s : State) : State :=
  let g := (Eng.list.find? fun g => !((s.cur.engine g).why == 9)).getD .a
  let why := Eng.list.zipIdx.map fun e => (s.cur.engine e.1).why * 256 ^ e.2
  (s.setCur fun t => { t with dead := 0 }).takeTrap g tDEADLOCK [s.cur.links.ringst, w64 (why.foldl (· + ·) 0)]

def execDeadlock (k : Nat) (s : State) : Out :=
  onStrand k (fun s =>
    if (s.cur.st == .running || s.cur.st == .handler) && s.cur.sys.stl != 0 && decide (s.cur.sys.stl.toNat < s.cur.dead) then
      .next s.deadlocked
    else .next s) s

/-- WAITT_EXPIRE: the engine's WAITT retires once its time has come (R141). -/
def execWaittExpire (k : Nat) (g : Eng) (s : State) : Out :=
  onStrand k (fun s =>
    match (s.cur.engine g).wait with
    | some w => .next (if s.cur.runs && s.cur.ph.st != .cancelled && decide (w.time.toNat ≤ s.ns) then s.endWait g w else s)
    | none => .next s) s

/-! ### Stored data (R312 to R314) -/

/-- UNCORR_ABORT: the strand consumes an uncorrectable error. -/
def execUncorrAbort (k : Nat) (loc : Store) (addr : Word) (s : State) : Out :=
  onStrand k (fun s =>
    if s.cur.st == .running || s.cur.st == .handler || s.cur.st == .ending then .next (s.uncorr loc addr) else .next s) s

/-- PATROL_SCRUB: an uncorrectable location is poisoned and reported; a corrected one is counted. Device memory is
scrubbed by 64-byte blocks, on-package SRAM by 64-bit words; its die counts, core addresses holding the core above 2^32. -/
def execPatrolScrub (loc : Store) (addr : Nat) (bad : Bool) (s : State) : Out :=
  let home := if loc = .device then 0 else 16 + loc.code
  let n := if loc = .device then 64 else 8
  let here := (home, addr / n * n, n)
  if bad then .next (State.hostError { s with mem := { s.mem with poison := s.mem.poison ++ [here] } } loc.code addr)
  else
    .next (State.countDie { s with mem := { s.mem with soft := s.mem.soft.erase here } }
      (if loc = .device then dieOf addr else coreDie (addr / 2 ^ 32 % 256)) 0x262 none 1)

/-- TIMING_REPLAY (R312): counted; no tick advances and no result changes. -/
def execTimingReplay (die : Nat) (s : State) : Out := .next (s.countDie die 0x260 none 1)

end Sys2Proof.Machine
end

