-- ==== Sys2Proof/Machine/Page.lean ====
section
/-! DEFINITION. The page instructions (R335 to R338), walks and page requests (R321 to R323), page moves (R326), TLB
invalidation (R334) and the waits of the hub's agents (R468). -/

namespace Sys2Proof.Machine

/-! ### The leaf slot of a page -/

def State.pageSlot (s : State) (va : Word) (size : Nat) : PageSlot :=
  slotAt s.mem (va.toNat % 2 ^ 57) size 5 s.curCtx.record.ptroot.toNat

def State.putEntry (s : State) (pa : Nat) (e : Word) : State := { s with mem := s.mem.put 0 pa (leBytes 8 e.toNat) }

/-- Drop the translations of a page of the strand's context. -/
def State.dropTlb (s : State) (va : Word) (size : Nat) : State :=
  { s with mem := s.mem.invalidate s.cur.sys.ctx.toNat va.toNat (2 ^ pageShift size / 65536) }

/-- Buffered stores to a page that the strand's own instruction drops or moves are discarded at release (R336). -/
def State.discardPage (s : State) (va : Word) (size : Nat) : State :=
  s.setPhase fun p => { p with buf := p.buf.map fun e =>
    match e.kind with
    | .data .. | .atom .. => if e.va.toNat / 2 ^ pageShift size = va.toNat / 2 ^ pageShift size then { e with home := 3 } else e
    | _ => e }

/-! ### The instructions -/

/-- Pages and size of a page instruction. -/
def pageCount (x : Option XP) : Nat := match x with | some p => p.npg.toNat | none => 1
def pageSize (x : Option XP) : Nat := match x with | some p => p.size.toNat | none => 0

/-- What one page gives: done, or the reason that stops the instruction. -/
abbrev PageStep := Word → Act Nat

/-- The VA of page i. -/
def pageVa (a : Word) (size i : Nat) : Word := a + w64 (i * 2 ^ pageShift size)

/-- Whether a page is MOVING, or an access that its translation served is not performed yet: an atomic in line at an engine,
a request to a peer (R326, R334). -/
def State.pageBusy (s : State) (va : Word) (size : Nat) : Bool :=
  let ctx := s.cur.sys.ctx.toNat
  movingIn s.mem ctx va (2 ^ pageShift size) ||
    match s.pageSlot va size with
    | .entry _ e => leafV e && s.mem.inUse s.net ctx va (leafHome e) (leafPa e) (2 ^ pageShift size)
    | _ => false

/-- Pages i, i + 1, … of n: the result's reason and count. -/
def pageLoop (f : PageStep) (a : Word) (size : Nat) : Nat → Nat → Act Word
  | 0, i => Act.pure (w64 i)
  | n + 1, i => Act.get.bind fun s =>
    let va := pageVa a size i
    if windowIn s.cur.wins va (2 ^ pageShift size) then Act.pure (w64 (8 * 2 ^ 56 + i))
    else if s.pageBusy va size then Act.wait 0
    else (f va).bind fun r => if r = 0 then pageLoop f a size n (i + 1) else Act.pure (w64 (r * 2 ^ 56 + i))

/-- The checks at issue (R336): the range's first page that is not canonical decides. -/
def pageRange (a : Word) (size n : Nat) : Act Unit :=
  match (tab n fun i => pageVa a size i).find? fun v => !canonical v with
  | some v => Act.trap tPROTECT [v]
  | none => Act.pure ()

def pageAligned (a : Word) (size : Nat) : Act Unit := Act.check (a.toNat % 2 ^ pageShift size == 0) tALIGN []

/-- A page instruction whose ranges start at the first k of its sources: the alignment of each, then the pages of each, then
what the instruction checks itself (R336). -/
def pageInstr (r : Ring) (opc : Nat) (o : F3) (x : Option XP) (extra : List (BitVec 5)) (k : Nat) (check : List Word → Act Unit)
    (f : List Word → PageStep) : State → Out :=
  issue { r.issue .a opc (lenOf x) (o.a :: extra) [.reg o.d] 1 with
      legal := pageCount x != 0 && pageSize x != 3 } fun vs =>
    let a := vs.headD 0
    (Act.each (fun v => pageAligned v (pageSize x)) (vs.take k)).andThen <|
    (Act.each (fun v => pageRange v (pageSize x) (pageCount x)) (vs.take k)).andThen <| (check vs).andThen <|
    (pageLoop (f vs) a (pageSize x) (pageCount x) 0).bind fun v => result o.d v

/-- The valid leaf of a page, or the reason it cannot serve. -/
def validLeaf (va : Word) (size : Nat) (k : Nat → Word → Act Nat) : Act Nat := Act.get.bind fun s =>
  match s.pageSlot va size with
  | .entry pa e => if leafV e then k pa e else Act.pure 1
  | .noPath .. => Act.pure 2
  | .other => Act.pure 2

/-- One page of PGFORK. -/
def forkPage (size : Nat) (va dst : Word) : Act Nat := Act.get.bind fun s =>
  if windowIn s.cur.wins dst (2 ^ pageShift size) then Act.pure 8
  else if movingIn s.mem s.cur.sys.ctx.toNat dst (2 ^ pageShift size) then Act.wait 0
  else validLeaf va size fun pa e =>
    if leafHome e ≠ 0 then Act.pure 7
    else match s.pageSlot dst size with
      | .entry tp t =>
        if leafV t then Act.pure (if leafPa t = leafPa e ∧ leafHome t = 0 ∧ leafCow t then 0 else 6)
        else (Act.modify fun s =>
          let e' := setBit e 10 true
          let s := (s.putEntry pa e').putEntry tp (setBit (setBit (setBit e' 8 false) 7 false) 9 false)
          State.dropTlb { s with mem := s.mem.share s.cur.sys.ctx.toNat (leafPa e) size } va size).andThen (Act.pure 0)
      | _ => Act.pure 2

def execPgfork (r : Ring) (o : F3) (x : Option XP) (s : State) : Out :=
  pageInstr r 0x88 o x [o.b] 2 (fun _ => Act.pure ())
    (fun vs va => forkPage (pageSize x) va (vs.getD 1 0 + (va - vs.headD 0))) s

def dropOne (size : Nat) (va : Word) : Act Nat := Act.get.bind fun s =>
  match s.pageSlot va size with
  | .other => Act.pure 2
  | .noPath .. => Act.pure 0
  | .entry pa e =>
    if !leafV e then Act.pure 0
    else if leafPin e then Act.pure 3
    else (Act.modify fun s => (s.discardPage va size).dropLeaf s.cur.sys.ctx.toNat va pa e size).andThen (Act.pure 0)

def execPgdrop (r : Ring) (o : F3) (x : Option XP) (s : State) : Out :=
  pageInstr r 0x89 o x [] 1 (fun _ => Act.pure ()) (fun _ => dropOne (pageSize x)) s

/-- A page that is not valid faults; then its leaf is pinned. -/
def pinOne (size : Nat) (va : Word) : Act Nat := Act.get.bind fun s =>
  match s.pageSlot va size with
  | .other => Act.pure 2
  | .noPath level e => fun s => .stop (.fault ⟨va, false, 1, level, e⟩ s)
  | .entry pa e =>
    if !leafV e then fun s => .stop (.fault ⟨va, false, 1, size, e⟩ s)
    else (Act.modify fun s => (s.putEntry pa (setBit e 9 true)).dropTlb va size).andThen (Act.pure 0)

def execPgpin (r : Ring) (o : F3) (x : Option XP) (s : State) : Out :=
  pageInstr r 0x8A o x [] 1 (fun _ => Act.pure ()) (fun _ => pinOne (pageSize x)) s

def execPgunpin (r : Ring) (o : F3) (x : Option XP) (s : State) : Out :=
  pageInstr r 0x8B o x [] 1 (fun _ => Act.pure ()) (fun _ va => validLeaf va (pageSize x) fun pa e =>
    (Act.modify fun s => (s.putEntry pa (setBit e 9 false)).dropTlb va (pageSize x)).andThen (Act.pure 0)) s

/-- Target home and die of PGMOVE, as a pool's number. -/
def movePool (b : Word) : Nat := if b.toNat % 4 = 1 then 4 else b.toNat / 4

/-- One page of PGMOVE: it is where it should be, its move goes on, or its move starts. -/
def movePage (size : Nat) (b va : Word) : Act Nat := Act.get.bind fun s =>
  let ctx := s.cur.sys.ctx.toNat
  if s.mem.moves.any fun v => v.ctx == ctx && v.va == va.toNat then Act.wait 0
  else validLeaf va size fun _ e =>
    if leafPin e then Act.pure 3
    else if leafHome e = 0 ∧ 1 < frameCount s.mem (leafPa e) then Act.pure 4
    else if leafHome e = 2 then Act.pure 7
    else if poolOf (leafHome e) (leafPa e) = movePool b then Act.pure 0
    else match if s.curCtx.record.poollog2 = 0 then none else s.takeFrame ctx (movePool b) size with
      | none => Act.pure 5
      | some (frame, t) =>
        let v : Move := ⟨s.cur.key, ctx, va.toNat, 2 ^ pageShift size, size, if movePool b = 4 then 1 else 0, frame⟩
        fun _ =>
          let t := { t with mem := { t.mem with moves := t.mem.moves ++ [v] } }
          .stop (.wait 0 ((t.discardPage va size).post .pageMoveCopyDone s.cur.key))

def execPgmove (r : Ring) (o : F3) (x : Option XP) (s : State) : Out :=
  pageInstr r 0x8D o x [o.b] 1
    (fun vs => Act.check (decide ((vs.getD 1 0).toNat < 16) && decide ((vs.getD 1 0).toNat % 4 ≤ 1)) tRANGE [])
    (fun vs va => movePage (pageSize x) (vs.getD 1 0) va) s

/-! ### Moving (R326, R332, R337) -/

/-- Move the listed bytes of a range within or between memories; the destination's old bytes are replaced. -/
def copyCells (src dst : Memory) (a b n : Nat) : Memory :=
  (src.filter fun c => decide (a ≤ c.1) && decide (c.1 < a + n)).foldl (fun m c => Memory.write m (b + (c.1 - a)) c.2)
    (SMap.drop dst b n)

/-- The move of one page ends: data and descriptors copied, the leaf changed, translations dropped, the old frame
given up. -/
def State.endMove (s : State) (v : Move) : State :=
  let s := { s with mem := { s.mem with moves := s.mem.moves.erase v } }
  match slotAt s.mem (v.va % 2 ^ 57) v.level 5 (s.ctxOf v.ctx).record.ptroot.toNat with
  | .entry pa e =>
    if !leafV e then s.returnFrame v.ctx v.home v.frame v.level
    else
      let src := if leafHome e = 1 then s.mem.host else s.mem.dev
      let m := if v.home = 1 then { s.mem with host := copyCells src s.mem.host (leafPa e) v.frame v.size }
        else { s.mem with dev := copyCells src s.mem.dev (leafPa e) v.frame v.size }
      let m := if leafDesc e && v.home == 0 then
          { m with dev := copyCells m.dev m.dev (descAddr (leafPa e)) (descAddr v.frame) (v.size / 32) }
        else m
      let keep := w64 (2 ^ 64 - 1 - (2 ^ 52 - 2 ^ 16) - 96)
      let e' := (e &&& keep) ||| w64 (v.frame + v.home * 32)
      let m := (m.put 0 pa (leBytes 8 e'.toNat)).invalidate v.ctx v.va (v.size / 65536)
      let m := if v.home = 0 then m.setCount v.frame 1 else m
      State.unshare { s with mem := m } v.ctx (leafHome e) (leafPa e) v.level
  | _ => s.returnFrame v.ctx v.home v.frame v.level

/-- Whether an access that the page's translation served is not performed yet. -/
def State.moveWaits (s : State) (v : Move) : Bool :=
  match slotAt s.mem (v.va % 2 ^ 57) v.level 5 (s.ctxOf v.ctx).record.ptroot.toNat with
  | .entry _ e => leafV e && s.mem.inUse s.net v.ctx (w64 v.va) (leafHome e) (leafPa e) v.size
  | _ => false

/-- PAGE_MOVE_COPY_DONE: the moves that strand k started, each once the accesses before it are performed. -/
def execPageMoveCopyDone (k : Nat) (s : State) : Out :=
  let mine := s.mem.moves.filter fun v => v.key == k
  let s' := (mine.filter fun v => !s.moveWaits v).foldl State.endMove s
  .next (if mine.any s.moveWaits then s'.postOnce .pageMoveCopyDone k else s')

/-! ### PGQRY (R338) -/

def State.queryPage (s : State) (va : Word) (sel : Nat) : Word :=
  let ctx := s.cur.sys.ctx.toNat
  let win := findWindow s.cur.wins va
  let leaf := match win, s.walk ctx va with | none, .leaf _ e l => some (e, l) | _, _ => none
  match sel with
  | 0 => match win, leaf with
    | some w, _ => w64 (w.attr.toNat + 2 ^ 62)
    | none, some (e, _) => e
    | none, none => 0
  | 1 => match leaf with
    | some (e, _) => if leafHome e = 0 then w64 (frameCount s.mem (leafPa e)) else 0
    | none => 0
  | _ =>
    w64 (b2n (win.isSome || leaf.isSome) + 2 * b2n win.isSome + 4 * (leaf.map (·.2)).getD 0 +
      16 * b2n (s.mem.request? ctx va).isSome + 32 * b2n (movingAt s.mem ctx va))

def execPgqry (r : Ring) (o : F3) (s : State) : Out :=
  issue (r.issue .a 0x8C 1 [o.a] [.reg o.d] 40) (fun vs => Act.get.bind fun s =>
    result o.d (if canonical (vs.headD 0) then s.queryPage (vs.headD 0) o.b.toNat else 0)) s

/-! ### Walks and requests (R321 to R323) -/

/-- PAGE_WALK: the cluster walker completes a walk for strand k. -/
def execPageWalk (k : Nat) (va : Word) (wr : Bool) (s : State) : Out :=
  onStrand k (fun s =>
    match s.translate s.cur.sys.ctx.toNat s.cur.wins (some s.curCore) va (if wr then .write else .read) with
    | .ok _ t => .next t
    | .fault f =>
      .next (if f.code = 3 then s else (s.requestPage s.cur.sys.ctx.toNat f.va f.code (b2n f.wr) (some s.curCore)).2)
    | .moving => .next s
    | .absent => .fault .absentMemory) s

/-- Set the answer of everything in a phase that waits for a request. -/
def Strand.answer (t : Strand) (rqid : BitVec 32) (ans : Nat) : Strand :=
  { t with ph := { t.ph with held := t.ph.held.map fun h => if h.rqid = rqid then { h with ans } else h } }

/-- The same in every strand, saved ones included. -/
def State.answerAll (s : State) (rqid : BitVec 32) (ans : Nat) : State :=
  let f := fun (t : Strand) => t.answer rqid ans
  { s with
    cur := f s.cur, others := s.others.map (fun e => (e.1, f e.2))
    ctl := { s.ctl with ctxs := s.ctl.ctxs.map fun e => (e.1, { e.2 with stash := e.2.stash.map f }) }
    work := { s.work with groups := s.work.groups.map fun g =>
      { g with pend := g.pend.map fun p => { p with saved := p.saved.map f } } } }

/-- Whether a TWARM of the strand at the front waits for a page. -/
def State.warms (s : State) (o : AsyncOp) (va : Word) : Bool :=
  match o.kind with
  | .warm r vas =>
    (vas.any fun v => pageOf v == va.toNat) ||
      (match r.rows s with
       | .ok rows _ => rows.any fun (e : RowAt) => ((runRanges (e.runs.getD [])).map pagesOf).flatten.contains va
       | .stop (.fault f _) => pageOf f.va == va.toNat
       | _ => false)
  | _ => false

/-- A page cannot be mapped: the TWARMs that wait for it complete (R201). -/
def State.endWarms (s : State) (ctx : Nat) (va : Word) : State :=
  s.strands.foldl (fun s e =>
    if e.2.sys.ctx.toNat ≠ ctx then s
    else s.at e.1 fun u => (u.cur.ops.filter fun o => !o.done && u.warms o va).foldl State.completeOp u) s

/-- The agent that made a page resident sets its new frame's count to 1, and subtracts 1 from the frame that it stops using
when it breaks a sharing (R329); the model does so with the answer (DESIGN CHOICE, assumption log 44). -/
def State.countAnswered (s : State) (q : PageReq) : State :=
  match s.walk q.ctx q.va with
  | .leaf _ e _ =>
    if leafHome e = 0 ∧ q.shared.map (·.1) = some (leafPa e) then s
    else
      let s := if leafHome e = 0 ∧ frameCount s.mem (leafPa e) = 0 then { s with mem := s.mem.setCount (leafPa e) 1 } else s
      match q.shared with
      | some f => s.unshare q.ctx 0 f.1 f.2
      | none => s
  | _ => s

/-- Answer a page request (R323): `ans` 0 resident, else the trap that the waiting parties receive. -/
def State.answerPage (s : State) (fn : Nat) (rqid : BitVec 32) (ans : Nat) : State :=
  match s.mem.reqs.find? fun r => r.rqid == rqid && (s.ctxOf r.ctx).fn == fn with
  | none => s.ignored
  | some q =>
    let s := { s with mem := { s.mem with reqs := s.mem.reqs.erase q } }
    let ws := s.mem.waits.filter fun w => w.rqid == rqid
    if ans = 0 then
      let s := s.countAnswered q
      ws.foldl (fun s w => s.repost w.item) { s with mem := { s.mem with waits := s.mem.waits.filter fun w => w.rqid != rqid } }
    else
      let s := (s.answerAll rqid ans).endWarms q.ctx q.va
      ws.foldl State.dropWait s

def execPgdoneResident (fn : Nat) (rqid : BitVec 32) (s : State) : Out := .next (s.answerPage fn rqid 0)
def execPgdoneUnmappable (fn : Nat) (rqid : BitVec 32) (s : State) : Out := .next (s.answerPage fn rqid tPAGE)
def execPgdoneDenied (fn : Nat) (rqid : BitVec 32) (s : State) : Out := .next (s.answerPage fn rqid tPROTECT)

/-- HUB_AGENT_HOLD_LIMIT (R468): accesses that have waited too long for request a are dropped. -/
def execHubAgentHoldLimit (a : Nat) (s : State) : Out :=
  let ws := s.mem.waits.filter fun w => w.rqid.toNat == a && !w.item.what.own && !w.drop
  let due := ws.filter fun w => decide ((s.ctxOf w.ctx).holdNs ≤ s.ns - w.since)
  let s := due.foldl State.dropWait s
  .next (if due.length < ws.length then s.postOnce .hubAgentHoldLimit a else s)

/-! ### Invalidation (R334) -/

def State.fnRegs (s : State) (fn : Nat) : FnRegs := SMap.getD s.ctl.fns fn .zero

def State.setFn (s : State) (fn : Nat) (f : FnRegs → FnRegs) : State :=
  { s with ctl := { s.ctl with fns := SMap.upd s.ctl.fns fn .zero f } }

/-- Whether a context belongs to a function. -/
def State.owns (s : State) (fn ctx : Nat) : Bool := (s.ctxOf ctx).st != .free && (s.ctxOf ctx).fn == fn

/-- TLBINV: a write of TLBINVB; GO starts the invalidation that TLBINVA and N describe. -/
def execTlbinv (fn : Nat) (v : Word) (s : State) : Out :=
  let r := s.fnRegs fn
  if r.tlbb.getLsbD 63 then .next (if v.getLsbD 63 then s else s.setFn fn fun r => { r with tlbb := (v &&& 0xFFFFFFFF) ||| w64 (2 ^ 63) })
  else if !v.getLsbD 63 then .next (s.setFn fn fun r => { r with tlbb := v &&& 0xFFFFFFFF })
  else if !s.owns fn (r.tlba.toNat % 4096) then .next s.ignored
  else .next ((s.setFn fn fun r => { r with tlbb := v &&& 0x80000000FFFFFFFF, tlbAt := s.clock }).post .tlbInvalidationComplete fn)

/-- Whether an access of a context from before a time is not performed yet: an atomic in line, a request to a peer. -/
def State.earlierAccess (s : State) (ctx t : Nat) : Bool :=
  (s.mem.atoms.any fun r => r.ctx == ctx && r.old.isNone && decide (r.since ≤ t)) ||
    s.net.remote.any fun r => r.ctx == ctx && r.ans.isNone && decide (r.since ≤ t / Config.periodsPerNs)

/-- The VA that TLBINVA names, in canonical form. -/
def tlbStart (a : Word) : Nat := ((a.setWidth 57).signExtend 64).toNat / 65536 * 65536

/-- TLB_INVALIDATION_COMPLETE: the translations are dropped at once; GO reads 1 until the accesses that used them are
performed. -/
def execTlbInvalidationComplete (fn : Nat) (s : State) : Out :=
  let r := s.fnRegs fn
  if !r.tlbb.getLsbD 63 then .next s
  else
    let ctx := r.tlba.toNat % 4096
    let s := { s with mem := s.mem.invalidate ctx (tlbStart r.tlba) (r.tlbb.toNat % 2 ^ 32) }
    if s.earlierAccess ctx r.tlbAt then .next (s.postOnce .tlbInvalidationComplete fn)
    else .next (s.setFn fn fun r => { r with tlbb := r.tlbb &&& 0xFFFFFFFF })

end Sys2Proof.Machine
end

