-- ==== Sys2Proof/Machine/Kernel.lean ====
section
/-! DEFINITION. Kernel images (R339 to R342), the method table and its search (R343 to R346), the dispatch cache (R347),
conversions as dispatch plans them (R348, R349), and MDISP (R352). -/

namespace Sys2Proof.Machine

/-! ### Reads of an agent -/

/-- An agent's action: done, dropped, or waiting for a page. -/
abbrev Ag (α : Type) := State → AgentRes α

def Ag.pure {α : Type} (a : α) : Ag α := fun s => .ok a s

def Ag.bind {α β : Type} (x : Ag α) (f : α → Ag β) : Ag β := fun s =>
  match x s with
  | .ok a t => f a t
  | .drop t => .drop t
  | .wait t => .wait t

def Ag.each {α β : Type} (f : α → Ag β) : List α → Ag (List β)
  | [] => Ag.pure []
  | x :: xs => (f x).bind fun y => (Ag.each f xs).bind fun ys => Ag.pure (y :: ys)

/-- Read n bytes of a context, page by page, for the unit step `item`. -/
def agentBytes (ctx : Nat) (va : Word) (n : Nat) (item : Post) (acc : Access := .read) : Ag (List Byte) :=
  (Ag.each (fun p => fun s => s.agentRead ctx p.1 p.2 noSource item acc) (pagePieces va n)).bind fun bs => Ag.pure bs.flatten

/-! ### The method table (R343, R344) -/

def tableRootVa (c : Context) : Word := c.record.mtroot

/-- The root record: array VA, N, kernel table VA, kernel count; none when it is invalid. -/
def tableRoot (b : List Byte) : Option (Word × Nat × Word × Nat) :=
  let a := field b 0 8
  let n := field b 8 4
  let k := field b 16 8
  let m := field b 24 4
  if n < 65536 ∧ m ≤ 65536 ∧ field b 12 4 = 0 ∧ field b 28 4 = 0 ∧ a % 64 = 0 ∧ k % 16 = 0 then
    some (w64 a, n, w64 k, m)
  else none

/-- Entry i of the array, unless it is ignored. -/
def methodOf (kerns i : Nat) (b : List Byte) : Option Method :=
  let e := (b.drop (32 * i)).take 32
  let op := field e 0 2
  if field e 2 2 = 1 ∧ field e 14 2 = 0 ∧ field e 20 12 = 0 ∧ field e 10 2 < kerns ∧ op ≠ 0 ∧ op ≠ 0xFFFF then
    some ⟨i, op, tab 3 fun k => BitVec.ofNat 16 (field e (4 + 2 * k) 2), field e 10 2, field e 12 2, field e 16 4⟩
  else none

def methodsOf (kerns n : Nat) (b : List Byte) : List Method := (tab n fun i => methodOf kerns i b).filterMap id

/-- Whether a tag matches a pattern. -/
def tagMatches (p g : W16) : Bool :=
  flag p 15 || ((flag p 14 || getBits p 0 4 == getBits g 0 4) && (flag p 13 || flag p 4 == flag g 4) &&
    (flag p 12 || getBits p 5 3 == getBits g 5 3) && (flag p 11 || getBits p 8 3 == getBits g 8 3))

def wildcards (p : W16) : Nat :=
  if flag p 15 then 4 else b2n (flag p 14) + b2n (flag p 13) + b2n (flag p 12) + b2n (flag p 11)

/-! ### Matching (R346) -/

/-- Pattern i of an entry. Of a CONVERT entry, bits [15:5] of TAG1 and all of TAG2 are ignored. -/
def Method.pattern (m : Method) (i : Nat) : W16 := m.tags.getD i 0

/-- Whether operand i's tag matches an entry. -/
def Method.takes (m : Method) (i : Nat) (g : W16) : Bool :=
  if m.op = 1 ∧ i = 1 then getBits (m.pattern 1) 0 5 == getBits g 0 5
  else (m.op == 1 && i == 2) || tagMatches (m.pattern i) g

/-- Wildcards of an entry's patterns. -/
def Method.wild (m : Method) : Nat := ((if m.op = 1 then m.tags.take 1 else m.tags).map wildcards).foldl (· + ·) 0

/-- FMT and SCALED of a CONVERT entry's TAG1, the rest of g. -/
def produced (g : W16) (c : Method) : W16 :=
  (g &&& 0xFFE0) ||| (c.tags.getD 1 0 &&& 0x001F)

/-- The first entry with the least measure. -/
def leastBy (f : Method → Nat) (ms : List Method) : Option Method :=
  ms.foldl (fun (b : Option Method) m => match b with | none => some m | some c => if f m < f c then some m else b) none

/-- The cheapest CONVERT entry from tag g to what entry e takes as operand i. -/
def converter (ms : List Method) (g : W16) (e : Method) (i : Nat) : Option Method :=
  leastBy Method.cost (ms.filter fun c => c.op == 1 && c.takes 0 g && e.takes i (produced g c))

/-- The conversions that entry e needs: none when it has no route. -/
def routeOf (ms : List Method) (gs : List W16) (conv : List Bool) (e : Method) : Option (List (Nat × Method)) :=
  let need := (tab 3 id).filter fun i => !e.takes i (gs.getD i 0)
  if 2 < need.length then none
  else
    let cs := need.map fun i => if conv.getD i false then (converter ms (gs.getD i 0) e i).map fun c => (i, c) else none
    if cs.all Option.isSome then some (cs.filterMap id) else none

def routeCost (e : Method) (cs : List (Nat × Method)) : Nat := cs.foldl (fun n c => n + c.2.cost) e.cost

/-- The search: a match, the cheapest route, or the reason of R350. -/
def searchMethods (ms : List Method) (ktab : Word) (op : Nat) (gs : List W16) (conv : List Bool) : Choice :=
  let own := ms.filter fun m => m.op == op
  match leastBy Method.wild (own.filter fun m => (tab 3 id).all fun i => m.takes i (gs.getD i 0)) with
  | some m => ⟨some m, [], 0, ktab⟩
  | none =>
    let best := own.foldl (fun (b : Option (Method × List (Nat × Method))) e =>
      match routeOf ms gs conv e with
      | none => b
      | some cs => match b with
        | none => some (e, cs)
        | some (f, ds) => if routeCost e cs < routeCost f ds then some (e, cs) else b) none
    match best with
    | some (e, cs) => ⟨some e, cs, 0, ktab⟩
    | none => ⟨none, [], if own.isEmpty then 1 else 2, ktab⟩

/-! ### The dispatch cache (R347) -/

def CacheEnt.isFor (e : CacheEnt) (die ctx : Nat) (op : W16) (gs : List W16) (conv : List Bool) : Bool :=
  e.die == die && e.ctx == ctx && e.op == op && e.tags == gs && e.conv == conv

/-- The cached result of a key. -/
def State.cached (s : State) (die ctx : Nat) (op : W16) (gs : List W16) (conv : List Bool) : Option Choice :=
  (s.work.cache.find? fun e => e.isFor die ctx op gs conv).map CacheEnt.res

/-- Keep a result; a die keeps 1,024, the newest. -/
def State.remember (s : State) (e : CacheEnt) : State :=
  let mine := (s.work.cache.filter fun c => c.die == e.die).take 1023
  let rest := s.work.cache.filter fun c => c.die != e.die
  { s with work := { s.work with cache := e :: mine ++ rest } }

/-- MTFLUSH GO for a context. -/
def State.flushMethods (s : State) (ctx : Nat) : State :=
  { s with work := { s.work with
      cache := s.work.cache.filter fun e => e.ctx != ctx
      images := s.work.images.filter fun e => e.1 != ctx } }

/-- The result for a key, from the cache of the die or from the table. -/
def lookup (die ctx : Nat) (op : W16) (gs : List W16) (conv : List Bool) (item : Post) : Ag Choice := fun s =>
  match s.cached die ctx op gs conv with
  | some r => .ok r s
  | none =>
    let keep := fun (r : Choice) => fun (s : State) => AgentRes.ok r (s.remember ⟨die, ctx, op, gs, conv, r⟩)
    ((agentBytes ctx (tableRootVa (s.ctxOf ctx)) 32 item).bind fun b =>
      match tableRoot b with
      | none => keep ⟨none, [], 6, 0⟩
      | some (va, n, ktab, kerns) => (agentBytes ctx va (32 * n) item).bind fun t =>
        keep (searchMethods (methodsOf kerns n t) ktab op.toNat gs conv)) s

/-! ### Kernel images (R339 to R342) -/

def up64 (n : Nat) : Nat := (n + 63) / 64 * 64

/-- Fields of the header. -/
def hdrTextw (b : List Byte) : Nat := field b 8 4
def hdrConst (b : List Byte) : Nat := field b 12 4
def hdrNmeth (b : List Byte) : Nat := field b 16 2
def hdrNlevel (b : List Byte) : Nat := field b 18 1
def hdrSigned (b : List Byte) : Bool := field b 6 2 % 2 == 1

def headerOk (b : List Byte) : Bool :=
  b.take 4 == [0x50, 0x53, 0x4B, 0x31] && field b 4 2 == 1 && decide (field b 6 2 < 2) &&
  decide (1 ≤ hdrTextw b) && decide (hdrTextw b ≤ 16384) && decide (hdrNmeth b ≤ 1024) && decide (hdrNlevel b ≤ 6) &&
  decide (field b 19 1 ≤ 64) && decide (field b 20 1 ≤ 48) && decide (field b 21 1 ≤ 128) &&
  decide (16 ≤ field b 22 2) && decide (field b 22 2 ≤ 256) && decide (field b 24 4 ≤ 1280) && ((b.drop 28).take 36).all (· == 0)

/-- Offsets of the loop table, the method entries, the constants and the signature. -/
def offLevels (h : List Byte) : Nat := 64 + up64 (4 * hdrTextw h)
def offMethods (h : List Byte) : Nat := offLevels h + up64 (16 * hdrNlevel h)
def offConst (h : List Byte) : Nat := offMethods h + up64 (16 * hdrNmeth h)
def offSig (h : List Byte) : Nat := offConst h + up64 (hdrConst h)

/-- A loop-table entry keeps R340. -/
def levelOk (e : List Byte) : Bool :=
  decide (field e 0 1 < 4) && field e 3 1 == 0 && field e 8 8 == 0 &&
  match field e 1 1 with
  | 0 => field e 2 1 == 0
  | 1 => decide (field e 2 1 < 4) && field e 4 4 == 0
  | _ => false

def imageMethodOk (textw : Nat) (e : List Byte) : Bool := decide (field e 8 2 < textw) && field e 10 2 == 0

def slices (b : List Byte) (off size n : Nat) : List (List Byte) := tab n fun i => (b.drop (off + size * i)).take size

/-- KIND and extent of a level for a task's launch extents. -/
def levelOf (launch : List Nat) (e : List Byte) : Nat × Nat :=
  (field e 0 1, if field e 1 1 = 1 then launch.getD (field e 2 1) 0 else field e 4 4)

/-- A window-table entry (R320). -/
def windowAt (e : List Byte) : Window := ⟨w64 (field e 0 8), field e 8 8, field e 16 1, BitVec.ofNat 8 (field e 17 1)⟩

def windowOk (e : List Byte) : Bool :=
  let w := windowAt e
  decide (21 ≤ w.log2) && decide (w.log2 ≤ 48) && w.va.toNat % 2 ^ w.log2 == 0 && canonical w.va && w.pa % 2 ^ w.log2 == 0 &&
  decide (w.pa < 2 ^ 52) && w.attr.toNat / 8 % 4 != 3 && w.attr.toNat / 64 == 0 && field e 18 14 == 0

/-- Whether two windows share an address. -/
def Window.meets (a b : Window) : Bool := overlaps a.va.toNat (2 ^ a.log2) b.va.toNat (2 ^ b.log2)

def disjoint : List Window → Bool
  | [] => true
  | w :: ws => !(ws.any fun v => w.meets v) && disjoint ws

/-- The valid windows of a table of 128 entries; none when the table is rejected. -/
def windowsOf (limit : Nat) (b : List Byte) : Option (List Window) :=
  let es := (slices b 0 32 128).filter fun e => (windowAt e).attr.getLsbD 0
  let ws := es.map windowAt
  if es.all windowOk && disjoint ws && decide (ws.length ≤ limit) then some ws else none

/-- The window table of a kernel: WTSET's array names it; 0 stands for none. -/
def readWindows (ctx kern limit : Nat) (item : Post) : Ag (Option (List Window)) := fun s =>
  let set := (s.ctxOf ctx).record.wtset
  (if set = 0 then Ag.pure (some [])
   else (agentBytes ctx (set + w64 (8 * kern)) 8 item).bind fun v =>
     if leNat v = 0 then Ag.pure (some [])
     else (agentBytes ctx (w64 (leNat v)) 4096 item).bind fun b => Ag.pure (windowsOf limit b)) s

/-- Result of the check of a kernel's image: 0, or reason 4 or 5. -/
def State.checkedImage (s : State) (ctx kern : Nat) : Option Nat :=
  (s.work.images.find? fun e => e.1 == ctx && e.2.1 == kern).map fun e => e.2.2

/-- Check an image whole. -/
def imageCode (c : Context) (b : List Byte) : Nat :=
  if !headerOk b then 4
  else if c.record.policy.getLsbD 0 && !hdrSigned b then 5
  else if hdrSigned b && !Config.ed25519 c.record.kkey (b.take (offSig b)) ((b.drop (offSig b)).take 64) then 5
  else if !((slices b (offLevels b) 16 (hdrNlevel b)).all levelOk) then 4
  else if !((slices b (offMethods b) 16 (hdrNmeth b)).all (imageMethodOk (hdrTextw b))) then 4
  else 0

/-- Bytes of an image that dispatch reads: a header whose fields are out of range stands alone. -/
def imageSize (h : List Byte) : Nat := if headerOk h then offSig h + (if hdrSigned h then 64 else 0) else 64

/-- What loading a kernel gives: the image, or the reason of R350, or a rejected window table (status 3 alone). -/
inductive Loaded where
  | ok (i : Image)
  | bad (why : Nat)
  | windows
  deriving DecidableEq, Repr

/-- The image at a VA whose check passed, for the given launch extents: its header, loop levels, text and windows. The
text is read with the access kind of a text load (R318); it is at most what a text memory holds. -/
def readImage (ctx : Nat) (va : Word) (kern : Nat) (launch : List Nat) (item : Post) : Ag Loaded :=
  (agentBytes ctx va 64 item).bind fun h =>
  (agentBytes ctx (va + w64 (offLevels h)) (16 * hdrNlevel h) item).bind fun ls =>
  (agentBytes ctx (va + 64) (4 * min Config.textWords (hdrTextw h)) item .text).bind fun t =>
  (readWindows ctx kern (field h 21 1) item).bind fun ws => match ws with
    | none => Ag.pure .windows
    | some wins => Ag.pure (.ok
      { text := (slices t 0 4 (min Config.textWords (hdrTextw h))).map fun w => BitVec.ofNat 32 (leNat w)
        levels := (slices ls 0 16 (hdrNlevel h)).map (levelOf launch)
        nslots := field h 19 1, nacc := field h 20 1, win := field h 22 2, wins })

/-- Load kernel `kern` from the kernel table for a task with the given launch extents. The first use after a flush checks
the kernel's entry and image; the result stands until the next flush, whatever memory holds by then (R342, R347). -/
def loadImage (ctx : Nat) (ktab : Word) (kern : Nat) (launch : List Nat) (item : Post) : Ag Loaded := fun s =>
  let keep := fun (n : Nat) (s : State) => ({ s with work := { s.work with images := (ctx, kern, n) :: s.work.images } } : State)
  match s.checkedImage ctx kern with
  | some (n + 1) => .ok (.bad (n + 1)) s
  | known =>
    ((agentBytes ctx (ktab + w64 (16 * kern)) 16 item).bind fun k =>
      let va := w64 (field k 0 8)
      if known.isSome then readImage ctx va kern launch item
      else if field k 8 4 ≠ 1 ∨ field k 12 4 ≠ 0 ∨ va.toNat % 64 ≠ 0 then fun s => .ok (.bad 4) (keep 4 s)
      else (agentBytes ctx va 64 item).bind fun h => (agentBytes ctx va (imageSize h) item).bind fun b => fun s =>
        let code := imageCode (s.ctxOf ctx) b
        if code ≠ 0 then .ok (.bad code) (keep code s) else readImage ctx va kern launch item (keep 0 s)) s

/-! ### Conversions (R348, R349) -/

/-- Whether an operand's layout record can be converted. -/
def convertible (l : Layout) : Bool :=
  l.fault.isNone && (l.lay == 0 || l.lay == 4) && !l.described && (l.shx == 0xFF || l.shx == 0)

/-- Operand words of a task record. -/
def operandOf (r : List Byte) (i : Nat) : Word := w64 (field r (40 + 8 * i) 8)
def recNops (r : List Byte) : Nat := field r 5 1
def launchOf (r : List Byte) : List Nat := tab 4 fun i => field r (88 + 4 * i) 4

/-- Steps 1 and 2 of R349 for operand i. -/
def planOf (launch : List Nat) (i : Nat) (c : Method) (l : Layout) : Plan :=
  let tag := produced l.tag c
  let ext := tab 4 fun k => if l.rank.toNat ≤ k then 1 else if l.shx = 0xFF then (l.ext.getD k 0).toNat else launch.getD k 0
  let e := fun k => ext.getD k 1
  let st1 := up64 ((e 0 * codeBits (tagFmt tag) + 7) / 8)
  let flat := l.lay == 0
  { i, c
    dest := { l with
      tag, shx := 0xFF, ext := ext.map (BitVec.ofNat 32)
      st := [w64 st1, if flat then w64 (st1 * e 1) else 0, if flat then w64 (st1 * e 1 * e 2) else 0] }
    size := 64 + st1 * e 1 * (if flat then e 2 * e 3 else 1) }

/-- The CONVERT task's record (R349, step 3). -/
def convertRecord (r : List Byte) (src dst : Word) : List Byte :=
  leBytes 2 1 ++ leBytes 2 0 ++ (r.drop 4).take 1 ++ [2] ++ leBytes 2 0 ++ (r.drop 8).take 8 ++ leBytes 20 0 ++
    (r.drop 36).take 4 ++ leBytes 8 src.toNat ++ leBytes 8 dst.toNat ++ leBytes 32 0 ++ (r.drop 88).take 24 ++ leBytes 16 0

/-! ### The choice for a packet (R345 to R349) -/

/-- An operand as dispatch sees it: its tag, and its layout record where it names one. -/
structure Opnd where
  tag : W16
  lay : Option Layout
  deriving DecidableEq, Repr

/-- Operand i of a record. -/
def readOperand (ctx : Nat) (r : List Byte) (item : Post) (i : Nat) : Ag Opnd :=
  let w := operandOf r i
  if recNops r ≤ i then Ag.pure ⟨0, none⟩
  else if w.getLsbD 63 then Ag.pure ⟨BitVec.ofNat 16 (getBits w 32 16), none⟩
  else (agentBytes ctx w 64 item).bind fun b => let l := Layout.ofBytes b; Ag.pure ⟨l.tag, some l⟩

def Opnd.converts (o : Opnd) : Bool := (o.lay.map convertible).getD false

/-- The choice for a task record of a context on a die: its tags, the result of the search, its conversions as planned. -/
def choosePick (die ctx : Nat) (r : List Byte) (item : Post) : Ag Pick :=
  (Ag.each (readOperand ctx r item) [0, 1, 2]).bind fun os =>
  let gs := os.map Opnd.tag
  (lookup die ctx (BitVec.ofNat 16 (field r 0 2)) gs (os.map Opnd.converts) item).bind fun c =>
  Ag.pure ⟨gs, c, c.convs.filterMap fun e => ((os[e.1]?).bind Opnd.lay).map fun l => planOf (launchOf r) e.1 e.2 l⟩

/-- Whether a conversion needs more than the whole arena (R350, reason 3). -/
def Pick.tooBig (p : Pick) (c : Context) : Bool := p.plans.any fun x => decide (c.conv.size < x.size / 64)

/-- Space for every plan of task id: starts and ring; none when one does not fit. -/
def allocPlans (id : Nat) : List Plan → RingAlloc → Option (List Nat × RingAlloc)
  | [], a => some ([], a)
  | p :: ps, a =>
    match a.alloc (p.size / 64) (id, p.i) with
    | none => none
    | some (start, b) => (allocPlans id ps b).map fun r => (start :: r.1, r.2)

/-- Whether the conversion arena has room for a choice (R348, R359). One that is larger than the arena waits for none. -/
def Pick.roomIn (p : Pick) (c : Context) : Bool := p.tooBig c || (allocPlans 0 p.plans c.conv).isSome

/-! ### MDISP (R352) -/

/-- Result word of a search. -/
def Choice.word (r : Choice) : Word :=
  let ix := fun (n : Nat) => match r.convs[n]? with | some c => c.2.index | none => 0xFFFF
  let kind := match r.found with | none => 2 | some _ => if r.convs.isEmpty then 0 else 1
  let mask := (r.convs.map fun c => 2 ^ c.1).foldl (· + ·) 0
  w64 (kind * 2 ^ 62 + mask * 2 ^ 48 + ix 1 * 2 ^ 32 + ix 0 * 2 ^ 16 +
    (match r.found with | some m => m.index | none => 0xFFFF))

/-- The search on the LS path, or the cached result. -/
def mdispSearch (op : W16) (gs : List W16) (conv : List Bool) : Act Choice := Act.get.bind fun s =>
  match s.cached s.curDie s.cur.sys.ctx.toNat op gs conv with
  | some r => Act.pure r
  | none => (loadBytes (tableRootVa s.curCtx) 32 false).bind fun b =>
    match tableRoot b with
    | none => Act.pure ⟨none, [], 6, 0⟩
    | some (va, n, ktab, kerns) => (loadBytes va (32 * n) false).bind fun t =>
      Act.pure (searchMethods (methodsOf kerns n t) ktab op.toNat gs conv)

def execMdisp (r : Ring) (o : F3) (s : State) : Out :=
  issue (r.issue .a 0x7C 1 [o.a, o.b] [.reg o.d] 40) (fun vs =>
    let a := vs.headD 0
    let b := vs.getD 1 0
    let gs := tab 3 fun i => BitVec.ofNat 16 (getBits a (16 * i) 16)
    (Act.check (decide (b.toNat < 8) && gs.all fun g => decide (g.toNat < 2048)) tRANGE []).andThen <|
    (mdispSearch (BitVec.ofNat 16 (getBits a 48 16)) gs (tab 3 fun i => !b.getLsbD i)).bind fun c => result o.d c.word) s

end Sys2Proof.Machine
end

