-- ==== Sys2Proof/Machine/Queue.lean ====
section
/-! DEFINITION. Virtual queues (R353 to R356): descriptors, kicks, slots, parsing, fences (R361), pushes (R364) and the
level of a queue (R362); QSUBMIT and QSTAT (R364, R365). -/

namespace Sys2Proof.Machine

/-! ### Descriptors (R353) -/

def queueKey (fn qid : Nat) : Nat := fn * 2 ^ 20 + qid
def queueFn (key : Nat) : Nat := key / 2 ^ 20
def queueId (key : Nat) : Nat := key % 2 ^ 20

/-- PA of a descriptor. -/
def descriptorPa (key : Nat) : Nat := Config.queueTable (queueFn key) + 64 * queueId key

/-- A DORMANT queue as its descriptor holds it. -/
def queueOf (key : Nat) (b : List Byte) : Queue :=
  { key, st := .dormant, ctx := field b 12 2, ring := w64 (field b 0 8), log2n := field b 8 1, flags := field b 9 1,
    age := field b 10 2, vec := field b 14 2, cring := w64 (field b 16 8), die := field b 40 1,
    tail := BitVec.ofNat 32 (field b 24 4), head := BitVec.ofNat 32 (field b 28 4), evt := w64 (field b 32 8),
    qsave := field b 41 1, slot := none, held := false, record := [], reads := 0, nextRd := 0, readyAt := none, servedAt := 0,
    parked := [], retry := false, aborts := [], steps := [], pick := none, repick := none, kicked := none }

/-- V = 1, every field in range, every reserved field zero. -/
def descriptorOk (b : List Byte) : Bool :=
  field b 9 1 % 2 == 1 && decide (field b 9 1 < 8) && decide (4 ≤ field b 8 1) && decide (field b 8 1 ≤ 16) &&
  field b 10 2 != 0 && decide (field b 12 2 < 4096) && decide (field b 14 2 < 2048) && field b 0 8 % 128 == 0 &&
  field b 16 8 % 32 == 0 && decide (field b 40 1 < 4) && decide (field b 41 1 < 3) && (b.drop 42).all (· == 0)

/-- The queue of a key: in its slot, or from its descriptor with what the memory-side agent keeps of it; none when the
descriptor counts as V = 0. -/
def State.queue? (s : State) (key : Nat) : Option Queue :=
  let b := s.mem.bytes 0 (descriptorPa key) 64
  let d := if descriptorOk b then some (queueOf key b) else none
  match SMap.get? s.work.queues key with
  | some q =>
    if q.st = .dormant then d.map fun v =>
      { v with held := q.held, kicked := q.kicked, record := q.record, parked := q.parked, retry := q.retry, aborts := q.aborts, steps := q.steps }
    else some q
  | none => d

/-- Keep a queue, and write its TAIL, HEAD, EVT and QSAVE to the descriptor. -/
def State.setQueue (s : State) (q : Queue) : State :=
  let pa := descriptorPa q.key
  let m := (s.mem.put 0 (pa + 24) (leBytes 4 q.tail.toNat ++ leBytes 4 q.head.toNat ++ leBytes 8 q.evt.toNat)).put 0 (pa + 41)
    (leBytes 1 q.qsave)
  { s with mem := m, work := { s.work with queues := SMap.set s.work.queues q.key q } }

def Queue.n (q : Queue) : Nat := 2 ^ q.log2n
def Queue.nonblock (q : Queue) : Bool := q.flags / 2 % 2 == 1
def Queue.cadence (q : Queue) : Bool := q.flags / 4 % 2 == 1
def Queue.count (q : Queue) : Nat := (q.tail - q.head).toNat
def Queue.full (q : Queue) : Bool := decide (q.n ≤ q.count)
/-- VA of packet i, and its expected lap (R354). -/
def Queue.slotVa (q : Queue) (i : BitVec 32) : Word := q.ring + w64 (128 * (i.toNat % q.n))
def Queue.lap (q : Queue) (i : BitVec 32) : Nat := i.toNat / q.n % 2

/-! ### Slots (R356) -/

/-- Ask for a resident slot. -/
def State.askSlot (s : State) (q : Queue) : State :=
  if s.work.asks.contains q.key then s
  else State.postOnce { s with work := { s.work with asks := s.work.asks ++ [q.key] } } .queueSlotGrant q.die

/-- Lowest free resident slot of a die. -/
def State.freeQueueSlot (s : State) (die : Nat) : Option Nat :=
  let used := (SMap.vals s.work.queues).filterMap fun q => if q.die = die then q.slot else none
  (tab Config.queueSlots id).find? fun n => !used.contains n

/-- IDLE with a packet present goes to PARSE. -/
def State.idleQueue (s : State) (q : Queue) : State :=
  if q.st = .idle ∧ q.tail ≠ q.head then (s.setQueue { q with st := .parse, reads := 0 }).postOnce .queueParse q.key
  else s.setQueue q

/-- A PARKED head of a non-blocking queue goes to the parked list once the list has room (R350). -/
def State.unparkHead (s : State) (key : Nat) : State :=
  match s.queue? key with
  | some q =>
    if q.st = .parked ∧ q.nonblock ∧ q.parked.length < 64 then
      s.idleQueue { q with parked := q.parked ++ [(q.head, q.record)], head := q.head + 1, st := .idle, record := [],
                           readyAt := none, aborts := q.aborts.erase q.head }
    else s
  | none => s

/-- QUEUE_SLOT_GRANT: the queue that has asked the longest on a die takes the lowest free slot. -/
def execQueueSlotGrant (die : Nat) (s : State) : Out :=
  let mine := s.work.asks.filter fun k => (s.queue? k).map Queue.die == some die
  match mine, s.freeQueueSlot die with
  | k :: rest, some n =>
    let s := { s with work := { s.work with asks := s.work.asks.erase k } }
    let s := if rest.isEmpty then s else s.postOnce .queueSlotGrant die
    .next (match s.queue? k with
      | some q =>
        if q.st ≠ .dormant ∨ !(s.ctxOf q.ctx).res then s
        else
          let st := if q.qsave = 1 then QSt.parked else if q.qsave = 2 then .stale else .idle
          let s := (s.idleQueue { q with st, slot := some n, qsave := 0 }).unparkHead k
          if q.retry then s.postOnce .queueDispatch die else s
      | none => s)
  | _, _ => .next s

/-! ### Kicks (R355) -/

/-- TAIL takes a new value. A queue whose record at HEAD has not been read yet and that has no packet left is IDLE again. -/
def State.kickQueue (s : State) (q : Queue) (tail : BitVec 32) : State :=
  let q := { q with tail }
  match q.st with
  | .dormant =>
    let s := s.setQueue q
    if (s.ctxOf q.ctx).res then s.askSlot q
    else (s.setCtx q.ctx fun c => { c with pending := c.pending || c.st != .free }).postOnce .contextResident q.ctx
  | .stale => (s.setQueue { q with st := .parse, reads := 0 }).postOnce .queueParse q.key
  | .idle => s.idleQueue q
  | .parse => s.setQueue (if q.tail = q.head then { q with st := .idle, reads := 0 } else q)
  | _ => s.setQueue q

/-- TAIL before the first kick of the tick: the one that a later kick of the tick is judged by (R355). -/
def Queue.oldTail (q : Queue) (clock : Nat) : BitVec 32 :=
  match q.kicked with
  | some k => if k.1 = clock then k.2 else q.tail
  | none => q.tail

def execQkick (fn : Nat) (v : Word) (s : State) : Out :=
  let tail := v.setWidth 32
  match s.queue? (queueKey fn (getBits v 32 20)) with
  | none => .next s.ignored
  | some q =>
    let old := q.oldTail s.clock
    if (tail - q.head).toNat ≤ q.n ∧ (tail - old).toNat ≤ q.n then
      .next (s.kickQueue { q with kicked := some (s.clock, old) } tail)
    else .next (s.postError q.ctx tail.toNat 0x101 0 (queueId q.key))

/-- QEVBITS: set bits in the EVT of the queue that QEVSET named last (R359). -/
def execQevbits (fn : Nat) (v : Word) (s : State) : Out :=
  match s.queue? (queueKey fn (SMap.getD s.work.qevset fn 0)) with
  | none => .next s.ignored
  | some q => .next (s.setQueue { q with evt := q.evt ||| v })

/-! ### Task records (R357) -/

def recOp (r : List Byte) : Nat := field r 0 2
def recIrq (r : List Byte) : Bool := (field r 2 2).testBit 1
def recClrw (r : List Byte) : Bool := (field r 2 2).testBit 2
def recPrio (r : List Byte) : Nat := field r 4 1
def recWait (r : List Byte) : Word := w64 (field r 8 8)
def recSignal (r : List Byte) : Word := w64 (field r 16 8)
def recCcva (r : List Byte) : Word := w64 (field r 24 8)
def recStage (r : List Byte) : W32 := BitVec.ofNat 32 (field r 36 4)
def recFence (r : List Byte) : Bool := recOp r == 0xFFFF

/-- An operand word without a reserved bit set or a misaligned VA. -/
def operandOk (w : Word) : Bool :=
  if w.getLsbD 63 then getBits w 48 15 == 0 && getBits w 16 16 == 0 else w.toNat % 64 == 0

/-- A task record that may be dispatched. -/
def recordOk (r : List Byte) : Bool :=
  decide (field r 2 2 < 8) && field r 6 2 == 0 && decide (recNops r ≤ 6) && decide (recPrio r ≤ 7) &&
  (recCcva r).toNat % 8 == 0 && (tab (recNops r) (operandOf r)).all operandOk

/-- Pairs of a fence packet (R361). -/
def fencePairs (r : List Byte) : List (Nat × Nat) := tab (recNops r) fun i => (field r (8 + 8 * i) 4, field r (12 + 8 * i) 4)

/-- What makes a fence MALFORMED is R361's alone: the pair count, a counter outside the region, bytes beyond the last pair. -/
def fenceOk (ncnt : Nat) (r : List Byte) : Bool :=
  decide (1 ≤ recNops r) && decide (recNops r ≤ 12) &&
  ((r.drop (8 + 8 * recNops r)).all (· == 0)) && (fencePairs r).all fun p => decide (p.1 < ncnt)

/-! ### Tasks of a queue -/

/-- A task for a packet, not yet known to the machine. -/
def newTask (id : Nat) (q : Queue) (index : BitVec 32) (record : List Byte) (status : Nat) : Task :=
  { id, serial := 0, q := q.key, index, ctx := q.ctx, record, kern := 0, entry := 0, image := .none, convOf := none, waits := [],
    toPlace := 0, nodes := [], status, counted := false, done := 0,
    step := (q.steps.find? fun e => e.1 == index).map (·.2), die := q.die, seven := false, linkSince := none }

/-- Complete a packet with a status and no dispatch. -/
def State.completePacket (s : State) (q : Queue) (index : BitVec 32) (record : List Byte) (status : Nat) : State :=
  let id := s.work.nextTask
  let s := { s with work := { s.work with nextTask := id + 1 } }
  (s.setTask (newTask id q index record status)).postOnce .taskRetire id

/-- The head packet leaves the queue. -/
def State.advanceHead (s : State) (q : Queue) : State :=
  s.idleQueue { q with
    head := q.head + 1, st := .idle, record := [], readyAt := none, aborts := q.aborts.erase q.head
    steps := q.steps.filter fun e => e.1 != q.head }

/-- Complete the head packet. -/
def State.completeHead (s : State) (q : Queue) (status : Nat) : State :=
  (s.completePacket q q.head q.record status).advanceHead q

/-! ### Parsing (R354, R356) -/

/-- Whether packets of a context are parsed. -/
def Context.parses (c : Context) : Bool := (c.st == .ready || c.st == .running) && c.swap.isNone

/-- Make the choice for the task at the head (R345 to R347). A read that fails completes it with status 4. -/
def State.choose (s : State) (key : Nat) : State :=
  match s.queue? key with
  | none => s
  | some q =>
    if q.st ≠ .ready ∨ recFence q.record ∨ q.pick.isSome then s
    else match choosePick q.die q.ctx q.record ⟨.queueDispatch, q.die, key⟩ s with
      | .ok p t => t.setQueue { q with pick := some p }
      | .drop t => t.completeHead q 4
      | .wait t => t

/-- A record with the right lap has been read. A task's choice is made at once, so that an MTFLUSH that comes while the
packet waits does not change it (R347; DESIGN CHOICE, assumption log 44). -/
def State.parsed (s : State) (q : Queue) (r : List Byte) : State :=
  let q := { q with record := r, st := .ready, readyAt := none, pick := none }
  if q.aborts.contains q.head then s.completeHead q 6
  else if recFence r then
    (if fenceOk (s.ctxOf q.ctx).record.ncnt r then (s.setQueue q).postOnce .fencePacketTest q.key else s.completeHead q 5)
  else if recordOk r then ((s.setQueue q).choose q.key).postOnce .queueDispatch q.die
  else s.completeHead q 5

/-- Read the record at HEAD. -/
def State.readHead (s : State) (q : Queue) (item : Post) : State :=
  if !(s.ctxOf q.ctx).parses then s.repost item
  else match (agentBytes q.ctx (q.slotVa q.head) 128 item : Ag (List Byte)) s with
    | .wait t => t
    | .drop t => (t.setQueue { q with st := .stale }).postError q.ctx q.head.toNat 0x106 (q.slotVa q.head).toNat (queueId q.key)
    | .ok r t =>
      if field r 2 1 % 2 = q.lap q.head then t.parsed q r
      else if q.reads < 64 then (t.setQueue { q with reads := q.reads + 1, nextRd := t.ns + 1000 }).postOnce .queueReread q.key
      else (t.setQueue { q with st := .stale }).postError q.ctx q.head.toNat 0x100 0 (queueId q.key)

def execQueueParse (q : Nat) (s : State) : Out :=
  match s.queue? q with
  | some v => .next (if v.st = .parse then s.readHead v ⟨.queueParse, q, 0⟩ else s)
  | none => .next s

/-- QUEUE_REREAD: 1 us after a wrong lap. -/
def execQueueReread (q : Nat) (s : State) : Out :=
  match s.queue? q with
  | some v =>
    .next (if v.st ≠ .parse then s
      else if s.ns < v.nextRd then s.postOnce .queueReread q
      else s.readHead v ⟨.queueReread, q, 0⟩)
  | none => .next s

/-! ### Fences (R361) -/

/-- FENCE_PACKET_TEST. -/
def execFencePacketTest (q : Nat) (s : State) : Out :=
  match s.queue? q with
  | none => .next s
  | some v =>
    if v.st ≠ .ready ∨ !recFence v.record then .next s
    else
      let c := s.ctxOf v.ctx
      match Ag.each (fun (p : Nat × Nat) => agentBytes v.ctx (counterVa c p.1) 8 ⟨.fencePacketTest, q, 0⟩) (fencePairs v.record) s with
      | .wait t => .next t
      | .drop t => .next (t.completeHead v 4)
      | .ok bs t =>
        let hold := ((fencePairs v.record).zip bs).all fun e => decide (0 ≤ (w64 (leNat e.2) - w64 e.1.2).toInt)
        .next (if hold then t.completeHead v 0 else t.postOnce .fencePacketTest q)

/-! ### Levels (R362) -/

/-- Whether the cadence budget of a context remains. -/
def Context.cadenceLeft (c : Context) : Bool := decide (c.cadQ < c.record.cadus * 1000 * Config.periodsPerNs)

/-- Base level of a packet. -/
def State.baseLevel (s : State) (q : Queue) (r : List Byte) : Nat :=
  let c := s.ctxOf q.ctx
  let p := min (recPrio r) c.record.ceil
  if 7 ≤ p then (if q.cadence && c.cadenceLeft then 7 else 6) else p

/-- EVT holds every bit that the packet waits for (R359). -/
def Queue.waitMet (q : Queue) : Bool := q.evt &&& recWait q.record == recWait q.record

/-- Whether the head packet is a task that can be dispatched now: its wait bits are set and the conversion arena has room
for its choice (R359). While the choice waits for a page it is not (DESIGN CHOICE, assumption log 44). -/
def State.eligible (s : State) (q : Queue) : Bool :=
  q.st == .ready && !recFence q.record && q.waitMet &&
  match q.pick with | some p => p.roomIn (s.ctxOf q.ctx) | none => false

/-- The level after ageing. -/
def State.level (s : State) (q : Queue) : Nat :=
  let base := s.baseLevel q q.record
  if base = 7 then 7
  else match q.readyAt with
    | none => base
    | some t => if s.eligible q then min 6 (base + (s.ns - max t q.servedAt) / (1000 * q.age)) else base

/-! ### Pushes (R364, R431) -/

/-- Write a record into slot TAIL and announce it. -/
def pushRecord128 (key src : Nat) (r : List Byte) (step : Option StepFacts) (item : Post) : Ag Unit := fun s =>
  match s.queue? key with
  | none => .ok () s.ignored
  | some q =>
    let r := putBytes r 2 [BitVec.ofNat 8 (field r 2 1 / 2 * 2 + q.lap q.tail)]
    match s.agentWrite q.ctx (q.slotVa q.tail) r src item with
    | .ok _ t =>
      let q := match step with | some f => { q with steps := q.steps ++ [(q.tail, f)] } | none => q
      .ok () (t.kickQueue q (q.tail + 1))
    | .drop t => .ok () t
    | .wait t => .wait t

/-! ### QSUBMIT (R364) -/

/-- The queue that register a names, of the strand's context. -/
def queueArg (a : Word) : Act Queue := Act.get.bind fun s =>
  match if a.toNat < 2 ^ 20 then s.queue? (queueKey s.curCtx.fn a.toNat) else none with
  | some q => if q.ctx = s.cur.sys.ctx.toNat then Act.pure q else Act.trap tRANGE []
  | none => Act.trap tRANGE []

def execQsubmit (r : Ring) (o : F3) (s : State) : Out :=
  issue (r.issue .a 0x78 1 [o.a, o.b] [] 1) (fun vs =>
    let a := vs.headD 0
    let b := vs.getD 1 0
    (queueArg a).bind fun _ => (Act.check (b.toNat % 128 == 0) tALIGN []).andThen <|
    (enterOrdered ⟨b, 0, 0, 0, 0, .submit a.toNat b none⟩).andThen noResult) s

/-- QSUBMIT_PUSH: the release of strand k goes on at a QSUBMIT entry. -/
def execQsubmitPush (k : Nat) (s : State) : Out :=
  onStrand k (fun s =>
    let item : Post := ⟨.qsubmitPush, k, 0⟩
    if s.cur.ph.rep ∨ s.cur.st = .saved then .next s
    else match s.cur.ph.buf with
      | [] => .next s
      | e :: _ =>
        match e.kind with
        | .submit qid va since =>
          let key := queueKey s.curCtx.fn qid
          (match s.queue? key with
           | none => .next s.ignored.releaseRest
           | some q =>
             if q.full then
               let kind := BufKind.submit qid va (some (since.getD s.ns))
               .next (((s.setPhase fun p => { p with buf := { e with kind } :: p.buf.drop 1 }).postOnce .qsubmitPush k).postOnce
                 .qsubmitFull k)
             else match Ag.bind (fun s => s.agentRead q.ctx va 128 qid item) (fun r => pushRecord128 key qid r none item) s with
               | .ok _ t => .next t.releaseRest
               | .drop t => .next t.releaseRest
               | .wait t => .next t)
        | _ => .next s.release) s

/-- QSUBMIT_FULL: a ring that stays full for the hold limit loses the packet. -/
def execQsubmitFull (k : Nat) (s : State) : Out :=
  onStrand k (fun s =>
    match s.cur.ph.buf with
    | [] => .next s
    | e :: _ =>
      match e.kind with
      | .submit qid _ (some since) =>
        (match s.queue? (queueKey s.curCtx.fn qid) with
         | none => .next s
         | some q =>
           if s.cur.ph.rep ∨ !q.full then .next s
           else if s.curCtx.holdNs ≤ s.ns - since then
             .next (s.postError s.cur.sys.ctx.toNat q.tail.toNat 0x102 0 qid).releaseRest
           else .next (s.postOnce .qsubmitFull k))
      | _ => .next s) s

/-! ### QSTAT (R365) -/

def QSt.code : QSt → Nat
  | .dormant => 0 | .idle => 1 | .parse => 2 | .ready => 3 | .parked => 4 | .stale => 5

/-- Tasks of a queue dispatched and not retired; an inserted conversion belongs to its packet. -/
def State.outstanding (s : State) (key : Nat) : Nat :=
  ((SMap.vals s.work.tasks).filter fun k => k.q == key && k.counted && k.convOf.isNone).length

def State.queueStat (s : State) (q : Queue) (sel : Nat) : Word :=
  match sel with
  | 0 => w64 (q.tail.toNat * 2 ^ 32 + q.head.toNat)
  | 1 => w64 (q.st.code + (if q.st = .ready then s.level q else 0) * 16 + b2n q.nonblock * 128 + b2n (s.eligible q) * 256)
  | 2 => q.evt
  | _ => w64 (s.outstanding q.key)

def execQstat (r : Ring) (o : F3) (s : State) : Out :=
  issue (r.issue .a 0x79 1 [o.a] [.reg o.d] 40) (fun vs =>
    (queueArg (vs.headD 0)).bind fun q => Act.get.bind fun s => result o.d (s.queueStat q o.b.toNat)) s

end Sys2Proof.Machine
end

