-- ==== Sys2Proof/Machine/Group.lean ====
section
/-! DEFINITION. Groups: how a loop table spreads (R366, R367), placing strands (R368, R94, R384), the evaluation of groups
(R371 to R374), GINFO, GYIELD and YIELD (R375, R376, R112). -/

namespace Sys2Proof.Machine

/-! ### Spreading (R366, R367) -/

/-- Start and count of part q of p parts of n items. -/
def partOf (n p q : Nat) : Nat × Nat := (q * (n / p) + min q (n % p), n / p + b2n (decide (q < n % p)))

/-- Extents of the levels of a kind: 0 T, 1 C, 2 D, 3 F. -/
def extentsOf (kind : Nat) (ls : List (Nat × Nat)) : List Nat := (ls.filter fun l => l.1 == kind).map (·.2)

def product (ns : List Nat) : Nat := ns.foldl (· * ·) 1

/-- Indices of a combined index, outermost first. -/
def digits : List Nat → Nat → List Nat
  | [], _ => []
  | _ :: es, n => n / product es :: digits es (n % product es)

/-- Indices of all levels: each F, D or C level takes the next index of its kind, a T level 0. -/
def spreadIndices : List (Nat × Nat) → List Nat → List Nat → List Nat → List Nat
  | [], _, _, _ => []
  | l :: ls, f, d, c =>
    match l.1 with
    | 3 => f.headD 0 :: spreadIndices ls (f.drop 1) d c
    | 2 => d.headD 0 :: spreadIndices ls f (d.drop 1) c
    | 1 => c.headD 0 :: spreadIndices ls f d (c.drop 1)
    | _ => 0 :: spreadIndices ls f d c

/-- Dies of a context's mask, ascending. -/
def Context.dies (c : Context) : List Nat := (tab 4 id).filter fun d => c.record.diemask.getLsbD d

/-- This chip's part of the combined F index. -/
def Context.fPart (c : Context) (ls : List (Nat × Nat)) : Nat × Nat :=
  if (extentsOf 3 ls).isEmpty then (0, 1) else partOf (product (extentsOf 3 ls)) (max 1 c.record.p) c.rank

/-- A die's part of the combined D index. -/
def Context.dPart (c : Context) (ls : List (Nat × Nat)) (die : Nat) : Nat × Nat :=
  if (extentsOf 2 ls).isEmpty then (0, 1)
  else match c.dies.findIdx? (· == die) with
    | some q => partOf (product (extentsOf 2 ls)) c.dies.length q
    | none => (0, 0)

/-- Dies that place strands of a task. -/
def Context.taskDies (c : Context) (k : Task) : List Nat :=
  if (extentsOf 2 k.image.levels).isEmpty then [k.die] else c.dies

/-- The strands that a die creates for a task, in the order of R368. -/
def Context.strandsOn (c : Context) (k : Task) (die : Nat) : List Pending :=
  let ls := k.image.levels
  let cs := extentsOf 1 ls
  let f := c.fPart ls
  let d := c.dPart ls die
  (tab f.2 fun i => tab d.2 fun j => tab (product cs) fun g =>
    let li := spreadIndices ls (digits (extentsOf 3 ls) (f.1 + i)) (digits (extentsOf 2 ls) (d.1 + j)) (digits cs g)
    (⟨k.id, ((li ++ List.replicate 6 0).take 6).map (BitVec.ofNat 32), BitVec.ofNat 32 g, BitVec.ofNat 32 (product cs), none⟩ :
      Pending)).flatten.flatten

/-! ### Stages and groups (R371) -/

/-- The descriptor of a stage; stage 0 exists when it is not declared. -/
def Context.stage? (c : Context) (n : W32) : Option Stage :=
  match c.stages.find? fun g => g.stage == n with
  | some g => some g
  | none => if n = 0 then some ⟨0, 1, 64, BitVec.allOnes 32, 0, 0⟩ else none

def Group.is (g : Group) (ctx die : Nat) (stage : W32) : Bool := g.ctx == ctx && g.die == die && g.stage == stage

def State.group? (s : State) (ctx die : Nat) (stage : W32) : Option Group := s.work.groups.find? fun g => g.is ctx die stage

def State.setGroups (s : State) (gs : List Group) : State := { s with work := { s.work with groups := gs } }

/-- Change a group; a group that does not exist is formed first (R372). -/
def State.updGroup (s : State) (ctx die : Nat) (stage : W32) (f : Group → Group) : State :=
  match s.group? ctx die stage with
  | some _ => s.setGroups (s.work.groups.map fun g => if g.is ctx die stage then f g else g)
  | none => s.setGroups (s.work.groups ++ [f ⟨ctx, die, stage, .forming, [], none, []⟩])

/-- The stage of a task. -/
def Task.stage (k : Task) : W32 := recStage k.record

/-- Strands of a task join the tail of its groups' pending lists, or the task is MALFORMED (R367, R371). -/
def State.spreadTask (s : State) (id : Nat) : State :=
  match s.task id with
  | none => s
  | some k =>
    let c := s.ctxOf k.ctx
    let ls := k.image.levels
    let tooMany := fun kind => decide (2 ^ 32 ≤ product (extentsOf kind ls))
    if (c.stage? k.stage).isNone || decide (65536 < product (extentsOf 1 ls)) || tooMany 3 || tooMany 2 then
      (s.setTask { k with status := 5 }).postOnce .taskRetire id
    else
      let parts := if (ls.any fun l => l.2 == 0) then [] else (c.taskDies k).map fun d => (d, c.strandsOn k d)
      let n := (parts.map fun p => p.2.length).foldl (· + ·) 0
      let s := s.setTask { k with toPlace := n }
      if n = 0 then s.postOnce .taskRetire id
      else parts.foldl (fun (s : State) p =>
        if p.2.isEmpty then s
        else (s.updGroup k.ctx p.1 k.stage fun g => { g with pend := g.pend ++ p.2 }).postOnce .strandPlace p.1) s

/-! ### Placement (R368, R94) -/

/-- Strands on a core. -/
def State.onCore (s : State) (core : Nat) : List Strand :=
  (SMap.vals s.strands).filter fun t => keyCore t.key == core && decide (t.key < 2 ^ 24)

/-- The slot of a core that takes the next strand, for its running place (false) or its staged one. -/
def State.openSlot (s : State) (core : Nat) (staged : Bool) : Option Nat :=
  match s.onCore core, staged with
  | [], false => some (2 * core)
  | [t], true => some (2 * core + (1 - keySlot t.key))
  | _, _ => none

/-- A new strand of a task in the slot of key. -/
def State.newStrand (s : State) (k : Task) (p : Pending) (key : Nat) : Strand :=
  let c := s.ctxOf k.ctx
  let t := Strand.new key k.entry ((launchOf k.record).map (BitVec.ofNat 32)) (BitVec.ofNat 9 k.image.win) k.image.text
  { t with
    priv := c.priv, task := k.id, kern := k.kern, nslots := k.image.nslots, wins := k.image.wins
    lring := .empty (min 1280 c.record.lquota)
    sys := { t.sys with
      strand := w64 (k.serial.toNat * 2 ^ 32 + keyCore key * 2 ^ 8 + keySlot key)
      ctx := BitVec.ofNat 12 k.ctx, li := p.li, grank := p.grank, gsize := p.gsize, thrift := c.record.thrift } }

/-- Put a strand in its slot. -/
def State.putStrand (s : State) (t : Strand) : State :=
  State.postOnce (if s.cur.st = .free then { s with cur := t } else { s with others := SMap.set s.others t.key t }) .strandStart t.key

/-- The head of a group's pending list takes a slot. -/
def State.placeAt (s : State) (p : Pending) (key : Nat) : State :=
  match p.saved with
  | some t =>
    (s.rename t.key key).putStrand { t.rekey key with
      st := .staged
      sys := { t.sys with strand := w64 (t.sys.strand.toNat / 2 ^ 32 * 2 ^ 32 + keyCore key * 2 ^ 8 + keySlot key) } }
  | none =>
    match s.task p.task with
    | none => s
    | some k =>
      let s := s.setTask { k with toPlace := k.toPlace - 1, nodes := treeAdd 4 (keyCore key) k.nodes }
      s.putStrand (s.newStrand k p key)

/-- Whether strands of a context are placed now: its dispatch is not suspended (R391, R392). -/
def Context.places (c : Context) : Bool :=
  (c.st == .ready || c.st == .running || c.st == .draining) && c.res && c.spent.isNone

/-- Fill one kind of place on the cores of a group from its pending list. -/
def State.fillPlaces (s : State) (ctx die : Nat) (stage : W32) (staged : Bool) (cores : List Nat) : State :=
  cores.foldl (fun (s : State) core =>
    match s.group? ctx die stage with
    | none => s
    | some g =>
      match g.pend, if g.leaving.map (·.1) = some core then none else s.openSlot core staged with
      | p :: rest, some key => (s.updGroup ctx die stage fun g => { g with pend := rest }).placeAt p key
      | _, _ => s) s

def sortNat (l : List Nat) : List Nat := sortBy (fun a b => decide (a ≤ b)) l

/-- STRAND_PLACE: free slots of a die's groups take the heads of their pending lists: all running slots first. -/
def execStrandPlace (die : Nat) (s : State) : Out :=
  .next ((s.work.groups.filter fun g => g.die == die && !g.pend.isEmpty && (s.ctxOf g.ctx).places).foldl (fun s g =>
    let cores := sortNat g.cores
    State.fillPlaces (State.fillPlaces s g.ctx die g.stage false cores) g.ctx die g.stage true cores) s)

/-! ### Cores that leave (R372) -/

/-- Take the strand at the front out of its slot without saving it: it goes back to its group. -/
def State.unplace (s : State) : Strand × State :=
  let key := 2 ^ 24 + s.free * 512 + s.cur.key % 512
  let t := s.cur
  ({ t with key }, (State.rename { s with free := s.free + 1 } t.key key).vacate)

/-- A strand joins the head of the pending list of its group. -/
def State.rejoin (s : State) (t : Strand) (ctx die : Nat) (stage : W32) : State :=
  (s.updGroup ctx die stage fun g => { g with pend := ⟨t.task, t.sys.li, t.sys.grank, t.sys.gsize, some t⟩ :: g.pend }).postOnce
    .strandPlace die

/-- A leaving core without a running strand leaves its group; its staged strand goes back to the pending list. -/
def State.leaveCore (s : State) (g : Group) : State :=
  match g.leaving with
  | none => s
  | some (core, dest) =>
    if (s.onCore core).any fun t => t.st.onCore then s
    else
      let s := match s.onCore core with
        | t :: _ =>
          let back := s.cur.key
          let r := (s.swapTo t.key).unplace
          (r.2.swapTo back).rejoin r.1 g.ctx g.die g.stage
        | [] => s
      let s := s.updGroup g.ctx g.die g.stage fun g => { g with st := .active, leaving := none, cores := g.cores.erase core }
      match dest with
      | none => s
      | some (ctx, stage) =>
        if (s.group? ctx g.die stage).isNone then s
        else (s.updGroup ctx g.die stage fun g => { g with cores := g.cores ++ [core] }).postOnce .strandPlace g.die

/-- Every core that can leave its group leaves. -/
def State.leaveCores (s : State) : State :=
  if s.work.groups.all fun g => g.leaving.isNone then s else s.work.groups.foldl State.leaveCore s

/-! ### Evaluation (R372, R373) -/

/-- Occupancy of a stage's input queue and its N; none with no queue. -/
def State.inputQueue (s : State) (c : Context) (g : Stage) : Option (Nat × Nat) :=
  if g.inq = BitVec.allOnes 32 then none
  else (s.queue? (queueKey c.fn g.inq.toNat)).map fun q => (q.count, q.n)

def State.occupancy (s : State) (g : Group) : Nat :=
  let c := s.ctxOf g.ctx
  match (c.stage? g.stage).bind (s.inputQueue c) with
  | some (n, _) => n
  | none => 0

def State.stageOf (s : State) (g : Group) : Stage := ((s.ctxOf g.ctx).stage? g.stage).getD ⟨g.stage, 1, 64, BitVec.allOnes 32, 0, 0⟩

/-- Cores of a die in no group. -/
def State.idleCores (s : State) (die : Nat) : List Nat :=
  let used := (s.work.groups.map Group.cores).flatten
  (tab 64 fun i => die * 64 + i).filter fun c => !used.contains c

/-- Whether a group holds a strand: on one of its cores. -/
def State.holdsStrand (s : State) (g : Group) : Bool := g.cores.any fun c => !(s.onCore c).isEmpty

/-- Whether a group may give up a core. -/
def State.donates (s : State) (g : Group) : Bool :=
  let d := s.stageOf g
  g.st == .active && decide (d.min < g.cores.length) &&
    (if d.inq = BitVec.allOnes 32 then g.pend.isEmpty else decide (s.occupancy g ≤ d.lowat))

/-- A group with a larger STAGE, then a larger context, comes later. -/
def Group.before (a b : Group) : Bool := decide (a.stage.toNat * 4096 + a.ctx ≤ b.stage.toNat * 4096 + b.ctx)

/-- A receiving group takes a core; `taken` are the cores that this evaluation has moved. -/
def State.transfer (s : State) (g : Group) (taken : List Nat) : State × List Nat :=
  let free := fun (c : Nat) => !taken.contains c
  match (s.idleCores g.die).filter free with
  | c :: _ =>
    ((s.updGroup g.ctx g.die g.stage fun g => { g with cores := g.cores ++ [c] }).postOnce .strandPlace g.die, taken ++ [c])
  | [] =>
    let donors := sortBy Group.before (s.work.groups.filter fun d => d.die == g.die && !d.is g.ctx g.die g.stage && s.donates d)
    match donors with
    | [] => (s, taken)
    | d :: _ =>
      match ((sortNat d.cores).filter free).getLast? with
      | none => (s, taken)
      | some c =>
        (s.updGroup d.ctx d.die d.stage fun d => { d with st := .resizing, leaving := some (c, some (g.ctx, g.stage)) },
          taken ++ [c])

/-- The evaluation of one group. The cores of a group that dissolves are offered from the next evaluation on, as the program of
R456 has it (DEDUCED, assumption log 41). -/
def State.evaluate (a : State × List Nat) (h : Group) : State × List Nat :=
  let s := a.1
  match s.group? h.ctx h.die h.stage with
  | none => a
  | some g =>
    let d := s.stageOf g
    if !(s.ctxOf g.ctx).places then a
    else match g.st with
      | .resizing => a
      | .forming =>
        let idle := (s.idleCores g.die).filter fun c => !a.2.contains c
        if idle.length < d.min then a
        else ((s.updGroup g.ctx g.die g.stage fun g => { g with st := .active, cores := idle.take d.min }).postOnce .strandPlace g.die,
          a.2 ++ idle.take d.min)
      | .active =>
        if g.pend.isEmpty && !s.holdsStrand g && s.occupancy g == 0 then
          (s.setGroups (s.work.groups.filter fun k => !k.is g.ctx g.die g.stage), a.2 ++ g.cores)
        else if d.inq ≠ BitVec.allOnes 32 ∧ d.hiwat ≤ s.occupancy g ∧ g.cores.length < d.max then s.transfer g a.2
        else a

/-- GROUP_EVALUATE: every group of a die once, in ascending STAGE order. -/
def execGroupEvaluate (die : Nat) (s : State) : Out :=
  let gs := sortBy Group.before (s.work.groups.filter fun g => g.die == die)
  .next (gs.foldl State.evaluate (s, [])).1.leaveCores

/-! ### GINFO (R375) -/

/-- The group of the strand at the front. -/
def State.curGroup (s : State) : Group :=
  let stage := ((s.task s.cur.task).map Task.stage).getD 0
  (s.group? s.cur.sys.ctx.toNat s.curDie stage).getD ⟨s.cur.sys.ctx.toNat, s.curDie, stage, .forming, [], none, []⟩

def State.curLevels (s : State) : List (Nat × Nat) := ((s.task s.cur.task).map fun k => k.image.levels).getD []

def State.groupInfo (s : State) (a sel : Nat) : Nat :=
  let c := s.curCtx
  let g := s.curGroup
  let d := s.stageOf g
  let ls := s.curLevels
  let p := max 1 c.record.p
  let r := c.rank
  let child := fun n => if n < p then n else 0xFFFF
  match sel with
  | 0 => g.cores.length
  | 1 => d.max * 256 + d.min
  | 2 => g.stage.toNat
  | 3 => (ls[a]?.map (·.2)).getD 0
  | 4 => (ls[a]?.map (·.1)).getD 0xFF
  | 5 => p * 2 ^ 32 + r
  | 6 => (r + p - 1) % p * 2 ^ 32 + (r + 1) % p
  | 7 => child (2 * r + 2) * 2 ^ 32 + child (2 * r + 1) * 2 ^ 16 + (if r = 0 then 0xFFFF else (r - 1) / 2)
  | 8 =>
    match ls[a]?.map (·.1) with
    | some 3 => (c.fPart ls).2 * 2 ^ 32 + (c.fPart ls).1
    | some 2 => (c.dPart ls s.curDie).2 * 2 ^ 32 + (c.dPart ls s.curDie).1
    | _ => 0
  | _ =>
    match s.inputQueue c d with
    | some (n, size) => size * 2 ^ 32 + n
    | none => 0

def execGinfo (r : Ring) (o : F3) (s : State) : Out :=
  let sel := o.b.toNat
  let uses := sel == 3 || sel == 4 || sel == 8
  issue (r.issue .a 0x7A 1 (if uses then [o.a] else []) [.reg o.d] (if sel = 9 then 40 else 1)) (fun vs =>
    let a := vs.headD 0
    (Act.check (!uses || decide (a.toNat ≤ 5)) tRANGE [a]).andThen <| Act.get.bind fun s =>
    result o.d (w64 (s.groupInfo a.toNat sel))) s

/-! ### GYIELD and YIELD (R376, R112, R393) -/

/-- Whether the strand's core is marked leaving. -/
def State.curLeaving (s : State) : Bool := s.curGroup.leaving.map (·.1) == some s.curCore

/-- The strand at the front is saved and joins the head of its group's pending list; the core leaves. -/
def State.moveStrand (s : State) (why : Nat) : State :=
  let g := s.curGroup
  let r := s.saveStrand why
  let s := match r.2.group? g.ctx g.die g.stage with
    | some h => r.2.leaveCore h
    | none => r.2
  s.rejoin { r.1 with gy := false } g.ctx g.die g.stage

/-- Mark the core leaving for the idle pool. -/
def State.markLeaving (s : State) : State :=
  if s.curLeaving then s
  else
    let g := s.curGroup
    s.updGroup g.ctx g.die g.stage fun g => { g with st := .resizing, leaving := some (s.curCore, none) }

/-- Whether GYIELD moves the strand. -/
def State.yields (s : State) (a : Word) : Bool :=
  let g := s.curGroup
  s.cur.st != .handler && s.frameFree &&
    (s.curLeaving || (a == 1 && decide ((s.stageOf g).min < g.cores.length) && g.st == .active))

/-- GYIELD. The strand's issue stops with this tick; it is saved once its operations are complete (PREEMPT_IMMEDIATE). -/
def execGyield (r : Ring) (o : F3) (s : State) : Out :=
  issue (r.issue .a 0x7B 1 [o.a] [.reg o.d] 1) (fun vs =>
    let a := vs.headD 0
    (Act.check (decide (a.toNat ≤ 1)) tRANGE []).andThen <| Act.get.bind fun s =>
    if s.yields a then
      (Act.modify fun s => State.postOnce (s.markLeaving.setCur fun t => { t with gy := true })
        .preemptImmediate s.cur.key).andThen (result o.d 1)
    else result o.d 0) s

/-- YIELD: as SYNC; a pending pre-emption, or a core that is to leave, takes the strand here. -/
def execYieldJ (s : State) : Out :=
  joint false (fun s => s.cur.quietX) (fun s =>
    let s := s.leaveJoint 1
    if !s.cur.runs || !s.frameFree then .next s
    else if s.cur.preempt then .next (s.stashStrand 0)
    else if s.curLeaving && s.cur.st == .running then .next (s.moveStrand 0)
    else .next s) s

end Sys2Proof.Machine
end

