-- ==== Sys2Proof/Machine/Stream.lean ====
section
/-! DEFINITION. Sequences (R421 to R424), timed streams (R425 to R431) and the instructions STBIND, STTAKE, STTICK, STLATE
and STSINK (R432 to R436). -/

namespace Sys2Proof.Machine

/-! ### Records and their events -/

def State.stream? (s : State) (ctx sid : Nat) : Option Stream := SMap.get? s.strm.streams (streamKey ctx sid)

def State.setStream (s : State) (ctx sid : Nat) (v : Stream) : State :=
  { s with strm := { s.strm with streams := SMap.set s.strm.streams (streamKey ctx sid) v } }

/-- Source number of an error that concerns a stream (R358). -/
def streamSource (sid : Nat) : Nat := 2 ^ 31 + sid

/-- The source of a timer's records (R447). -/
def timerSrc (ctx sid : Nat) : Nat := 2 ^ 40 + streamKey ctx sid

/-- Places of a timer in use. -/
def State.places (s : State) (ctx sid : Nat) : Nat := (s.trc.wait.filter fun w => w.1 == timerSrc ctx sid).length

/-- Add a coalesced tick to a CADENCE_TICK record; the count saturates. -/
def TraceRec.coalesce (r : TraceRec) : TraceRec :=
  if r.p0.toNat / 65536 % 4096 = 4095 then r else { r with p0 := r.p0 + 0x10000 }

def coalesceLast (src : Nat) : List (Nat × Nat × TraceRec) → List (Nat × Nat × TraceRec)
  | [] => []
  | w :: ws =>
    let rest := coalesceLast src ws
    if rest != ws then w :: rest
    else if w.1 = src ∧ recCode w.2.2.srcw = 0x403 then (w.1, w.2.1, w.2.2.coalesce) :: ws else w :: ws

/-- A record of a cadence timer: four places; with all in use a tick is coalesced, and a record of a missed step is not
kept. -/
def State.emitTimer (s : State) (ctx sid code : Nat) (p0 : W32) (p1 : Word) : State :=
  let s := s.countDie 4 code (some ctx) 1
  if s.places ctx sid < 4 then s.emitFrom (timerSrc ctx sid) 4 (some ctx) (fun ten => srcHub 0x021 code ten) code p0 p1
  else if code = 0x403 then { s with trc := { s.trc with wait := coalesceLast (timerSrc ctx sid) s.trc.wait } }
  else s

/-- A step is missed. -/
def State.missStep (s : State) (ctx sid : Nat) : State :=
  (s.updStream (streamKey ctx sid) fun v => { v with missed := sat32 v.missed 1 }).emitTimer ctx sid 0x407 (BitVec.ofNat 32 sid) 0

/-- Payload of TOKEN_LATE and TOKEN_DROPPED. -/
def tokenEvent (sid seqn : Nat) : W32 := BitVec.ofNat 32 (sid + seqn % 65536 * 65536)

/-- A record is dropped (R427). -/
def State.dropToken (s : State) (ctx sid seqn : Nat) : State :=
  (s.updStream (streamKey ctx sid) fun v => { v with dropped := sat32 v.dropped 1 }).emitHub 0x020 0x406 (some ctx)
    (tokenEvent sid seqn) 0

/-! ### Steps (R428, R430, R431) -/

/-- A horizon record is pending, and every number from NEXT up to it. -/
def Stream.complete (v : Stream) : Bool :=
  match v.next with
  | none => false
  | some n => v.pend.any fun r => decide (((v.tick : Int) - v.lag) < r.stamp) &&
      (tab (r.seqn - n) id).all fun i => v.pend.any fun q => q.seqn == n + i

def minList (d : Nat) (l : List Nat) : Nat := match l with | [] => d | x :: xs => xs.foldl min x
def maxList (l : List Nat) : Nat := l.foldl max 0

/-- The step at the tick in hand is dispatched: its facts wait to be sent. -/
def Stream.begin (v : Stream) (sid flags : Nat) : Stream :=
  let cut : Int := (v.tick : Int) - v.lag
  let above := (v.pend.filter fun r => decide (cut < r.stamp)).map Token32.seqn
  let covered := (v.pend.filter fun r => decide (r.stamp ≤ cut)).map Token32.seqn
  { v with
    st := .step, last := some cut, send := some ⟨sid, v.tick, cut, flags⟩, since := none
    next := if above ≠ [] then some (minList 0 above) else if covered ≠ [] then some (maxList covered + 1) else v.next }

def State.beginStep (s : State) (ctx sid flags : Nat) : State :=
  (s.updStream (streamKey ctx sid) fun v => v.begin sid flags).postOnce .cadenceTick ctx sid

/-- Send a step that is due: its template is read and pushed as a packet with PRIO 7. -/
def State.sendStep (s : State) (ctx sid : Nat) : State :=
  let item : Post := ⟨.cadenceTick, ctx, sid⟩
  match s.stream? ctx sid with
  | none => s
  | some v =>
    match v.send with
    | none => s
    | some f =>
      let c := s.ctxOf ctx
      let key := queueKey c.fn v.qid
      let again := fun (s : State) => s.postOnce .cadenceTick ctx sid
      if !c.res then s
      else if 4 ≤ s.places ctx sid || c.spent.isSome then again s
      else match s.agentRead ctx v.taskva 128 (streamSource sid) item with
        | .wait t => t
        | .drop t => (t.setStream ctx sid { v with st := .armed, send := none }).missStep ctx sid
        | .ok r t =>
          let full := match t.queue? key with | some q => q.full | none => false
          let since := v.since.getD t.ns
          if full && decide (t.ns - since < c.holdNs) then again (t.setStream ctx sid { v with since := some since })
          else
            let f := if c.cadenceLeft then f else { f with flags := f.flags + 4 }
            let sent := fun (t : State) =>
              (t.setStream ctx sid { v with send := none, since := none }).emitTimer ctx sid 0xC04
                (BitVec.ofNat 32 (sid + f.flags * 4096)) (w64 (t.ns - f.t))
            if full then
              (match t.queue? key with
               | some q => (t.postError ctx q.tail.toNat 0x102 0 v.qid).setStream ctx sid { v with send := none, since := none }
               | none => t)
            else match pushRecord128 key (streamSource sid) (putBytes r 4 [7]) (some f) item t with
              | .ok _ t => sent t
              | .drop t => sent t
              | .wait t => t

/-- A filler record (R430). -/
def fillerOf (v : Stream) (sid n : Nat) : Token32 := ⟨(v.tick : Int) - v.lag, sid, v.filler, 0, 0x4000, n⟩

/-- Missing numbers from NEXT below the highest pending number. -/
def Stream.missing (v : Stream) : List Nat :=
  match v.next with
  | none => []
  | some n => ((tab (maxList (v.pend.map Token32.seqn) - n) fun i => n + i)).filter fun k => !(v.pend.any fun r => r.seqn == k)

/-- Tick T of a stream whose context has its resources. -/
def State.tickStream (s : State) (ctx sid t : Nat) : State :=
  let s := s.emitTimer ctx sid 0x403 (BitVec.ofNat 32 sid) 0
  match s.stream? ctx sid with
  | none => s
  | some v =>
    if v.st ≠ .armed then s.missStep ctx sid
    else
      let v := { v with tick := t }
      let s := s.setStream ctx sid v
      if v.complete then s.beginStep ctx sid 0
      else match v.policy with
        | 0 => (s.setStream ctx sid { v with st := .waiting }).postOnce .streamDeadline ctx sid
        | 1 => s.missStep ctx sid
        | _ =>
          let miss := v.missing
          (s.setStream ctx sid { v with
            pend := v.pend ++ miss.map (fillerOf v sid), seen := v.seen ++ miss, filled := sat32 v.filled miss.length }).beginStep
            ctx sid 2

/-- CADENCE_TICK: a tick that is due; for a context that is SAVED it marks the context pending (R430, R391). A step that
is to be sent goes on. -/
def execCadenceTick (ctx sid : Nat) (s : State) : Out :=
  match s.stream? ctx sid with
  | none => .next s
  | some v =>
    if s.ns < v.due then .next (s.sendStep ctx sid)
    else
      let t := v.due
      let s := s.setStream ctx sid { v with due := v.due + v.period }
      if (s.ctxOf ctx).res then .next ((s.tickStream ctx sid t).sendStep ctx sid)
      else
        let s := if v.owed.isSome then s.missStep ctx sid else s
        let s := (s.updStream (streamKey ctx sid) fun v => { v with owed := some t }).emitTimer ctx sid 0x403 (BitVec.ofNat 32 sid) 0
        .next ((s.setCtx ctx fun c => { c with pending := true }).postOnce .contextResident ctx)

/-- The owed tick of a context that has become resident (R430). -/
def State.payTick (s : State) (ctx sid : Nat) : State :=
  match s.stream? ctx sid with
  | some v =>
    let s := if v.st = .waiting then s.postOnce .streamDeadline ctx sid else s
    let s := s.postOnce .cadenceTick ctx sid
    (match v.owed with
     | some t => (s.setStream ctx sid { v with owed := none }).tickStream ctx sid t
     | none => s)
  | none => s

/-- STREAM_DEADLINE: a waiting step is dispatched with LATE at T + G. -/
def execStreamDeadline (ctx sid : Nat) (s : State) : Out :=
  match s.stream? ctx sid with
  | none => .next s
  | some v =>
    if v.st ≠ .waiting ∨ !(s.ctxOf ctx).res then .next s
    else if v.tick + v.grace ≤ s.ns then .next (s.beginStep ctx sid 1)
    else .next (s.postOnce .streamDeadline ctx sid)

/-- The step task of a stream has retired (R430). -/
def State.stepOver (s : State) (ctx : Nat) (f : StepFacts) : State :=
  s.updStream (streamKey ctx f.sid) fun v => if v.st = .step ∧ v.tick = f.t ∧ v.send.isNone then { v with st := .armed } else v

/-! ### Ingest (R426, R427, R429) -/

/-- A sequence number of 16 bits counted on from NEXT. -/
def Stream.number (v : Stream) (n : W16) : Nat :=
  match v.next with
  | none => n.toNat + 65536
  | some m => ((m : Int) + (n - BitVec.ofNat 16 m).toInt).toNat

/-- The oldest stamp of the last W taken (R429). -/
def Stream.winold (v : Stream) (w : Nat) : Int := if v.taken.length < w then 0 else v.taken.headD 0

/-- Admit or drop one record of 32 bytes. -/
def State.admitRecord (s : State) (ctx sid : Nat) (v : Stream) (b : List Byte) : State :=
  let nsec := field b 6 4
  let stamp : Int := (field b 0 6 * 1000000000 + nsec : Nat)
  let n16 := BitVec.ofNat 16 (field b 26 2)
  let n := v.number n16
  let late := match v.last with | some c => decide (stamp ≤ c) | none => false
  let w := match SMap.get? s.strm.seqs (seqKey ctx v.seq) with | some q => q.w | none => 0
  if 1000000000 ≤ nsec || field b 28 4 != 0 || field b 10 2 != sid || (v.pend.any fun r => r.seqn == n) || v.seen.contains n ||
     (late && decide (stamp < v.winold w)) then s.dropToken ctx sid n16.toNat
  else
    let fl := (BitVec.ofNat 16 (field b 24 2) &&& 0x3FFF) ||| (if late then 0x8000 else 0)
    let r : Token32 := ⟨stamp, sid, BitVec.ofNat 32 (field b 12 4), w64 (field b 16 8), fl, n⟩
    let s := s.setStream ctx sid { v with
      pend := v.pend ++ [r], next := some (v.next.getD n), late := if late then sat32 v.late 1 else v.late }
    if late then s.emitHub 0x020 0x405 (some ctx) (tokenEvent sid n16.toNat) 0 else s

/-- STREAM_RECORD_ADMIT: read the next record of the ring; a waiting step may become complete. -/
def execStreamRecordAdmit (ctx sid : Nat) (s : State) : Out :=
  match s.stream? ctx sid with
  | none => .next s
  | some v =>
    if v.rd = v.tail ∨ 256 ≤ v.pend.length then .next s
    else if s.emitting (2 ^ 20 + 0x020) then .next (s.postOnce .streamRecordAdmit ctx sid)
    else
      let va := v.ring + w64 (32 * (v.rd.toNat % 2 ^ v.rlog2))
      let w := { v with rd := v.rd + 1 }
      let go := fun (s : State) => s.postOnce .streamRecordAdmit ctx sid
      match s.agentRead ctx va 32 (streamSource sid) ⟨.streamRecordAdmit, ctx, sid⟩ with
      | .wait t => .next t
      | .drop t => .next (go (t.setStream ctx sid w))
      | .ok b t =>
        let t := go ((t.setStream ctx sid w).admitRecord ctx sid w b)
        .next (match t.stream? ctx sid with
          | some u => if u.st = .waiting ∧ u.complete then t.beginStep ctx sid 0 else t
          | none => t)

/-- STKICK (R427). -/
def execStkick (fn : Nat) (v : Word) (s : State) : Out :=
  let ctx := getBits v 44 12
  let sid := getBits v 32 12
  let tail := v.setWidth 32
  match s.stream? ctx sid with
  | none => .next s.ignored
  | some u =>
    if !s.owns fn ctx then .next s.ignored
    else if 2 ^ u.rlog2 < (tail - u.rd).toNat then .next (s.postError ctx tail.toNat 0x101 0 (streamSource sid))
    else .next ((s.setStream ctx sid { u with tail }).postOnce .streamRecordAdmit ctx sid)

/-! ### STBIND and STSINK (R433, R436) -/

/-- The sequence that a register names. -/
def sequenceArg (a : Word) : Act Sequence := Act.get.bind fun s =>
  match if a.toNat < 65536 then SMap.get? s.strm.seqs (seqKey s.cur.sys.ctx.toNat a.toNat) else none with
  | some q => Act.pure q
  | none => Act.trap tRANGE [a]

/-- Wait while another strand holds a step open. -/
def stepFree (a : Word) (opc : Nat) (q : Sequence) : Act Unit := Act.get.bind fun s =>
  let since := (s.cur.engine .a).since.getD s.clock
  holdWait .a (q.opened.isNone || q.opened == some s.cur.key)
    [a, w64 opc, w64 ((s.clock - since) / Config.periodsPerNs / 1000), s.cur.sys.phasen.setWidth 64]

/-- The open step of the strand. -/
def openStep (a : Word) : Act (Nat × Sequence) := Act.get.bind fun s =>
  match s.cur.step with
  | none => Act.trap tRANGE [a]
  | some (c, n) =>
    match SMap.get? s.strm.seqs (seqKey c n) with
    | some q => Act.pure (n, q)
    | none => Act.trap tRANGE [a]

/-- Cursor of a layer with the strand's buffered appends. -/
def State.cursor (s : State) (n : Nat) (q : Sequence) (layer : Nat) : Nat :=
  q.curs.getD layer 0 + ((s.cur.ph.buf.filterMap fun e => match e.kind with
    | .append c m l k => if c = s.cur.sys.ctx.toNat ∧ m = n ∧ l = layer then some k else none
    | _ => none).foldl (· + ·) 0)

def stepEntry (k : BufKind) : Act Done :=
  (enterOrdered ⟨0, 0, 0, 0, 0, k⟩).andThen noResult

def execStbindOpen (r : Ring) (o : F3) (s : State) : Out :=
  issue (r.issue .a 0x98 1 [o.a] [.reg o.d] 40) (fun vs =>
    let a := vs.headD 0
    (sequenceArg a).bind fun q => Act.get.bind fun s =>
    (Act.check s.cur.step.isNone tRANGE [a]).andThen <| (stepFree a 0x98 q).andThen <|
    let c := s.cur.sys.ctx.toNat
    (Act.modify fun s => (s.setSeq (seqKey c a.toNat) { q with opened := some s.cur.key }).setCur fun t =>
      { t with step := some (c, a.toNat) }).andThen (result o.d q.l)) s

def execStbindAppend (r : Ring) (o : F3) (s : State) : Out :=
  issue (r.issue .a 0x98 1 [o.a, o.b] [.reg o.d] 1) (fun vs =>
    let a := vs.headD 0
    let b := vs.getD 1 0
    (openStep a).bind fun p => (Act.check (decide (a.toNat < p.2.nlayer)) tRANGE [a]).andThen <|
    (Act.check (decide (b.toNat < 2 ^ 32)) tRANGE [b]).andThen <| Act.get.bind fun s =>
    let pos := p.2.l.toNat + s.cursor p.1 p.2 a.toNat
    (Act.check (decide (pos + b.toNat ≤ p.2.btn * p.2.b)) tRANGE [b]).andThen <|
    (stepEntry (.append s.cur.sys.ctx.toNat p.1 a.toNat b.toNat)).andThen (result o.d (w64 pos))) s

def execStbindCommit (r : Ring) (o : F3) (s : State) : Out :=
  issue (r.issue .a 0x98 1 [o.a] [] 1) (fun vs =>
    let a := vs.headD 0
    (openStep a).bind fun p => Act.get.bind fun s =>
    (Act.check ((tab p.2.nlayer id).all fun l => decide (a.toNat ≤ s.cursor p.1 p.2 l)) tRANGE [a]).andThen <|
    stepEntry (.commit s.cur.sys.ctx.toNat p.1 a.toNat)) s

def execStbindClose (r : Ring) (o : F3) (s : State) : Out :=
  let _ := o
  issue (r.issue .a 0x98 1 [] [] 1) (fun _ => Act.get.bind fun s =>
    match s.cur.step with
    | none => noResult
    | some (c, n) => stepEntry (.close c n)) s

def execStsink (r : Ring) (o : F3) (s : State) : Out :=
  issue (r.issue .a 0x9C 1 [o.a, o.b] [.reg o.d] 40) (fun vs =>
    let a := vs.headD 0
    let b := vs.getD 1 0
    (sequenceArg a).bind fun q => (Act.check (decide (b.toNat ≤ 15)) tRANGE [b]).andThen <| (stepFree a 0x9C q).andThen <|
    (Act.modify fun s =>
      let c := s.cur.sys.ctx.toNat
      (s.setSinks c q b.toNat).setSeq (seqKey c a.toNat) { q with s := b.toNat }).andThen (result o.d (w64 q.s))) s

/-- STEP_OPEN_TIMEOUT. -/
def execStepOpenTimeout (k : Nat) (s : State) : Out :=
  retake k true (fun i => match i with
    | .stbindOpen r o => some (execStbindOpen r o)
    | .stsink r o => some (execStsink r o)
    | _ => none) s

/-! ### STTAKE, STTICK, STLATE (R434, R435) -/

/-- The step that the strand's task is. -/
def stepFacts : Act StepFacts := Act.get.bind fun s =>
  match s.stepOf with
  | some f => Act.pure f
  | none => Act.trap tSTREAM []

/-- Timestamp order, then sequence number. -/
def Token32.before (a b : Token32) : Bool := decide (a.stamp < b.stamp) || (a.stamp == b.stamp && decide (a.seqn ≤ b.seqn))

/-- The record as STTAKE copies it. -/
def Token32.bytes (r : Token32) : List Byte :=
  leBytes 6 (r.stamp / 1000000000).toNat ++ leBytes 4 (r.stamp % 1000000000).toNat ++ leBytes 2 r.sid ++
    leBytes 4 r.tok.toNat ++ leBytes 8 r.pay.toNat ++ leBytes 2 r.flags.toNat ++ leBytes 2 (r.seqn % 65536) ++ leBytes 4 0

/-- Records that a step takes, in order, at most n. -/
def Stream.due? (v : Stream) (cut : Int) (n : Nat) : List Token32 :=
  (sortBy Token32.before (v.pend.filter fun r => decide (r.stamp ≤ cut))).take n

/-- The stream after records are taken: the last w stamps stay. -/
def Stream.take (v : Stream) (w : Nat) (rs : List Token32) : Stream :=
  let t := v.taken ++ rs.map Token32.stamp
  { v with pend := v.pend.filter (fun r => !rs.contains r), taken := t.drop (t.length - w), seen := v.seen ++ rs.map Token32.seqn }

def execSttake (r : Ring) (o : F3) (s : State) : Out :=
  issue (r.issue .a 0x99 1 [o.a, o.b] [.reg o.d] 40) (fun vs =>
    stepFacts.bind fun f => (writableTile (vs.headD 0)).bind fun p => Act.get.bind fun s =>
    let c := s.cur.sys.ctx.toNat
    let room := min (vs.getD 1 0).toNat (p.2.size / 32)
    let rs := fun (s : State) => match s.stream? c f.sid with | some v => v.due? f.cut room | none => []
    let n := (rs s).length
    (Act.until (n == 0 || !s.rowsBusy p.1 0 ((32 * n + p.2.rb - 1) / p.2.rb)) 0).andThen <| unrepeatAct.andThen <|
    Act.get.bind fun s =>
    let taken := rs s
    let w := match s.stream? c f.sid with
      | some v => (match SMap.get? s.strm.seqs (seqKey c v.seq) with | some q => q.w | none => 0)
      | none => 0
    (tileHeal p.2 false 0 (32 * taken.length)).andThen <| (updTile p.1 fun v => v.setFront (v.front.put 0 (taken.map Token32.bytes).flatten)).andThen <|
    (Act.modify fun s => ((s.updStream (streamKey c f.sid) fun v => v.take w taken).setCur fun t =>
      { t with took := t.took + taken.length }).postOnce .streamRecordAdmit c f.sid).andThen <|
    result o.d (w64 taken.length)) s

def execSttick (r : Ring) (o : F3) (s : State) : Out :=
  issue (r.issue .a 0x9A 1 [] [.reg o.d] 1) (fun _ => stepFacts.bind fun f =>
    result o.d (match o.b.toNat with | 0 => w64 f.t | 1 => wordOf f.cut | 2 => w64 f.flags | _ => w64 f.sid)) s

def execStlate (r : Ring) (o : F3) (s : State) : Out :=
  issue (r.issue .a 0x9B 1 [o.a] [.reg o.d] 1) (fun vs => Act.get.bind fun s =>
    let a := vs.headD 0
    (Act.check (decide (a.toNat < s.curCtx.nstrm)) tRANGE [a]).andThen <|
    let v := match s.stream? s.cur.sys.ctx.toNat a.toNat with
      | some v => (match o.b.toNat with | 0 => v.missed | 1 => v.late | 2 => v.dropped | _ => v.filled)
      | none => 0
    result o.d (v.setWidth 64)) s

/-! ### The binding table (R420, R421, R425) -/

/-- A sequence record at a VA; none when it is invalid. V is bit 0 of FLAGS. -/
def sequenceAt (va : Word) (b : List Byte) : Option Sequence :=
  let n := field b 16 4
  let q : Sequence :=
    { va, btva := w64 (field b 0 8), l := w64 (field b 8 8), b := n, nlayer := field b 20 2, s := field b 22 1, w := field b 24 4,
      btn := field b 28 4, curs := List.replicate (field b 20 2) 0, opened := none }
  if field b 23 1 < 2 ∧ field b 32 32 = 0 ∧ 1 ≤ n ∧ n ≤ 65536 ∧ 2 ^ n.log2 = n ∧ 1 ≤ q.nlayer ∧ q.nlayer ≤ 128 ∧ q.s ≤ 15 ∧
     0 < q.w ∧ q.w % n = 0 then some q else none

/-- A stream record, armed at time ns; none when it is invalid. -/
def streamAt (nseq ns : Nat) (b : List Byte) : Option Stream :=
  let per := field b 16 4
  let first := field b 24 8
  if field b 0 8 % 32 = 0 ∧ 4 ≤ field b 8 1 ∧ field b 8 1 ≤ 16 ∧ field b 9 1 < 3 ∧ field b 10 2 < 2 ∧ field b 12 4 < nseq ∧
     100000 ≤ per ∧ per ≤ 4000000000 ∧ field b 20 4 < per ∧ field b 40 4 < 2 ^ 20 ∧ field b 44 4 = 0 ∧ field b 56 8 = 0 then
    some
      { ring := w64 (field b 0 8), rlog2 := field b 8 1, policy := field b 9 1, seq := field b 12 4, period := per,
        grace := field b 20 4, lag := field b 32 4, filler := BitVec.ofNat 32 (field b 36 4), qid := field b 40 4,
        taskva := w64 (field b 48 8), st := .armed, tail := 0, rd := 0, pend := [], taken := [], seen := [], next := none,
        last := none, due := first + (ns - first + per - 1) / per * per, tick := 0, missed := 0, late := 0, dropped := 0,
        filled := 0, send := none, since := none, owed := none }
  else none

end Sys2Proof.Machine
end

