-- ==== Sys2Proof/Machine/Abort.lean ====
section
/-! DEFINITION. Ending tasks and contexts from outside: ABORT of a task (R390), TEARDOWN (R391), and what a context
gives back. -/

namespace Sys2Proof.Machine

/-! ### A strand or task is aborted -/

/-- Records that an aborted step's strand has taken are dropped (R434). -/
def State.dropTaken (s : State) : State :=
  match s.stepOf with
  | some f => s.updStream (streamKey s.cur.sys.ctx.toNat f.sid) fun v => { v with dropped := sat32 v.dropped s.cur.took }
  | none => s

/-- A SAVED strand is discarded: what it still holds is released, and it leaves its task's tree. -/
def State.discardSaved (s : State) (t : Strand) : State :=
  let back := s.cur.key
  let s := (State.swapTo { s with others := SMap.set s.others t.key t } t.key).dropTaken.releaseAll
  (State.swapTo { s with cur := { Strand.empty with key := t.key } } back).leaveTree t.task t.node

/-- Abort the strand at the front, unless it is aborted already; a nest that a save had stopped goes on. -/
def State.abortFront (s : State) (status : Nat) : State :=
  if s.cur.st = .ended ∨ s.cur.st = .free then s
  else
    let s := s.abortStrand status
    if s.cur.nest.isSome then s.postOnce .nestStep s.cur.key else s

/-- Strands of a task in the save frames of its context. -/
def State.stashedOf (s : State) (id : Nat) : List Strand :=
  (s.ctl.ctxs.map fun e => e.2.stash.filter fun t => t.task == id).flatten ++
    (s.work.groups.map fun g => (g.pend.filter fun p => p.task == id).filterMap Pending.saved).flatten

/-- Strands of a task that are still to be created. -/
def State.unplacedOf (s : State) (id : Nat) : Nat :=
  ((s.work.groups.map fun g => (g.pend.filter fun p => p.task == id && p.saved.isNone).length)).foldl (· + ·) 0

/-- Take the strands of a task out of pending lists and save frames. -/
def State.forget (s : State) (id : Nat) : State :=
  { s with
    work := { s.work with groups := s.work.groups.map fun g => { g with pend := g.pend.filter fun p => p.task != id } }
    ctl := { s.ctl with ctxs := s.ctl.ctxs.map fun e => (e.1, { e.2 with stash := e.2.stash.filter fun t => t.task != id }) } }

/-- End one task with a status. -/
def State.abortOne (s : State) (status id : Nat) : State :=
  let n := s.unplacedOf id
  let saved := s.stashedOf id
  let s := (s.forget id).updTask id fun k => { k with status, toPlace := k.toPlace - n }
  let s := saved.foldl State.discardSaved s
  let placed := SMap.keys (s.strands.filter fun e => e.2.task == id)
  let s := placed.foldl (fun (s : State) k => s.at k fun u => u.abortFront status) s
  match s.task id with
  | some k => if k.drained then s.postOnce .taskRetire id else s
  | none => s

/-- The conversions inserted for a task. -/
def State.conversions (s : State) (id : Nat) : List Nat := SMap.keys (s.work.tasks.filter fun e => e.2.convOf == some id)

/-- End a task and the conversions inserted for it. -/
def State.abortTask (s : State) (status id : Nat) : State := (s.conversions id ++ [id]).foldl (State.abortOne · status ·) s

/-! ### Frames of saturated counts (R330) -/

/-- Return the frames whose count has stuck to the pools of a context that is torn down. -/
def State.returnStuck (s : State) (ctx : Nat) : State :=
  let mine := s.mem.full.filter fun f => f.1 == ctx
  mine.foldl (fun (s : State) f => State.returnFrame { s with mem := s.mem.setCount f.2.1 0 } ctx 0 f.2.1 f.2.2)
    { s with mem := { s.mem with full := s.mem.full.filter fun f => f.1 != ctx } }

/-! ### What a context gives back -/

/-- Contexts that wait for resources try again. -/
def State.admitWaiting (s : State) : State :=
  s.ctl.ctxs.foldl (fun (s : State) e => if e.2.st = .saved ∧ e.2.pending then s.postOnce .contextResident e.1 else s) s

/-- Queues of a context that the machine knows. -/
def State.queuesOf (s : State) (ctx : Nat) : List Queue :=
  (SMap.keys s.work.queues).filterMap fun k => match s.queue? k with
    | some q => if q.ctx = ctx then some q else none
    | none => none

/-- Queues that wait for a slot are granted those that have become free. -/
def State.grantSlots (s : State) : State :=
  if s.work.asks.isEmpty then s else (tab 4 id).foldl (fun s d => s.postOnce .queueSlotGrant d) s

/-- Barriers of a context (R377). -/
def State.barsOf (s : State) (ctx : Nat) : List (Nat × Barrier) := s.work.bars.filter fun e => e.2.ctx.toNat == ctx

/-- A context's requests are discarded; agents that wait for them drop their accesses (R391). -/
def State.discardRequests (s : State) (ctx : Nat) : State :=
  let items := (s.mem.waits.filter fun w => w.ctx == ctx).map AgentWait.item
  let s := { s with mem := { s.mem with
    reqs := s.mem.reqs.filter (fun r => r.ctx != ctx)
    waits := s.mem.waits.map fun w => if w.ctx = ctx then { w with drop := true } else w } }
  items.foldl State.repost s

/-- TEARDOWN (R391): the tasks end with status 6; every resource is freed. -/
def State.teardown (s : State) (ctx : Nat) : State :=
  let ids := SMap.keys (s.work.tasks.filter fun e => e.2.ctx == ctx && e.2.counted)
  let s := ids.foldl (State.abortOne · 6 ·) s
  let s := (s.discardRequests ctx).returnStuck ctx
  let keys := (s.queuesOf ctx).map Queue.key
  let off := fun {α : Type} (lo n : Nat) (m : SMap α) => SMap.drop m lo n
  let s := { s with
    work := { s.work with
      queues := s.work.queues.filter fun e => !keys.contains e.1
      asks := s.work.asks.filter fun k => !keys.contains k
      groups := s.work.groups.filter fun g => g.ctx != ctx
      bars := s.work.bars.filter fun e => e.2.ctx.toNat != ctx
      nrings := off (ctx * 4) 4 s.work.nrings }
    mem := s.mem.invalidate ctx 0 0
    net := { s.net with
      work := s.net.work.filter fun e => e.2.ctx != ctx
      colls := s.net.colls.filter fun e => e.2.ctx != ctx
      remote := s.net.remote.filter fun r => r.ctx != ctx
      agrees := s.net.agrees.filter fun a => a.2.ctx != ctx }
    strm := { seqs := off (ctx * 65536) 65536 s.strm.seqs, streams := off (ctx * 4096) 4096 s.strm.streams } }
  let s := (s.flushMethods ctx).setCtx ctx fun c =>
    { c with st := .tornDown, res := false, near := [], stash := [], bars := [], swap := none, spent := none, pending := false }
  s.grantSlots.admitWaiting

/-! ### Tasks of a context -/

/-- The graph counter (R385): tasks dispatched and not retired, and parked lists (R350). -/
def State.graph (s : State) (ctx : Nat) : Nat :=
  ((SMap.vals s.work.tasks).filter fun k => k.ctx == ctx && k.counted).length +
    ((s.queuesOf ctx).map fun q => q.parked.length).foldl (· + ·) 0

/-- The record of the end of a task graph, once every queue is empty. -/
def State.checkIdle (s : State) (ctx : Nat) : State :=
  if (s.ctxOf ctx).live && s.graph ctx == 0 &&
     (s.queuesOf ctx).all (fun q => q.tail == q.head && (q.st == .idle || q.st == .dormant)) then
    (s.setCtx ctx fun c => { c with live := false }).postError ctx 0 0x103 0 noSource
  else s

/-- What follows when a context may have no task left: READY, TORN_DOWN, or the reload of a SWAP (R391, R395). -/
def State.tasksOver (s : State) (ctx : Nat) : State :=
  let s := s.checkIdle ctx
  let c := s.ctxOf ctx
  let none? := (SMap.vals s.work.tasks).all fun k => k.ctx != ctx
  if !none? then s
  else
    let s := if c.st = .running then s.setCtx ctx fun c => { c with st := .ready } else s
    let s := if c.swap.isSome then s.postOnce .swapReload ctx else s
    if c.st = .draining ∧ s.graph ctx = 0 then s.teardown ctx else s

end Sys2Proof.Machine
end

