-- ==== Sys2Proof/Machine/Task.lean ====
section
/-! DEFINITION. Dispatch of tasks (R345 to R350, R359 to R363), MTFLUSH (R347), and retirement (R358, R384, R385). -/

namespace Sys2Proof.Machine

/-! ### What an attempt decides (R342, R346) -/

/-- What an attempt to dispatch decides: the method with its image and its conversions with theirs, a parked task with
reason, an image or window table that is rejected with the reason of its record, or nothing yet. -/
inductive Verdict where
  | go (m : Method) (img : Image) (cs : List (Plan × Image))
  | park (why : Nat)
  | reject (why : Option Nat)
  | hold
  deriving DecidableEq, Repr

/-- Load the images of a route, in order; the first that is rejected decides. -/
def loadAll (ctx : Nat) (ktab : Word) (launch : List Nat) (item : Post) : List Method → Ag (Except (Option Nat) (List Image))
  | [] => Ag.pure (.ok [])
  | m :: ms => (loadImage ctx ktab m.kern launch item).bind fun r =>
    match r with
    | .bad why => Ag.pure (.error (some why))
    | .windows => Ag.pure (.error none)
    | .ok img => (loadAll ctx ktab launch item ms).bind fun rest =>
      Ag.pure (match rest with | .ok is => .ok (img :: is) | .error e => .error e)

/-- Load what a choice needs. -/
def decideTask (q : Queue) (r : List Byte) (p : Pick) (item : Post) : Ag Verdict := fun s =>
  match p.choice.found with
  | none => .ok (.park p.choice.why) s
  | some m =>
    if p.tooBig (s.ctxOf q.ctx) then .ok (.park 3) s
    else (loadAll q.ctx p.choice.ktab (launchOf r) item (m :: p.plans.map Plan.c)).bind (fun e => Ag.pure (match e with
      | .error why => .reject why
      | .ok [] => .hold
      | .ok (img :: is) => .go m img (p.plans.zip is))) s

/-! ### The conversion arena (R348, R349) -/

/-- The destination record of a plan whose space begins at a VA. -/
def Plan.record (p : Plan) (va : Word) : Layout := { p.dest with base := va + 64 }

/-! ### Dispatch -/

/-- Source of the trace records of a die's queue agent. -/
def agentUnit (die : Nat) : Nat := 0x010 + die

/-- Create a task for a packet and report it. -/
def State.createTask (s : State) (k : Task) : State :=
  let k := { k with serial := s.work.serial, counted := true }
  let s := { s with work := { s.work with serial := s.work.serial + 1, nextTask := max s.work.nextTask (k.id + 1) } }
  (s.setTask k).emitHub (agentUnit k.die) 0xC01 (some k.ctx) (BitVec.ofNat 32 (queueId k.q))
    (w64 (k.index.toNat * 2 ^ 32 + recOp k.record))

/-- Replace operand i of a record. -/
def putOperand (r : List Byte) (i : Nat) (va : Word) : List Byte := putBytes r (40 + 8 * i) (leBytes 8 va.toNat)

/-- The tasks of a route: the conversions, then the original, whose strands wait for them. -/
def State.createTasks (s : State) (q : Queue) (index : BitVec 32) (r : List Byte) (seven : Bool) (m : Method) (img : Image)
    (cs : List ((Plan × Image) × Word)) : State :=
  let id := s.work.nextTask
  let ids := cs.zipIdx.map fun e => id + 1 + e.2
  let base := { newTask id q index r 0 with seven }
  let r' := cs.foldl (fun r c => putOperand r c.1.1.i c.2) r
  let s := cs.zipIdx.foldl (fun (s : State) e =>
    let p := e.1.1.1
    let record := convertRecord r (operandOf r p.i) e.1.2
    let k : Task := { base with id := id + 1 + e.2, record, kern := p.c.kern, entry := p.c.entry, image := e.1.1.2 }
    s.createTask { k with convOf := some id, step := none }) s
  let s := s.createTask { base with record := r', kern := m.kern, entry := m.entry, image := img, waits := ids }
  if ids.isEmpty then s.spreadTask id else ids.foldl State.spreadTask s

/-- A packet leaves its place: the head of the queue, or the parked list. -/
def State.leaveQueue (s : State) (q : Queue) (parked : Bool) : State :=
  let steps := q.steps.filter fun e => (q.parked.head?.map (·.1)) != some e.1
  if parked then s.setQueue { q with parked := q.parked.drop 1, retry := false, repick := none, steps }
  else s.advanceHead q

/-- The dispatch-fault record (R350). -/
def faultRecord (ns : Nat) (q : Queue) (index : BitVec 32) (r : List Byte) (why : Nat) (gs : List W16) : List Byte :=
  leBytes 8 ns ++ leBytes 4 (queueId q.key) ++ leBytes 4 index.toNat ++ leBytes 2 (recOp r) ++ leBytes 2 why ++
    ((gs.take 3).map fun g => leBytes 2 g.toNat).flatten ++ leBytes 2 q.ctx ++ leBytes 4 0

/-- A task finds no method, or its conversion no arena: it is parked (R350). -/
def State.parkTask (s : State) (q : Queue) (index : BitVec 32) (r : List Byte) (parked : Bool) (why : Nat) (gs : List W16) :
    State :=
  let s := s.pushRecord q.ctx true (faultRecord s.ns q index r why gs)
  let s := s.setCtx q.ctx fun c => { c with nomethod := c.nomethod + 1, live := true }
  if parked then s.setQueue { q with retry := false, repick := none }
  else (s.setQueue { q with st := .parked, readyAt := none }).unparkHead q.key

/-- A task's packet completes without dispatch. -/
def State.refuseTask (s : State) (q : Queue) (index : BitVec 32) (r : List Byte) (parked : Bool) (status : Nat) : State :=
  ((s.completePacket q index r status).leaveQueue q parked).unparkHead q.key

/-- A task that a queue offers to its die's agent: the head packet, or the oldest of the parked list; its level. -/
structure Offer where
  q      : Queue
  index  : BitVec 32
  record : List Byte
  parked : Bool
  level  : Nat
  pick   : Pick
  deriving DecidableEq, Repr

/-- An attempt on an offer: the state, and whether the opportunity is used. A packet held at a page or at the arena is
not dispatched. -/
def State.attempt (s : State) (o : Offer) : State × Bool :=
  let q := o.q
  let item : Post := ⟨.queueDispatch, q.die, q.key⟩
  let id := s.work.nextTask
  match decideTask q o.record o.pick item s with
  | .wait t => (t, false)
  | .drop t => (t.refuseTask q o.index o.record o.parked 4, true)
  | .ok (.park why) t => (t.parkTask q o.index o.record o.parked why o.pick.gs, true)
  | .ok (.reject why) t =>
    let t := match why with
      | some n => t.pushRecord q.ctx true (faultRecord t.ns q o.index o.record n o.pick.gs)
      | none => t
    (t.refuseTask q o.index o.record o.parked 3, true)
  | .ok .hold t => (t, false)
  | .ok (.go m img cs) t =>
    let c := t.ctxOf q.ctx
    match allocPlans id (cs.map (·.1)) c.conv with
    | none => (t, false)
    | some (starts, arena) =>
      let vas := starts.map fun n => c.record.convva + w64 (64 * n)
      match Ag.each (fun (e : (Plan × Image) × Word) => fun s =>
          s.agentWrite q.ctx e.2 (e.1.1.record e.2).bytes (queueId q.key) item) (cs.zip vas) t with
      | .wait u => (u, false)
      | .drop u => (u.refuseTask q o.index o.record o.parked 4, true)
      | .ok _ u =>
        let u := u.setCtx q.ctx fun c => { c with
          conv := arena, live := true, st := if c.st = .ready then .running else c.st }
        let seven := o.level == 7
        let u := u.createTasks q o.index o.record seven m img (cs.zip vas)
        let v := { q with evt := if recClrw o.record then q.evt &&& ~~~(recWait o.record) else q.evt }
        ((u.leaveQueue v o.parked).unparkHead q.key, true)

/-! ### Arbitration (R362, R363) -/

/-- Whether tasks of a context are dispatched. -/
def Context.dispatches (c : Context) : Bool :=
  (c.st == .ready || c.st == .running || c.st == .draining) && c.swap.isNone && c.spent.isNone

/-- Whether a parked task that a RETRY named can be dispatched: its wait bits are set, and the arena has room. -/
def State.retries (s : State) (q : Queue) (r : List Byte) (p : Pick) : Bool :=
  q.evt &&& recWait r == recWait r && p.roomIn (s.ctxOf q.ctx)

/-- What a queue in a resident slot offers: the parked task of a RETRY, or the head packet. -/
def State.offer? (s : State) (q : Queue) : Option Offer :=
  if q.slot.isNone || !(s.ctxOf q.ctx).dispatches then none
  else
    let again := match q.parked.head?, q.repick with
      | some e, some p => if q.retry && s.retries q e.2 p then some ⟨q, e.1, e.2, true, s.baseLevel q e.2, p⟩ else none
      | _, _ => none
    match again, q.pick with
    | some o, _ => some o
    | none, some p => if s.eligible q then some ⟨q, q.head, q.record, false, s.level q, p⟩ else none
    | none, none => none

/-- Make the choice for the parked task that a RETRY named, against the state of the last flush (R350). -/
def State.chooseAgain (s : State) (key : Nat) : State :=
  match s.queue? key with
  | none => s
  | some q =>
    match q.parked.head? with
    | none => s
    | some e =>
      if !q.retry ∨ q.repick.isSome then s
      else match choosePick q.die q.ctx e.2 ⟨.queueDispatch, q.die, key⟩ s with
        | .ok p t => t.setQueue { q with repick := some p }
        | .drop t => t.refuseTask q e.1 e.2 true 4
        | .wait t => t

/-- Make the choices of a die's queues that are still to be made. -/
def State.chooseAll (s : State) (die : Nat) : State :=
  ((SMap.vals s.work.queues).filter fun q => q.die == die && q.slot.isSome && (s.ctxOf q.ctx).dispatches).foldl
    (fun s q => (s.choose q.key).chooseAgain q.key) s

/-- Note when the head packets of a die have become READY and eligible; a packet that is eligible no more starts anew. -/
def State.noteReady (s : State) (die : Nat) : State :=
  { s with work := { s.work with queues := s.work.queues.map fun e =>
    if e.2.die = die ∧ e.2.slot.isSome then
      (e.1, { e.2 with readyAt := if s.eligible e.2 then some (e.2.readyAt.getD s.ns) else none })
    else e } }

/-- Candidates of a die in the order of R363. -/
def State.candidates (s : State) (die : Nat) : List Offer :=
  let os := (SMap.vals s.work.queues).filterMap fun q => if q.die = die then s.offer? q else none
  let key := fun (o : Offer) =>
    let last := SMap.getD s.work.lastSlot (die * 8 + o.level) (Config.queueSlots - 1)
    (7 - o.level) * Config.queueSlots + ((o.q.slot.getD 0) + Config.queueSlots - 1 - last) % Config.queueSlots
  sortBy (fun a b => decide (key a ≤ key b)) os

/-- An opportunity went to an offer: its queue's wait starts anew (R362), and the next search at its level starts after
its slot (R363). -/
def State.noteServed (s : State) (o : Offer) : State :=
  let s := match o.q.slot with
    | some n => { s with work := { s.work with lastSlot := SMap.set s.work.lastSlot (o.q.die * 8 + o.level) n } }
    | none => s
  match s.queue? o.q.key with
  | some q => s.setQueue { q with servedAt := s.ns }
  | none => s

/-- Serve the first candidate that is not held. -/
def State.serveFirst : List Offer → State → State
  | [], s => s
  | o :: os, s =>
    let r := s.attempt o
    if r.2 then r.1.noteServed o else State.serveFirst os r.1

/-- Whether a die's agent has work: a READY task or a retry. -/
def State.agentBusy (s : State) (die : Nat) : Bool :=
  s.work.queues.any fun e => e.2.die == die && e.2.slot.isSome &&
    ((e.2.st == .ready && !recFence e.2.record) || (e.2.retry && !e.2.parked.isEmpty))

/-- QUEUE_DISPATCH: one dispatch opportunity of a die. -/
def execQueueDispatch (die : Nat) (s : State) : Out :=
  let s := (s.chooseAll die).noteReady die
  let s := if s.emitting (2 ^ 20 + agentUnit die) then s else State.serveFirst (s.candidates die) s
  .next (if s.agentBusy die then s.postOnce .queueDispatch die else s)

/-! ### MTFLUSH (R347) -/

/-- Whether a context belongs to another function. -/
def State.alien (s : State) (fn ctx : Nat) : Bool := (s.ctxOf ctx).st != .free && (s.ctxOf ctx).fn != fn

/-- Whether a queue has a parked task: in its list, or at its head. -/
def Queue.headParked (q : Queue) : Bool := q.st == .parked || (q.st == .dormant && q.qsave == 1)
def Queue.hasParked (q : Queue) : Bool := !q.parked.isEmpty || q.headParked

/-- RETRY: the oldest parked task is dispatched again. -/
def State.retryParked (s : State) (q : Queue) : State :=
  if !q.parked.isEmpty then (s.setQueue { q with retry := true, repick := none }).postOnce .queueDispatch q.die
  else if q.st = .parked then (s.setQueue { q with st := .ready, readyAt := none, pick := none }).postOnce .queueDispatch q.die
  else s.setQueue { q with qsave := 0 }

/-- The oldest parked task completes with a status. -/
def State.discardParked (s : State) (q : Queue) (status : Nat) : State :=
  match q.parked with
  | p :: _ => ((s.completePacket q p.1 p.2 status).leaveQueue q true).unparkHead q.key
  | [] =>
    if q.st = .parked then s.completeHead q status
    else (s.completePacket q q.head q.record status).setQueue { q with head := q.head + 1, qsave := 0, record := [] }

/-- A write of MTFLUSH. -/
def State.mtflush (s : State) (fn : Nat) (v : Word) : State :=
  let ctx := getBits v 32 12
  let go := fun (s : State) => if v.getLsbD 63 then s.flushMethods ctx else s
  let retry := v.getLsbD 62
  let discard := v.getLsbD 61
  if s.alien fn ctx ∨ (retry ∧ discard) then s.ignored
  else if !retry && !discard then go s
  else match s.queue? (queueKey fn (getBits v 0 20)) with
    | none => s.ignored
    | some q =>
      if !q.hasParked then s.ignored
      else if retry then (go s).retryParked q else (go s).discardParked q 2

def execMtflushGo (fn : Nat) (v : Word) (s : State) : Out := .next (s.mtflush fn v)
def execMtflushRetry (fn : Nat) (v : Word) (s : State) : Out := .next (s.mtflush fn v)
def execMtflushDiscard (fn : Nat) (v : Word) (s : State) : Out := .next (s.mtflush fn v)

/-! ### Retirement (R286, R358) -/

/-- Whether link operations or writes of a task's ended strands are still on their way. -/
def State.taskOut (s : State) (id : Nat) : Bool :=
  let k := taskKey id
  s.net.work.any (fun e => e.2.key == k) || s.net.colls.any (fun e => e.2.key == k) ||
    s.net.remote.any (fun r => r.key == k && r.ans.isNone) || s.mem.stores.any (fun a => a.key == k) ||
    s.mem.atoms.any fun r => r.owner == k && r.old.isNone

/-- Whether everything of a task is over but its completion. -/
def State.retires (s : State) (k : Task) : Bool := !k.counted || k.done != 0 || (k.drained && k.waits.isEmpty && !s.taskOut k.id)

/-- Signals, counter adds: none of a MALFORMED task or of a fence packet. -/
def Task.signals (k : Task) : Bool := k.status != 5 && !recFence k.record

def Task.signal (k : Task) : Word := if k.signals then recSignal k.record else 0
def Task.ccva (k : Task) : Word := if k.signals then recCcva k.record else 0

/-- The completion record. -/
def Task.completion (k : Task) (ns : Nat) (q : Queue) : List Byte :=
  leBytes 8 ns ++ leBytes 4 k.index.toNat ++ leBytes 2 (k.status + q.lap k.index * 2 ^ 15) ++ leBytes 2 (recOp k.record) ++
    (k.record.drop 112).take 16

/-- The task is gone: its record of the trace, its space in the arena, what waited for it. -/
def State.removeTask (s : State) (k : Task) : State :=
  let s := if k.counted then s.emitHub (agentUnit k.die) 0xC02 (some k.ctx) (BitVec.ofNat 32 (queueId k.q))
    (w64 (k.index.toNat * 2 ^ 32 + k.status)) else s
  let s := { s with work := { s.work with tasks := SMap.del s.work.tasks k.id } }
  let s := (tab 3 id).foldl (fun (s : State) i =>
    if (s.ctxOf k.ctx).conv.spans.any fun x => x.owner == (k.id, i) then
      s.setCtx k.ctx fun c => { c with conv := c.conv.release (k.id, i) }
    else s) s
  let s := match k.step with
    | some f => s.stepOver k.ctx f
    | none => s
  let s := match k.convOf with
    | none => s
    | some o =>
      let s := s.updTask o fun t => { t with waits := t.waits.erase k.id }
      match s.task o with
      | some t =>
        if !t.waits.isEmpty then s else if t.status ≠ 0 then s.postOnce .taskRetire o else s.spreadTask o
      | none => s
  s.tasksOver k.ctx

/-- The steps of R358 from the task's next one on: each at most once; the completion record follows the performed add. -/
def State.retireSteps (s : State) (k : Task) : State :=
  let item : Post := ⟨.taskRetire, k.id, 0⟩
  let src := queueId k.q
  let step1 := fun (s : State) =>
    match s.queue? k.q with
    | some q => if k.signal = 0 then s else s.setQueue { q with evt := q.evt ||| k.signal }
    | none => s
  let step4 := fun (s : State) =>
    State.removeTask (if (field k.record 2 2).testBit 1 then
      (match s.queue? k.q with | some q => s.msix (queueFn k.q) q.vec | none => s) else s) k
  let step3 := fun (s : State) =>
    match s.queue? k.q with
    | none => step4 s
    | some q =>
      match s.agentWrite k.ctx (q.cring + w64 (32 * (k.index.toNat % q.n))) (k.completion s.ns q) src item with
      | .ok _ t => step4 t
      | .drop t => step4 t
      | .wait t => t
  let step2 := fun (s : State) =>
    if k.ccva = 0 then step3 (s.setTask { k with done := 2 })
    else match s.agentAdd (taskKey k.id) k.ctx k.ccva (w64 (field k.record 32 4)) src item with
      | .ok _ t => (t.setTask { k with done := 2 }).repost item
      | .drop t => step3 (t.setTask { k with done := 2 })
      | .wait t => t
  match k.done with
  | 0 => step2 ((step1 s).setTask { k with done := 1 })
  | 1 => step2 s
  | _ =>
    if (s.mem.atoms.any fun r => r.owner == taskKey k.id && r.old.isNone) || s.net.remote.any fun r => r.who == some item && r.ans.isNone
    then s.repost item else step3 s

/-- TASK_RETIRE. A conversion writes no record; link operations that outlive the task's strands are awaited. -/
def execTaskRetire (task : Nat) (s : State) : Out :=
  match s.task task with
  | none => .next s
  | some k =>
    if s.emitting (2 ^ 20 + agentUnit k.die) then .next (s.postOnce .taskRetire task)
    else if !s.retires k then
      .next (if k.drained && k.waits.isEmpty then
        ((s.updTask task fun t => { t with linkSince := some (t.linkSince.getD s.ns) }).postOnce .linkHoldTimeout task).postOnce
          .taskRetire task
      else s)
    else if k.convOf.isSome ∨ (s.ctxOf k.ctx).st = .free then .next (s.removeTask k)
    else .next (s.retireSteps k)

end Sys2Proof.Machine
end

