-- ==== Sys2Proof/Machine/Context.lean ====
section
/-! DEFINITION. Contexts (R386 to R395): the record and the checks of a load, residency, near tiles, saving and restoring,
pre-emption and budgets, the commands of CTXCMD, and CTXINFO. -/

namespace Sys2Proof.Machine

/-! ### The record (R386) -/

def recordOf (b : List Byte) : CtxRec :=
  let f := field b
  { ptroot := w64 (f 0 8), mtroot := w64 (f 8 8), wtset := w64 (f 16 8), cntbase := w64 (f 24 8), ncnt := f 32 4,
    tenant := BitVec.ofNat 8 (f 36 1), ceil := f 37 1, thrift := BitVec.ofNat 2 (f 38 1), policy := BitVec.ofNat 8 (f 39 1),
    trapq := w64 (f 40 8), handq := w64 (f 48 8), tqlog2 := f 56 1, hqlog2 := f 57 1, diemask := BitVec.ofNat 4 (f 58 1),
    poollog2 := f 59 1, lquota := f 60 2, nbar := f 62 2, pgtva := w64 (f 64 8), p := f 72 2, hold := f 76 4,
    stgva := w64 (f 80 8), arena := tab 4 fun i => f (88 + 4 * i) 4, convva := w64 (f 104 8), convsz := f 112 4,
    period := f 116 4, coreus := f 120 4, nshare := f 124 2, dshare := f 126 2, cadus := f 128 4, saveva := w64 (f 136 8),
    saven := f 144 4, nttva := w64 (f 152 8), nnt := f 160 4, strmva := w64 (f 168 8), evmask := w64 (f 176 8),
    poolva := w64 (f 184 8), kkey := (b.drop 192).take 32 }

def between (lo n hi : Nat) : Bool := decide (lo ≤ n) && decide (n ≤ hi)

/-- Every field in range, reserved fields zero, addresses aligned. -/
def recordFieldsOk (b : List Byte) : Bool :=
  let f := field b
  f 0 8 % 4096 == 0 && f 24 8 % 8 == 0 && decide (f 32 4 ≤ 2 ^ 24) && decide (f 37 1 < 8) && decide (f 38 1 < 4) &&
  decide (f 39 1 < 8) && between 4 (f 56 1) 16 && between 4 (f 57 1) 16 && between 1 (f 58 1) 15 &&
  (f 59 1 == 0 || between 4 (f 59 1) 20) && between 1 (f 60 2) 1280 && decide (f 62 2 ≤ 256) && between 1 (f 72 2) 4096 &&
  f 74 2 == 0 && decide (f 76 4 ≤ 1000000) && f 104 8 % 64 == 0 && between 100 (f 116 4) 100000 && f 132 4 == 0 &&
  f 136 8 % 2 ^ 21 == 0 && f 148 4 == 0 && f 152 8 % 32 == 0 && decide (f 160 4 ≤ 65536) && f 164 4 == 0 &&
  f 184 8 % 64 == 0 && (b.drop 224).all (· == 0)

/-- The record at an address that CTXARG0 gave: 256-byte aligned in device memory (assumption log 15). -/
def State.readRecord (s : State) (a : Word) : Option CtxRec :=
  let b := s.mem.bytes 0 a.toNat 256
  if a.toNat % 256 = 0 ∧ a.toNat < Config.devBytes ∧ recordFieldsOk b then some (recordOf b) else none

/-- A record that takes effect: POLICY.PRIV only for a context that the configuration record lists. -/
def State.putRecord (s : State) (ctx : Nat) (r : CtxRec) : State :=
  s.setCtx ctx fun c => { c with
    record := r
    priv := r.policy.getLsbD 2 && s.ctl.fw.privCtx.contains ctx }

/-! ### Reads of a load (R390) -/

/-- Read n bytes inside one page for a load, which posts no request: a page that faults drops the access. -/
def loadPiece (ctx : Nat) (item : Post) (p : Piece) : Ag (List Byte) := fun s =>
  if !canonical p.1 then .drop s
  else match s.translate ctx [] none p.1 .read with
    | .ok x t => if x.home = 2 then t.agentAsk (agentAsks ctx t.ns noSource p.1 x.pa p.2 item) else .ok (t.mem.bytes x.home x.pa p.2) t
    | .moving => .wait (s.repost item)
    | _ => .drop s

/-- Read n bytes of a context for a load. -/
def loadRead (ctx : Nat) (item : Post) (va : Word) (n : Nat) : Ag (List Byte) :=
  (Ag.each (loadPiece ctx item) (pagePieces va n)).bind fun bs => Ag.pure bs.flatten

/-- A value, or a failure. -/
def Ag.ofOption {α : Type} : Option α → Ag α
  | some a => Ag.pure a
  | none => fun s => .drop s

/-- What an action gives, or a load error in place of its failure. -/
def Ag.orError {α : Type} (x : Ag α) (err : Nat) : Ag (Except Nat α) := fun s =>
  match x s with
  | .ok a t => .ok (.ok a) t
  | .drop t => .ok (.error err) t
  | .wait t => .wait t

/-- The next part of a load, unless an error has come. -/
def Ag.unless {α β : Type} (x : Ag (Except Nat α)) (f : α → Ag (Except Nat β)) : Ag (Except Nat β) :=
  x.bind fun r => match r with | .ok a => f a | .error e => Ag.pure (.error e)

/-! ### Process groups and stages (R369 to R371) -/

def peerAt (e : List Byte) : Peer := ⟨BitVec.ofNat 32 (field e 0 4), field e 4 2, BitVec.ofNat 48 (beNat ((e.drop 8).take 6)),
  BitVec.ofNat 16 (field e 14 2)⟩

/-- The entries of a table and this chip's rank. -/
def peersOf (chip : BitVec 32) (p : Nat) (b : List Byte) : Option (List Peer × Nat) :=
  let es := slices b 0 16 p
  let ps := es.map peerAt
  let ranks := ps.map Peer.rank
  match ps.filter fun q => q.chip == chip with
  | [me] =>
    if (es.all fun e => field e 6 2 == 1) && (tab p id).all fun r => ranks.contains r then some (ps, me.rank) else none
  | _ => none

def stageAt (e : List Byte) : Stage :=
  ⟨BitVec.ofNat 32 (field e 0 4), field e 4 1, field e 5 1, BitVec.ofNat 32 (field e 8 4), field e 12 2, field e 14 2⟩

def stageOk (e : List Byte) : Bool :=
  let g := stageAt e
  field e 6 2 == 1 && (e.drop 16).all (· == 0) && decide (1 ≤ g.min) && decide (g.min ≤ g.max) && decide (g.max ≤ 64) &&
  decide (g.lowat < g.hiwat) && (g.inq == BitVec.allOnes 32 || decide (g.inq.toNat < 2 ^ 20))

/-- The declared stages of a table; none when one is invalid or two are alike. -/
def stagesOf (b : List Byte) : Option (List Stage) :=
  let es := (slices b 0 32 64).filter fun e => field e 6 2 % 2 == 1
  let gs := es.map stageAt
  if es.all stageOk && decide (gs.map Stage.stage).Nodup then some gs else none

/-! ### The binding table (R420) -/

def allSome {α : Type} : List (Option α) → Option (List α)
  | [] => some []
  | x :: xs => match x, allSome xs with
    | some v, some vs => some (v :: vs)
    | _, _ => none

/-- Sequence i of the array: none is invalid, some none is V = 0. -/
def sequenceEntry (va : Word) (b : List Byte) (i : Nat) : Option (Option (Nat × Sequence)) :=
  let e := (b.drop (64 * i)).take 64
  if field e 23 1 = 0 ∧ field e 32 32 = 0 then some none
  else (sequenceAt (va + w64 (64 * i)) e).map fun q => some (i, q)

def streamEntry (ns : Nat) (seqs : SMap Sequence) (nseq : Nat) (b : List Byte) (i : Nat) : Option (Option (Nat × Stream)) :=
  let e := (b.drop (64 * i)).take 64
  if field e 10 2 = 0 ∧ field e 9 1 < 4 ∧ field e 44 4 = 0 ∧ field e 56 8 = 0 then some none
  else match streamAt nseq ns e with
    | some v => if (SMap.get? seqs v.seq).isSome then some (some (i, v)) else none
    | none => none

/-- The bindings of a context: the header's addresses and counts, then the valid sequences and streams; STRMVA = 0 binds
nothing. -/
def readBindings (ctx : Nat) (item : Post) (va : Word) : Ag (SMap Sequence × SMap Stream × Nat) :=
  if va = 0 then Ag.pure ([], [], 0)
  else (loadRead ctx item va 64).bind fun h =>
    let seqva := w64 (field h 0 8)
    let nseq := field h 8 4
    let nstrm := field h 12 2
    let strva := w64 (field h 16 8)
    let ok := decide (nseq ≤ 65536) && decide (nstrm ≤ 4096) && field h 14 2 == 0 && field h 24 40 == 0 && seqva.toNat % 64 == 0 &&
      strva.toNat % 64 == 0
    (Ag.ofOption (if ok then some () else none)).bind fun _ =>
    (loadRead ctx item seqva (64 * nseq)).bind fun sb => (loadRead ctx item strva (64 * nstrm)).bind fun tb => fun s =>
    Ag.ofOption ((allSome (tab nseq (sequenceEntry seqva sb))).bind fun qs =>
      let seqs := qs.filterMap id
      (allSome (tab nstrm (streamEntry s.ns seqs nseq tb))).bind fun vs =>
        if 4096 < s.strm.streams.length + (vs.filterMap id).length then none else some (seqs, vs.filterMap id, nstrm)) s

/-- Bind a context's sequences and streams, and pin the sink blocks (R421). -/
def State.bindStreams (s : State) (ctx : Nat) (b : SMap Sequence × SMap Stream × Nat) : State :=
  let m := b.1.foldl (fun m e => SMap.set m (seqKey ctx e.1) e.2) s.strm.seqs
  let t := b.2.1.foldl (fun m e => SMap.set m (streamKey ctx e.1) e.2) s.strm.streams
  let s := State.setCtx { s with strm := ⟨m, t⟩ } ctx fun c => { c with nstrm := b.2.2 }
  b.1.foldl (fun (s : State) e => s.setSinks ctx e.2 e.2.s) s

/-! ### Near tiles (R387, R395) -/

/-- Owner of near tile i in its die's ring. -/
def nearOwner (i : Nat) : Nat × Nat := (2 ^ 48 + i, 0)

/-- A tile's halves from the bytes of its contents, header first (R175). -/
def halfOf (seed rows rb hdr : Nat) (sc ds : Bool) (b : List Byte) : Half :=
  let base := if sc then 4 * rows else 0
  { seed, data := SMap.puts [] 0 (b.drop hdr)
    side := if sc then tab rows fun r => (r, BitVec.ofNat 32 (field b (4 * r) 4)) else []
    desc := if ds then tab (rows * rb / 64) fun j => (j, BitVec.ofNat 16 (field b (base + 2 * j) 2)) else [] }

/-- An entry of a near-tile table (R387). -/
structure NearEnt where
  i    : Nat
  die  : Nat
  sc   : Bool
  ds   : Bool
  tag  : W16
  rows : Nat
  rbu  : Nat
  src  : Word
  deriving DecidableEq, Repr

def NearEnt.rb (e : NearEnt) : Nat := rowBytes e.rbu
def NearEnt.hdr (e : NearEnt) : Nat := headerBytes e.rows e.rb e.sc e.ds

/-- Entry i of a table: none is invalid, some none is V = 0. -/
def nearEntry (b : List Byte) (i : Nat) : Option (Option NearEnt) :=
  let e := (b.drop (32 * i)).take 32
  let fl := field e 14 2
  let n : NearEnt := ⟨i, field e 11 1, fl.testBit 1, fl.testBit 2, BitVec.ofNat 16 (field e 12 2), field e 8 2, field e 10 1, w64 (field e 0 8)⟩
  if fl % 2 = 0 then some none
  else if 8 ≤ fl ∨ field e 16 16 ≠ 0 ∨ 4 ≤ n.die ∨ n.rows = 0 ∨ 2048 ≤ n.tag.toNat ∨ tagLay n.tag ≠ 0 then none
  else some (some n)

/-- The valid entries of the context's near-tile table, with their contents, header first (R175). -/
def readNear (ctx : Nat) (item : Post) (va : Word) (n : Nat) : Ag (List (NearEnt × List Byte)) :=
  if va = 0 then Ag.pure []
  else (loadRead ctx item va (32 * n)).bind fun b => (Ag.ofOption (allSome (tab n (nearEntry b)))).bind fun es =>
    let es := es.filterMap id
    (Ag.each (fun (e : NearEnt) => loadRead ctx item e.src (e.hdr + e.rows * e.rb)) es).bind fun bs => Ag.pure (es.zip bs)

/-- Allocate and fill one near tile: none when its die's ring has no room. -/
def State.loadNear (s : State) (ctx : Nat) (x : NearEnt × List Byte) : Option State :=
  let e := x.1
  ((s.nring ctx e.die).alloc (tileCells e.hdr e.rows e.rb false) (nearOwner e.i)).map fun r =>
    let t : Tile := ⟨true, e.sc, e.ds, false, false, e.tag, e.rows, e.rbu, e.hdr, r.1, false,
      halfOf s.free e.rows e.rb e.hdr e.sc e.ds x.2, .fresh (s.free + 1)⟩
    (State.setNring { s with free := s.free + 2 } ctx e.die r.2).setCtx ctx fun c =>
      { c with near := SMap.set c.near (e.i + 65536 * e.die) t }

/-- Allocate and fill the near tiles of the context's table, in its order. -/
def fillNear (ctx : Nat) (item : Post) : Ag Unit := fun s =>
  let r := (s.ctxOf ctx).record
  ((readNear ctx item r.nttva r.nnt).bind fun es => fun s =>
    match es.foldl (fun (u : Option State) e => u.bind fun t => t.loadNear ctx e) (some s) with
    | some t => .ok () t
    | none => .drop s) s

/-- Release the near tiles. -/
def State.dropNear (s : State) (ctx : Nat) : State :=
  let s := (s.ctxOf ctx).near.foldl (fun (s : State) e =>
    let die := e.1 / 65536
    s.setNring ctx die ((s.nring ctx die).release (nearOwner (e.1 % 65536)))) s
  s.setCtx ctx fun c => { c with near := [] }

/-! ### Resources (R391, R392) -/

/-- Contexts that hold their resources. -/
def State.resident (s : State) : SMap Context := s.ctl.ctxs.filter fun e => e.2.res

def Context.counts (c : Context) : Bool := c.st == .ready || c.st == .running || c.st == .preempting

/-- Free barriers of a die. -/
def State.freeBars (s : State) (die : Nat) : List Nat := (tab 256 id).filter fun b => (s.bar (barKey die b)).isNone

/-- Cells of a die's near SRAM (R17, R175). -/
def nearCells : Nat := 384 * 2 ^ 20 / 256

/-- Whether a resident slot, the N rings and the barriers of a context fit; one that was resident before needs its own
barriers again. -/
def State.fits (s : State) (ctx : Nat) : Bool :=
  let c := s.ctxOf ctx
  let others := s.resident.filter fun e => e.1 != ctx
  decide ((others.filter fun e => e.2.counts).length < Config.residentContexts) &&
  ((tab 4 id).all fun d =>
    decide (c.record.arena.getD d 0 + (others.map fun e => e.2.record.arena.getD d 0).foldl (· + ·) 0 ≤ nearCells)) &&
  (if c.loaded then c.bars.all fun b => (s.bar b.1).isNone
   else c.dies.all fun d => decide (c.record.nbar ≤ (s.freeBars d).length))

/-- Whether a die's shares or the core time of a context are over (R392). -/
def State.oversubscribed (s : State) (ctx : Nat) : Bool :=
  let c := s.ctxOf ctx
  let total : (Context → Nat) → Nat → Nat := fun f d =>
    ((s.resident.filter fun e => e.2.record.diemask.getLsbD d).map fun e => f e.2).foldl (· + ·) 0
  (c.dies.any fun d => decide (1000 < total (fun k => k.record.nshare) d) || decide (1000 < total (fun k => k.record.dshare) d)) ||
  decide (64 * c.dies.length * c.record.period < c.record.coreus)

/-- Barriers of a context that is loaded or restored. -/
def State.giveBars (s : State) (ctx : Nat) : State :=
  let c := s.ctxOf ctx
  let fresh : Barrier := ⟨true, BitVec.ofNat 12 ctx, 0, 0, 0, 0⟩
  let give := if c.loaded then c.bars
    else (c.dies.map fun d => ((s.freeBars d).take c.record.nbar).map fun b => (barKey d b, fresh)).flatten
  let s := give.foldl (fun (s : State) b => s.setBar b.1 b.2) s
  s.setCtx ctx fun c => { c with bars := [] }

/-- Saved strands go to the head of their groups' pending lists in GRANK order. -/
def State.restoreStash (s : State) (ctx : Nat) : State :=
  let ts := sortBy (fun (a b : Strand) => decide (b.sys.grank.toNat ≤ a.sys.grank.toNat)) (s.ctxOf ctx).stash
  let s := s.setCtx ctx fun c => { c with stash := [] }
  ts.foldl (fun (s : State) t =>
    s.rejoin t ctx (coreDie (keyCore t.key)) (((s.task t.task).map Task.stage).getD 0)) s

/-- Dies where a context's work waits are looked at again. -/
def State.wakeDies (s : State) : State :=
  (tab 4 id).foldl (fun s d => (s.postOnce .strandPlace d).postOnce .queueDispatch d) s

/-- Queues that ask for slots when their context is resident (R356). -/
def State.askQueues (s : State) (ctx : Nat) : State :=
  (s.queuesOf ctx).foldl (fun (s : State) q =>
    if q.st = .dormant ∧ (q.held ∨ q.tail ≠ q.head ∨ q.qsave ≠ 0) then s.askSlot q else s) s

/-- The context takes its resources: those of a new context, or those that it held before. -/
def State.takeResources (s : State) (ctx : Nat) : State :=
  let s := s.giveBars ctx
  let s := s.setCtx ctx fun c => { c with res := true }
  let s := s.setCtx ctx fun c => { c with oversub := s.oversubscribed ctx }
  let s := (s.restoreStash ctx).askQueues ctx
  let s := (SMap.keys (s.strm.streams.filter fun e => e.1 / 4096 == ctx)).foldl (fun (s : State) k => s.payTick ctx (k % 4096)) s
  s.wakeDies

/-! ### Loading (R391) -/

/-- The load is rejected. -/
def State.rejectLoad (s : State) (ctx err : Nat) : State :=
  let c := s.ctxOf ctx
  let s := s.teardown ctx
  s.setCtx ctx fun _ => { Context.free with lerr := err, fn := c.fn }

/-- Read and check the tables of a new context, then put them in place: a load error, or done (R370, R371, R420). -/
def readTables (ctx : Nat) (item : Post) : Ag (Except Nat Unit) := fun s =>
  let r := (s.ctxOf ctx).record
  (((loadRead ctx item r.pgtva (16 * r.p)).bind fun b => Ag.ofOption (peersOf s.ctl.fw.chip r.p b)).orError 2 |>.unless fun peers =>
    ((if r.stgva = 0 then Ag.pure [] else (loadRead ctx item r.stgva 2048).bind fun b => Ag.ofOption (stagesOf b)).orError 5).unless fun stages =>
    ((readBindings ctx item r.strmva).orError 4).unless fun b => fun s =>
      .ok (.ok ()) ((s.setCtx ctx fun c => { c with peers := peers.1, rank := peers.2, stages }).bindStreams ctx b)) s

/-- A new context's arena, rings and budget. -/
def State.newArenas (s : State) (ctx : Nat) : State :=
  let r := (s.ctxOf ctx).record
  let s := (tab 4 id).foldl (fun (s : State) d => s.setNring ctx d (.empty (r.arena.getD d 0))) s
  s.setCtx ctx fun c => { c with conv := .empty r.convsz, start := s.ns / (1000 * r.period) * (1000 * r.period) }

/-- A new context becomes READY, or waits for resources. -/
def State.admitNew (s : State) (ctx : Nat) (item : Post) : State :=
  if !s.fits ctx then s.setCtx ctx fun c => { c with st := .saved, pending := true }
  else match fillNear ctx item s with
    | .wait t => t
    | .drop t => t.rejectLoad ctx 3
    | .ok _ t => (t.takeResources ctx).setCtx ctx fun c => { c with st := .ready, loaded := true, pending := false }

/-- CONTEXT_LOAD_CHECKS. -/
def execContextLoadChecks (ctx : Nat) (s : State) : Out :=
  let item : Post := ⟨.contextLoadChecks, ctx, 0⟩
  let c := s.ctxOf ctx
  if c.st ≠ .loading then .next s
  else match s.readRecord c.recVa with
    | none => .next (s.rejectLoad ctx 1)
    | some r =>
      let s := s.putRecord ctx r
      if c.loaded then
        .next (if s.fits ctx then (s.takeResources ctx).setCtx ctx fun c => { c with st := .ready }
               else s.setCtx ctx fun c => { c with st := .saved, pending := true })
      else if c.peers ≠ [] then .next (s.admitNew ctx item)
      else match readTables ctx item s with
        | .wait t => .next t
        | .drop t => .next t
        | .ok (.error e) t => .next (t.rejectLoad ctx e)
        | .ok (.ok _) t => .next ((t.newArenas ctx).admitNew ctx item)

/-- CONTEXT_RESIDENT: a pending context whose resources fit is loaded again; one that drains takes them as it is. -/
def execContextResident (ctx : Nat) (s : State) : Out :=
  let c := s.ctxOf ctx
  if !c.pending ∨ !s.fits ctx then .next s
  else if c.st = .saved then
    .next ((s.setCtx ctx fun c => { c with st := .loading, pending := false }).postOnce .contextLoadChecks ctx)
  else if c.st = .draining ∧ !c.res then .next ((s.takeResources ctx).setCtx ctx fun c => { c with pending := false })
  else .next s

/-! ### Pre-emption (R391 to R393, R310) -/

/-- Dispatch stops, and the context's strands are to be pre-empted. -/
def State.demand (s : State) (ctx : Nat) : State :=
  let s := s.setCtx ctx fun c => { c with spent := some s.clock }
  (SMap.keys (s.strands.filter fun e => e.2.sys.ctx.toNat == ctx && e.2.st.onCore)).foldl (fun (s : State) k =>
    (s.at k fun u => u.setCur fun t => { t with preempt := true }).postOnce .preemptImmediate k) s

/-- Periods from the demand to immediate pre-emption: 10 µs. -/
def preemptPeriods : Nat := 10000 * Config.periodsPerNs

/-- Whether a stopped strand can be saved: its operations are complete, its loads and atomics answered, its
records emitted, its flights landed but for a landing queue, its cancel applied up to step 3. -/
def State.settled (s : State) : Bool :=
  let t := s.cur
  t.ops.all (fun o => o.done) && !t.awaiting && !(s.mem.atoms.any fun r => r.key == t.key && r.old.isNone) && t.fl.all (fun f => f.rem == 0 || (f.g == .x && t.x.timed)) &&
    !(Eng.list.any fun g => s.emitting (4 * t.key + g.code.toNat)) && !s.todo.contains ⟨.phaseCancel, t.key, 0⟩

/-- Whether the strand at the front is due to stop. -/
def State.stopDue (s : State) : Bool :=
  s.cur.gy || (s.cur.preempt &&
    match s.curCtx.spent with
    | some n => decide (preemptPeriods ≤ s.clock - n)
    | none => false)

/-- The strand leaves its core. -/
def State.saveNow (s : State) : State :=
  let ctx := s.cur.sys.ctx.toNat
  let s := if s.cur.gy then s.moveStrand 2 else s.stashStrand 2
  if (s.ctxOf ctx).st = .preempting then s.postOnce .contextSaved ctx else s

/-- PREEMPT_IMMEDIATE: strand k stops once it is due and a save frame is free, and is saved once it is quiet. -/
def execPreemptImmediate (k : Nat) (s : State) : Out :=
  onStrand k (fun s =>
    let again := fun (s : State) => Host.Outcome.next (s.postOnce .preemptImmediate k)
    let t := s.cur
    match t.st with
    | .saved => if s.settled then .next s.saveNow else again s
    | .running | .handler =>
      if !t.preempt && !t.gy then .next s
      else if !s.frameFree then again (s.setCur fun t => { t with gy := false, preempt := t.preempt })
      else if !s.stopDue then again s
      else again (s.setCur fun t => { t with st := .saved, back := t.st })
    | .halted | .staged => if t.preempt then again s else .next s
    | _ => .next s) s

/-- Queues of a saved context (R356). -/
def State.saveQueues (s : State) (ctx : Nat) : State :=
  let qs := (s.queuesOf ctx).filter fun q => q.slot.isSome
  let s := qs.foldl (fun (s : State) q => s.setQueue { q with
    st := .dormant, slot := none, held := true, reads := 0, readyAt := none
    qsave := if q.st = .parked then 1 else if q.st = .stale then 2 else 0 }) s
  let keys := (s.queuesOf ctx).map Queue.key
  { s with work := { s.work with asks := s.work.asks.filter fun k => !keys.contains k } }

/-- Groups of a saved context hold no core; those with nothing pending end. -/
def State.saveGroups (s : State) (ctx : Nat) : State :=
  s.setGroups ((s.work.groups.map fun g => if g.ctx = ctx then { g with st := .forming, cores := [], leaving := none } else g).filter
    fun g => g.ctx != ctx || !g.pend.isEmpty)

/-- Every sequence's committed length is written to its record (R421). -/
def State.saveLengths (s : State) (ctx : Nat) : State :=
  ((s.strm.seqs.filter fun e => e.1 / 65536 == ctx).map Prod.snd).foldl (fun (s : State) q =>
    s.agentPut (2 ^ 24) ctx (q.va + 8) (leBytes 8 q.l.toNat) none noSource) s

/-- The context gives up its resources and is SAVED. -/
def State.giveUp (s : State) (ctx : Nat) : State :=
  let bars := s.barsOf ctx
  let s := ((s.saveQueues ctx).saveGroups ctx).saveLengths ctx
  let s := { s with work := { s.work with bars := s.work.bars.filter fun e => e.2.ctx.toNat != ctx } }
  let s := s.setCtx ctx fun c => { c with st := .saved, res := false, spent := none, pending := false, bars }
  s.grantSlots.admitWaiting

/-- CONTEXT_SAVED: once no strand of the context is in a slot. -/
def execContextSaved (ctx : Nat) (s : State) : Out :=
  if (s.ctxOf ctx).st ≠ .preempting ∨ s.strands.any fun e => e.2.sys.ctx.toNat == ctx then .next s
  else .next (s.giveUp ctx)

/-! ### Budgets (R392) -/

/-- BUDGET_EXHAUSTED. -/
def execBudgetExhausted (ctx : Nat) (s : State) : Out :=
  let c := s.ctxOf ctx
  if c.counts ∧ c.spent.isNone ∧ c.record.coreus * 1000 * Config.periodsPerNs ≤ c.usedQ then .next (s.demand ctx) else .next s

/-- BUDGET_PERIOD_ROLLOVER: a new period; what exhaustion stopped goes on, and saved strands come back. -/
def execBudgetPeriodRollover (ctx : Nat) (s : State) : Out :=
  let c := s.ctxOf ctx
  let len := 1000 * c.record.period
  if len = 0 then .next s
  else
    let s := s.setCtx ctx fun c => { c with usedQ := 0, cadQ := 0, start := s.ns / len * len }
    if c.spent.isNone ∨ c.st = .preempting ∨ !c.res then .next s
    else
      let s := s.setCtx ctx fun c => { c with spent := none }
      let s := (SMap.keys (s.strands.filter fun e => e.2.sys.ctx.toNat == ctx)).foldl (fun (s : State) k =>
        s.at k fun u => u.setCur fun t => { t with preempt := false }) s
      .next (s.restoreStash ctx).wakeDies

/-! ### Commands (R390, R391, R395) -/

/-- A command is accepted at once: GO reads 0, the other fields keep what was written. -/
def State.noteCmd (s : State) (fn cmd : Nat) (ctx : BitVec 12) : State :=
  s.setFn fn fun r => { r with cmd := w64 (cmd * 65536 + ctx.toNat) }

/-- Issue a command on a context of the function in one of the given states. -/
def State.command (s : State) (fn cmd : Nat) (ctx : BitVec 12) (sts : List CtxSt) (f : State → State) : State :=
  let s := s.noteCmd fn cmd ctx
  let c := s.ctxOf ctx.toNat
  if s.alien fn ctx.toNat || !sts.contains c.st then s.ignored else f s

def State.cmdLoad (s : State) (fn : Nat) (ctx : BitVec 12) : State :=
  s.command fn 1 ctx [.free] fun s =>
    (s.setCtx ctx.toNat fun _ => { Context.free with st := .loading, fn, recVa := (s.fnRegs fn).arg0 }).postOnce .contextLoadChecks
      ctx.toNat

def State.cmdSave (s : State) (fn : Nat) (ctx : BitVec 12) : State :=
  s.command fn 2 ctx [.ready, .running] fun s =>
    ((s.setCtx ctx.toNat fun c => { c with st := .preempting }).demand ctx.toNat).postOnce .contextSaved ctx.toNat

def State.cmdDrain (s : State) (fn : Nat) (ctx : BitVec 12) : State :=
  s.command fn 3 ctx [.ready, .running, .saved] fun s =>
    let n := ctx.toNat
    let res := (s.ctxOf n).res
    let s := (s.setCtx n fun c => { c with st := .draining, pending := !c.res }).tasksOver n
    if res then s else s.postOnce .contextResident n

def State.cmdTeardown (s : State) (fn : Nat) (ctx : BitVec 12) : State :=
  s.command fn 4 ctx [.loading, .ready, .running, .preempting, .saved, .draining] fun s => s.teardown ctx.toNat

def State.cmdRelease (s : State) (fn : Nat) (ctx : BitVec 12) : State :=
  s.command fn 5 ctx [.tornDown] fun s =>
    let n := ctx.toNat
    { s with
      ctl := { s.ctl with ctxs := SMap.del s.ctl.ctxs n }
      mem := { s.mem with pools := SMap.drop s.mem.pools (n * 8) 8 } }

def State.cmdSwap (s : State) (fn : Nat) (ctx : BitVec 12) : State :=
  s.command fn 6 ctx [.ready, .running] fun s =>
    let r := s.fnRegs fn
    if (s.ctxOf ctx.toNat).swap.isSome then s.ignored
    else (s.setCtx ctx.toNat fun c => { c with swap := some (r.arg0, r.arg1) }).tasksOver ctx.toNat

/-- ABORT of packet `index` of a queue. -/
def State.abortPacket (s : State) (q : Queue) (index : BitVec 32) : State :=
  let task := s.work.tasks.find? fun e => e.2.q == q.key && e.2.index == index && e.2.counted && e.2.convOf.isNone && e.2.done == 0
  match task with
  | some e => s.abortTask 6 e.1
  | none =>
    match q.parked.find? fun p => p.1 == index with
    | some p =>
      ((s.completePacket q p.1 p.2 6).setQueue { q with
        parked := q.parked.erase p, steps := q.steps.filter fun e => e.1 != index }).unparkHead q.key
    | none =>
      if q.count ≤ (index - q.head).toNat then s.ignored
      else if index = q.head ∧ q.headParked then
        (if q.st = .parked then s.completeHead q 6
         else (s.completePacket q q.head q.record 6).setQueue { q with head := q.head + 1, qsave := 0, record := [] })
      else if index = q.head ∧ q.st = .ready then s.completeHead q 6
      else if q.aborts.contains index then s
      else s.setQueue { q with aborts := q.aborts ++ [index] }

def State.cmdAbort (s : State) (fn : Nat) (ctx : BitVec 12) : State :=
  s.command fn 7 ctx [.loading, .ready, .running, .preempting, .saved, .draining] fun s =>
    let r := s.fnRegs fn
    match s.queue? (queueKey fn (getBits r.arg0 0 20)) with
    | some q => if q.ctx = ctx.toNat then s.abortPacket q (r.arg1.setWidth 32) else s.ignored
    | none => s.ignored

def execCtxcmdLoad (fn : Nat) (ctx : BitVec 12) (s : State) : Out := .next (s.cmdLoad fn ctx)
def execCtxcmdSave (fn : Nat) (ctx : BitVec 12) (s : State) : Out := .next (s.cmdSave fn ctx)
def execCtxcmdDrain (fn : Nat) (ctx : BitVec 12) (s : State) : Out := .next (s.cmdDrain fn ctx)
def execCtxcmdTeardown (fn : Nat) (ctx : BitVec 12) (s : State) : Out := .next (s.cmdTeardown fn ctx)
def execCtxcmdRelease (fn : Nat) (ctx : BitVec 12) (s : State) : Out := .next (s.cmdRelease fn ctx)
def execCtxcmdSwap (fn : Nat) (ctx : BitVec 12) (s : State) : Out := .next (s.cmdSwap fn ctx)
def execCtxcmdAbort (fn : Nat) (ctx : BitVec 12) (s : State) : Out := .next (s.cmdAbort fn ctx)

/-- SWAP_RELOAD (R395): the near tiles of the table at ARG1, read with the record as it stands now; MTROOT from ARG0. -/
def execSwapReload (ctx : Nat) (s : State) : Out :=
  let c := s.ctxOf ctx
  match c.swap with
  | none => .next s
  | some (mt, ntt) =>
    if (SMap.vals s.work.tasks).any fun k => k.ctx == ctx then .next s
    else
      let held := c.record
      let fail := fun (s : State) (err : Nat) =>
        ((s.dropNear ctx).giveUp ctx).setCtx ctx fun c => { c with swap := none, lerr := err }
      match s.readRecord c.recVa with
      | none => .next (fail s 1)
      | some r =>
        let t := (s.dropNear ctx).putRecord ctx { r with
          mtroot := mt, nttva := ntt, arena := held.arena, nbar := held.nbar, diemask := held.diemask, convsz := held.convsz }
        match fillNear ctx ⟨.swapReload, ctx, 0⟩ t with
        | .wait u => .next u
        | .drop u => .next (fail u 3)
        | .ok _ u => .next ((u.setCtx ctx fun c => { c with swap := none }).flushMethods ctx).wakeDies

/-! ### CTXINFO (R394) -/

/-- The near tile that a task operand of the strand names, if it lies on the strand's die. -/
def State.nearOperand (s : State) (i : Nat) : Option Tile :=
  match s.task s.cur.task with
  | none => none
  | some k =>
    let w := operandOf k.record i
    if recNops k.record ≤ i ∨ !w.getLsbD 63 then none
    else SMap.get? s.curCtx.near (getBits w 0 16 + 65536 * s.curDie)

def State.ctxInfo (s : State) (sel : Nat) : Word :=
  let c := s.curCtx
  match sel with
  | 0 => w64 (c.record.tenant.toNat * 4096 + s.cur.sys.ctx.toNat)
  | 1 => w64 (s.cur.kern * 2 ^ 32 + s.cur.entry)
  | 2 => w64 ((c.record.coreus * 1000 * Config.periodsPerNs - c.usedQ) / (1000 * Config.periodsPerNs))
  | 3 => w64 (s.ns / (1000 * c.record.period) * (1000 * c.record.period))
  | _ => w64 (c.holdNs / 1000 + c.record.diemask.toNat * 2 ^ 32)

def execCtxinfo (r : Ring) (o : F3) (s : State) : Out :=
  let sel := o.b.toNat
  issue { r.issue .a 0x7D 1 (if sel = 5 then [o.a] else []) [.reg o.d] 1 with legal := sel == 5 || o.a == 0 } (fun vs =>
    Act.get.bind fun s =>
    if sel ≠ 5 then result o.d (s.ctxInfo sel)
    else
      let a := vs.headD 0
      let i := getBits a 0 3
      let h := getBits a 8 7
      (Act.check (decide (a.toNat < 2 ^ 15) && getBits a 3 5 == 0 && decide (i ≤ 5)) tRANGE []).andThen <|
      (Act.check (s.cur.tile? h).isNone tHANDLE [w64 h]).andThen <|
      match s.nearOperand i with
      | none => result o.d 0
      | some t =>
        (Act.modify fun s => s.setCur fun k => (k.setTile h { t with ro := true }).unmark h).andThen (result o.d 1)) s

end Sys2Proof.Machine
end

