-- ==== Sys2Proof/Machine/Trace.lean ====
section
/-! DEFINITION. TRMARK, TRSPAN and TRQRY (R451 to R453), sync records (R444), the end of an emitter's stall (R447), and the
enabling of a sink (R445). -/

namespace Sys2Proof.Machine

/-! ### Marks and spans (R452) -/

/-- Emit a record of A; the instruction retires once it is emitted. -/
def markAct (code : Nat) (p0 : W32) (p1 : Word) : Act Done := Act.get.bind fun s =>
  if (s.cur.engine .a).since.isSome then noResult
  else fun s =>
    let t := s.emitCore .a code p0 p1
    if t.emitting (4 * t.cur.key) then .stop (.wait 0 (t.setEng .a fun e => { e with since := some t.clock }))
    else .ok (.of []) t

def markIssue (r : Ring) (opc : Nat) (srcs : List (BitVec 5)) (body : List Word → Act Done) : State → Out :=
  issue (r.issue .a opc 1 srcs [] 1) fun vs =>
    let b := vs.getD 1 0
    (Act.check (decide (b.toNat < 256)) tRANGE [b]).andThen (body vs)

def execTrmark (r : Ring) (o : F3) (s : State) : Out :=
  markIssue r 0xA0 [o.a, o.b] (fun vs => markAct (0x600 + (vs.getD 1 0).toNat) ((vs.headD 0).setWidth 32) 0) s

def execTrmarkL (r : Ring) (o : F3) (s : State) : Out :=
  markIssue r 0xA0 [o.a, o.b, o.d] (fun vs =>
    markAct (0xE00 + (vs.getD 1 0).toNat) ((vs.headD 0).setWidth 32) (vs.getD 2 0)) s

/-- Payload of a span record. -/
def spanWord (stop : Bool) (a : Word) : W32 := BitVec.ofNat 32 (getBits a 0 31 + b2n stop * 2 ^ 31)

def execTrspanBegin (r : Ring) (o : F3) (s : State) : Out :=
  markIssue r 0xA1 [o.a, o.b] (fun vs => markAct (0x700 + (vs.getD 1 0).toNat) (spanWord false (vs.headD 0)) 0) s

def execTrspanEnd (r : Ring) (o : F3) (s : State) : Out :=
  markIssue r 0xA1 [o.a, o.b] (fun vs => markAct (0x700 + (vs.getD 1 0).toNat) (spanWord true (vs.headD 0)) 0) s

/-! ### TRQRY (R453) -/

def State.block (s : State) (k : Nat) : Counters := SMap.getD s.trc.cnts k .zero

def execTrqry (r : Ring) (o : F3) (s : State) : Out :=
  let sel := o.b.toNat
  issue { r.issue .a 0xA2 1 [o.a] [.reg o.d] (if sel = 1 then 40 else 1) with legal := decide (sel < 2) || o.a == 0 } (fun vs =>
    let a := vs.headD 0
    (Act.check (decide (2 ≤ sel) || decide (a.toNat < if sel = 0 then 16 else 64)) tRANGE [a]).andThen <| Act.get.bind fun s =>
    result o.d (match sel with
      | 0 => SMap.getD (s.block (coreBlock s.curCore)).ecnt a.toNat 0
      | 1 => SMap.getD (s.block (dieBlock s.curDie)).ecnt a.toNat 0
      | 2 => s.cur.stalls
      | _ => s.curCtx.record.evmask)) s

/-! ### Sync records (R437, R444) -/

/-- The sync record of a die, 4 being the hub. The manual names neither the unit that emits it nor the offset that it has
measured: free values. -/
def State.syncRecord (s : State) (die : Nat) : State :=
  let v := (Config.freeWord s.free).toNat
  let w := BitVec.ofNat 32 (if die < 4 then die * 2 ^ 30 + v % 256 * 2 ^ 22 + 0xFFF * 2 ^ 10 else v % 1024 * 2 ^ 22 + 0xFFF * 2 ^ 10)
  let off := if die < 4 then BitVec.ofNat 32 (Config.freeWord (s.free + 1)).toNat else 0
  State.emitRec { s with free := s.free + 2 } (2 ^ 41 + die) ⟨s.ns, die, 0, w, off, 0, true, takers s.trc w true true⟩

/-- TRACE_SYNC. -/
def execTraceSync (die : Nat) (s : State) : Out := .next (s.syncRecord die)

/-! ### The end of a stall (R447) -/

/-- Remove the first record that waits at a source. -/
def dropFirst (k : Nat) : List (Nat × Nat × TraceRec) → List (Nat × Nat × TraceRec)
  | [] => []
  | w :: ws => if w.1 = k then ws else w :: dropFirst k ws

/-- Whether a source is a core's engine, numbered 4 × strand key + engine. -/
def coreSource (k : Nat) : Bool := decide (k < 2048)

/-- The record of a stall of n periods: it takes the place that each source keeps for it. -/
def State.stallRecord (s : State) (k n : Nat) : State :=
  match s.strand? (k / 4) with
  | none => s
  | some t =>
    let c := s.ctxOf t.sys.ctx.toNat
    let core := keyCore t.key
    let g := Eng.ofCode (BitVec.ofNat 2 (k % 4))
    let w := srcCore core g 0x008 c.record.tenant.toNat
    let r : TraceRec := ⟨s.ns, coreDie core, 0, w, BitVec.ofNat 32 (min n (2 ^ 32 - 1)), 0, false,
      takers s.trc w (evAllowed c.record.evmask 0x008) false⟩
    let s := s.countCore core 0x008 t.sys.ctx.toNat (some g) 1
    let s := if r.sinks.isEmpty then s else { s with trc := s.trc.accept r }
    s.at t.key fun u => u.setCur fun t => { t with stalls := w64 (min (t.stalls.toNat + n) (2 ^ 64 - 1)) }

/-- TRACE_EMIT_RESUME: the record that source k holds is emitted once every lossless sink has room. -/
def execTraceEmitResume (k : Nat) (s : State) : Out :=
  match s.trc.wait.find? fun w => w.1 == k with
  | none => .next s
  | some (_, since, r) =>
    if mustStall s.trc r then .next s
    else
      let s := { s with trc := Trace.accept { s.trc with wait := dropFirst k s.trc.wait } r }
      .next (if coreSource k then s.stallRecord k (s.clock - since) else s)

/-! ### Sinks (R445) -/

/-- A write of TRSnCTL. -/
def State.writeSinkCtl (s : State) (n : Nat) (v : Word) : State :=
  match s.trc.sinks[n]? with
  | none => s.ignored
  | some k =>
    let put := fun (s : State) (k : Sink) => { s with trc := { s.trc with sinks := s.trc.sinks.set n k } }
    let fields := v &&& 0x400000000000001F
    let log2 := v.toNat % 32
    let en := w64 (2 ^ 63)
    if k.enabled then
      let same := log2 == k.ctl.toNat % 32
      let keep := (fields &&& 0x4000000000000000) ||| (k.ctl &&& 0x1F)
      let s := if same then s else s.ignored
      put s { k with ctl := if v.getLsbD 63 then keep ||| en else keep }
    else if !v.getLsbD 63 ∨ log2 < 12 ∨ 28 < log2 then put s { k with ctl := fields }
    else
      let s := put s { k with ctl := fields ||| en, prod := 0, cons := 0, lost := 0 }
      (tab 5 id).foldl State.syncRecord s

/-- TRACE_SINK_ENABLE: a write of the sink's control register. -/
def execTraceSinkEnable (n : Nat) (v : Word) (s : State) : Out := .next (s.writeSinkCtl n v)

end Sys2Proof.Machine
end

