-- ==== Sys2Proof/Machine/Window.lean ====
section
/-! DEFINITION. The function's register window (R388 to R390, R396, R445, R450), the inspection spaces with STATERD (R397),
and the host's writes to memory (R272, R285). -/

namespace Sys2Proof.Machine

/-! ### Inspection spaces (R397) -/

/-- A tile-table entry (R176). -/
def State.tileEntry (s : State) (key h : Nat) : Nat :=
  match s.strand? key with
  | none => 0
  | some t => match t.tile? h with
    | none => 0
    | some v =>
      let ring := (s.swapTo key).ring v.near
      let span := if v.ro then tileCells v.hdr v.rows v.rb v.db else ring.spanAt v.start
      2 ^ 127 + b2n v.near * 2 ^ 126 + b2n v.sc * 2 ^ 125 + b2n v.ds * 2 ^ 124 + b2n v.db * 2 ^ 123 + b2n v.half * 2 ^ 122 +
        h * 2 ^ 112 + keySlot key * 2 ^ 111 + v.tag.toNat * 2 ^ 95 + v.rows * 2 ^ 79 + v.rbu % 256 * 2 ^ 71 + v.start * 2 ^ 50 +
        span * 2 ^ 29 + t.naming h * 2 ^ 22

/-- Word i of FP event slot k: key, counters and thresholds in pairs, status (R450). -/
def State.fpWord (s : State) (k i : Nat) : Word :=
  let f := SMap.getD s.trc.fps k .zero
  let pair := fun (m : SMap W32) (j : Nat) => w64 ((SMap.getD m (2 * j) 0).toNat + (SMap.getD m (2 * j + 1) 0).toNat * 2 ^ 32)
  if i = 0 then f.key
  else if 8 ≤ i ∧ i < 16 then pair f.cnt (i - 8)
  else if 16 ≤ i ∧ i < 24 then pair f.thr (i - 16)
  else if i = 24 then f.sts.setWidth 64
  else 0

/-- The word at an inspection address in spaces 0 to 6, for a context and a function; none when the index lies beyond its
space. The words of a save frame are free values. -/
def State.inspect (s : State) (ctx fn : Nat) (a : Word) : Option Word :=
  let core := getBits a 52 8
  let i := getBits a 0 52
  let key := fun (n : Nat) => 2 * core + n
  match getBits a 60 4 with
  | 0 => if i < 512 then some (w64 (s.tileEntry (key (i / 256)) (i / 2 % 128) / 2 ^ (64 * (i % 2)))) else none
  | 1 =>
    if i < 256 then some (match s.strand? (key (i / 128)) with
      | some t => t.sysReg s.ns (Eng.ofCode (BitVec.ofNat 2 (i / 32 % 4))) (i % 32)
      | none => 0)
    else none
  | 2 => if i < 256 then some (match s.bar (barKey (coreDie core) i) with | some b => b.word | none => 0) else none
  | 3 => if i < 2048 then some (s.fpWord (coreDie core * 64 + i / 32) (i % 32)) else none
  | 4 =>
    if i < 2 ^ 23 then
      some (w64 ((tab 4 fun j => frameCount s.mem ((4 * i + j) * 65536) * 2 ^ (16 * j)).foldl (· + ·) 0))
    else none
  | 5 => if i < 2 ^ 23 then some (s.mem.word (descriptorPa (queueKey fn 0) + 8 * i)) else none
  | 6 => if i < (s.ctxOf ctx).record.saven * 2 ^ 18 then some (Config.freeWord s.free) else none
  | _ => none

def State.fresh (s : State) : State := { s with free := s.free + 1 }

/-- STATERD is privileged (R78). -/
def execStaterd (r : Ring) (o : F3) (s : State) : Out :=
  if !s.cur.priv then .next (s.takeTrap .a tPRIV (s.cur.illegalArgs .a))
  else issue (r.issue .a 0xA8 1 [o.a] [.reg o.d] 40) (fun vs => Act.get.bind fun s =>
    let a := vs.headD 0
    match s.inspect s.cur.sys.ctx.toNat s.curCtx.fn a with
    | none => Act.trap tRANGE []
    | some v => (Act.modify State.fresh).andThen (result o.d v)) s

/-! ### INSPD (R389) -/

/-- State code of strand control. -/
def strandCode : StrandSt → Nat
  | .staged => 1 | .running => 2 | .ending => 3 | .handler => 4 | .halted => 5 | .saved => 6 | .free => 0 | .ended => 0

/-- The word that INSPD reads (R389). -/
def State.inspd (s : State) : Word :=
  let a := s.ctl.inspa
  let key := 2 * getBits a 52 8
  let i := getBits a 0 52
  match getBits a 60 4 with
  | 8 => if i < 32 then (SMap.getD s.ctl.breaks (key * 16 + i) 0).setWidth 64 else 0
  | 9 => if i < 2 then w64 (match s.strand? (key + i) with | some t => strandCode t.st | none => 0) else 0
  | _ => (s.inspect (s.fnRegs 0).sel.toNat 0 a).getD 0

/-! ### Reads of the window (R10, R388 to R390, R396, R445, R450) -/

/-- State code of a context (R391). -/
def CtxSt.code : CtxSt → Nat
  | .free => 0 | .loading => 1 | .ready => 2 | .running => 3 | .preempting => 4 | .saved => 5 | .draining => 6 | .tornDown => 7

/-- CTXSTS of a context. -/
def Context.status (c : Context) : Word := w64 (c.st.code + 8 * b2n c.oversub + 256 * (c.lerr % 256))

/-- A register of a sink. -/
def Sink.word (k : Sink) (off : Nat) : Word :=
  if off = 0 then k.ctl
  else if off = 0x08 then k.base
  else if off = 0x10 ∨ off = 0x18 ∨ off = 0x20 ∨ off = 0x28 then k.ten.getD ((off - 0x10) / 8) 0
  else if off = 0x30 then k.prod.setWidth 64
  else if off = 0x38 then k.cons.setWidth 64
  else if off = 0x40 then k.lost.setWidth 64
  else 0

/-- Register i of a block of n counters. -/
def Counters.word (c : Counters) (n i : Nat) : Word :=
  if i < n then SMap.getD c.esel i 0
  else if i < 2 * n then SMap.getD c.ecnt (i - n) 0
  else if i < 3 * n then SMap.getD c.ethr (i - 2 * n) 0
  else if i = 3 * n then c.ests
  else 0

/-- A read at an offset of die block d, the hub being 4. -/
def State.readDieBlock (s : State) (d off : Nat) : Word :=
  if off < 0x1000 then (SMap.getD s.trc.cnts (dieBlock d) .zero).word 64 (off / 8)
  else if 4 ≤ d then 0
  else if off < 0x1000 + 0x100 * 64 then s.fpWord (d * 64 + (off - 0x1000) / 0x100) (off % 0x100 / 8)
  else if 0x8000 ≤ off ∧ off < 0x8000 + 0x200 * 64 then
    (SMap.getD s.trc.cnts (coreBlock (d * 64 + (off - 0x8000) / 0x200)) .zero).word 16 (off % 0x200 / 8)
  else 0

/-- A read of a register that the physical function alone has. -/
def State.readPhysical (s : State) (off : Nat) : Word :=
  if off = 0x200 then s.ctl.evvec.setWidth 64
  else if off = 0x300 then s.ctl.inspa
  else if off = 0x308 then s.inspd
  else if 0x10000 ≤ off ∧ off < 0x11000 then
    (match s.trc.sinks[(off - 0x10000) / 0x100]? with | some k => k.word (off % 0x100) | none => 0)
  else if 0x80000 ≤ off ∧ off < 0xD0000 then s.readDieBlock ((off - 0x80000) / 0x10000) (off % 0x10000)
  else 0

/-- What an aligned 8-byte read at an offset of a function's window returns. Write-only registers read zero, and so do the
event registers, which are laid out as one (DEDUCED, assumption log 45), and every other offset. -/
def State.hostRead (s : State) (fn off : Nat) : Word :=
  let r := s.fnRegs fn
  let n := r.sel.toNat
  let c := s.ctxOf n
  if off % 8 ≠ 0 then 0
  else match off with
  | 0x80 => r.tlba
  | 0x88 => r.tlbb
  | 0x100 => r.arg0
  | 0x108 => r.arg1
  | 0x110 => r.cmd
  | 0x118 => r.sel.setWidth 64
  | 0x120 => if s.owns fn n then c.status else 0
  | 0x128 => if s.owns fn n then c.tprod ++ c.tcons else 0
  | 0x130 => if s.owns fn n then c.hprod ++ c.hcons else 0
  | 0x138 => if s.owns fn n then c.vec.setWidth 64 else 0
  | 0x140 => r.fpcmd
  | 0x148 => r.fparg
  | 0x150 => r.fpsts
  | _ => if fn = 0 then s.readPhysical off else 0

/-- INSPD_READ: what the host reads at INSPD. -/
def execInspdRead (s : State) : Out := .next { s.fresh with ctl := { s.ctl with readv := s.hostRead 0 0x308 } }

/-- A write of INSPD. -/
def State.writeInspd (s : State) (v : Word) : State :=
  let a := s.ctl.inspa
  let key := 2 * getBits a 52 8
  let i := getBits a 0 52
  match getBits a 60 4 with
  | 8 =>
    if 32 ≤ i then s.ignored
    else { s with ctl := { s.ctl with breaks := SMap.set s.ctl.breaks (key * 16 + i) (v.setWidth 32 &&& 0x80003FFF) } }
  | 9 =>
    if 2 ≤ i then s.ignored
    else if v = 1 then
      s.at (key + i) fun u => if u.cur.st = .halted then u.setCur fun t => { t with st := t.back } else u
    else s
  | _ => s.ignored

def execInspdBreakpointWrite (v : Word) (s : State) : Out := .next (s.writeInspd v)
def execInspdResume (v : Word) (s : State) : Out := .next (s.writeInspd v)

/-! ### The context's rings (R388) -/

/-- A write of CONS of the trap ring or the handler ring of the selected context. -/
def State.writeCons (s : State) (fn : Nat) (handler : Bool) (cons : BitVec 32) : State :=
  let n := (s.fnRegs fn).sel.toNat
  let c := s.ctxOf n
  let prod := if handler then c.hprod else c.tprod
  let log2 := if handler then c.record.hqlog2 else c.record.tqlog2
  if !s.owns fn n ∨ 2 ^ log2 < (prod - cons).toNat then s.ignored
  else (s.setCtx n fun c => if handler then { c with hcons := cons } else { c with tcons := cons }).flushRings

def execCtxringConsWrite (fn : Nat) (handler : Bool) (cons : BitVec 32) (s : State) : Out := .next (s.writeCons fn handler cons)

/-! ### Frame pools (R396) -/

/-- A command of FPCMD; none of the checks of ADD fails. -/
def State.poolAddOk (s : State) (ctx pool size pa : Nat) : Bool :=
  let n := 2 ^ pageShift size
  let l := SMap.getD s.mem.pools (poolKey ctx pool) []
  pa % n == 0 && (pool == 4 || (dieOf pa == pool && decide (pa + n ≤ (pool + 1) * Config.dieBytes) &&
    !inDescArea s.ctl.fw pa && !inDescArea s.ctl.fw (pa + n - 1) && frameCount s.mem pa == 0)) &&
  decide (pa < 2 ^ 52) && decide (l.length < 2 ^ (s.ctxOf ctx).record.poollog2)

/-- A write of FPCMD: done at once, so GO reads 0. -/
def State.writeFpcmd (s : State) (fn : Nat) (v : Word) : State :=
  let fields := v &&& 0x7F00000000000FFF
  let ctx := getBits v 0 12
  let op := getBits v 61 2
  let size := getBits v 59 2
  let pool := getBits v 56 3
  let s := s.setFn fn fun r => { r with fpcmd := fields }
  if !v.getLsbD 63 then s
  else if op = 0 ∨ size = 3 ∨ 4 < pool ∨ getBits v 12 44 ≠ 0 ∨ s.alien fn ctx ∨ (s.ctxOf ctx).record.poollog2 = 0 then s.ignored
  else
    let k := poolKey ctx pool
    let put := fun (s : State) (l : List Nat) =>
      State.writePool { s with mem := { s.mem with pools := SMap.set s.mem.pools k l } } ctx pool
    let l := SMap.getD s.mem.pools k []
    let s :=
      match op with
      | 1 =>
        let pa := (s.fnRegs fn).fparg.toNat
        if s.poolAddOk ctx pool size pa then put s (poolEntry pa size :: l) else s.ignored
      | 2 =>
        (match l.find? fun e => e / 2 ^ 36 == size with
         | some e => (put s (l.erase e)).setFn fn fun r => { r with fparg := w64 (e % 2 ^ 36 * 65536) }
         | none => s.setFn fn fun r => { r with fparg := Word.ones })
      | _ => s
    let l := SMap.getD s.mem.pools k []
    s.setFn fn fun r => { r with fpsts := w64 (l.length + (l.filter fun e => e / 2 ^ 36 == size).length * 2 ^ 32) }

def execFpcmdAdd (fn : Nat) (v : Word) (s : State) : Out := .next (s.writeFpcmd fn v)
def execFpcmdTake (fn : Nat) (v : Word) (s : State) : Out := .next (s.writeFpcmd fn v)
def execFpcmdCount (fn : Nat) (v : Word) (s : State) : Out := .next (s.writeFpcmd fn v)

/-! ### Sinks and counters (R445, R448, R450, R55, R56) -/

/-- A write to a register of sink n at an offset. -/
def State.writeSinkReg (s : State) (n off : Nat) (v : Word) : State :=
  match s.trc.sinks[n]? with
  | none => s.ignored
  | some k =>
    let put := fun (k : Sink) => { s with trc := { s.trc with sinks := s.trc.sinks.set n k } }
    if off = 0 then s.writeSinkCtl n v
    else if off = 0x08 then (if k.enabled ∨ v.toNat % 4096 ≠ 0 then s.ignored else put { k with base := v })
    else if off = 0x10 ∨ off = 0x18 ∨ off = 0x20 ∨ off = 0x28 then
      (if k.enabled then s.ignored else put { k with ten := upd k.ten ((off - 0x10) / 8) fun _ => v })
    else if off = 0x38 then put { k with cons := v.setWidth 32 }
    else if off = 0x30 ∨ off = 0x40 then s
    else s.ignored

/-- Fields of a select register. -/
def eselMask : Word := 0xC0000FFF0000FFFF

/-- Whether a write to register i of a block of n counters takes a count past its threshold, its status bit clear (R58,
R449). -/
def Counters.writeHits (c : Counters) (n i : Nat) (v : Word) : Bool :=
  decide (n ≤ i) && decide (i < 2 * n) &&
    passes (SMap.getD c.ecnt (i - n) 0).toNat v.toNat (SMap.getD c.ethr (i - n) 0).toNat && !c.ests.getLsbD (i - n)

/-- A write to register i of a block of n counters, the registers laid out one kind after another. -/
def Counters.write (c : Counters) (n i : Nat) (v : Word) : Counters :=
  if i < n then { c with esel := SMap.set c.esel i (v &&& eselMask) }
  else if i < 2 * n then
    { c with ecnt := SMap.set c.ecnt (i - n) v, ests := if c.writeHits n i v then c.ests ||| w64 (2 ^ (i - n)) else c.ests }
  else if i < 3 * n then { c with ethr := SMap.set c.ethr (i - 2 * n) v }
  else { c with ests := c.ests &&& ~~~v }

def State.writeBlock (s : State) (block n i : Nat) (v : Word) : State :=
  if 3 * n < i then s.ignored
  else
    let c := SMap.getD s.trc.cnts block .zero
    let t := { s with trc := { s.trc with cnts := SMap.set s.trc.cnts block (c.write n i v) } }
    if c.writeHits n i v then t.counterInterrupt else t

/-- Two 32-bit registers from one 8-byte write. -/
def putPair (m : SMap W32) (j : Nat) (v : Word) : SMap W32 :=
  SMap.set (SMap.set m (2 * j) (v.setWidth 32)) (2 * j + 1) ((v >>> 32).setWidth 32)

/-- A write to word i of FP event slot k. -/
def State.writeFp (s : State) (k i : Nat) (v : Word) : State :=
  let put := fun (f : FpSlot → FpSlot) => { s with trc := { s.trc with fps := SMap.upd s.trc.fps k .zero f } }
  if i = 0 then put fun f => { f with key := v &&& 0xC000FFFF00000FFF }
  else if 8 ≤ i ∧ i < 16 then
    let r := (SMap.getD s.trc.fps k .zero).write (2 * (i - 8)) (v.setWidth 32)
    let q := r.1.write (2 * (i - 8) + 1) ((v >>> 32).setWidth 32)
    let t := put fun _ => q.1
    let t := if r.2 then t.counterInterrupt else t
    if q.2 then t.counterInterrupt else t
  else if 16 ≤ i ∧ i < 24 then put fun f => { f with thr := putPair f.thr (i - 16) v }
  else if i = 24 then put fun f => { f with sts := f.sts &&& ~~~(v.setWidth 16) }
  else s.ignored

/-- A write at an offset of die block d, the hub being 4. -/
def State.writeDieBlock (s : State) (d off : Nat) (v : Word) : State :=
  if off < 0x1000 then s.writeBlock (dieBlock d) 64 (off / 8) v
  else if 4 ≤ d then s.ignored
  else if off < 0x1000 + 0x100 * 64 then s.writeFp (d * 64 + (off - 0x1000) / 0x100) (off % 0x100 / 8) v
  else if 0x8000 ≤ off ∧ off < 0x8000 + 0x200 * 64 then
    s.writeBlock (coreBlock (d * 64 + (off - 0x8000) / 0x200)) 16 (off % 0x200 / 8) v
  else s.ignored

/-! ### The window (R389) -/

/-- A write of CTXCMD. -/
def State.writeCtxcmd (s : State) (fn : Nat) (v : Word) : State :=
  let ctx := v.setWidth 12
  if !v.getLsbD 63 then s.setFn fn fun r => { r with cmd := v &&& 0xF0FFF }
  else match getBits v 16 4 with
    | 1 => s.cmdLoad fn ctx
    | 2 => s.cmdSave fn ctx
    | 3 => s.cmdDrain fn ctx
    | 4 => s.cmdTeardown fn ctx
    | 5 => s.cmdRelease fn ctx
    | 6 => s.cmdSwap fn ctx
    | 7 => s.cmdAbort fn ctx
    | _ => s.ignored

/-- A write of PGDONE. -/
def State.writePgdone (s : State) (fn : Nat) (v : Word) : State :=
  let rqid := v.setWidth 32
  match getBits v 32 2 with
  | 0 => s.answerPage fn rqid 0
  | 1 => s.answerPage fn rqid tPAGE
  | 2 => s.answerPage fn rqid tPROTECT
  | _ => s.ignored

/-- A write to the registers of the physical function only. -/
def State.writePhysical (s : State) (off : Nat) (v : Word) : State :=
  if off = 0x200 then { s with ctl := { s.ctl with evvec := v.setWidth 11 } }
  else if off = 0x300 then { s with ctl := { s.ctl with inspa := v } }
  else if off = 0x308 then s.writeInspd v
  else if 0x10000 ≤ off ∧ off < 0x11000 then s.writeSinkReg ((off - 0x10000) / 0x100) (off % 0x100) v
  else if 0x80000 ≤ off ∧ off < 0xD0000 then s.writeDieBlock ((off - 0x80000) / 0x10000) (off % 0x10000) v
  else s.ignored

/-- REGISTER_WRITE: an aligned 8-byte write at an offset of a function's window; a read-only register ignores it (R10). -/
def execRegisterWrite (fn off : Nat) (v : Word) (s : State) : Out :=
  let reg := fun (f : FnRegs → FnRegs) => Host.Outcome.next (s.setFn fn f)
  if off % 8 ≠ 0 then .next s.ignored
  else match off with
  | 0x0 => execQkick fn v s
  | 0x8 => .next { s with work := { s.work with qevset := SMap.set s.work.qevset fn (getBits v 32 20) } }
  | 0x10 => execQevbits fn v s
  | 0x20 => execStkick fn v s
  | 0x40 => .next (s.writePgdone fn v)
  | 0x60 => .next (s.mtflush fn v)
  | 0x80 => reg fun r => { r with tlba := v &&& 0x01FFFFFFFFFF0FFF }
  | 0x88 => execTlbinv fn v s
  | 0x100 => reg fun r => { r with arg0 := v }
  | 0x108 => reg fun r => { r with arg1 := v }
  | 0x110 => .next (s.writeCtxcmd fn v)
  | 0x118 => reg fun r => { r with sel := v.setWidth 12 }
  | 0x120 => .next s
  | 0x128 => .next (s.writeCons fn false (v.setWidth 32))
  | 0x130 => .next (s.writeCons fn true (v.setWidth 32))
  | 0x138 =>
    let n := (s.fnRegs fn).sel.toNat
    .next (if s.owns fn n then s.setCtx n fun c => { c with vec := v.setWidth 11 } else s.ignored)
  | 0x140 => .next (s.writeFpcmd fn v)
  | 0x148 => reg fun r => { r with fparg := v }
  | 0x150 => .next s
  | _ => .next (if fn = 0 then s.writePhysical off v else s.ignored)

/-! ### Host writes to memory (R272, R285) -/

/-- HOST_MEMORY_WRITE: bytes of device memory over the link to the host, or of the host's own memory. Bytes beyond the
module's memory are written nowhere. -/
def execHostMemoryWrite (fn : Nat) (host : Bool) (pa : Nat) (data : List Byte) (s : State) : Out :=
  let _ := fn
  let b := if host then data else data.take (Config.devBytes - pa)
  .next { s with mem := s.mem.put (b2n host) pa b }

end Sys2Proof.Machine
end

