-- ==== Sys2Proof/Machine/Link.lean ====
section
/-! DEFINITION. The wire (R401 to R406): ports, Obdaok frames and flits, routes, requests to peers and their retries
(R333), the requests that this device performs for its peers (R409), and the atomic engines (R292). -/

namespace Sys2Proof.Machine

/-! ### Ports (R404) -/

def State.port (s : State) (n : Nat) : Port := s.net.ports.getD n .down

def State.setPort (s : State) (n : Nat) (f : Port → Port) : State :=
  { s with net := { s.net with ports := upd s.net.ports n f } }

def PortSt.code : PortSt → Nat
  | .down => 0 | .training => 1 | .up => 2 | .degraded => 3 | .failed => 4

def Port.carries (p : Port) : Bool := p.st == .up || p.st == .degraded
def Port.sends (p : Port) : Bool := p.carries && !p.paused

/-- Enter a state and report it. -/
def State.enterPort (s : State) (n : Nat) (st : PortSt) : State :=
  State.emitHub (s.setPort n fun p => { p with st }) n 0x408 none (BitVec.ofNat 32 (n + 16 * st.code)) 0

/-! ### Flits and frames (R401 to R403) -/

def crcBits : Nat → Nat → Nat
  | 0, c => c
  | n + 1, c => crcBits n (if c % 2 = 1 then (c / 2) ^^^ 0x82F63B78 else c / 2)

/-- CRC-32C. -/
def crc32c (b : List Byte) : Nat := (b.foldl (fun c x => crcBits 8 (c ^^^ x.toNat)) 0xFFFFFFFF) ^^^ 0xFFFFFFFF

def padTo (n : Nat) (b : List Byte) : List Byte := (b ++ List.replicate n 0).take n

/-- A flit of a type with its payload. -/
def mkFlit (type : Nat) (payload : List Byte) : List Byte :=
  let b := padTo 60 (leBytes 1 type ++ [0] ++ payload)
  b ++ leBytes 4 (crc32c b)

def flitOk (f : List Byte) : Bool := field f 60 4 == crc32c (f.take 60)

/-- Data flits: 56 bytes each. -/
def dataFlits (data : List Byte) : List (List Byte) :=
  tab ((data.length + 55) / 56) fun i => mkFlit 2 (leBytes 1 i ++ [0] ++ padTo 56 ((data.drop (56 * i)).take 56))

def reqFlits (q : LinkReq) : List (List Byte) :=
  let d := dataFlits q.data
  mkFlit 1 (leBytes 1 q.opk ++ [q.opa, q.fmt] ++ leBytes 1 d.length ++ leBytes 2 q.ctx ++ leBytes 4 q.src.toNat ++
    leBytes 4 q.tag.toNat ++ leBytes 8 q.rva.toNat ++ leBytes 4 q.len ++ leBytes 4 0 ++ leBytes 8 q.opd.toNat ++
    leBytes 8 q.opd2.toNat) :: d

def respFlits (p : LinkResp) : List (List Byte) :=
  let d := dataFlits p.data
  mkFlit 3 (leBytes 1 p.status ++ [p.hint] ++ leBytes 1 d.length ++ [0] ++ leBytes 2 p.ctx ++ leBytes 4 p.tag.toNat ++
    leBytes 4 p.data.length ++ leBytes 8 p.old.toNat) :: d

/-- The data of a message from its data flits. -/
def gatherData (len : Nat) (fs : List (List Byte)) : List Byte := ((fs.map fun f => (f.drop 4).take 56).flatten).take len

/-- A message in line: each flit behind its destination's MAC and the ports that reach it. -/
def addressed (mac : BitVec 48) (ports : BitVec 16) (fs : List (List Byte)) : List (List Byte) :=
  fs.map fun f => (leBytes 6 mac.toNat).reverse ++ leBytes 2 ports.toNat ++ f

/-- This chip's fabric address, as its own entry of some process-group table gives it. -/
def State.ownMac (s : State) : BitVec 48 :=
  ((s.ctl.ctxs.findSome? fun e => e.2.peers.find? fun p => p.chip == s.ctl.fw.chip).map Peer.mac).getD 0

/-- A frame of the flits of one message, the first of them numbered seq. -/
def State.frame (s : State) (n seq : Nat) (m : List (List Byte)) : List Byte :=
  let p := s.port n
  (m.headD []).take 6 ++ (leBytes 6 s.ownMac.toNat).reverse ++ (leBytes 2 s.ctl.fw.etherType.toNat).reverse ++
    leBytes 1 1 ++ leBytes 1 m.length ++ leBytes 2 seq ++ leBytes 2 (p.rxSeq + b2n p.nak * 2 ^ 15) ++ leBytes 2 0 ++
    (m.map fun f => f.drop 8).flatten

def State.sendFrame (s : State) (n seq : Nat) (m : List (List Byte)) : State :=
  let f := s.frame n seq m
  State.setPort { s with net := { s.net with sent := s.net.sent ++ [(n, f)] } } n fun p => { p with nak := false }

/-- Send what is in line, as long as the port sends and its retry buffer of 4,096 flits has room. -/
def State.pumpN (n : Nat) : Nat → State → State
  | 0, s => s
  | fuel + 1, s =>
    let p := s.port n
    match p.out with
    | [] => s
    | m :: rest =>
      if !p.sends || decide (4096 < p.retry.length + m.length) then s
      else
        let t := s.setPort n fun p =>
          { p with out := rest, retry := p.retry ++ m, txSeq := (p.txSeq + m.length) % 4096 }
        State.pumpN n fuel (t.sendFrame n p.txSeq m)

def State.pump (s : State) (n : Nat) : State := State.pumpN n (s.port n).out.length s

/-- Put a message in line at a port. -/
def State.sendMsg (s : State) (n : Nat) (m : List (List Byte)) : State :=
  State.pump (s.setPort n fun p => { p with out := p.out ++ [m] }) n

/-- Split flits into messages: each begins at a flit that is no data flit. -/
def messages : List (List Byte) → List (List (List Byte))
  | [] => []
  | f :: fs =>
    match messages fs with
    | [] => [[f]]
    | m :: ms => if field (m.headD []) 8 1 = 2 then (f :: m) :: ms else [f] :: m :: ms

/-- Send the retry buffer again from its first flit. -/
def State.resend (s : State) (n : Nat) : State :=
  let p := s.port n
  if !p.sends then s
  else
    let r := (messages p.retry).foldl (fun (acc : State × Nat) m => (acc.1.sendFrame n (acc.2 % 4096) m, acc.2 + m.length))
      (s, p.ackSeq + 1)
    r.1.setPort n fun p => { p with resent := p.resent + p.retry.length }

/-- Free the flits that an ACK covers. -/
def Port.acked (p : Port) (a : Nat) : Port :=
  let k := (a + 4096 - p.ackSeq) % 4096
  if k = 0 ∨ p.retry.length < k then p else { p with retry := p.retry.drop k, ackSeq := a, resends := 0 }

/-! ### Ports come and go (R404, R405) -/

/-- A peer's entry. -/
def State.peer (s : State) (ctx rank : Nat) : Option Peer := (s.ctxOf ctx).peers.find? fun p => p.rank == rank

/-- Ports that reach a peer (R405). -/
def Peer.reach (p : Peer) : BitVec 16 := if p.ports = 0 then Config.portsReaching p.chip else p.ports

def State.portsOf (s : State) (m : BitVec 16) (f : Port → Bool) : List Nat :=
  (tab 16 id).filter fun n => m.getLsbD n && f (s.port n)

/-- Whether any port reaches: one that carries or trains. -/
def State.reaches (s : State) (m : BitVec 16) : Bool := !(s.portsOf m fun p => p.carries || p.st == .training).isEmpty

def State.reachesRank (s : State) (ctx rank : Nat) : Bool := ((s.peer ctx rank).map fun p => s.reaches p.reach).getD false

/-- A port for a number: shares in proportion to the rates (R405). -/
def State.share (s : State) (m : BitVec 16) (salt : Nat) : Option Nat :=
  let l := ((s.portsOf m Port.carries).map fun n => List.replicate ((s.port n).lanes / 2) n).flatten
  l[salt % l.length]?

/-- Change a strand wherever it is: in a slot, in a save frame or pending. -/
def State.anyStrand (s : State) (key : Nat) (f : Strand → Strand) : State :=
  let g := fun (t : Strand) => if t.key = key ∧ t.st ≠ .free then f t else t
  { s with
    cur := g s.cur, others := s.others.map (fun e => (e.1, g e.2))
    ctl := { s.ctl with ctxs := s.ctl.ctxs.map fun e => (e.1, { e.2 with stash := e.2.stash.map g }) }
    work := { s.work with groups := s.work.groups.map fun q =>
      { q with pend := q.pend.map fun p => { p with saved := p.saved.map g } } } }

def workKey (n : Nat) : Nat := 2 ^ 40 + n
def collKey (n : Nat) : Nat := 2 ^ 41 + n

/-- A trap at engine A's next boundary for a store or posted atomic that a peer did not perform. -/
def State.sendFailed (s : State) (r : Remote) (status : Nat) (t : Strand) : Strand :=
  let k := s.sendTrap t r status
  t.lateTrap .a k.1 k.2

/-- An agent's step goes on with an answer. -/
def State.resume (s : State) (r : Remote) : State := match r.who with | some p => s.repost p | none => s

/-- A hub agent's write or add that a peer did not perform is dropped (R468). -/
def State.agentFailed (s : State) (r : Remote) (status : Nat) : State :=
  if status = 0 then s
  else if (r.who.map Post.what) = some .ring then s.ignored
  else s.postError r.ctx 0 0x105 r.va.toNat (r.key - 2 ^ 43)

/-- The answer to a request, with a status of R414 (0 performed), reaches who asked. -/
def State.answerRemote (s : State) (r : Remote) (status : Nat) (data : List Byte) (old : Word) : State :=
  let keep := { s with net := { s.net with remote := s.net.remote.map fun q =>
    if q.tag = r.tag then { q with ans := some data, old, status } else q } }
  let gone := { s with net := { s.net with remote := s.net.remote.filter fun q => q.tag != r.tag } }
  if 2 ^ 41 ≤ r.key ∧ r.key < 2 ^ 42 then keep.postOnce .collectiveExpand (r.key - 2 ^ 41)
  else if 2 ^ 43 ≤ r.key then (if r.wait then keep.resume r else gone.agentFailed r status)
  else if 2 ^ 40 ≤ r.key ∧ r.key < 2 ^ 41 then
    let n := r.key - 2 ^ 40
    match SMap.get? s.net.work n with
    | none => gone
    | some w =>
      let put := fun (s : State) => if status ≠ 0 ∨ r.opk ≠ 2 then s
        else (pagePieces (w.e.lva + (r.rva - w.e.rva)) data.length).foldl (fun (a : State × List Byte) p =>
          (a.1.agentPut r.key r.ctx p.1 (a.2.take p.2) none noSource, a.2.drop p.2)) (s, data) |>.1
      let w := { w with status := if w.status = 0 then status else w.status }
      State.postOnce (put { gone with net := { gone.net with work := SMap.set gone.net.work n w } }) .workEntryComplete n
  else if r.wait then keep
  else if status = 0 then gone
  else if 2 ^ 32 ≤ r.key then gone.updTask (r.key - 2 ^ 32) fun k => { k with status := if k.status = 0 then 1 else k.status }
  else gone.anyStrand r.key fun t => s.sendFailed r status t

/-- Requests under way to ranks that no port reaches any more end with status 3 (R405). -/
def State.failUnreached (s : State) : State :=
  (s.net.remote.filter fun r => r.ans.isNone && r.sentAt.isSome && !s.reachesRank r.ctx r.rank).foldl
    (fun s r => s.answerRemote r 3 [] 0) s

/-- A port's unacknowledged flits and what is in line move to other ports, in order. -/
def State.movePort (s : State) (n : Nat) (st : PortSt) : State :=
  let p := s.port n
  let ms := messages p.retry ++ p.out
  let s := State.enterPort (s.setPort n fun p => { Port.down with resent := p.resent }) n st
  let s := ms.foldl (fun (s : State) m =>
    let ports := BitVec.ofNat 16 (field (m.headD []) 6 2)
    match (s.portsOf ports Port.carries).head?.or (s.portsOf ports fun p => p.st == .training).head? with
    | some k => s.sendMsg k m
    | none => s) s
  s.failUnreached

/-- A port trains again: its retry buffer is kept. -/
def State.retrain (s : State) (n : Nat) : State :=
  (s.setPort n fun p => { p with lanes := 0, peerLanes := 8, fails := 0, resends := 0, trainAt := none }).enterPort n .training

def execPortEnable (port : Nat) (s : State) : Out :=
  .next (if 16 ≤ port ∨ (s.port port).st ≠ .down then s else s.retrain port)

def State.trainFail (s : State) (n : Nat) : State :=
  if (s.port n).fails = 2 then s.movePort n .failed
  else s.setPort n fun p => { p with fails := p.fails + 1, trainAt := some (s.ns + 1000000) }

/-- Whether training is under way: not in the 1 ms after a failure. -/
def State.trains (s : State) (n : Nat) : Bool :=
  (s.port n).st == .training && (match (s.port n).trainAt with | some t => decide (t ≤ s.ns) | none => true)

/-- Fewer than two good lanes are a failure. -/
def execPortTrainingEnd (port lanes : Nat) (s : State) : Out :=
  if !s.trains port then .next s
  else
    let good := min lanes (s.port port).peerLanes
    if good < 2 then .next (s.trainFail port)
    else
      let n := if 8 ≤ good then 8 else if 4 ≤ good then 4 else 2
      let s := s.setPort port fun p => { p with lanes := n, fails := 0, resends := 0, trainAt := none }
      let s := (s.enterPort port (if n = 8 then .up else .degraded))
      .next ((s.resend port).pump port)

def execPortTrainingFail (port : Nat) (s : State) : Out := .next (if s.trains port then s.trainFail port else s)

def execPortLaneLost (port : Nat) (s : State) : Out := .next (if (s.port port).carries then s.retrain port else s)

def execPortDisable (port : Nat) (s : State) : Out := .next (if 16 ≤ port then s else s.movePort port .down)

def execPortReset (port : Nat) (s : State) : Out :=
  .next (if (s.port port).st = .failed then s.enterPort port .down else s)

/-! ### Link control and time (R403, R406) -/

/-- A keepalive carries nothing but its number. -/
def execLinkKeepalive (_port : Nat) (s : State) : Out := .next s

/-- The partner's good lanes bound the width that training ends with. -/
def execLinkWidth (port lanes : Nat) (s : State) : Out :=
  .next (if (s.port port).st = .training then s.setPort port fun p => { p with peerLanes := lanes } else s)

def execLinkPause (port : Nat) (s : State) : Out := .next (s.setPort port fun p => { p with paused := true })

def execLinkResume (port : Nat) (s : State) : Out :=
  .next (State.pump (s.setPort port fun p => { p with paused := false }) port)

/-- PTP_EVENT_MESSAGE: the offset from the grandmaster as measured. -/
def execPtpEventMessage (port : Nat) (offsetNs : Int) (s : State) : Out :=
  .next (if (s.port port).carries then { s with net := { s.net with ptpOff := offsetNs, holdover := false } } else s)

/-- GRANDMASTER_LOSS: the clock goes on without a step. -/
def execGrandmasterLoss (s : State) : Out := .next { s with net := { s.net with holdover := true } }

/-- The MAC of a chip as some context's table gives it. -/
def State.macOf (s : State) (chip : BitVec 32) : BitVec 48 :=
  ((s.ctl.ctxs.findSome? fun e => e.2.peers.find? fun p => p.chip == chip).map Peer.mac).getD 0

/-- Answer a request. -/
def State.respond (s : State) (port ctx : Nat) (src tag : BitVec 32) (status : Nat) (hint : BitVec 8) (old : Word)
    (data : List Byte) : State :=
  s.sendMsg port (addressed (s.macOf src) (BitVec.ofNat 16 (2 ^ port)) (respFlits ⟨status, hint, ctx, tag, old, data⟩))

/-! ### Serving a peer (R333, R409) -/

/-- The context that serves a request, if it does. -/
def State.admits (s : State) (q : LinkReq) : Bool :=
  let c := s.ctxOf q.ctx
  c.st != .free && c.st != .tornDown && c.peers.any fun p => p.chip == q.src

def State.answer (s : State) (port : Nat) (q : LinkReq) (status : Nat) (old : Word := 0) (data : List Byte := []) : State :=
  s.respond port q.ctx q.src q.tag status (if status = 1 then s.mem.hint else 0) old data

/-- What translating the pages of a request gives. -/
inductive LinkX where
  | ok (xs : List (Xlate × Piece)) (s : State)
  | reject
  | refuse (s : State)
  | hold (s : State)

/-- Whether a page of a context has a valid leaf that is pinned. -/
def State.pinnedAt (s : State) (ctx : Nat) (va : Word) : Bool :=
  match s.walk ctx va with | .leaf _ e _ => leafPin e | _ => false

/-- Translate for a link engine: a page that is not resident, or in REQUESTED or MOVING, is refused and asked for. A write
to a pinned page that is shared is not refused but waits for its page (DESIGN CHOICE, assumption log 44). -/
def State.linkXlate (ctx : Nat) (wr : Bool) : List Piece → State → LinkX
  | [], s => .ok [] s
  | p :: ps, s =>
    let refuse := fun (va : Word) (code : Nat) => LinkX.refuse (s.requestPage ctx va code (b2n wr + 4) none).2
    if !canonical p.1 then .reject
    else if (s.mem.request? ctx p.1).isSome ∧ !s.pinnedAt ctx p.1 then refuse p.1 1
    else match s.translate ctx [] none p.1 (if wr then .write else .read) with
      | .ok x t =>
        if x.desc ∨ x.home = 2 then .reject
        else match State.linkXlate ctx wr ps t with
          | .ok xs u => .ok ((x, p) :: xs) u
          | r => r
      | .fault f =>
        if f.code = 3 then .reject
        else if s.pinnedAt ctx p.1 then .hold (s.requestPage ctx f.va f.code (b2n wr + 4) none).2
        else refuse f.va f.code
      | .moving => refuse p.1 1
      | .absent => .reject

/-- Serve a request: malformed 3, rejected 2, refused 1, else what the body does with its pages. -/
def State.serve (s : State) (port : Nat) (q : LinkReq) (ok wr : Bool) (ps : List Piece)
    (body : List (Xlate × Piece) → State → State) : Out :=
  if !ok ∨ 4096 ≤ q.ctx then .next (s.answer port q 3)
  else if !s.admits q then .next (s.answer port q 2)
  else match State.linkXlate q.ctx wr ps s with
    | .ok xs t => .next (body xs t)
    | .reject => .next (s.answer port q 2)
    | .refuse t => .next (t.answer port q 1)
    | .hold t => .next { t with net := { t.net with kept := t.net.kept ++ [(port, q)] } }

/-- Write the parts of some data at translated pieces, each changed by f with the bytes that stand there. -/
def State.linkPut (f : List Byte → List Byte → List Byte) (xs : List (Xlate × Piece)) (data : List Byte) (s : State) : State :=
  (xs.foldl (fun (a : State × List Byte) e =>
    let b := f (a.1.mem.bytes e.1.home e.1.pa e.2.2) (a.2.take e.2.2)
    ({ a.1 with mem := a.1.mem.put e.1.home e.1.pa b }, a.2.drop e.2.2)) (s, data)).1

/-- Data sizes of a request that carries some. -/
def reqCarries (q : LinkReq) : Bool := q.data.length == q.len && decide (q.len ≤ 1216) && q.opd == 0 && q.opd2 == 0

def execLinkWrite (port : Nat) (q : LinkReq) (s : State) : Out :=
  s.serve port q (q.opk == 0 && q.opa == 0 && q.fmt == 0 && reqCarries q) true (pagePieces q.rva q.len) (fun xs t =>
    (t.linkPut (fun _ b => b) xs q.data).answer port q 0)

/-- Formats of reductions (R407). -/
def redFmt (n : Nat) : Option Fmt := if n = 1 ∨ n = 2 ∨ n = 3 ∨ n = 10 then Fmt.ofCode n else none

/-- SUM, MAX or MIN of two encodings (R409). -/
def reduce (f : Fmt) (red x y : Nat) : Nat :=
  match red with
  | 0 => if f = .s32 then (x + y) % 2 ^ 32 else round (Val.add 0 (exact f x) (exact f y)) f 0
  | 1 => maxEnc f false x y
  | _ => maxEnc f true x y

/-- Reduce two byte strings element by element. -/
def reduceBytes (f : Fmt) (red : Nat) (old new : List Byte) : List Byte :=
  let k := f.bits / 8
  (tab (new.length / k) fun i => leBytes k (reduce f red (field old (k * i) k) (field new (k * i) k))).flatten

def execLinkWriteRed (port : Nat) (q : LinkReq) (s : State) : Out :=
  let f := (redFmt q.fmt.toNat).getD .s32
  let k := f.bits / 8
  s.serve port q (q.opk == 1 && decide (q.opa.toNat ≤ 2) && (redFmt q.fmt.toNat).isSome && reqCarries q &&
      q.rva.toNat % k == 0 && q.len % k == 0) true (pagePieces q.rva q.len) (fun xs t =>
    (t.linkPut (reduceBytes f q.opa.toNat) xs q.data).answer port q 0)

def execLinkRead (port : Nat) (q : LinkReq) (s : State) : Out :=
  s.serve port q (q.opk == 2 && q.opa == 0 && q.fmt == 0 && q.data.isEmpty && decide (q.len ≤ 1216) && q.opd == 0 && q.opd2 == 0)
    false (pagePieces q.rva q.len) (fun xs t =>
    t.answer port q 0 0 ((xs.map fun e => t.mem.bytes e.1.home e.1.pa e.2.2).flatten))

/-- NOTIFY: an add of 8 bytes at the counter's home engine, which answers; an index of NCNT or more is rejected. -/
def execLinkNotify (port : Nat) (q : LinkReq) (s : State) : Out :=
  let k := q.rva.toNat % 2 ^ 32
  let c := s.ctxOf q.ctx
  let ok := q.opk == 3 && q.opa == 0 && q.fmt == 0 && q.data.isEmpty && q.len == 0 && q.opd2 == 0 && decide (q.rva.toNat < 2 ^ 32)
  if ok ∧ s.admits q ∧ c.record.ncnt ≤ k then .next (s.answer port q 2)
  else s.serve port q ok true [(counterVa c k, 8)] (fun xs t =>
    match xs with
    | [] => t
    | e :: _ => t.queueAtom
        { eng := atomEngine e.1.home e.1.pa, since := t.clock, key := 2 ^ 20 + port, tag := q.tag, chip := q.src,
          owner := 2 ^ 20 + port, core := none, ctx := q.ctx, kern := 65536, op := 0, size := 8, home := e.1.home, pa := e.1.pa,
          opd := q.opd, new := 0, post := true, old := none })

/-- ATOMIC: queued at the home engine, which answers. -/
def execLinkAtomic (port : Nat) (q : LinkReq) (s : State) : Out :=
  let a := q.opa.toNat
  let n := if a / 16 % 2 = 1 then 8 else 4
  let cas := decide (a / 32 % 2 = 1)
  let op := if cas then 10 else a % 16
  let ok := q.opk == 4 && q.fmt == 0 && decide (a < 64) && decide (a % 16 ≤ 9) && (!cas || a % 16 == 0) &&
    !(op == 9 && n == 8) && q.data.isEmpty && q.len == 0 && (cas || q.opd2 == 0) && q.rva.toNat % n == 0
  s.serve port q ok true [(q.rva, n)] (fun xs t =>
    match xs with
    | [] => t
    | e :: _ =>
      if e.1.home = 1 ∧ op ≠ 0 ∧ op ≠ 8 ∧ op ≠ 10 then t.answer port q 2
      else t.queueAtom
        { eng := atomEngine e.1.home e.1.pa, since := t.clock, key := 2 ^ 20 + port, tag := q.tag, chip := q.src,
          owner := 2 ^ 20 + port, core := none,
          ctx := q.ctx, kern := 65536, op, size := n, home := e.1.home, pa := e.1.pa, opd := q.opd, new := q.opd2,
          post := false, old := none })

/-- ATOMIC_ENGINE_SERVE: one operation a tick; a link's is answered at once; after a released entry of a strand's buffer
its release goes on. -/
def execAtomicEngineServe (eng : Nat) (s : State) : Out :=
  match nextAtom eng s.clock s.mem.atoms with
  | none => .next s
  | some r =>
    let again := fun (s : State) =>
      if s.mem.atoms.any fun q => q.eng == eng && q.old.isNone then s.postOnce .atomicEngineServe eng else s
    let v := s.mem.atomic r.home r.pa r.op r.size r.opd r.new
    let s := { s with mem := v.2.touchLine eng r.home r.pa }
    let s := if eng < 64 then s.countEvents (eng / 16) r.ctx r.kern 0 (atomicEvents r.op v.1 r.opd) else s
    let link := decide (2 ^ 20 ≤ r.key ∧ r.key < 2 ^ 20 + 16)
    let served := fun (q : AtomReq) => if q = r then { q with old := some v.1 } else q
    let agent := decide (2 ^ 43 ≤ r.key)
    let atoms := if link || r.post then s.mem.atoms.erase r else s.mem.atoms.map served
    let s := { s with mem := { s.mem with atoms } }
    .next (again (if link then s.respond (r.key - 2 ^ 20) r.ctx r.chip r.tag 0 0 (if r.post then 0 else v.1) []
      else if r.post && !agent then s.at r.key State.releaseRest else s))

/-- The rank of a chip in a context's table. -/
def Context.rankOf (c : Context) (chip : BitVec 32) : Option Nat := (c.peers.find? fun p => p.chip == chip).map Peer.rank

/-- Tree parent (R370). -/
def treeParent (r : Nat) : Option Nat := if r = 0 then none else some ((r - 1) / 2)

/-- AGREE: kept until the collective of its number can answer (R412). A message of no tree child, or of a collective that
is over, is rejected. -/
def execLinkAgree (port : Nat) (q : LinkReq) (s : State) : Out :=
  let c := s.ctxOf q.ctx
  let ok := q.opk == 5 && decide (q.opa.toNat ≤ 4) && q.data.length == q.len && decide (q.len ≤ 1232) && q.opd2 == 0 &&
    getBits q.opd 24 8 == 0
  s.serve port q ok false [] (fun _ t =>
    let mine := t.net.colls.find? fun e => e.2.ctx == q.ctx && e.2.n == q.rva.toNat
    if (c.rankOf q.src).bind treeParent ≠ some c.rank ∨ (mine.isNone ∧ q.rva.toNat < c.colls) then t.answer port q 2
    else
      let t := { t with net := { t.net with agrees := t.net.agrees ++ [(port, q)] } }
      match mine with
      | some e => t.postOnce .collectiveExpand e.1
      | none => t)

/-! ### This device's own requests (R333, R405) -/

/-- The delay that a hint stands for, in ns. -/
def hintNs (h : BitVec 8) : Nat := 1000 * (8 + h.toNat % 8) * 2 ^ (h.toNat / 8) / 8

/-- A NOTIFY waits for the earlier entries of its chain to the same rank (R409). -/
def State.notifyWaits (s : State) (r : Remote) : Bool :=
  r.opk == 3 &&
    match if 2 ^ 40 ≤ r.key then SMap.get? s.net.work (r.key - 2 ^ 40) else none with
    | some w => s.net.work.any fun e => decide (e.1 < r.key - 2 ^ 40) && e.2.hand == w.hand && e.2.e.rank == r.rank
    | none => false

/-- The port of a request: that of its chain while it carries; else a share. -/
def State.pickPort (s : State) (r : Remote) (m : BitVec 16) : Option Nat :=
  let old := if 2 ^ 40 ≤ r.key then (SMap.get? s.net.work (r.key - 2 ^ 40)).bind fun w => SMap.get? w.routes r.rank else none
  match old with
  | some n => if (s.port n).carries then some n else s.share m r.tag
  | none => s.share m r.tag

/-- A chain keeps the port that one of its requests has taken. -/
def State.keepRoute (s : State) (r : Remote) (port : Nat) : State :=
  match if 2 ^ 40 ≤ r.key then SMap.get? s.net.work (r.key - 2 ^ 40) else none with
  | some w => { s with net := { s.net with work := s.net.work.map fun e =>
      if e.2.hand = w.hand then (e.1, { e.2 with routes := SMap.set e.2.routes r.rank port }) else e } }
  | none => s

def Remote.request (r : Remote) (chip : BitVec 32) : LinkReq :=
  { opk := r.opk, opa := BitVec.ofNat 8 r.opa, fmt := BitVec.ofNat 8 r.fmt, ctx := r.ctx, src := chip, tag := BitVec.ofNat 32 r.tag,
    rva := r.rva, len := if r.opk = 2 then r.n else r.bytes.length, opd := r.opd, opd2 := r.opd2, data := r.bytes }

def State.sendRemote (s : State) (r : Remote) (p : Peer) (port : Nat) : State :=
  let s := s.keepRoute r port
  let sent := fun (q : Remote) => if q.tag = r.tag then { q with sentAt := some s.ns, port := some port } else q
  let s := { s with net := { s.net with remote := s.net.remote.map sent } }
  s.sendMsg port (addressed p.mac p.reach (reqFlits (r.request s.ctl.fw.chip)))

/-- REMOTE_REFUSAL_RETRY: a request is sent for the first time, or again once its delay has passed. -/
def execRemoteRefusalRetry (tag : Nat) (s : State) : Out :=
  let again := s.postOnce .remoteRefusalRetry tag
  match s.net.remote.find? fun r => r.tag == tag with
  | none => .next s
  | some r =>
    if r.ans.isSome ∨ r.sentAt.isSome then .next s
    else if s.ns < r.due ∨ s.notifyWaits r then .next again
    else match s.peer r.ctx r.rank with
      | none => .next (s.answerRemote r 3 [] 0)
      | some p =>
        if !s.reaches p.reach then .next (s.answerRemote r 3 [] 0)
        else match s.pickPort r p.reach with
          | none => .next again
          | some port => .next (s.sendRemote r p port)

/-- LINK_RESPONSE: performed, refused, rejected or malformed. -/
def execLinkResponse (_port : Nat) (p : LinkResp) (s : State) : Out :=
  match s.net.remote.find? fun r => r.tag == p.tag.toNat && r.ctx == p.ctx && r.ans.isNone && r.sentAt.isSome with
  | none => .next s.ignored
  | some r =>
    match p.status with
    | 0 => .next (s.answerRemote r 0 p.data p.old)
    | 1 =>
      if r.since + (s.ctxOf r.ctx).holdNs < s.ns then .next (s.answerRemote r 5 [] 0)
      else
        let due := s.ns + hintNs p.hint
        .next (State.postOnce { s with net := { s.net with remote := s.net.remote.map fun q =>
          if q.tag = r.tag then { q with sentAt := none, due } else q } } .remoteRefusalRetry r.tag)
    | 2 => .next (s.answerRemote r 4 [] 0)
    | 3 => .next (s.answerRemote r 2 [] 0)
    | _ => .next s.ignored

/-! ### Receiving a frame (R401 to R403) -/

/-- Flits of a frame with its SEQ, ACK and NAK; none when it is malformed. -/
def parseFrame (b : List Byte) : Option (Nat × Nat × Bool × List (List Byte)) :=
  let h := b.drop 14
  let nfl := field h 1 1
  if field h 0 1 = 1 ∧ 1 ≤ nfl ∧ nfl ≤ 23 ∧ h.length = 8 + 64 * nfl ∧ field h 2 2 < 4096 ∧ field h 4 2 / 4096 % 8 = 0 ∧
     field h 6 2 = 0 then
    some (field h 2 2, field h 4 2 % 4096, decide (32768 ≤ field h 4 2), tab nfl fun i => (h.drop (8 + 64 * i)).take 64)
  else none

/-- The flits that are accepted in order from number next on, and whether one was not. -/
def acceptFlits : Nat → Nat → List (List Byte) → List (List Byte) × Bool
  | _, _, [] => ([], false)
  | next, seq, f :: fs =>
    if seq % 4096 = next % 4096 ∧ flitOk f then
      let r := acceptFlits (next + 1) (seq + 1) fs
      (f :: r.1, r.2)
    else ([], true)

def zeros (f : List Byte) (off n : Nat) : Bool := ((f.drop off).take n).all (· == 0)

/-- A request as its flits hold it; none when a reserved field is not zero or its sizes do not fit. -/
def parseRequest (f : List Byte) (ds : List (List Byte)) : Option LinkReq :=
  let opk := field f 2 1
  let len := field f 24 4
  let carried := opk == 0 || opk == 1 || opk == 5
  if zeros f 1 1 ∧ field f 6 2 < 4096 ∧ zeros f 28 4 ∧ zeros f 48 12 ∧
     ds.length = (if carried then (len + 55) / 56 else 0) then
    some { opk, opa := BitVec.ofNat 8 (field f 3 1), fmt := BitVec.ofNat 8 (field f 4 1), ctx := field f 6 2,
           src := BitVec.ofNat 32 (field f 8 4), tag := BitVec.ofNat 32 (field f 12 4), rva := w64 (field f 16 8), len,
           opd := w64 (field f 32 8), opd2 := w64 (field f 40 8), data := gatherData len ds }
  else none

def parseResponse (f : List Byte) (ds : List (List Byte)) : Option LinkResp :=
  if zeros f 1 1 ∧ field f 2 1 ≤ 3 ∧ (field f 2 1 = 1 ∨ zeros f 3 1) ∧ zeros f 5 1 ∧ field f 6 2 < 4096 ∧ zeros f 24 36 ∧
     ds.length = (field f 12 4 + 55) / 56 then
    some { status := field f 2 1, hint := BitVec.ofNat 8 (field f 3 1), ctx := field f 6 2,
           tag := BitVec.ofNat 32 (field f 8 4), old := w64 (field f 16 8), data := gatherData (field f 12 4) ds }
  else none

/-- A unit's step taken as part of another. -/
def State.after (s : State) (f : State → Out) : State := match f s with | .next t => t | _ => s

/-- What a request asks for. -/
def requestStep (port : Nat) (q : LinkReq) : Option (State → Out) :=
  match q.opk with
  | 0 => some (execLinkWrite port q) | 1 => some (execLinkWriteRed port q) | 2 => some (execLinkRead port q)
  | 3 => some (execLinkNotify port q) | 4 => some (execLinkAtomic port q) | 5 => some (execLinkAgree port q) | _ => none

/-- The requests that wait for a pinned page are tried again. -/
def State.retryKept (s : State) : State :=
  s.net.kept.foldl (fun s e => match requestStep e.1 e.2 with | some f => s.after f | none => s)
    { s with net := { s.net with kept := [] } }

/-- A whole message has come in. -/
def State.messageIn (s : State) (port : Nat) (f : List Byte) (ds : List (List Byte)) : State :=
  if field f 0 1 = 1 then
    match (parseRequest f ds).bind (requestStep port) with
    | some f => s.after f
    | none => s.respond port (field f 6 2 % 4096) (BitVec.ofNat 32 (field f 8 4)) (BitVec.ofNat 32 (field f 12 4)) 3 0 0 []
  else match parseResponse f ds with
    | some p => s.after (execLinkResponse port p)
    | none => s.ignored

/-- A link-control flit. -/
def State.controlIn (s : State) (port : Nat) (f : List Byte) : State :=
  let arg := field f 3 1
  if !(zeros f 1 1 && zeros f 4 56) then s.ignored
  else match field f 2 1 with
    | 0 => if arg = 0 then s.after (execLinkKeepalive port) else s.ignored
    | 1 => if arg = 2 ∨ arg = 4 ∨ arg = 8 then s.after (execLinkWidth port arg) else s.ignored
    | 2 => if arg = 0 then s.after (execLinkPause port) else s.ignored
    | 3 => if arg = 0 then s.after (execLinkResume port) else s.ignored
    | _ => s.ignored

/-- Data flits that a first flit announces. -/
def announced (f : List Byte) : Nat := if field f 0 1 = 1 then field f 5 1 else field f 4 1

/-- The first flit of a message, or a flit of its own. -/
def State.firstFlit (s : State) (port : Nat) (f : List Byte) : State :=
  match field f 0 1 with
  | 0 => if zeros f 1 1 then s else s.ignored
  | 4 => s.controlIn port f
  | 1 | 3 =>
    if announced f = 0 ∨ 22 < announced f then s.messageIn port f []
    else s.setPort port fun p => { p with part := [f] }
  | _ => s.ignored

def State.flitIn (port : Nat) (s : State) (f : List Byte) : State :=
  match (s.port port).part with
  | [] => s.firstFlit port f
  | h :: ds =>
    if field f 0 1 ≠ 2 ∨ !(zeros f 1 1 && zeros f 3 1) ∨ field f 2 1 ≠ ds.length then
      State.firstFlit (s.setPort port fun p => { p with part := [] }) port f
    else if ds.length + 1 < announced h then s.setPort port fun p => { p with part := p.part ++ [f] }
    else State.messageIn (s.setPort port fun p => { p with part := [] }) port h (ds ++ [f])

/-- An acknowledgment on its own: a frame of one idle flit. -/
def State.sendAck (s : State) (port : Nat) (mac : List Byte) : State :=
  let p := s.port port
  if p.sends && p.out.isEmpty then s.sendMsg port [mac ++ leBytes 2 (2 ^ port) ++ mkFlit 0 []] else s

/-- OBDAOK_FRAME_RECEIVE. -/
def execObdaokFrameReceive (port : Nat) (frame : List Byte) (s : State) : Out :=
  let p := s.port port
  if !p.carries ∨ beNat ((frame.drop 12).take 2) ≠ s.ctl.fw.etherType.toNat then .next s
  else match parseFrame frame with
    | none => .next s.ignored
    | some (seq, ack, nak, fs) =>
      let s := s.setPort port fun p => p.acked ack
      let s := if nak then
          (let t := s.resend port
           let again := (t.port port).resends + 1
           if 8 ≤ again then t.retrain port else t.setPort port fun p => { p with resends := again })
        else s
      let r := acceptFlits (p.rxSeq + 1) seq fs
      let s := s.setPort port fun p => { p with rxSeq := (p.rxSeq + r.1.length) % 4096, nak := r.2 }
      let s := r.1.foldl (State.flitIn port) s
      .next ((if r.2 || r.1.any fun f => field f 0 1 != 0 then s.sendAck port ((frame.drop 6).take 6) else s).pump port)

end Sys2Proof.Machine
end

