-- ==== Sys2Proof/Machine/Work.lean ====
section
/-! DEFINITION. Work entries (R407 to R409) and link handles with their instructions (R414 to R418). -/

namespace Sys2Proof.Machine

/-! ### Records (R407, R411) -/

def noCounter : W32 := 0xFFFFFFFF

def qpeOf (b : List Byte) : Qpe :=
  { op := field b 0 1, red := field b 1 1, fmt := field b 2 1, flags := field b 3 1, rank := field b 4 2, rsv := field b 6 2,
    lva := w64 (field b 8 8), rva := w64 (field b 16 8), len := w64 (field b 24 8), armk := BitVec.ofNat 32 (field b 32 4),
    cmpk := BitVec.ofNat 32 (field b 36 4), armt := w64 (field b 40 8), cinc := w64 (field b 48 8), next := w64 (field b 56 8) }

/-- A counter index that names none of the context's counters. -/
def badCounter (c : Context) (k : W32) : Bool := k != noCounter && decide (c.record.ncnt ≤ k.toNat)

/-- Bytes of an element of a format code. -/
def elemBytes (fmt : Nat) : Nat := ((redFmt fmt).map fun f => f.bits / 8).getD 1

/-- The offset of the first field of a work entry that is malformed (R416). -/
def qpeBad (c : Context) (arm : Bool) (e : Qpe) : Option Nat :=
  let k := if e.op = 1 then elemBytes e.fmt else 1
  let checks : List (Nat × Bool) := [
    (0, decide (3 < e.op)),
    (1, if e.op = 1 then decide (2 < e.red) else e.red != 0),
    (2, if e.op = 1 then (redFmt e.fmt).isNone else e.fmt != 0),
    (3, e.flags != 0),
    (4, decide (c.peers.length ≤ e.rank)),
    (6, e.rsv != 0),
    (8, e.lva.toNat % k != 0),
    (16, if e.op = 3 then decide (2 ^ 32 ≤ e.rva.toNat) else e.rva.toNat % k != 0),
    (24, e.op != 3 && (decide (2 ^ 32 < e.len.toNat) || e.len.toNat % k != 0)),
    (32, badCounter c e.armk || (arm && e.armk == noCounter)),
    (36, badCounter c e.cmpk),
    (56, e.next.toNat % 64 != 0)]
  (checks.find? fun p => p.2).map (·.1)

/-- The same for a collective descriptor. -/
def collBad (c : Context) (b : List Byte) : Option Nat :=
  let k := elemBytes (field b 2 1)
  let flags := field b 3 1
  let checks : List (Nat × Bool) := [
    (0, decide (4 < field b 0 1)),
    (1, decide (2 < field b 1 1)),
    (2, (redFmt (field b 2 1)).isNone),
    (3, flags / 2 % 4 == 3 || flags / 8 != 0),
    (4, decide (c.peers.length ≤ field b 4 2)),
    (6, field b 6 2 != 0),
    (8, field b 8 8 % k != 0),
    (16, flags % 2 == 0 && field b 16 8 % k != 0),
    (24, field b 24 8 % 4 != 0),
    (32, badCounter c (BitVec.ofNat 32 (field b 32 4))),
    (36, badCounter c (BitVec.ofNat 32 (field b 36 4))),
    (56, field b 56 8 != 0)]
  (checks.find? fun p => p.2).map (·.1)

/-! ### Handles (R414) -/

/-- Change the handle of a use, wherever its strand is. -/
def State.updHandle (s : State) (key id : Nat) (f : LinkH → LinkH) : State :=
  s.anyStrand key fun t => { t with hand := t.hand.map fun h => if h.held ∧ h.id = id then f h else h }

/-- A handle without any failure is done when its chain is accepted and nothing of it is left. -/
def State.settleHandle (s : State) (key id : Nat) : State :=
  if s.net.work.any (fun e => e.2.hand == id) || s.net.colls.any (fun e => e.2.hand == id) then s
  else s.updHandle key id fun h => if h.opened ∨ h.status ≠ 0 then h else { h with status := 1 }

/-- The first failure of a handle is its status. -/
def State.failHandle (s : State) (key id status : Nat) : State :=
  s.updHandle key id fun h => if h.status = 0 then { h with status } else h

/-- One more entry of a handle is complete. -/
def State.countHandle (s : State) (key id : Nat) : State := s.updHandle key id fun h => { h with done := h.done + 1 }

/-! ### Acceptance (R416) -/

/-- A record of 64 bytes, read on LK: buffered stores are not seen. -/
def linkRecord (va : Word) : Act (List Byte) := (xlate va .read).bind fun x =>
  if x.home = 2 then readAt x va 64
  else fun s => if s.mem.poisoned x.home x.pa 64 then .stop (.uncorr .device va s) else .ok (s.mem.bytes x.home x.pa 64) s

/-- Acceptance is over: the instruction's signals are owed, the handle waits for its entries. -/
def State.accepted (s : State) (o : AsyncOp) (hand : Nat) : State :=
  ((s.completeOp o).updHandle s.cur.key hand fun h => { h with opened := false }).settleHandle s.cur.key hand

/-- A malformed record stops acceptance. -/
def State.badRecord (s : State) (o : AsyncOp) (hand : Nat) (va : Word) (off : Nat) : State :=
  let s := (s.failHandle s.cur.key hand 2).updHandle s.cur.key hand fun h => { h with opened := false }
  (s.abandonOp o).lateTrap o.g tCOLLECTIVE [va, w64 off]

/-- Add an entry behind the one before it in its chain; it is armed at once unless that one is still to fire. -/
def State.addEntry (s : State) (hand : Nat) (va : Word) (arm : Bool) (last : Option Nat) (e : Qpe) : Nat × State :=
  let id := s.net.nextW
  let before := match last with
    | some n => if (SMap.get? s.net.work n).any fun w => !w.fired then some n else none
    | none => none
  let w : WorkEnt := { ctx := s.cur.sys.ctx.toNat, key := s.cur.key, hand, va, e, arm, phase := s.cur.sys.phasen, prev := before,
                       fired := false, status := 0, routes := ((last.bind (SMap.get? s.net.work)).map WorkEnt.routes).getD [] }
  (id, State.post { s with net := { s.net with work := SMap.set s.net.work id w, nextW := id + 1 } } .workEntryFire id)

/-- The next number of a context's collectives (R410). -/
def State.addColl (s : State) (hand : Nat) (b : List Byte) : State :=
  let id := s.net.nextW
  let ctx := s.cur.sys.ctx.toNat
  let c : Coll := { ctx, key := s.cur.key, hand, n := s.curCtx.colls, desc := b, stage := 0, counts := [], data := [], agreed := [] }
  let s := { s with net := { s.net with colls := SMap.set s.net.colls id c, nextW := id + 1 } }
  State.post (s.setCtx ctx fun c => { c with colls := c.colls + 1 }) .collectiveExpand id

/-- One step of acceptance: the record at VA. A failed chain arms no more; a device that holds 65,536 entries waits. -/
def acceptStep (k : Nat) (o : AsyncOp) : Act Unit :=
  match o.kind with
  | .accept va coll arm hand last => Act.get.bind fun s =>
    if s.cur.hand.any fun h => h.held && h.id == hand && h.status != 0 then Act.modify fun s => s.accepted o hand
    else if coll then (linkRecord va).bind fun b => Act.modify fun s =>
      match collBad s.curCtx b with
      | some off => s.badRecord o hand va off
      | none => (s.addColl hand b).accepted o hand
    else if Config.armedEntries ≤ s.net.work.length then Act.wait 0
    else (linkRecord va).bind fun b => Act.modify fun s =>
      let e := qpeOf b
      match qpeBad s.curCtx arm e with
      | some off => s.badRecord o hand va off
      | none =>
        let r := s.addEntry hand va arm last e
        if e.next = 0 then r.2.accepted o hand
        else State.post ((r.2.unhold o.g (some o.id)).setCur fun t => t.updOp o.id fun o =>
          { o with kind := .accept e.next coll arm hand (some r.1) }) .linkChainAcceptance k o.id
  | _ => Act.pure ()

/-- LINK_CHAIN_ACCEPTANCE. -/
def execLinkChainAcceptance (k op : Nat) (s : State) : Out := runOp k op .linkChainAcceptance (acceptStep k) (fun _ s => s) s

/-! ### XCPOST, XCARM, XCWAIT, XCQRY -/

/-- Post a chain or collective: XCPOST releases the buffer, XCARM does not. -/
def postLinks (r : Ring) (opc : Nat) (o : F3) (coll arm : Bool) : State → Out :=
  issue { r.issue .a opc 1 [o.a] [.reg o.d] 1 with async := true } fun vs =>
    let va := vs.headD 0
    (Act.check (va.toNat % 64 == 0) tALIGN []).andThen <|
    (Act.check (canonical va) tPROTECT [va]).andThen <| Act.get.bind fun s =>
    match s.cur.hand.findIdx? fun h => !h.held with
    | none => (startAct .a opc r (.accept va coll arm 0 none) [] none).andThen (result o.d Word.ones)
    | some i =>
      (if arm then Act.pure () else unrepeatAct).andThen <| Act.get.bind fun s =>
      let id := s.net.nextW
      (Act.modify fun s => State.setCur { s with net := { s.net with nextW := id + 1 } } fun t =>
        { t with hand := t.hand.set i ⟨true, id, 0, 0, true⟩ }).andThen <|
      (startAct .a opc r (.accept va coll arm id none) [] (some .linkChainAcceptance)).andThen (result o.d (w64 i))

def execXcpost (r : Ring) (o : F3) (s : State) : Out := postLinks r 0x90 o (flag o.s 0) false s
def execXcarm (r : Ring) (o : F3) (s : State) : Out := postLinks r 0x91 o false true s

/-- The handle that a register names, when it is held. -/
def heldHandle (a : Word) : Act LinkH := Act.get.bind fun s =>
  let h := s.cur.hand.getD a.toNat .free
  (Act.check (decide (a.toNat < 16) && h.held) tRANGE [a]).andThen (Act.pure h)

def execXcwait (r : Ring) (o : F3) (s : State) : Out :=
  issue (r.issue .a 0x92 1 [o.a] [.reg o.d] 1) (fun vs =>
    let a := vs.headD 0
    (heldHandle a).bind fun h => (holdWait .a (h.status != 0) [a]).andThen <|
    (Act.modify fun s => s.setCur fun t => { t with hand := t.hand.set a.toNat .free }).andThen <|
    result o.d (w64 h.status)) s

/-- XCWAIT_TIMEOUT (R417). -/
def execXcwaitTimeout (k : Nat) (s : State) : Out :=
  retake k true (fun i => match i with | .xcwait r o => some (execXcwait r o) | _ => none) s

/-- What XCQRY returns (R418). -/
def State.linkQuery (s : State) (sel a : Nat) : Word :=
  match sel with
  | 0 =>
    let h := s.cur.hand.getD a .free
    w64 ((if h.held then h.status else 255) + (if h.held then h.done else 0) % 2 ^ 32 * 2 ^ 16)
  | 1 =>
    let p := s.port a
    w64 (p.st.code + p.lanes * 16 + p.resent % 2 ^ 32 * 2 ^ 32)
  | 2 => w64 (s.cur.hand.filter fun h => !h.held).length
  | _ => wordOf s.net.ptpOff

def execXcqry (r : Ring) (o : F3) (s : State) : Out :=
  issue (r.issue .a 0x93 1 [o.a] [.reg o.d] (if o.b.toNat % 2 = 1 then 40 else 1)) (fun vs =>
    let a := vs.headD 0
    (Act.check (decide (2 ≤ o.b.toNat) || decide (a.toNat < 16)) tRANGE [a]).andThen <| Act.get.bind fun s =>
    result o.d (s.linkQuery o.b.toNat a.toNat)) s

/-! ### Firing (R408) -/

/-- An entry fails: it leaves, with those of its chain that are not armed; it adds nothing to its counter. -/
def State.failEntry (s : State) (n : Nat) (w : WorkEnt) (status : Nat) : State :=
  let s := { s with net := { s.net with work := s.net.work.filter fun e => e.1 != n && !(e.2.hand == w.hand && e.2.prev.isSome) } }
  s.failHandle w.key w.hand status

/-- The requests of an entry that fires with its local data (R403, R409). -/
def entryRequests (w : WorkEnt) (n ns : Nat) (data : List Byte) : List Remote :=
  let e := w.e
  let base : Remote :=
    { paths := 0, opc := 0, va := e.rva, tag := 0, key := workKey n, ctx := w.ctx, rank := e.rank, opk := e.op, opa := 0, fmt := 0, rva := e.rva, n := 0, bytes := [],
      opd := 0, opd2 := 0, wait := false, ans := none, old := 0, status := 0, port := none, sentAt := none, due := ns, since := ns }
  let cuts := if e.len = 0 then [(0, 0)] else requestsOf e.rva.toNat e.len.toNat
  match e.op with
  | 3 => [{ base with opd := e.len }]
  | 2 => cuts.map fun p => { base with rva := e.rva + w64 p.1, n := p.2 }
  | _ => cuts.map fun p => { base with rva := e.rva + w64 p.1, n := p.2, bytes := (data.drop p.1).take p.2, opa := e.red, fmt := e.fmt }

/-- A fire of an XCARM entry in its open phase makes the phase unrepeatable (R302). -/
def State.fireUnrepeats (s : State) (w : WorkEnt) : State :=
  if w.arm then s.at w.key fun u =>
    if u.cur.sys.phasen = w.phase ∧ u.cur.ph.rep ∧ u.cur.st ≠ .ended then u.unrepeat else u
  else s

/-- The entry fires: its requests go, and those behind it are armed. -/
def State.fireEntry (s : State) (n : Nat) (w : WorkEnt) (data : List Byte) : State :=
  let s := s.fireUnrepeats w
  let next := SMap.keys (s.net.work.filter fun e => e.2.prev == some n)
  let step := fun (e : WorkEnt) => if e.prev = some n then { e with prev := none } else e
  let work := (SMap.set s.net.work n { w with fired := true }).map fun e => (e.1, step e.2)
  let s := { s with net := { s.net with work } }
  let s := next.foldl (fun s k => s.postOnce .workEntryFire k) s
  (entryRequests w n s.ns data).foldl State.askPeer s

/-- Whether the strand that armed an entry is saved with the arming phase still open. -/
def State.armerAway (s : State) (w : WorkEnt) : Bool :=
  let mine := fun (t : Strand) => t.key == w.key && t.sys.phasen == w.phase
  w.arm && ((s.ctxOf w.ctx).stash.any mine ||
    s.work.groups.any fun g => g.pend.any fun p => (p.saved.map mine).getD false)

/-- WORK_ENTRY_FIRE: an armed entry tests its counter, reads its data and sends. -/
def execWorkEntryFire (n : Nat) (s : State) : Out :=
  let item : Post := ⟨.workEntryFire, n, 0⟩
  match SMap.get? s.net.work n with
  | none => .next s
  | some w =>
    if w.fired ∨ w.prev.isSome then .next s
    else if s.armerAway w then .next (s.repost item)
    else
      let e := w.e
      let test : Ag Bool := if e.armk = noCounter then Ag.pure true
        else (agentBytes w.ctx (counterVa (s.ctxOf w.ctx) e.armk.toNat) 8 item).bind fun b =>
          Ag.pure (decide (0 ≤ (w64 (leNat b) - e.armt).toInt))
      match test s with
      | .wait t => .next t
      | .drop t => .next (t.failEntry n w 4)
      | .ok false t => .next (t.repost item)
      | .ok true t =>
        match (if e.op ≤ 1 then agentBytes w.ctx e.lva e.len.toNat item else Ag.pure []) t with
        | .wait u => .next u
        | .drop u => .next (u.failEntry n w 4)
        | .ok data u => .next (u.fireEntry n w data)

/-- WORK_ENTRY_COMPLETE: every request is answered and every byte read is in local memory; CMPINC is added. -/
def execWorkEntryComplete (n : Nat) (s : State) : Out :=
  match SMap.get? s.net.work n with
  | none => .next s
  | some w =>
    if !w.fired ∨ s.net.remote.any (fun r => r.key == workKey n) then .next s
    else if s.mem.stores.any fun a => a.key == workKey n then .next (s.postOnce .workEntryComplete n)
    else if w.status ≠ 0 then .next (s.failEntry n w w.status)
    else
      let s := { s with net := { s.net with work := SMap.del s.net.work n } }
      let s := if w.e.cmpk = noCounter then s
        else s.agentPut w.key w.ctx (counterVa (s.ctxOf w.ctx) w.e.cmpk.toNat) [] (some w.e.cinc) noSource
      .next ((s.countHandle w.key w.hand).settleHandle w.key w.hand)

/-! ### After the last strand (R414) -/

/-- Link operations of a task are abandoned. -/
def State.abandonLinks (s : State) (id : Nat) : State :=
  let k := taskKey id
  let works := SMap.keys (s.net.work.filter fun e => e.2.key == k)
  let colls := SMap.keys (s.net.colls.filter fun e => e.2.key == k)
  { s with net := { s.net with
      work := s.net.work.filter fun e => e.2.key != k
      colls := s.net.colls.filter fun e => e.2.key != k
      remote := s.net.remote.filter fun r => !(r.key == k || (works.map workKey ++ colls.map collKey).contains r.key) } }

/-- LINK_HOLD_TIMEOUT. -/
def execLinkHoldTimeout (task : Nat) (s : State) : Out :=
  match s.task task with
  | none => .next s
  | some k =>
    match k.linkSince with
    | none => .next s
    | some t0 =>
      if !s.taskOut task then .next s
      else if s.ns - t0 < (s.ctxOf k.ctx).holdNs then .next (s.postOnce .linkHoldTimeout task)
      else .next (State.postOnce ((s.abandonLinks task).updTask task fun k =>
        { k with status := if k.status = 0 then 1 else k.status }) .taskRetire task)

end Sys2Proof.Machine
end

