-- ==== Sys2Proof/Machine/Collective.lean ====
section
/-! DEFINITION. Collectives (R410 to R413): the aligned-integer sum, the agreement over the tree of ranks, and what a
collective writes on this device. The traffic that a link processor's schedule sends besides agreement messages has no
layout in the manual; what other ranks contribute is a free value (assumption log 16). -/

namespace Sys2Proof.Machine

/-! ### The aligned-integer sum (R412) -/

def redWidth (f : Fmt) : Nat := if f = .f32 then 64 else 32

/-- 0 finite, 1 +Inf, 2 −Inf, 3 NaN. -/
def classOf : Val → Nat
  | .fin .. => 0 | .inf false => 1 | .inf true => 2 | .nan => 3

def joinClass (a b : Nat) : Nat := if a = 0 then b else if b = 0 ∨ a = b then a else 3

def joinExp : Option Int → Option Int → Option Int
  | some a, some b => some (max a b)
  | a, b => a.or b

/-- floor(log2 |x|) of a finite non-zero value. -/
def leadExp : Val → Option Int
  | .fin _ n d => if n = 0 then none else some (floorLog2 n d)
  | _ => none

/-- One block's exponent and the classes of its elements. -/
abbrev Agreed := Option Int × List Nat

def chunk64 {α : Type} (l : List α) : List (List α) := tab ((l.length + 63) / 64) fun i => (l.drop (64 * i)).take 64

def agreeOf (f : Fmt) (xs : List Nat) : List Agreed :=
  (chunk64 (xs.map (exact f))).map fun b => (b.foldl (fun e x => joinExp e (leadExp x)) none, b.map classOf)

def joinAgreed (a b : List Agreed) : List Agreed :=
  (a.zip b).map fun e => (joinExp e.1.1 e.2.1, (e.1.2.zip e.2.2).map fun c => joinClass c.1 c.2)

/-- q: the value over the unit 2^(E − W + 14), truncated toward zero. -/
def quantum (f : Fmt) (e : Int) : Val → Int
  | .fin s n d =>
    let k := e - redWidth f + 14
    let m := if 0 ≤ k then n / (d * 2 ^ k.toNat) else n * 2 ^ (-k).toNat / d
    if s then -(m : Int) else m
  | _ => 0

/-- The result of an element from its class and its integer sum. -/
def sumResult (f : Fmt) (e : Option Int) (cls : Nat) (sum : Int) : Nat :=
  match cls, e with
  | 0, none => 0
  | 0, some e => if sum = 0 then 0 else round (.dyadic (decide (sum < 0)) sum.natAbs (e - redWidth f + 14)) f 0
  | 1, _ => round (.inf false) f 0
  | 2, _ => round (.inf true) f 0
  | _, _ => round .nan f 0

/-- The reduction of one block over all ranks, as every rank receives it. -/
def reduceBlock (f : Fmt) (ranks : List (List Nat)) : List Nat :=
  match ranks.map fun x => (agreeOf f x).headD (none, []) with
  | [] => []
  | a :: as =>
    let g := as.foldl (fun (a : Agreed) b => (joinExp a.1 b.1, (a.2.zip b.2).map fun c => joinClass c.1 c.2)) a
    (tab g.2.length id).map fun j =>
      sumResult f g.1 (g.2.getD j 0) ((ranks.map fun x => quantum f (g.1.getD 0) (exact f (x.getD j 0))).foldl (· + ·) 0)

/-! ### Agreement messages (R403) -/

/-- 18 bytes a block, fewer for a short one. -/
def agreedBytes (a : Agreed) : List Byte :=
  leBytes 2 ((match a.1 with | some e => e | none => -32768) % 65536).toNat ++
    leBytes ((a.2.length + 3) / 4) (a.2.foldr (fun c n => c + 4 * n) 0)

/-- Blocks in one message: as many as 1,216 bytes hold. -/
def partBlocks : Nat := 67

/-- The messages of an agreement, in order; one without data when there is none to agree on. -/
def agreeParts (a : List Agreed) : List (List Byte) :=
  if a.isEmpty then [[]]
  else tab ((a.length + partBlocks - 1) / partBlocks) fun i =>
    (((a.drop (partBlocks * i)).take partBlocks).map agreedBytes).flatten

def agreedFrom (like : List Agreed) (b : List Byte) : List Agreed :=
  (like.foldl (fun (acc : List Agreed × List Byte) a =>
    let n := a.2.length
    let e := toSigned 16 (field acc.2 0 2)
    let c := field acc.2 2 ((n + 3) / 4)
    (acc.1 ++ [(if e = -32768 then none else some e, tab n fun j => c / 4 ^ j % 4)], acc.2.drop (2 + (n + 3) / 4))) ([], b)).1

/-! ### A descriptor's parts (R411) -/

def Coll.kind (c : Coll) : Nat := field c.desc 0 1
def Coll.red (c : Coll) : Nat := field c.desc 1 1
def Coll.fmt (c : Coll) : Fmt := (redFmt (field c.desc 2 1)).getD .s32
def Coll.inplace (c : Coll) : Bool := field c.desc 3 1 % 2 == 1
def Coll.root (c : Coll) : Nat := field c.desc 4 2
def Coll.src (c : Coll) : Word := w64 (field c.desc 8 8)
def Coll.dst (c : Coll) : Word := if c.inplace then c.src else w64 (field c.desc 16 8)
def Coll.cmpk (c : Coll) : W32 := BitVec.ofNat 32 (field c.desc 32 4)
def Coll.armk (c : Coll) : W32 := BitVec.ofNat 32 (field c.desc 36 4)
def Coll.esize (c : Coll) : Nat := c.fmt.bits / 8
def Coll.count (c : Coll) (i : Nat) : Nat := field c.counts (4 * i) 4

def sumUpTo (f : Nat → Nat) (n : Nat) : Nat := (tab n f).foldl (· + ·) 0

/-- Entries of the counts table for P ranks. -/
def Coll.ncounts (c : Coll) (p : Nat) : Nat := if c.kind = 4 then p * p else p

/-- Where this rank's data lie: offset and number of elements. -/
def Coll.mine (c : Coll) (p r : Nat) : Nat × Nat :=
  match c.kind with
  | 1 => (if c.inplace then sumUpTo c.count r else 0, c.count r)
  | 3 => (0, if r = c.root then c.count r else 0)
  | 4 => (0, sumUpTo (fun j => c.count (r * p + j)) p)
  | _ => (0, sumUpTo c.count p)

/-- Whether the aligned-integer method applies: a SUM of a floating-point format. -/
def Coll.aligned (c : Coll) : Bool := (c.kind == 0 || c.kind == 2) && c.red == 0 && c.fmt.float.isSome

def elements (k : Nat) (b : List Byte) : List Nat := tab (b.length / k) fun i => field b (k * i) k

/-- What this rank brings to the agreement. -/
def Coll.own (c : Coll) : List Agreed := if c.aligned then agreeOf c.fmt (elements c.esize c.data) else []

/-- OPD of an agreement message. -/
def Coll.opd (c : Coll) : Word := w64 (c.root + c.red * 2 ^ 16 + crc32c c.counts * 2 ^ 32)

/-! ### Results -/

/-- A sum of what the other ranks hold of one element: free, within the bound of R412. -/
def freeSum (n m : Nat) : Int := ((Config.freeWord n).toNat % (2 * m + 1) : Nat) - (m : Int)

def freeBytes (seed n : Nat) : List Byte := tab n fun i => (Config.freeWord (seed + i)).setWidth 8

/-- Element j of a reduction with the others' part free. -/
def Coll.reduced (c : Coll) (p seed j : Nat) (x : Nat) : Nat :=
  let f := c.fmt
  if c.aligned then
    let a := c.agreed.getD (j / 64) (none, [])
    let m := (p - 1) * (2 ^ (redWidth f - 13) - 1)
    sumResult f a.1 (a.2.getD (j % 64) 0) (quantum f (a.1.getD 0) (exact f x) + freeSum (seed + j) m)
  else reduce f c.red x ((Config.freeWord (seed + j)).toNat % 2 ^ f.bits)

/-- What the collective writes: where, and which bytes. -/
def Coll.output (c : Coll) (p r seed : Nat) : Word × List Byte :=
  let k := c.esize
  let off := fun (n : Nat) => w64 (k * n)
  if p = 1 then (c.dst, if c.inplace then [] else c.data)
  else match c.kind with
    | 0 => (c.dst, ((elements k c.data).zipIdx.map fun e => leBytes k (c.reduced p seed e.2 e.1)).flatten)
    | 2 =>
      let lo := sumUpTo c.count r
      (c.dst + (if c.inplace then off lo else 0),
        (((elements k c.data).zipIdx.drop lo).take (c.count r)).map (fun e => leBytes k (c.reduced p seed e.2 e.1)) |>.flatten)
    | 1 =>
      (c.dst, freeBytes seed (k * sumUpTo c.count r) ++ c.data ++
        freeBytes (seed + 2 ^ 40) (k * (sumUpTo c.count p - sumUpTo c.count r - c.count r)))
    | 3 => (c.dst, if r = c.root then c.data else freeBytes seed (k * c.count c.root))
    | _ =>
      let lo := k * sumUpTo (fun j => c.count (r * p + j)) r
      (c.dst, ((tab p id).map fun i =>
        let n := k * c.count (i * p + r)
        if i = r then (c.data.drop lo).take n else freeBytes (seed + i * 2 ^ 40) n).flatten)

/-! ### Steps of a collective -/

def State.setColl (s : State) (id : Nat) (c : Coll) : State :=
  { s with net := { s.net with colls := SMap.set s.net.colls id c } }

/-- Agreement messages that tree children sent for a collective, with the child's rank. -/
def State.agreesOf (s : State) (c : Coll) : List ((Nat × LinkReq) × Nat) :=
  s.net.agrees.filterMap fun a =>
    if a.2.ctx = c.ctx ∧ a.2.rva.toNat = c.n then ((s.ctxOf c.ctx).rankOf a.2.src).map fun r => (a, r) else none

/-- Answer the children: with the agreed values of the blocks that each message carried, or with a rejection. -/
def State.answerAgrees (s : State) (c : Coll) (ok : Bool) : State :=
  let ms := s.agreesOf c
  let s := { s with net := { s.net with agrees := s.net.agrees.filter fun a => !(ms.any fun m => m.1 == a) } }
  let all := (c.agreed.map agreedBytes).flatten
  (ms.foldl (fun (acc : State × SMap Nat) m =>
    let at' := SMap.getD acc.2 m.2 0
    let q := m.1.2
    (if ok then acc.1.answer m.1.1 q 0 0 ((all.drop at').take q.len) else acc.1.answer m.1.1 q 2,
      SMap.set acc.2 m.2 (at' + q.len))) (s, [])).1

/-- Put an agreement message to a rank on its way. -/
def State.sendAgree (s : State) (c : Coll) (key rank : Nat) (opd : Word) (part : List Byte) : State :=
  s.askPeer
    { paths := 0, opc := 0, va := 0, tag := 0, key, ctx := c.ctx, rank, opk := 5, opa := c.kind, fmt := field c.desc 2 1, rva := w64 c.n, n := part.length,
      bytes := part, opd, opd2 := 0, wait := false, ans := none, old := 0, status := 0, port := none, sentAt := none,
      due := s.ns, since := s.ns }

/-- A collective fails here: its children and its parent hear of it. -/
def State.failColl (s : State) (id : Nat) (c : Coll) (status : Nat) : State :=
  let s := s.answerAgrees c false
  let s := match treeParent (s.ctxOf c.ctx).rank with
    | some r => if c.stage = 2 then s.sendAgree c (2 ^ 42) r (c.opd ^^^ 0xFFFFFFFF00000000) [] else s
    | none => s
  let s := { s with net := { s.net with
    colls := SMap.del s.net.colls id, remote := s.net.remote.filter fun r => r.key != collKey id } }
  s.failHandle c.key c.hand status

/-- Fire: the counts table, then this rank's data, are read. -/
def State.fireColl (s : State) (id : Nat) (c : Coll) (item : Post) : State :=
  let x := s.ctxOf c.ctx
  let p := x.peers.length
  match (agentBytes c.ctx (w64 (field c.desc 24 8)) (4 * c.ncounts p) item : Ag _) s with
  | .wait t => t
  | .drop t => t.failColl id c 4
  | .ok counts t =>
    let c := { c with counts }
    let m := c.mine p x.rank
    match (agentBytes c.ctx (c.src + w64 (c.esize * m.1)) (c.esize * m.2) item : Ag _) t with
    | .wait u => u
    | .drop u => u.failColl id c 4
    | .ok data u => (u.setColl id { c with data, stage := if p = 1 then 4 else 2 }).repost item

/-- Agreement: what the tree children send, joined with this rank's; then the parent's answer (R370, R410, R412). -/
def State.gatherAgree (s : State) (id : Nat) (c : Coll) (item : Post) : State :=
  let x := s.ctxOf c.ctx
  let p := x.peers.length
  let ms := s.agreesOf c
  let total := ((c.own.map agreedBytes).flatten).length
  let kids := [2 * x.rank + 1, 2 * x.rank + 2].filter fun n => decide (n < p)
  let from' := fun (k : Nat) => ms.filter fun m => m.2 == k
  let bytesOf := fun (k : Nat) => ((from' k).map fun m => m.1.2.data).flatten
  if ms.any fun m => m.1.2.opa.toNat != c.kind || m.1.2.fmt.toNat != field c.desc 2 1 || m.1.2.opd != c.opd then s.failColl id c 6
  else if kids.any fun k => (from' k).isEmpty || decide ((bytesOf k).length < total) then s
  else
    let c := { c with agreed := kids.foldl (fun a k => joinAgreed a (agreedFrom c.own (bytesOf k))) c.own }
    match treeParent x.rank with
    | none => ((s.answerAgrees c true).setColl id { c with stage := 4 }).repost item
    | some r => (agreeParts c.agreed).foldl (fun s b => s.sendAgree c (collKey id) r c.opd b) (s.setColl id { c with stage := 3 })

/-- The parent has answered every part. -/
def State.takeAgree (s : State) (id : Nat) (c : Coll) (item : Post) : State :=
  let rs := s.net.remote.filter fun r => r.key == collKey id
  match rs.find? fun r => r.status != 0 with
  | some r => s.failColl id c (if r.status = 4 then 6 else r.status)
  | none =>
    if rs.any fun r => r.ans.isNone then s
    else
      let c := { c with agreed := agreedFrom c.agreed ((rs.map fun r => r.ans.getD []).flatten) }
      let s := { s with net := { s.net with remote := s.net.remote.filter fun r => r.key != collKey id } }
      ((s.answerAgrees c true).setColl id { c with stage := 4 }).repost item

/-- The result goes to memory. -/
def State.writeColl (s : State) (id : Nat) (c : Coll) (item : Post) : State :=
  let x := s.ctxOf c.ctx
  let o := c.output x.peers.length x.rank s.free
  let s := { s with free := s.free + 2 ^ 56 }
  let s := ((pagePieces o.1 o.2.length).foldl (fun (a : State × List Byte) p =>
    (a.1.agentPut (collKey id) c.ctx p.1 (a.2.take p.2) none noSource, a.2.drop p.2)) (s, o.2)).1
  (s.setColl id { c with stage := 5 }).repost item

/-- Completion: CMPINC is added (R411). -/
def State.endColl (s : State) (id : Nat) (c : Coll) : State :=
  let s := { s with net := { s.net with colls := SMap.del s.net.colls id } }
  let s := if c.cmpk = noCounter then s
    else s.agentPut c.key c.ctx (counterVa (s.ctxOf c.ctx) c.cmpk.toNat) [] (some (w64 (field c.desc 48 8))) noSource
  (s.countHandle c.key c.hand).settleHandle c.key c.hand

/-- COLLECTIVE_EXPAND: the link processor expands in posting order; a collective then fires as an entry does, agrees with
the other ranks, and completes. With P > 1 a context's collectives run one after another. -/
def execCollectiveExpand (cid : Nat) (s : State) : Out :=
  let item : Post := ⟨.collectiveExpand, cid, 0⟩
  match SMap.get? s.net.colls cid with
  | none => .next s
  | some c =>
    let earlier := fun (f : Coll → Bool) => s.net.colls.any fun e => decide (e.1 < cid) && f e.2
    match c.stage with
    | 0 =>
      if earlier fun e => e.ctx % 16 == c.ctx % 16 && e.stage == 0 then .next (s.repost item)
      else .next ((s.setColl cid { c with stage := 1 }).repost item)
    | 1 =>
      if 1 < (s.ctxOf c.ctx).peers.length ∧ earlier fun e => e.ctx == c.ctx then .next (s.repost item)
      else
        let test : Ag Bool := if c.armk = noCounter then Ag.pure true
          else (agentBytes c.ctx (counterVa (s.ctxOf c.ctx) c.armk.toNat) 8 item).bind fun b =>
            Ag.pure (decide (0 ≤ (w64 (leNat b) - w64 (field c.desc 40 8)).toInt))
        match test s with
        | .wait t => .next t
        | .drop t => .next (t.failColl cid c 4)
        | .ok false t => .next (t.repost item)
        | .ok true t => .next (t.fireColl cid c item)
    | 2 => .next (s.gatherAgree cid c item)
    | 3 => .next (s.takeAgree cid c item)
    | 4 => .next (s.writeColl cid c item)
    | _ => .next (if s.mem.stores.any fun a => a.key == collKey cid then s.repost item else s.endColl cid c)

end Sys2Proof.Machine
end

