-- ==== Sys2Proof/Machine/Firmware.lean ====
section
/-! DEFINITION. Power and cooling (R24 to R26), boot (R399), live update (R400) and heartbeats (R315). -/

namespace Sys2Proof.Machine

/-! ### Boot (R398, R399) -/

/-- Whether an image passes: its signature and its version. -/
def Firmware.passes (f : Firmware) (i : FwImage) : Bool :=
  Config.imageSigned i.digest i.signature && decide (f.minVer ≤ i.version)

def Firmware.image (f : Firmware) (n : Nat) : FwImage := f.images.getD n ⟨0, 0, 0, 0⟩

/-- The slot whose image starts: the active one, else the other. -/
def Firmware.chosen (f : Firmware) : Option Nat :=
  [f.slot, 1 - f.slot].find? fun n => f.passes (f.image n)

/-- The boot ROM's steps; the identity key comes first. The measurements of the ROM and of the record are free values. -/
def Firmware.boot (f : Firmware) (free : Nat) : Firmware :=
  let off := { f with idKey := some (Config.identityKey f.puf f.helper), recovery := true, booted := false, measured := [], update := none, lost := [] }
  match if f.configOk then f.chosen else none with
  | none => off
  | some n =>
    let i := f.image n
    { off with recovery := false, booted := true, runVer := i.version,
               measured := [(Config.freeWord free).toNat, (Config.freeWord (free + 1)).toNat, i.digest.toNat] }

/-- A module reset: everything is as State.reset says but for the module flash, host memory and what has left the module. -/
def State.moduleReset (s : State) : State :=
  let fw := s.ctl.fw.boot s.free
  { State.reset with
    inputs := s.inputs, free := s.free + 2
    mem := { Mem.reset with host := s.mem.host }
    ctl := { Ctl.reset with fw, msix := s.ctl.msix, errs := s.ctl.errs, mctp := s.ctl.mctp }
    net := { Net.reset with sent := s.net.sent } }

/-- MODULE_RESET. -/
def execModuleReset (s : State) : Out := .next s.moduleReset

/-! ### Power and cooling (R24 to R26) -/

def State.setDie (s : State) (die : Nat) (f : Power → Power) : State :=
  { s with plant := { s.plant with dies := upd s.plant.dies die f } }

/-- The allotment of a consumer, halved by each cause that lasts. -/
def State.allotted (s : State) (p : Power) (i : Nat) : Nat :=
  p.allot.getD i 0 / (if s.plant.inlet || s.plant.flow then 2 else 1) / (if p.hot then 2 else 1)

def State.setCoolant (s : State) (inlet flow : Bool) : State := { s with plant := { s.plant with inlet, flow } }

/-- COOLANT_LIMIT: the temperature in °C, the flow in centilitres a minute. -/
def execCoolantLimit (tempC flowCL : Nat) (s : State) : Out :=
  .next (s.setCoolant (s.plant.inlet || decide (45 < tempC)) (s.plant.flow || decide (flowCL < 200)))

/-- INLET_RETURN: the inlet's cause ends below 43 °C, the flow's once the flow is at least 2.0 L/min again (DESIGN CHOICE,
assumption log 29: R26 gives no end of its own for low flow). -/
def execInletReturn (c : Coolant) (s : State) : Out :=
  .next (s.setCoolant (s.plant.inlet && decide (43 ≤ c.tempC)) (s.plant.flow && decide (c.flowCL < 200)))

/-- Kinds of error records on the host port; those of storages are below 32. -/
def errThermal : Nat := 32
def errHeartbeat : Nat := 33

/-- A thermal reset is reported on the host port and through MCTP (R26). -/
def State.reportThermal (s : State) (die : Nat) : State :=
  let s := s.hostError errThermal die
  { s with ctl := { s.ctl with mctp := s.ctl.mctp ++ [(errThermal, die)] } }

/-- JUNCTION_TEMPERATURE. -/
def execJunctionTemperature (die tempC : Nat) (s : State) : Out :=
  .next (if 110 ≤ tempC then (s.reportThermal die).moduleReset
    else s.setDie die fun p => { p with hot := decide (100 ≤ tempC) })

/-- The average of a consumer over the measurements kept; before ten of them exist, over those that do (DESIGN CHOICE,
assumption log 29). -/
def average (hist : List (List Nat)) (i : Nat) : Nat := (hist.map fun m => m.getD i 0).foldl (· + ·) 0 / max 1 hist.length

/-- POWER_MEASURE: ten measurements make 100 µs; a consumer above its allotment is throttled. -/
def execPowerMeasure (die : Nat) (mW : List Nat) (s : State) : Out :=
  let s := s.setDie die fun p => { p with hist := (mW :: p.hist).take 10 }
  .next (s.setDie die fun p => { p with throttled := tab 4 fun i => decide (s.allotted p i < average p.hist i) })

/-! ### Live update and heartbeats (R400, R315) -/

/-- FIRMWARE_LIVE_UPDATE: an image that passes its checks and takes the handover starts; the record names its slot. The
old image waits for the new one's first heartbeat. -/
def execFirmwareLiveUpdate (img : FwImage) (s : State) : Out :=
  let f := s.ctl.fw
  let old := f.image f.slot
  let f := { f with images := f.images.set (1 - f.slot) img }
  let f := if f.booted ∧ f.passes img ∧ img.handover = old.handover then
      { f with slot := 1 - f.slot, runVer := img.version, update := some old, measured := f.measured.set 2 img.digest.toNat }
    else f
  .next { s with ctl := { s.ctl with fw := f } }

/-- FIRMWARE_HEARTBEAT_MISS: the old image resumes, and the record keeps its slot. -/
def execFirmwareHeartbeatMiss (s : State) : Out :=
  let f := s.ctl.fw
  match f.update with
  | none => .next s
  | some old =>
    let fw := { f with slot := 1 - f.slot, runVer := old.version, update := none, measured := f.measured.set 2 old.digest.toNat }
    .next { s with ctl := { s.ctl with fw } }

/-- HEARTBEAT_TIMEOUT: the fault of a firmware core is detected. -/
def execHeartbeatTimeout (unit : Nat) (s : State) : Out :=
  let s := s.hostError errHeartbeat unit
  let fw := { s.ctl.fw with lost := if s.ctl.fw.lost.contains unit then s.ctl.fw.lost else s.ctl.fw.lost ++ [unit] }
  .next { s with ctl := { s.ctl with fw } }

end Sys2Proof.Machine
end

