-- ==== Sys2Proof/Machine/Dispatch.lean ====
section
/-! DEFINITION. One arm per instruction: the meaning it calls. -/

namespace Sys2Proof.Machine

def exec (i : Instr) (s : State) : Host.Outcome State Fault Refusal :=
  match i with
  | .nop h => Sys2Proof.Machine.execNop h s
  | .b h o x => Sys2Proof.Machine.execB h o x s
  | .beq h o x => Sys2Proof.Machine.execBeq h o x s
  | .bne h o x => Sys2Proof.Machine.execBne h o x s
  | .blt h o x => Sys2Proof.Machine.execBlt h o x s
  | .bge h o x => Sys2Proof.Machine.execBge h o x s
  | .bltu h o x => Sys2Proof.Machine.execBltu h o x s
  | .bgeu h o x => Sys2Proof.Machine.execBgeu h o x s
  | .bz h o x => Sys2Proof.Machine.execBz h o x s
  | .bnz h o x => Sys2Proof.Machine.execBnz h o x s
  | .bfol h o x => Sys2Proof.Machine.execBfol h o x s
  | .call h o x => Sys2Proof.Machine.execCall h o x s
  | .ret h o => Sys2Proof.Machine.execRet h o s
  | .jr h o x => Sys2Proof.Machine.execJr h o x s
  | .loop h o x => Sys2Proof.Machine.execLoop h o x s
  | .loopi h o x => Sys2Proof.Machine.execLoopi h o x s
  | .brkl h o => Sys2Proof.Machine.execBrkl h o s
  | .trap h o => Sys2Proof.Machine.execTrap h o s
  | .gets h o => Sys2Proof.Machine.execGets h o s
  | .sets h o => Sys2Proof.Machine.execSets h o s
  | .tri h => Sys2Proof.Machine.execTri h s
  | .waitt h o => Sys2Proof.Machine.execWaitt h o s
  | .fence h o => Sys2Proof.Machine.execFence h o s
  | .ldaq h o x => Sys2Proof.Machine.execLdaq h o x s
  | .strl h o x => Sys2Proof.Machine.execStrl h o x s
  | .add h o => Sys2Proof.Machine.execAdd h o s
  | .sub h o => Sys2Proof.Machine.execSub h o s
  | .mul h o => Sys2Proof.Machine.execMul h o s
  | .mulh h o => Sys2Proof.Machine.execMulh h o s
  | .mulhu h o => Sys2Proof.Machine.execMulhu h o s
  | .div h o => Sys2Proof.Machine.execDiv h o s
  | .divu h o => Sys2Proof.Machine.execDivu h o s
  | .rem h o => Sys2Proof.Machine.execRem h o s
  | .remu h o => Sys2Proof.Machine.execRemu h o s
  | .and h o => Sys2Proof.Machine.execAnd h o s
  | .or h o => Sys2Proof.Machine.execOr h o s
  | .xor h o => Sys2Proof.Machine.execXor h o s
  | .shl h o => Sys2Proof.Machine.execShl h o s
  | .shr h o => Sys2Proof.Machine.execShr h o s
  | .sra h o => Sys2Proof.Machine.execSra h o s
  | .min h o => Sys2Proof.Machine.execMin h o s
  | .max h o => Sys2Proof.Machine.execMax h o s
  | .minu h o => Sys2Proof.Machine.execMinu h o s
  | .maxu h o => Sys2Proof.Machine.execMaxu h o s
  | .slt h o => Sys2Proof.Machine.execSlt h o s
  | .sltu h o => Sys2Proof.Machine.execSltu h o s
  | .seq h o => Sys2Proof.Machine.execSeq h o s
  | .madd h o x => Sys2Proof.Machine.execMadd h o x s
  | .clz h o => Sys2Proof.Machine.execClz h o s
  | .popc h o => Sys2Proof.Machine.execPopc h o s
  | .bfx h o x => Sys2Proof.Machine.execBfx h o x s
  | .bfi h o x => Sys2Proof.Machine.execBfi h o x s
  | .addi h o x => Sys2Proof.Machine.execAddi h o x s
  | .andi h o x => Sys2Proof.Machine.execAndi h o x s
  | .ori h o x => Sys2Proof.Machine.execOri h o x s
  | .xori h o x => Sys2Proof.Machine.execXori h o x s
  | .shli h o x => Sys2Proof.Machine.execShli h o x s
  | .shri h o x => Sys2Proof.Machine.execShri h o x s
  | .srai h o x => Sys2Proof.Machine.execSrai h o x s
  | .slti h o x => Sys2Proof.Machine.execSlti h o x s
  | .li h o x => Sys2Proof.Machine.execLi h o x s
  | .lih h o x => Sys2Proof.Machine.execLih h o x s
  | .ld h o x => Sys2Proof.Machine.execLd h o x s
  | .ldz h o x => Sys2Proof.Machine.execLdz h o x s
  | .st h o x => Sys2Proof.Machine.execSt h o x s
  | .ldt h o x => Sys2Proof.Machine.execLdt h o x s
  | .stt h o x => Sys2Proof.Machine.execStt h o x s
  | .shset h o => Sys2Proof.Machine.execShset h o s
  | .shseti h o x => Sys2Proof.Machine.execShseti h o x s
  | .shget h o => Sys2Proof.Machine.execShget h o s
  | .shmin h o => Sys2Proof.Machine.execShmin h o s
  | .shadd h o => Sys2Proof.Machine.execShadd h o s
  | .shcpy h o => Sys2Proof.Machine.execShcpy h o s
  | .lyld h o x => Sys2Proof.Machine.execLyld h o x s
  | .lyst h o x => Sys2Proof.Machine.execLyst h o x s
  | .lyget h o => Sys2Proof.Machine.execLyget h o s
  | .lyset h o => Sys2Proof.Machine.execLyset h o s
  | .lyseg h o => Sys2Proof.Machine.execLyseg h o s
  | .sync => Sys2Proof.Machine.execSync s
  | .phase o => Sys2Proof.Machine.execPhase o s
  | .phaseLong o x => Sys2Proof.Machine.execPhaseLong o x s
  | .mode o => Sys2Proof.Machine.execMode o s
  | .endJ => Sys2Proof.Machine.execEndJ s
  | .yieldJ => Sys2Proof.Machine.execYieldJ s
  | .talloc r o x => Sys2Proof.Machine.execTalloc r o x s
  | .tfree r o x => Sys2Proof.Machine.execTfree r o x s
  | .tshrink r o x => Sys2Proof.Machine.execTshrink r o x s
  | .ttag r o x => Sys2Proof.Machine.execTtag r o x s
  | .tqry r o x => Sys2Proof.Machine.execTqry r o x s
  | .tcopy r o x => Sys2Proof.Machine.execTcopy r o x s
  | .tslot r o x => Sys2Proof.Machine.execTslot r o x s
  | .tgath r o x => Sys2Proof.Machine.execTgath r o x s
  | .tscat r o x => Sys2Proof.Machine.execTscat r o x s
  | .twarm r o x => Sys2Proof.Machine.execTwarm r o x s
  | .chkick r o x => Sys2Proof.Machine.execChkick r o x s
  | .chlink r o => Sys2Proof.Machine.execChlink r o s
  | .ixwalk r o => Sys2Proof.Machine.execIxwalk r o s
  | .ixsplit r o => Sys2Proof.Machine.execIxsplit r o s
  | .tblk r o => Sys2Proof.Machine.execTblk r o s
  | .atom r o x => Sys2Proof.Machine.execAtom r o x s
  | .atomr r o x => Sys2Proof.Machine.execAtomr r o x s
  | .cas r o x => Sys2Proof.Machine.execCas r o x s
  | .qsubmit r o => Sys2Proof.Machine.execQsubmit r o s
  | .qstat r o => Sys2Proof.Machine.execQstat r o s
  | .ginfo r o => Sys2Proof.Machine.execGinfo r o s
  | .gyield r o => Sys2Proof.Machine.execGyield r o s
  | .mdisp r o => Sys2Proof.Machine.execMdisp r o s
  | .ctxinfo r o => Sys2Proof.Machine.execCtxinfo r o s
  | .bjoin r o => Sys2Proof.Machine.execBjoin r o s
  | .barv r o => Sys2Proof.Machine.execBarv r o s
  | .bwait r o => Sys2Proof.Machine.execBwait r o s
  | .bleave r o => Sys2Proof.Machine.execBleave r o s
  | .ccadd r o => Sys2Proof.Machine.execCcadd r o s
  | .ccwait r o => Sys2Proof.Machine.execCcwait r o s
  | .pgfork r o x => Sys2Proof.Machine.execPgfork r o x s
  | .pgdrop r o x => Sys2Proof.Machine.execPgdrop r o x s
  | .pgpin r o x => Sys2Proof.Machine.execPgpin r o x s
  | .pgunpin r o x => Sys2Proof.Machine.execPgunpin r o x s
  | .pgqry r o => Sys2Proof.Machine.execPgqry r o s
  | .pgmove r o x => Sys2Proof.Machine.execPgmove r o x s
  | .xcpost r o => Sys2Proof.Machine.execXcpost r o s
  | .xcarm r o => Sys2Proof.Machine.execXcarm r o s
  | .xcwait r o => Sys2Proof.Machine.execXcwait r o s
  | .xcqry r o => Sys2Proof.Machine.execXcqry r o s
  | .stbindOpen r o => Sys2Proof.Machine.execStbindOpen r o s
  | .stbindAppend r o => Sys2Proof.Machine.execStbindAppend r o s
  | .stbindCommit r o => Sys2Proof.Machine.execStbindCommit r o s
  | .stbindClose r o => Sys2Proof.Machine.execStbindClose r o s
  | .sttake r o => Sys2Proof.Machine.execSttake r o s
  | .sttick r o => Sys2Proof.Machine.execSttick r o s
  | .stlate r o => Sys2Proof.Machine.execStlate r o s
  | .stsink r o => Sys2Proof.Machine.execStsink r o s
  | .trmark r o => Sys2Proof.Machine.execTrmark r o s
  | .trmarkL r o => Sys2Proof.Machine.execTrmarkL r o s
  | .trspanBegin r o => Sys2Proof.Machine.execTrspanBegin r o s
  | .trspanEnd r o => Sys2Proof.Machine.execTrspanEnd r o s
  | .trqry r o => Sys2Proof.Machine.execTrqry r o s
  | .staterd r o => Sys2Proof.Machine.execStaterd r o s
  | .vadd r o x => Sys2Proof.Machine.execVadd r o x s
  | .vsub r o x => Sys2Proof.Machine.execVsub r o x s
  | .vmul r o x => Sys2Proof.Machine.execVmul r o x s
  | .vfma r o x => Sys2Proof.Machine.execVfma r o x s
  | .vmin r o x => Sys2Proof.Machine.execVmin r o x s
  | .vmax r o x => Sys2Proof.Machine.execVmax r o x s
  | .vabs r o x => Sys2Proof.Machine.execVabs r o x s
  | .vneg r o x => Sys2Proof.Machine.execVneg r o x s
  | .vand r o x => Sys2Proof.Machine.execVand r o x s
  | .vor r o x => Sys2Proof.Machine.execVor r o x s
  | .vxor r o x => Sys2Proof.Machine.execVxor r o x s
  | .vnot r o x => Sys2Proof.Machine.execVnot r o x s
  | .vshl r o x => Sys2Proof.Machine.execVshl r o x s
  | .vshr r o x => Sys2Proof.Machine.execVshr r o x s
  | .vsra r o x => Sys2Proof.Machine.execVsra r o x s
  | .vcmp r o x => Sys2Proof.Machine.execVcmp r o x s
  | .vsel r o x => Sys2Proof.Machine.execVsel r o x s
  | .vmov r o x => Sys2Proof.Machine.execVmov r o x s
  | .vsplat r o x => Sys2Proof.Machine.execVsplat r o x s
  | .vidx r o x => Sys2Proof.Machine.execVidx r o x s
  | .vcvt r o x => Sys2Proof.Machine.execVcvt r o x s
  | .vpack r o x => Sys2Proof.Machine.execVpack r o x s
  | .vunpk r o x => Sys2Proof.Machine.execVunpk r o x s
  | .vqnt r o x => Sys2Proof.Machine.execVqnt r o x s
  | .vdqnt r o x => Sys2Proof.Machine.execVdqnt r o x s
  | .vrotr r o x => Sys2Proof.Machine.execVrotr r o x s
  | .vrotc r o x => Sys2Proof.Machine.execVrotc r o x s
  | .vbcr r o x => Sys2Proof.Machine.execVbcr r o x s
  | .vbcc r o x => Sys2Proof.Machine.execVbcc r o x s
  | .vredr r o x => Sys2Proof.Machine.execVredr r o x s
  | .vredc r o x => Sys2Proof.Machine.execVredc r o x s
  | .vargr r o x => Sys2Proof.Machine.execVargr r o x s
  | .vargc r o x => Sys2Proof.Machine.execVargc r o x s
  | .vscanr r o x => Sys2Proof.Machine.execVscanr r o x s
  | .vscanc r o x => Sys2Proof.Machine.execVscanc r o x s
  | .vtrn r o x => Sys2Proof.Machine.execVtrn r o x s
  | .vexp2 r o x => Sys2Proof.Machine.execVexp2 r o x s
  | .vlog2 r o x => Sys2Proof.Machine.execVlog2 r o x s
  | .vrcp r o x => Sys2Proof.Machine.execVrcp r o x s
  | .vrsq r o x => Sys2Proof.Machine.execVrsq r o x s
  | .vtanh r o x => Sys2Proof.Machine.execVtanh r o x s
  | .vsigm r o x => Sys2Proof.Machine.execVsigm r o x s
  | .vsin r o x => Sys2Proof.Machine.execVsin r o x s
  | .vcos r o x => Sys2Proof.Machine.execVcos r o x s
  | .vld r o x => Sys2Proof.Machine.execVld r o x s
  | .vst r o x => Sys2Proof.Machine.execVst r o x s
  | .vldg r o x => Sys2Proof.Machine.execVldg r o x s
  | .vstg r o x => Sys2Proof.Machine.execVstg r o x s
  | .pand r o x => Sys2Proof.Machine.execPand r o x s
  | .por r o x => Sys2Proof.Machine.execPor r o x s
  | .pxor r o x => Sys2Proof.Machine.execPxor r o x s
  | .pnot r o x => Sys2Proof.Machine.execPnot r o x s
  | .pcnt r o x => Sys2Proof.Machine.execPcnt r o x s
  | .pfirst r o x => Sys2Proof.Machine.execPfirst r o x s
  | .plen r o x => Sys2Proof.Machine.execPlen r o x s
  | .pseg r o x => Sys2Proof.Machine.execPseg r o x s
  | .vtox r o x => Sys2Proof.Machine.execVtox r o x s
  | .xtov r o x => Sys2Proof.Machine.execXtov r o x s
  | .vfmt r o => Sys2Proof.Machine.execVfmt r o s
  | .vfmtImm r o x => Sys2Proof.Machine.execVfmtImm r o x s
  | .slclaim r o => Sys2Proof.Machine.execSlclaim r o s
  | .slrel r o => Sys2Proof.Machine.execSlrel r o s
  | .slqry r o => Sys2Proof.Machine.execSlqry r o s
  | .accz r o x => Sys2Proof.Machine.execAccz r o x s
  | .accld r o x => Sys2Proof.Machine.execAccld r o x s
  | .nlvl r o x => Sys2Proof.Machine.execNlvl r o x s
  | .nops r o x => Sys2Proof.Machine.execNops r o x s
  | .nepi r o x => Sys2Proof.Machine.execNepi r o x s
  | .nepiDef r o => Sys2Proof.Machine.execNepiDef r o s
  | .nmode r o => Sys2Proof.Machine.execNmode r o s
  | .nseg r o => Sys2Proof.Machine.execNseg r o s
  | .nscl r o => Sys2Proof.Machine.execNscl r o s
  | .ngo r => Sys2Proof.Machine.execNgo r s
  | .nwait r => Sys2Proof.Machine.execNwait r s
  | .ndrain r o x => Sys2Proof.Machine.execNdrain r o x s
  | .smxrd r o x => Sys2Proof.Machine.execSmxrd r o x s
  | .smxset r o x => Sys2Proof.Machine.execSmxset r o x s
  | .nqry r o => Sys2Proof.Machine.execNqry r o s
  | .wst r o x => Sys2Proof.Machine.execWst r o x s
  | .wstd r o x => Sys2Proof.Machine.execWstd r o x s
  | .wchain r o x => Sys2Proof.Machine.execWchain r o x s
  | .wpost r o => Sys2Proof.Machine.execWpost r o s
  | .wcmpl r => Sys2Proof.Machine.execWcmpl r s
  | .wflush r => Sys2Proof.Machine.execWflush r s
  | .qkick fn v => Sys2Proof.Machine.execQkick fn v s
  | .qevbits fn v => Sys2Proof.Machine.execQevbits fn v s
  | .stkick fn v => Sys2Proof.Machine.execStkick fn v s
  | .pgdoneResident fn rqid => Sys2Proof.Machine.execPgdoneResident fn rqid s
  | .pgdoneUnmappable fn rqid => Sys2Proof.Machine.execPgdoneUnmappable fn rqid s
  | .pgdoneDenied fn rqid => Sys2Proof.Machine.execPgdoneDenied fn rqid s
  | .mtflushGo fn v => Sys2Proof.Machine.execMtflushGo fn v s
  | .mtflushRetry fn v => Sys2Proof.Machine.execMtflushRetry fn v s
  | .mtflushDiscard fn v => Sys2Proof.Machine.execMtflushDiscard fn v s
  | .tlbinv fn v => Sys2Proof.Machine.execTlbinv fn v s
  | .ctxcmdLoad fn ctx => Sys2Proof.Machine.execCtxcmdLoad fn ctx s
  | .ctxcmdSave fn ctx => Sys2Proof.Machine.execCtxcmdSave fn ctx s
  | .ctxcmdDrain fn ctx => Sys2Proof.Machine.execCtxcmdDrain fn ctx s
  | .ctxcmdTeardown fn ctx => Sys2Proof.Machine.execCtxcmdTeardown fn ctx s
  | .ctxcmdRelease fn ctx => Sys2Proof.Machine.execCtxcmdRelease fn ctx s
  | .ctxcmdSwap fn ctx => Sys2Proof.Machine.execCtxcmdSwap fn ctx s
  | .ctxcmdAbort fn ctx => Sys2Proof.Machine.execCtxcmdAbort fn ctx s
  | .ctxringConsWrite fn handler cons => Sys2Proof.Machine.execCtxringConsWrite fn handler cons s
  | .fpcmdAdd fn v => Sys2Proof.Machine.execFpcmdAdd fn v s
  | .fpcmdTake fn v => Sys2Proof.Machine.execFpcmdTake fn v s
  | .fpcmdCount fn v => Sys2Proof.Machine.execFpcmdCount fn v s
  | .inspdRead => Sys2Proof.Machine.execInspdRead s
  | .inspdBreakpointWrite v => Sys2Proof.Machine.execInspdBreakpointWrite v s
  | .inspdResume v => Sys2Proof.Machine.execInspdResume v s
  | .traceSinkEnable n v => Sys2Proof.Machine.execTraceSinkEnable n v s
  | .registerWrite fn off v => Sys2Proof.Machine.execRegisterWrite fn off v s
  | .moduleReset => Sys2Proof.Machine.execModuleReset s
  | .coolantLimit tempC flowCL => Sys2Proof.Machine.execCoolantLimit tempC flowCL s
  | .junctionTemperature die tempC => Sys2Proof.Machine.execJunctionTemperature die tempC s
  | .powerMeasure die mW => Sys2Proof.Machine.execPowerMeasure die mW s
  | .patrolScrub loc addr bad => Sys2Proof.Machine.execPatrolScrub loc addr bad s
  | .timingReplay die => Sys2Proof.Machine.execTimingReplay die s
  | .firmwareLiveUpdate img => Sys2Proof.Machine.execFirmwareLiveUpdate img s
  | .firmwareHeartbeatMiss => Sys2Proof.Machine.execFirmwareHeartbeatMiss s
  | .strandPlace die => Sys2Proof.Machine.execStrandPlace die s
  | .strandStart k => Sys2Proof.Machine.execStrandStart k s
  | .strandEnded k => Sys2Proof.Machine.execStrandEnded k s
  | .deadlock k => Sys2Proof.Machine.execDeadlock k s
  | .waittExpire k g => Sys2Proof.Machine.execWaittExpire k g s
  | .copyComplete k op => Sys2Proof.Machine.execCopyComplete k op s
  | .slotFillComplete k op => Sys2Proof.Machine.execSlotFillComplete k op s
  | .twarmComplete k op => Sys2Proof.Machine.execTwarmComplete k op s
  | .chainCopy k op => Sys2Proof.Machine.execChainCopy k op s
  | .chainGather k op => Sys2Proof.Machine.execChainGather k op s
  | .chainPost k op => Sys2Proof.Machine.execChainPost k op s
  | .chainWait k op => Sys2Proof.Machine.execChainWait k op s
  | .chainLoop k op => Sys2Proof.Machine.execChainLoop k op s
  | .chainIf k op => Sys2Proof.Machine.execChainIf k op s
  | .chainLink k op => Sys2Proof.Machine.execChainLink k op s
  | .chainEnd k op => Sys2Proof.Machine.execChainEnd k op s
  | .indexComplete k op => Sys2Proof.Machine.execIndexComplete k op s
  | .nestStep k => Sys2Proof.Machine.execNestStep k s
  | .nestComplete k => Sys2Proof.Machine.execNestComplete k s
  | .nestSlotWaitLimit k => Sys2Proof.Machine.execNestSlotWaitLimit k s
  | .slclaimGrant k => Sys2Proof.Machine.execSlclaimGrant k s
  | .phaseCommitDone k => Sys2Proof.Machine.execPhaseCommitDone k s
  | .phaseCancel k => Sys2Proof.Machine.execPhaseCancel k s
  | .phaseRefetchDone k => Sys2Proof.Machine.execPhaseRefetchDone k s
  | .holdTimeout k => Sys2Proof.Machine.execHoldTimeout k s
  | .uncorrAbort k loc addr => Sys2Proof.Machine.execUncorrAbort k loc addr s
  | .pageWalk k va wr => Sys2Proof.Machine.execPageWalk k va wr s
  | .remoteRefusalRetry tag => Sys2Proof.Machine.execRemoteRefusalRetry tag s
  | .atomicEngineServe eng => Sys2Proof.Machine.execAtomicEngineServe eng s
  | .queueSlotGrant die => Sys2Proof.Machine.execQueueSlotGrant die s
  | .queueParse q => Sys2Proof.Machine.execQueueParse q s
  | .queueReread q => Sys2Proof.Machine.execQueueReread q s
  | .queueDispatch die => Sys2Proof.Machine.execQueueDispatch die s
  | .fencePacketTest q => Sys2Proof.Machine.execFencePacketTest q s
  | .qsubmitPush k => Sys2Proof.Machine.execQsubmitPush k s
  | .qsubmitFull k => Sys2Proof.Machine.execQsubmitFull k s
  | .taskRetire task => Sys2Proof.Machine.execTaskRetire task s
  | .groupEvaluate die => Sys2Proof.Machine.execGroupEvaluate die s
  | .bwaitTimeout k => Sys2Proof.Machine.execBwaitTimeout k s
  | .ccwaitPoll k => Sys2Proof.Machine.execCcwaitPoll k s
  | .ccwaitTimeout k => Sys2Proof.Machine.execCcwaitTimeout k s
  | .xcwaitTimeout k => Sys2Proof.Machine.execXcwaitTimeout k s
  | .contextLoadChecks ctx => Sys2Proof.Machine.execContextLoadChecks ctx s
  | .contextResident ctx => Sys2Proof.Machine.execContextResident ctx s
  | .contextSaved ctx => Sys2Proof.Machine.execContextSaved ctx s
  | .swapReload ctx => Sys2Proof.Machine.execSwapReload ctx s
  | .budgetPeriodRollover ctx => Sys2Proof.Machine.execBudgetPeriodRollover ctx s
  | .budgetExhausted ctx => Sys2Proof.Machine.execBudgetExhausted ctx s
  | .preemptImmediate k => Sys2Proof.Machine.execPreemptImmediate k s
  | .obdaokFrameReceive port frame => Sys2Proof.Machine.execObdaokFrameReceive port frame s
  | .linkWrite port q => Sys2Proof.Machine.execLinkWrite port q s
  | .linkWriteRed port q => Sys2Proof.Machine.execLinkWriteRed port q s
  | .linkRead port q => Sys2Proof.Machine.execLinkRead port q s
  | .linkNotify port q => Sys2Proof.Machine.execLinkNotify port q s
  | .linkAtomic port q => Sys2Proof.Machine.execLinkAtomic port q s
  | .linkAgree port q => Sys2Proof.Machine.execLinkAgree port q s
  | .linkResponse port p => Sys2Proof.Machine.execLinkResponse port p s
  | .linkKeepalive port => Sys2Proof.Machine.execLinkKeepalive port s
  | .linkWidth port lanes => Sys2Proof.Machine.execLinkWidth port lanes s
  | .linkPause port => Sys2Proof.Machine.execLinkPause port s
  | .linkResume port => Sys2Proof.Machine.execLinkResume port s
  | .portEnable port => Sys2Proof.Machine.execPortEnable port s
  | .portTrainingEnd port lanes => Sys2Proof.Machine.execPortTrainingEnd port lanes s
  | .portTrainingFail port => Sys2Proof.Machine.execPortTrainingFail port s
  | .portLaneLost port => Sys2Proof.Machine.execPortLaneLost port s
  | .portDisable port => Sys2Proof.Machine.execPortDisable port s
  | .portReset port => Sys2Proof.Machine.execPortReset port s
  | .ptpEventMessage port offsetNs => Sys2Proof.Machine.execPtpEventMessage port offsetNs s
  | .grandmasterLoss => Sys2Proof.Machine.execGrandmasterLoss s
  | .workEntryFire w => Sys2Proof.Machine.execWorkEntryFire w s
  | .workEntryComplete w => Sys2Proof.Machine.execWorkEntryComplete w s
  | .collectiveExpand cid => Sys2Proof.Machine.execCollectiveExpand cid s
  | .linkHoldTimeout task => Sys2Proof.Machine.execLinkHoldTimeout task s
  | .cadenceTick ctx sid => Sys2Proof.Machine.execCadenceTick ctx sid s
  | .streamDeadline ctx sid => Sys2Proof.Machine.execStreamDeadline ctx sid s
  | .streamRecordAdmit ctx sid => Sys2Proof.Machine.execStreamRecordAdmit ctx sid s
  | .traceSync die => Sys2Proof.Machine.execTraceSync die s
  | .traceEmitResume k => Sys2Proof.Machine.execTraceEmitResume k s
  | .hostMemoryWrite fn host pa data => Sys2Proof.Machine.execHostMemoryWrite fn host pa data s
  | .pageMoveCopyDone k => Sys2Proof.Machine.execPageMoveCopyDone k s
  | .tlbInvalidationComplete fn => Sys2Proof.Machine.execTlbInvalidationComplete fn s
  | .inletReturn c => Sys2Proof.Machine.execInletReturn c s
  | .heartbeatTimeout unit => Sys2Proof.Machine.execHeartbeatTimeout unit s
  | .hubAgentHoldLimit a => Sys2Proof.Machine.execHubAgentHoldLimit a s
  | .stepOpenTimeout k => Sys2Proof.Machine.execStepOpenTimeout k s
  | .linkChainAcceptance k op => Sys2Proof.Machine.execLinkChainAcceptance k op s

end Sys2Proof.Machine
end

