-- ==== Sys2Proof/Machine/Units.lean ====
section
/-! DEFINITION. The units' side of a period: which step a post asks for, and the end of the period (assumption log 1):
results land, signals and pushes become visible, budgets are charged, timers and pollers run. -/

namespace Sys2Proof.Machine

/-- Whether the power controller stalls engine g in this period (R25): X for the vector units; A and W, which issue the
memory accesses, for the SRAM and LPDDR lines (DESIGN CHOICE, assumption log 29). The arrays are stalled at their steps. -/
def State.powerHolds (s : State) (g : Eng) : Bool :=
  match g with
  | .x => s.throttled 1 s.curCore
  | .m => false
  | .a | .w => s.throttled 2 s.curCore || s.throttled 3 s.curCore

/-! ### Posts -/

/-- The step that a post asks for. -/
def runPost (p : Post) (s : State) : Out :=
  let a := p.a
  let b := p.b
  match p.what with
  | .strandPlace => execStrandPlace a s
  | .strandStart => execStrandStart a s
  | .strandEnded => execStrandEnded a s
  | .deadlock => execDeadlock a s
  | .copyComplete => execCopyComplete a b s
  | .slotFillComplete => execSlotFillComplete a b s
  | .twarmComplete => execTwarmComplete a b s
  | .chainCopy => execChainCopy a b s
  | .chainGather => execChainGather a b s
  | .chainPost => execChainPost a b s
  | .chainWait => execChainWait a b s
  | .chainLoop => execChainLoop a b s
  | .chainIf => execChainIf a b s
  | .chainLink => execChainLink a b s
  | .chainEnd => execChainEnd a b s
  | .indexComplete => execIndexComplete a b s
  | .linkChainAcceptance => execLinkChainAcceptance a b s
  | .nestStep => execNestStep a s
  | .nestComplete => execNestComplete a s
  | .nestSlotWaitLimit => execNestSlotWaitLimit a s
  | .slclaimGrant => execSlclaimGrant a s
  | .phaseCommitDone => execPhaseCommitDone a s
  | .phaseCancel => execPhaseCancel a s
  | .phaseRefetchDone => execPhaseRefetchDone a s
  | .holdTimeout => execHoldTimeout a s
  | .remoteRefusalRetry => execRemoteRefusalRetry a s
  | .atomicEngineServe => execAtomicEngineServe a s
  | .queueSlotGrant => execQueueSlotGrant a s
  | .queueParse => execQueueParse a s
  | .queueReread => execQueueReread a s
  | .queueDispatch => execQueueDispatch a s
  | .fencePacketTest => execFencePacketTest a s
  | .qsubmitPush => execQsubmitPush a s
  | .qsubmitFull => execQsubmitFull a s
  | .taskRetire => execTaskRetire a s
  | .groupEvaluate => execGroupEvaluate a s
  | .contextLoadChecks => execContextLoadChecks a s
  | .contextResident => execContextResident a s
  | .contextSaved => execContextSaved a s
  | .swapReload => execSwapReload a s
  | .budgetPeriodRollover => execBudgetPeriodRollover a s
  | .budgetExhausted => execBudgetExhausted a s
  | .preemptImmediate => execPreemptImmediate a s
  | .tlbInvalidationComplete => execTlbInvalidationComplete a s
  | .pageMoveCopyDone => execPageMoveCopyDone a s
  | .workEntryFire => execWorkEntryFire a s
  | .workEntryComplete => execWorkEntryComplete a s
  | .collectiveExpand => execCollectiveExpand a s
  | .linkHoldTimeout => execLinkHoldTimeout a s
  | .cadenceTick => execCadenceTick a b s
  | .streamDeadline => execStreamDeadline a b s
  | .streamRecordAdmit => execStreamRecordAdmit a b s
  | .traceSync => execTraceSync a s
  | .traceEmitResume => execTraceEmitResume a s
  | .hubAgentHoldLimit => execHubAgentHoldLimit a s
  | .stepOpenTimeout => execStepOpenTimeout a s
  | .agentStore =>
    match s.mem.stores.find? fun w => w.id == a with
    | some w => .next (s.agentTry w)
    | none => .next s
  | .ring => .next (State.flushRing a (b == 1) (s.ctxOf a).held.length s)

/-! ### The end of a period, strand by strand -/

/-- A write that was to take effect at the end of the period (R140, R160, R245). -/
def Strand.applyLate (t : Strand) : Late → Strand
  | .ext n k v => { t with sh := upd t.sh n fun e => e.set k v }
  | .shape n v => { t with sh := t.sh.set n v }
  | .slot n v => { t with ly := t.ly.set n v }
  | .forget n => { t with ly := upd t.ly n fun k => k.map fun v => { v with src := none } }
  | .sys g i v => t.setSys g i v

/-- Late writes take effect in the order of the engines A, X, M, W, each engine's in the order that it made them (R160). -/
def Strand.applyLates (t : Strand) : Strand :=
  ((Eng.list.map fun g => t.lates.filter fun l => l.1 == g).flatten.map (·.2)).foldl Strand.applyLate { t with lates := [] }

/-- Results land, operations post their signals, late writes take effect. -/
def Strand.landAll (t : Strand) : Strand := t.flyOn.settleOps.applyLates

/-! ### Answers to loads and atomics (R121, R295) -/

/-- What a source answers: the bytes of a register's value, those of the strand's own buffer over them; or the request
that failed. -/
def State.answerFrom (s : State) (src : Source) (own : List (Option Byte)) : Option (Except Remote (List Byte)) :=
  match src with
  | .atom tag =>
    match s.mem.atoms.find? fun r => r.key == s.cur.key && r.tag == BitVec.ofNat 32 tag && !r.post with
    | some r => r.old.map fun v => .ok (leBytes own.length v.toNat)
    | none => none
  | .peer tag =>
    match s.net.remote.find? fun q => q.key == s.cur.key && q.tag == tag with
    | some q => q.ans.map fun b =>
      if q.status ≠ 0 then .error q else .ok (if q.opk = 2 then overlay own b else leBytes own.length q.old.toNat)
    | none => none

/-- The request that a source names is over. -/
def State.forgetSource (s : State) (src : Source) : State :=
  match src with
  | .atom tag =>
    { s with mem := { s.mem with atoms := s.mem.atoms.filter fun r =>
      !(r.key == s.cur.key && r.tag == BitVec.ofNat 32 tag && !r.post) } }
  | .peer tag => { s with net := { s.net with remote := s.net.remote.filter fun q => !(q.key == s.cur.key && q.tag == tag) } }

/-- A result takes its answer, if it is there; a failed request raises its trap at the engine's next boundary. -/
def State.fillFlight (s : State) (f : Flight) : State :=
  let back := fun (s : State) (f : Flight) => s.setCur fun t => { t with fl := t.fl ++ [f] }
  match f.wb with
  | [.await d src _ own signed] =>
    match s.answerFrom src own with
    | none => back s f
    | some (.ok b) => back (s.forgetSource src) { f with wb := [.reg d (extended signed b)] }
    | some (.error q) => let k := s.sendTrap s.cur q q.status; (s.forgetSource src).lateTrap f.g k.1 k.2
  | _ => back s f

/-- Every result in flight takes its answer. -/
def State.fillFlights (s : State) : State :=
  if s.cur.awaiting then s.cur.fl.foldl State.fillFlight (s.setCur fun t => { t with fl := [] }) else s

/-- Whether all four engines are blocked (R126). -/
def Strand.allBlocked (t : Strand) : Bool :=
  t.runs && t.ph.st != .cancelled && t.eng.every fun e => decide (1 ≤ e.why) && decide (e.why ≤ 9)

/-- X's units after a tick of X (R120). -/
def XUnit.tick (x : XUnit) : XUnit :=
  if x.adv then { x with dp := x.dp - 1, sfu := x.sfu - 1, alu := x.alu - 1, adv := false } else x

/-- The deadlock counter at the end of a period (R126): it stands while the strand is SAVED or its phase CANCELLED. -/
def Strand.deadNext (t : Strand) : Nat :=
  if t.st = .saved ∨ t.ph.st = .cancelled then t.dead else if t.allBlocked then t.dead + 1 else 0

/-- The next period begins: posts are visible, the window looks at the new addresses. -/
def Strand.turnOver (t : Strand) : Strand :=
  { t with links := t.links.next, x := t.x.tick, pc0 := t.eng.map Engine.pc, dead := t.deadNext }

/-- An uncorrectable error in the entry that is released next aborts the strand (R314). -/
def State.checkBuffer (s : State) : State :=
  if s.cur.st != .ended && s.bufferBad then s.uncorrAbort .buffer ((s.cur.ph.buf.map BufEntry.va).headD 0) else s

def State.endStrand (s : State) (k : Nat) : State :=
  s.at k fun u =>
    let u := u.fillFlights.setCur Strand.landAll
    let u := u.checkBuffer
    let u := if u.cur.st == .handler && u.cur.eng.every (fun e => e.tret.isSome) then u.leaveHandler else u
    let u := u.setCur Strand.turnOver
    if u.cur.sys.stl ≠ 0 ∧ u.cur.sys.stl.toNat < u.cur.dead then u.postOnce .deadlock k else u

/-- A period of a core's time is charged to the strand's context (R392). -/
def State.charge (s : State) (t : Strand) : State :=
  let seven := ((s.task t.task).map Task.seven).getD false
  s.setCtx t.sys.ctx.toNat fun c =>
    if seven && c.cadenceLeft then { c with cadQ := c.cadQ + 1 } else { c with usedQ := c.usedQ + 1 }

/-! ### Timers and pollers -/

def State.postAll (s : State) (w : What) (l : List Nat) : State := l.foldl (fun s n => s.postOnce w n) s

/-- Contexts that a test picks. -/
def State.ctxsThat (s : State) (f : Context → Bool) : List Nat := SMap.keys (s.ctl.ctxs.filter fun e => f e.2)

/-- Timers of PTP time: cadence ticks, the budget periods, sync records at whole milliseconds, groups every 50 µs. -/
def State.timers (s : State) : State :=
  let ns := s.ns
  let s := (s.strm.streams.filter fun e => decide (e.2.due ≤ ns)).foldl (fun (s : State) e =>
    s.postOnce .cadenceTick (e.1 / 4096) (e.1 % 4096)) s
  let s := s.postAll .budgetPeriodRollover (s.ctxsThat fun c =>
    c.record.period != 0 && decide (c.start < ns / (1000 * c.record.period) * (1000 * c.record.period)))
  let s := s.postAll .budgetExhausted (s.ctxsThat fun c =>
    c.counts && c.spent.isNone && decide (c.record.coreus * 1000 * Config.periodsPerNs ≤ c.usedQ))
  let s := if s.clock % 4000000 = 0 then s.postAll .traceSync (tab 5 id) else s
  if s.clock % 200000 = 0 then
    s.postAll .groupEvaluate ((tab 4 id).filter fun d => s.work.groups.any fun g => g.die == d)
  else s

/-- The core that a throttled die stalls next (R25). -/
def State.rotate (s : State) : State :=
  let next := fun (p : Power) => if p.throttled.any id then { p with turn := (p.turn + 1) % 64 } else p
  { s with plant := { s.plant with dies := s.plant.dies.map next } }

/-- What is looked at in every period: emitters that wait, the merge unit, the rings, cores that leave their groups. -/
def State.pollers (s : State) : State :=
  let s := s.postAll .traceEmitResume (s.trc.wait.map (·.1))
  s.mergeTrace.flushRings.leaveCores.rotate

/-- The end of a period. -/
def State.endPeriod (s : State) : State :=
  let on := (s.strands.filter fun e => e.2.st.onCore)
  let s := on.foldl (fun (s : State) e => s.charge e.2) s.testBars
  let s := (SMap.keys on).foldl State.endStrand s
  State.pollers (State.timers (State.retryKept { s with clock := s.clock + 1 }))

end Sys2Proof.Machine
end

