-- ==== Sys2Proof/Machine/Turn.lean ====
section
/-! DEFINITION. The turns of a period (assumption log 1): the units, in the order of the state tables (R11); one engine's
attempt to issue (R97), then the next engine and the next strand; the turns that a rule puts behind the others of the
tick; the end of the period. -/

namespace Sys2Proof.Machine

/-! ### One engine's turn -/

/-- An engine that waits at a place that counts as a joint word: its tick advances (R97, R130). -/
def State.waits (s : State) (g : Eng) : State := (s.setEng g fun e => { e with why := 9 }).tickOn g

/-- The word at an address, decoded and checked (R61, R78): the instruction, or the trap it raises. -/
def Strand.fetch (t : Strand) (p : Nat) : Except (Nat × List Word) Instr :=
  let w := t.wordsAt p
  let args := [w.1.setWidth 64, match w.2 with | some x => x.setWidth 64 | none => 0]
  if t.text.length ≤ p then .error (tPROTECT, [w64 p])
  else if isCont t.text p then .error (tILLEGAL, args)
  else match decode w.1 w.2 with
    | .ok i => if i.wellFormed then .ok i else .error (tILLEGAL, args)
    | .error e =>
      .error (if e ≠ .extEngine ∧ e ≠ .unassigned ∧ privilegedWord w.1 ∧ !t.priv then tPRIV else tILLEGAL, args)

/-- A malformed joint word: the engines meet, then A raises ILLEGAL (R70). -/
def State.badJoint (s : State) : Out :=
  joint false (fun _ => true) (fun s => .next (s.takeTrap .a tILLEGAL (s.cur.illegalArgs .a))) s

/-- The breakpoint that engine g meets at a word address (R132, R389). -/
def State.breakAt (s : State) (g : Eng) (p : Nat) : Option Nat :=
  if s.ctl.breaks.isEmpty then none
  else (tab 4 id).find? fun n =>
    let b := SMap.getD s.ctl.breaks (s.cur.key * 16 + g.code.toNat * 4 + n) 0
    b.getLsbD 31 && b.toNat % 16384 == p

/-- Issue at the engine's word. -/
def State.issueAt (s : State) (g : Eng) : Out :=
  let e := s.cur.engine g
  let p := e.pc
  match if e.arrived then none else s.breakAt g p with
  | some n => .next (s.takeTrap g tBREAK [w64 n])
  | none =>
    match s.cur.fetch p with
    | .ok i => exec i s
    | .error r =>
      if p < s.cur.text.length ∧ wordJoint (s.cur.text.getD p 0) ∧ !isCont s.cur.text p then s.badJoint else .next (s.takeTrap g r.1 r.2)

/-- Whether results of X that are due cannot land at X's next tick, and why (R119, R121). -/
def Strand.frozen (t : Strand) (g : Eng) : Option Nat := if g = .x then t.landDue.2 else none

/-- Engine g, with nothing of its own to await: it goes on to its next word and issues. -/
def State.goOn (s : State) (g : Eng) : Out :=
  let r := match (s.cur.engine g).moving with
    | some n => Strand.moveTo g n s.cur
    | none => (s.cur, none)
  let s := { s with cur := r.1 }
  match r.2 with
  | some args => .next (s.takeTrap g tWINDOW args)
  | none =>
    let e := s.cur.engine g
    if e.moving.isSome then .next (s.stall g 8)
    else if 0 < e.bubble then .next ((s.setEng g fun e => { e with bubble := e.bubble - 1 }).bubble g)
    else if s.powerHolds g then .next ((s.stall g 0).countDie s.curDie 0x263 none 1)
    else s.issueAt g

/-- Engine g of the strand at the front: what holds it, or its issue. A WAITT whose time has come retires first (R141). -/
def State.engineTurn (s : State) (g : Eng) : Out :=
  let t := s.cur
  let e := t.engine g
  if !t.runs || t.ph.st == .cancelled then .next s
  else if t.ph.st = .committing then .next (s.waits g)
  else if e.blocked then .next (s.stall g e.why)
  else if e.tret.isSome then .next (s.waits g)
  else match e.late with
    | some l => .next (State.takeTrap (s.setEng g fun e => { e with late := none }) g l.code [l.t0, l.t1, l.t2, l.t3])
    | none =>
      if s.emitting (4 * t.key + g.code.toNat) then .next ((s.stall g 0).countCur 0x042 (some g) 1)
      else match t.frozen g with
        | some why => .next (s.stall g why)
        | none =>
          match e.wait with
          | some w => if s.ns < w.time.toNat then .next (s.stall g 0) else (s.endWait g w).goOn g
          | none => s.goOn g

/-! ### Turns that are put off (R96, R181, R249, R310, R379) -/

/-- The rank behind a tick's other turns of an instruction that others come before: a claim of slots, then a TSLOT; an
allocation in an N ring; a leave and an arrival at a barrier. -/
def putOffRank : Instr → Option Nat
  | .slclaim .. => some 0
  | .tslot .. => some 1
  | .talloc _ _ x => if flag x.op 13 then some 1 else none
  | .bleave .. => some 2
  | .barv .. => some 3
  | _ => none

/-- The rank of a turn that trapped. -/
def trapRank : Nat := 9

/-- The rank of the word that engine g would issue in this turn. -/
def State.wordRank (s : State) (g : Eng) : Option Nat :=
  let e := s.cur.engine g
  if !s.cur.runs || s.cur.ph.st == .cancelled || s.cur.ph.st == .committing then none
  else
    let t := match e.moving with | some n => (Strand.moveTo g n s.cur).1 | none => s.cur
    if (t.engine g).moving.isSome then none else (State.nextInstr { s with cur := t } g).bind putOffRank

/-- Whether a turn from s to t took a trap in the strand. -/
def State.trapped (s t : State) : Bool :=
  s.cur.runs && match t.cur.st with
    | .ended | .halted => true
    | .handler => s.cur.st == .running
    | _ => false

/-- The rank of a turn whose outcome others come before: it trapped, or it made the phase unrepeatable. -/
def State.turnRank (s t : State) : Option Nat :=
  if s.trapped t then some trapRank
  else if s.cur.ph.rep && !t.cur.ph.rep && t.cur.ph.st != .committing then some 0 else none

/-- The turn of engine g is put off. -/
def State.putOff (s : State) (g : Eng) (rank : Nat) : State := s.setCur fun t => { t with later := t.later ++ [(g, rank)] }

/-- The turns put off, strand by strand, in the order of the engines. -/
def State.laters (s : State) : List (Nat × Eng × Nat) :=
  (s.strands.map fun e => Eng.list.filterMap fun g => (e.2.later.find? fun l => l.1 == g).map fun l => (e.1, l)).flatten

/-- The turn put off that comes next: one of the lowest rank. -/
def State.nextLater (s : State) : Option (Nat × Eng × Nat) :=
  s.laters.foldl (fun b e => match b with
    | none => some e
    | some k => if e.2.2 < k.2.2 then some e else some k) none

/-- The next turn that was put off, or the end of the period. -/
def State.toAgain (s : State) : State :=
  match s.nextLater with
  | some (k, g, _) =>
    { (s.swapTo k).setCur (fun t => { t with later := t.later.filter fun l => l.1 != g }) with turn := .again g }
  | none => { s with turn := .close }

/-! ### Whose turn is next -/

/-- The strands that engines issue for, by key. -/
def State.runners (s : State) : List Nat := (s.strands.filter fun e => e.2.runs).map (·.1)

/-- Engine A of the first strand with a key of at least k, or the turns that were put off. -/
def State.strandTurn (s : State) (k : Nat) : State :=
  match s.runners.find? fun n => decide (k ≤ n) with
  | some n => { s.swapTo n with turn := .eng .a }
  | none => s.toAgain

/-- The turn after engine g's. -/
def State.turnAfter (s : State) (g : Eng) : State :=
  match g with
  | .a => { s with turn := .eng .x }
  | .x => { s with turn := .eng .m }
  | .m => { s with turn := .eng .w }
  | .w => s.strandTurn (s.cur.key + 1)

/-- After engine g's turn from s: a prefix that has just issued keeps the turn for the word it governs. -/
def State.endTurn (s t : State) (g : Eng) : State :=
  if (s.cur.engine g).tri.isNone && (t.cur.engine g).tri.isSome then t else t.turnAfter g

/-- Engine g's turn in the order of the engines; it is put off when a rule puts it behind the others of its tick. -/
def State.firstTurn (s : State) (g : Eng) : Out :=
  match if g = .a ∨ g = .m then s.wordRank g else none with
  | some r => .next ((s.putOff g r).turnAfter g)
  | none =>
    match s.engineTurn g with
    | .next t =>
      match s.turnRank t with
      | some r => .next ((s.putOff g r).turnAfter g)
      | none => .next (s.endTurn t g)
    | o => o

/-- Whether a turn that traps has to wait for others put off: those that did not trap, and traps of earlier engines (R96). -/
def Strand.trapWaits (t : Strand) (g : Eng) : Bool :=
  t.later.any fun l => decide (l.2 < trapRank) || decide (l.1.code.toNat < g.code.toNat)

/-- Engine g's turn after it was put off; with a trap the strand's other turns are over, their instructions not issued. -/
def State.laterTurn (s : State) (g : Eng) : Out :=
  match s.engineTurn g with
  | .next t =>
    if s.trapped t then
      (if s.cur.trapWaits g then .next (s.putOff g trapRank).toAgain
       else .next (t.setCur fun u => { u with later := [] }).toAgain)
    else if (s.cur.engine g).tri.isNone && (t.cur.engine g).tri.isSome then .next t
    else .next t.toAgain
  | o => o

/-! ### The units' turn -/

/-- Whether an outside act reaches the module: in recovery the host link and the ports are not up (R399), so only a
reset and the host's own memory take anything. -/
def State.takesInput (s : State) (i : Instr) : Bool :=
  !s.ctl.fw.recovery ||
    match i with
    | .moduleReset => true
    | .hostMemoryWrite _ host _ _ => host
    | _ => false

/-- The rank of a kick: a DORMANT queue takes it before all else, another queue after its context is saved (R356). -/
def State.kickRank (s : State) (fn : Nat) (v : Word) : Nat :=
  match s.queue? (queueKey fn (getBits v 32 20)) with
  | some q => if q.st = .dormant then 210 else 370
  | none => 210

/-- The rank of a context command, by its number (R388). -/
def cmdRank (n : Nat) : Nat :=
  match n with
  | 1 => 225 | 2 => 345 | 3 => 390 | 4 => 400 | 5 => 410 | 7 => 420 | _ => 200

/-- A write to the counters' blocks: it takes effect before the increments of its tick (R58, R449). -/
def counterWrite : Instr → Bool
  | .registerWrite _ off _ => decide (0x80000 ≤ off)
  | _ => false

/-- The rank of an outside act among the steps of a period: its row's place in the state table of its object (R11). -/
def State.inputRank (s : State) (i : Instr) : Nat :=
  match i with
  | .uncorrAbort .. => 140
  | .qkick fn v => s.kickRank fn v
  | .ctxcmdLoad .. => cmdRank 1
  | .ctxcmdSave .. => cmdRank 2
  | .ctxcmdDrain .. => cmdRank 3
  | .ctxcmdTeardown .. => cmdRank 4
  | .ctxcmdRelease .. => cmdRank 5
  | .ctxcmdAbort .. => cmdRank 7
  | .mtflushRetry .. | .mtflushDiscard .. | .mtflushGo .. => 380
  | .registerWrite fn off v =>
    if 0x80000 ≤ off then 5 else if off = 0 then s.kickRank fn v else if off = 0x60 then 380 else if off = 0x110 ∧ v.getLsbD 63 then cmdRank (getBits v 16 4) else 210
  | .portEnable .. => 500
  | .portTrainingEnd .. => 510
  | .portTrainingFail .. => 520
  | .portLaneLost .. => 530
  | .portDisable .. => 540
  | .portReset .. => 550
  | _ => 200

/-- Writes to the register windows stay in their order. -/
def isWrite : Instr → Bool
  | .qkick .. | .qevbits .. | .stkick .. | .pgdoneResident .. | .pgdoneUnmappable .. | .pgdoneDenied .. | .mtflushGo ..
  | .mtflushRetry .. | .mtflushDiscard .. | .tlbinv .. | .ctxcmdLoad .. | .ctxcmdSave .. | .ctxcmdDrain ..
  | .ctxcmdTeardown .. | .ctxcmdRelease .. | .ctxcmdSwap .. | .ctxcmdAbort .. | .ctxringConsWrite .. | .fpcmdAdd ..
  | .fpcmdTake .. | .fpcmdCount .. | .inspdRead | .inspdBreakpointWrite .. | .inspdResume .. | .traceSinkEnable ..
  | .registerWrite .. => true
  | _ => false

/-- The rank of a unit's step (R11): strands, slots, nests and phases; contexts, queues, groups and streams. -/
def State.postRank (s : State) (p : Post) : Nat :=
  match p.what with
  | .strandPlace => 10 | .strandStart => 20 | .slotFillComplete => 30 | .nestStep => 40 | .nestComplete => 50
  | .nestSlotWaitLimit => 60 | .slclaimGrant => 80 | .strandEnded => 90 | .phaseCancel => 100 | .phaseRefetchDone => 110
  | .deadlock => 120 | .holdTimeout => 130 | .phaseCommitDone => 150 | .preemptImmediate => 160
  | .copyComplete | .twarmComplete | .chainCopy | .chainGather | .chainPost | .chainWait | .chainLoop | .chainIf | .chainLink
  | .chainEnd | .indexComplete | .linkChainAcceptance => 70
  | .pageMoveCopyDone => 220 | .contextLoadChecks => 230 | .contextResident => 240 | .queueSlotGrant => 250
  | .queueParse | .queueReread =>
    match s.queue? p.a with
    | some q => if (s.ctxOf q.ctx).st = .preempting then 360 else 260
    | none => 260
  | .fencePacketTest => 270 | .queueDispatch => 280 | .groupEvaluate => 290 | .taskRetire => 300 | .budgetExhausted => 310
  | .cadenceTick => 320 | .streamRecordAdmit => 330 | .streamDeadline => 340 | .contextSaved => 350
  | _ => 200

/-- The first element of lowest rank, with its index. -/
def leastOf {α : Type} (rank : α → Nat) (l : List α) : Option (Nat × Nat) :=
  l.zipIdx.foldl (fun b e => match b with
    | none => some (rank e.1, e.2)
    | some k => if rank e.1 < k.1 then some (rank e.1, e.2) else some k) none

/-- A rank above every other, for a write that an earlier one precedes. -/
def noRank : Nat := 1000

/-- Whether an outside act waits: a port takes no action while one of its records waits (R447). -/
def State.portHeld (s : State) (i : Instr) : Bool :=
  match i with
  | .portEnable n | .portTrainingEnd n _ | .portTrainingFail n | .portLaneLost n | .portDisable n | .portReset n =>
    s.emitting (2 ^ 20 + n)
  | _ => false

/-- The outside act that comes next: of the writes to the counters, and of the other writes, only the first. -/
def State.nextInput (s : State) : Option (Nat × Nat) :=
  let first := s.inputs.findIdx fun i => isWrite i && !counterWrite i
  let count := s.inputs.findIdx counterWrite
  let l := s.inputs.zipIdx.filter fun e => !s.portHeld e.1
  (leastOf (fun (e : Instr × Nat) =>
    if isWrite e.1 && e.2 != (if counterWrite e.1 then count else first) then noRank else s.inputRank e.1) l).bind fun b =>
      (l[b.2]?).map fun e => (b.1, e.2)

/-- The step of a unit that comes next, among those that were there when the turn began. -/
def State.nextPost (s : State) : Option (Nat × Nat) := leastOf s.postRank (s.todo.take s.left)

/-- Take outside act n. -/
def State.takeInput (s : State) (n : Nat) : Out :=
  let u := { s with inputs := s.inputs.eraseIdx n }
  match s.inputs[n]? with
  | some i => if i.parts.isSome || !s.takesInput i then .next u else exec i u
  | none => .next u

/-- The answers to an agent's reads are dropped once its step asks for nothing more. -/
def State.dropRead (s : State) (p : Post) : State :=
  if (s.net.remote.any fun q => q.who == some p && q.ans.isNone) ∨ (s.mem.waits.any fun w => w.item == p) then s
  else { s with net := { s.net with remote := s.net.remote.filter fun q => q.who != some p } }

/-- Take unit step n. -/
def State.takePost (s : State) (n : Nat) : Out :=
  let u := { s with left := s.left - 1, todo := s.todo.eraseIdx n }
  match s.todo[n]? with
  | some p =>
    match runPost p u with
    | .next t => .next (t.dropRead p)
    | o => o
  | none => .next u

/-- The outside acts and the units' steps of a period in the order of their tables; then the engines. -/
def State.unitsTurn (s : State) : Out :=
  match s.nextInput, s.nextPost with
  | some i, some p => if i.1 ≤ p.1 then s.takeInput i.2 else s.takePost p.2
  | some i, none => s.takeInput i.2
  | none, some p => s.takePost p.2
  | none, none => .next (s.strandTurn 0)

/-- The period ends, and the next begins with the units. -/
def State.closeTurn (s : State) : State :=
  let t := s.endPeriod
  { t with turn := .units, left := t.todo.length }

/-- One step of the machine. -/
def State.advance (s : State) : Out :=
  match s.turn with
  | .units => s.unitsTurn
  | .eng g => s.firstTurn g
  | .again g => s.laterTurn g
  | .close => .next s.closeTurn

/-! ### Placing an instruction where the next step fetches it -/

/-- A running strand of core 0 whose text starts with the given words and ends with END. -/
def hostStrand (w0 w1 : W32) : Strand :=
  { Strand.new 0 0 [0, 0, 0, 0] 64 [w0, w1, 0x01FE3000] with st := .running, fresh := false }

/-- The engine that issues a first word: A stands for all four at a joint word. -/
def firstEngine (w : W32) : Eng := if wordJoint w then .a else Eng.ofCode (fld w 30 2)

/-- The state with the instruction of bits w as the next one that a step runs, in a turn that is put off no more
(assumption log 1). -/
def State.placeWord (s : State) (w : Nat) : State :=
  let w0 := BitVec.ofNat 32 w
  { s with cur := hostStrand w0 (BitVec.ofNat 32 (w / 2 ^ 32)), others := [], turn := .again (firstEngine w0) }

end Sys2Proof.Machine
end

