-- ==== Sys2Proof/Safety.lean ====
section
/-! DEFINITION. What the statements mean by an instruction that goes, by the state that its completion leaves, by a
well-kept state and by a step that goes on. -/

namespace Sys2Proof.Machine

/-- Device and host memory are in their canonical form. -/
def State.memWf (s : State) : Bool := Memory.wf s.mem.dev && Memory.wf s.mem.host

/-- A step goes on: it neither faults nor is refused. -/
def State.goesOn (s : State) : Bool := match step s with | .next _ => true | _ => false

/-- No result of X lands at the start of X's next tick (R119). -/
def Strand.Calm (t : Strand) : Prop := ∀ f ∈ t.fl, t.due f = false

/-- An instruction issues at the strand at the front and its own checks decide: its encoding and operand fields are legal
in this state (R78), the tokens it waits on are there (R103), no earlier result of X lands in this tick (R119), its sources
can be read, giving the values vs and leaving the queues l (R109), no register that it names has a write pending (R118), X
has room for its result (R122) and the unit it needs is free, no bank conflict spreads it over two ticks (R120), its vector
registers hold no error (R313, R314), and no upset of a voted word is due (R125). -/
structure State.Goes (s : State) (q : Issue) (vs : List Word) (l : Links) : Prop where
  legal : q.legal = true
  early : q.early = none
  waits : s.cur.links.waitsOn q.g q.ring = none
  calm  : q.g = .x → s.cur.Calm
  reads : s.cur.readSrcs q.g q.srcs s.cur.links = .ok vs l
  await : s.cur.mustAwait q = false
  room  : q.g = .x → s.cur.fullX = false
  unit  : s.cur.unitBusy q = false
  bank  : (q.clash && !(s.cur.engine q.g).spread) = false
  sound : s.badVec q.vecs = none ∧ s.readVecs q.vecs = s
  votes : (s.cur.engine q.g).tri = none ∨ s.plant.upsets = []

/-- The state that a completed instruction leaves, from the state its own effect gives: the engine's hold is over,
sources are popped and tokens consumed, the results are placed and the engine moves on. -/
def State.finish (s : State) (q : Issue) (l : Links) (d : Done) : State := (s.unhold q.g none).retire q l.popped d

/-- Completion with one scalar result. -/
def State.gives (s : State) (q : Issue) (l : Links) (d : BitVec 5) (v : Word) : Out :=
  .next (s.finish q l (.of [.reg d v]))

/-- Completion with no register result. -/
def State.ends (s : State) (q : Issue) (l : Links) : Out := .next (s.finish q l (.of []))

/-- Completion by a transfer of control to a word. -/
def State.goesTo (s : State) (q : Issue) (l : Links) (wb : List Wb) (n : Nat) : Out := .next (s.finish q l ⟨wb, some n⟩)

/-- A transfer of engine g to word n passes the checks of R61 and R100. -/
def Strand.Reaches (t : Strand) (g : Eng) (n : Nat) : Prop :=
  n < t.text.length ∧ isCont t.text n = false ∧ t.pc0.maxOther g ≤ n + t.sys.win.toNat

/-- The loops that a branch of engine g to word n leaves are inactive (R117). -/
def State.leavingLoops (s : State) (g : Eng) (n : Nat) : State :=
  s.setEng g fun e => { e with levels := dropLevels e.levels n }

/-- A branch outcome pushed into the queues that a publish mask names (R113). -/
def State.publishing (s : State) (pub : BitVec 3) (taken : Bool) : State :=
  s.setCur fun t => { t with links := t.links.publish (pubEngines pub) taken }

/-- Every queue that a publish mask names has room. -/
def State.canPublish (s : State) (pub : BitVec 3) : Prop :=
  ∀ g ∈ pubEngines pub, (s.cur.links.outc.get g).start + (s.cur.links.outc.get g).add.length < 8

/-- Completion with results of several kinds. -/
def State.writes (s : State) (q : Issue) (l : Links) (wb : List Wb) : Out := .next (s.finish q l (.of wb))

/-- Which lanes of a floating-point result that X issues now are late (R54), a free value per lane where THRIFT is not 0 and no
TRI governs, and the machine with that free value used. -/
def State.late (s : State) (fp : Bool) : (Nat → Bool) × State :=
  if !fp || s.cur.sys.thrift == 0 || s.cur.eng.x.tri.isSome then (fun _ => false, s)
  else (Config.lateLane s.free, { s with free := s.free + 1 })

/-- The machine with the FP events of a result counted by their format's group, and its substitutes under THRIFT_SUB
(R56, R57, R58). -/
def State.counted (s : State) (f : Fmt) (ls : List Lane) : State :=
  let u := match f.group with
    | some g => s.fpEvents g (ls.map Lane.ev)
    | none => s
  let n := (ls.filter Lane.sub).length
  if n = 0 then u else u.countDie u.curDie 0x261 (some u.cur.sys.ctx.toNat) n

/-! ### Accesses to memory -/

/-- The strand's own translation of an address. -/
def State.ownXlate (s : State) (va : Word) (acc : Access) : XRes :=
  s.translate s.cur.sys.ctx.toNat s.cur.wins (some s.curCore) va acc

/-- A read of n bytes of device or host memory by the strand: it gives the bytes b and leaves u. The read is noted in the
phase's input record (R304) when `note` is set. -/
def State.Loads (s : State) (va : Word) (n : Nat) (note : Bool) (b : List Byte) (u : State) : Prop :=
  ∃ x t, s.ownXlate va .read = .ok x t ∧ x.home ≠ 2 ∧
    let v := if note then t.setCur fun c => { c with ph := c.ph.note va } else t
    v.mem.poisoned x.home x.pa n = false ∧ b = v.seen x.home x.pa n ∧ u = v.corrected x.home x.pa n

/-- The block and the bytes that a store to an address inside one block writes, once translated. -/
def blockOf (x : Xlate) (va : Word) (b : List Byte) (desc : Option W16) (strl : Bool) (path : Nat := 0) : BlockStore :=
  ⟨path, w64 (va.toNat / 64 * 64), x.home, x.pa / 64 * 64, x.ord, SMap.puts [] (x.pa % 64) b, if x.desc then desc else none,
    strl && x.ord == 1⟩

/-- The phase has room for a store or an ordered entry that `fits` its buffer or not, and the machine is then u: the entry
joins the buffer; or it does not fit, which releases the whole buffer; or the phase is unrepeatable and nothing is left to
release (R279, R301). -/
def State.Room (t : State) (fits : Bool) (u : State) : Prop :=
  (t.cur.ph.rep = true ∧ fits = true ∧ u = t) ∨
  (t.cur.ph.rep = true ∧ fits = false ∧ u = t.unrepeat ∧ u.cur.ph.buf = [] ∧ u.cur.awaiting = false) ∨
  (t.cur.ph.rep = false ∧ t.cur.ph.buf = [] ∧ t.cur.awaiting = false ∧ t.requestRoom = true ∧ u = t)

/-- A store of bytes inside one block by the strand leaves u; an STRL comes after every earlier load's answer (R281). -/
def State.Stores (s : State) (va : Word) (b : List Byte) (desc : Option W16) (strl : Bool) (u : State) (path : Nat := 0) : Prop :=
  ∃ x t w, s.ownXlate va .write = .ok x t ∧
    let k := blockOf x va b desc strl path
    t.Room (bufStore t.cur.ph.buf k).isSome w ∧ (k.strl = true → w.cur.awaiting = false) ∧ u = w.storeBlock k

/-- An access of a hub agent for the unit step `item`, at an address whose page is in place: the address is canonical, it
translates to x with the leaf's A and D as they are, and the step waits for no page. -/
def State.InPlace (s : State) (ctx : Nat) (va : Word) (acc : Access) (item : Post) (x : Xlate) : Prop :=
  canonical va = true ∧ s.translate ctx [] none va acc = .ok x s ∧ ∀ w ∈ s.mem.waits, w.item ≠ item

/-- A hub agent's read of n bytes for a unit step finds them all on this chip, in pages in place: the bytes b. -/
def State.Finds (s : State) (ctx : Nat) (va : Word) (n : Nat) (item : Post) (b : List Byte) : Prop :=
  ∃ x : Word → Xlate, (∀ p ∈ pagePieces va n, s.InPlace ctx p.1 .read item (x p.1) ∧ (x p.1).home ≠ 2) ∧
    b = ((pagePieces va n).map fun p => s.mem.bytes (x p.1).home (x p.1).pa p.2).flatten

/-! ### Operations and unit steps -/

/-- An asynchronous operation starts: it is the newest of the strand's operations, owes the signals that its ring bits ask
for (R105), holds rows, and asks for its unit step; without a step it is done at once. -/
def State.starting (s : State) (g : Eng) (opc : Nat) (r : Ring) (kind : OpKind) (touch : List Touch)
    (step : Option What) : State :=
  let id := s.cur.seq + 1
  let u := s.setCur fun t => { t with
    seq := id
    ops := t.ops ++ [⟨id, g, opc, r.sp, r.sn, kind, touch, step.isNone, none, s.clock⟩] }
  match step with
  | some w => { u with todo := u.todo ++ [⟨w, s.cur.key, id⟩] }
  | none => u

/-- A unit's step on the strand of key k leaves w, and the strand that was at the front is there again. -/
def State.backTo (s w : State) : Out := .next (w.swapTo s.cur.key)

/-- Operation o, numbered id, of the strand of key k is under way; with that strand at the front the machine is u. -/
def State.Under (s : State) (k id : Nat) (o : AsyncOp) (u : State) : Prop :=
  (s.strand? k).isSome = true ∧ u = s.swapTo k ∧ u.cur.op? id = some o

/-- The strand of key k exists, and with it at the front the machine is u. -/
def State.Front (s : State) (k : Nat) (u : State) : Prop := (s.strand? k).isSome = true ∧ u = s.swapTo k

/-! ### Turns -/

/-- Nothing holds engine g in its turn: its strand runs, no phase is cancelled or committing, nothing blocks or freezes the
engine, no handler return, late trap, trace record, WAITT, window move, bubble or power stall stands before its next issue,
and no breakpoint stops it at its word. -/
structure State.Ready (s : State) (g : Eng) : Prop where
  running : s.cur.st = .running ∨ s.cur.st = .handler
  phase : s.cur.ph.st ≠ .cancelled ∧ s.cur.ph.st ≠ .committing
  free : (s.cur.engine g).blocked = false
  back : (s.cur.engine g).tret = none
  late : (s.cur.engine g).late = none
  emits : s.emitting (4 * s.cur.key + g.code.toNat) = false
  lands : s.cur.frozen g = none
  time : (s.cur.engine g).wait = none
  moves : (s.cur.engine g).moving = none
  bubble : (s.cur.engine g).bubble = 0
  power : s.powerHolds g = false
  breaks : (s.cur.engine g).arrived = true ∨ s.breakAt g (s.cur.engine g).pc = none

/-- The engine at turn g in state s leaves t; the turn then goes on, unless the rules put what it did behind the other turns
of its tick (R96, R310). -/
def State.turnFrom (s : State) (g : Eng) : Out → Out
  | .next t =>
    match s.turnRank t with
    | some r => .next ((s.putOff g r).turnAfter g)
    | none => .next (s.endTurn t g)
  | o => o

/-- The same in a turn that was put off. -/
def State.againFrom (s : State) (g : Eng) : Out → Out
  | .next t =>
    if s.trapped t then
      (if s.cur.trapWaits g then .next (s.putOff g trapRank).toAgain
       else .next (t.setCur fun u => { u with later := [] }).toAgain)
    else if (s.cur.engine g).tri.isNone && (t.cur.engine g).tri.isSome then .next t
    else .next t.toAgain
  | o => o

/-! ### Joint words -/

/-- All four engines stand at W's word, the other three having arrived there, and it is W's turn (R111). -/
def State.Meets (s : State) : Prop :=
  s.turn.engine = some .w ∧ s.cur.Calm ∧ ∀ e, (s.cur.engine e).pc = (s.cur.engine .w).pc ∧ (e ≠ .w → (s.cur.engine e).arrived = true)

/-! ### Frames -/

/-- What no instruction on scalar registers alone changes, traps and stalls included: memory with its translations, the
other strands, inputs, streams, plant and time; and of the strand at the front its text and windows, vector file,
predicates, shape and layout registers, tiles, operations, nest and accumulators, its checkpoint and inputs of the
phase, barrier memberships and open step. -/
structure State.Keeps (s t : State) : Prop where
  mem : t.mem = s.mem
  others : t.others = s.others
  inputs : t.inputs = s.inputs
  strm : t.strm = s.strm
  plant : { t.plant with upsets := [] } = { s.plant with upsets := [] }
  turn : t.turn = s.turn
  clock : t.clock = s.clock
  key : t.cur.key = s.cur.key
  text : t.cur.text = s.cur.text
  wins : t.cur.wins = s.cur.wins
  vectors : t.cur.x.v = s.cur.x.v
  predicates : t.cur.x.p = s.cur.x.p
  shapes : t.cur.sh = s.cur.sh
  layouts : t.cur.ly = s.cur.ly
  lates : t.cur.lates = s.cur.lates
  tiles : t.cur.tiles = s.cur.tiles
  ring : t.cur.lring = s.cur.lring
  ops : t.cur.ops = s.cur.ops
  ixres : t.cur.ixres = s.cur.ixres
  shadow : t.cur.shadow = s.cur.shadow
  nest : t.cur.nest = s.cur.nest
  pend : t.cur.pend = s.cur.pend
  acc : t.cur.acc = s.cur.acc
  rep : t.cur.ph.rep = s.cur.ph.rep
  ckpt : t.cur.ph.ckpt = s.cur.ph.ckpt
  input : t.cur.ph.input = s.cur.ph.input
  joins : t.cur.joins = s.cur.joins
  hand : t.cur.hand = s.cur.hand
  step : t.cur.step = s.cur.step

/-- System registers but those that a trap writes. -/
def Sys.untrapped (y : Sys) : Sys := { y with trapc := 0, tinfo := 0, targ := [] }

/-- The instructions that act on scalar registers alone, each with its engine and the register it writes. -/
def scalarDest : Instr → Option (Eng × Option (BitVec 5))
  | .nop h | .b h _ _ | .beq h _ _ | .bne h _ _ | .blt h _ _ | .bge h _ _ | .bltu h _ _ | .bgeu h _ _ | .bz h _ _
  | .bnz h _ _ | .bfol h _ _ | .ret h _ | .jr h _ _ | .loop h _ _ | .loopi h _ _ | .brkl h _ | .trap h _ | .waitt h _
  | .fence h _ => some (h.g, none)
  | .call h o _ => some (h.g, some o.a)
  | .gets h o => some (h.g, some o.d)
  | .add h o | .sub h o | .mul h o | .mulh h o | .mulhu h o | .div h o | .divu h o | .rem h o | .remu h o | .and h o
  | .or h o | .xor h o | .shl h o | .shr h o | .sra h o | .min h o | .max h o | .minu h o | .maxu h o | .slt h o
  | .sltu h o | .seq h o | .madd h o _ | .clz h o | .popc h o | .bfx h o _ | .bfi h o _ => some (h.g, some o.d)
  | .addi h o _ | .andi h o _ | .ori h o _ | .xori h o _ | .shli h o _ | .shri h o _ | .srai h o _ | .slti h o _ =>
    some (h.g, some o.d)
  | .li h o _ | .lih h o _ => some (h.g, some o.d)
  | _ => none

end Sys2Proof.Machine
end

