-- ==== Sys2Proof/Certificates/Slice0/Obligations.lean ====
section
/-! DEFINITION. The statements for the provers. -/

section Statements

open Sys2Proof Sys2Proof.Machine

/-! ### Integer instructions -/

/-- The two-source integer instructions but the divisions complete with the value of the table of R147 in d; latencies
as R146 to R149 give them. -/
def Obligations.RegisterArithmeticResults : Prop :=
  ∀ (h : Hd) (o : F3) (s : State) (a b : Word) (l : Links),
    let q := fun opc lat => h.issue opc 1 o.srcs [.reg o.d] lat
    (s.Goes (q 0x20 1) [a, b] l → exec (.add h o) s = s.gives (q 0x20 1) l o.d (a + b)) ∧
    (s.Goes (q 0x21 1) [a, b] l → exec (.sub h o) s = s.gives (q 0x21 1) l o.d (a - b)) ∧
    (s.Goes (q 0x22 3) [a, b] l → exec (.mul h o) s = s.gives (q 0x22 3) l o.d (a * b)) ∧
    (s.Goes (q 0x23 3) [a, b] l →
      exec (.mulh h o) s = s.gives (q 0x23 3) l o.d (BitVec.ofInt 64 (a.toInt * b.toInt / 2 ^ 64))) ∧
    (s.Goes (q 0x24 3) [a, b] l →
      exec (.mulhu h o) s = s.gives (q 0x24 3) l o.d (BitVec.ofNat 64 (a.toNat * b.toNat / 2 ^ 64))) ∧
    (s.Goes (q 0x29 1) [a, b] l → exec (.and h o) s = s.gives (q 0x29 1) l o.d (a &&& b)) ∧
    (s.Goes (q 0x2A 1) [a, b] l → exec (.or h o) s = s.gives (q 0x2A 1) l o.d (a ||| b)) ∧
    (s.Goes (q 0x2B 1) [a, b] l → exec (.xor h o) s = s.gives (q 0x2B 1) l o.d (a ^^^ b)) ∧
    (s.Goes (q 0x2C 1) [a, b] l → exec (.shl h o) s = s.gives (q 0x2C 1) l o.d (a <<< (b.toNat % 64))) ∧
    (s.Goes (q 0x2D 1) [a, b] l → exec (.shr h o) s = s.gives (q 0x2D 1) l o.d (a >>> (b.toNat % 64))) ∧
    (s.Goes (q 0x2E 1) [a, b] l →
      exec (.sra h o) s = s.gives (q 0x2E 1) l o.d (BitVec.ofInt 64 (a.toInt / 2 ^ (b.toNat % 64)))) ∧
    (s.Goes (q 0x2F 1) [a, b] l →
      exec (.min h o) s = s.gives (q 0x2F 1) l o.d (BitVec.ofInt 64 (min a.toInt b.toInt))) ∧
    (s.Goes (q 0x30 1) [a, b] l →
      exec (.max h o) s = s.gives (q 0x30 1) l o.d (BitVec.ofInt 64 (max a.toInt b.toInt))) ∧
    (s.Goes (q 0x31 1) [a, b] l →
      exec (.minu h o) s = s.gives (q 0x31 1) l o.d (BitVec.ofNat 64 (min a.toNat b.toNat))) ∧
    (s.Goes (q 0x32 1) [a, b] l →
      exec (.maxu h o) s = s.gives (q 0x32 1) l o.d (BitVec.ofNat 64 (max a.toNat b.toNat))) ∧
    (s.Goes (q 0x33 1) [a, b] l →
      exec (.slt h o) s = s.gives (q 0x33 1) l o.d (if a.toInt < b.toInt then 1 else 0)) ∧
    (s.Goes (q 0x34 1) [a, b] l →
      exec (.sltu h o) s = s.gives (q 0x34 1) l o.d (if a.toNat < b.toNat then 1 else 0)) ∧
    (s.Goes (q 0x35 1) [a, b] l → exec (.seq h o) s = s.gives (q 0x35 1) l o.d (if a = b then 1 else 0))

/-- The divisions complete with the quotient truncated toward zero and its remainder, and with the results of R148 in
the borderline cases. -/
def Obligations.DivisionResults : Prop :=
  ∀ (h : Hd) (o : F3) (s : State) (a b : Word) (l : Links),
    let q := fun opc => h.issue opc 1 o.srcs [.reg o.d] 18
    (s.Goes (q 0x25) [a, b] l → exec (.div h o) s = s.gives (q 0x25) l o.d
      (if b = 0 then BitVec.ofInt 64 (-1) else if a.toInt = -2 ^ 63 ∧ b.toInt = -1 then BitVec.ofInt 64 (-2 ^ 63)
       else BitVec.ofInt 64 (a.toInt.tdiv b.toInt))) ∧
    (s.Goes (q 0x26) [a, b] l → exec (.divu h o) s = s.gives (q 0x26) l o.d
      (if b = 0 then BitVec.ofNat 64 (2 ^ 64 - 1) else BitVec.ofNat 64 (a.toNat / b.toNat))) ∧
    (s.Goes (q 0x27) [a, b] l → exec (.rem h o) s = s.gives (q 0x27) l o.d
      (if b = 0 then a else if a.toInt = -2 ^ 63 ∧ b.toInt = -1 then 0
       else BitVec.ofInt 64 (a.toInt - b.toInt * a.toInt.tdiv b.toInt))) ∧
    (s.Goes (q 0x28) [a, b] l → exec (.remu h o) s = s.gives (q 0x28) l o.d
      (if b = 0 then a else BitVec.ofNat 64 (a.toNat - b.toNat * (a.toNat / b.toNat))))

/-- MADD, CLZ, POPC, BFX and BFI complete as R149 to R151 say, each bit of a moved field stated; a field that does not
fit raises RANGE; the reserved fields, the long form that MADD needs and the channel that BFI may not name are refused
(R78). -/
def Obligations.MaddCountsAndFields : Prop :=
  (∀ (h : Hd) (o : F3) (x : XR) (s : State) (a b c : Word) (l : Links) (w0 : W32) (w1 : Option W32),
     let m := h.issue 0x36 2 (o.srcs ++ [(x.c, false)]) [.reg o.d] 3
     let q := fun opc => h.issue opc 1 [(o.a, o.s.getLsbD 1)] [.reg o.d] 1
     (s.Goes m [a, b, c] l →
       exec (.madd h o x) s = s.gives m l o.d (BitVec.ofNat 64 (a.toNat * b.toNat + c.toNat))) ∧
     (s.Goes (q 0x37) [a] l →
       exec (.clz h o) s = s.gives (q 0x37) l o.d (if a = 0 then 64 else BitVec.ofNat 64 (63 - a.toNat.log2))) ∧
     (s.Goes (q 0x38) [a] l → exec (.popc h o) s = s.gives (q 0x38) l o.d
       (BitVec.ofNat 64 ((List.range 64).countP fun i => a.getLsbD i))) ∧
     (w0.getLsbD 25 = false → fld w0 17 8 = 0x36 → decode w0 w1 = .error .longForm) ∧
     ((Instr.madd h o x).wellFormed = true → x.pos = 0 ∧ x.wid = 0) ∧
     ((Instr.clz h o).wellFormed = true ∨ (Instr.popc h o).wellFormed = true → o.b = 0 ∧ o.s.getLsbD 0 = false)) ∧
  (∀ (h : Hd) (o : F3) (x : Option XR) (s : State) (vs : List Word) (l : Links) (p w : Nat),
     let a := vs.headD 0
     let b := vs.getD 1 0
     let q := fun opc => fieldIssue h opc o x
     (match x with
       | some r => p = r.pos.toNat ∧ w = (if r.wid = 0 then 64 else r.wid.toNat)
       | none => p = b.toNat % 64 ∧ w = (if b.toNat / 256 % 64 = 0 then 64 else b.toNat / 256 % 64)) →
     (p + w ≤ 64 → s.Goes (q 0x39) vs l → ∃ v : Word, exec (.bfx h o x) s = s.gives (q 0x39) l o.d v ∧
       ∀ i, i < 64 → v.getLsbD i = (decide (i < w) && a.getLsbD (p + i))) ∧
     (p + w ≤ 64 → s.Goes (q 0x3A) vs l → ∃ v : Word, exec (.bfi h o x) s = s.gives (q 0x3A) l o.d v ∧
       ∀ i, i < 64 → v.getLsbD i =
         (if p ≤ i ∧ i < p + w then a.getLsbD (i - p) else (s.cur.reg h.g o.d).getLsbD i)) ∧
     (64 < p + w → x.isSome = true ∨ s.Goes (q 0x39) vs l →
       exec (.bfx h o x) s = .next (s.takeTrap h.g tRANGE [BitVec.ofNat 64 (p + w)])) ∧
     (64 < p + w → x.isSome = true ∨ s.Goes (q 0x3A) vs l →
       exec (.bfi h o x) s = .next (s.takeTrap h.g tRANGE [BitVec.ofNat 64 (p + w)])) ∧
     (∀ i ∈ [Instr.bfx h o x, .bfi h o x], i.wellFormed = true →
       ∀ r, x = some r → o.b = 0 ∧ o.s.getLsbD 0 = false ∧ r.c = 0) ∧
     ((Instr.bfi h o x).wellFormed = true → isChan o.d = false))

/-- The immediate instructions complete as their register counterparts on imm7 or imm32 sign-extended (R152); LI and
LIH as R153 says. -/
def Obligations.ImmediateResults : Prop :=
  ∀ (h : Hd) (o : FI) (x : Option XI) (u : FU) (y : Option XU) (s : State) (a : Word) (l : Links),
    let i : Word := match x with | none => o.imm.signExtend 64 | some e => (e.immh ++ o.imm).signExtend 64
    let q := fun opc => h.issue opc (lenOf x) [(o.a, false)] [.reg o.d] 1
    let r := fun opc => h.issue opc (lenOf y) [] [.reg u.d] 1
    (s.Goes (q 0x40) [a] l → exec (.addi h o x) s = s.gives (q 0x40) l o.d (a + i)) ∧
    (s.Goes (q 0x41) [a] l → exec (.andi h o x) s = s.gives (q 0x41) l o.d (a &&& i)) ∧
    (s.Goes (q 0x42) [a] l → exec (.ori h o x) s = s.gives (q 0x42) l o.d (a ||| i)) ∧
    (s.Goes (q 0x43) [a] l → exec (.xori h o x) s = s.gives (q 0x43) l o.d (a ^^^ i)) ∧
    (s.Goes (q 0x44) [a] l → exec (.shli h o x) s = s.gives (q 0x44) l o.d (a <<< (i.toNat % 64))) ∧
    (s.Goes (q 0x45) [a] l → exec (.shri h o x) s = s.gives (q 0x45) l o.d (a >>> (i.toNat % 64))) ∧
    (s.Goes (q 0x46) [a] l →
      exec (.srai h o x) s = s.gives (q 0x46) l o.d (BitVec.ofInt 64 (a.toInt / 2 ^ (i.toNat % 64)))) ∧
    (s.Goes (q 0x47) [a] l →
      exec (.slti h o x) s = s.gives (q 0x47) l o.d (if a.toInt < i.toInt then 1 else 0)) ∧
    (s.Goes (r 0x48) [] l → exec (.li h u y) s = s.gives (r 0x48) l u.d
      (match y with | none => u.imm.setWidth 64 | some e => (e.immh ++ u.imm).signExtend 64)) ∧
    (s.Goes (r 0x49) [] l → exec (.lih h u y) s = s.gives (r 0x49) l u.d
      ((match y with | none => (u.imm.setWidth 32 : W32) | some e => e.immh ++ u.imm) ++
        (s.cur.reg h.g u.d).setWidth 32)) ∧
    (∀ j ∈ [Instr.shli h o x, .shri h o x, .srai h o x], j.wellFormed = true → 0 ≤ i.toInt ∧ i.toInt ≤ 63) ∧
    ((Instr.lih h u y).wellFormed = true → isChan u.d = false)

/-! ### Control -/

/-- The conditional branches complete taken and not taken (R133, R134), leave loops (R117) and publish their outcome
(R113); a full queue stalls them. -/
def Obligations.ConditionalBranches : Prop :=
  ∀ (h : Hd) (o : FB) (x : Option XB) (o' : FZ) (x' : Option XZ) (s : State) (a b : Word) (l : Links) (n : Nat),
    let p := s.pc h.g
    (∀ e ∈ [(Instr.beq h o x, 0x02, decide (a = b)), (.bne h o x, 0x03, decide (a ≠ b)),
            (.blt h o x, 0x04, decide (a.toInt < b.toInt)), (.bge h o x, 0x05, decide (b.toInt ≤ a.toInt)),
            (.bltu h o x, 0x06, decide (a.toNat < b.toNat)), (.bgeu h o x, 0x07, decide (b.toNat ≤ a.toNat))],
      let q := h.issue e.2.1 (lenOf x) [pop o.a, pop o.b] [] 1
      let pub := pubOfB x
      s.Goes q [a, b] l →
        (¬ s.canPublish pub → exec e.1 s = .next (s.stall h.g 7)) ∧
        (s.canPublish pub → e.2.2 = false → exec e.1 s = (s.publishing pub false).ends q l) ∧
        (s.canPublish pub → e.2.2 = true → (p : Int) + o.offset x = n → s.cur.Reaches h.g n →
          exec e.1 s = ((s.leavingLoops h.g n).publishing pub true).goesTo q l [] n)) ∧
    (∀ e ∈ [(Instr.bz h o' x', 0x08, decide (a = 0)), (.bnz h o' x', 0x09, decide (a ≠ 0))],
      let q := h.issue e.2.1 (lenOf x') [pop o'.a] [] 1
      let pub := pubOfZ x'
      s.Goes q [a] l →
        (¬ s.canPublish pub → exec e.1 s = .next (s.stall h.g 7)) ∧
        (s.canPublish pub → e.2.2 = false → exec e.1 s = (s.publishing pub false).ends q l) ∧
        (s.canPublish pub → e.2.2 = true → (p : Int) + o'.offset x' = n → s.cur.Reaches h.g n →
          exec e.1 s = ((s.leavingLoops h.g n).publishing pub true).goesTo q l [] n))

/-- B, BFOL, CALL, RET and JR complete with the target of R114, R134 and R135; an empty outcome queue stalls BFOL or
raises CHANNEL (R110); a register target that does not fit 14 bits raises RANGE. -/
def Obligations.JumpsCallsAndReturns : Prop :=
  ∀ (h : Hd) (o : FZ) (x : Option XZ) (s : State) (a : Word) (l : Links) (n : Nat),
    let p := s.pc h.g
    let qb := h.issue 0x01 (lenOf x) [] [] 1
    let qf := { h.issue 0x0A (lenOf x) [] [] 1 with legal := s.cur.st != .handler }
    let qc := h.issue 0x0B (lenOf x) [] [.reg o.a] 1
    let qr := h.issue 0x0C 1 [pop o.a] [] 1
    let qj := h.issue 0x0D (lenOf x) [pop o.a] [] 1
    let outcomes := s.cur.links.outc.get h.g
    (s.Goes qb [] l → (p : Int) + o.offset x = n → s.cur.Reaches h.g n →
      exec (.b h o x) s = (s.leavingLoops h.g n).goesTo qb l [] n) ∧
    (∀ rest, s.Goes qf [] l → outcomes.q = true :: rest → (p : Int) + o.offset x = n → s.cur.Reaches h.g n →
      exec (.bfol h o x) s = ((s.leavingLoops h.g n).setCur fun t =>
        { t with links := { t.links with outc := t.links.outc.set h.g { outcomes with q := rest } } }).goesTo qf l [] n) ∧
    (∀ rest, s.Goes qf [] l → outcomes.q = false :: rest →
      exec (.bfol h o x) s = (s.setCur fun t =>
        { t with links := { t.links with outc := t.links.outc.set h.g { outcomes with q := rest } } }).ends qf l) ∧
    (s.Goes qf [] l → outcomes.q = [] → s.cur.noOutcome h.g = false →
      exec (.bfol h o x) s = .next (s.stall h.g 6)) ∧
    (s.Goes qf [] l → outcomes.q = [] → s.cur.noOutcome h.g = true →
      exec (.bfol h o x) s = .next (s.takeTrap h.g tCHANNEL [w64 (7 + h.g.code.toNat)])) ∧
    (s.Goes qc [] l → (p : Int) + o.offset x = n → s.cur.Reaches h.g n →
      exec (.call h o x) s = s.goesTo qc l [.reg o.a (BitVec.ofNat 64 (p + (if x = none then 1 else 2)))] n) ∧
    (s.Goes qr [a] l → a.toNat = n → n < 16384 → s.cur.Reaches h.g n →
      exec (.ret h o) s = s.goesTo qr l [] n) ∧
    (s.Goes qj [a] l → a.toNat < 16384 → (a.toNat : Int) + o.offset x = n → s.cur.Reaches h.g n →
      exec (.jr h o x) s = (s.leavingLoops h.g n).goesTo qj l [] n) ∧
    (s.Goes qr [a] l → 16384 ≤ a.toNat → exec (.ret h o) s = .next (s.takeTrap h.g tRANGE [a, 0x0C])) ∧
    (s.Goes qj [a] l → 16384 ≤ a.toNat → exec (.jr h o x) s = .next (s.takeTrap h.g tRANGE [a, 0x0D]))

/-- A transfer outside the text raises PROTECT, to a continuation word ILLEGAL (R61), below the slip window WINDOW
(R100), with the arguments of R132. That the target stands in TARG0 of PROTECT is the model's choice (assumption log
19). -/
def Obligations.TransferTraps : Prop :=
  ∀ (h : Hd) (o : FZ) (x : Option XZ) (s : State) (a : Word) (l : Links) (n : Nat),
    let p := s.pc h.g
    let qb := h.issue 0x01 (lenOf x) [] [] 1
    let qc := h.issue 0x0B (lenOf x) [] [.reg o.a] 1
    let qr := h.issue 0x0C 1 [pop o.a] [] 1
    let qj := h.issue 0x0D (lenOf x) [pop o.a] [] 1
    ∀ e ∈ [(Instr.b h o x, qb, [], (p : Int) + o.offset x), (.call h o x, qc, [], (p : Int) + o.offset x),
           (.ret h o, qr, [a], (a.toNat : Int)), (.jr h o x, qj, [a], (a.toNat : Int) + o.offset x)],
      a.toNat < 16384 → s.Goes e.2.1 e.2.2.1 l →
        (e.2.2.2 < 0 → exec e.1 s = .next (s.takeTrap h.g tPROTECT [BitVec.ofInt 64 e.2.2.2])) ∧
        (e.2.2.2 = n → s.cur.text.length ≤ n → exec e.1 s = .next (s.takeTrap h.g tPROTECT [BitVec.ofNat 64 n])) ∧
        (e.2.2.2 = n → n < s.cur.text.length → isCont s.cur.text n = true →
          exec e.1 s = .next (s.takeTrap h.g tILLEGAL (s.cur.illegalArgs h.g))) ∧
        (e.2.2.2 = n → n < s.cur.text.length → isCont s.cur.text n = false →
          n + s.cur.sys.win.toNat < s.cur.pc0.maxOther h.g →
          exec e.1 s = .next (s.takeTrap h.g tWINDOW
            [BitVec.ofNat 64 n, BitVec.ofNat 64 s.cur.sys.win.toNat, BitVec.ofNat 64 (s.cur.pc0.maxOther h.g)]))

/-- LOOP and LOOPI start a level or skip its body (R136); BRKL ends a level and all levels started after it (R137). -/
def Obligations.HardwareLoops : Prop :=
  ∀ (h : Hd) (o : FL) (x : Option XL) (k : Option XK) (s : State) (c : Word) (vs : List Word) (l : Links),
    let p := s.pc h.g
    let e := loopEnd o x
    let ek := loopEndK o k
    let shaped := match x with | some y => y.kind | none => false
    let named := match x with | some y => if y.kind then [Name.sh y.sh.toNat] else [] | none => []
    let ql := { h.issue 0x0E (lenOf x) (if shaped then [] else [pop o.cnt]) named 1 with
      legal := s.cur.bodyOk h.g (lenOf x) e }
    let qi := { h.issue 0x0F (lenOf k) [] [] 1 with legal := s.cur.bodyOk h.g (lenOf k) ek }
    let count : Nat := match k with | some y => (y.cnth ++ o.cnt).toNat | none => o.cnt.toNat
    let lv := (s.cur.engine h.g).level o.lv.toNat
    let qb := { h.issue 0x10 1 [] [] 1 with legal := s.cur.st != .handler && lv.active }
    (match x with
      | some y => if y.kind then c = (s.cur.ext y.sh.toNat y.ext.toNat).setWidth 64 else vs = [c]
      | none => vs = [c]) →
    (s.Goes ql vs l → 2 ^ 32 ≤ c.toNat → exec (.loop h o x) s = .next (s.takeTrap h.g tRANGE [c, 0x0E])) ∧
    (s.Goes ql vs l → 0 < c.toNat → c.toNat < 2 ^ 32 →
      exec (.loop h o x) s = (s.setEng h.g fun en => { en with
        levels := en.levels.set o.lv.toNat ⟨true, p + lenOf x, p + e, BitVec.ofNat 32 c.toNat, en.starts⟩
        starts := en.starts + 1 }).ends ql l) ∧
    (s.Goes ql vs l → c.toNat = 0 → s.cur.Reaches h.g (p + e + 1) →
      exec (.loop h o x) s = s.goesTo ql l [] (p + e + 1)) ∧
    (s.Goes qi [] l → 0 < count →
      exec (.loopi h o k) s = (s.setEng h.g fun en => { en with
        levels := en.levels.set o.lv.toNat ⟨true, p + lenOf k, p + ek, BitVec.ofNat 32 count, en.starts⟩
        starts := en.starts + 1 }).ends qi l) ∧
    (s.Goes qi [] l → count = 0 → s.cur.Reaches h.g (p + ek + 1) →
      exec (.loopi h o k) s = s.goesTo qi l [] (p + ek + 1)) ∧
    (s.Goes qb [] l → s.cur.Reaches h.g (lv.stop + 1) →
      ∃ u, exec (.brkl h o) s = u.goesTo qb l [] (lv.stop + 1) ∧
        u = s.setEng h.g (fun en => { en with levels := (u.cur.engine h.g).levels }) ∧
        (∀ (j : Nat) (m : Level), (s.cur.engine h.g).levels[j]? = some m → (u.cur.engine h.g).levels[j]? = some
          { m with cnt := if j = o.lv.toNat then 0 else m.cnt
                   active := m.active && decide (j ≠ o.lv.toNat) && decide (m.ord < lv.ord) })) ∧
    (s.cur.st = .handler ∨ lv.active = false →
      exec (.brkl h o) s = .next (s.takeTrap h.g tILLEGAL (s.cur.illegalArgs h.g)))

/-! ### NOP, TRAP, WAITT, FENCE, TRI and the system registers -/

/-- TRAP takes the trap SWTRAP, code 0x16, with imm12 in TARG0 (R139); what taking a trap does is stated of takeTrap
below. -/
def Obligations.TrapRaisesSwtrap : Prop :=
  ∀ (h : Hd) (o : FU) (s : State) (l : Links),
    s.Goes (h.issue 0x11 1 [] [] 1) [] l →
      exec (.trap h o) s = .next (s.takeTrap h.g 0x16 [o.imm.setWidth 64])

/-- NOP (R138), WAITT (R141), FENCE (R284, R295) and TRI (R125) complete; what FENCE waits for counts from its first
attempt to issue. -/
def Obligations.NopWaittFenceTri : Prop :=
  ∀ (h : Hd) (o : F3) (f : FU) (s : State) (a : Word) (l : Links),
    let qn := h.issue 0x00 1 [] [] 1
    let qw := fun later => { h.issue 0x15 1 [pop o.a] [] 1 with async := later }
    let qf := h.issue 0x16 1 [] [] 1
    let since := (s.cur.engine h.g).since.getD s.clock
    let waiting := s.setEng h.g fun e => { e with since := some since }
    let passed := (∀ op ∈ s.cur.ops, op.done = true ∨ f.imm.getLsbD op.kind.path = false ∨ since ≤ op.issued) ∧
      (f.imm.getLsbD 2 = true → ∀ n ∈ s.cur.nest.toList ++ s.cur.pend.toList, since ≤ n.issued) ∧
      s.accessesOut f.imm = false ∧ (f.imm.toNat / 256 % 8 = 4 → s.sendsOut f.imm = false)
    let next := (s.cur.moveOn h.g 1).1
    (s.Goes qn [] l → exec (.nop h) s = s.ends qn l) ∧
    (s.Goes (qw false) [a] l → a.toNat ≤ s.ns → exec (.waitt h o) s = s.ends (qw false) l) ∧
    (s.Goes (qw true) [a] l → s.ns < a.toNat →
      exec (.waitt h o) s = (s.setEng h.g fun e => { e with wait := some ⟨a, h.ring.sp, h.ring.sn⟩ }).ends (qw true) l) ∧
    (s.Goes qf [] l → passed → exec (.fence h f) s = waiting.ends qf l) ∧
    (s.Goes qf [] l → ¬ passed → exec (.fence h f) s = .next (waiting.stall h.g 0)) ∧
    ((s.cur.moveOn h.g 1).2 = none → next.triOk h.g (next.engine h.g).issueAddr = true →
      exec (.tri h) s = .next { s with cur := next.setEngine h.g fun e => { e with tri := some (s.pc h.g), why := 0 } }) ∧
    ((s.cur.moveOn h.g 1).2 = none → next.triOk h.g (next.engine h.g).issueAddr = false →
      exec (.tri h) s = .next (s.takeTrap h.g tILLEGAL (s.cur.illegalArgs h.g)))

/-- GETS and SETS over the whole table of R142 (R140). The argument words of the RANGE are the model's reading of
R132. -/
def Obligations.SystemRegisterAccess : Prop :=
  (∀ (h : Hd) (o : FU) (s : State) (l : Links),
     let q := h.issue 0x12 1 [] [.reg o.d] 1
     let t := s.cur
     let e := t.engine h.g
     let levels := match t.aside with | some a => a.levels.get h.g | none => e.levels
     s.Goes q [] l →
     ∀ r ∈ [(0, e.tick), (1, BitVec.ofNat 64 s.ns), (2, t.sys.strand), (3, t.sys.ctx.setWidth 64),
            (4, t.sys.win.setWidth 64), (5, t.sys.stl.setWidth 64), (6, t.sys.vfmt.setWidth 64),
            (7, if t.x.timed then 1 else 0), (8, t.sys.phasen.setWidth 64), (9, t.sys.trapc.setWidth 64),
            (10, (t.sys.li.getD 0 0).setWidth 64), (11, (t.sys.li.getD 1 0).setWidth 64),
            (12, (t.sys.li.getD 2 0).setWidth 64), (13, (t.sys.li.getD 3 0).setWidth 64),
            (14, (t.sys.li.getD 4 0).setWidth 64), (15, (t.sys.li.getD 5 0).setWidth 64),
            (16, t.sys.grank.setWidth 64), (17, t.sys.gsize.setWidth 64), (18, t.sys.thrift.setWidth 64),
            (19, t.sys.tvec.setWidth 64), (20, t.sys.tmask.setWidth 64), (21, e.tepc.setWidth 64), (22, t.sys.tinfo),
            (23, t.sys.targ.getD 0 0), (24, t.sys.targ.getD 1 0), (25, t.sys.targ.getD 2 0), (26, t.sys.targ.getD 3 0),
            (28, (levels.getD 0 .off).cnt.setWidth 64), (29, (levels.getD 1 .off).cnt.setWidth 64),
            (30, (levels.getD 2 .off).cnt.setWidth 64), (31, t.links.ringst)],
       o.imm.toNat = r.1 → exec (.gets h o) s = s.gives q l o.d r.2) ∧
  (∀ (h : Hd) (o : FU) (s : State) (v : Word) (l : Links),
     let i := o.imm.toNat
     let q := { h.issue 0x13 1 [pop o.d] [] 1 with legal := s.cur.st == .handler || (i != 21 && i != 27) }
     let n := v.toNat
     let fits := (i = 4 → 16 ≤ n ∧ n ≤ 256) ∧ (i = 5 → n < 2 ^ 32 ∧ (n = 0 ∨ 1024 ≤ n)) ∧ (i = 6 → n < 128) ∧
       (i = 19 → n < 2 ^ 32 ∧ n / 2 ^ 14 % 2 ^ 17 = 0) ∧
       (i = 20 → n < 2 ^ 27 ∧ v.getLsbD 0 = false ∧ v.getLsbD 18 = false) ∧
       (i = 21 → n < 16384) ∧ (i = 27 → n ≤ 1) ∧ (28 ≤ i → n < 2 ^ 32)
     i ∈ [4, 5, 6, 19, 20, 21, 27, 28, 29, 30] → s.Goes q [v] l →
     (fits → exec (.sets h o) s = (s.setCur fun t => { t with lates := t.lates ++ [(h.g, .sys h.g i v)] }).ends q l ∧
       (i ≠ 27 → (match s.cur.aside with | some k => k.levels.get h.g | none => (s.cur.engine h.g).levels).length = 3 →
         (s.cur.setSys h.g i v).sysReg s.ns h.g i = v)) ∧
     (¬ fits → exec (.sets h o) s = .next (s.takeTrap h.g tRANGE [v, o.imm.setWidth 64])))

/-! ### What holds of every scalar instruction -/

/-- The frame of NOP, the branches, jumps, loops, TRAP, WAITT, FENCE, GETS and all integer instructions: only d, the
pc, loop and ring state may change, and the trap registers when a trap is taken. -/
def Obligations.ScalarInstructionFrame : Prop :=
  ∀ (i : Instr) (s t : State) (g : Eng) (d : Option (BitVec 5)),
    scalarDest i = some (g, d) → (g = .x → s.cur.Calm) → exec i s = .next t →
      s.Keeps t ∧
      (∀ e n, ¬ (e = g ∧ d = some n) → t.cur.reg e n = s.cur.reg e n) ∧
      t.cur.sys.untrapped = s.cur.sys.untrapped ∧
      (s.cur.runs = true → t.cur.st = s.cur.st → t.cur.sys = s.cur.sys) ∧
      (t.cur.reg .a 0 = 0 ∧ t.cur.x.pred 0 = BitVec.allOnes 1024)

/-! ### The issue stage, results, traps -/

/-- The issue stage in order: the checks of R78, ring waits (R103), channel sources (R109, R110), pending registers
(R118). That a pending register holds back the checks on operand values is the model's choice (assumption log 19). -/
def Obligations.WhatIssueWaitsFor : Prop :=
  ∀ (q : Issue) (body : List Word → Act Done) (s : State),
    let l := s.cur.links
    let w := (s.landed q.g).cur
    let ready := q.legal = true ∧ q.early = none ∧ l.waitsOn q.g q.ring = none
    (l.waitsOn q.g q.ring = some 1 ↔ q.ring.wp = true ∧ (l.sn.get q.g.pred).now = 0) ∧
    (l.waitsOn q.g q.ring = some 2 ↔
      ¬ (q.ring.wp = true ∧ (l.sn.get q.g.pred).now = 0) ∧ q.ring.wn = true ∧ (l.sp.get q.g.succ).now = 0) ∧
    (q.legal = false → issue q body s = .next (s.takeTrap q.g tILLEGAL
      [(s.cur.wordsAt (s.pc q.g)).1.setWidth 64, ((s.cur.wordsAt (s.pc q.g)).2.getD 0).setWidth 64])) ∧
    (∀ p, q.legal = true → q.early = some p → issue q body s = .next (s.takeTrap q.g p.1 p.2)) ∧
    (∀ why, q.legal = true → q.early = none → l.waitsOn q.g q.ring = some why →
      issue q body s = .next (s.stall q.g why)) ∧
    (∀ n, ready → w.readSrcs q.g q.srcs w.links = .closed n →
      issue q body s = .next (s.takeTrap q.g tCHANNEL [BitVec.ofNat 64 n])) ∧
    (ready → w.readSrcs q.g q.srcs w.links = .empty → issue q body s = .next (s.stall q.g 4)) ∧
    (∀ vs k, ready → w.readSrcs q.g q.srcs w.links = .ok vs k → s.cur.mustAwait q = true →
      issue q body s = .next (s.stall q.g 0)) ∧
    -- a result of X lands as X's tick begins, in a timed region alone (R119); where it cannot land, X has no tick
    (s.cur.Calm ∨ q.g ≠ .x → s.landed q.g = s) ∧
    (∀ why, s.cur.landDue.2 = some why → s.cur.landDue.1 = s.cur) ∧
    (∀ g why, (s.stall g why).cur = s.cur.setEngine g (fun e => { e with why }) ∧ (s.stall g why).mem = s.mem)

/-- What finish does to one scalar result: written at once, pushed (R108), or in flight (R118); a0 discards it (R72).
-/
def Obligations.ResultsLand : Prop :=
  ∀ (q : Issue) (s : State) (vs : List Word) (l : Links) (d : BitVec 5) (v : Word),
    let t := s.finish q l (.of [.reg d v])
    s.Goes q vs l → s.cur.x.timed = false ∨ q.g ≠ .x → s.cur.links.chans.length = 8 → (s.cur.engine q.g).tri = none →
      (q.lat ≤ 1 → isChan d = false → d.toNat < (s.cur.regs.get q.g).length →
        s.cur.links.canSignal q.g q.ring.sp q.ring.sn = true →
        t.cur.reg q.g d = if q.g = .a ∧ d = 0 then 0 else v) ∧
      (q.lat ≤ 1 → isChan d = true → s.cur.links.canSignal q.g q.ring.sp q.ring.sn = true →
        (s.cur.links.chan (chanNo d)).room = true →
        (t.cur.links.chan (chanNo d)).add = (s.cur.links.chan (chanNo d)).add ++ [v]) ∧
      (2 ≤ q.lat → ∃ f, t.cur.fl = s.cur.fl ++ [f] ∧ f.g = q.g ∧ f.rem = q.lat ∧ f.wb = [.reg d v] ∧
        f.sp = (q.ring.sp && !q.async) ∧ f.sn = (q.ring.sn && !q.async)) ∧
      (∀ g n, ¬ (g = q.g ∧ n = d) → t.cur.reg g n = s.cur.reg g n) ∧
      (t.cur.engine q.g).tick = (s.cur.engine q.g).tick + 1

/-- Handler entry (R128) for an engine at its own word; the TEPC of an engine whose TRI has issued is its TRI, the
model's choice (assumption log 20). -/
def Obligations.TrapEntersHandler : Prop :=
  ∀ (s : State) (g : Eng) (code : Nat) (args : List Word),
    let t := s.takeTrap g code args
    let addr := s.cur.sys.tvec.toNat % 16384
    s.cur.sys.tvec.getLsbD 31 = true → s.cur.sys.tmask.getLsbD code = true → s.cur.st = .running →
    addr < s.cur.text.length → isCont s.cur.text addr = false → args ≠ [] → args.length ≤ 4 →
    (∀ e, (s.cur.engine e).moving = none) →
      t.cur.st = .handler ∧ t.cur.sys.trapc = BitVec.ofNat 8 code ∧
      t.cur.sys.tinfo = s.cur.tinfo g code ∧
      (∀ n, n < 4 → t.cur.sys.targ.getD n 0 = args.getD n 0) ∧
      t.cur.x.timed = false ∧ t.cur.pc0 = .all addr ∧
      (∀ e, (t.cur.engine e).pc = addr ∧ (t.cur.engine e).moving = some addr ∧
        (∀ l ∈ (t.cur.engine e).levels, l.active = false) ∧
        (t.cur.engine e).tepc = BitVec.ofNat 14
          (if e = g then s.pc e else match (s.cur.engine e).tri with | some p => p | none => s.pc e)) ∧
      (∃ a, t.cur.aside = some a ∧ a.timed = s.cur.x.timed ∧ a.outc = s.cur.links.outc ∧
        (∀ e, a.levels.get e = (s.cur.engine e).levels)) ∧
      t.cur.links.sn = s.cur.links.sn ∧ t.cur.links.sp = s.cur.links.sp ∧ t.cur.links.chans = s.cur.links.chans ∧
      t.cur.regs = s.cur.regs ∧ t.mem = s.mem

/-- An unrouted trap: the record of R131 waits for the trap ring (R388), the strand becomes HALTED or ENDED (R95). -/
def Obligations.UnroutedTrapPostsRecord : Prop :=
  ∀ (s : State) (code : Nat) (info : Word) (args : List Word),
    let t := s.unroutedTrap code info args
    let rec' := s.cur.trapRecord s.ns info args
    args.length = 4 →
      rec'.length = 64 ∧
      (t.ctxOf s.cur.sys.ctx.toNat).held = (s.ctxOf s.cur.sys.ctx.toNat).held ++ [(false, rec')] ∧
      (code = tBREAK → t.cur.st = .halted ∧ t.cur.back = s.cur.st) ∧
      (code ≠ tBREAK → t.cur.st = .ended ∧ t.cur.ph.buf = [] ∧
        (∀ k, SMap.get? s.work.tasks s.cur.task = some k →
          (SMap.get? t.work.tasks s.cur.task).map Task.status = some (if k.status = 0 then 1 else k.status))) ∧
      t.mem = s.mem ∧ t.cur.regs = s.cur.regs

/-- The return of R130 with every TRET 0 and an empty landing queue. -/
def Obligations.HandlerReturn : Prop :=
  ∀ (s : State) (a : Aside),
    let t := s.leaveHandler
    s.cur.aside = some a → (∀ e, (s.cur.engine e).tret = some 0 ∧ (s.cur.engine e).tri = none) →
    (let p := s.cur.eng.map fun e => e.tepc.toNat
     max (max p.a p.x) (max p.m p.w) - min (min p.a p.x) (min p.m p.w) ≤ s.cur.sys.win.toNat) →
      t.cur.st = .running ∧ t.cur.aside = none ∧ t.cur.x.timed = a.timed ∧ t.cur.links.outc = a.outc ∧
      (∀ e, (t.cur.engine e).issueAddr = (s.cur.engine e).tepc.toNat ∧ (t.cur.engine e).levels = a.levels.get e ∧
        (t.cur.engine e).tret = none) ∧
      t.cur.fl = s.cur.fl ++ a.landing ∧ t.cur.x.dp = a.dp ∧ t.cur.x.sfu = a.sfu ∧ t.cur.x.alu = a.alu ∧
      t.cur.regs = s.cur.regs ∧ t.cur.sys = s.cur.sys ∧ t.mem = s.mem ∧
      t.cur.links.sn = s.cur.links.sn ∧ t.cur.links.sp = s.cur.links.sp ∧ t.cur.links.chans = s.cur.links.chans

/-! ### Scalar memory instructions -/

/-- The scalar loads (R154, R155, R286): the bytes the strand sees, its own stores included. The argument words of the
traps are as R317 and R324 give them, else free (assumption log 17). -/
def Obligations.ScalarLoads : Prop :=
  ∀ (h : Hd) (o : F3) (x : Option XM) (s u : State) (vs : List Word) (l : Links) (b : List Byte),
    let va := memAddr x vs
    let n := 2 ^ o.s.toNat
    let q := fun opc => memIssue h opc o x false
    let signed : Word := BitVec.ofInt 64 ((BitVec.ofNat (8 * n) (leNat b)).toInt)
    let fits := va.toNat % n = 0 ∧ canonical va = true
    (s.Goes (q 0x4B) vs l → fits → s.Loads va n true b u → exec (.ld h o x) s = u.gives (q 0x4B) l o.d signed) ∧
    (s.Goes (q 0x4C) vs l → fits → s.Loads va n true b u →
      exec (.ldz h o x) s = u.gives (q 0x4C) l o.d (BitVec.ofNat 64 (leNat b))) ∧
    (s.Goes (q 0x17) vs l → fits → s.Loads va n false b u → exec (.ldaq h o x) s = u.gives (q 0x17) l o.d signed) ∧
    -- a peer's page: the load leaves X at once, and its register waits for the answer
    (∀ e ∈ [(Instr.ld h o x, 0x4B, true), (.ldz h o x, 0x4C, false)], ∀ y t, s.Goes (q e.2.1) vs l → fits →
      s.ownXlate va .read = .ok y t → y.home = 2 →
      let v := t.setCur fun c => { c with ph := c.ph.note va }
      v.requestRoom = true → exec e.1 s = (v.askPeer (v.peerRequest 2 y.pa n [] 0 e.2.1 va)).writes (q e.2.1) l
        [.await o.d (.peer v.net.tagN.toNat) va (v.ownBytes 2 y.pa n) e.2.2]) ∧
    (∀ e ∈ [(Instr.ld h o x, 0x4B), (.ldz h o x, 0x4C), (.ldaq h o x, 0x17)], s.Goes (q e.2) vs l →
      (va.toNat % n ≠ 0 → exec e.1 s = .next (s.takeTrap h.g tALIGN [])) ∧
      (va.toNat % n = 0 → canonical va = false → exec e.1 s = .next (s.takeTrap h.g tPROTECT [va, 0])) ∧
      (∀ f, fits → s.ownXlate va .read = .fault f → f.code = 3 →
        exec e.1 s = .next (s.takeTrap h.g tPROTECT (faultArgs f none))) ∧
      (∀ f, fits → s.ownXlate va .read = .fault f → f.code ≠ 3 →
        exec e.1 s = .next ((s.phaseFault h.g none f e.2).stall h.g 0)))

/-- The scalar stores (R154, R286); what the stored block changes is stated below. -/
def Obligations.ScalarStores : Prop :=
  ∀ (h : Hd) (o : F3) (x : Option XM) (s u : State) (vs : List Word) (l : Links),
    let va := memAddr x vs
    let n := 2 ^ o.s.toNat
    let b := leBytes n (memData x vs).toNat
    let q := fun opc => memIssue h opc o x true
    let fits := va.toNat % n = 0 ∧ canonical va = true
    (s.Goes (q 0x4D) vs l → fits → s.Stores va b none false u → exec (.st h o x) s = u.ends (q 0x4D) l) ∧
    (s.Goes (q 0x18) vs l → fits → s.Stores va b none true u → exec (.strl h o x) s = u.ends (q 0x18) l) ∧
    (∀ e ∈ [(Instr.st h o x, 0x4D), (.strl h o x, 0x18)], s.Goes (q e.2) vs l →
      (va.toNat % n ≠ 0 → exec e.1 s = .next (s.takeTrap h.g tALIGN [])) ∧
      (va.toNat % n = 0 → canonical va = false → exec e.1 s = .next (s.takeTrap h.g tPROTECT [va, 256])) ∧
      (∀ f, fits → s.ownXlate va .write = .fault f → f.code = 3 →
        exec e.1 s = .next (s.takeTrap h.g tPROTECT (faultArgs f none))))

/-- What a store inside one block does: the strand sees its bytes and, everywhere else, what it saw before; memory
itself changes, in the bytes stored alone, only in an unrepeatable phase (R302, R304). -/
def Obligations.StoredBytesAreSeen : Prop :=
  ∀ (s t : State) (x : Xlate) (va : Word) (b : List Byte) (strl : Bool),
    let e := blockOf x va b none strl
    let u := t.storeBlock e
    let stored := fun (home a : Nat) => home = x.home ∧ x.pa ≤ a ∧ a < x.pa + b.length
    s.ownXlate va .write = .ok x t → t.memWf = true → x.home ≤ 1 → x.pa % 64 + b.length ≤ 64 → 0 < b.length →
    (t.cur.ph.rep = true → (bufStore t.cur.ph.buf e).isSome = true) → (t.cur.ph.rep = false → t.cur.ph.buf = []) →
      (∀ home a, home ≤ 1 → u.seen home a 1 =
        if stored home a then [b.getD (a - x.pa) 0] else t.seen home a 1) ∧
      (t.cur.ph.rep = true → u.mem = t.mem) ∧
      (t.cur.ph.rep = false → ∀ home a, home ≤ 1 → ¬ stored home a → u.mem.bytes home a 1 = t.mem.bytes home a 1)

/-! ### Joint words -/

/-- Joint words (R111, R112). That the effect falls at W's turn is the model's scheduling (assumption log 1); what a
YIELD saves is stated in the model's own terms (assumption log 24). -/
def Obligations.JointWords : Prop :=
  ∀ (s : State) (o : BitVec 2) (y : BitVec 30) (m : Bool),
    let at' := s.waitJoint false
    let quiet := ∀ f ∈ s.cur.fl, f.g ≠ .x
    let answered := s.cur.awaiting = false
    let allQuiet := s.cur.fl = [] ∧ (∀ p ∈ s.cur.ops, p.sp = false ∧ p.sn = false) ∧
      (∀ n ∈ s.cur.nest.toList ++ s.cur.pend.toList, n.sp = false ∧ n.sn = false)
    let done := quiet ∧ s.cur.nest = none ∧ s.cur.pend = none ∧ ∀ p ∈ s.cur.ops, p.done = true
    let phase := fun (s : State) => (s.startCommit).cur.ph.buf = []
    (∀ i ∈ [Instr.sync, .phase o, .phaseLong o y, .mode m, .yieldJ], ∀ g, s.turn.engine = some g → g ≠ .w →
      exec i s = .next at') ∧
    (∀ g, s.turn.engine = some g → g ≠ .w → exec .endJ s = .next (s.waitJoint true)) ∧
    (s.Meets → quiet → exec .sync s = .next (at'.leaveJoint 1)) ∧
    (s.Meets → allQuiet → exec (.mode m) s = .next
      ((at'.setCur fun t => { t with x := { t.x with timed := m, dp := 0, sfu := 0, alu := 0 } }).leaveJoint 1)) ∧
    (s.Meets → s.cur.st = .handler → exec .endJ s = .next (s.waitJoint true)) ∧
    (s.Meets → quiet → s.cur.st = .running → exec .endJ s = .next
      (((s.waitJoint true).setCur fun t => { t with st := .ending }).postOnce .strandEnded s.cur.key)) ∧
    (s.Meets → quiet → (at'.leaveJoint 1).cur.preempt = false → (at'.leaveJoint 1).curLeaving = false →
      exec .yieldJ s = .next (at'.leaveJoint 1)) ∧
    (s.Meets → quiet → (at'.leaveJoint 1).cur.preempt = false → (at'.leaveJoint 1).cur.st = .running →
      (at'.leaveJoint 1).curLeaving = true → (at'.leaveJoint 1).frameFree = true →
      exec .yieldJ s = .next ((at'.leaveJoint 1).moveStrand 0)) ∧
    (s.Meets → quiet → (at'.leaveJoint 1).cur.preempt = true → (at'.leaveJoint 1).cur.runs = true →
      (at'.leaveJoint 1).frameFree = true → exec .yieldJ s = .next ((at'.leaveJoint 1).stashStrand 0)) ∧
    (∀ i ∈ [Instr.phase o, .phaseLong o y], s.Meets → done → answered →
      (at'.cur.links.empty? = false →
        exec i s = .next (at'.takeTrap .a tILLEGAL (at'.cur.illegalArgs .a))) ∧
      (at'.cur.links.empty? = true → phase at' → exec i s = .next at'.startCommit.finishPhase) ∧
      (at'.cur.links.empty? = true → ¬ phase at' →
        exec i s = .next (at'.startCommit.postOnce .phaseCommitDone at'.startCommit.cur.key)))

/-! ### Tile words, shape registers, layout slots -/

/-- LDT and STT (R156, R157, R188). A read-only alias raises HANDLE (R395). -/
def Obligations.TileLoadAndStore : Prop :=
  ∀ (h : Hd) (o : F3) (x : Option XM) (s : State) (vs : List Word) (l : Links) (v : Tile),
    let n := 2 ^ o.s.toNat
    let k := (vs.headD 0).toNat
    let off := (tileOffset x vs).toNat
    let ql := { memIssue h 0x4E o x false with lat := if v.near then 40 else 12 }
    let qs := memIssue h 0x4F o x true
    let fits := off % n = 0 ∧ off + n ≤ v.rows * v.rb ∧ s.rowsBusy k (off / v.rb) ((off + n - 1) / v.rb + 1) = false
    let spot := s.tileSpot v v.half off
    let sound := s.mem.spoilt v.store spot n = false
    k < 128 → s.cur.tile? k = some v → s.cur.readSrcs h.g [(o.a, true)] s.cur.links = .ok [vs.headD 0] s.cur.links →
      (s.Goes ql vs l → fits → sound →
        exec (.ldt h o x) s = (s.corrected (16 + v.store.code) spot n).gives ql l o.d
          (BitVec.ofNat 64 (leNat (v.front.bytes off n)))) ∧
      (s.Goes qs vs l → fits → v.ro = false →
        exec (.stt h o x) s = (s.heal v.store spot n).writes qs l [.tile k off (leBytes n (memData x vs).toNat)]) ∧
      (∀ b, s.cur.write h.g (.tile k off b) = s.cur.setTile k (v.setFront (v.front.put off b))) ∧
      (s.Goes qs vs l → v.ro = true → exec (.stt h o x) s = .next (s.takeTrap h.g tHANDLE [vs.headD 0])) ∧
      (∀ e ∈ [(Instr.ldt h o x, ql), (.stt h o x, qs)], s.Goes e.2 vs l → v.ro = false →
        (off % n ≠ 0 → exec e.1 s = .next (s.takeTrap h.g tALIGN [])) ∧
        (off % n = 0 → v.rows * v.rb < off + n → exec e.1 s = .next (s.takeTrap h.g tRANGE [])) ∧
        (off % n = 0 → off + n ≤ v.rows * v.rb →
          s.rowsBusy k (off / v.rb) ((off + n - 1) / v.rb + 1) = true → exec e.1 s = .next (s.stall h.g 0)))

/-- The shape instructions (R160 to R163) and the layout instructions (R169 to R173), results and traps. -/
def Obligations.ShapeAndLayoutInstructions : Prop :=
  (∀ (h : Hd) (o : F3) (f : FU) (x : Option XU) (s : State) (a : Word) (l : Links),
     let n := o.d.toNat
     let k := o.b.toNat % 4
     let e := (s.cur.ext n k).toNat
     let q := fun opc => h.issue opc 1 [(o.a, o.s.getLsbD 1)] [.sh n] 1
     let qi := h.issue 0x51 (lenOf x) [] [.sh f.d.toNat] 1
     let qg := h.issue 0x52 1 [] [.reg o.d, .sh o.a.toNat] 1
     let qc := h.issue 0x55 1 [] [.sh n, .sh o.a.toNat] 1
     let imm := (match x with | some y => y.immh.toNat * 1024 | none => 0) + f.imm.toNat % 1024
     (s.Goes (q 0x50) [a] l → a.toNat < 2 ^ 32 →
       exec (.shset h o) s = s.writes (q 0x50) l [.ext n k (a.setWidth 32)]) ∧
     (s.Goes (q 0x50) [a] l → 2 ^ 32 ≤ a.toNat → exec (.shset h o) s = .next (s.takeTrap h.g tRANGE [a])) ∧
     (s.Goes qi [] l →
       exec (.shseti h f x) s = s.writes qi l [.ext f.d.toNat (f.imm.toNat / 1024) (BitVec.ofNat 32 imm)]) ∧
     (s.Goes qg [] l → exec (.shget h o) s = s.gives qg l o.d ((s.cur.ext o.a.toNat k).setWidth 64)) ∧
     (s.Goes (q 0x53) [a] l →
       exec (.shmin h o) s = s.writes (q 0x53) l [.ext n k (BitVec.ofNat 32 (min e a.toNat))]) ∧
     (s.Goes (q 0x54) [a] l → 0 ≤ (e : Int) + a.toInt → (e : Int) + a.toInt < 2 ^ 32 →
       exec (.shadd h o) s = s.writes (q 0x54) l [.ext n k (BitVec.ofInt 32 (e + a.toInt))]) ∧
     (s.Goes (q 0x54) [a] l → (e : Int) + a.toInt < 0 ∨ 2 ^ 32 ≤ (e : Int) + a.toInt →
       exec (.shadd h o) s = .next (s.takeTrap h.g tRANGE [a])) ∧
     (s.Goes qc [] l → o.d ≠ o.a → exec (.shcpy h o) s = s.writes qc l [.shape n (s.cur.sh.getD o.a.toNat [])]) ∧
     (s.Goes qc [] l → o.d = o.a → exec (.shcpy h o) s = s.ends qc l) ∧
     -- what retires is written at the end of the tick, in the order of the engines' turns (R160)
     (∀ (g : Eng) (v : W32) (r : List W32),
       s.cur.write g (.ext n k v) = { s.cur with lates := s.cur.lates ++ [(g, .ext n k v)] } ∧
       s.cur.write g (.shape n r) = { s.cur with lates := s.cur.lates ++ [(g, .shape n r)] }) ∧
     (∀ (t : Strand) (v : W32), n < t.sh.length → k < (t.sh.getD n []).length →
       (t.applyLate (.ext n k v)).ext n k = v ∧
       ∀ m j, ¬ (m = n ∧ j = k) → (t.applyLate (.ext n k v)).ext m j = t.ext m j)) ∧
  (∀ (h : Hd) (o : F3) (x : Option XM) (s u w : State) (vs : List Word) (l : Links) (b : List Byte) (k : LySlot)
       (lo hi : Nat),
     let va := memAddr x vs
     let a := vs.headD 0
     let n := o.d.toNat
     let m := o.a.toNat
     let ql := h.issue 0x56 (lenOf x) (memPeeks o x) [.ly n] 40
     let qs := h.issue 0x57 (lenOf x) (memPeeks o x) [.ly n] 1
     let qg := h.issue 0x58 1 [] ([.reg o.d, .ly m] ++ s.cur.bound m) 1
     let qt := h.issue 0x59 1 [(o.a, o.s.getLsbD 1)] [.ly n] 1
     let qe := h.issue 0x5A 1 [(o.b, o.s.getLsbD 0)] ([.sh n, .ly m] ++ s.cur.bound m) 40
     let new := k.lay.setSel o.b.toNat a
     let ext := s.cur.extents k.lay
     (s.Goes ql vs l → va.toNat % 64 = 0 → canonical va = true → s.Loads va 64 true b u →
       (Layout.ofBytes b).fault = none →
       exec (.lyld h o x) s = .next (u.finish ql l (.of [.slot n ⟨Layout.ofBytes b, some va, false⟩]))) ∧
     (∀ code, s.Goes ql vs l → va.toNat % 64 = 0 → canonical va = true → s.Loads va 64 true b u →
       (Layout.ofBytes b).fault = some code → exec (.lyld h o x) s = .next (s.takeTrap h.g code [])) ∧
     (s.Goes qs vs l → va.toNat % 64 = 0 → canonical va = true → s.cur.slot n = some k →
       s.Stores va k.lay.bytes none false u → exec (.lyst h o x) s = u.ends qs l) ∧
     (s.Goes qs vs l → va.toNat % 64 ≠ 0 → exec (.lyst h o x) s = .next (s.takeTrap h.g tALIGN [])) ∧
     (s.Goes qs vs l → va.toNat % 64 = 0 → s.cur.slot n = none →
       exec (.lyst h o x) s = .next (s.takeTrap h.g tSHAPE [])) ∧
     (∀ r ∈ [(0, k.lay.base), (1, k.lay.tag.setWidth 64), (2, k.lay.rank.setWidth 64), (3, k.lay.flags.setWidth 64),
             (4, k.lay.shx.setWidth 64), (5, w64 (ext.getD 0 0)), (6, w64 (ext.getD 1 0)), (7, w64 (ext.getD 2 0)),
             (8, w64 (ext.getD 3 0)), (9, k.lay.st.getD 0 0), (10, k.lay.st.getD 1 0), (11, k.lay.st.getD 2 0),
             (12, k.lay.offs), (13, w64 k.lay.bits)],
       s.Goes qg [] l → s.cur.slot m = some k → o.b.toNat = r.1 → exec (.lyget h o) s = s.gives qg l o.d r.2) ∧
     (s.Goes qt [a] l → s.cur.slot n = some k → a.toNat < 2 ^ selBits o.b.toNat → new.fault = none →
       exec (.lyset h o) s = s.writes qt l [.slot n { k with lay := new, src := none }]) ∧
     (∀ code, s.Goes qt [a] l → s.cur.slot n = some k → a.toNat < 2 ^ selBits o.b.toNat → new.fault = some code →
       exec (.lyset h o) s = .next (s.takeTrap h.g code [])) ∧
     (s.Goes qe [a] l → s.cur.slot m = some k → k.lay.ragged = true → a.toNat < ext.getD 2 0 →
       raggedOffset k.lay a.toNat s = .ok lo w → raggedOffset k.lay (a.toNat + 1) w = .ok hi u →
       lo ≤ hi → hi ≤ ext.getD 1 0 →
       exec (.lyseg h o) s = (u.setCur fun t => { t with lates := t.lates ++ [(h.g, .forget m)] }).writes qe l
         [.shape n [BitVec.ofNat 32 (ext.getD 0 0), BitVec.ofNat 32 (hi - lo), BitVec.ofNat 32 lo, a.setWidth 32]]) ∧
     (s.Goes qg [] l → s.cur.slot m = none → exec (.lyget h o) s = .next (s.takeTrap h.g tSHAPE [])))

/-! ### Tile handles -/

/-- Tile handles (R174 to R183, R196, R197). The contents of a new tile are free values (assumption log 5); that a
repeated phase passes over a TFREE or TSHRINK already made follows R299 and R300. -/
def Obligations.TileHandles : Prop :=
  (∀ (r : Ring) (o : F3) (x : XH) (s : State) (vs : List Word) (l : Links),
     let q := r.issue .a 0x60 2 (handleSrcs o.a (some x) ++ [o.b]) [] (if x.op.getLsbD 13 then 8 else 2)
     let hv := (handleArg (some x) vs).1
     let h := hv.toNat
     let rows := (handleArg (some x) vs).2.headD 0
     let n := rows.toNat
     let near := x.op.getLsbD 13
     let rb := rowBytes (x.op.toNat % 256)
     let sc := x.op.getLsbD 12
     let ds := x.op.getLsbD 11
     let db := x.op.getLsbD 10
     let hdr := ((if sc then 4 * n else 0) + (if ds then n * rb / 32 else 0) + 63) / 64 * 64
     let cells := (hdr + n * rb + 255) / 256 * (if db then 2 else 1)
     s.Goes q vs l →
     (128 ≤ h ∨ (s.cur.tile? h).isSome = true → exec (.talloc r o x) s = .next (s.takeTrap .a tHANDLE [hv])) ∧
     (h < 128 → s.cur.tile? h = none → n = 0 ∨ 65535 < n →
       exec (.talloc r o x) s = .next (s.takeTrap .a tRANGE [rows])) ∧
     (h < 128 → s.cur.tile? h = none → 0 < n → n ≤ 65535 → (s.ring near).alloc cells (s.cur.key, h) = none →
       exec (.talloc r o x) s = .next (s.takeTrap .a tEXHAUST ((s.ring near).exhaustArgs cells near))) ∧
     (∀ start ring, h < 128 → s.cur.tile? h = none → 0 < n → n ≤ 65535 →
       (s.ring near).alloc cells (s.cur.key, h) = some (start, ring) →
       exec (.talloc r o x) s = State.ends (State.setCur (State.setRing { s with free := s.free + 2 } near ring) fun t =>
         { t with
           tiles := SMap.set t.tiles h
             ⟨near, sc, ds, db, false, 0, n, x.op.toNat % 256, hdr, start, false, .fresh s.free, .fresh (s.free + 1)⟩
           ph := { t.ph with marks := t.ph.marks.erase h, allocs := t.ph.allocs.erase h ++ [h] } }) q l)) ∧
  (∀ (r : Ring) (o : F3) (x : Option XH) (s : State) (vs : List Word) (l : Links) (v : Tile),
     let hv := (handleArg x vs).1
     let h := hv.toNat
     let b := (handleArg x vs).2.headD 0
     let qf := r.issue .a 0x61 (lenOf x) (handleSrcs o.a x) [] 1
     let qs := r.issue .a 0x62 (lenOf x) (handleSrcs o.a x ++ [o.b]) [] 1
     let qt := r.issue .a 0x63 (lenOf x) (handleSrcs o.a x ++ [o.b]) [] 1
     let qq := r.issue .a 0x64 (lenOf x) (if tqryPlain o.b.toNat then [] else handleSrcs o.a x) [.reg o.d] 1
     let passed := fun (rows : Nat) => s.cur.ph.marks.contains h ∧ s.cur.ph.gone.contains (h * 65536 + rows)
     let noted := fun (rows : Nat) => s.setPhase fun p => { p with frees := p.frees ++ [(h, rows)] }
     let cells := (v.hdr + b.toNat * v.rb + 255) / 256
     h < 128 →
     let passedOver := fun (rows : Nat) => (s.setCur fun t => t.unmark h).setPhase fun p => { p with frees := p.frees ++ [(h, rows)] }
     (s.Goes qf vs l → passed 0 → exec (.tfree r o x) s = (passedOver 0).ends qf l) ∧
     (s.Goes qs vs l → passed b.toNat → 0 < b.toNat → b.toNat < 65536 → exec (.tshrink r o x) s = (passedOver b.toNat).ends qs l) ∧
     (s.Goes qf vs l → ¬ passed 0 → s.cur.tile? h = none → exec (.tfree r o x) s = .next (s.takeTrap .a tHANDLE [hv])) ∧
     (s.Goes qf vs l → ¬ passed 0 → s.cur.tile? h = some v → s.cur.naming h ≠ 0 →
       exec (.tfree r o x) s = .next (s.stall .a 0)) ∧
     (s.Goes qf vs l → ¬ passed 0 → s.cur.tile? h = some v → s.cur.naming h = 0 →
       exec (.tfree r o x) s = (((noted 0).freeTile h).setCur fun t =>
         { t with ph := { t.ph with marks := t.ph.marks.erase h, allocs := t.ph.allocs.erase h } }).ends qf l) ∧
     (s.Goes qs vs l → ¬ passed (b.toNat % 65536) → s.cur.tile? h = some v → v.ro = false → v.db = false →
       s.cur.naming h = 0 → 0 < b.toNat → b.toNat ≤ v.rows →
       exec (.tshrink r o x) s = State.ends (
         let t := (noted b.toNat).setCur fun t => t.unmark h
         if b.toNat = v.rows then t
         else (t.setRing v.near ((t.ring v.near).shrink (s.cur.key, h) cells)).setCur fun t =>
           t.setTile h { v with rows := b.toNat }) qs l) ∧
     (s.Goes qt vs l → s.cur.tile? h = some v → v.ro = false → tileTagOk b = true → b.toNat % 16 ≠ 12 → v.ds = false →
       exec (.ttag r o x) s = (s.setCur fun t => t.setTile h { v with tag := b.setWidth 16 }).ends qt l) ∧
     (s.Goes qt vs l → s.cur.tile? h = some v → v.ro = false → tileTagOk b = true → b.toNat % 16 = 12 →
       exec (.ttag r o x) s =
         if v.ds then (s.setCur fun t => t.setTile h { v with tag := b.setWidth 16 }).ends qt l
         else .next (s.takeTrap .a tTAGCONFLICT [])) ∧
     (s.Goes qt vs l → s.cur.tile? h = some v → v.ro = false → tileTagOk b = true → b.toNat % 16 ≠ 12 → v.ds = true →
       ∃ w, exec (.ttag r o x) s = (s.setCur fun t => t.setTile h w).ends qt l ∧
         w = { v with tag := b.setWidth 16, h0 := { v.h0 with desc := w.h0.desc }, h1 := { v.h1 with desc := w.h1.desc } } ∧
         ∀ j, j < v.size / 64 →
           w.h0.blockDesc j = (v.h0.blockDesc j &&& 0xFFF0) ||| BitVec.ofNat 16 (b.toNat % 16) ∧
           w.h1.blockDesc j = (v.h1.blockDesc j &&& 0xFFF0) ||| BitVec.ofNat 16 (b.toNat % 16)) ∧
     (s.Goes qt vs l → s.cur.tile? h = some v → v.ro = false → tileTagOk b = false →
       exec (.ttag r o x) s = .next (s.takeTrap .a tSHAPE [])) ∧
     (∀ e ∈ [(0, w64 v.rows), (1, w64 v.rb), (2, w64 ((s.ring v.near).spanAt v.start)), (3, v.tag.setWidth 64),
             (4, w64 (b2n v.near + 2 * b2n v.sc + 4 * b2n v.ds + 8 * b2n v.db + 16 * b2n v.half)), (5, w64 v.start),
             (12, w64 (s.cur.naming h))],
       s.Goes qq vs l → s.cur.tile? h = some v → o.b.toNat = e.1 → exec (.tqry r o x) s = s.gives qq l o.d e.2) ∧
     (∀ e ∈ [(6, if (s.cur.tile? h).isSome then 1 else 0),
             (7, w64 ((s.ring false).head % 65536 + (s.ring false).tail % 65536 * 65536 + (s.ring false).size * 2 ^ 32)),
             (8, w64 ((s.ring false).size - (s.ring false).used)), (9, w64 (s.ring true).head),
             (10, w64 (s.ring true).tail), (11, w64 ((s.ring true).size - (s.ring true).used)), (13, s.cur.ixres)],
       s.Goes qq vs l → o.b.toNat = e.1 → exec (.tqry r o x) s = s.gives qq l o.d e.2))

/-! ### Copies -/

/-- Copies at issue (R184 to R187, R198, R200, R202). The tag is taken at issue (R186). -/
def Obligations.CopiesStart : Prop :=
  ∀ (r : Ring) (o : F3) (x : XH) (s u : State) (vs : List Word) (l : Links) (v : Tile) (k : LySlot) (offs : List Nat),
    let hv := (handleArg (some x) vs).1
    let h := hv.toNat
    let row := ((handleArg (some x) vs).2.headD 0).toNat
    let n := x.op.toNat / 1024 % 8
    let sh := x.op.toNat / 64 % 16
    let bit := x.op.getLsbD 13
    let e := fun i => (s.cur.ext sh i).toNat
    let lay := { k.lay with ext := (s.cur.extents k.lay).map (BitVec.ofNat 32), shx := 0xFF }
    let q := fun opc =>
      { r.issue .a opc 2 (handleSrcs o.a (some x) ++ [o.b]) ([.ly n, .sh sh] ++ s.cur.bound n) 1 with async := true }
    let op := fun (pick : Bool) (hb : Option Nat) => (⟨lay, n, e 0, e 1, e 2, e 3, h, row, offs, pick, hb⟩ : RowOp)
    let touch := fun (wr : Bool) => (⟨h, if wr then v.half != v.db else v.half, row, row + e 1, wr⟩ : Touch)
    let fits := lay.shapeOk = true ∧ (lay.lay = 3 → lay.pagedOk = true) ∧ lay.rowLen ≤ v.rb ∧ row + e 1 ≤ v.rows ∧
      lay.describedOk = true ∧ offsetsOf lay s = .ok offs u ∧ u.cur.tile? h = some v
    let room := fun n => u.scoreboard u.curCore + n ≤ Config.scoreboardEntries
    let step := if e 1 = 0 then none else some What.copyComplete
    let loading := fun (opc : Nat) (pick : Bool) (hb : Option Nat) (extra : List Touch) (tag : W16) (mixed : Bool) =>
      (if e 1 = 0 then u else u.setCur fun t => t.setTile h { v with tag := tag }).starting .a opc r
        (.load (op pick hb) mixed) (touch true :: extra) step
    let storing := fun (opc : Nat) (pick : Bool) (hb : Option Nat) (extra : List Touch) =>
      u.starting .a opc r (.store (op pick hb)) (touch false :: extra) step
    let retag := v.retag (tagFmt lay.tag) (tagScaled lay.tag) (tagSpc lay.tag) lay.described
    h < 128 → s.cur.tile? h = some v → s.cur.slot n = some k → fits →
    -- loads and stores of a window of rows
    (∀ tag mixed, bit = false → v.ro = false → lay.lay ∈ [0, 2, 4] → e 0 + e 1 ≤ lay.e 1 → room 1 →
      retag = some (tag, mixed) → s.Goes (q 0x65) vs l →
      exec (.tcopy r o x) s = (loading 0x65 false none [] tag mixed).ends (q 0x65) l) ∧
    (bit = true → lay.lay ∈ [0, 2, 4] → tagSpc lay.tag ≠ 2 → e 0 + e 1 ≤ lay.e 1 → v.mayStore lay = true → room 1 →
      s.Goes (q 0x65) vs l → exec (.tcopy r o x) s = (storing 0x65 false none []).ends (q 0x65) l) ∧
    -- paged layouts
    (∀ tag mixed, bit = false → v.ro = false → lay.lay = 3 → e 0 + e 1 ≤ lay.e 1 → room 1 → retag = some (tag, mixed) →
      s.Goes (q 0x67) vs l → exec (.tgath r o x) s = (loading 0x67 true none [] tag mixed).ends (q 0x67) l) ∧
    (bit = false → lay.lay = 3 → tagSpc lay.tag ≠ 2 → e 0 + e 1 ≤ lay.e 1 → v.mayStore lay = true → room 1 →
      s.Goes (q 0x68) vs l → exec (.tscat r o x) s = (storing 0x68 true none []).ends (q 0x68) l) ∧
    -- rows picked by an index tile
    (∀ i : Tile, bit = true → x.hb.toNat < 128 → u.cur.tile? x.hb.toNat = some i → tagFmt i.tag = 11 →
      4 * (e 0 + e 1) ≤ i.size → room 2 → lay.lay ∈ [0, 2, 3, 4] →
      let it : Touch := ⟨x.hb.toNat, i.half, 4 * e 0 / i.rb, (4 * (e 0 + e 1) + i.rb - 1) / i.rb, false⟩
      (∀ tag mixed, v.ro = false → retag = some (tag, mixed) → s.Goes (q 0x67) vs l →
        exec (.tgath r o x) s = (loading 0x67 true (some x.hb.toNat) [it] tag mixed).ends (q 0x67) l) ∧
      (tagSpc lay.tag ≠ 2 → v.mayStore lay = true → s.Goes (q 0x68) vs l → exec (.tscat r o x) s =
        (storing 0x68 true (some x.hb.toNat) [it]).ends (q 0x68) l)) ∧
    -- a tag that does not go with the layout's, and a full scoreboard
    (bit = false → v.ro = false → lay.lay ∈ [0, 2, 4] → e 0 + e 1 ≤ lay.e 1 → retag = none → s.Goes (q 0x65) vs l →
      exec (.tcopy r o x) s = .next (s.takeTrap .a tTAGCONFLICT [])) ∧
    (∀ tag mixed, bit = false → v.ro = false → lay.lay ∈ [0, 2, 4] → e 0 + e 1 ≤ lay.e 1 → ¬ room 1 →
      retag = some (tag, mixed) → s.Goes (q 0x65) vs l → exec (.tcopy r o x) s = .next (u.stall .a 0))

/-- TSLOT (R199, R248), TWARM (R201) and TBLK (R173, R202) at issue. -/
def Obligations.SlotFillsWarmsAndBlocks : Prop :=
  ∀ (r : Ring) (o : F3) (x : Option XH) (y : XH) (s u : State) (vs : List Word) (l : Links) (v : Tile) (k : LySlot)
      (b : List Byte),
    let h := (handleArg x vs).1.toNat
    let slot := ((handleArg x vs).2.headD 0).toNat
    let org := ((handleArg x vs).2.getD 1 0).toNat
    let row0 := org % 65536
    let col0 := org / 65536 % 65536
    let tr := match x with | some e => e.op.getLsbD 13 | none => false
    let bits := codeBits (tagFmt v.tag)
    let qs := { r.issue .a 0x66 (lenOf x) (handleSrcs o.a x ++ [o.b, o.d]) [] 1 with async := true }
    let held := (s.slot s.curCore slot).heldBy s.cur.key = true
    let form := col0 % 64 = 0 ∧ tagFmt v.tag ≠ 0 ∧
      (tr = true → (bits = 8 ∨ bits = 16) ∧ v.ds = false ∧ tagScaled v.tag = false)
    let n := y.op.toNat / 1024 % 8
    let sh := y.op.toNat / 64 % 16
    let e := fun i => (s.cur.ext sh i).toNat
    let lay := { k.lay with ext := (s.cur.extents k.lay).map (BitVec.ofNat 32), shx := 0xFF }
    let qw := { r.issue .a 0x69 2 [] ([.ly n, .sh sh] ++ s.cur.bound n) 1 with async := true }
    let m := o.a.toNat
    let qb := r.issue .a 0x6E 1 [o.b] ([.reg o.d, .ly m] ++ s.cur.bound m) 40
    let i := (vs.headD 0).toNat
    let lb := { k.lay with ext := (s.cur.extents k.lay).map (BitVec.ofNat 32) }
    let entry := leNat b
    -- TSLOT
    (s.Goes qs vs l → h < 128 → s.cur.tile? h = some v → org < 2 ^ 32 → slot < 64 → held → form →
      (s.slot s.curCore slot).st ∈ [.claimed, .full] → s.scoreboard s.curCore + 1 ≤ Config.scoreboardEntries →
      exec (.tslot r o x) s = ((s.loseSlot slot fun f => { f with st := .filling, filled := true }).starting .a 0x66 r
        (.fill slot h row0 col0 tr v.tag) [⟨h, v.half, row0, row0 + (if tr then 1024 / bits else 64), false⟩]
        (some .slotFillComplete)).ends qs l) ∧
    (s.Goes qs vs l → h < 128 → s.cur.tile? h = some v → org < 2 ^ 32 → slot < 64 → ¬ held →
      exec (.tslot r o x) s = .next (s.takeTrap .a tSLOT [])) ∧
    (s.Goes qs vs l → h < 128 → s.cur.tile? h = some v → org < 2 ^ 32 → slot < 64 → held → form →
      (s.slot s.curCore slot).st ∈ [.filling, .busy] → exec (.tslot r o x) s = .next (s.stall .a 0)) ∧
    -- TWARM
    (s.Goes qw [] l → s.cur.slot n = some k → lay.extOk = true → (lay.lay = 3 → lay.pagedOk = true) →
      exec (.twarm r o y) s = (s.starting .a 0x69 r (.warm ⟨lay, n, e 0, e 1, e 2, e 3, 0, 0, [], false, none⟩
        (if e 1 = 0 then [] else tablePages lay ⟨e 0, e 1, e 2, e 3⟩)) []
        (if e 1 = 0 then none else some .twarmComplete)).ends qw l) ∧
    -- TBLK
    (s.Goes qb vs l → s.cur.slot m = some k → lb.lay ≠ 3 ∨ lb.pagedOk = false ∨ lb.extOk = false →
      exec (.tblk r o) s = .next (s.takeTrap .a tSHAPE [])) ∧
    (s.Goes qb vs l → s.cur.slot m = some k → lb.lay = 3 → lb.pagedOk = true → lb.extOk = true → i < lb.e 1 →
      loadBytes (lb.offs + w64 (8 * (i / lb.blockRows))) 8 true s = .ok b u →
      (entry ≠ 0 → entry % 64 = 0 → exec (.tblk r o) s = u.gives qb l o.d
        (w64 entry + lb.base + w64 (i % lb.blockRows) * lb.stride 1)) ∧
      (entry = 0 ∨ entry % 64 ≠ 0 → exec (.tblk r o) s = .next (s.takeTrap .a tRANGE [w64 entry])))

/-- The addresses of R165 to R168 and R191, as the copies use them. -/
def Obligations.RowPlaces : Prop :=
  ∀ (l : Layout) (s u : State) (i1 j2 j3 : Nat) (b : List Byte),
    let st := fun k => l.stride k
    let plain := l.base + w64 i1 * st 1 + w64 j2 * st 2 + w64 j3 * st 3
    let w := 8 * l.bits
    (l.lay ∉ [2, 3] → tagSpc l.tag ≠ 2 →
      rowRuns l i1 j2 j3 s = .ok (some [⟨0, some plain, l.rowLen⟩]) s) ∧
    (l.lay = 2 → tagSpc l.tag ≠ 2 → ∃ rs, rowRuns l i1 j2 j3 s = .ok (some rs) s ∧
      -- the byte of a row that holds element i0 begins at i0 × bits / 8
      ∀ off, off < l.rowLen → off / w < l.e 0 / 64 → 0 < l.bits →
        runAddr rs off = some (l.base + w64 (i1 / 64) * st 1 +
          w64 (off / w * 512 * l.bits) + w64 j2 * st 2 + w64 j3 * st 3 + w64 (i1 % 64 * w) + w64 (off % w))) ∧
    (l.lay = 3 → loadBytes (l.offs + w64 (8 * (i1 / l.blockRows))) 8 true s = .ok b u →
      rowRuns l i1 j2 j3 s = .ok (if leNat b = 0 ∨ leNat b % 64 ≠ 0 then none else
        some [⟨0, some (w64 (leNat b) + l.base + w64 (i1 % l.blockRows) * st 1 + w64 j2 * st 2), l.rowLen⟩]) u) ∧
    (l.lay ∉ [3] → tagSpc l.tag = 2 →
      loadBytes (l.base + w64 j2 * st 2 + w64 j3 * st 3) (((l.e 1 + 63) / 64 * ((l.e 0 + 63) / 64) + 7) / 8) true s = .ok b u →
      ∃ rs, rowRuns l i1 j2 j3 s = .ok (some rs) u ∧ ∀ bj, bj < (l.e 0 + 63) / 64 → ∃ run, rs[bj]? = some run ∧
        run.off = bj * w ∧
        (let k := i1 / 64 * ((l.e 0 + 63) / 64) + bj
         (run.va.isSome ↔ bitAt b k = true) ∧
         (bitAt b k = true → run.va = some (l.base + w64 j2 * st 2 + w64 j3 * st 3 +
          w64 ((((l.e 1 + 63) / 64 * ((l.e 0 + 63) / 64) + 7) / 8 + 63) / 64 * 64 + ((List.range k).countP fun n => bitAt b n) * 64 * w + i1 % 64 * w)))))

/-- The completions of R188, R198 to R202 and R204: an operation is done and its signals are owed; a blocked one
stays. -/
def Obligations.CopiesComplete : Prop :=
  ∀ (k op : Nat) (s u w w' w'' : State) (o : AsyncOp) (rows : List RowAt) (ds : List RowData) (v : Tile),
    let counted := fun (s : State) => s.countCur 0x045 none (rows.filter RowAt.lost).length
    let free := u.cur.copyBlocked o.id o.touch = false ∧ u.cur.copyBefore o.id = false
    let putAll := fun (row : Nat) (v : Tile) => ds.foldl (fun t d => t.putRow row d) v
    s.Under k op o u →
    (u.cur.copyBefore o.id = true → exec (.copyComplete k op) s = s.backTo (u.postOnce .copyComplete k op)) ∧
    (u.cur.copyBlocked o.id o.touch = true →
      (∀ i ∈ [(Instr.copyComplete k op, What.copyComplete), (.slotFillComplete k op, .slotFillComplete),
              (.indexComplete k op, .indexComplete)],
        exec i.1 s = s.backTo (u.postOnce i.2 k op))) ∧
    (∀ r m, free → o.kind = .load r m → r.rows u = .ok rows w → Act.map (readRow r.lay r.offs) rows w = .ok ds w' →
      healRows r.h r.row ds (counted w') = .ok () w'' → w''.cur.tile? r.h = some v →
      exec (.copyComplete k op) s = s.backTo (State.completeOp (w''.setCur fun t => t.setTile r.h
        (if m then (putAll r.row v).settleTag else putAll r.row v)) o)) ∧
    (∀ r w0, free → o.kind = .store r → r.rows u = .ok rows w → w.cur.tile? r.h = some v →
      storeSound r v rows w = .ok () w0 → storeAll (rows.map (rowStores r.lay v r.row)).flatten 1 w0 = .ok () w' →
      markSlot r v rows (counted w') = .ok () w'' → exec (.copyComplete k op) s = s.backTo (w''.completeOp o)) ∧
    (∀ slot h row0 col0 t tag, u.cur.copyBlocked o.id o.touch = false → o.kind = .fill slot h row0 col0 t tag →
      u.cur.tile? h = some v → fillSound v row0 col0 t tag u = .ok () w →
      exec (.slotFillComplete k op) s = s.backTo (State.completeOp (
        (w.heal .operand (slotSpot w.curCore slot) 8192).setSlot w.curCore slot fun e =>
          { e with st := .full, tag := tag &&& 0xF8FF, body := Tile.slotBody { v with tag := tag } row0 col0 t }) o)) ∧
    (∀ r vas, o.kind = .warm r vas → u.warmAll vas = (true, w) → r.rows w = .ok rows w' →
      w'.warmAll ((rows.map fun (e : RowAt) => ((runRanges (e.runs.getD [])).map pagesOf).flatten).flatten.foldl addNew []) =
        (true, w'') → exec (.twarmComplete k op) s = s.backTo (w''.completeOp o)) ∧
    (∀ r vas, o.kind = .warm r vas → u.warmAll vas = (false, w) →
      exec (.twarmComplete k op) s = s.backTo (w.postOnce .twarmComplete k op)) ∧
    (∀ (row : Nat) (d : RowData) (i : Nat), i < d.bytes.length →
      (v.putRow row d).copyHalf.byte ((row + d.k) * v.rb + i) = d.bytes.getD i 0) ∧
    (∀ (row : Nat) (d : RowData) (a : Nat), ¬ ((row + d.k) * v.rb ≤ a ∧ a < (row + d.k) * v.rb + d.bytes.length) →
      (v.putRow row d).copyHalf.byte a = v.copyHalf.byte a) ∧
    (∀ w : State, (w.completeOp o).cur.ops = w.cur.ops.map fun p => if p.id = o.id then { p with done := true, touch := [] } else p)

/-! ### Chains and the index engine -/

/-- Chains at issue (R203, R205). A CHLINK met by the chain itself starts the linked chain (assumption log 13). -/
def Obligations.ChainsStart : Prop :=
  ∀ (r : Ring) (o : F3) (x : Option XH) (s u w : State) (vs : List Word) (l : Links) (v : Tile) (b : List Byte) (ce : Nat),
    let tile := match x with | some e => e.op.getLsbD 13 | none => false
    let engine := match x with | some e => if e.op.getLsbD 12 then 1 else 0 | none => 0
    let q := fun g opc => { r.issue g opc (lenOf x) (if tile then handleSrcs o.a x ++ [o.b] else [o.a]) [] 1 with async := true }
    let chain := fun (opc ce : Nat) (a : ChainAddr) => OpKind.chain ⟨opc, ce, a, [], [], 0, 0, a, false⟩
    let va := vs.headD 0
    let hv := (handleArg x vs).1
    let off := (handleArg x vs).2.headD 0
    let ql := r.issue .a 0x6B 1 [o.a, o.b] [.reg o.d] 40
    (∀ e ∈ [(Instr.chkick r o x, Eng.a, 0x6A), (.wchain r o x, .w, 0x62)], s.Goes (q e.2.1 e.2.2) vs l →
      (tile = false → va.toNat % 32 = 0 → exec e.1 s = (s.starting e.2.1 e.2.2 r (chain e.2.2 engine (.mem va)) []
        (some .chainCopy)).ends (q e.2.1 e.2.2) l) ∧
      (tile = false → va.toNat % 32 ≠ 0 → exec e.1 s = .next (s.takeTrap e.2.1 tALIGN [])) ∧
      (tile = true → off.toNat % 32 = 0 → hv.toNat < 128 → s.cur.tile? hv.toNat = some v →
        exec e.1 s = (s.starting e.2.1 e.2.2 r (chain e.2.2 engine (.tile hv.toNat off.toNat)) []
          (some .chainCopy)).ends (q e.2.1 e.2.2) l) ∧
      (tile = true → off.toNat % 32 = 0 → 128 ≤ hv.toNat ∨ s.cur.tile? hv.toNat = none →
        exec e.1 s = .next (s.takeTrap e.2.1 tHANDLE [hv]))) ∧
    (s.Goes ql vs l → va.toNat % 32 ≠ 0 → exec (.chlink r o) s = .next (s.takeTrap .a tRANGE [])) ∧
    (s.Goes ql vs l → va.toNat % 32 = 0 → loadBytes va 32 false s = .ok b u →
      (field b 0 1 ≠ 0 → exec (.chlink r o) s = .next (s.takeTrap .a tRANGE [])) ∧
      (field b 0 1 = 0 → u.chainAt va = some ce →
        exec (.chlink r o) s = (u.starting .a 0x6B Ring.quiet (chain 0x6B ce (.mem (vs.getD 1 0))) []
          (some .chainCopy)).gives ql l o.d 0) ∧
      (field b 0 1 = 0 → u.chainAt va = none →
        u.Stores va (leBytes 8 7 ++ leBytes 8 (vs.getD 1 0).toNat ++ leBytes 16 0) none false w →
        exec (.chlink r o) s = w.gives ql l o.d 1))

/-- The steps of a command chain (R203, R204). Which malformed entries stop a chain beyond those that R204 names is
the model's choice (assumption log 13). -/
def Obligations.ChainSteps : Prop :=
  ∀ (k op : Nat) (s u w t t' t'' : State) (o : AsyncOp) (c c' : Chain) (a : ChainAddr) (e : ChainEnt) (past : Bool)
      (body : List ChainEnt) (bytes : List Byte) (ps : List StorePiece),
    let goesOn := fun (t : State) (c' : Chain) =>
      let t := State.setCur (t.unhold o.g (some op)) fun m => m.updOp op fun p => { p with kind := .chain c', touch := [] }
      s.backTo (if c'.ended then t.completeOp o else t.post (kindStep e.kind) k op)
    let stops := fun (t : State) => s.backTo ((t.abandonOp o).lateTrap o.g tRANGE [a.word, w64 c.kick])
    let counter := e.w4 < w.curCtx.record.ncnt
    let counterAt := counterVa w.curCtx e.w4
    let src := e.flags % 2 = 1
    let dst := e.flags / 2 = 1
    let fits := fun (p : Nat × Nat) (v : Tile) => w.cur.tile? p.1 = some v ∧ p.2 + e.w4 ≤ v.size
    -- an entry that moves tile rows is first recorded in the scoreboard, once nothing holds them and it has room
    let records := fun (want : List Touch) => o.touch ≠ want →
      let free := w.cur.chainBlocked op want = false ∧ w.scoreboard w.curCore + want.length ≤ Config.scoreboardEntries
      (free → exec (.chainCopy k op) s =
        s.backTo ((w.setCur fun m => m.updOp op fun q => { q with touch := want }).postOnce .chainCopy k op)) ∧
      (¬ free → exec (.chainCopy k op) s = s.backTo (w.postOnce .chainCopy k op))
    let from' := fun (p : Nat × Nat) (v : Tile) => touchBytes v p.1 p.2 e.w4 false
    let into := fun (p : Nat × Nat) (v : Tile) => touchBytes v p.1 p.2 e.w4 true
    s.Under k op o u → o.kind = .chain c → c.ended = false → currentEntry c u = .ok (a, e) w → w.cur.op? op = some o →
    -- an entry of another kind: its own step is asked for
    (∀ i ∈ [(Instr.chainCopy k op, 1), (.chainGather k op, 2), (.chainPost k op, 3), (.chainWait k op, 4),
            (.chainLoop k op, 5), (.chainIf k op, 6), (.chainLink k op, 7), (.chainEnd k op, 0)],
      e.kind ≠ i.2 → exec i.1 s = s.backTo (w.post (kindStep e.kind) k op)) ∧
    -- COPY
    (e.kind = 1 → ¬ src → ¬ dst → loadBytes e.q8 e.w4 true w = .ok bytes t →
      Act.map (carried e.q8 e.q16) (storePieces e.q16 bytes) t = .ok ps t' → storeAll ps 1 t' = .ok () t'' →
      t''.cur.op? op = some o → exec (.chainCopy k op) s = goesOn t'' (c.pass e 1)) ∧
    (∀ p v, e.kind = 1 → ¬ src → dst → tileAddr e.q16 = some p → fits p v → v.ro = false →
      records [into p v] ∧
      (o.touch = [into p v] → loadBytes e.q8 e.w4 true w = .ok bytes t → tileHeal v true p.2 e.w4 t = .ok () t' →
        t'.cur.tile? p.1 = some v → t'.cur.op? op = some o → exec (.chainCopy k op) s =
          goesOn (t'.setCur fun m => m.setTile p.1 (v.setCopyHalf (v.copyHalf.put p.2 bytes))) (c.pass e 1))) ∧
    (∀ p v, e.kind = 1 → src → ¬ dst → tileAddr e.q8 = some p → fits p v →
      records [from' p v] ∧
      (o.touch = [from' p v] → tileSound v p.2 e.w4 w = .ok () t →
        storeAll (storePieces e.q16 (v.front.bytes p.2 e.w4)) 1 t = .ok () t' → t'.cur.op? op = some o →
        exec (.chainCopy k op) s = goesOn t' (c.pass e 1))) ∧
    (∀ p v p' v', e.kind = 1 → src → dst → tileAddr e.q8 = some p → tileAddr e.q16 = some p' → fits p v → fits p' v' →
      v'.ro = false → records [from' p v, into p' v'] ∧
      (o.touch = [from' p v, into p' v'] → tileSound v p.2 e.w4 w = .ok () t → tileHeal v' true p'.2 e.w4 t = .ok () t' →
        t'.cur.tile? p'.1 = some v' → t'.cur.op? op = some o →
        exec (.chainCopy k op) s = goesOn (t'.setCur fun m => m.setTile p'.1 (v'.setCopyHalf
          (moveSidecars v v' p.2 p'.2 e.w4 (v'.copyHalf.put p'.2 (v.front.bytes p.2 e.w4))))) (c.pass e 1))) ∧
    (∀ p, e.kind = 1 → dst → ¬ src → tileAddr e.q16 = some p → w.cur.tile? p.1 = none →
      exec (.chainCopy k op) s = stops u) ∧
    -- GATHER
    (e.kind = 2 → chainGatherBody op c a e w = .ok c' t → t.cur.op? op = some o →
      exec (.chainGather k op) s = goesOn t c') ∧
    -- COUNTER ADD, WAIT, IF
    (e.kind = 3 → counter → addCounter counterAt e.w4 e.q8 w = .ok () t → t.cur.op? op = some o →
      exec (.chainPost k op) s = goesOn t (c.pass e 1)) ∧
    -- an add to a counter: an ordered entry of the buffer (R189, R301)
    (∀ x, counterAt.toNat % 8 = 0 → canonical counterAt = true → w.ownXlate counterAt .write = .ok x t → x.desc = false →
      t.Room (decide (t.cur.ph.buf.length < Config.bufEntries)) t' → addCounter counterAt e.w4 e.q8 w =
        .ok () (t'.orderedEntry ⟨counterAt, x.home, x.pa, x.ord, 16, .counter e.w4 e.q8⟩)) ∧
    (¬ counter → (e.kind = 3 → exec (.chainPost k op) s = stops u) ∧ (e.kind = 4 → exec (.chainWait k op) s = stops u) ∧
      (e.kind = 6 → exec (.chainIf k op) s = stops u)) ∧
    (counter → counterPast counterAt e.q8 w = .ok past t → t.cur.op? op = some o →
      (e.kind = 4 → past = true → exec (.chainWait k op) s = goesOn t (c.pass e 1)) ∧
      (e.kind = 4 → past = false → exec (.chainWait k op) s = s.backTo (t.postOnce .chainWait k op)) ∧
      (e.kind = 6 → exec (.chainIf k op) s = goesOn t (c.pass e (if past then 1 else 1 + e.q16.toNat)))) ∧
    -- LOOP, LINK, END
    (e.kind = 5 → bodyBefore c a e.q8.toNat w = .ok body t → t.cur.op? op = some o →
      (body.any (fun x => x.kind == 5 || x.kind == 7 || x.kind == 0) = true → exec (.chainLoop k op) s = stops u) ∧
      (body.any (fun x => x.kind == 5 || x.kind == 7 || x.kind == 0) = false → e.w4 = 1 →
        exec (.chainLoop k op) s = goesOn t (c.pass e 1)) ∧
      (body.any (fun x => x.kind == 5 || x.kind == 7 || x.kind == 0) = false → e.w4 ≠ 1 →
        exec (.chainLoop k op) s = goesOn t { c.pass e 1 with
          body := stepBody e.q16 e.q24 body, pos := 0, left := e.w4 - 1, resume := (c.pass e 1).addr
          addr := a.add (-(32 * body.length : Nat)) })) ∧
    (e.kind = 7 → e.flags = 0 → exec (.chainLink k op) s = goesOn w { c.pass e 1 with addr := .mem e.q8, past := [] }) ∧
    (∀ h off, e.kind = 7 → e.flags = 1 → tileAddr e.q8 = some (h, off) →
      exec (.chainLink k op) s = goesOn w { c.pass e 1 with addr := .tile h off, past := [] }) ∧
    (e.kind = 0 → e.flags = 0 → exec (.chainEnd k op) s = goesOn w { c with ended := true }) ∧
    (e.kind = 0 → e.flags = 1 → counter → addCounter counterAt e.w4 e.q8 w = .ok () t → t.cur.op? op = some o →
      exec (.chainEnd k op) s = goesOn t { c with ended := true }) ∧
    -- the entry that follows
    (∀ va, c.body = [] → c.addr = .mem va → (c.pass e 1).addr = .mem (va + 32)) ∧
    (∀ h off, c.body = [] → c.addr = .tile h off → (c.pass e 1).addr = .tile h (off + 32))

/-- The index engine (R206). That bit 32 of IXRES says that an entry was left out is DEDUCED (assumption log 41). -/
def Obligations.IndexWalks : Prop :=
  ∀ (r : Ring) (o : F3) (s u w : State) (vs : List Word) (l : Links) (d : List Byte) (k op : Nat) (p : AsyncOp)
      (cs : List (Nat × Nat)) (va : Word),
    let at' := vs.headD 0
    let qw := { r.issue .a 0x6C 1 [o.a] [] 1 with async := true }
    let qs := { r.issue .a 0x6D 1 [o.a] [] 1 with async := true }
    let fl := field d 12 1
    let names := field d 13 1 :: field d 14 1 :: (if fl / 2 % 2 = 1 then [field d 15 1] else [])
    let usable := fun (s : State) (h : Nat) => h < 128 ∧ ∃ v, s.cur.tile? h = some v ∧ v.ro = false
    let whole := fun (s : State) (h : Nat) => match s.cur.tile? h with
      | some v => (⟨h, v.half, 0, v.rows, true⟩ : Touch)
      | none => ⟨h, false, 0, 0, true⟩
    let parts := field d 14 2
    let put := fun (s : State) (h : Nat) (vs : List Nat) => match s.cur.tile? h with
      | some v => (s.heal v.store (s.tileSpot v v.half 0) (4 * vs.length)).setCur fun t =>
          t.setTile h (v.setFront (v.front.put 0 (vs.map fun n => leBytes 4 n).flatten))
      | none => s
    let res := fun (s : State) (n : Nat) => s.setCur fun t => { t with ixres := w64 n }
    let kept := (cs.zipIdx.map fun e => (e.1.1, e.1.2, e.2)).filter fun e =>
      decide (field d 16 4 ≤ e.1) && decide (e.1 < field d 20 4) && decide (field d 24 4 ≤ e.2.1) && decide (e.2.1 < field d 28 4)
    let room := (names.map fun h => match w.cur.tile? h with | some t => t.size / 4 | none => 0).foldl min (2 ^ 32)
    let out := kept.take room
    let n := field d 8 4
    let size := if parts = 0 then 0 else n / parts
    let long := if parts = 0 then 0 else n % parts
    -- issue
    (s.Goes qw vs l → at'.toNat % 32 ≠ 0 → exec (.ixwalk r o) s = .next (s.takeTrap .a tALIGN [])) ∧
    (s.Goes qw vs l → at'.toNat % 32 = 0 → loadBytes at' 32 true s = .ok d u → (∀ h ∈ names, usable u h) → fl < 4 →
      u.scoreboard u.curCore + names.length ≤ Config.scoreboardEntries →
      exec (.ixwalk r o) s = (u.starting .a 0x6C r (.walk at' d) (names.map (whole u)) (some .indexComplete)).ends qw l) ∧
    (s.Goes qs vs l → at'.toNat % 32 = 0 → loadBytes at' 32 false s = .ok d u → usable u (field d 13 1) → fl < 4 →
      field d 16 16 = 0 → 1 ≤ parts → parts ≤ 4096 →
      (∀ v, u.cur.tile? (field d 13 1) = some v → 8 * parts ≤ v.size) →
      u.scoreboard u.curCore + 1 ≤ Config.scoreboardEntries →
      exec (.ixsplit r o) s = (u.starting .a 0x6D r (.split at' d) [whole u (field d 13 1)] (some .indexComplete)).ends
        qs l) ∧
    (s.Goes qs vs l → at'.toNat % 32 = 0 → loadBytes at' 32 false s = .ok d u → usable u (field d 13 1) → fl < 4 →
      field d 16 16 = 0 → parts = 0 ∨ 4096 < parts → exec (.ixsplit r o) s = .next (s.takeTrap .a tRANGE [])) ∧
    -- completion
    (s.Under k op p u → u.cur.copyBlocked p.id p.touch = false → p.kind = .walk va d → coordinates d u = .ok cs w →
      exec (.indexComplete k op) s = s.backTo (State.completeOp (
        let t := put (put w (field d 13 1) (out.map (·.1))) (field d 14 1) (out.map (·.2.1))
        let t := if fl / 2 % 2 = 1 then put t (field d 15 1) (out.map (·.2.2)) else t
        res t (out.length + if room < kept.length then 2 ^ 32 else 0)) p)) ∧
    (s.Under k op p u → u.cur.copyBlocked p.id p.touch = false → p.kind = .split va d → fl / 2 % 2 = 0 → 1 ≤ parts →
      exec (.indexComplete k op) s = s.backTo (State.completeOp (res (put u (field d 13 1)
        ((tab parts fun q => [q * size + min q long, if q < long then size + 1 else size]).flatten)) parts) p))

/-! ### Atomics, completion counters, block stores -/

/-- Atomics at issue (R288 to R294) and the value that each leaves (R293); FADD's value is stated with the float
operations' own definitions. -/
def Obligations.Atomics : Prop :=
  (∀ (r : Ring) (o : F3) (x : XA) (s u : State) (vs : List Word) (l : Links) (p : Xlate),
     let va := vs.headD 0 + x.offs.signExtend 64
     let n := 2 ^ o.s.toNat
     let b := vs.getD 1 0
     let c := vs.getD 2 0
     let code := x.op.toNat
     let q := fun opc srcs names => { r.issue .a opc 2 srcs names 1 with legal := decide (2 ≤ o.s.toNat) }
     let qa := q 0x70 [o.a, o.b] []
     let qr := q 0x71 [o.a, o.b] [.reg o.d]
     let qc := q 0x72 [o.a, o.b, x.c] [.reg o.d]
     let fits := va.toNat % n = 0 ∧ canonical va = true ∧ s.ownXlate va .write = .ok p u
     let plain := p.desc = false ∧ (p.home = 1 → code ∈ [0, 8])
     let w := u.unrepeat
     let released := w.cur.ph.buf = [] ∧ w.cur.awaiting = false
     -- the request that the home atomic engine serves
     let ask := fun (op : Nat) (new : Word) =>
       ({ eng := atomEngine p.home p.pa, since := w.clock, key := w.cur.key, tag := BitVec.ofNat 32 w.cur.seq, chip := 0,
          owner := w.cur.key, core := some w.curCore, ctx := w.cur.sys.ctx.toNat, kern := w.cur.kern, op, size := n,
          home := p.home, pa := p.pa, opd := b, new, post := false, old := none } : AtomReq)
     let peer := fun (opc op : Nat) (new : Word) =>
       { w.peerRequest 4 p.pa n [] 16 opc va with wait := true, opa := linkOp op n, opd := b, opd2 := new }
     let own : List (Option Byte) := List.replicate n none
     (∀ t, s.Goes qa vs l → fits → plain → u.Room (decide (u.cur.ph.buf.length < Config.bufEntries)) t →
       exec (.atom r o x) s = (t.orderedEntry ⟨va, p.home, p.pa, p.ord, 16, .atom code n b⟩).ends qa l) ∧
     (∀ e ∈ [(Instr.atomr r o x, qr, 0x71, code), (.cas r o x, qc, 0x72, 10)], s.Goes e.2.1 vs l → fits → p.desc = false →
       (p.home = 1 → e.2.2.2 ∈ [0, 8, 10]) →
       (¬ released → exec e.1 s = .next (w.stall .a 0)) ∧
       (released → w.requestRoom = false → exec e.1 s = .next (w.stall .a 0)) ∧
       -- the operation is sent, and A goes on: register d waits for the old value
       (released → w.requestRoom = true → p.home ≠ 2 → exec e.1 s = (w.queueAtom (ask e.2.2.2 c)).writes e.2.1 l
         [.await o.d (.atom w.cur.seq) va own false]) ∧
       (released → w.requestRoom = true → p.home = 2 → exec e.1 s = (w.askPeer (peer e.2.2.1 e.2.2.2 c)).writes e.2.1 l
         [.await o.d (.peer w.net.tagN.toNat) va own false])) ∧
     -- the old value returns
     (∀ (f : Flight) (tag : Nat) (k : AtomReq) (old : Word), f.wb = [.await o.d (.atom tag) va own false] →
       s.mem.atoms.find? (fun k => k.key == s.cur.key && k.tag == BitVec.ofNat 32 tag && !k.post) = some k → k.old = some old →
       s.fillFlight f = (s.forgetSource (.atom tag)).setCur fun t => { t with
         fl := t.fl ++ [{ f with wb := [.reg o.d (BitVec.ofNat 64 (old.toNat % 2 ^ (8 * n)))] }] }) ∧
     (∀ e ∈ [(Instr.atom r o x, qa, code), (.atomr r o x, qr, code), (.cas r o x, qc, 10)], s.Goes e.2.1 vs l →
       (va.toNat % n ≠ 0 → exec e.1 s = .next (s.takeTrap .a tALIGN [])) ∧
       (va.toNat % n = 0 → canonical va = false → exec e.1 s = .next (s.takeTrap .a tPROTECT [va, 256])) ∧
       (fits → p.desc = true → exec e.1 s = .next (s.takeTrap .a tATOMIC [])) ∧
       (fits → p.desc = false → p.home = 1 → e.2.2 ∉ [0, 8, 10] → exec e.1 s = .next (s.takeTrap .a tATOMIC [])))) ∧
  (∀ (n a b : Nat) (new : Word),
     let w := 8 * n
     let signed := fun (k : Nat) => (BitVec.ofNat w k).toInt
     let value := fun (op : Nat) => (atomicValue op n (BitVec.ofNat 64 a) (BitVec.ofNat 64 b) new).toNat
     n ∈ [4, 8] → a < 2 ^ w → b < 2 ^ w →
       value 0 = (a + b) % 2 ^ w ∧
       value 1 = (if signed a ≤ signed b then a else b) ∧ value 2 = (if signed a ≤ signed b then b else a) ∧
       value 3 = min a b ∧ value 4 = max a b ∧
       value 5 = (a &&& b) ∧ value 6 = (a ||| b) ∧ value 7 = (a ^^^ b) ∧ value 8 = b ∧
       value 10 = (if a = b then new.toNat % 2 ^ w else a) ∧
       (∀ (m : Mem) (home pa op : Nat) (v : Word), m.atomic home pa op n v new =
         (BitVec.ofNat 64 (leNat (m.bytes home pa n)),
          m.put home pa (leBytes n (atomicValue op n (BitVec.ofNat 64 (leNat (m.bytes home pa n))) v new).toNat))))

/-- Completion counters (R381 to R383, R270). The clock of the hold limit starts at the first attempt to issue. -/
def Obligations.CompletionCounters : Prop :=
  ∀ (r : Ring) (o : F3) (s u : State) (vs : List Word) (l : Links) (p : Xlate),
    let k := vs.headD 0
    let b := vs.getD 1 0
    let va := s.curCtx.record.cntbase + BitVec.ofNat 64 (8 * k.toNat)
    let counts := k.toNat < s.curCtx.record.ncnt
    let qw := r.issue .a 0x85 1 [o.a, o.b] [] 1
    let value : Word := BitVec.ofNat 64 (leNat (u.mem.bytes p.home p.pa 8))
    let w := u.corrected p.home p.pa 8
    let since := (w.cur.engine .a).since.getD w.clock
    let waiting := w.setEng .a fun e => { e with since := some since }
    (∀ e ∈ [(Instr.ccadd r o, r.issue .a 0x84 1 [o.a, o.b] [] 1), (.wpost r o, r.issue .w 0x63 1 [o.a, o.b] [] 1)],
      s.Goes e.2 vs l →
      (∀ t, counts → va.toNat % 8 = 0 → canonical va = true → s.ownXlate va .write = .ok p u → p.desc = false →
        u.Room (decide (u.cur.ph.buf.length < Config.bufEntries)) t →
        exec e.1 s = (t.orderedEntry ⟨va, p.home, p.pa, p.ord, 16, .counter k.toNat b⟩).ends e.2 l) ∧
      (¬ counts → exec e.1 s = .next (s.takeTrap e.2.g tRANGE [k]))) ∧
    (s.Goes qw vs l → ¬ counts → exec (.ccwait r o) s = .next (s.takeTrap .a tRANGE [k])) ∧
    (s.Goes qw vs l → counts → s.ownXlate va .read = .ok p u → p.home ≠ 2 → u.mem.poisoned p.home p.pa 8 = false →
      (0 ≤ (value - b).toInt → exec (.ccwait r o) s = w.ends qw l) ∧
      ((value - b).toInt < 0 → w.clock - since < w.holdPeriods →
        exec (.ccwait r o) s = .next (waiting.stall .a 0)) ∧
      ((value - b).toInt < 0 → w.holdPeriods ≤ w.clock - since →
        exec (.ccwait r o) s = .next (s.takeTrap .a tTIMEOUT [k, b, value])))

/-- The W engine's own instructions (R266 to R271). -/
def Obligations.BlockStores : Prop :=
  ∀ (r : Ring) (o : F3) (x : Option XM) (s t u : State) (vs : List Word) (l : Links) (p : Xlate),
    let srcs := memSrcs o.a o.b x
    let data := tab 8 fun i => o.d + BitVec.ofNat 5 i
    let first := o.d == 0 || o.d == 8
    let q := { r.issue .w 0x60 (lenOf x) (srcs ++ data) [] 1 with legal := first }
    let va := memAddr x vs
    let bytes := fun (ws : List Word) => (ws.map fun v => leBytes 8 v.toNat).flatten
    let qd := { r.issue .w 0x61 (lenOf x) ([o.a, o.b] ++ data) [] 1 with
      legal := first && !((x.map XM.idx).getD false) }
    let vd := match x with | some e => vs.headD 0 + e.offs.signExtend 64 | none => vs.headD 0
    let b := vs.getD 1 0
    let qc := r.issue .w 0x64 1 [] [] 1
    let qf := r.issue .w 0x65 1 [] [] 1
    let posted := (∀ op ∈ s.cur.ops, op.g = .w → op.opc = 0x62 → op.done = true) ∧
      (s.cur.ph.rep = true ∨ ∀ e ∈ s.cur.ph.buf, e.isCounter = false)
    let flushed := s.unrepeat.cur.ph.buf = [] ∧ s.unrepeat.cur.awaiting = false
    (s.Goes q vs l → va.toNat % 64 = 0 → canonical va = true → s.Stores va (bytes (vs.drop srcs.length)) none false u →
      exec (.wst r o x) s = u.ends q l) ∧
    (s.Goes q vs l → va.toNat % 64 ≠ 0 → exec (.wst r o x) s = .next (s.takeTrap .w tALIGN [])) ∧
    (s.Goes qd vs l → vd.toNat % 64 = 0 → canonical vd = true → s.ownXlate vd .write = .ok p t → b.toNat < 65536 →
      (p.desc = true → descOk (b.setWidth 16) = true →
        t.Stores vd (bytes (vs.drop 2)) (some (b.setWidth 16)) false u → exec (.wstd r o x) s = u.ends qd l) ∧
      (p.desc = false ∨ descOk (b.setWidth 16) = false → exec (.wstd r o x) s = .next (s.takeTrap .w tTAGCONFLICT []))) ∧
    (s.Goes qd vs l → vd.toNat % 64 = 0 → canonical vd = true → s.ownXlate vd .write = .ok p t → 65536 ≤ b.toNat →
      exec (.wstd r o x) s = .next (s.takeTrap .w tRANGE [])) ∧
    (s.Goes qc [] l → posted → exec (.wcmpl r) s = s.ends qc l) ∧
    (s.Goes qc [] l → ¬ posted → exec (.wcmpl r) s = .next (s.stall .w 0)) ∧
    (s.Goes qf [] l → flushed → exec (.wflush r) s = s.unrepeat.ends qf l) ∧
    (s.Goes qf [] l → ¬ flushed → exec (.wflush r) s = .next (s.unrepeat.stall .w 0))

/-! ### Queues, groups, methods, contexts -/

/-- Queue instructions (R364, R365). The eligible bit of QSTAT takes account of the arena (R359). -/
def Obligations.QueueInstructions : Prop :=
  ∀ (r : Ring) (o : F3) (s : State) (vs : List Word) (l : Links) (k : Queue),
    let a := vs.headD 0
    let b := vs.getD 1 0
    let q := r.issue .a 0x78 1 [o.a, o.b] [] 1
    let qs := r.issue .a 0x79 1 [o.a] [.reg o.d] 40
    let mine := a.toNat < 2 ^ 20 ∧ s.queue? (s.curCtx.fn * 2 ^ 20 + a.toNat) = some k ∧ k.ctx = s.cur.sys.ctx.toNat
    let state := match k.st with
      | .dormant => 0 | .idle => 1 | .parse => 2 | .ready => 3 | .parked => 4 | .stale => 5
    let level := if k.st = .ready then s.level k else 0
    -- the head packet is a task whose wait bits are set and whose conversions find room in the arena (R359)
    let eligible := k.st = .ready ∧ recFence k.record = false ∧ k.evt &&& recWait k.record = recWait k.record ∧
      ∃ p, k.pick = some p ∧ p.roomIn (s.ctxOf k.ctx) = true
    let running := ((SMap.vals s.work.tasks).filter fun t => t.q == k.key && t.counted && t.convOf.isNone).length
    (∀ t, s.Goes q vs l → mine → b.toNat % 128 = 0 → s.Room (decide (s.cur.ph.buf.length < Config.bufEntries)) t →
      exec (.qsubmit r o) s = (t.orderedEntry ⟨b, 0, 0, 0, 0, .submit a.toNat b none⟩).ends q l) ∧
    (s.Goes q vs l → mine → b.toNat % 128 ≠ 0 → exec (.qsubmit r o) s = .next (s.takeTrap .a tALIGN [])) ∧
    (∀ e ∈ [(0, w64 (k.tail.toNat * 2 ^ 32 + k.head.toNat)),
            (1, w64 (state + level * 16 + (if k.flags / 2 % 2 = 1 then 128 else 0) + (if eligible then 256 else 0))),
            (2, k.evt), (3, w64 running)],
      s.Goes qs vs l → mine → o.b.toNat = e.1 → exec (.qstat r o) s = s.gives qs l o.d e.2) ∧
    (∀ e ∈ [(Instr.qsubmit r o, q), (.qstat r o, qs)], s.Goes e.2 vs l →
      (2 ^ 20 ≤ a.toNat ∨ s.queue? (s.curCtx.fn * 2 ^ 20 + a.toNat) = none →
        exec e.1 s = .next (s.takeTrap .a tRANGE [])) ∧
      (s.queue? (s.curCtx.fn * 2 ^ 20 + a.toNat) = some k → k.ctx ≠ s.cur.sys.ctx.toNat →
        exec e.1 s = .next (s.takeTrap .a tRANGE [])))

/-- Groups (R373 to R376) and barriers (R377 to R380). That BARV waits for the operations issued before its first
attempt, and when a yielding strand moves, are the model's choices (assumption logs 21, 23). -/
def Obligations.GroupAndBarrierInstructions : Prop :=
  (∀ (r : Ring) (o : F3) (s : State) (vs : List Word) (l : Links),
     let sel := o.b.toNat
     let a := vs.headD 0
     let reads := sel = 3 ∨ sel = 4 ∨ sel = 8
     let q := r.issue .a 0x7A 1 (if reads then [o.a] else []) [.reg o.d] (if sel = 9 then 40 else 1)
     let qy := r.issue .a 0x7B 1 [o.a] [.reg o.d] 1
     let c := s.curCtx
     let g := s.curGroup
     let d := s.stageOf g
     let level := s.curLevels[a.toNat]?
     let p := max 1 c.record.p
     let child := fun n => if n < p then n else 0xFFFF
     let part := fun (kind n q k : Nat) =>
       if (extentsOf kind s.curLevels).isEmpty then 2 ^ 32 else
         (n / q + (if k < n % q then 1 else 0)) * 2 ^ 32 + (k * (n / q) + min k (n % q))
     let fill := match s.inputQueue c d with | some (n, size) => size * 2 ^ 32 + n | none => 0
     (∀ e ∈ [(0, g.cores.length), (1, d.max * 256 + d.min), (2, g.stage.toNat), (3, (level.map (·.2)).getD 0),
             (4, (level.map (·.1)).getD 0xFF), (5, p * 2 ^ 32 + c.rank),
             (6, (c.rank + p - 1) % p * 2 ^ 32 + (c.rank + 1) % p),
             (7, child (2 * c.rank + 2) * 2 ^ 32 + child (2 * c.rank + 1) * 2 ^ 16 +
               (if c.rank = 0 then 0xFFFF else (c.rank - 1) / 2)), (9, fill)],
       s.Goes q vs l → sel = e.1 → (reads → a.toNat ≤ 5) → exec (.ginfo r o) s = s.gives q l o.d (w64 e.2)) ∧
     (s.Goes q vs l → sel = 8 → a.toNat ≤ 5 → level.map (·.1) = some 3 →
       exec (.ginfo r o) s = s.gives q l o.d (w64 (part 3 (product (extentsOf 3 s.curLevels)) p c.rank))) ∧
     (∀ k, s.Goes q vs l → sel = 8 → a.toNat ≤ 5 → level.map (·.1) = some 2 → c.dies.findIdx? (· == s.curDie) = some k →
       exec (.ginfo r o) s = s.gives q l o.d (w64 (part 2 (product (extentsOf 2 s.curLevels)) c.dies.length k))) ∧
     (s.Goes q vs l → sel = 8 → a.toNat ≤ 5 → level.map (·.1) ≠ some 3 → level.map (·.1) ≠ some 2 →
       exec (.ginfo r o) s = s.gives q l o.d 0) ∧
     (s.Goes q vs l → reads → 5 < a.toNat → exec (.ginfo r o) s = .next (s.takeTrap .a tRANGE [a])) ∧
     (s.Goes qy vs l → a.toNat ≤ 1 → s.yields a = true → exec (.gyield r o) s =
       (State.postOnce (s.markLeaving.setCur fun t => { t with gy := true }) .preemptImmediate s.cur.key).gives qy l o.d 1) ∧
     (s.Goes qy vs l → a.toNat ≤ 1 → s.yields a = false → exec (.gyield r o) s = s.gives qy l o.d 0) ∧
     (s.Goes qy vs l → 1 < a.toNat → exec (.gyield r o) s = .next (s.takeTrap .a tRANGE []))) ∧
  (∀ (r : Ring) (o : F3) (s : State) (vs : List Word) (l : Links) (v : Barrier) (j : Join),
     let a := vs.headD 0
     let n := vs.getD 1 0
     let key := s.curDie * 256 + a.toNat
     let qj := r.issue .a 0x80 1 [o.a, o.b] [] 8
     let qv := r.issue .a 0x81 1 [o.a] [.reg o.d] 8
     let qw := r.issue .a 0x82 1 [o.a, o.b] [] 1
     let ql := r.issue .a 0x83 1 [o.a] [] 8
     let valid := a.toNat < 256 ∧ s.bar key = some v ∧ v.v = true ∧ v.ctx = s.cur.sys.ctx
     let joined := s.cur.joins.find? (fun i => i.b == a.toNat)
     -- the completion test, made once at the end of a tick: enough arrivals open the next generation
     let test := fun (b : Barrier) =>
       if b.target ≠ 0 ∧ b.target ≤ b.arrived then { b with gen := b.gen + 1, arrived := 0 } else b
     let admits := n.toNat ≠ 0 ∧ n.toNat ≤ 128 ∧ s.cur.joins.length < 4 ∧
       (v.members = 0 ∨ v.target.toNat = n.toNat ∧ v.members ≠ v.target)
     let member := if v.members = 0 then { v with target := n.setWidth 8, members := 1 } else { v with members := v.members + 1 }
     let since := (s.cur.engine .a).since.getD s.clock
     let waiting := s.setEng .a fun e => { e with since := some since }
     let passed := (∀ op ∈ s.cur.ops, op.done = true ∨ since ≤ op.issued) ∧
       (∀ m ∈ s.cur.nest.toList ++ s.cur.pend.toList, since ≤ m.issued) ∧ s.accessesOut 0xFF = false
     let less := { v with
       members := v.members - 1, target := v.target - 1
       arrived := if j.aph.isSome ∧ j.ag = v.gen then v.arrived - 1 else v.arrived }
     (s.Goes qj vs l → valid → joined = none → admits → exec (.bjoin r o) s = ((s.setBar key member).setCur fun t =>
       { t with joins := t.joins ++ [⟨a.toNat, none, 0⟩] }).ends qj l) ∧
     (s.Goes qj vs l → valid → joined.isSome = true → exec (.bjoin r o) s = s.ends qj l) ∧
     (s.Goes qj vs l → valid → joined = none → ¬ admits → exec (.bjoin r o) s = .next (s.takeTrap .a tRANGE [])) ∧
     (s.Goes qv vs l → valid → joined = some j → j.aph = some s.cur.sys.phasen →
       exec (.barv r o) s = s.gives qv l o.d (j.ag.setWidth 64)) ∧
     (s.Goes qv vs l → valid → joined = some j → j.aph ≠ some s.cur.sys.phasen → passed → exec (.barv r o) s =
       ((waiting.setBar key { v with arrived := v.arrived + 1 }).setCur fun t => { t with
         joins := t.joins.map fun i => if i.b = j.b then { i with aph := some t.sys.phasen, ag := v.gen } else i }).gives
           qv l o.d (v.gen.setWidth 64)) ∧
     (s.Goes qv vs l → valid → joined = some j → j.aph ≠ some s.cur.sys.phasen → ¬ passed →
       exec (.barv r o) s = .next (waiting.stall .a 0)) ∧
     (s.Goes qw vs l → valid → joined = some j → v.gen ≠ n.setWidth 24 → exec (.bwait r o) s = s.ends qw l) ∧
     (s.Goes qw vs l → valid → joined = some j → v.gen = n.setWidth 24 → s.clock - since < s.holdPeriods →
       exec (.bwait r o) s = .next (waiting.stall .a 0)) ∧
     (s.Goes qw vs l → valid → joined = some j → v.gen = n.setWidth 24 → s.holdPeriods ≤ s.clock - since →
       exec (.bwait r o) s = .next (s.takeTrap .a tTIMEOUT [a, v.gen.setWidth 64])) ∧
     (s.Goes ql vs l → valid → joined = some j → exec (.bleave r o) s =
       ((s.setCur fun t => { t with joins := t.joins.filter fun i => i.b != j.b }).setBar key less).ends ql l) ∧
     (s.Goes ql vs l → valid → joined = none → exec (.bleave r o) s = s.ends ql l) ∧
     (∀ k, s.testBars.bar k = (s.bar k).map test) ∧
     (∀ e ∈ [(Instr.bjoin r o, qj), (.barv r o, qv), (.bwait r o, qw), (.bleave r o, ql)], s.Goes e.2 vs l →
       256 ≤ a.toNat ∨ s.bar key = none ∨ (s.bar key = some v ∧ (v.v = false ∨ v.ctx ≠ s.cur.sys.ctx)) →
       exec e.1 s = .next (s.takeTrap .a tRANGE [a])) ∧
     (∀ e ∈ [(Instr.barv r o, qv), (.bwait r o, qw)], s.Goes e.2 vs l → valid → joined = none →
       exec e.1 s = .next (s.takeTrap .a tRANGE [])))

/-- MDISP (R351, R352) and CTXINFO (R395). That MDISP does not fill the cache is the model's choice (assumption log
22). -/
def Obligations.MethodsAndContexts : Prop :=
  ∀ (r : Ring) (o : F3) (s t u : State) (vs : List Word) (l : Links) (c : Choice) (b tb : List Byte) (va ktab : Word)
      (n kerns : Nat) (v : Tile),
    let a := vs.headD 0
    let q := r.issue .a 0x7C 1 [o.a, o.b] [.reg o.d] 40
    let tags := tab 3 fun i => BitVec.ofNat 16 (a.toNat / 2 ^ (16 * i) % 65536)
    let op : W16 := BitVec.ofNat 16 (a.toNat / 2 ^ 48)
    let conv := tab 3 fun i => !(vs.getD 1 0).getLsbD i
    let fits := (vs.getD 1 0).toNat < 8 ∧ ∀ g ∈ tags, g.toNat < 2048
    let die := s.curDie
    let ctx := s.cur.sys.ctx.toNat
    let sel := o.b.toNat
    let qc := { r.issue .a 0x7D 1 (if sel = 5 then [o.a] else []) [.reg o.d] 1 with legal := sel == 5 || o.a == 0 }
    let h := a.toNat / 256 % 128
    let i := a.toNat % 8
    let rec' := s.curCtx.record
    let form := a.toNat < 2 ^ 15 ∧ a.toNat / 8 % 32 = 0 ∧ i ≤ 5
    let left := (rec'.coreus * 1000 * Config.periodsPerNs - s.curCtx.usedQ) / (1000 * Config.periodsPerNs)
    (s.Goes q vs l → fits → s.cached die ctx op tags conv = some c → exec (.mdisp r o) s = s.gives q l o.d c.word) ∧
    (s.Goes q vs l → fits → s.cached die ctx op tags conv = none → loadBytes rec'.mtroot 32 false s = .ok b t →
      (tableRoot b = none → exec (.mdisp r o) s = t.gives q l o.d (w64 (2 ^ 63 + 0xFFFFFFFFFFFF))) ∧
      (tableRoot b = some (va, n, ktab, kerns) → loadBytes va (32 * n) false t = .ok tb u →
        exec (.mdisp r o) s = u.gives q l o.d (searchMethods (methodsOf kerns n tb) ktab op.toNat tags conv).word)) ∧
    (s.Goes q vs l → ¬ fits → exec (.mdisp r o) s = .next (s.takeTrap .a tRANGE [])) ∧
    (∀ e ∈ [(0, rec'.tenant.toNat * 4096 + ctx), (1, s.cur.kern * 2 ^ 32 + s.cur.entry), (2, left),
            (3, s.ns / (1000 * rec'.period) * (1000 * rec'.period)),
            (4, (if rec'.hold = 0 then 10000 else rec'.hold) + rec'.diemask.toNat * 2 ^ 32)],
      s.Goes qc [] l → sel = e.1 → exec (.ctxinfo r o) s = s.gives qc l o.d (w64 e.2)) ∧
    (s.Goes qc vs l → sel = 5 → form → s.cur.tile? h = none → s.nearOperand i = some v → exec (.ctxinfo r o) s =
      (s.setCur fun k => { k with
        tiles := SMap.set k.tiles h { v with ro := true }
        ph := { k.ph with marks := k.ph.marks.erase h } }).gives qc l o.d 1) ∧
    (s.Goes qc vs l → sel = 5 → form → s.cur.tile? h = none → s.nearOperand i = none →
      exec (.ctxinfo r o) s = s.gives qc l o.d 0) ∧
    (s.Goes qc vs l → sel = 5 → form → (s.cur.tile? h).isSome = true →
      exec (.ctxinfo r o) s = .next (s.takeTrap .a tHANDLE [w64 h])) ∧
    (s.Goes qc vs l → sel = 5 → ¬ form → exec (.ctxinfo r o) s = .next (s.takeTrap .a tRANGE [])) ∧
    (sel ≠ 5 → o.a ≠ 0 → exec (.ctxinfo r o) s = .next (s.takeTrap .a tILLEGAL (s.cur.illegalArgs .a)))

/-! ### Pages -/

/-- The page instructions over a range (R335 to R338) and on one page. Reason 2 for a path that is missing is the
model's reading of R336. -/
def Obligations.PageInstructions : Prop :=
  (∀ (r : Ring) (o : F3) (x : Option XP) (s u : State) (vs : List Word) (l : Links) (v : Word),
     let a := vs.headD 0
     let b := vs.getD 1 0
     let n := match x with | some p => p.npg.toNat | none => 1
     let size := match x with | some p => p.size.toNat | none => 0
     let bytes := 2 ^ pageShift size
     let q := fun opc extra => { r.issue .a opc (lenOf x) (o.a :: extra) [.reg o.d] 1 with legal := n != 0 && size != 3 }
     let aligned := fun (a : Word) => a.toNat % bytes = 0
     let mapped := fun (a : Word) => ∀ i, i < n → canonical (a + w64 (i * bytes)) = true
     let inside := fun (a : Word) => aligned a ∧ mapped a
     let place := b.toNat < 16 ∧ b.toNat % 4 ≤ 1
     let loop := fun (f : Word → Act Nat) => pageLoop f a size n 0 s = .ok v u
     -- nothing is MOVING, no atomic waits at an engine and no access to a peer is on its way
     let idle := s.mem.moves = [] ∧ s.mem.atoms = [] ∧ s.net.remote = []
     -- page i is no window and has a valid leaf e
     let leaf := fun (i : Nat) (pa : Nat) (e : Word) => windowIn s.cur.wins (a + w64 (i * bytes)) bytes = false ∧
       s.pageSlot (a + w64 (i * bytes)) size = .entry pa e ∧ leafV e = true
     let completes := fun (i : Instr) (q : Issue) =>
       ∃ (t : State) (done reason : Nat), done ≤ n ∧ reason ≤ 8 ∧ exec i s = t.gives q l o.d (w64 (reason * 2 ^ 56 + done))
     -- with nothing in the way they complete
     (s.Goes (q 0x88 [o.b]) vs l → inside a → inside b → idle → completes (.pgfork r o x) (q 0x88 [o.b])) ∧
     (s.Goes (q 0x89 []) vs l → inside a → idle → n = 1 ∨ s.curCtx.record.poollog2 = 0 → completes (.pgdrop r o x) (q 0x89 [])) ∧
     (s.Goes (q 0x8B []) vs l → inside a → idle → completes (.pgunpin r o x) (q 0x8B [])) ∧
     (∀ pa e, s.Goes (q 0x8A []) vs l → inside a → idle → n = 1 → leaf 0 pa e →
       exec (.pgpin r o x) s = (({ s with mem := s.mem.put 0 pa (leBytes 8 (setBit e 9 true).toNat) } : State).dropTlb
         (a + w64 0) size).gives (q 0x8A []) l o.d (w64 1)) ∧
     (s.Goes (q 0x8D [o.b]) vs l → inside a → place → idle →
       (∀ i, i < n → ∃ pa e, leaf i pa e ∧ leafPin e = false ∧ leafHome e ≠ 2 ∧
         (leafHome e = 0 → frameCount s.mem (leafPa e) ≤ 1) ∧
         poolOf (leafHome e) (leafPa e) = (if b.toNat % 4 = 1 then 4 else b.toNat / 4)) →
       exec (.pgmove r o x) s = s.gives (q 0x8D [o.b]) l o.d (w64 n)) ∧
     -- page by page, whatever is in the way
     (s.Goes (q 0x88 [o.b]) vs l → inside a → inside b → loop (fun va => forkPage size va (b + (va - a))) →
       exec (.pgfork r o x) s = u.gives (q 0x88 [o.b]) l o.d v) ∧
     (s.Goes (q 0x89 []) vs l → inside a → loop (dropOne size) →
       exec (.pgdrop r o x) s = u.gives (q 0x89 []) l o.d v) ∧
     (s.Goes (q 0x8A []) vs l → inside a → loop (pinOne size) →
       exec (.pgpin r o x) s = u.gives (q 0x8A []) l o.d v) ∧
     (s.Goes (q 0x8B []) vs l → inside a → loop (fun va => validLeaf va size fun pa e =>
         (Act.modify fun s => (s.putEntry pa (setBit e 9 false)).dropTlb va size).andThen (Act.pure 0)) →
       exec (.pgunpin r o x) s = u.gives (q 0x8B []) l o.d v) ∧
     (s.Goes (q 0x8D [o.b]) vs l → inside a → place → loop (movePage size b) →
       exec (.pgmove r o x) s = u.gives (q 0x8D [o.b]) l o.d v) ∧
     -- the checks at issue: each alignment, then the pages of each range, then the target of PGMOVE
     (s.Goes (q 0x88 [o.b]) vs l → aligned a → ¬ aligned b →
       exec (.pgfork r o x) s = .next (s.takeTrap .a tALIGN [])) ∧
     (∀ i, s.Goes (q 0x88 [o.b]) vs l → inside a → aligned b → i < n → canonical (b + w64 (i * bytes)) = false →
       (∀ j, j < i → canonical (b + w64 (j * bytes)) = true) →
       exec (.pgfork r o x) s = .next (s.takeTrap .a tPROTECT [b + w64 (i * bytes)])) ∧
     (s.Goes (q 0x8D [o.b]) vs l → inside a → ¬ place →
       exec (.pgmove r o x) s = .next (s.takeTrap .a tRANGE [])) ∧
     (∀ e ∈ [(Instr.pgfork r o x, q 0x88 [o.b], 2), (.pgdrop r o x, q 0x89 [], 1), (.pgpin r o x, q 0x8A [], 1),
             (.pgunpin r o x, q 0x8B [], 1), (.pgmove r o x, q 0x8D [o.b], 1)],
       (n = 0 ∨ size = 3 → exec e.1 s = .next (s.takeTrap .a tILLEGAL (s.cur.illegalArgs .a))) ∧
       (s.Goes e.2.1 vs l → ¬ aligned a → exec e.1 s = .next (s.takeTrap .a tALIGN [])) ∧
       (∀ i, s.Goes e.2.1 vs l → aligned a → (e.2.2 = 2 → aligned b) → i < n →
         canonical (a + w64 (i * bytes)) = false → (∀ j, j < i → canonical (a + w64 (j * bytes)) = true) →
         exec e.1 s = .next (s.takeTrap .a tPROTECT [a + w64 (i * bytes)])))) ∧
  (∀ (r : Ring) (o : F3) (s : State) (vs : List Word) (l : Links) (w : Window) (pa level : Nat) (e : Word),
     let a := vs.headD 0
     let ctx := s.cur.sys.ctx.toNat
     let q := r.issue .a 0x8C 1 [o.a] [.reg o.d] 40
     let asked := b2n (s.mem.request? ctx a).isSome
     let moves := b2n (movingAt s.mem ctx a)
     let gives := fun (v : Nat) => exec (.pgqry r o) s = s.gives q l o.d (w64 v)
     let none' := findWindow s.cur.wins a = none ∧ ∀ pa e level, s.walk ctx a ≠ .leaf pa e level
     s.Goes q vs l →
       (canonical a = false → gives 0) ∧
       (canonical a = true →
         (findWindow s.cur.wins a = some w →
           (o.b.toNat = 0 → gives (w.attr.toNat + 2 ^ 62)) ∧ (o.b.toNat = 1 → gives 0) ∧
           (o.b.toNat = 2 → gives (3 + 16 * asked + 32 * moves))) ∧
         (findWindow s.cur.wins a = none → s.walk ctx a = .leaf pa e level →
           (o.b.toNat = 0 → gives e.toNat) ∧
           (o.b.toNat = 1 → gives (if leafHome e = 0 then frameCount s.mem (leafPa e) else 0)) ∧
           (o.b.toNat = 2 → gives (1 + 4 * level + 16 * asked + 32 * moves))) ∧
         (none' → (o.b.toNat < 2 → gives 0) ∧ (o.b.toNat = 2 → gives (16 * asked + 32 * moves))))) ∧
  (∀ (s t : State) (f : Word → Act Nat) (a va dst b : Word) (size n i reason pa pt level : Nat) (e d : Word),
     let at' := a + w64 (i * 2 ^ pageShift size)
     let ctx := s.cur.sys.ctx.toNat
     let size' := 2 ^ pageShift size
     let plain := windowIn s.cur.wins dst size' = false ∧ movingIn s.mem ctx dst size' = false
     let leaf := s.pageSlot va size = .entry pa e ∧ leafV e = true
     let put := fun (s : State) (pa : Nat) (e : Word) => { s with mem := s.mem.put 0 pa (leBytes 8 e.toNat) }
     (pageLoop f a size 0 i s = .ok (w64 i) s) ∧
     (windowIn s.cur.wins at' size' = true → pageLoop f a size (n + 1) i s = .ok (w64 (8 * 2 ^ 56 + i)) s) ∧
     (windowIn s.cur.wins at' size' = false → s.pageBusy at' size = true →
       pageLoop f a size (n + 1) i s = .stop (.wait 0 s)) ∧
     (windowIn s.cur.wins at' size' = false → s.pageBusy at' size = false → f at' s = .ok reason t →
       pageLoop f a size (n + 1) i s =
       if reason = 0 then pageLoop f a size n (i + 1) t else .ok (w64 (reason * 2 ^ 56 + i)) t) ∧
     -- no valid leaf
     (∀ w, s.pageSlot va size = .entry pa w → leafV w = false →
       dropOne size va s = .ok 0 s ∧ (plain → forkPage size va dst s = .ok 1 s) ∧
       (∃ k : TFault, pinOne size va s = .stop (.fault k s) ∧ k.va = va ∧ k.wr = false ∧ k.code = 1)) ∧
     (s.pageSlot va size = .noPath level e → dropOne size va s = .ok 0 s ∧ (plain → forkPage size va dst s = .ok 2 s)) ∧
     (s.pageSlot va size = .other →
       dropOne size va s = .ok 2 s ∧ pinOne size va s = .ok 2 s ∧ (plain → forkPage size va dst s = .ok 2 s)) ∧
     -- PGFORK
     (windowIn s.cur.wins dst size' = true → forkPage size va dst s = .ok 8 s) ∧
     (windowIn s.cur.wins dst size' = false → movingIn s.mem ctx dst size' = true → forkPage size va dst s = .stop (.wait 0 s)) ∧
     (plain → leaf → leafHome e ≠ 0 → forkPage size va dst s = .ok 7 s) ∧
     (plain → leaf → leafHome e = 0 → s.pageSlot dst size = .entry pt d → leafV d = true →
       forkPage size va dst s = .ok (if leafPa d = leafPa e ∧ leafHome d = 0 ∧ leafCow d = true then 0 else 6) s) ∧
     (plain → leaf → leafHome e = 0 → s.pageSlot dst size = .entry pt d → leafV d = false →
       let shared := setBit e 10 true
       let w := put (put s pa shared) pt (setBit (setBit (setBit shared 8 false) 7 false) 9 false)
       forkPage size va dst s = .ok 0 (State.dropTlb { w with mem := w.mem.share ctx (leafPa e) size } va size)) ∧
     -- PGDROP, PGPIN
     (leaf → leafPin e = true → dropOne size va s = .ok 3 s) ∧
     (leaf → leafPin e = false → dropOne size va s = .ok 0 ((s.discardPage va size).dropLeaf ctx va pa e size)) ∧
     (leaf → pinOne size va s = .ok 0 ((put s pa (setBit e 9 true)).dropTlb va size)) ∧
     -- PGMOVE
     ((∀ m ∈ s.mem.moves, ¬ (m.ctx = ctx ∧ m.va = va.toNat)) → leaf →
       (leafPin e = true → movePage size b va s = .ok 3 s) ∧
       (leafPin e = false → leafHome e = 0 → 1 < frameCount s.mem (leafPa e) → movePage size b va s = .ok 4 s) ∧
       (leafPin e = false → leafHome e = 2 → movePage size b va s = .ok 7 s) ∧
       (leafPin e = false → (leafHome e = 0 → frameCount s.mem (leafPa e) ≤ 1) → leafHome e ≠ 2 →
         poolOf (leafHome e) (leafPa e) = (if b.toNat % 4 = 1 then 4 else b.toNat / 4) →
         movePage size b va s = .ok 0 s)) ∧
     ((∃ m ∈ s.mem.moves, m.ctx = ctx ∧ m.va = va.toNat) → movePage size b va s = .stop (.wait 0 s)) ∧
     -- a bit of a leaf
     (∀ (w : Word) (k j : Nat) (on : Bool), k < 64 → j < 64 →
       (setBit w k on).getLsbD j = if j = k then on else w.getLsbD j))

/-! ### Links, streams, trace -/

/-- The link instructions (R410 to R416). An XCPOST without a handle that completes at once is the model's reading
(assumption log 33). -/
def Obligations.LinkInstructions : Prop :=
  ∀ (r : Ring) (o : F3) (s : State) (vs : List Word) (l : Links) (i : Nat) (h : LinkH),
    let a := vs.headD 0
    let qp := { r.issue .a 0x90 1 [o.a] [.reg o.d] 1 with async := true }
    let qa := { r.issue .a 0x91 1 [o.a] [.reg o.d] 1 with async := true }
    let qw := r.issue .a 0x92 1 [o.a] [.reg o.d] 1
    let qq := r.issue .a 0x93 1 [o.a] [.reg o.d] (if o.b.toNat % 2 = 1 then 40 else 1)
    let coll := o.s.getLsbD 0
    let fits := a.toNat % 64 = 0 ∧ canonical a = true
    let free := s.cur.hand.findIdx? fun h => !h.held
    let takes := fun (u : State) (opc : Nat) (coll arm : Bool) =>
      (State.setCur { u with net := { u.net with nextW := u.net.nextW + 1 } } fun t =>
        { t with hand := t.hand.set i ⟨true, u.net.nextW, 0, 0, true⟩ }).starting .a opc r
          (.accept a coll arm u.net.nextW none) [] (some .linkChainAcceptance)
    let held := a.toNat < 16 ∧ s.cur.hand.getD a.toNat .free = h ∧ h.held = true
    let since := (s.cur.engine .a).since.getD s.clock
    let p := s.port a.toNat
    let released := s.unrepeat.cur.ph.buf = [] ∧ s.unrepeat.cur.awaiting = false
    (s.Goes qp vs l → fits → free = some i → released →
      exec (.xcpost r o) s = (takes s.unrepeat 0x90 coll false).gives qp l o.d (w64 i)) ∧
    (s.Goes qp vs l → fits → free = some i → ¬ released →
      exec (.xcpost r o) s = .next (s.unrepeat.stall .a 0)) ∧
    (s.Goes qa vs l → fits → free = some i →
      exec (.xcarm r o) s = (takes s 0x91 false true).gives qa l o.d (w64 i)) ∧
    (∀ e ∈ [(Instr.xcpost r o, qp, 0x90, coll, false), (.xcarm r o, qa, 0x91, false, true)], s.Goes e.2.1 vs l →
      (fits → free = none → exec e.1 s =
        (s.starting .a e.2.2.1 r (.accept a e.2.2.2.1 e.2.2.2.2 0 none) [] none).gives e.2.1 l o.d Word.ones) ∧
      (a.toNat % 64 ≠ 0 → exec e.1 s = .next (s.takeTrap .a tALIGN [])) ∧
      (a.toNat % 64 = 0 → canonical a = false → exec e.1 s = .next (s.takeTrap .a tPROTECT [a]))) ∧
    (s.Goes qw vs l → held → h.status ≠ 0 → exec (.xcwait r o) s =
      (s.setCur fun t => { t with hand := t.hand.set a.toNat .free }).gives qw l o.d (w64 h.status)) ∧
    (s.Goes qw vs l → held → h.status = 0 → s.clock - since < s.holdPeriods →
      exec (.xcwait r o) s = .next ((s.setEng .a fun e => { e with since := some since }).stall .a 0)) ∧
    (s.Goes qw vs l → held → h.status = 0 → s.holdPeriods ≤ s.clock - since →
      exec (.xcwait r o) s = .next (s.takeTrap .a tTIMEOUT [a])) ∧
    (s.Goes qw vs l → 16 ≤ a.toNat ∨ (s.cur.hand.getD a.toNat .free).held = false →
      exec (.xcwait r o) s = .next (s.takeTrap .a tRANGE [a])) ∧
    (s.Goes qq vs l → o.b.toNat = 0 → held →
      exec (.xcqry r o) s = s.gives qq l o.d (w64 (h.status + h.done % 2 ^ 32 * 2 ^ 16))) ∧
    (s.Goes qq vs l → o.b.toNat = 0 → a.toNat < 16 → (s.cur.hand.getD a.toNat .free).held = false →
      exec (.xcqry r o) s = s.gives qq l o.d 255) ∧
    (s.Goes qq vs l → o.b.toNat = 1 → a.toNat < 16 → exec (.xcqry r o) s = s.gives qq l o.d
      (w64 ((match p.st with | .down => 0 | .training => 1 | .up => 2 | .degraded => 3 | .failed => 4) + p.lanes * 16 +
        p.resent % 2 ^ 32 * 2 ^ 32))) ∧
    (s.Goes qq vs l → o.b.toNat = 2 →
      exec (.xcqry r o) s = s.gives qq l o.d (w64 (s.cur.hand.countP fun h => !h.held))) ∧
    (s.Goes qq vs l → o.b.toNat = 3 → exec (.xcqry r o) s = s.gives qq l o.d (BitVec.ofInt 64 s.net.ptpOff)) ∧
    (s.Goes qq vs l → o.b.toNat < 2 → 16 ≤ a.toNat → exec (.xcqry r o) s = .next (s.takeTrap .a tRANGE [a]))

/-- Sequences (R419 to R424, R433). The arguments of the TIMEOUT are the model's reading (assumption log 26). -/
def Obligations.SequenceInstructions : Prop :=
  ∀ (r : Ring) (o : F3) (s u : State) (vs : List Word) (l : Links) (k : Sequence) (n : Nat),
    let a := vs.headD 0
    let b := vs.getD 1 0
    let ctx := s.cur.sys.ctx.toNat
    let room := s.Room (decide (s.cur.ph.buf.length < Config.bufEntries)) u
    let q := fun srcs names lat => r.issue .a 0x98 1 srcs names lat
    let qo := q [o.a] [.reg o.d] 40
    let qa := q [o.a, o.b] [.reg o.d] 1
    let qc := q [o.a] [] 1
    let qx := q [] [] 1
    let qs := r.issue .a 0x9C 1 [o.a, o.b] [.reg o.d] 40
    let named := a.toNat < 65536 ∧ SMap.get? s.strm.seqs (ctx * 65536 + a.toNat) = some k
    let free := k.opened = none ∨ k.opened = some s.cur.key
    let since := (s.cur.engine .a).since.getD s.clock
    let waiting := s.setEng .a fun e => { e with since := some since }
    let late := fun (opc : Nat) => [a, w64 opc, w64 ((s.clock - since) / Config.periodsPerNs / 1000), s.cur.sys.phasen.setWidth 64]
    let opened := s.cur.step = some (ctx, n) ∧ SMap.get? s.strm.seqs (ctx * 65536 + n) = some k
    let cursor := fun (layer : Nat) => k.curs.getD layer 0 + ((s.cur.ph.buf.filterMap fun e => match e.kind with
      | .append c m j w => if c = ctx ∧ m = n ∧ j = layer then some w else none
      | _ => none).foldl (· + ·) 0)
    let pos := k.l.toNat + cursor a.toNat
    let entry := fun (w : BufKind) => u.orderedEntry ⟨0, 0, 0, 0, 0, w⟩
    -- OPEN, APPEND, COMMIT, CLOSE
    (s.Goes qo vs l → named → s.cur.step = none → free → exec (.stbindOpen r o) s =
      ((s.setSeq (ctx * 65536 + a.toNat) { k with opened := some s.cur.key }).setCur fun t =>
        { t with step := some (ctx, a.toNat) }).gives qo l o.d k.l) ∧
    (s.Goes qo vs l → named → s.cur.step ≠ none → exec (.stbindOpen r o) s = .next (s.takeTrap .a tRANGE [a])) ∧
    (s.Goes qa vs l → opened → a.toNat < k.nlayer → b.toNat < 2 ^ 32 → pos + b.toNat ≤ k.btn * k.b → room →
      exec (.stbindAppend r o) s = (entry (.append ctx n a.toNat b.toNat)).gives qa l o.d (w64 pos)) ∧
    (s.Goes qa vs l → opened → k.nlayer ≤ a.toNat → exec (.stbindAppend r o) s = .next (s.takeTrap .a tRANGE [a])) ∧
    (s.Goes qa vs l → opened → a.toNat < k.nlayer → 2 ^ 32 ≤ b.toNat ∨ k.btn * k.b < pos + b.toNat →
      exec (.stbindAppend r o) s = .next (s.takeTrap .a tRANGE [b])) ∧
    (s.Goes qc vs l → opened → (∀ j, j < k.nlayer → a.toNat ≤ cursor j) → room →
      exec (.stbindCommit r o) s = (entry (.commit ctx n a.toNat)).ends qc l) ∧
    (∀ j, s.Goes qc vs l → opened → j < k.nlayer → cursor j < a.toNat →
      exec (.stbindCommit r o) s = .next (s.takeTrap .a tRANGE [a])) ∧
    (s.cur.step = none →
      (s.Goes qa vs l → exec (.stbindAppend r o) s = .next (s.takeTrap .a tRANGE [a])) ∧
      (s.Goes qc vs l → exec (.stbindCommit r o) s = .next (s.takeTrap .a tRANGE [a])) ∧
      (s.Goes qx [] l → exec (.stbindClose r o) s = s.ends qx l)) ∧
    (s.Goes qx [] l → s.cur.step = some (ctx, n) → room →
      exec (.stbindClose r o) s = (entry (.close ctx n)).ends qx l) ∧
    -- STSINK
    (s.Goes qs vs l → named → b.toNat ≤ 15 → free → exec (.stsink r o) s =
      ((s.setSinks ctx k b.toNat).setSeq (ctx * 65536 + a.toNat) { k with s := b.toNat }).gives qs l o.d (w64 k.s)) ∧
    (s.Goes qs vs l → named → 15 < b.toNat → exec (.stsink r o) s = .next (s.takeTrap .a tRANGE [b])) ∧
    (∀ e ∈ [(Instr.stbindOpen r o, qo, 0x98), (.stsink r o, qs, 0x9C)], s.Goes e.2.1 vs l →
      (¬ (a.toNat < 65536 ∧ (SMap.get? s.strm.seqs (ctx * 65536 + a.toNat)).isSome = true) →
        exec e.1 s = .next (s.takeTrap .a tRANGE [a])) ∧
      (named → s.cur.step = none → b.toNat ≤ 15 → ¬ free → s.clock - since < s.holdPeriods →
        exec e.1 s = .next (waiting.stall .a 0)) ∧
      (named → s.cur.step = none → b.toNat ≤ 15 → ¬ free → s.holdPeriods ≤ s.clock - since →
        exec e.1 s = .next (s.takeTrap .a tTIMEOUT (late e.2.2))))

/-- Streams in a step (R429, R434, R435). -/
def Obligations.StreamInstructions : Prop :=
  ∀ (r : Ring) (o : F3) (s : State) (vs : List Word) (l : Links) (f : StepFacts) (v : Stream) (t : Tile) (k : Sequence),
    let a := vs.headD 0
    let b := vs.getD 1 0
    let ctx := s.cur.sys.ctx.toNat
    let qt := r.issue .a 0x99 1 [o.a, o.b] [.reg o.d] 40
    let qk := r.issue .a 0x9A 1 [] [.reg o.d] 1
    let ql := r.issue .a 0x9B 1 [o.a] [.reg o.d] 1
    let step := (s.task s.cur.task).bind Task.step
    let before := fun (x y : Token32) => decide (x.stamp < y.stamp) || (x.stamp == y.stamp && decide (x.seqn ≤ y.seqn))
    let due := (sortBy before (v.pend.filter fun x => decide (x.stamp ≤ f.cut))).take (min b.toNat (t.size / 32))
    let stamps := v.taken ++ due.map Token32.stamp
    let left := { v with
      pend := v.pend.filter fun x => !due.contains x
      taken := stamps.drop (stamps.length - k.w)
      seen := v.seen ++ due.map Token32.seqn }
    let u := s.unrepeat
    let blocked := s.rowsBusy a.toNat 0 ((32 * due.length + t.rb - 1) / t.rb) = true
    (s.Goes qt vs l → step = some f → a.toNat < 128 → s.cur.tile? a.toNat = some t → t.ro = false →
      s.stream? ctx f.sid = some v → due = [] ∨ ¬ blocked → u.cur.ph.buf = [] → u.cur.awaiting = false → u.cur.tile? a.toNat = some t →
      u.stream? ctx f.sid = some v → SMap.get? u.strm.seqs (ctx * 65536 + v.seq) = some k →
      exec (.sttake r o) s = ((((u.heal t.store (u.tileSpot t t.half 0) (32 * due.length)).setStream ctx f.sid left).setCur fun c =>
        { (c.setTile a.toNat (t.setFront (t.front.put 0 (due.map Token32.bytes).flatten))) with took := c.took + due.length }).postOnce
          .streamRecordAdmit ctx f.sid).gives qt l o.d (w64 due.length)) ∧
    (s.Goes qt vs l → step = some f → a.toNat < 128 → s.cur.tile? a.toNat = some t → t.ro = false →
      s.stream? ctx f.sid = some v → due ≠ [] → blocked → exec (.sttake r o) s = .next (s.stall .a 0)) ∧
    (∀ e ∈ [(0, w64 f.t), (1, BitVec.ofInt 64 f.cut), (2, w64 f.flags), (3, w64 f.sid)],
      s.Goes qk [] l → step = some f → o.b.toNat = e.1 → exec (.sttick r o) s = s.gives qk l o.d e.2) ∧
    (∀ e ∈ [(0, v.missed), (1, v.late), (2, v.dropped), (3, v.filled)],
      s.Goes ql vs l → a.toNat < s.curCtx.nstrm → s.stream? ctx a.toNat = some v → o.b.toNat = e.1 →
      exec (.stlate r o) s = s.gives ql l o.d (e.2.setWidth 64)) ∧
    (s.Goes ql vs l → s.curCtx.nstrm ≤ a.toNat → exec (.stlate r o) s = .next (s.takeTrap .a tRANGE [a])) ∧
    (step = none → (s.Goes qt vs l → exec (.sttake r o) s = .next (s.takeTrap .a tSTREAM [])) ∧
      (s.Goes qk [] l → exec (.sttick r o) s = .next (s.takeTrap .a tSTREAM []))) ∧
    (∀ x : Token32, x.bytes.length = 32)

/-- Trace instructions (R451 to R453) and STATERD (R397); the index layout that STATERD reads by is the model's choice
where R397 leaves it open (assumption log 25). -/
def Obligations.TraceInstructions : Prop :=
  ∀ (r : Ring) (o : F3) (s : State) (vs : List Word) (l : Links),
    let a := vs.headD 0
    let b := vs.getD 1 0
    let q := fun opc srcs => r.issue .a opc 1 srcs [] 1
    let sel := o.b.toNat
    let qq := { r.issue .a 0xA2 1 [o.a] [.reg o.d] (if sel = 1 then 40 else 1) with legal := decide (sel < 2) || o.a == 0 }
    let qr := r.issue .a 0xA8 1 [o.a] [.reg o.d] 40
    let span := fun (stop : Nat) => (BitVec.ofNat 32 (a.toNat % 2 ^ 31 + stop * 2 ^ 31) : W32)
    let waits := fun (t : State) => t.emitting (4 * t.cur.key) = true
    (∀ e ∈ [(Instr.trmark r o, q 0xA0 [o.a, o.b], 0x600, a.setWidth 32, 0),
            (.trmarkL r o, q 0xA0 [o.a, o.b, o.d], 0xE00, a.setWidth 32, vs.getD 2 0),
            (.trspanBegin r o, q 0xA1 [o.a, o.b], 0x700, span 0, 0), (.trspanEnd r o, q 0xA1 [o.a, o.b], 0x700, span 1, 0)],
      let t := s.emitCore .a (e.2.2.1 + b.toNat) e.2.2.2.1 e.2.2.2.2
      s.Goes e.2.1 vs l →
      (b.toNat < 256 → (s.cur.engine .a).since = none → ¬ waits t → exec e.1 s = t.ends e.2.1 l) ∧
      (b.toNat < 256 → (s.cur.engine .a).since = none → waits t →
        exec e.1 s = .next ((t.setEng .a fun k => { k with since := some t.clock }).stall .a 0)) ∧
      (b.toNat < 256 → (s.cur.engine .a).since ≠ none → exec e.1 s = s.ends e.2.1 l) ∧
      (256 ≤ b.toNat → exec e.1 s = .next (s.takeTrap .a tRANGE [b]))) ∧
    (s.Goes qq vs l → sel = 0 → a.toNat < 16 →
      exec (.trqry r o) s = s.gives qq l o.d (SMap.getD (s.block (8 + s.curCore)).ecnt a.toNat 0)) ∧
    (s.Goes qq vs l → sel = 1 → a.toNat < 64 →
      exec (.trqry r o) s = s.gives qq l o.d (SMap.getD (s.block s.curDie).ecnt a.toNat 0)) ∧
    (s.Goes qq vs l → sel = 2 → exec (.trqry r o) s = s.gives qq l o.d s.cur.stalls) ∧
    (s.Goes qq vs l → sel = 3 → exec (.trqry r o) s = s.gives qq l o.d s.curCtx.record.evmask) ∧
    (s.Goes qq vs l → (sel = 0 ∧ 16 ≤ a.toNat) ∨ (sel = 1 ∧ 64 ≤ a.toNat) →
      exec (.trqry r o) s = .next (s.takeTrap .a tRANGE [a])) ∧
    (s.cur.priv = false → exec (.staterd r o) s = .next (s.takeTrap .a tPRIV (s.cur.illegalArgs .a))) ∧
    (∀ v, s.cur.priv = true → s.Goes qr vs l → s.inspect s.cur.sys.ctx.toNat s.curCtx.fn a = some v →
      exec (.staterd r o) s = State.gives { s with free := s.free + 1 } qr l o.d v) ∧
    (s.cur.priv = true → s.Goes qr vs l → s.inspect s.cur.sys.ctx.toNat s.curCtx.fn a = none →
      exec (.staterd r o) s = .next (s.takeTrap .a tRANGE []))

/-! ### The vector file -/

/-- Element-wise instructions (R216 to R224, R238, R239) with the number rules of R27 to R51; which lanes are late is
a free value (assumption log 4). -/
def Obligations.VectorElements : Prop :=
  ∀ (r : Ring) (o : F3) (x : Option XV) (e : XV) (s : State) (l : Links),
    let v := s.cur.xv x
    -- the instruction i, issued as q, writes to the enabled lanes of d what `lane` gives from the lanes of a, b and c
    let elements := fun (i : Instr) (opc : Nat) (q : VIssue) (x : Option XV) (b c : List W32)
        (lane : (Nat → Bool) → Nat → W32 → W32 → W32 → Lane) =>
      s.Goes (q.issue r opc x s.cur) [] l →
        let w := s.cur.xv x
        let t := (s.late (q.fp && w.format.isFp)).2
        let ls := laneMap (s.cur.governs w) (lane (s.late (q.fp && w.format.isFp)).1) (s.cur.x.vec o.a.toNat) b c
        exec i s = (t.counted w.format ls).writes (q.issue r opc x s.cur) l
          [.vec o.d.toNat (s.cur.governs w) (ls.map fun k => BitVec.ofNat 32 k.v)]
    let regA := s.cur.x.vec o.a.toNat
    let regB := s.cur.x.vec o.b.toNat
    let two : VIssue := { fp := true, fmts := [1, 2, 3, 10, 11], sela := s.selOf x, selb := s.selOf x,
                          vecs := [o.a.toNat, o.b.toNat], names := [.vec o.d.toNat] }
    let one : VIssue := { fmts := [1, 2, 3, 10], sela := s.selOf x, vecs := [o.a.toNat], names := [.vec o.d.toNat] }
    let plain2 : VIssue := { vecs := [o.a.toNat, o.b.toNat], names := [.vec o.d.toNat] }
    let plain1 : VIssue := { vecs := [o.a.toNat], names := [.vec o.d.toNat] }
    let p := fun (w : XV) (a : W32) => pick w.format.bits w.sela.toNat a
    let p' := fun (w : XV) (b : W32) => pick w.format.bits w.selb.toNat b
    -- a result rounded from the exact value k, of sources xs; an integer result from the integer n
    let rounded := fun (w : XV) (late : Bool) (k : Val) (xs : List Val) =>
      fpLane w.format late k (roundE k w.format w.rnd.toNat) (xs.any Val.isNan) (xs.any fun y => !y.isFin)
    let whole := fun (w : XV) (n : Int) => Lane.plain (intResult w.format w.rnd.toNat n)
    let sum := fun (w : XV) (neg : Bool) (late : Nat → Bool) (i : Nat) (a b : W32) =>
      let m := exact w.format (p w a)
      let n := exact w.format (p' w b)
      if w.format.float.isSome then rounded w (late i) (Val.add w.rnd.toNat m (if neg then n.negate else n)) [m, n]
      else whole w (intOf w.format (p w a) + (if neg then -1 else 1) * intOf w.format (p' w b))
    let product := fun (w : XV) (late : Nat → Bool) (i : Nat) (a b : W32) =>
      let m := exact w.format (p w a)
      let n := exact w.format (p' w b)
      if w.format.float.isSome then rounded w (late i) (Val.mul m n) [m, n]
      else whole w (intOf w.format (p w a) * intOf w.format (p' w b))
    let fused := fun (w : XV) (late : Nat → Bool) (i : Nat) (a b c : W32) =>
      let m := exact w.format (p w a)
      let n := exact w.format (p' w b)
      let k := exact w.format (pick w.format.bits 0 c)
      if w.format.float.isSome then rounded w (late i) (Val.add w.rnd.toNat (Val.mul m n) k) [m, n, k]
      else whole w (intOf w.format (p w a) * intOf w.format (p' w b) + intOf w.format (pick w.format.bits 0 c))
    let extreme := fun (w : XV) (less : Bool) (late : Nat → Bool) (i : Nat) (a b : W32) =>
      chosenLane w.format (late i) (maxEnc w.format less (p w a) (p' w b))
        ((exact w.format (p w a)).isNan || (exact w.format (p' w b)).isNan)
    -- a sign changes without arithmetic: no lane of it is late, no event is counted
    let signed := fun (w : XV) (f : Nat → Nat) (n : Int → Int) (a : W32) =>
      if w.format.float.isSome then Lane.plain (f (p w a)) else whole w (n (intOf w.format (p w a)))
    elements (.vadd r o x) 0x60 two x regB regA (fun late i a b _ => sum v false late i a b) ∧
    elements (.vsub r o x) 0x61 two x regB regA (fun late i a b _ => sum v true late i a b) ∧
    elements (.vmul r o x) 0x62 two x regB regA (fun late i a b _ => product v late i a b) ∧
    elements (.vfma r o e) 0x63 { fp := true, fmts := [1, 2, 3, 10, 11], sela := s.selOf (some e), selb := s.selOf (some e),
                                  lat := 8, vecs := [o.a.toNat, o.b.toNat, e.c.toNat], names := [.vec o.d.toNat] } (some e) regB (s.cur.x.vec e.c.toNat)
      (fun late i a b c => fused e late i a b c) ∧
    elements (.vmin r o x) 0x64 two x regB regA (fun late i a b _ => extreme v true late i a b) ∧
    elements (.vmax r o x) 0x65 two x regB regA (fun late i a b _ => extreme v false late i a b) ∧
    elements (.vabs r o x) 0x66 one x regA regA
      (fun _ _ a _ _ => signed v (fun k => k % 2 ^ (v.format.bits - 1)) (fun n => (n.natAbs : Int)) a) ∧
    elements (.vneg r o x) 0x67 one x regA regA
      (fun _ _ a _ _ => signed v (fun k => (k + 2 ^ (v.format.bits - 1)) % 2 ^ v.format.bits) (fun n => -n) a) ∧
    elements (.vand r o x) 0x68 plain2 x regB regA (fun _ _ a b _ => Lane.plain (a &&& b).toNat) ∧
    elements (.vor r o x) 0x69 plain2 x regB regA (fun _ _ a b _ => Lane.plain (a ||| b).toNat) ∧
    elements (.vxor r o x) 0x6A plain2 x regB regA (fun _ _ a b _ => Lane.plain (a ^^^ b).toNat) ∧
    elements (.vnot r o x) 0x6B plain1 x regA regA (fun _ _ a _ _ => Lane.plain (~~~a).toNat) ∧
    elements (.vshl r o x) 0x6C plain2 x regB regA (fun _ _ a b _ => Lane.plain (a <<< (b.toNat % 32)).toNat) ∧
    elements (.vshr r o x) 0x6D plain2 x regB regA (fun _ _ a b _ => Lane.plain (a >>> (b.toNat % 32)).toNat) ∧
    elements (.vsra r o x) 0x6E plain2 x regB regA (fun _ _ a b _ => Lane.plain (a.sshiftRight (b.toNat % 32)).toNat) ∧
    elements (.vmov r o x) 0x71 plain1 x regA regA (fun _ _ a _ _ => Lane.plain a.toNat) ∧
    -- conversion, from the format SRCF of FLAGS
    (let f := getBits e.flags 0 4
     elements (.vcvt r o e) 0x74 { fp := true, fmts := convFmts, sela := selLimit f, ok := convFmts.contains f,
                                   vecs := [o.a.toNat], names := [.vec o.d.toNat] } (some e) regA regA (fun late i a _ _ =>
         let src := (Fmt.ofCode f).getD .untyped
         rounded e (late i) (exact src (pick src.bits e.sela.toNat a)) [exact src (pick src.bits e.sela.toNat a)])) ∧
    -- special functions
    (∀ k ∈ [(Instr.vexp2 r o x, 0x90, SpecFn.exp2), (.vlog2 r o x, 0x91, .log2), (.vrcp r o x, 0x92, .rcp),
            (.vrsq r o x, 0x93, .rsq), (.vtanh r o x, 0x94, .tanh), (.vsigm r o x, 0x95, .sigm), (.vsin r o x, 0x96, .sin),
            (.vcos r o x, 0x97, .cos)],
      elements k.1 k.2.1 { fp := true, fmts := [1, 2, 3], sela := s.selOf x, unit := .sfu, lat := 24, vecs := [o.a.toNat],
                           names := [.vec o.d.toNat] } x regA regA (specialLane k.2.2 v)) ∧
    -- what a special function delivers where no lane is late: its special values, and elsewhere the correctly rounded
    -- value outside the fast interval, one of the encodings next to it inside
    (∀ (fn : SpecFn) (a b c : W32) (i : Nat), v.format ∈ [Fmt.f32, .bf16, .f16] →
      let k := pick v.format.bits v.sela.toNat a
      let out := (specialLane fn v (fun _ => false) i a b c).v
      (∀ y, fn.special (exact v.format k) = some y → out = round y v.format 0) ∧
      (fn.fast v.format k = false → out = fn.nearest (exact v.format k) v.format 0) ∧
      (fn.fast v.format k = true → out ∈ fn.near (exact v.format k) v.format))

/-- Instructions across lanes (R219 to R237). That late integer lanes of VQNT clamp is the model's choice (assumption
log 37). -/
def Obligations.VectorLines : Prop :=
  ∀ (r : Ring) (o : F3) (x : Option XV) (e : XV) (s : State) (vs : List Word) (l : Links),
    let v := s.cur.xv x
    let f := v.format
    let mask := s.cur.governs v
    let d := o.d.toNat
    let regA := s.cur.x.vec o.a.toNat
    let regB := s.cur.x.vec o.b.toNat
    let arith := [1, 2, 3, 10, 11]
    let writes := fun (i : Instr) (q : Issue) (vs : List Word) (wb : List Wb) => s.Goes q vs l → exec i s = s.writes q l wb
    -- compare, select, splat, index, transpose, pack, unpack
    writes (.vcmp r o x) (({ fmts := arith, sela := s.selOf x, selb := s.selOf x, vecs := [o.a.toNat, o.b.toNat],
                             names := [.pred d] } : VIssue).issue r 0x6F x s.cur) []
      [.pred d mask (bitsOf ((regA.zip regB).map fun (k : W32 × W32) => compareTest f (getBits v.flags 0 3)
        (pick f.bits v.sela.toNat k.1) (pick f.bits v.selb.toNat k.2)))] ∧
    writes (.vsel r o x) (({ vecs := [o.a.toNat, o.b.toNat], names := [.vec d] } : VIssue).issue r 0x70 x s.cur) []
      [.vec d (BitVec.allOnes 1024) (mixLanes mask regA regB)] ∧
    (let q := fun opc => ({ srcs := [o.srcA], names := [.vec d] } : VIssue).issue r opc x s.cur
     let k : W32 := (vs.headD 0).setWidth 32
     writes (.vsplat r o x) (q 0x72) vs [.vec d mask (List.replicate 1024 k)] ∧
     writes (.vidx r o x) (q 0x73) vs [.vec d mask (tab 1024 fun i =>
       k + BitVec.ofNat 32 (if getBits v.flags 0 2 = 0 then i % 64 else if getBits v.flags 0 2 = 1 then i / 64 else i))]) ∧
    writes (.vtrn r o x) (({ lat := 10, vecs := [o.a.toNat], names := [.vec d] } : VIssue).issue r 0x8A x s.cur) []
      [.vec d mask (transpose16 regA)] ∧
    (let w := codeBits e.code
     let at' := w * getBits e.flags 0 3
     writes (.vpack r o e) (({ fmts := convFmts, sela := selLimit e.code, ok := decide (getBits e.flags 0 3 < selLimit e.code),
                               vecs := [o.a.toNat, e.c.toNat], names := [.vec d] } : VIssue).issue r 0x75 (some e) s.cur) []
       [.vec d (s.cur.governs e) ((regA.zip (s.cur.x.vec e.c.toNat)).map fun (k : W32 × W32) =>
         (k.2 &&& ~~~(BitVec.ofNat 32 (2 ^ w - 1) <<< at')) ||| (BitVec.ofNat 32 (pick w e.sela.toNat k.1) <<< at'))]) ∧
    (let w := codeBits v.code
     writes (.vunpk r o x) (({ fmts := convFmts, sela := selLimit v.code,
                               ok := !flag v.flags 0 || [8, 9, 10, 11].contains v.code, vecs := [o.a.toNat], names := [.vec d] } :
         VIssue).issue r 0x76 x s.cur) []
       [.vec d mask (regA.map fun (k : W32) => if flag v.flags 0 then BitVec.ofInt 32 (toSigned w (pick w v.sela.toNat k))
         else BitVec.ofNat 32 (pick w v.sela.toNat k))]) ∧
    -- quantisation: each row's codes under its scale, and the scales
    (let q := ({ fmts := quantFmts, lat := 10, vecs := [o.a.toNat], names := [.vec d, .vec (d + 1)] } : VIssue).issue r 0x77 x
       s.cur
     let rows := (chunks 64 16 (regA.map fun e => exact .f32 e.toNat)).zipIdx
     let scales := rows.map fun (row : List Val × Nat) => quantScale f ((row.1.zipIdx.filter fun e =>
       mask.getLsbD (64 * row.2 + e.2) && !e.1.isNan).foldl (fun m e => if m.cmp e.1.abs = -1 then e.1.abs else m) .zero)
     let t := s.late f.isFp
     let ls := ((rows.zip scales).map fun p => p.1.1.zipIdx.map fun e =>
       if mask.getLsbD (64 * p.1.2 + e.2) then quantLane f v.rnd.toNat p.2 (t.1 (64 * p.1.2 + e.2)) e.1 else Lane.plain 0).flatten
     s.Goes q [] l → exec (.vqnt r o x) s = (t.2.counted f ls).writes q l [.vec d mask (ls.map fun k => BitVec.ofNat 32 k.v),
       .vec (d + 1) (BitVec.allOnes 1024) (scales.map fun k => List.replicate 64 (BitVec.ofNat 32 k)).flatten]) ∧
    (let q := ({ fmts := quantFmts, sela := selLimit v.code, selb := 4, lat := 10, vecs := [o.a.toNat, o.b.toNat],
                 names := [.vec d] } : VIssue).issue r 0x78 x s.cur
     let t := s.late true
     let ls := laneMap mask (fun i a b _ =>
       let m := exact f (pick f.bits v.sela.toNat a)
       let k := scaleValue (pick 8 v.selb.toNat b)
       fpLane .f32 (t.1 i) (Val.mul m k) (roundE (Val.mul m k) .f32 0) (m.isNan || k.isNan) (!m.isFin || !k.isFin)) regA regB regA
     s.Goes q [] l → exec (.vdqnt r o x) s =
       (t.2.counted .f32 ls).writes q l [.vec d mask (ls.map fun k => BitVec.ofNat 32 k.v)]) ∧
    -- turns and broadcasts of lines
    (∀ k ∈ [(Instr.vrotr r o x, 0x80, 6, true), (.vrotc r o x, 0x81, 8, false)],
      writes k.1 (({ lat := k.2.2.1, srcs := [o.srcB], vecs := [o.a.toNat], names := [.vec d] } : VIssue).issue r k.2.1 x s.cur) vs
        [.vec d mask (ofLines 0 k.2.2.2 ((toLines 0 k.2.2.2 regA).map (rotateLine (vs.headD 0).toNat)))]) ∧
    (∀ k ∈ [(Instr.vbcr r o x, 0x82, 6, true, 64), (.vbcc r o x, 0x83, 8, false, 16)],
      let q := ({ lat := k.2.2.1, srcs := [o.srcB], vecs := [o.a.toNat], names := [.vec d] } : VIssue).issue r k.2.1 x s.cur
      ((vs.headD 0).toNat < k.2.2.2.2 → writes k.1 q vs [.vec d mask (ofLines 0 k.2.2.2.1
        ((toLines 0 k.2.2.2.1 regA).map fun line => List.replicate line.length (line.getD (vs.headD 0).toNat 0)))]) ∧
      (k.2.2.2.2 ≤ (vs.headD 0).toNat → s.Goes q vs l → exec k.1 s = .next (s.takeTrap .x tRANGE [vs.headD 0]))) ∧
    -- reductions and scans along an axis
    (let op := getBits v.flags 0 3
     let axis := fun (i : Instr) (opc lat : Nat) (byRow : Bool) (g : List Nat → List (Rounded × List Nat)) =>
       let q := ({ lat, fmts := if 3 ≤ op then anyFmts else arith, sela := if 3 ≤ op then 1 else s.selOf x, vecs := [o.a.toNat],
                   names := [.vec d] } : VIssue).issue r opc x s.cur
       let t := s.late (decide (op < 3) && f.isFp)
       let ls := (ofLines (⟨0, false, false⟩, []) byRow ((s.axisLines v byRow op o.a.toNat).map g)).zipIdx.map fun e =>
         axisLane f op (t.1 e.2) e.1.1 e.1.2
       s.Goes q [] l → exec i s = (t.2.counted (if 3 ≤ op then .s32 else f) ls).writes q l
         [.vec d (BitVec.allOnes 1024) (ls.map fun k => BitVec.ofNat 32 k.v)]
     let all := fun (k : List Nat) => List.replicate k.length (reduceLine f op v.rnd.toNat k, k)
     axis (.vredr r o x) 0x84 10 true all ∧ axis (.vredc r o x) 0x85 8 false all ∧
     axis (.vscanr r o x) 0x88 12 true (scanLine f op v.rnd.toNat) ∧
     axis (.vscanc r o x) 0x89 9 false (scanLine f op v.rnd.toNat)) ∧
    -- the greatest element of a line and its place
    (∀ k ∈ [(Instr.vargr r o x, 0x86, 10, true), (.vargc r o x, 0x87, 8, false)],
      let q := ({ lat := k.2.2.1, fmts := arith, sela := s.selOf x, vecs := [o.a.toNat], names := [.vec d, .vec (d + 1)] } :
        VIssue).issue r k.2.1 x s.cur
      let t := s.late f.isFp
      let best := ofLines (0, 0) k.2.2.2 ((toLines (0, false) k.2.2.2 (regA.zipIdx.map fun e =>
        (pick f.bits v.sela.toNat e.1, mask.getLsbD e.2))).map fun line => List.replicate line.length
          (match greatest f line with
           | some b => (quieten f b.1, b.2)
           | none => (identityOf f 1, 2 ^ 32 - 1)))
      let ls := best.zipIdx.map fun e => chosenLane f (t.1 e.2) e.1.1 true
      s.Goes q [] l → exec k.1 s = (t.2.counted f ls).writes q l
        [.vec d (BitVec.allOnes 1024) (ls.map fun k => BitVec.ofNat 32 k.v),
         .vec (d + 1) (BitVec.allOnes 1024) (best.map fun e => BitVec.ofNat 32 e.2)])

/-- Vector accesses (R240 to R243), predicates (R225 to R230), moves and VFMT (R244, R245). -/
def Obligations.VectorAccessesAndPredicates : Prop :=
  ∀ (r : Ring) (o : F3) (x : Option XV) (e : XV) (s u : State) (vs : List Word) (l : Links) (t : Tile)
      (bs : List (List Byte)) (y : Nat → Xlate),
    let v := s.cur.xv x
    let mask := s.cur.governs v
    let d := o.d.toNat
    let regA := s.cur.x.vec o.a.toNat
    let regB := s.cur.x.vec o.b.toNat
    let regD := s.cur.x.vec d
    let predA := s.cur.x.pred o.a.toNat
    let predB := s.cur.x.pred o.b.toNat
    let a := vs.headD 0
    let b := vs.getD 1 0
    -- VLD and VST
    let side := getBits v.flags 0 2
    let row := b.toNat % 65536
    let off := b.toNat / 65536
    let ql := ({ srcs := o.srcs, names := [.vec d], lat := if s.nearTile o.a then 40 else 12 } : VIssue).issue r 0xA0 x s.cur
    let qs := ({ srcs := o.srcs, vecs := [d], fmts := tileFmts, lat := 1 } : VIssue).issue r 0xA1 x s.cur
    let sound := b.toNat < 2 ^ 32 ∧ (side = 0 → off % 4 = 0) ∧ (side ≠ 0 → off = 0)
    let element := fun (i : Nat) =>
      if side = 1 then (if t.rows ≤ row + i / 64 then padding else t.sidecar (row + i / 64))
      else if side = 2 then (if t.rows ≤ row + i % 64 then padding else t.sidecar (row + i % 64))
      else if t.rows ≤ row + i / 64 ∨ t.rb < off + 4 * (i % 64) + 4 then 0
      else BitVec.ofNat 32 (leNat (t.front.bytes ((row + i / 64) * t.rb + off + 4 * (i % 64)) 4))
    let place := fun (i : Nat) => (row + i / 64) * t.rb + off + 4 * (i % 64)
    let inside := ∀ i ∈ enabled mask, row + i / 64 < t.rows ∧ off + 4 * (i % 64) + 4 ≤ t.rb
    let stored := t.setFront ((enabled mask).foldl
      (fun (h : Half) i => h.put (place i) (leBytes 4 (regD.getD i 0).toNat)) t.front)
    -- where whole words of 64 bits are written the errors there are cleared
    let words := ((enabled mask).filter fun i =>
      place i % 8 == 0 && i % 64 != 63 && (enabled mask).contains (i + 1)).map place
    let healed := if s.mem.poison = [] then s else words.foldl (fun s o => s.heal t.store (s.tileSpot t t.half o) 8) s
    let putTile := fun (v : Tile) => healed.setCur fun c => c.setTile a.toNat v
    let sound' := (rowsSound t ((tab 16 (row + ·)).filter fun i => decide (i < t.rows)) off 256 : Act Unit) s
    -- VLDG and VSTG
    let size := 2 ^ getBits v.flags 2 2
    let qlg := ({ srcs := [o.srcA], vecs := [o.b.toNat], names := [.vec d], lat := 40, ok := !s.cur.x.timed } : VIssue).issue r
      0xA2 x s.cur
    let qsg := ({ srcs := [o.srcA], vecs := [d, o.b.toNat], lat := 1, ok := !s.cur.x.timed } : VIssue).issue r 0xA3 x s.cur
    let at' := fun (i : Nat) => a + ((regB.getD i 0).signExtend 64 <<< getBits v.flags 0 2)
    let es := (enabled mask).map fun i => (i, at' i)
    let aligned := ∀ i ∈ enabled mask, (at' i).toNat % size = 0
    let reachable := ∀ i ∈ enabled mask, canonical (at' i) = true
    let value := fun (c : List Byte) =>
      if flag v.flags 4 then BitVec.ofInt 32 (toSigned (8 * size) (leNat c)) else BitVec.ofNat 32 (leNat c)
    let loaded := (es.zip bs).foldl (fun (m : SMap W32) e => SMap.set m e.1.1 (value e.2)) []
    -- predicates and moves
    let two := fun (opc : Nat) => predIssue r opc (lenOf x) 2 .alu [] [] [.pred o.a.toNat, .pred o.b.toNat, .pred d]
    let num := fun (opc : Nat) => predIssue r opc (lenOf x) 4 .alu [] [] [.pred o.a.toNat, .reg o.d]
    let qlen := predIssue r 0xB6 (lenOf x) 2 .alu o.srcs [] [.pred d]
    let qseg := predIssue r 0xB7 (lenOf x) 6 .dp [] [o.a.toNat, o.b.toNat] [.pred d]
    let qto := predIssue r 0xB8 (lenOf x) 6 .dp [o.srcB] [o.a.toNat] [.reg o.d]
    let qof := predIssue r 0xB9 (lenOf x) 6 .dp o.srcs [] [.vec d]
    let qf := predIssue r 0xBA 1 1 .alu [o.srcA] [] []
    let qfi := predIssue r 0xBA 2 1 .alu [] [] []
    let bit0 := match x with | some v => flag v.flags 0 | none => false
    let vfmt := fun (n : Nat) => s.setCur fun c => { c with lates := c.lates ++ [(.x, .sys .x 6 (w64 n))] }
    let all : BitVec 1024 := BitVec.allOnes 1024
    (s.Goes ql vs l → a.toNat < 128 → s.cur.tile? a.toNat = some t → sound →
      s.rowsBusy a.toNat row (row + if side = 2 then 64 else 16) = false →
      let gives := fun (u : State) => exec (.vld r o x) s =
        u.writes ql l [.vec d mask (tab 1024 fun i => if mask.getLsbD i then element i else 0)]
      (s.mem.poison = [] → s.mem.soft = [] → gives s) ∧ (side ≠ 0 → gives s) ∧ (side = 0 → sound' = .ok () u → gives u) ∧
      (∀ p h va, side = 0 → sound' = .stop (.uncorr p va h) → exec (.vld r o x) s = .next (h.uncorr p va))) ∧
    (s.Goes ql vs l → 128 ≤ a.toNat ∨ s.cur.tile? a.toNat = none →
      exec (.vld r o x) s = .next (s.takeTrap .x tHANDLE [a])) ∧
    (s.Goes qs vs l → a.toNat < 128 → s.cur.tile? a.toNat = some t → t.ro = false → b.toNat < 2 ^ 32 → off % 4 = 0 →
      s.rowsBusy a.toNat row (row + 16) = false → inside →
      (v.code = 0 → exec (.vst r o x) s = (putTile stored).ends qs l) ∧
      (∀ tag settles, v.code ≠ 0 → t.retag v.code false 0 false = some (tag, settles) → exec (.vst r o x) s =
        (putTile (stored.typed tag settles (plainDesc v.code false) ((enabled mask).map fun i => place i / 64))).ends qs l) ∧
      (v.code ≠ 0 → t.retag v.code false 0 false = none → exec (.vst r o x) s = .next (s.takeTrap .x tTAGCONFLICT []))) ∧
    (s.Goes qs vs l → a.toNat < 128 → s.cur.tile? a.toNat = some t → t.ro = false → b.toNat < 2 ^ 32 → off % 4 = 0 →
      s.rowsBusy a.toNat row (row + 16) = false → ¬ inside → exec (.vst r o x) s = .next (s.takeTrap .x tRANGE [b])) ∧
    -- with every enabled element on a page of device or host memory that is mapped already
    (s.Goes qlg vs l → aligned → reachable →
      (∀ i ∈ enabled mask, s.ownXlate (at' i) .read = .ok (y i) s ∧ (y i).home ≠ 2 ∧
        s.mem.poisoned (y i).home (y i).pa size = false) →
      ∃ w : State, exec (.vldg r o x) s = w.writes qlg l [.vec d mask (tab 1024 fun i =>
        if mask.getLsbD i then value (s.seen (y i).home (y i).pa size) else 0)]) ∧
    (s.Goes qsg vs l → aligned → reachable → s.cur.ph.rep = true →
      s.cur.ph.buf.length + (enabled mask).length ≤ Config.bufEntries →
      (∀ i ∈ enabled mask, s.ownXlate (at' i) .write = .ok (y i) s) →
      ∃ w : State, exec (.vstg r o x) s = w.ends qsg l ∧ w.mem = s.mem) ∧
    -- with any way to memory that serves them
    (s.Goes qlg vs l → aligned → reachable → readPieces (es.map fun e => (e.2, size)) true s = .ok bs u →
      exec (.vldg r o x) s = u.writes qlg l [.vec d mask (tab 1024 fun i => SMap.getD loaded i 0)]) ∧
    (s.Goes qsg vs l → aligned → reachable →
      storeAll (es.map fun e => ⟨e.2, leBytes size (regD.getD e.1 0).toNat, none⟩) 0 s = .ok () u →
      exec (.vstg r o x) s = u.ends qsg l) ∧
    (s.Goes (two 0xB0) [] l → exec (.pand r o x) s = s.writes (two 0xB0) l [.pred d all (predA &&& predB)]) ∧
    (s.Goes (two 0xB1) [] l → exec (.por r o x) s = s.writes (two 0xB1) l [.pred d all (predA ||| predB)]) ∧
    (s.Goes (two 0xB2) [] l → exec (.pxor r o x) s = s.writes (two 0xB2) l [.pred d all (predA ^^^ predB)]) ∧
    (s.Goes (two 0xB3) [] l → exec (.pnot r o x) s = s.writes (two 0xB3) l [.pred d all (~~~predA)]) ∧
    (s.Goes (num 0xB4) [] l → exec (.pcnt r o x) s = s.gives (num 0xB4) l o.d (w64 (enabled predA).length)) ∧
    (s.Goes (num 0xB5) [] l → exec (.pfirst r o x) s = s.gives (num 0xB5) l o.d (w64 ((enabled predA).headD 1024))) ∧
    (s.Goes qlen vs l → exec (.plen r o x) s = s.writes qlen l
      [.pred d all (bitsOf (tab 1024 fun i => decide (i / 64 < a.toNat ∧ i % 64 < b.toNat)))]) ∧
    (s.Goes qseg [] l → exec (.pseg r o x) s = s.writes qseg l
      [.pred d all (bitsOf ((regA.zip regB).map fun (k : W32 × W32) => segMatch bit0 k.1 k.2))]) ∧
    (s.Goes qto vs l → (a.toNat < 1024 → exec (.vtox r o x) s = s.gives qto l o.d
        (if bit0 then (regA.getD a.toNat 0).signExtend 64 else (regA.getD a.toNat 0).setWidth 64)) ∧
      (1024 ≤ a.toNat → exec (.vtox r o x) s = .next (s.takeTrap .x tRANGE [a]))) ∧
    (s.Goes qof vs l → (b.toNat < 1024 → exec (.xtov r o x) s = s.writes qof l
        [.vec d ((1 : BitVec 1024) <<< b.toNat) (List.replicate 1024 (a.setWidth 32))]) ∧
      (1024 ≤ b.toNat → exec (.xtov r o x) s = .next (s.takeTrap .x tRANGE [b]))) ∧
    (s.Goes qf vs l → (a.toNat < 128 → exec (.vfmt r o) s = (vfmt a.toNat).ends qf l) ∧
      (128 ≤ a.toNat → exec (.vfmt r o) s = .next (s.takeTrap .x tRANGE []))) ∧
    (s.Goes qfi [] l → exec (.vfmtImm r o e) s = (vfmt (e.fmt.toNat + 16 * e.rnd.toNat)).ends qfi l)

/-! ### Operand slots, accumulator tiles and nests -/

/-- Operand slots (R246 to R249) and accumulator tiles (R250 to R252). That SLREL waits for all its slots is the
model's choice (assumption log 36). -/
def Obligations.SlotsAndAccumulators : Prop :=
  ∀ (r : Ring) (o : F3) (x : Option MC) (s : State) (vs : List Word) (l : Links) (t : Tile) (c : AccTile) (key : Nat),
    let core := s.curCore
    let slots := s.slots core
    let a := vs.headD 0
    let b := vs.getD 1 0
    -- slots
    let qc := r.issue .m 0x60 1 [o.a] [.reg o.d] 2
    let qr := r.issue .m 0x61 1 [o.a, o.b] [] 1
    let qq := r.issue .m 0x62 1 [o.a] [.reg o.d] 1
    let named := tabFrom id a.toNat (min b.toNat 64)
    let held := named.filter fun i => (s.slot core i).heldBy s.cur.key
    let mine := ∀ i ∈ named, i ∈ held ∨ i + 64 ∈ s.cur.ph.relSlots
    let still := ∀ i ∈ held, (s.slot core i).st = .claimed ∨ (s.slot core i).st = .full
    let freed := (held.foldl (fun (s : State) i => s.freeSlot i) s).setPhase fun p =>
      { p with relSlots := p.relSlots ++ held.filter fun i => !p.relSlots.contains i }
    (s.Goes qc vs l →
      (a.toNat = 0 ∨ 64 < a.toNat → exec (.slclaim r o) s = .next (s.takeTrap .m tRANGE [])) ∧
      (1 ≤ a.toNat → a.toNat ≤ 64 → s.cur.nslots < s.heldSlots.length + a.toNat →
        exec (.slclaim r o) s = .next (s.takeTrap .m tSLOT [])) ∧
      (1 ≤ a.toNat → a.toNat ≤ 64 → s.heldSlots.length + a.toNat ≤ s.cur.nslots →
        (∀ k, freeRun slots a.toNat = some k → exec (.slclaim r o) s = (s.claim k a.toNat).gives qc l o.d (w64 k)) ∧
        (freeRun slots a.toNat = none → flag o.s 0 = true → exec (.slclaim r o) s = s.gives qc l o.d Word.ones) ∧
        (freeRun slots a.toNat = none → flag o.s 0 = false →
          exec (.slclaim r o) s = .next ((s.postOnce .slclaimGrant s.cur.key).stall .m 0)))) ∧
    (s.Goes qr vs l →
      (64 < a.toNat + b.toNat → exec (.slrel r o) s = .next (s.takeTrap .m tRANGE [])) ∧
      (a.toNat + b.toNat ≤ 64 → ¬ mine → exec (.slrel r o) s = .next (s.takeTrap .m tSLOT [])) ∧
      (a.toNat + b.toNat ≤ 64 → mine → still → exec (.slrel r o) s = freed.ends qr l) ∧
      (a.toNat + b.toNat ≤ 64 → mine → ¬ still → exec (.slrel r o) s = .next (s.stall .m 0))) ∧
    (s.Goes qq vs l →
      (a.toNat < 64 → exec (.slqry r o) s = s.gives qq l o.d (w64 ((s.slot core a.toNat).st.code +
        8 * b2n ((s.slot core a.toNat).heldBy s.cur.key) + 16 * (s.slot core a.toNat).tag.toNat))) ∧
      (a.toNat = 64 → exec (.slqry r o) s = s.gives qq l o.d (w64 (slots.filter fun k => k.st == .free).length)) ∧
      (64 < a.toNat → exec (.slqry r o) s = .next (s.takeTrap .m tRANGE []))) ∧
    -- a waiting claim, when the slots are there
    (∀ u w n ls, s.Front key u → u.cur.st = .running ∨ u.cur.st = .handler → (u.cur.engine .m).moving = none →
      w = u.cur.wordsAt (u.cur.engine .m).pc → decode w.1 w.2 = .ok (.slclaim r o) → u.Goes qc vs ls → 1 ≤ a.toNat →
      a.toNat ≤ 64 → u.heldSlots.length + a.toNat ≤ u.cur.nslots → freeRun (u.slots u.curCore) a.toNat = some n →
      exec (.slclaimGrant key) s = s.backTo ((u.claim n a.toNat).finish qc ls (.of [.reg o.d (w64 n)]))) ∧
    -- accumulator tiles; the tile's number stands in a register where the long form does not give it
    (let named := match x with | some e => if e.ic then some (e.cn.setWidth 64) else none | none => none
     let n : Word := named.getD a
     let rest := if named.isSome then vs else vs.drop 1
     let n' : Word := named.getD (vs.getD 2 0)
     let side := match x with | some e => e.side | none => false
     let d := o.d.toNat
     let nth := fun (f : BitVec 5) => if named.isSome then [] else [f]
     let qz := r.issue .m 0x63 (lenOf x) (nth o.d) [] 8
     let ql := r.issue .m 0x64 (lenOf x) ([o.a, o.b] ++ nth o.d) [] (if s.accldNear o x then 72 else 40)
     let qd := r.issue .m 0x6D (lenOf x) (nth o.a) (if side then [.vec d] else tab 4 fun q => .vec (d + q)) 36
     let qg := r.issue .m 0x6E (lenOf x) (nth o.a ++ [o.b]) [.reg o.d] 2
     let qp := r.issue .m 0x6F (lenOf x) ([o.a, o.b] ++ nth o.d) [] 2
     let idle := fun (n : Word) => ∀ n' ∈ s.cur.nests, n'.cfg.holds n.toNat = false
     let bad := fun (n : Word) (off len : Nat) => s.mem.spoilt .accumulator (s.accSpot n.toNat off) len = true
     let read := fun (n : Word) (off len : Nat) => s.corrected (16 + Store.accumulator.code) (s.accSpot n.toNat off) len
     let put := fun (n : Word) (off len : Nat) (c : AccTile) =>
       (s.heal .accumulator (s.accSpot n.toNat off) len).setCur fun t => t.setAcc n.toNat c
     let five := [(Instr.accz r o x, qz, n), (.accld r o x, ql, n'), (.ndrain r o x, qd, n), (.smxrd r o x, qg, n),
                  (.smxset r o x, qp, n')]
     let all : BitVec 1024 := BitVec.allOnes 1024
     (∀ e ∈ five, s.Goes e.2.1 vs l → s.cur.acc[e.2.2.toNat]? = none → exec e.1 s = .next (s.takeTrap .m tHANDLE [e.2.2])) ∧
     (∀ e ∈ five, s.Goes e.2.1 vs l → s.cur.acc[e.2.2.toNat]? = some c → ¬ idle e.2.2 → exec e.1 s = .next (s.stall .m 0)) ∧
     (s.cur.acc[n.toNat]? = some c → idle n →
       (s.Goes qz vs l → exec (.accz r o x) s = (put n 0 16896 ⟨List.replicate 4096 0, List.replicate 64 0xFF800000#32,
         List.replicate 64 0, true⟩).ends qz l) ∧
       (s.Goes qd vs l → side = true → ¬ bad n 16384 512 → exec (.ndrain r o x) s =
         (read n 16384 512).writes qd l [.vec d all (c.m ++ c.l ++ List.replicate 896 0)]) ∧
       (s.Goes qd vs l → side = false → ¬ bad n 0 16384 → exec (.ndrain r o x) s =
         (read n 0 16384).writes qd l (tab 4 fun q => .vec (d + q) all ((c.c.drop (1024 * q)).take 1024))) ∧
       (s.Goes qg vs l →
         let i := rest.headD 0
         (i.toNat < 64 → ¬ bad n (16384 + 8 * i.toNat) 8 → exec (.smxrd r o x) s =
           (read n (16384 + 8 * i.toNat) 8).gives qg l o.d (c.l.getD i.toNat 0 ++ c.m.getD i.toNat 0)) ∧
         (i.toNat < 64 → bad n (16384 + 8 * i.toNat) 8 → ∃ va, exec (.smxrd r o x) s = .next (s.uncorr .accumulator va)) ∧
         (64 ≤ i.toNat → exec (.smxrd r o x) s = .next (s.takeTrap .m tRANGE [])))) ∧
     (s.cur.acc[n'.toNat]? = some c → idle n' →
       (s.Goes ql vs l → a.toNat < 128 → s.cur.tile? a.toNat = some t → tagFmt t.tag ≤ 1 →
         s.rowsBusy a.toNat b.toNat (b.toNat + 64) = false → s.mem.poison = [] → s.mem.soft = [] →
         exec (.accld r o x) s = (put n' 0 16384 { c with
           c := tab 4096 fun e => t.vldElem 0 b.toNat 0 (e / 64) (e % 64), pi := true }).ends ql l) ∧
       (s.Goes ql vs l → a.toNat < 128 → s.cur.tile? a.toNat = some t → 1 < tagFmt t.tag →
         exec (.accld r o x) s = .next (s.takeTrap .m tTAGCONFLICT [])) ∧
       (s.Goes qp vs l → (b.toNat < 64 → exec (.smxset r o x) s = (put n' (16384 + 8 * b.toNat) 8 { c with
           m := upd c.m b.toNat fun _ => a.setWidth 32, l := upd c.l b.toNat fun _ => (a >>> 32).setWidth 32 }).ends qp l) ∧
         (64 ≤ b.toNat → exec (.smxset r o x) s = .next (s.takeTrap .m tRANGE [])))))

/-- Nests (R253 to R265). The times at which slots become free and the reason codes of stops that R259 leaves open are
the model's choices (assumption log 36). -/
def Obligations.Nests : Prop :=
  ∀ (r : Ring) (o : F3) (y : NL) (z : NO) (x : Option XM) (s u w : State) (vs : List Word) (l : Links) (b : List Byte)
      (n m : Nest) (key : Nat) (c' : AccTile) (res : StepOut),
    let a := vs.headD 0
    let shadow := fun (f : NestCfg → NestCfg) => s.setCur fun t => { t with shadow := f t.shadow }
    -- the shadow configuration
    (let q := r.issue .m 0x65 2 (if y.kind then [] else [o.a]) (if y.kind then [.sh y.sh.toNat] else []) 1
     let count := if y.kind then (s.cur.ext y.sh.toNat y.ext.toNat).toNat else a.toNat
     s.Goes q vs l → (count < 2 ^ 32 → exec (.nlvl r o y) s = (shadow fun c =>
         { c with lv := upd c.lv o.d.toNat fun _ => ⟨count, y.sa.toInt, y.sb.toInt, y.sc.toInt, y.k⟩ }).ends q l) ∧
       (2 ^ 32 ≤ count → exec (.nlvl r o y) s = .next (s.takeTrap .m tRANGE []))) ∧
    (let q := r.issue .m 0x66 2 [] [] 1
     (s.Goes q [] l → z.c0.toNat < 48 → z.sx.toNat < 48 → exec (.nops r o z) s = (shadow fun c =>
         { c with a0 := z.a0.toNat, b0 := z.b0.toNat, c0 := z.c0.toNat, v0 := z.v0.toNat, sx := z.sx.toNat
                  acc := flag o.d 0 }).ends q l) ∧
       -- what needs no operand's value is checked before tokens and sources are waited for
       (48 ≤ z.c0.toNat → exec (.nops r o z) s = .next (s.takeTrap .m tHANDLE [z.c0.setWidth 64])) ∧
       (z.c0.toNat < 48 → 48 ≤ z.sx.toNat → exec (.nops r o z) s = .next (s.takeTrap .m tHANDLE [z.sx.setWidth 64]))) ∧
    (let q := r.issue .m 0x68 1 [] [] 1
     s.Goes q [] l → exec (.nmode r o) s = (shadow fun c => { c with mode := o.d.toNat }).ends q l) ∧
    (let q := r.issue .m 0x69 1 [] [] 1
     s.Goes q [] l → exec (.nseg r o) s = (shadow fun c => { c with seg := o.d.toNat }).ends q l) ∧
    (let q := r.issue .m 0x6A 1 [o.a] [] 1
     s.Goes q vs l → (a.toNat < 2 ^ 32 → exec (.nscl r o) s = (shadow fun c =>
         if o.d = 0 then { c with gscale := a.setWidth 32 } else { c with smscale := a.setWidth 32 }).ends q l) ∧
       (2 ^ 32 ≤ a.toNat → exec (.nscl r o) s = .next (s.takeTrap .m tRANGE []))) ∧
    (let q := r.issue .m 0x67 (lenOf x) (memSrcs o.a o.b x) [] 40
     let va := memAddr x vs
     s.Goes q vs l → (va.toNat % 64 = 0 → canonical va = true → s.Loads va 64 false b u →
         ((Epi.ofBytes b).ok = true → exec (.nepi r o x) s =
           (u.setCur fun t => { t with shadow := { t.shadow with epi := .ofBytes b } }).ends q l) ∧
         ((Epi.ofBytes b).ok = false → exec (.nepi r o x) s = .next (s.takeTrap .m tNEST [7]))) ∧
       (va.toNat % 64 ≠ 0 → exec (.nepi r o x) s = .next (s.takeTrap .m tALIGN []))) ∧
    (let q := r.issue .m 0x67 1 [] [] 1
     s.Goes q [] l → exec (.nepiDef r o) s = (shadow fun c => { c with epi := .default }).ends q l) ∧
    -- start, wait, query
    (let q := { r.issue .m 0x6B 1 [] [] 1 with async := true }
     let c := s.cur.shadow
     let started := fun (w : State) =>
       let new : Nest := ⟨c, 0, w.clock, [], w.clock, r.sp, r.sn⟩
       if w.cur.nest.isSome then w.setCur fun t => { t with pend := some new }
       else (w.setCur fun t => { t with nest := some new }).post .nestStep w.cur.key
     let nacc := s.cur.acc.length
     -- the numbers that the nest's steps name lie in range, and the strand holds its slots
     let ranges := inRange (indexRange c.a0 NestLevel.sa c.lv) 64 = true ∧ inRange (indexRange c.b0 NestLevel.sb c.lv) 64 = true ∧
       inRange (indexRange c.c0 NestLevel.sc c.lv) nacc = true ∧
       (c.mode = 1 → inRange (indexRange c.v0 NestLevel.sb c.lv) 64 = true ∧ c.sx < nacc ∧
         (∀ d ∈ levelOffsets NestLevel.sc false c.lv, (c.c0 : Int) + d ≠ c.sx) ∧
         ∃ n d, f32v c.smscale = .fin false n d ∧ n ≠ 0)
     let holds := ∀ i ∈ c.slotsNamed, (s.slot s.curCore i).heldBy s.cur.key = true
     -- and so do the rows of its output
     let dests := c.epi.kind ≠ 2 ∧
       (c.epi.kind = 1 → ∀ d ∈ levelOffsets NestLevel.sc true c.lv,
         let n := ((c.epi.dest.toNat % 64 : Nat) : Int) + d * c.epi.dstep.toInt
         0 ≤ n ∧ n < nacc) ∧
       (c.epi.kind = 3 → c.epi.dest.toNat % max 1 (codeBits c.epi.ofmt / 8) = 0 ∧ c.epi.rstr.toNat % c.epi.rowOut = 0)
     s.Goes q [] l → (s.cur.pend.isSome = true → exec (.ngo r) s = .next (s.stall .m 0)) ∧
       (s.cur.pend = none → c.total = 0 →
         exec (.ngo r) s = (s.starting .m 0x6B r (.fill 0 0 0 0 false 0) [] none).ends q l) ∧
       (s.cur.pend = none → c.total ≠ 0 → ranges → holds → dests → exec (.ngo r) s = (started s).ends q l) ∧
       (s.cur.pend = none → c.total ≠ 0 → ngoSlots c s = .ok () u → ngoDest c u = .ok () w →
         exec (.ngo r) s = (started w).ends q l)) ∧
    (let q := r.issue .m 0x6C 1 [] [] 1
     s.Goes q [] l → (s.cur.nest = none → exec (.nwait r) s = s.ends q l) ∧
       (s.cur.nest.isSome = true → exec (.nwait r) s = .next (s.stall .m 0))) ∧
    (let q := r.issue .m 0x70 1 [] [.reg o.d] 1
     s.Goes q [] l → exec (.nqry r o) s = s.gives q l o.d (w64 (
       if o.a.toNat = 0 then b2n s.cur.nest.isSome + 2 * b2n s.cur.pend.isSome
       else if o.a.toNat = 1 then (s.cur.nest.map fun n => if s.clock < n.ready then n.done - 1 else n.done).getD 0
       else (s.cur.nest.map fun n => n.cfg.total).getD 0))) ∧
    -- one step of the array
    (let t := u.slotsRead
     let st := n.cfg.stepAt n.done
     let slots := n.cfg.stepSlots st
     let keep := fun (n : Nest) (s : State) => s.setCur fun t => { t with nest := some n }
     s.Front key u → u.cur.nest = some n → u.cur.ph.st ≠ .cancelled → u.cur.st ≠ .saved → u.throttled 0 u.curCore = false →
       n.ready ≤ u.clock → n.done < n.cfg.total →
       ((∀ i ∈ slots, (t.slot t.curCore i).heldBy key = true ∧ (t.slot t.curCore i).st = .full) →
         let done := fun (w : State) => exec (.nestStep key) s = s.backTo ((keep
           { n with done := n.done + 1, ready := u.clock + n.cfg.pace st n.done, since := [] } (slots.foldl (fun (s : State) i =>
             s.setSlot s.curCore i fun k => { k with st := .busy }) (w.unhold .m (some 0)))).postOnce .nestStep key)
         -- a plain or sparse step that is not the last of its tile
         (n.cfg.mode ≠ 1 → st.last = false → t.cur.acc[st.c]? = some c' → t.mem.poison = [] → t.mem.soft = [] →
           (∀ i ∈ slots, (t.slot t.curCore i).descsOk = true) →
           plainStep n.cfg st (t.slot t.curCore st.a) (t.slot t.curCore st.b) c' = .ok res → res.unrep = false →
           done (((t.setCur fun k => k.setAcc st.c res.c).fpEvents 0 res.ev).fpEvents 0 [])) ∧
         -- any step whose operands can be used and whose output has a place
         (stepAct n t = .ok none w → done w) ∧
         (∀ why, stepAct n t = .ok (some why) w →
           exec (.nestStep key) s = s.backTo (w.nestStop tNEST (nestArgs why n)))) ∧
       ((∃ i ∈ slots, (t.slot t.curCore i).heldBy key = false) →
         exec (.nestStep key) s = s.backTo (t.nestStop tNEST (nestArgs 4 n))) ∧
       -- a step waits for its slots, and how long it has waited for each of them is kept
       ((∀ i ∈ slots, (t.slot t.curCore i).heldBy key = true) → (∃ i ∈ slots, (t.slot t.curCore i).st ≠ .full) →
         let late := slots.filter fun i => (t.slot t.curCore i).st != .full
         let since : SMap Nat := late.foldl (fun m i => SMap.set m i (SMap.getD n.since i t.clock)) []
         exec (.nestStep key) s = s.backTo ((keep { n with since } t).postOnce
           (if t.slotLimit since then .nestSlotWaitLimit else .nestStep) key))) ∧
    -- its end, and the wait for a slot that lasts too long
    (s.Front key u → u.cur.nest = some n → n.cfg.total ≤ n.done → n.ready ≤ u.clock →
      let t := (u.slotsRead.emitCore .m 0x007 (BitVec.ofNat 32 n.done) 0).starting .m 0x6B
        { Ring.quiet with sp := n.sp, sn := n.sn } (.fill 0 0 0 0 false 0) [] none
      (t.cur.pend = none →
        exec (.nestComplete key) s = s.backTo (t.setCur fun c => { c with nest := none })) ∧
      (t.cur.pend = some m → exec (.nestComplete key) s = s.backTo ((t.setCur fun c =>
        { c with nest := some { m with ready := t.clock }, pend := none }).postOnce .nestStep key))) ∧
    (s.Front key u → u.cur.nest = some n →
      let waited := u.cur.sys.stl ≠ 0 ∧ ∃ p ∈ n.since, (u.slot u.curCore p.1).st ≠ .full ∧ u.cur.sys.stl.toNat < u.clock - p.2
      (waited → exec (.nestSlotWaitLimit key) s = s.backTo (u.nestStop tNEST (nestArgs 5 n))) ∧
      (¬ waited → exec (.nestSlotWaitLimit key) s = s.backTo (u.postOnce .nestStep key)))

/-! ### Host and firmware -/

/-- Host writes (R323, R334, R347, R355, R359, R388 to R390, R396, R397, R427, R445). Reserved bits masked, ignored
writes counted and bytes past device memory dropped are the model's choices where the rules leave it open (assumption
log 28). -/
def Obligations.HostRegisterWrites : Prop :=
  ∀ (fn off n : Nat) (v : Word) (rqid : BitVec 32) (host : Bool) (pa : Nat) (data : List Byte)
      (s : State) (q : Queue) (m : Stream) (req : PageReq) (k : Sink),
    let r := s.fnRegs fn
    let sel := r.sel.toNat
    let tail : BitVec 32 := v.setWidth 32
    let inspected := getBits s.ctl.inspa 60 4
    let place := getBits s.ctl.inspa 0 52
    let key := 2 * getBits s.ctl.inspa 52 8
    let ctl := fun (c : Ctl) => { s with ctl := c }
    let shows := fun (w : Word) => { s with free := s.free + 1, ctl := { s.ctl with readv := w } }
    -- doorbells
    -- of two kicks in one tick the later one stands, both judged by TAIL before the first
    (s.queue? (queueKey fn (getBits v 32 20)) = some q →
      let old := match q.kicked with | some k => if k.1 = s.clock then k.2 else q.tail | none => q.tail
      ((tail - q.head).toNat ≤ q.n → (tail - old).toNat ≤ q.n →
        exec (.qkick fn v) s = .next (s.kickQueue { q with kicked := some (s.clock, old) } tail)) ∧
      (q.n < (tail - q.head).toNat ∨ q.n < (tail - old).toNat →
        exec (.qkick fn v) s = .next (s.postError q.ctx tail.toNat 0x101 0 (queueId q.key)))) ∧
    (s.queue? (queueKey fn (getBits v 32 20)) = none → exec (.qkick fn v) s = .next s.ignored) ∧
    (q.st ∈ [QSt.ready, .parked] → s.kickQueue q tail = s.setQueue { q with tail := tail }) ∧
    (q.st = .parse → s.kickQueue q tail =
      s.setQueue (if tail = q.head then { q with tail := tail, st := .idle, reads := 0 } else { q with tail := tail })) ∧
    (q.st = .dormant → (s.ctxOf q.ctx).res = true → s.kickQueue q tail = (s.setQueue { q with tail := tail }).askSlot { q with tail := tail }) ∧
    (q.st = .dormant → (s.ctxOf q.ctx).res = false → (s.ctxOf q.ctx).st ≠ .free → s.kickQueue q tail =
      ((s.setQueue { q with tail := tail }).setCtx q.ctx fun c => { c with pending := true }).postOnce .contextResident q.ctx) ∧
    (q.st = .stale → s.kickQueue q tail =
      (s.setQueue { q with tail := tail, st := .parse, reads := 0 }).postOnce .queueParse q.key) ∧
    (s.queue? (queueKey fn (SMap.getD s.work.qevset fn 0)) = some q →
      exec (.qevbits fn v) s = .next (s.setQueue { q with evt := q.evt ||| v })) ∧
    (s.stream? (getBits v 44 12) (getBits v 32 12) = some m → s.owns fn (getBits v 44 12) = true →
      ((tail - m.rd).toNat ≤ 2 ^ m.rlog2 →
        exec (.stkick fn v) s = .next ((s.setStream (getBits v 44 12) (getBits v 32 12) { m with tail := tail }).postOnce
          .streamRecordAdmit (getBits v 44 12) (getBits v 32 12))) ∧
      (2 ^ m.rlog2 < (tail - m.rd).toNat → exec (.stkick fn v) s =
        .next (s.postError (getBits v 44 12) tail.toNat 0x101 0 (streamSource (getBits v 32 12))))) ∧
    -- page answers
    (s.mem.reqs.find? (fun p => p.rqid == rqid && (s.ctxOf p.ctx).fn == fn) = some req →
      let t := { s with mem := { s.mem with reqs := s.mem.reqs.erase req } }
      let waits := s.mem.waits.filter fun w => w.rqid == rqid
      let gone := fun (s : State) => { s with mem := { s.mem with waits := s.mem.waits.filter fun w => w.rqid != rqid } }
      let failed := fun (trap : Nat) => waits.foldl State.dropWait ((t.answerAll rqid trap).endWarms req.ctx req.va)
      exec (.pgdoneResident fn rqid) s = .next (waits.foldl (fun s w => s.repost w.item) (gone (t.countAnswered req))) ∧
      exec (.pgdoneUnmappable fn rqid) s = .next (failed tPAGE) ∧ exec (.pgdoneDenied fn rqid) s = .next (failed tPROTECT)) ∧
    -- the method cache and parked lists
    (s.alien fn (getBits v 32 12) = false →
      let t := if v.getLsbD 63 then s.flushMethods (getBits v 32 12) else s
      (v.getLsbD 62 = false → v.getLsbD 61 = false → exec (.mtflushGo fn v) s = .next t) ∧
      (s.queue? (queueKey fn (getBits v 0 20)) = some q → q.hasParked = true →
        (v.getLsbD 62 = true → v.getLsbD 61 = false → exec (.mtflushRetry fn v) s = .next (t.retryParked q)) ∧
        (v.getLsbD 62 = false → v.getLsbD 61 = true → exec (.mtflushDiscard fn v) s = .next (t.discardParked q 2)))) ∧
    -- translations
    (r.tlbb.getLsbD 63 = false → v.getLsbD 63 = true → s.owns fn (r.tlba.toNat % 4096) = true → exec (.tlbinv fn v) s =
      .next ((s.setFn fn fun r => { r with tlbb := v &&& 0x80000000FFFFFFFF, tlbAt := s.clock }).post .tlbInvalidationComplete fn)) ∧
    -- the rings of a context
    (let c := s.ctxOf sel
     s.owns fn sel = true →
      ((c.tprod - tail).toNat ≤ 2 ^ c.record.tqlog2 → exec (.ctxringConsWrite fn false tail) s =
        .next (s.setCtx sel fun c => { c with tcons := tail }).flushRings) ∧
      ((c.hprod - tail).toNat ≤ 2 ^ c.record.hqlog2 → exec (.ctxringConsWrite fn true tail) s =
        .next (s.setCtx sel fun c => { c with hcons := tail }).flushRings) ∧
      (2 ^ c.record.tqlog2 < (c.tprod - tail).toNat → exec (.ctxringConsWrite fn false tail) s = .next s.ignored)) ∧
    -- frame pools
    (let id := getBits v 0 12
     let size := getBits v 59 2
     let pool := getBits v 56 3
     let entries := SMap.getD s.mem.pools (poolKey id pool) []
     let t := s.setFn fn fun r => { r with fpcmd := v &&& 0x7F00000000000FFF }
     let put := fun (l : List Nat) =>
       State.writePool { t with mem := { t.mem with pools := SMap.set t.mem.pools (poolKey id pool) l } } id pool
     let count := fun (s : State) =>
       let l := SMap.getD s.mem.pools (poolKey id pool) []
       s.setFn fn fun r => { r with fpsts := w64 (l.length + (l.filter fun e => e / 2 ^ 36 == size).length * 2 ^ 32) }
     v.getLsbD 63 = true → size ≠ 3 → pool ≤ 4 → getBits v 12 44 = 0 → t.alien fn id = false →
       (t.ctxOf id).record.poollog2 ≠ 0 →
       (getBits v 61 2 = 1 → t.poolAddOk id pool size (t.fnRegs fn).fparg.toNat = true → exec (.fpcmdAdd fn v) s =
         .next (count (put (poolEntry (t.fnRegs fn).fparg.toNat size :: entries)))) ∧
       (∀ e, getBits v 61 2 = 2 → entries.find? (fun e => e / 2 ^ 36 == size) = some e → exec (.fpcmdTake fn v) s =
         .next (count ((put (entries.erase e)).setFn fn fun r => { r with fparg := w64 (e % 2 ^ 36 * 65536) }))) ∧
       (getBits v 61 2 = 2 → entries.find? (fun e => e / 2 ^ 36 == size) = none → exec (.fpcmdTake fn v) s =
         .next (count (t.setFn fn fun r => { r with fparg := Word.ones }))) ∧
       (getBits v 61 2 = 3 → exec (.fpcmdCount fn v) s = .next (count t))) ∧
    -- inspection
    (inspected = 8 → place < 32 →
      exec .inspdRead s = .next (shows ((SMap.getD s.ctl.breaks (key * 16 + place) 0).setWidth 64)) ∧
      exec (.inspdBreakpointWrite v) s =
        .next (ctl { s.ctl with breaks := SMap.set s.ctl.breaks (key * 16 + place) (v.setWidth 32 &&& 0x80003FFF) })) ∧
    (inspected < 8 →
      exec .inspdRead s = .next (shows ((s.inspect (s.fnRegs 0).sel.toNat 0 s.ctl.inspa).getD 0))) ∧
    (inspected = 9 → place < 2 → v = 1 → exec (.inspdResume v) s = .next (s.at (key + place) fun u =>
      if u.cur.st = .halted then u.setCur fun t => { t with st := t.back } else u)) ∧
    -- trace sinks
    (s.trc.sinks[n]? = some k → k.enabled = false → v.getLsbD 63 = true → 12 ≤ v.toNat % 32 → v.toNat % 32 ≤ 28 →
      let on := { k with ctl := (v &&& 0x400000000000001F) ||| w64 (2 ^ 63), prod := 0, cons := 0, lost := 0 }
      exec (.traceSinkEnable n v) s =
        .next ((tab 5 id).foldl State.syncRecord { s with trc := { s.trc with sinks := s.trc.sinks.set n on } })) ∧
    -- the function's window
    (off % 8 ≠ 0 → exec (.registerWrite fn off v) s = .next s.ignored) ∧
    (exec (.registerWrite fn 0 v) s = exec (.qkick fn v) s ∧ exec (.registerWrite fn 0x10 v) s = exec (.qevbits fn v) s ∧
      exec (.registerWrite fn 0x20 v) s = exec (.stkick fn v) s ∧ exec (.registerWrite fn 0x88 v) s = exec (.tlbinv fn v) s ∧
      exec (.registerWrite fn 0x60 v) s = exec (.mtflushGo fn v) s ∧ exec (.registerWrite fn 0x140 v) s = exec (.fpcmdAdd fn v) s ∧
      exec (.registerWrite fn 8 v) s =
        .next { s with work := { s.work with qevset := SMap.set s.work.qevset fn (getBits v 32 20) } } ∧
      exec (.registerWrite fn 0x100 v) s = .next (s.setFn fn fun r => { r with arg0 := v }) ∧
      exec (.registerWrite fn 0x108 v) s = .next (s.setFn fn fun r => { r with arg1 := v }) ∧
      exec (.registerWrite fn 0x118 v) s = .next (s.setFn fn fun r => { r with sel := v.setWidth 12 }) ∧
      exec (.registerWrite fn 0x148 v) s = .next (s.setFn fn fun r => { r with fparg := v }) ∧
      exec (.registerWrite fn 0x120 v) s = .next s ∧ exec (.registerWrite fn 0x150 v) s = .next s) ∧
    (fn ≠ 0 → 0x150 < off → exec (.registerWrite fn off v) s = .next s.ignored) ∧
    -- reads: what is read and written as it was written, CTXSTS, write-only registers and other offsets as zero
    (s.hostRead fn 0x100 = r.arg0 ∧ s.hostRead fn 0x108 = r.arg1 ∧ s.hostRead fn 0x110 = r.cmd ∧
      s.hostRead fn 0x118 = r.sel.setWidth 64 ∧ s.hostRead fn 0x140 = r.fpcmd ∧ s.hostRead fn 0x148 = r.fparg ∧
      s.hostRead fn 0x150 = r.fpsts ∧ s.hostRead fn 0x88 = r.tlbb ∧
      (s.owns fn sel = true → s.hostRead fn 0x120 =
        w64 ((s.ctxOf sel).st.code + 8 * b2n (s.ctxOf sel).oversub + 256 * ((s.ctxOf sel).lerr % 256))) ∧
      (∀ o ∈ [0, 8, 0x10, 0x20, 0x40, 0x60], s.hostRead fn o = 0) ∧
      (off % 8 ≠ 0 ∨ (fn ≠ 0 ∧ 0x150 < off) → s.hostRead fn off = 0)) ∧
    -- memory
    (let b := if host then data else data.take (Config.devBytes - pa)
     exec (.hostMemoryWrite fn host pa data) s = .next { s with mem := s.mem.put (b2n host) pa b })

/-- Context commands (R390, R391) and the units' steps on contexts (R371, R386 to R394). The record is read at a
device physical address (assumption log 15); the order of resource checks is the model's choice (assumption log 24).
-/
def Obligations.ContextCommandsAndSteps : Prop :=
  (∀ (fn n : Nat) (ctx : BitVec 12) (s : State) (q : Queue),
     let c := s.ctxOf ctx.toNat
     let mine := c.st = .free ∨ c.fn = fn
     let cmd := fun (k : Nat) => w64 (k * 65536 + ctx.toNat)
     let noted := fun (k : Nat) => s.setFn fn fun r => { r with cmd := cmd k }
     (n = ctx.toNat → mine → c.st ≠ .free →
       exec (.ctxcmdLoad fn ctx) s = .next (noted 1).ignored) ∧
     (n = ctx.toNat → mine → c.st = .free → exec (.ctxcmdLoad fn ctx) s =
       .next (((noted 1).setCtx n fun _ => { Context.free with st := .loading, fn, recVa := ((noted 1).fnRegs fn).arg0 }).postOnce
         .contextLoadChecks n)) ∧
     (n = ctx.toNat → mine → c.st ∈ [CtxSt.ready, .running] → exec (.ctxcmdSave fn ctx) s =
       .next ((((noted 2).setCtx n fun c => { c with st := .preempting }).demand n).postOnce .contextSaved n)) ∧
     (n = ctx.toNat → mine → c.st ∈ [CtxSt.ready, .running, .saved] →
       let t := ((noted 3).setCtx n fun c => { c with st := .draining, pending := !c.res }).tasksOver n
       exec (.ctxcmdDrain fn ctx) s = .next (if c.res then t else t.postOnce .contextResident n)) ∧
     (n = ctx.toNat → mine →
       c.st ∈ [CtxSt.loading, .ready, .running, .preempting, .saved, .draining] →
       exec (.ctxcmdTeardown fn ctx) s = .next ((noted 4).teardown n)) ∧
     (n = ctx.toNat → mine → c.st = .tornDown → exec (.ctxcmdRelease fn ctx) s =
       let t := noted 5
       let ctl := { t.ctl with ctxs := SMap.del t.ctl.ctxs n }
       .next { t with ctl, mem := { t.mem with pools := SMap.drop t.mem.pools (n * 8) 8 } }) ∧
     (n = ctx.toNat → mine → c.st ∈ [CtxSt.ready, .running] → c.swap = none →
       let r := (noted 6).fnRegs fn
       exec (.ctxcmdSwap fn ctx) s =
         .next (((noted 6).setCtx n fun c => { c with swap := some (r.arg0, r.arg1) }).tasksOver n)) ∧
     (n = ctx.toNat → mine →
       c.st ∈ [CtxSt.loading, .ready, .running, .preempting, .saved, .draining] →
       (noted 7).queue? (queueKey fn (getBits ((noted 7).fnRegs fn).arg0 0 20)) = some q → q.ctx = n →
       exec (.ctxcmdAbort fn ctx) s = .next ((noted 7).abortPacket q (((noted 7).fnRegs fn).arg1.setWidth 32)))) ∧
  (∀ (s t u : State) (ctx die : Nat) (r : CtxRec) (mt ntt : Word) (err : Nat),
     let c := s.ctxOf ctx
     let w := s.putRecord ctx r
     let put := fun (s : State) (f : Context → Context) => s.setCtx ctx f
     let load : Post := ⟨.contextLoadChecks, ctx, 0⟩
     -- a load
     (c.st = .loading →
       (s.readRecord c.recVa = none → exec (.contextLoadChecks ctx) s = .next (s.rejectLoad ctx 1)) ∧
       (s.readRecord c.recVa = some r →
         (c.loaded = true → w.fits ctx = true → exec (.contextLoadChecks ctx) s =
           .next (put (w.takeResources ctx) fun c => { c with st := .ready })) ∧
         (c.loaded = true → w.fits ctx = false → exec (.contextLoadChecks ctx) s =
           .next (put w fun c => { c with st := .saved, pending := true })) ∧
         (c.loaded = false → c.peers = [] →
           (readTables ctx load w = .ok (.error err) t → exec (.contextLoadChecks ctx) s = .next (t.rejectLoad ctx err)) ∧
           (readTables ctx load w = .ok (.ok ()) t →
             exec (.contextLoadChecks ctx) s = .next ((t.newArenas ctx).admitNew ctx load))) ∧
         (c.loaded = false → c.peers ≠ [] → exec (.contextLoadChecks ctx) s = .next (w.admitNew ctx load)))) ∧
     -- a new context whose tables are in place
     (s.fits ctx = false → s.admitNew ctx load = put s fun c => { c with st := .saved, pending := true }) ∧
     (s.fits ctx = true →
       (fillNear ctx load s = .ok () u → s.admitNew ctx load =
         put (u.takeResources ctx) fun c => { c with st := .ready, loaded := true, pending := false }) ∧
       (fillNear ctx load s = .drop u → s.admitNew ctx load = u.rejectLoad ctx 3)) ∧
     (c.record.nttva = 0 → ∀ it, fillNear ctx it s = .ok () s) ∧
     -- residency
     (c.pending = true → s.fits ctx = true →
       (c.st = .saved → exec (.contextResident ctx) s =
         .next ((put s fun c => { c with st := .loading, pending := false }).postOnce .contextLoadChecks ctx)) ∧
       (c.st = .draining → c.res = false →
         exec (.contextResident ctx) s = .next (put (s.takeResources ctx) fun c => { c with pending := false }))) ∧
     (c.pending = true → s.fits ctx = false → exec (.contextResident ctx) s = .next s) ∧
     -- saved
     (c.st = .preempting → (∀ e ∈ s.strands, e.2.sys.ctx.toNat ≠ ctx) →
       exec (.contextSaved ctx) s = .next (s.giveUp ctx)) ∧
     (c.st = .preempting → (∃ e ∈ s.strands, e.2.sys.ctx.toNat = ctx) → exec (.contextSaved ctx) s = .next s) ∧
     -- swap
     (c.swap = some (mt, ntt) → (∀ k ∈ SMap.vals s.work.tasks, k.ctx ≠ ctx) →
       let fail := fun (s : State) (n : Nat) => put ((s.dropNear ctx).giveUp ctx) fun c => { c with swap := none, lerr := n }
       let swapped := fun (s : State) => ((put s fun c => { c with swap := none }).flushMethods ctx).wakeDies
       (s.readRecord c.recVa = none → exec (.swapReload ctx) s = .next (fail s 1)) ∧
       (s.readRecord c.recVa = some r →
         let old := c.record
         let z := (s.dropNear ctx).putRecord ctx { r with mtroot := mt, nttva := ntt, arena := old.arena, nbar := old.nbar
                                                          diemask := old.diemask, convsz := old.convsz }
         ((z.ctxOf ctx).record.nttva = 0 → exec (.swapReload ctx) s = .next (swapped z)) ∧
         (fillNear ctx ⟨.swapReload, ctx, 0⟩ z = .ok () t → exec (.swapReload ctx) s = .next (swapped t)) ∧
         (fillNear ctx ⟨.swapReload, ctx, 0⟩ z = .drop t → exec (.swapReload ctx) s = .next (fail t 3)))) ∧
     -- budgets
     (c.counts = true → c.spent = none → c.record.coreus * 1000 * Config.periodsPerNs ≤ c.usedQ →
       exec (.budgetExhausted ctx) s = .next (s.demand ctx)) ∧
     (c.usedQ < c.record.coreus * 1000 * Config.periodsPerNs → exec (.budgetExhausted ctx) s = .next s) ∧
     (let len := 1000 * c.record.period
      let v := put s fun c => { c with usedQ := 0, cadQ := 0, start := s.ns / len * len }
      len ≠ 0 →
        (c.spent = none → exec (.budgetPeriodRollover ctx) s = .next v) ∧
        (c.spent.isSome = true → c.st ≠ .preempting → c.res = true →
          let z := put v fun c => { c with spent := none }
          exec (.budgetPeriodRollover ctx) s = .next ((State.restoreStash
            ((SMap.keys (z.strands.filter fun e => e.2.sys.ctx.toNat == ctx)).foldl (fun (s : State) k =>
              s.at k fun u => u.setCur fun t => { t with preempt := false }) z) ctx).wakeDies))) ∧
     -- groups of a die, in ascending stage order
     (exec (.groupEvaluate die) s = .next
       ((sortBy Group.before (s.work.groups.filter fun g => g.die == die)).foldl State.evaluate (s, [])).1.leaveCores) ∧
     (∀ g h : Group, g.ctx = h.ctx → g.stage.toNat < h.stage.toNat → Group.before h g = false))

/-- R24 to R26, R54, R313, R398 to R400. What a module reset keeps and the kinds of the error records are the model's
choices (assumption logs 29, 35). -/
def Obligations.PlantAndFirmware : Prop :=
  ∀ (s : State) (t f die unit addr : Nat) (mW : List Nat) (loc : Store) (img : FwImage) (p : Power),
    let coolant := fun (inlet flow : Bool) => { s with plant := { s.plant with inlet, flow } }
    let setDie := fun (s : State) (p : Power) => { s with plant := { s.plant with dies := s.plant.dies.set die p } }
    let fw := fun (f : Firmware) => { s with ctl := { s.ctl with fw := f } }
    let w := s.ctl.fw
    let old := w.images.getD w.slot ⟨0, 0, 0, 0⟩
    let block := if loc = .device then 64 else 8
    let share := fun (p : Power) (i : Nat) => p.allot.getD i 0 / (if s.plant.inlet || s.plant.flow then 2 else 1) / (if p.hot then 2 else 1)
    -- coolant and temperature
    (exec (.coolantLimit t f) s = .next (coolant (s.plant.inlet || decide (45 < t)) (s.plant.flow || decide (f < 200)))) ∧
    (exec (.inletReturn ⟨t, f⟩) s = .next (coolant (s.plant.inlet && decide (43 ≤ t)) (s.plant.flow && decide (f < 200)))) ∧
    State.reset.plant.hub = [200000, 100000, 50000] ∧
    (s.plant.dies[die]? = some p → t < 110 → exec (.junctionTemperature die t) s =
      .next (setDie s { p with hot := decide (100 ≤ t) })) ∧
    (110 ≤ t → exec (.junctionTemperature die t) s =
      .next (State.moduleReset { s with ctl := { s.ctl with
        errs := s.ctl.errs ++ [(32, die)], mctp := s.ctl.mctp ++ [(32, die)] } })) ∧
    -- power: a consumer whose average over ten measurements is above its allotment is throttled
    (s.plant.dies[die]? = some p → ∃ th : List Bool, th.length = 4 ∧
      exec (.powerMeasure die mW) s = .next (setDie s { p with hist := (mW :: p.hist).take 10, throttled := th }) ∧
      ∀ i, i < 4 → th.getD i false =
        decide (share p i < (((mW :: p.hist).take 10).map fun m => m.getD i 0).sum / ((mW :: p.hist).take 10).length)) ∧
    -- scrubbing and replays
    (let bad := (if loc = .device then 0 else 16 + loc.code, addr / block * block, block)
     exec (.patrolScrub loc addr true) s =
       .next (State.hostError { s with mem := { s.mem with poison := s.mem.poison ++ [bad] } } loc.code addr)) ∧
    (let here := (if loc = .device then 0 else 16 + loc.code, addr / block * block, block)
     exec (.patrolScrub loc addr false) s = .next (State.countDie { s with mem := { s.mem with soft := s.mem.soft.erase here } }
       (if loc = .device then dieOf addr else coreDie (addr / 2 ^ 32 % 256)) 0x262 none 1)) ∧
    (exec (.timingReplay die) s = .next (s.countDie die 0x260 none 1)) ∧
    -- reset: flash, host memory and what has left the module stay
    (∃ u, exec .moduleReset s = .next u ∧ u.cur = State.reset.cur ∧ u.others = [] ∧ u.work = State.reset.work ∧
      u.mem.dev = State.reset.mem.dev ∧ u.mem.host = s.mem.host ∧ u.ctl.ctxs = [] ∧
      u.ctl.fw.minVer = w.minVer ∧ u.ctl.fw.slot = w.slot ∧ u.ctl.fw.images = w.images ∧ u.ctl.errs = s.ctl.errs ∧
      u.ctl.mctp = s.ctl.mctp ∧ u.ctl.fw.puf = w.puf ∧ u.ctl.fw.helper = w.helper) ∧
    -- live update and heartbeats
    (w.booted = true → Config.imageSigned img.digest img.signature = true → w.minVer ≤ img.version → img.handover = old.handover →
      let f := { w with images := w.images.set (1 - w.slot) img, measured := w.measured.set 2 img.digest.toNat }
      exec (.firmwareLiveUpdate img) s =
        .next (fw { f with slot := 1 - w.slot, runVer := img.version, update := some old })) ∧
    (Config.imageSigned img.digest img.signature = false ∨ img.version < w.minVer ∨ img.handover ≠ old.handover →
      exec (.firmwareLiveUpdate img) s = .next (fw { w with images := w.images.set (1 - w.slot) img })) ∧
    (∀ i, w.update = some i →
      let f := { w with slot := 1 - w.slot, runVer := i.version }
      exec .firmwareHeartbeatMiss s = .next (fw { f with update := none, measured := w.measured.set 2 i.digest.toNat })) ∧
    (∃ u, exec (.heartbeatTimeout unit) s = .next u ∧ unit ∈ u.ctl.fw.lost ∧ (∀ k ∈ w.lost, k ∈ u.ctl.fw.lost) ∧
      u.ctl.errs = s.ctl.errs ++ [(33, unit)])

/-! ### Unit steps on strands and on memory -/

/-- R94, R95, R126, R141, R298 to R307, R314, R380, R383, R391, R393. When a strand is saved and what it keeps are the
model's choices (assumption logs 14, 24). -/
def Obligations.StrandUnitSteps : Prop :=
  ∀ (s u w : State) (k die : Nat) (g : Eng) (o : F3) (r : Ring) (loc : Store) (addr : Word) (vs : List Word) (l : Links)
      (b : Barrier) (j : Join) (x : Xlate) (h : LinkH) (y : Sequence),
    let runs := u.cur.st = .running ∨ u.cur.st = .handler
    let reached := fun (g : Eng) => runs ∧ u.cur.ph.st ≠ .cancelled ∧ u.cur.ph.st ≠ .committing ∧ (u.cur.engine g).arrived = false
    -- the wait of engine A's instruction is taken up, for a time limit once the limit is reached
    let waits := fun (i : Instr) => reached .a ∧ (u.cur.engine .a).since.isSome = true ∧ u.nextInstr .a = some i
    let late := fun (i : Instr) => waits i ∧ u.waitedOut .a = true
    let retaken := fun (e i : Instr) => exec e s = match exec i u with | .next t => s.backTo t | other => other
    let va' := vs.headD 0
    let vb := vs.getD 1 0
    let qb := r.issue .a 0x82 1 [o.a, o.b] [] 1
    let qc := r.issue .a 0x85 1 [o.a, o.b] [] 1
    let qx := r.issue .a 0x92 1 [o.a] [.reg o.d] 1
    let qo := r.issue .a 0x98 1 [o.a] [.reg o.d] 40
    let since := (u.cur.engine .a).since.getD u.clock
    let counter := u.curCtx.record.cntbase + BitVec.ofNat 64 (8 * va'.toNat)
    let value : Word := BitVec.ofNat 64 (leNat (w.mem.bytes x.home x.pa 8))
    let counts := va'.toNat < u.curCtx.record.ncnt ∧ u.ownXlate counter .read = .ok x w ∧ x.home ≠ 2 ∧
      w.mem.poisoned x.home x.pa 8 = false
    let read := w.corrected x.home x.pa 8
    -- placement
    (exec (.strandPlace die) s = .next ((s.work.groups.filter fun p =>
        p.die == die && !p.pend.isEmpty && (s.ctxOf p.ctx).places).foldl (fun s p =>
      (State.fillPlaces s p.ctx die p.stage false (sortNat p.cores)).fillPlaces p.ctx die p.stage true (sortNat p.cores)) s)) ∧
    (∀ (ctx core n : Nat) (stage : W32) (staged : Bool) (p : Pending) (rest : List Pending) (q : Group),
      s.group? ctx die stage = some q → q.pend = p :: rest → q.leaving.map (·.1) ≠ some core → s.openSlot core staged = some n →
      State.fillPlaces s ctx die stage staged [core] = (s.updGroup ctx die stage fun q => { q with pend := rest }).placeAt p n) ∧
    (∀ (q : Group) (p : Pending) (core n : Nat),
      (s.work.groups.filter fun p => p.die == die && !p.pend.isEmpty && (s.ctxOf p.ctx).places) = [q] →
      s.group? q.ctx die q.stage = some q → q.cores = [core] → q.pend = [p] → q.leaving = none → s.openSlot core false = some n →
      exec (.strandPlace die) s = .next ((s.updGroup q.ctx die q.stage fun q => { q with pend := [] }).placeAt p n)) ∧
    (s.Front k u →
      -- start
      (u.cur.st = .staged → u.coreTaken u.curCore k = false → u.coreLeaves u.curCore = false →
        exec (.strandStart k) s = s.backTo u.startStrand) ∧
      (u.cur.st ≠ .staged ∨ u.coreTaken u.curCore k = true ∨ u.coreLeaves u.curCore = true →
        exec (.strandStart k) s = s.backTo u) ∧
      (u.cur.kept = [] → u.cur.ph.rep = true → u.cur.ph.st = .opened → u.cur.nest = none → u.curCtx.spent = none → u.cur.fresh = true →
        let n := ((u.task u.cur.task).map fun k => k.image.nacc).getD 0
        u.startStrand = (u.setCur fun t => { t with
          st := t.back, kept := [], fresh := false
          acc := List.replicate n ⟨List.replicate 4096 0, List.replicate 64 0xFF800000#32, List.replicate 64 0, false⟩ }).emitCore
            .a 0x801 u.cur.sys.grank u.cur.sys.strand) ∧
      -- end
      (u.cur.st = .ending → u.cur.ph.st ≠ .cancelled → u.cur.workDone = true → u.cur.awaiting = false →
        let t := if u.cur.ph.st = .committing then u else u.startCommit
        let gone := t.cur.ph.buf = [] ∧ t.nothingOut = true
        (gone → exec (.strandEnded k) s = s.backTo t.finishEnd) ∧
        (¬ gone → exec (.strandEnded k) s = s.backTo (t.postOnce .strandEnded k))) ∧
      (u.cur.st = .ending → u.cur.ph.st ≠ .cancelled → u.cur.workDone = false ∨ u.cur.awaiting = true →
        exec (.strandEnded k) s = s.backTo (u.postOnce .strandEnded k)) ∧
      (u.cur.st = .ended → u.cur.workDone = true → u.nothingOut = true → exec (.strandEnded k) s = s.backTo u.finishStrand) ∧
      -- commit
      (u.cur.ph.st = .committing → runs →
        (u.cur.ph.buf = [] → exec (.phaseCommitDone k) s = s.backTo u.finishPhase) ∧
        (u.cur.ph.buf ≠ [] → exec (.phaseCommitDone k) s = s.backTo (u.postOnce .phaseCommitDone k))) ∧
      -- cancel, refetch, hold
      (u.cur.ph.st = .cancelled → u.cur.st ≠ .ended →
        (u.checkpointBad = true → exec (.phaseCancel k) s = s.backTo (u.uncorrAbort .checkpoint (w64 u.ckptSpot))) ∧
        (u.checkpointBad = false → let t := u.cancelPhase
          -- a pending pre-emption saves the strand with the restored state
          exec (.phaseCancel k) s = s.backTo (if t.cur.preempt && t.frameFree then t.stashStrand 2
            else t.postOnce .phaseRefetchDone k))) ∧
      (u.cur.ph.st = .cancelled → u.cur.st = .running →
        ((∃ p ∈ u.cur.ph.held, p.ans = 0 ∧ ∃ q ∈ u.mem.reqs, q.rqid = p.rqid) →
          exec (.phaseRefetchDone k) s = s.backTo (u.postOnce .phaseRefetchDone k)) ∧
        ((∀ p ∈ u.cur.ph.held, p.ans = 0 → ∀ q ∈ u.mem.reqs, q.rqid ≠ p.rqid) → (∃ p ∈ u.cur.ph.held, p.ans ≠ 0) →
          exec (.phaseRefetchDone k) s = s.backTo u.endRefetch) ∧
        ((∀ p ∈ u.cur.ph.held, p.ans = 0 ∧ ∀ q ∈ u.mem.reqs, q.rqid ≠ p.rqid) →
          let t := u.refetch (u.cur.ph.held.map Held.va ++ u.cur.ph.input.map fun n => w64 (n * 65536))
          exec (.phaseRefetchDone k) s = s.backTo (if t.1 then t.2.endRefetch else t.2.postOnce .phaseRefetchDone k))) ∧
      (u.cur.ph.st ≠ .cancelled → u.cur.ph.rep = false → exec (.holdTimeout k) s = s.backTo
        (if u.checkHolds.cur.ph.held.isEmpty then u.checkHolds else u.checkHolds.postOnce .holdTimeout k)) ∧
      -- errors and deadlock
      (runs ∨ u.cur.st = .ending → exec (.uncorrAbort k loc addr) s = s.backTo (u.uncorr loc addr)) ∧
      (runs → u.cur.sys.stl ≠ 0 → u.cur.sys.stl.toNat < u.cur.dead → exec (.deadlock k) s = s.backTo u.deadlocked) ∧
      (runs → u.cur.sys.stl = 0 ∨ u.cur.dead ≤ u.cur.sys.stl.toNat → exec (.deadlock k) s = s.backTo u) ∧
      -- waits
      (∀ v, (u.cur.engine g).wait = some v →
        (runs → u.cur.ph.st ≠ .cancelled → v.time.toNat ≤ u.ns → exec (.waittExpire k g) s =
          s.backTo ((u.setEng g fun e => { e with wait := none }).setCur fun t => t.deliver g 1 [] v.sp v.sn)) ∧
        (u.ns < v.time.toNat → exec (.waittExpire k g) s = s.backTo u)) ∧
      (waits (.ccwait r o) → retaken (.ccwaitPoll k) (.ccwait r o)) ∧ (late (.bwait r o) → retaken (.bwaitTimeout k) (.bwait r o)) ∧
      (late (.ccwait r o) → retaken (.ccwaitTimeout k) (.ccwait r o)) ∧
      (late (.xcwait r o) → retaken (.xcwaitTimeout k) (.xcwait r o)) ∧
      (late (.stbindOpen r o) → retaken (.stepOpenTimeout k) (.stbindOpen r o)) ∧
      (late (.stsink r o) → retaken (.stepOpenTimeout k) (.stsink r o)) ∧
      (waits (.ccwait r o) → u.Goes qc vs l → counts → 0 ≤ (value - vb).toInt →
        exec (.ccwaitPoll k) s = s.backTo (read.finish qc l (.of []))) ∧
      (late (.ccwait r o) → u.Goes qc vs l → counts → (value - vb).toInt < 0 → read.waitedOut .a = true →
        exec (.ccwaitTimeout k) s = s.backTo (u.takeTrap .a tTIMEOUT [va', vb, value])) ∧
      (late (.bwait r o) → u.Goes qb vs l → va'.toNat < 256 → u.bar (u.curDie * 256 + va'.toNat) = some b → b.v = true →
        b.ctx = u.cur.sys.ctx → u.cur.joins.find? (fun i => i.b == va'.toNat) = some j → b.gen = vb.setWidth 24 →
        exec (.bwaitTimeout k) s = s.backTo (u.takeTrap .a tTIMEOUT [va', b.gen.setWidth 64])) ∧
      (late (.xcwait r o) → u.Goes qx vs l → va'.toNat < 16 → u.cur.hand.getD va'.toNat .free = h → h.held = true → h.status = 0 →
        exec (.xcwaitTimeout k) s = s.backTo (u.takeTrap .a tTIMEOUT [va'])) ∧
      (late (.stbindOpen r o) → u.Goes qo vs l → va'.toNat < 65536 →
        SMap.get? u.strm.seqs (u.cur.sys.ctx.toNat * 65536 + va'.toNat) = some y → u.cur.step = none → y.opened.isSome = true →
        y.opened ≠ some u.cur.key → exec (.stepOpenTimeout k) s = s.backTo (u.takeTrap .a tTIMEOUT
          [va', 0x98, w64 ((u.clock - since) / Config.periodsPerNs / 1000), u.cur.sys.phasen.setWidth 64])) ∧
      -- pre-emption
      (runs → u.cur.preempt = true ∨ u.cur.gy = true → u.frameFree = true → u.stopDue = true → exec (.preemptImmediate k) s =
        s.backTo ((u.setCur fun t => { t with st := .saved, back := t.st }).postOnce .preemptImmediate k)) ∧
      (runs → u.cur.preempt = true ∨ u.cur.gy = true → u.frameFree = true → u.stopDue = false →
        exec (.preemptImmediate k) s = s.backTo (u.postOnce .preemptImmediate k)) ∧
      (u.cur.st = .saved → u.settled = true → exec (.preemptImmediate k) s = s.backTo u.saveNow) ∧
      (u.cur.st = .saved → u.settled = false →
        exec (.preemptImmediate k) s = s.backTo (u.postOnce .preemptImmediate k)))

/-- R292, R319 to R326, R333, R334, R468. Order of atomic requests within a period: the model's (assumption log 1). -/
def Obligations.MemoryUnitSteps : Prop :=
  ∀ (s u t : State) (k tag eng fn a port : Nat) (va : Word) (wr : Bool) (x : Xlate) (f : TFault) (r : Remote) (p : Peer)
      (q : AtomReq) (move : Move),
    let translated := u.translate u.cur.sys.ctx.toNat u.cur.wins (some u.curCore) va (if wr then .write else .read)
    -- walks
    (s.Front k u →
      (translated = .ok x t → exec (.pageWalk k va wr) s = s.backTo t) ∧
      (translated = .fault f → f.code ≠ 3 → exec (.pageWalk k va wr) s =
        s.backTo (u.requestPage u.cur.sys.ctx.toNat f.va f.code (b2n f.wr) (some u.curCore)).2) ∧
      (translated = .fault f → f.code = 3 → exec (.pageWalk k va wr) s = s.backTo u) ∧
      (translated = .moving → exec (.pageWalk k va wr) s = s.backTo u)) ∧
    -- requests to peers
    (s.net.remote.find? (fun q => q.tag == tag) = some r → r.ans = none → r.sentAt = none →
      (s.ns < r.due ∨ s.notifyWaits r = true → exec (.remoteRefusalRetry tag) s = .next (s.postOnce .remoteRefusalRetry tag)) ∧
      (r.due ≤ s.ns → s.notifyWaits r = false →
        (s.peer r.ctx r.rank = none → exec (.remoteRefusalRetry tag) s = .next (s.answerRemote r 3 [] 0)) ∧
        (s.peer r.ctx r.rank = some p → s.reaches p.reach = false →
          exec (.remoteRefusalRetry tag) s = .next (s.answerRemote r 3 [] 0)) ∧
        (s.peer r.ctx r.rank = some p → s.reaches p.reach = true → s.pickPort r p.reach = some port →
          exec (.remoteRefusalRetry tag) s = .next (s.sendRemote r p port)))) ∧
    -- atomic engines
    (nextAtom eng s.clock s.mem.atoms = some q →
      let v := s.mem.atomic q.home q.pa q.op q.size q.opd q.new
      let w := { s with mem := v.2.touchLine eng q.home q.pa }
      let w := if eng < 64 then w.countEvents (eng / 16) q.ctx q.kern 0 (atomicEvents q.op v.1 q.opd) else w
      let link := 2 ^ 20 ≤ q.key ∧ q.key < 2 ^ 20 + 16
      let serves := fun (atoms : List AtomReq) (f : State → State) =>
        let t := f { w with mem := { w.mem with atoms } }
        exec (.atomicEngineServe eng) s = .next
          (if t.mem.atoms.any fun p => p.eng == eng && p.old.isNone then t.postOnce .atomicEngineServe eng else t)
      -- one whose old value somebody waits for, one of a released entry, one of an agent, one that came in through a link
      (¬ link → q.post = false → serves (w.mem.atoms.map fun p => if p = q then { p with old := some v.1 } else p) id) ∧
      (¬ link → q.post = true → q.key < 2 ^ 43 → serves (w.mem.atoms.erase q) fun t => t.at q.key State.releaseRest) ∧
      (¬ link → q.post = true → 2 ^ 43 ≤ q.key → serves (w.mem.atoms.erase q) id) ∧
      (link → serves (w.mem.atoms.erase q) fun t =>
        t.respond (q.key - 2 ^ 20) q.ctx q.chip q.tag 0 0 (if q.post then 0 else v.1) [])) ∧
    (nextAtom eng s.clock s.mem.atoms = none → exec (.atomicEngineServe eng) s = .next s) ∧
    (∀ q', nextAtom eng s.clock s.mem.atoms = some q' → q' ∈ s.mem.atoms ∧ q'.eng = eng ∧ q'.old = none) ∧
    -- moves and invalidations
    (let mine := s.mem.moves.filter fun m => m.key == k
     (mine = [move] → s.moveWaits move = false → exec (.pageMoveCopyDone k) s = .next (s.endMove move)) ∧
     (mine = [move] → s.moveWaits move = true → exec (.pageMoveCopyDone k) s = .next (s.postOnce .pageMoveCopyDone k)) ∧
     (let t := (mine.filter fun v => !s.moveWaits v).foldl State.endMove s
      exec (.pageMoveCopyDone k) s = .next (if mine.any s.moveWaits then t.postOnce .pageMoveCopyDone k else t))) ∧
    (let d := s.fnRegs fn
     let ctx := d.tlba.toNat % 4096
     let start := ((d.tlba.setWidth 57).signExtend 64).toNat / 65536 * 65536
     let t := { s with mem := s.mem.invalidate ctx start (d.tlbb.toNat % 2 ^ 32) }
     d.tlbb.getLsbD 63 = true →
       (t.earlierAccess ctx d.tlbAt = false → exec (.tlbInvalidationComplete fn) s =
         .next (State.setFn t fn fun d => { d with tlbb := d.tlbb &&& 0xFFFFFFFF })) ∧
       (t.earlierAccess ctx d.tlbAt = true →
         exec (.tlbInvalidationComplete fn) s = .next (t.postOnce .tlbInvalidationComplete fn))) ∧
    (∀ (m : Mem) (ctx lo n : Nat) (e : TlbEnt) (core : Nat) (l l' : List TlbEnt),
      SMap.get? m.coreTlb core = some l → SMap.get? (m.invalidate ctx lo n).coreTlb core = some l' →
      (e ∈ l' ↔ e ∈ l ∧ ¬ (e.ctx = ctx ∧ (n = 0 ∨
        overlaps (e.va * 2 ^ levelShift e.level) (2 ^ levelShift e.level) lo (n * 65536) = true)))) ∧
    -- accesses of agents that waited too long
    (let ws := s.mem.waits.filter fun w => w.rqid.toNat == a && !w.item.what.own && !w.drop
     let due := ws.filter fun w => decide ((s.ctxOf w.ctx).holdNs ≤ s.ns - w.since)
     exec (.hubAgentHoldLimit a) s = .next (if due.length < ws.length
       then (due.foldl State.dropWait s).postOnce .hubAgentHoldLimit a else due.foldl State.dropWait s))

/-! ### Queues, tasks and contexts -/

/-- R346, R355 to R364. One task per die and opportunity, MALFORMED at parse, and the time of the choice are the
model's choices (assumption logs 22, 44). -/
def Obligations.QueueUnitSteps : Prop :=
  ∀ (s t u : State) (die key k n : Nat) (q : Queue) (rest : List Nat) (b : List Byte) (task : Nat)
      (p : Task) (e : BufEntry) (es : List BufEntry) (qid since : Nat) (va : Word) (o : Offer) (os : List Offer)
      (it : Post) (found : Nat × Nat → List Byte) (pick : Pick) (sn : Option Nat) (x y : Xlate),
    let again := fun (s : State) (w : What) => s.postOnce w key
    -- a slot for the queue that has asked the longest
    (let asking := { s with work := { s.work with asks := s.work.asks.erase key } }
     let w := if rest.isEmpty then asking else asking.postOnce .queueSlotGrant die
     let st := if q.qsave = 1 then QSt.parked else if q.qsave = 2 then .stale else .idle
     s.work.asks.filter (fun k => (s.queue? k).map Queue.die == some die) = key :: rest → s.freeQueueSlot die = some n →
       w.queue? key = some q → q.st = .dormant → (w.ctxOf q.ctx).res = true →
       let v := (w.idleQueue { q with st, slot := some n, qsave := 0 }).unparkHead key
       exec (.queueSlotGrant die) s = .next (if q.retry then v.postOnce .queueDispatch die else v)) ∧
    (s.work.asks.filter (fun k => (s.queue? k).map Queue.die == some die) = [] ∨ s.freeQueueSlot die = none →
      exec (.queueSlotGrant die) s = .next s) ∧
    -- a PARKED head of a non-blocking queue whose list has room
    (s.queue? key = some q → q.st = .parked → q.nonblock = true → q.parked.length < 64 → s.unparkHead key = s.idleQueue
      { q with parked := q.parked ++ [(q.head, q.record)], head := q.head + 1, st := .idle, record := [], readyAt := none
               aborts := q.aborts.erase q.head }) ∧
    -- parsing
    (s.queue? key = some q → q.st = .parse → exec (.queueParse key) s = .next (s.readHead q ⟨.queueParse, key, 0⟩)) ∧
    (s.queue? key = some q → q.st = .parse →
      (s.ns < q.nextRd → exec (.queueReread key) s = .next (again s .queueReread)) ∧
      (q.nextRd ≤ s.ns → exec (.queueReread key) s = .next (s.readHead q ⟨.queueReread, key, 0⟩))) ∧
    (let slot := q.slotVa q.head
     let stale := fun (s : State) => s.setQueue { q with st := .stale }
     (s.ctxOf q.ctx).parses = true →
       (s.Finds q.ctx slot 128 it b →
         (field b 2 1 % 2 = q.lap q.head → s.readHead q it = s.parsed q b) ∧
         (field b 2 1 % 2 ≠ q.lap q.head → q.reads < 64 → s.readHead q it =
           (s.setQueue { q with reads := q.reads + 1, nextRd := s.ns + 1000 }).postOnce .queueReread q.key) ∧
         (field b 2 1 % 2 ≠ q.lap q.head → 64 ≤ q.reads →
           s.readHead q it = (stale s).postError q.ctx q.head.toNat 0x100 0 (queueId q.key))) ∧
       ((agentBytes q.ctx slot 128 it : Ag (List Byte)) s = .drop t →
         s.readHead q it = (stale t).postError q.ctx q.head.toNat 0x106 slot.toNat (queueId q.key))) ∧
    (let v := { q with record := b, st := .ready, readyAt := none, pick := none }
     (q.head ∈ q.aborts → s.parsed q b = s.completeHead v 6) ∧
     (q.head ∉ q.aborts → recFence b = false →
       (recordOk b = true → s.parsed q b = ((s.setQueue v).choose q.key).postOnce .queueDispatch q.die) ∧
       (recordOk b = false → s.parsed q b = s.completeHead v 5)) ∧
     (q.head ∉ q.aborts → recFence b = true → fenceOk (s.ctxOf q.ctx).record.ncnt b = true →
       s.parsed q b = (s.setQueue v).postOnce .fencePacketTest q.key)) ∧
    -- the choice for a head packet is made once, and a choice made stands until the packet is dispatched
    (s.queue? key = some q → q.st = .ready → recFence q.record = false →
      let read := choosePick q.die q.ctx q.record ⟨.queueDispatch, q.die, key⟩
      (q.pick = none → read s = .ok pick t → s.choose key = t.setQueue { q with pick := some pick }) ∧
      (q.pick = none → read s = .drop t → s.choose key = t.completeHead q 4) ∧
      (q.pick = some pick → s.choose key = s)) ∧
    -- fences
    (s.queue? key = some q → q.st = .ready → recFence q.record = true →
      (∀ f ∈ fencePairs q.record, s.Finds q.ctx (counterVa (s.ctxOf q.ctx) f.1) 8 ⟨.fencePacketTest, key, 0⟩ (found f)) →
      let hold := ∀ f ∈ fencePairs q.record, 0 ≤ (w64 (leNat (found f)) - w64 f.2).toInt
      (hold → exec (.fencePacketTest key) s = .next (s.completeHead q 0)) ∧
      (¬ hold → exec (.fencePacketTest key) s = .next (again s .fencePacketTest))) ∧
    -- dispatch: the candidates in the order of level, then turn
    (let w := (s.chooseAll die).noteReady die
     let v := State.serveFirst (w.candidates die) w
     (w.emitting (2 ^ 20 + agentUnit die) = false →
       exec (.queueDispatch die) s = .next (if v.agentBusy die then v.postOnce .queueDispatch die else v)) ∧
     (w.emitting (2 ^ 20 + agentUnit die) = true →
       exec (.queueDispatch die) s = .next (if w.agentBusy die then w.postOnce .queueDispatch die else w)) ∧
     (∀ o ∈ w.candidates die, o.q.die = die ∧ w.offer? o.q = some o)) ∧
    (s.offer? q = some o → q.slot.isSome = true ∧ (s.ctxOf q.ctx).dispatches = true ∧ (o.parked = false → s.eligible q = true) ∧
      (o.parked = true → q.retry = true ∧ q.evt &&& recWait o.record = recWait o.record ∧ o.pick.roomIn (s.ctxOf q.ctx) = true)) ∧
    (s.eligible q = true → q.evt &&& recWait q.record = recWait q.record ∧
      ∃ p, q.pick = some p ∧ p.roomIn (s.ctxOf q.ctx) = true) ∧
    (State.serveFirst (o :: os) s =
      if (s.attempt o).2 then (s.attempt o).1.noteServed o else State.serveFirst os (s.attempt o).1) ∧
    (s.queue? o.q.key = some q → o.q.slot = some n → s.noteServed o = State.setQueue
      { s with work := { s.work with lastSlot := SMap.set s.work.lastSlot (o.q.die * 8 + o.level) n } }
      { q with servedAt := s.ns }) ∧
    -- pushes of a strand's release
    (s.Front k u → u.cur.ph.rep = false → u.cur.ph.buf = e :: es →
      let found := u.queue? (queueKey u.curCtx.fn qid)
      let push : Post := ⟨.qsubmitPush, k, 0⟩
      (e.kind = .submit qid va sn → u.cur.st ≠ .saved →
        (found = none → exec (.qsubmitPush k) s = s.backTo u.ignored.releaseRest) ∧
        -- the record is read, gets its lap bit, and is written into slot TAIL
        (found = some q → q.full = false → u.InPlace q.ctx va .read push x → x.home ≠ 2 →
          u.InPlace q.ctx (q.slotVa q.tail) .write push y → y.home ≠ 2 →
          let r := u.mem.bytes x.home x.pa 128
          let r := putBytes r 2 [BitVec.ofNat 8 (field r 2 1 / 2 * 2 + q.lap q.tail)]
          exec (.qsubmitPush k) s =
            s.backTo (State.kickQueue { u with mem := u.mem.put y.home y.pa r } q (q.tail + 1)).releaseRest) ∧
        (found = some q → q.full = true →
          let kind := BufKind.submit qid va (some (sn.getD u.ns))
          let w := u.setPhase fun p => { p with buf := { e with kind } :: p.buf.drop 1 }
          exec (.qsubmitPush k) s = s.backTo ((w.postOnce .qsubmitPush k).postOnce .qsubmitFull k))) ∧
      (e.kind = .submit qid va (some since) → found = some q → q.full = true →
        (u.curCtx.holdNs ≤ u.ns - since → exec (.qsubmitFull k) s =
          s.backTo (u.postError u.cur.sys.ctx.toNat q.tail.toNat 0x102 0 qid).releaseRest) ∧
        (u.ns - since < u.curCtx.holdNs → exec (.qsubmitFull k) s = s.backTo (u.postOnce .qsubmitFull k)))) ∧
    -- retirement
    (s.task task = some p → s.emitting (2 ^ 20 + agentUnit p.die) = false → s.retires p = true →
      (p.convOf.isSome = true ∨ (s.ctxOf p.ctx).st = .free → exec (.taskRetire task) s = .next (s.removeTask p)) ∧
      (p.convOf = none → (s.ctxOf p.ctx).st ≠ .free → exec (.taskRetire task) s = .next (s.retireSteps p))) ∧
    (s.task task = some p → s.emitting (2 ^ 20 + agentUnit p.die) = false → s.retires p = false →
      (p.drained = false ∨ p.waits ≠ [] → exec (.taskRetire task) s = .next s)) ∧
    (∀ w, s.queue? p.q = some q → p.done = 0 → p.signal ≠ 0 → p.ccva = 0 → field p.record 2 2 = 0 →
      let v := s.setQueue { q with evt := q.evt ||| p.signal }
      let y := (v.setTask { p with done := 1 }).setTask { p with done := 2 }
      y.queue? p.q = some w → y.InPlace p.ctx (w.cring + w64 (32 * (p.index.toNat % w.n))) .write ⟨.taskRetire, p.id, 0⟩ x →
      x.home ≠ 2 →
      s.retireSteps p = State.removeTask { y with mem := y.mem.put x.home x.pa (p.completion y.ns w) } p) ∧
    -- the completion record comes after the counter's add has been performed
    (p.done = 1 → p.ccva ≠ 0 →
      s.agentAdd (taskKey p.id) p.ctx p.ccva (w64 (field p.record 32 4)) (queueId p.q) ⟨.taskRetire, p.id, 0⟩ = .ok () t →
      s.retireSteps p = (t.setTask { p with done := 2 }).repost ⟨.taskRetire, p.id, 0⟩) ∧
    (p.done = 2 → (∃ r ∈ s.mem.atoms, r.owner = taskKey p.id ∧ r.old = none) →
      s.retireSteps p = s.repost ⟨.taskRetire, p.id, 0⟩)

/-! ### Links, work entries, collectives, streams and trace -/

/-- R401 to R409, R413, R417, R418. Which translation faults refuse and which reject, port choice and frame details
beyond R402 are the model's choices (assumption logs 31, 32). -/
def Obligations.LinkUnitSteps : Prop :=
  ∀ (s t : State) (n lanes : Nat) (q : LinkReq) (x : LinkResp) (r : Remote) (xs : List (Xlate × Piece)) (y : Word → Xlate)
      (frame : List Byte) (seq ack : Nat) (fs : List (List Byte)) (off : Int) (b : List Byte),
    let p := s.port n
    let admitted := q.ctx < 4096 ∧ (s.ctxOf q.ctx).st ≠ .free ∧ (s.ctxOf q.ctx).st ≠ .tornDown ∧
      ∃ m ∈ (s.ctxOf q.ctx).peers, m.chip = q.src
    let carried := q.data.length = q.len ∧ q.len ≤ 1216 ∧ q.opd = 0 ∧ q.opd2 = 0
    let pages := pagePieces q.rva q.len
    -- pages that are in place here, with A and D as they are, and that nothing else holds up
    let placed := fun (wr : Bool) (ps : List Piece) => ∀ p ∈ ps, canonical p.1 = true ∧ s.mem.request? q.ctx p.1 = none ∧
      s.translate q.ctx [] none p.1 (if wr then .write else .read) = .ok (y p.1) s ∧ (y p.1).desc = false ∧ (y p.1).home ≠ 2
    -- a request that a peer sends: its encoding is sound, and its pages are in place, or translate to xs, leaving t
    let served := fun (wr : Bool) (ps : List Piece) (o : Out) (f : List (Xlate × Piece) → State → State) =>
      (placed wr ps → o = .next (f (ps.map fun p => (y p.1, p)) s)) ∧
      (State.linkXlate q.ctx wr ps s = .ok xs t → o = .next (f xs t))
    let add := fun (t : State) (e : Xlate × Piece) (op size : Nat) (new : Word) (post : Bool) => t.queueAtom
      ⟨atomEngine e.1.home e.1.pa, t.clock, 2 ^ 20 + n, q.tag, q.src, 2 ^ 20 + n, none, q.ctx, 65536, op, size, e.1.home, e.1.pa,
        q.opd, new, post, none⟩
    let write := q.opk = 0 ∧ q.opa = 0 ∧ q.fmt = 0 ∧ carried
    let f := (redFmt q.fmt.toNat).getD .s32
    let k := f.bits / 8
    let reduction := q.opk = 1 ∧ q.opa.toNat ≤ 2 ∧ (redFmt q.fmt.toNat).isSome = true ∧ carried ∧ q.rva.toNat % k = 0 ∧
      q.len % k = 0
    let read := q.opk = 2 ∧ q.opa = 0 ∧ q.fmt = 0 ∧ q.data = [] ∧ q.len ≤ 1216 ∧ q.opd = 0 ∧ q.opd2 = 0
    let notify := q.opk = 3 ∧ q.opa = 0 ∧ q.fmt = 0 ∧ q.data = [] ∧ q.len = 0 ∧ q.opd2 = 0 ∧ q.rva.toNat < 2 ^ 32
    let a := q.opa.toNat
    let size := if a / 16 % 2 = 1 then 8 else 4
    let op := if a / 32 % 2 = 1 then 10 else a % 16
    let atomic := q.opk = 4 ∧ q.fmt = 0 ∧ a < 64 ∧ a % 16 ≤ 9 ∧ (op = 10 → a % 16 = 0) ∧ ¬ (op = 9 ∧ size = 8) ∧ q.data = [] ∧
      q.len = 0 ∧ (op = 10 ∨ q.opd2 = 0) ∧ q.rva.toNat % size = 0
    let agree := q.opk = 5 ∧ a ≤ 4 ∧ q.data.length = q.len ∧ q.len ≤ 1232 ∧ q.opd2 = 0 ∧ getBits q.opd 24 8 = 0
    let c := s.ctxOf q.ctx
    (write → admitted → served true pages (exec (.linkWrite n q) s) fun xs t => (t.linkPut (fun _ b => b) xs q.data).answer n q 0) ∧
    (reduction → admitted → served true pages (exec (.linkWriteRed n q) s) fun xs t =>
      (t.linkPut (reduceBytes f a) xs q.data).answer n q 0) ∧
    (read → admitted → served false pages (exec (.linkRead n q) s) fun xs t =>
      t.answer n q 0 0 ((xs.map fun e => t.mem.bytes e.1.home e.1.pa e.2.2).flatten)) ∧
    -- a NOTIFY is an add of 8 bytes at its counter's home engine; an atomic is queued at the word's; the engine answers
    (notify → admitted →
      (q.rva.toNat < c.record.ncnt → served true [(counterVa c q.rva.toNat, 8)] (exec (.linkNotify n q) s) fun xs t =>
        match xs with | [] => t | e :: _ => add t e 0 8 0 true) ∧
      (c.record.ncnt ≤ q.rva.toNat → exec (.linkNotify n q) s = .next (s.answer n q 2))) ∧
    (atomic → admitted → served true [(q.rva, size)] (exec (.linkAtomic n q) s) fun xs t =>
      match xs with
      | [] => t
      | e :: _ => if e.1.home = 1 ∧ op ∉ [0, 8, 10] then t.answer n q 2 else add t e op size q.opd2 false) ∧
    (agree → admitted → (c.rankOf q.src).bind treeParent = some c.rank →
      let kept := { s with net := { s.net with agrees := s.net.agrees ++ [(n, q)] } }
      (s.net.colls.find? (fun e => e.2.ctx == q.ctx && e.2.n == q.rva.toNat) = none → c.colls ≤ q.rva.toNat →
        exec (.linkAgree n q) s = .next kept) ∧
      (∀ m, s.net.colls.find? (fun e => e.2.ctx == q.ctx && e.2.n == q.rva.toNat) = some m →
        exec (.linkAgree n q) s = .next (kept.postOnce .collectiveExpand m.1))) ∧
    -- a request that is not sound, not admitted, or whose pages are elsewhere
    (¬ write → exec (.linkWrite n q) s = .next (s.answer n q 3)) ∧ (¬ read → exec (.linkRead n q) s = .next (s.answer n q 3)) ∧
    (write → q.ctx < 4096 → ¬ admitted → exec (.linkWrite n q) s = .next (s.answer n q 2)) ∧
    (write → admitted → State.linkXlate q.ctx true pages s = .reject → exec (.linkWrite n q) s = .next (s.answer n q 2)) ∧
    (write → admitted → State.linkXlate q.ctx true pages s = .refuse t → exec (.linkWrite n q) s = .next (t.answer n q 1)) ∧
    (write → admitted → State.linkXlate q.ctx true pages s = .hold t →
      exec (.linkWrite n q) s = .next { t with net := { t.net with kept := t.net.kept ++ [(n, q)] } }) ∧
    -- a response to this chip's request
    (s.net.remote.find? (fun r => r.tag == x.tag.toNat && r.ctx == x.ctx && r.ans.isNone && r.sentAt.isSome) = some r →
      (x.status = 0 → exec (.linkResponse n x) s = .next (s.answerRemote r 0 x.data x.old)) ∧
      (x.status = 2 → exec (.linkResponse n x) s = .next (s.answerRemote r 4 [] 0)) ∧
      (x.status = 3 → exec (.linkResponse n x) s = .next (s.answerRemote r 2 [] 0)) ∧
      (x.status = 1 → s.ns ≤ r.since + (s.ctxOf r.ctx).holdNs →
        let due := s.ns + 1000 * (8 + x.hint.toNat % 8) * 2 ^ (x.hint.toNat / 8) / 8
        let again := s.net.remote.map fun q => if q.tag = r.tag then { q with sentAt := none, due } else q
        exec (.linkResponse n x) s =
          .next (State.postOnce { s with net := { s.net with remote := again } } .remoteRefusalRetry r.tag)) ∧
      (x.status = 1 → r.since + (s.ctxOf r.ctx).holdNs < s.ns →
        exec (.linkResponse n x) s = .next (s.answerRemote r 5 [] 0))) ∧
    -- link control and ports
    (exec (.linkKeepalive n) s = .next s) ∧
    (p.st = .training → exec (.linkWidth n lanes) s = .next (s.setPort n fun p => { p with peerLanes := lanes })) ∧
    (exec (.linkPause n) s = .next (s.setPort n fun p => { p with paused := true })) ∧
    (exec (.linkResume n) s = .next (State.pump (s.setPort n fun p => { p with paused := false }) n)) ∧
    (n < 16 → p.st = .down → exec (.portEnable n) s = .next (s.retrain n)) ∧
    (n < 16 → p.st ≠ .down → exec (.portEnable n) s = .next s) ∧
    (s.trains n = true →
      (2 ≤ min lanes p.peerLanes →
        let w := if 8 ≤ min lanes p.peerLanes then 8 else if 4 ≤ min lanes p.peerLanes then 4 else 2
        let up := s.setPort n fun p => { p with lanes := w, fails := 0, resends := 0, trainAt := none }
        exec (.portTrainingEnd n lanes) s = .next (((up.enterPort n (if w = 8 then .up else .degraded)).resend n).pump n)) ∧
      (min lanes p.peerLanes < 2 → exec (.portTrainingEnd n lanes) s = .next (s.trainFail n)) ∧
      (p.fails < 2 → exec (.portTrainingFail n) s =
        .next (s.setPort n fun p => { p with fails := p.fails + 1, trainAt := some (s.ns + 1000000) })) ∧
      (p.fails = 2 → exec (.portTrainingFail n) s = .next (s.movePort n .failed))) ∧
    (p.st = .up ∨ p.st = .degraded →
      exec (.portLaneLost n) s = .next (s.retrain n) ∧
      (let net := { s.net with ptpOff := off, holdover := false }
       exec (.ptpEventMessage n off) s = .next { s with net })) ∧
    (n < 16 → exec (.portDisable n) s = .next (s.movePort n .down)) ∧
    (p.st = .failed → exec (.portReset n) s = .next (s.enterPort n .down)) ∧
    (p.st ≠ .failed → exec (.portReset n) s = .next s) ∧
    (exec .grandmasterLoss s = .next { s with net := { s.net with holdover := true } }) ∧
    -- frames
    (p.st = .up ∨ p.st = .degraded → beNat ((frame.drop 12).take 2) = s.ctl.fw.etherType.toNat →
      (parseFrame frame = none → exec (.obdaokFrameReceive n frame) s = .next s.ignored) ∧
      (parseFrame frame = some (seq, ack, false, fs) →
        let w := s.setPort n fun p => p.acked ack
        let got := acceptFlits (p.rxSeq + 1) seq fs
        let w := w.setPort n fun p => { p with rxSeq := (p.rxSeq + got.1.length) % 4096, nak := got.2 }
        let w := got.1.foldl (State.flitIn n) w
        exec (.obdaokFrameReceive n frame) s = .next (State.pump (
          if got.2 || got.1.any fun f => field f 0 1 != 0 then w.sendAck n ((frame.drop 6).take 6) else w) n))) ∧
    (p.st ≠ .up → p.st ≠ .degraded → exec (.obdaokFrameReceive n frame) s = .next s) ∧
    (∀ next, acceptFlits next seq (b :: fs) = if seq % 4096 = next % 4096 ∧ flitOk b = true
      then (b :: (acceptFlits (next + 1) (seq + 1) fs).1, (acceptFlits (next + 1) (seq + 1) fs).2) else ([], true)) ∧
    ((∀ type payload, flitOk (mkFlit type payload) = true) ∧ crc32c [0x31, 0x32, 0x33, 0x34, 0x35, 0x36, 0x37, 0x38, 0x39] =
      0xE3069283)

/-- R410 to R416, R427 to R431, R437 to R447. What other ranks contribute is a free value (assumption log 16); the
stages of a collective are the model's own (assumption log 34). -/
def Obligations.WorkStreamAndTraceUnitSteps : Prop :=
  ∀ (s t u : State) (k n op die ctx sid src task since : Nat) (w : WorkEnt) (c : Coll) (o : AsyncOp) (b : List Byte) (v : Stream)
      (p : Task) (r : TraceRec) (va : Word) (arm : Bool) (hand : Nat) (last : Option Nat) (x : Xlate),
    -- acceptance of a chain's entry
    (s.Under k op o u → o.kind = .accept va false arm hand last →
      (∀ h ∈ u.cur.hand, h.held = true → h.id = hand → h.status = 0) → u.net.work.length < Config.armedEntries →
      u.ownXlate va .read = .ok x t → x.home ≠ 2 → t.mem.poisoned x.home x.pa 64 = false → b = t.mem.bytes x.home x.pa 64 →
      (qpeBad t.curCtx arm (qpeOf b) = none → (qpeOf b).next = 0 → exec (.linkChainAcceptance k op) s =
        s.backTo ((t.addEntry hand va arm last (qpeOf b)).2.accepted o hand)) ∧
      (∀ off, qpeBad t.curCtx arm (qpeOf b) = some off →
        exec (.linkChainAcceptance k op) s = s.backTo (t.badRecord o hand va off))) ∧
    -- work entries
    (SMap.get? s.net.work n = some w → w.fired = false → w.prev = none → s.armerAway w = false → w.e.armk = noCounter →
      (1 < w.e.op → exec (.workEntryFire n) s = .next (s.fireEntry n w [])) ∧
      (w.e.op ≤ 1 → s.Finds w.ctx w.e.lva w.e.len.toNat ⟨.workEntryFire, n, 0⟩ b →
        exec (.workEntryFire n) s = .next (s.fireEntry n w b)) ∧
      (w.e.op ≤ 1 → (agentBytes w.ctx w.e.lva w.e.len.toNat ⟨.workEntryFire, n, 0⟩ : Ag (List Byte)) s = .drop t →
        exec (.workEntryFire n) s = .next (t.failEntry n w 4))) ∧
    (SMap.get? s.net.work n = some w → w.fired = false → w.prev = none → s.armerAway w = false → w.e.armk ≠ noCounter →
      s.Finds w.ctx (counterVa (s.ctxOf w.ctx) w.e.armk.toNat) 8 ⟨.workEntryFire, n, 0⟩ b →
      ((w64 (leNat b) - w.e.armt).toInt < 0 → exec (.workEntryFire n) s = .next (s.repost ⟨.workEntryFire, n, 0⟩)) ∧
      (0 ≤ (w64 (leNat b) - w.e.armt).toInt → 1 < w.e.op → exec (.workEntryFire n) s = .next (s.fireEntry n w []))) ∧
    (SMap.get? s.net.work n = some w → w.fired = true → (∀ r ∈ s.net.remote, r.key ≠ 2 ^ 40 + n) →
      (∀ a ∈ s.mem.stores, a.key ≠ 2 ^ 40 + n) →
      (w.status ≠ 0 → exec (.workEntryComplete n) s = .next (s.failEntry n w w.status)) ∧
      (w.status = 0 →
        let x := { s with net := { s.net with work := SMap.del s.net.work n } }
        let y := if w.e.cmpk = noCounter then x
          else x.agentPut w.key w.ctx (counterVa (x.ctxOf w.ctx) w.e.cmpk.toNat) [] (some w.e.cinc) noSource
        exec (.workEntryComplete n) s = .next ((y.countHandle w.key w.hand).settleHandle w.key w.hand))) ∧
    -- collectives, stage by stage
    (SMap.get? s.net.colls n = some c →
      let item : Post := ⟨.collectiveExpand, n, 0⟩
      let earlier := fun (f : Coll → Bool) => s.net.colls.any fun e => decide (e.1 < n) && f e.2
      (c.stage = 0 → earlier (fun e => e.ctx % 16 == c.ctx % 16 && e.stage == 0) = false →
        exec (.collectiveExpand n) s = .next ((s.setColl n { c with stage := 1 }).repost item)) ∧
      (c.stage = 0 → earlier (fun e => e.ctx % 16 == c.ctx % 16 && e.stage == 0) = true →
        exec (.collectiveExpand n) s = .next (s.repost item)) ∧
      (c.stage = 1 → earlier (fun e => e.ctx == c.ctx) = false → c.armk = noCounter →
        exec (.collectiveExpand n) s = .next (s.fireColl n c item)) ∧
      (c.stage = 2 → exec (.collectiveExpand n) s = .next (s.gatherAgree n c item)) ∧
      (c.stage = 3 → exec (.collectiveExpand n) s = .next (s.takeAgree n c item)) ∧
      (c.stage = 4 → exec (.collectiveExpand n) s = .next (s.writeColl n c item)) ∧
      (c.stage = 5 → (∀ a ∈ s.mem.stores, a.key ≠ 2 ^ 41 + n) → exec (.collectiveExpand n) s = .next (s.endColl n c))) ∧
    -- link operations that outlast a task
    (s.task task = some p → p.linkSince = some since → s.taskOut task = true →
      ((s.ctxOf p.ctx).holdNs ≤ s.ns - since → exec (.linkHoldTimeout task) s = .next (State.postOnce ((s.abandonLinks task).updTask
        task fun k => { k with status := if k.status = 0 then 1 else k.status }) .taskRetire task)) ∧
      (s.ns - since < (s.ctxOf p.ctx).holdNs →
        exec (.linkHoldTimeout task) s = .next (s.postOnce .linkHoldTimeout task))) ∧
    -- streams
    (s.stream? ctx sid = some v →
      (v.due ≤ s.ns → (s.ctxOf ctx).res = true → exec (.cadenceTick ctx sid) s =
        .next (((s.setStream ctx sid { v with due := v.due + v.period }).tickStream ctx sid v.due).sendStep ctx sid)) ∧
      (s.ns < v.due → exec (.cadenceTick ctx sid) s = .next (s.sendStep ctx sid)) ∧
      (v.st = .waiting → (s.ctxOf ctx).res = true →
        (v.tick + v.grace ≤ s.ns → exec (.streamDeadline ctx sid) s = .next (s.beginStep ctx sid 1)) ∧
        (s.ns < v.tick + v.grace → exec (.streamDeadline ctx sid) s = .next (s.postOnce .streamDeadline ctx sid))) ∧
      (v.rd ≠ v.tail → v.pend.length < 256 → s.emitting (2 ^ 20 + 0x020) = false →
        s.InPlace ctx (v.ring + w64 (32 * (v.rd.toNat % 2 ^ v.rlog2))) .read ⟨.streamRecordAdmit, ctx, sid⟩ x → x.home ≠ 2 →
        b = s.mem.bytes x.home x.pa 32 →
        let m := { v with rd := v.rd + 1 }
        let x := ((s.setStream ctx sid m).admitRecord ctx sid m b).postOnce .streamRecordAdmit ctx sid
        exec (.streamRecordAdmit ctx sid) s = .next (match x.stream? ctx sid with
          | some y => if y.st = .waiting ∧ y.complete then x.beginStep ctx sid 0 else x
          | none => x)) ∧
      (v.rd = v.tail → exec (.streamRecordAdmit ctx sid) s = .next s)) ∧
    -- trace
    (exec (.traceSync die) s = .next (s.syncRecord die)) ∧
    (s.trc.wait.find? (fun w => w.1 == src) = some (src, since, r) →
      (mustStall s.trc r = true → exec (.traceEmitResume src) s = .next s) ∧
      (mustStall s.trc r = false → 2048 ≤ src → exec (.traceEmitResume src) s =
        .next { s with trc := Trace.accept { s.trc with wait := dropFirst src s.trc.wait } r }))

/-! ### Words, turns and reset -/

/-- Words and instructions correspond one to one (R59 to R78 and the field layouts of R63, R65, R66, R192, R211, R266,
R293, R335): no bit of an encoding is dropped and none is invented. -/
def Obligations.DecodeEncode : Prop :=
  (∀ (i : Instr) (w : W32 × Option W32) (following : Option W32), i.wellFormed = true → encode i = some w →
    decode w.1 (match w.2 with | some e => some e | none => following) = .ok i) ∧
  (∀ (w0 : W32) (w1 : Option W32) (i : Instr), decode w0 w1 = .ok i →
    i.wellFormed = true ∧ encode i = some (w0, if w0.getLsbD 25 then w1 else none))

/-- Words laid out from R60 and R62 to R78: ENG, WP WN SP SN, L, OPC, operands. -/
def Obligations.DecodedWords : Prop :=
  -- ENG WP WN SP SN L OPC operands
  decode (0b00#2 ++ 0#4 ++ 0#1 ++ 0x20#8 ++ 3#5 ++ 1#5 ++ 2#5 ++ 0#2) none = .ok (.add ⟨.a, Ring.of 0⟩ ⟨3, 1, 2, 0⟩) ∧
  decode (0b10#2 ++ 0b0101#4 ++ 0#1 ++ 0x40#8 ++ 3#5 ++ 1#5 ++ 0x7F#7) none = .ok (.addi ⟨.m, Ring.of 5⟩ ⟨3, 1, 127⟩ none) ∧
  decode (0b11#2 ++ 0#4 ++ 1#1 ++ 0x02#8 ++ 4#5 ++ 5#5 ++ 3#7) (some (0b11#2 ++ 0#3 ++ 0#11 ++ 1#16)) =
    .ok (.beq ⟨.w, Ring.of 0⟩ ⟨4, 5, 3⟩ (some ⟨0, 1⟩)) ∧
  decode (0b00#2 ++ 0#4 ++ 0#1 ++ 0xFF#8 ++ 3#5 ++ 0#12) none = .ok .endJ ∧
  decode (0b00#2 ++ 0b1000#4 ++ 1#1 ++ 0x60#8 ++ 0#5 ++ 0#5 ++ 7#5 ++ 0#2)
      (some (0b00#2 ++ 5#7 ++ 0#7 ++ 1#1 ++ 0#1 ++ 0#14)) = .ok (.talloc (Ring.of 8) ⟨0, 0, 7, 0⟩ ⟨5, 0, true, 0⟩) ∧
  decode (0b01#2 ++ 0#4 ++ 0#1 ++ 0x60#8 ++ 9#5 ++ 8#5 ++ 7#5 ++ 0#2) none = .ok (.vadd (Ring.of 0) ⟨9, 8, 7, 0⟩ none) ∧
  decode (0b10#2 ++ 0b0010#4 ++ 0#1 ++ 0x6B#8 ++ 0#17) none = .ok (.ngo (Ring.of 2)) ∧
  decode (0b11#2 ++ 0#4 ++ 0#1 ++ 0x63#8 ++ 0#5 ++ 6#5 ++ 7#5 ++ 0#2) none = .ok (.wpost (Ring.of 0) ⟨0, 6, 7, 0⟩) ∧
  decode (0b01#2 ++ 0#4 ++ 0#1 ++ 0xFF#8 ++ 0#17) none = .error .unassigned ∧
  decode (0b01#2 ++ 0#4 ++ 1#1 ++ 0x60#8 ++ 0#17) (some 0) = .error .extEngine

/-- How step reaches exec (R97); the order of turns is the model's own scheduling (assumption log 1). -/
def Obligations.StepRunsDecodedInstruction : Prop :=
  -- an engine's turn: the word at its pc, decoded
  (∀ (s : State) (g : Eng) (i : Instr),
    let p := (s.cur.engine g).pc
    let w := s.cur.wordsAt p
    s.Ready g → p < s.cur.text.length → isCont s.cur.text p = false → decode w.1 w.2 = .ok i →
    (s.turn = .eng g → putOffRank i = none ∨ g = .x ∨ g = .w → step s = s.turnFrom g (exec i s)) ∧
    (∀ r, s.turn = .eng g → putOffRank i = some r → g = .a ∨ g = .m → step s = .next ((s.putOff g r).turnAfter g)) ∧
    (s.turn = .again g → step s = s.againFrom g (exec i s))) ∧
  -- the outside acts and the units' steps, in the order of their tables
  (∀ (s : State) (i : Instr) (p : Post) (r n : Nat), s.turn = .units →
    (s.nextInput = some (r, n) → (∀ q, s.nextPost = some q → r ≤ q.1) → s.inputs[n]? = some i →
      (i.parts = none → s.takesInput i = true → step s = exec i { s with inputs := s.inputs.eraseIdx n }) ∧
      (s.takesInput i = false → step s = .next { s with inputs := s.inputs.eraseIdx n })) ∧
    (s.nextPost = some (r, n) → (∀ q, s.nextInput = some q → r < q.1) → s.todo[n]? = some p →
      step s = match runPost p { s with left := s.left - 1, todo := s.todo.eraseIdx n } with
        | .next t => .next (t.dropRead p)
        | o => o) ∧
    (s.nextInput = none → s.nextPost = none → step s = .next (s.strandTurn 0))) ∧
  (∀ (s : State) (i : Instr) (p : Post) (port lanes : Nat),
    (s.inputs = [] → s.nextInput = none) ∧
    (s.inputs = [i] → s.portHeld i = false → s.nextInput = some (s.inputRank i, 0)) ∧
    (s.inputs = [.portLaneLost port, .portTrainingEnd port lanes] → s.emitting (2 ^ 20 + port) = false →
      s.nextInput = some (510, 1)) ∧
    (s.left = 0 ∨ s.todo = [] → s.nextPost = none) ∧
    (s.todo = [p] → 1 ≤ s.left → s.nextPost = some (s.postRank p, 0)) ∧
    (s.ctl.fw.recovery = false → s.takesInput i = true)) ∧
  -- whose turn is next
  (∀ (s t : State) (g : Eng) (k n : Nat),
    (s.turn = .close → step s = .next { s.endPeriod with turn := .units, left := s.endPeriod.todo.length }) ∧
    ((s.cur.engine g).tri ≠ none ∨ (t.cur.engine g).tri = none → s.endTurn t g = t.turnAfter g) ∧
    ((s.cur.engine g).tri = none → (t.cur.engine g).tri ≠ none → s.endTurn t g = t) ∧
    s.turnAfter g = (match g with
      | .a => { s with turn := .eng .x }
      | .x => { s with turn := .eng .m }
      | .m => { s with turn := .eng .w }
      | .w => s.strandTurn (s.cur.key + 1)) ∧
    (s.runners.find? (fun n => decide (k ≤ n)) = some n → s.strandTurn k = { s.swapTo n with turn := .eng .a }) ∧
    (s.runners.find? (fun n => decide (k ≤ n)) = none → s.strandTurn k = s.toAgain) ∧
    (s.laters = [] → s.toAgain = { s with turn := .close }))

/-- Reset and the state of R94 with the table of R142. That unlisted memory reads as 0 and the values the spec does
not give are the model's choices (assumption logs 3, 6). -/
def Obligations.ResetState : Prop :=
  State.reset.memWf = true ∧ (∀ a, Memory.read State.reset.mem.dev a = 0 ∧ Memory.read State.reset.mem.host a = 0) ∧
  State.reset.cur.st = .free ∧ State.reset.others = [] ∧
  State.reset.ctl.ctxs = [] ∧ State.reset.work.tasks = [] ∧ State.reset.work.queues = [] ∧ State.reset.work.groups = [] ∧
  State.reset.work.bars = [] ∧ State.reset.work.serial = 0 ∧ State.reset.mem.reqs = [] ∧ State.reset.mem.pools = [] ∧
  State.reset.mem.frames = [] ∧ State.reset.strm = ⟨[], []⟩ ∧ State.reset.ctl.breaks = [] ∧
  (∀ n < 16, State.reset.trc.sinks.getD n .zero = .zero ∧ State.reset.net.ports.getD n .down = .down) ∧
  State.reset.trc.seqs = [] ∧ State.reset.trc.cnts = [] ∧ State.reset.trc.fps = [] ∧
  (∀ (key entry : Nat) (sh0 : List W32) (win : BitVec 9) (text : List W32) (g : Eng) (n : BitVec 5),
    let t := Strand.new key entry sh0 win text
    t.st = .staged ∧ (t.engine g).pc = entry ∧ t.reg g n = 0 ∧ t.x.timed = false ∧
    t.sh.getD 0 [] = sh0 ∧ (∀ k < 15, t.sh.getD (k + 1) [] = [0, 0, 0, 0]) ∧
    (∀ k < 8, t.ly.getD k none = none) ∧ t.tiles = [] ∧ t.acc = [] ∧ t.fl = [] ∧
    (∀ k m : Nat, (t.x.v.getD k []).getD m 0 = 0) ∧ (∀ k, 0 < k → t.x.pred k = 0) ∧ t.x.pred 0 = BitVec.allOnes 1024 ∧
    t.links = .empty ∧ (∀ k < 3, ((t.engine g).levels.getD k .off).cnt = 0 ∧ ((t.engine g).levels.getD k .off).active = false) ∧
    ∀ r ∈ [(0, 0), (4, win.setWidth 64), (5, 1048576), (6, 1), (7, 0), (8, 0), (9, 0), (19, 0), (20, 0), (21, 0), (22, 0),
           (23, 0), (24, 0), (25, 0), (26, 0), (28, 0), (29, 0), (30, 0), (31, (0 : Word))], t.sysReg 0 g r.1 = r.2)

/-- The canonical form of memory (addresses rising, nothing listed that reads as unlisted) is the model's own
invariant (assumption log 6); every way to memory keeps it. -/
def Obligations.MemoryKeepsItsCanonicalForm : Prop :=
  ∀ s : State, s.memWf = true →
    (∀ ctx ws core va acc x t, s.translate ctx ws core va acc = .ok x t → t.memWf = true) ∧
    (∀ ctx va b src item t, s.agentWrite ctx va b src item = .ok () t → t.memWf = true) ∧
    (∀ owner ctx va add src item t, s.agentAdd owner ctx va add src item = .ok () t → t.memWf = true) ∧
    (∀ key ctx va bytes add src, (s.agentPut key ctx va bytes add src).memWf = true) ∧
    (∀ home pa op n b new, ({ s with mem := (s.mem.atomic home pa op n b new).2 } : State).memWf = true) ∧
    (∀ va home pa bytes desc paths, (s.putBlock va home pa bytes desc paths).memWf = true) ∧
    (∀ v, (s.endMove v).memWf = true) ∧ (∀ r n, (writeSink r s n).memWf = true) ∧
    s.flushRings.memWf = true ∧ s.mergeTrace.memWf = true ∧
    (∀ fn host pa data t, exec (.hostMemoryWrite fn host pa data) s = .next t → t.memWf = true) ∧
    (∀ k t, exec (.pageMoveCopyDone k) s = .next t → t.memWf = true)

end Statements
end

