-- ==== Sys2Proof/Laws/Act.lean ====
section
/-! SUPPORT. What sequenced actions do: rewriting rules that run an action step by step. -/

namespace Sys2Proof.Machine

variable {α β γ : Type}

@[simp] theorem Act.pure_run (a : α) (s : State) : Act.pure a s = .ok a s := rfl
@[simp] theorem Act.get_run (s : State) : Act.get s = .ok s s := rfl
@[simp] theorem Act.modify_run (f : State → State) (s : State) : Act.modify f s = .ok () (f s) := rfl
@[simp] theorem Act.trap_run (c : Nat) (args : List Word) (s : State) :
    (Act.trap c args : Act α) s = .stop (.trap c args) := rfl
@[simp] theorem Act.wait_run (why : Nat) (s : State) : (Act.wait why : Act α) s = .stop (.wait why s) := rfl
@[simp] theorem Act.pure_bind (a : α) (f : α → Act β) : (Act.pure a).bind f = f a := rfl
@[simp] theorem Act.get_bind (f : State → Act β) (s : State) : Act.get.bind f s = f s s := rfl
@[simp] theorem Act.modify_bind (g : State → State) (f : Unit → Act β) (s : State) :
    (Act.modify g).bind f s = f () (g s) := rfl
@[simp] theorem Act.trap_bind (c : Nat) (args : List Word) (f : α → Act β) :
    (Act.trap c args : Act α).bind f = Act.trap c args := rfl
@[simp] theorem Act.wait_bind (why : Nat) (f : α → Act β) : (Act.wait why : Act α).bind f = Act.wait why := rfl
@[simp] theorem Act.then_bind (x : Act α) (y : Act β) : x.andThen y = x.bind fun _ => y := rfl
@[simp] theorem Act.bind_assoc (x : Act α) (f : α → Act β) (g : β → Act γ) :
    (x.bind f).bind g = x.bind fun a => (f a).bind g := by
  funext s
  simp only [Act.bind]
  cases x s <;> rfl
theorem Act.bind_of_ok {x : Act α} {f : α → Act β} {s t : State} {a : α} (h : x s = .ok a t) : x.bind f s = f a t := by
  simp only [Act.bind, h]
theorem Act.bind_of_stop {x : Act α} {f : α → Act β} {s : State} {r : Stop} (h : x s = .stop r) :
    x.bind f s = .stop r := by
  simp only [Act.bind, h]
@[simp] theorem Act.check_true (c : Nat) (args : List Word) : Act.check true c args = Act.pure () := rfl
@[simp] theorem Act.check_false (c : Nat) (args : List Word) : Act.check false c args = Act.trap c args := rfl
@[simp] theorem Act.until_true (why : Nat) : Act.until true why = Act.pure () := rfl
@[simp] theorem Act.until_false (why : Nat) : Act.until false why = Act.wait why := rfl
@[simp] theorem result_eq (d : BitVec 5) (v : Word) : result d v = Act.pure (Done.of [.reg d v]) := rfl
@[simp] theorem noResult_eq : noResult = Act.pure (Done.of []) := rfl
@[simp] theorem legal_true (g : Eng) : legal g true = Act.pure () := rfl
theorem legal_false (g : Eng) (s : State) : legal g false s = .stop (.trap tILLEGAL (s.cur.illegalArgs g)) := rfl

/-! ### Transfers of control -/

/-- A target inside the window passes every check of a transfer. -/
theorem Strand.checkTarget_none {t : Strand} {g : Eng} {n : Nat} (h1 : n < t.text.length)
    (h2 : isCont t.text n = false) (h3 : t.pc0.maxOther g ≤ n + t.sys.win.toNat) : t.checkTarget g n = none := by
  have h4 : ¬ n + t.sys.win.toNat < t.pc0.maxOther g := by omega
  have h5 : ¬ t.text.length ≤ n := by omega
  simp [Strand.checkTarget, h5, h2, Strand.below, h4]

theorem transfer_trap {s : State} {g : Eng} {n : Nat} {drop : Bool} {wb : List Wb} {code : Nat} {args : List Word}
    (h : s.cur.checkTarget g n = some (code, args)) : transfer g (n : Int) drop wb s = .stop (.trap code args) := by
  simp only [transfer, Act.get_bind]
  show (match s.cur.checkTarget g n with
    | some (code, args) => Act.trap code args
    | none => _ : Act Done) s = _
  rw [h]
  rfl

theorem transfer_keep {s : State} {g : Eng} {n : Nat} {wb : List Wb} (h : s.cur.checkTarget g n = none) :
    transfer g (n : Int) false wb s = .ok ⟨wb, some n⟩ s := by
  simp only [transfer, Act.get_bind]
  show (match s.cur.checkTarget g n with
    | some (code, args) => Act.trap code args
    | none => _ : Act Done) s = _
  rw [h]
  rfl

theorem transfer_drop {s : State} {g : Eng} {n : Nat} {wb : List Wb} (h : s.cur.checkTarget g n = none) :
    transfer g (n : Int) true wb s =
      .ok ⟨wb, some n⟩ (s.setEng g fun e => { e with levels := dropLevels e.levels n }) := by
  simp only [transfer, Act.get_bind]
  show (match s.cur.checkTarget g n with
    | some (code, args) => Act.trap code args
    | none => _ : Act Done) s = _
  rw [h]
  rfl

end Sys2Proof.Machine
end

