-- ==== Sys2Proof/Laws/Access.lean ====
section
/-! SUPPORT. What the accesses of a strand give: translations, loads, stores and the checks of addresses. -/

namespace Sys2Proof.Machine

theorem xlate_ok {s t : State} {va : Word} {acc : Access} {x : Xlate} (h : s.ownXlate va acc = .ok x t) :
    xlate va acc s = .ok x t := by
  simp only [State.ownXlate, State.curCore] at h
  simp only [xlate, h]

theorem xlate_fault {s : State} {va : Word} {acc : Access} {f : TFault} (h : s.ownXlate va acc = .fault f) :
    xlate va acc s = .stop (if f.code = 3 then .trap tPROTECT (faultArgs f none) else .fault f s) := by
  simp only [State.ownXlate, State.curCore] at h
  simp only [xlate, h]

/-- An aligned, canonical address passes the checks of R154. -/
theorem checkAddr_ok {va : Word} {n : Nat} {wr : Bool} (h : va.toNat % n = 0) (c : canonical va = true) :
    checkAddr va n wr = Act.pure () := by
  simp [checkAddr, h, c]

theorem checkAddr_misaligned {va : Word} {n : Nat} {wr : Bool} (h : va.toNat % n ≠ 0) (s : State) :
    checkAddr va n wr s = .stop (.trap tALIGN []) := by
  have h' : (va.toNat % n == 0) = false := by simpa using h
  simp [checkAddr, h']

theorem checkAddr_noncanonical {va : Word} {n : Nat} {wr : Bool} (h : va.toNat % n = 0) (c : canonical va = false)
    (s : State) : checkAddr va n wr s = .stop (.trap tPROTECT [va, w64 (256 * b2n wr)]) := by
  simp [checkAddr, h, c]

/-- A read of device or host memory that meets no uncorrectable error. -/
theorem readAt_ok {s : State} {x : Xlate} {va : Word} {n : Nat} (hh : x.home ≠ 2) (hp : s.mem.poisoned x.home x.pa n = false) :
    readAt x va n s = .ok (s.seen x.home x.pa n) (s.corrected x.home x.pa n) := by
  simp [readAt, hh, hp]

/-- A load that Loads describes. -/
theorem loadOne_ok {s u : State} {va : Word} {n : Nat} {note : Bool} {b : List Byte} (h : s.Loads va n note b u) :
    loadOne va n note s = .ok b u := by
  obtain ⟨x, t, hx, hh, hp, rfl, rfl⟩ := h
  simp only [loadOne]
  rw [Act.bind_of_ok (xlate_ok hx)]
  cases note <;> simp [noteRead, readAt, hh] at hp ⊢ <;> simp [hp]

theorem loadNat_ok {s u : State} {va : Word} {n : Nat} {note : Bool} {b : List Byte} (h : s.Loads va n note b u) :
    loadNat va n note s = .ok (leNat b) u := by
  simp only [loadNat]
  rw [Act.bind_of_ok (loadOne_ok h)]
  rfl

/-- Room for an entry, as Room says it. -/
theorem bufferRoom_ok {t u : State} {fits : List BufEntry → Bool} (h : t.Room (fits t.cur.ph.buf) u) :
    bufferRoom fits t = .ok () u := by
  simp only [bufferRoom, Act.get_bind]
  rcases h with ⟨h1, h2, rfl⟩ | ⟨h1, h2, rfl, h3, h4⟩ | ⟨h1, h2, h3, h4, rfl⟩
  · simp [h1, h2, storeReady]
  · simp [h1, h2, unrepeatAct, h3, h4]
  · simp [h1, h2, h3, h4, storeReady]

/-- A load whose page is not a peer's, into register d. -/
theorem loadLate_ok {s u : State} {opc : Nat} {d : BitVec 5} {va : Word} {n : Nat} {value : List Byte → Word} {signed : Bool}
    {b : List Byte} (h : s.Loads va n true b u) : loadLate opc d va n value signed s = .ok (.reg d (value b)) u := by
  obtain ⟨x, t, hx, hh, hp, rfl, rfl⟩ := h
  simp only [loadLate]
  rw [Act.bind_of_ok (xlate_ok hx)]
  simp only [noteRead, Act.then_bind, Act.modify_bind, hh, if_true, if_false] at hp ⊢
  rw [Act.bind_of_ok (readAt_ok hh hp)]
  rfl

/-- A store that Stores describes. -/
theorem storeBytes_ok {s u : State} {va : Word} {b : List Byte} {desc : Option W16} {strl : Bool} {path : Nat}
    (h : s.Stores va b desc strl u path) : storeBytes va b desc strl path s = .ok () u := by
  obtain ⟨x, t, w, hx, hr, hs, rfl⟩ := h
  simp only [storeBytes]
  rw [Act.bind_of_ok (xlate_ok hx)]
  have hr := bufferRoom_ok (fits := fun buf => (bufStore buf (blockOf x va b desc strl path)).isSome) hr
  simp only [blockOf] at hr hs
  simp only [Act.then_bind]
  rw [Act.bind_of_ok hr]
  have hk : (!(strl && x.ord == 1) || !w.cur.awaiting) = true := by
    cases hw : (strl && x.ord == 1)
    · rfl
    · simp [hs hw]
  simp only [Act.get_bind, hk, Act.until_true, Act.pure_bind, Act.modify_run, blockOf]

/-! ### Ranges inside one page -/

theorem pieces_one {size fuel va n : Nat} (h0 : 0 < n) (h : va % size + n ≤ size) :
    pieces size (fuel + 1) va n = [(w64 va, n)] := by
  have hm : min n (size - va % size) = n := by omega
  have hn : n ≠ 0 := by omega
  cases fuel <;> simp [pieces, hm, hn]

theorem pagePieces_one {va : Word} {n : Nat} (h0 : 0 < n) (h : va.toNat % 65536 + n ≤ 65536) : pagePieces va n = [(va, n)] := by
  simp only [pagePieces]
  rw [show n / 65536 + 2 = n / 65536 + 1 + 1 from rfl, pieces_one h0 h]
  simp [w64]

/-- A load of a range inside one page that Loads describes. -/
theorem loadBytes_ok {s u : State} {va : Word} {n : Nat} {note : Bool} {b : List Byte} (h0 : 0 < n)
    (hp : va.toNat % 65536 + n ≤ 65536) (hc : canonical va = true) (h : s.Loads va n note b u) :
    loadBytes va n note s = .ok b u := by
  obtain ⟨x, t, hx, hh, hs, rfl, rfl⟩ := h
  have hl : xlateAll .read [(va, n)] s = .ok [(x, va, n)] t := by
    simp only [xlateAll, hc, Act.check_true]
    rw [show (Act.pure ()).andThen (xlate va .read) s = xlate va .read s from rfl, xlate_ok hx]
    rfl
  have hq : ∀ v : State, (peerAll ([(x, va, n)].map fun e => if e.1.home = 2 then
      (requestsOf e.1.pa e.2.2).map fun p => v.peerRequest 2 (e.1.pa + p.1) p.2 [] else []).flatten : Act Unit) = Act.pure () := by
    intro v; simp [hh]; rfl
  have hr : ∀ v : State, v.mem.poisoned x.home x.pa n = false →
      Act.map (fun e : Xlate × Piece => readAt e.1 e.2.1 e.2.2) [(x, va, n)] v
        = .ok [v.seen x.home x.pa n] (v.corrected x.home x.pa n) := by
    intro v hv
    simp only [Act.map]
    rw [Act.bind_of_ok (readAt_ok hh hv)]
    rfl
  have hd : ∀ v : State, v = (if note then t.setCur fun c => { c with ph := c.ph.note va } else t) →
      v.mem.poisoned x.home x.pa n = false →
      readPieces [(va, n)] note s = .ok [v.seen x.home x.pa n] (v.corrected x.home x.pa n) := by
    intro v hv hs
    simp only [readPieces]
    rw [Act.bind_of_ok hl]
    cases note <;> simp only [Act.then_bind, if_true, Bool.false_eq_true, if_false, Act.each, noteRead, Act.modify_bind, Act.pure_bind,
      Act.bind_assoc] at hv ⊢ <;> subst hv <;>
      simp only [Act.get_bind, hq, Act.pure_bind] <;> exact hr _ hs
  simp only [loadBytes, pagePieces_one h0 hp]
  rw [Act.bind_of_ok (hd _ rfl hs)]
  simp

/-! ### Hub agents -/

theorem agentXlate_ok {s : State} {ctx src : Nat} {va : Word} {wr : Bool} {acc : Access} {item : Post} {x : Xlate}
    (h : s.InPlace ctx va acc item x) : s.agentXlate ctx va wr src item acc = .ok x s := by
  obtain ⟨hc, ht, hw⟩ := h
  have hn : ∀ w ∈ s.mem.waits, w.is ctx va item = false := by
    intro w m
    simp [AgentWait.is, hw w m]
  have hf : (s.mem.waits.find? fun w => w.is ctx va item) = none := by
    rw [List.find?_eq_none]; intro w m; simp [hn w m]
  have ho : (s.mem.waits.filter fun w => !w.is ctx va item) = s.mem.waits := by
    rw [List.filter_eq_self]; intro w m; simp [hn w m]
  simp [State.agentXlate, hf, ho, hc, ht]

theorem agentRead_ok {s : State} {ctx src n : Nat} {va : Word} {acc : Access} {item : Post} {x : Xlate}
    (h : s.InPlace ctx va acc item x) (hh : x.home ≠ 2) :
    s.agentRead ctx va n src item acc = .ok (s.mem.bytes x.home x.pa n) s := by
  simp [State.agentRead, agentXlate_ok h, hh]

theorem agentWrite_ok {s : State} {ctx src : Nat} {va : Word} {b : List Byte} {item : Post} {x : Xlate}
    (h : s.InPlace ctx va .write item x) (hh : x.home ≠ 2) :
    s.agentWrite ctx va b src item = .ok () { s with mem := s.mem.put x.home x.pa b } := by
  simp [State.agentWrite, agentXlate_ok h, hh]

theorem Ag.each_ok {α β : Type} {f : α → Ag β} {g : α → β} {s : State} : ∀ {l : List α},
    (∀ a ∈ l, f a s = .ok (g a) s) → Ag.each f l s = .ok (l.map g) s
  | [], _ => rfl
  | a :: l, h => by
    have ha := h a (List.mem_cons_self ..)
    have hl := Ag.each_ok (f := f) (g := g) (s := s) (l := l) fun b m => h b (List.mem_cons_of_mem _ m)
    simp [Ag.each, Ag.bind, Ag.pure, ha, hl]

/-- What an agent finds is what it reads. -/
theorem agentBytes_ok {s : State} {ctx n : Nat} {va : Word} {item : Post} {b : List Byte} (h : s.Finds ctx va n item b) :
    agentBytes ctx va n item .read s = .ok b s := by
  obtain ⟨x, hp, rfl⟩ := h
  have := Ag.each_ok (f := fun (p : Piece) (s : State) => s.agentRead ctx p.1 p.2 noSource item .read)
    (g := fun p => s.mem.bytes (x p.1).home (x p.1).pa p.2) (s := s) fun p m => agentRead_ok (hp p m).1 (hp p m).2
  simp [agentBytes, Ag.bind, Ag.pure, this]

/-! ### Link engines -/

theorem linkXlate_ok {s : State} {ctx : Nat} {wr : Bool} {x : Word → Xlate} : ∀ {ps : List Piece},
    (∀ p ∈ ps, canonical p.1 = true ∧ s.mem.request? ctx p.1 = none ∧
      s.translate ctx [] none p.1 (if wr then .write else .read) = .ok (x p.1) s ∧ (x p.1).desc = false ∧ (x p.1).home ≠ 2) →
    State.linkXlate ctx wr ps s = .ok (ps.map fun p => (x p.1, p)) s
  | [], _ => rfl
  | p :: ps, h => by
    obtain ⟨h1, h2, h3, h4, h5⟩ := h p (List.mem_cons_self ..)
    have ih := linkXlate_ok (ctx := ctx) (wr := wr) (x := x) (s := s) (ps := ps) fun q m => h q (List.mem_cons_of_mem _ m)
    simp [State.linkXlate, h1, h2, h3, h4, h5, ih]

end Sys2Proof.Machine
end

