-- ==== Sys2Proof/Laws/Issue.lean ====
section
/-! SUPPORT. What the issue of an instruction does: one lemma for each way it ends. -/

namespace Sys2Proof.Machine

/-! ### Results that land as a tick begins (R119) -/

theorem Strand.landDue_calm {t : Strand} (h : t.Calm) : t.landDue = (t, none) := by
  have h1 : t.fl.filter t.due = [] := by
    rw [List.filter_eq_nil_iff]
    intro f hf
    simp [h f hf]
  have h2 : (t.fl.filter fun f => !t.due f) = t.fl := by
    rw [List.filter_eq_self]
    intro f hf
    simp [h f hf]
  simp [Strand.landDue, h1, h2]

theorem landed_calm {s : State} {g : Eng} (h : g = .x → s.cur.Calm) : s.landed g = s := by
  simp only [State.landed]
  split
  · rename_i hg
    simp [State.setCur, Strand.landDue_calm (h hg)]
  · rfl

theorem unland_calm {s u : State} {g : Eng} (h : g = .x → s.cur.Calm) : u.unland s g = u := by
  simp only [State.unland]
  split
  · rename_i hg
    have k := h hg.1
    have : s.cur.fl.any s.cur.due = false := by
      rw [List.any_eq_false]
      intro f hf
      simp [k f hf]
    simp [this] at hg
  · rfl

/-! ### Sources -/

/-- One value is read for each source. -/
theorem Strand.readSrcs_length {t : Strand} {g : Eng} {ss : List (BitVec 5 × Bool)} {l : Links} {vs : List Word} {l' : Links}
    (h : t.readSrcs g ss l = .ok vs l') : vs.length = ss.length := by
  induction ss generalizing l vs with
  | nil =>
    simp only [Strand.readSrcs, Srcs.ok.injEq] at h
    simp [← h.1]
  | cons p rest ih =>
    obtain ⟨r, pk⟩ := p
    simp only [Strand.readSrcs] at h
    split at h
    · split at h
      · split at h <;> cases h
      · split at h
        · cases h
          rename_i h1
          simp [ih h1]
        · rename_i h1
          exact absurd h (h1 _ _)
    · split at h
      · cases h
        rename_i h1
        simp [ih h1]
      · rename_i h1
        exact absurd h (h1 _ _)

theorem State.Goes.length {s : State} {q : Issue} {vs : List Word} {l : Links} (h : s.Goes q vs l) :
    vs.length = q.srcs.length := Strand.readSrcs_length h.reads

/-! ### The ways an issue ends -/

/-- What the issue stage of an instruction that goes does with its body's outcome. -/
theorem issue_goes {q : Issue} {body : List Word → Act Done} {s : State} {vs : List Word} {l : Links} (hg : s.Goes q vs l) :
    issue q body s = match body vs s with
      | .ok d u => .next (s.complete s.cur u q l.popped d)
      | .stop (.trap code args) => .next (s.takeTrap q.g code args)
      | .stop (.wait why u) => .next (u.stall q.g why)
      | .stop (.fault f u) => .next ((u.phaseFault q.g none f q.opc).stall q.g 0)
      | .stop (.uncorr st va u) => .next (u.uncorr st va)
      | .stop (.lost va us) => .next (s.takeTrap q.g tTIMEOUT (s.cur.timeoutArgs va q.opc us))
      | .stop .absent => .fault .absentMemory := by
  have hl := landed_calm hg.calm
  have hu : ∀ u : State, u.unland s q.g = u := fun u => unland_calm hg.calm
  have hb := hg.bank
  simp only [issue, hg.legal, hg.early, hg.waits, hl, hg.reads, hg.await, hg.unit, hb, hg.sound.1, hg.sound.2, hu]
  rfl

/-- An instruction that goes and whose body completes. -/
theorem issue_next {q : Issue} {body : List Word → Act Done} {s u : State} {vs : List Word} {l : Links} {d : Done}
    (hg : s.Goes q vs l) (hb : body vs s = .ok d u) : issue q body s = .next (u.finish q l d) := by
  have hv : (s.cur.engine q.g).tri.isNone = true ∨ s.plant.upsets.isEmpty = true := by
    rcases hg.votes with h | h <;> simp [h]
  rw [issue_goes hg, hb]
  simp only [State.complete, State.finish]
  rw [if_neg (by rintro ⟨a, -, b⟩; simp [hg.room a] at b), if_pos hv]

/-- An instruction that goes and whose body traps. -/
theorem issue_trap {q : Issue} {body : List Word → Act Done} {s : State} {vs : List Word} {l : Links} {code : Nat}
    {args : List Word} (hg : s.Goes q vs l) (hb : body vs s = .stop (.trap code args)) :
    issue q body s = .next (s.takeTrap q.g code args) := by
  rw [issue_goes hg, hb]

/-- An instruction that goes and whose body waits. -/
theorem issue_wait {q : Issue} {body : List Word → Act Done} {s u : State} {vs : List Word} {l : Links} {why : Nat}
    (hg : s.Goes q vs l) (hb : body vs s = .stop (.wait why u)) : issue q body s = .next (u.stall q.g why) := by
  rw [issue_goes hg, hb]

/-- An instruction that goes and whose body meets a translation fault. -/
theorem issue_fault {q : Issue} {body : List Word → Act Done} {s u : State} {vs : List Word} {l : Links} {f : TFault}
    (hg : s.Goes q vs l) (hb : body vs s = .stop (.fault f u)) :
    issue q body s = .next ((u.phaseFault q.g none f q.opc).stall q.g 0) := by
  rw [issue_goes hg, hb]

/-- An instruction that goes and gives one scalar result. -/
theorem issue_gives {q : Issue} {body : List Word → Act Done} {s : State} {vs : List Word} {l : Links} {d : BitVec 5}
    {v : Word} (hg : s.Goes q vs l) (hb : body vs s = .ok (.of [.reg d v]) s) : issue q body s = s.gives q l d v :=
  issue_next hg hb

/-- An instruction that goes and gives no result. -/
theorem issue_ends {q : Issue} {body : List Word → Act Done} {s u : State} {vs : List Word} {l : Links}
    (hg : s.Goes q vs l) (hb : body vs s = .ok (.of []) u) : issue q body s = u.ends q l := issue_next hg hb

/-- An instruction that goes and transfers control. -/
theorem issue_goesTo {q : Issue} {body : List Word → Act Done} {s u : State} {vs : List Word} {l : Links}
    {wb : List Wb} {n : Nat} (hg : s.Goes q vs l) (hb : body vs s = .ok ⟨wb, some n⟩ u) :
    issue q body s = u.goesTo q l wb n := issue_next hg hb

end Sys2Proof.Machine
end

