-- ==== Sys2Proof/Laws/State.lean ====
section
/-! SUPPORT. Fields after the basic updates of the state, of the strand at the front and of its engines. -/

namespace Sys2Proof.Machine

/-! ### One value for each engine -/

@[simp] theorem PerEng.get_set {α : Type} (p : PerEng α) (g : Eng) (v : α) : (p.set g v).get g = v := by cases g <;> rfl
theorem PerEng.get_set_ne {α : Type} (p : PerEng α) {g h : Eng} (v : α) (n : h ≠ g) : (p.set g v).get h = p.get h := by
  cases g <;> cases h <;> first | rfl | exact absurd rfl n
@[simp] theorem PerEng.set_set {α : Type} (p : PerEng α) (g : Eng) (v w : α) : (p.set g v).set g w = p.set g w := by
  cases g <;> rfl
@[simp] theorem PerEng.set_get {α : Type} (p : PerEng α) (g : Eng) : p.set g (p.get g) = p := by cases g <;> rfl
@[simp] theorem PerEng.get_map {α β : Type} (p : PerEng α) (f : α → β) (g : Eng) : (p.map f).get g = f (p.get g) := by
  cases g <;> rfl
@[simp] theorem PerEng.get_all {α : Type} (v : α) (g : Eng) : (PerEng.all v).get g = v := by cases g <;> rfl

/-! ### The state -/

@[simp] theorem State.setCur_turn (s : State) (f : Strand → Strand) : (s.setCur f).turn = s.turn := rfl
@[simp] theorem State.setEng_turn (s : State) (g : Eng) (f : Engine → Engine) : (s.setEng g f).turn = s.turn := rfl
@[simp] theorem State.setPhase_turn (s : State) (f : Phase → Phase) : (s.setPhase f).turn = s.turn := rfl
@[simp] theorem State.setCur_clock (s : State) (f : Strand → Strand) : (s.setCur f).clock = s.clock := rfl
@[simp] theorem State.setEng_clock (s : State) (g : Eng) (f : Engine → Engine) : (s.setEng g f).clock = s.clock := rfl
@[simp] theorem State.setPhase_clock (s : State) (f : Phase → Phase) : (s.setPhase f).clock = s.clock := rfl
@[simp] theorem State.setCur_cur (s : State) (f : Strand → Strand) : (s.setCur f).cur = f s.cur := rfl
@[simp] theorem State.setEng_cur (s : State) (g : Eng) (f : Engine → Engine) : (s.setEng g f).cur = s.cur.setEngine g f := rfl
@[simp] theorem State.setPhase_cur (s : State) (f : Phase → Phase) : (s.setPhase f).cur = { s.cur with ph := f s.cur.ph } := rfl
@[simp] theorem State.setCur_others (s : State) (f : Strand → Strand) : (s.setCur f).others = s.others := rfl
@[simp] theorem State.setEng_others (s : State) (g : Eng) (f : Engine → Engine) : (s.setEng g f).others = s.others := rfl
@[simp] theorem State.setPhase_others (s : State) (f : Phase → Phase) : (s.setPhase f).others = s.others := rfl
@[simp] theorem State.setCur_inputs (s : State) (f : Strand → Strand) : (s.setCur f).inputs = s.inputs := rfl
@[simp] theorem State.setEng_inputs (s : State) (g : Eng) (f : Engine → Engine) : (s.setEng g f).inputs = s.inputs := rfl
@[simp] theorem State.setPhase_inputs (s : State) (f : Phase → Phase) : (s.setPhase f).inputs = s.inputs := rfl
@[simp] theorem State.setCur_todo (s : State) (f : Strand → Strand) : (s.setCur f).todo = s.todo := rfl
@[simp] theorem State.setEng_todo (s : State) (g : Eng) (f : Engine → Engine) : (s.setEng g f).todo = s.todo := rfl
@[simp] theorem State.setPhase_todo (s : State) (f : Phase → Phase) : (s.setPhase f).todo = s.todo := rfl
@[simp] theorem State.setCur_left (s : State) (f : Strand → Strand) : (s.setCur f).left = s.left := rfl
@[simp] theorem State.setEng_left (s : State) (g : Eng) (f : Engine → Engine) : (s.setEng g f).left = s.left := rfl
@[simp] theorem State.setPhase_left (s : State) (f : Phase → Phase) : (s.setPhase f).left = s.left := rfl
@[simp] theorem State.setCur_free (s : State) (f : Strand → Strand) : (s.setCur f).free = s.free := rfl
@[simp] theorem State.setEng_free (s : State) (g : Eng) (f : Engine → Engine) : (s.setEng g f).free = s.free := rfl
@[simp] theorem State.setPhase_free (s : State) (f : Phase → Phase) : (s.setPhase f).free = s.free := rfl
@[simp] theorem State.setCur_mem (s : State) (f : Strand → Strand) : (s.setCur f).mem = s.mem := rfl
@[simp] theorem State.setEng_mem (s : State) (g : Eng) (f : Engine → Engine) : (s.setEng g f).mem = s.mem := rfl
@[simp] theorem State.setPhase_mem (s : State) (f : Phase → Phase) : (s.setPhase f).mem = s.mem := rfl
@[simp] theorem State.setCur_work (s : State) (f : Strand → Strand) : (s.setCur f).work = s.work := rfl
@[simp] theorem State.setEng_work (s : State) (g : Eng) (f : Engine → Engine) : (s.setEng g f).work = s.work := rfl
@[simp] theorem State.setPhase_work (s : State) (f : Phase → Phase) : (s.setPhase f).work = s.work := rfl
@[simp] theorem State.setCur_ctl (s : State) (f : Strand → Strand) : (s.setCur f).ctl = s.ctl := rfl
@[simp] theorem State.setEng_ctl (s : State) (g : Eng) (f : Engine → Engine) : (s.setEng g f).ctl = s.ctl := rfl
@[simp] theorem State.setPhase_ctl (s : State) (f : Phase → Phase) : (s.setPhase f).ctl = s.ctl := rfl
@[simp] theorem State.setCur_net (s : State) (f : Strand → Strand) : (s.setCur f).net = s.net := rfl
@[simp] theorem State.setEng_net (s : State) (g : Eng) (f : Engine → Engine) : (s.setEng g f).net = s.net := rfl
@[simp] theorem State.setPhase_net (s : State) (f : Phase → Phase) : (s.setPhase f).net = s.net := rfl
@[simp] theorem State.setCur_strm (s : State) (f : Strand → Strand) : (s.setCur f).strm = s.strm := rfl
@[simp] theorem State.setEng_strm (s : State) (g : Eng) (f : Engine → Engine) : (s.setEng g f).strm = s.strm := rfl
@[simp] theorem State.setPhase_strm (s : State) (f : Phase → Phase) : (s.setPhase f).strm = s.strm := rfl
@[simp] theorem State.setCur_trc (s : State) (f : Strand → Strand) : (s.setCur f).trc = s.trc := rfl
@[simp] theorem State.setEng_trc (s : State) (g : Eng) (f : Engine → Engine) : (s.setEng g f).trc = s.trc := rfl
@[simp] theorem State.setPhase_trc (s : State) (f : Phase → Phase) : (s.setPhase f).trc = s.trc := rfl
@[simp] theorem State.setCur_plant (s : State) (f : Strand → Strand) : (s.setCur f).plant = s.plant := rfl
@[simp] theorem State.setEng_plant (s : State) (g : Eng) (f : Engine → Engine) : (s.setEng g f).plant = s.plant := rfl
@[simp] theorem State.setPhase_plant (s : State) (f : Phase → Phase) : (s.setPhase f).plant = s.plant := rfl

/-! ### The strand -/

@[simp] theorem Strand.setEngine_key (t : Strand) (g : Eng) (f : Engine → Engine) : (t.setEngine g f).key = t.key := rfl
@[simp] theorem Strand.setEngine_st (t : Strand) (g : Eng) (f : Engine → Engine) : (t.setEngine g f).st = t.st := rfl
@[simp] theorem Strand.setEngine_back (t : Strand) (g : Eng) (f : Engine → Engine) : (t.setEngine g f).back = t.back := rfl
@[simp] theorem Strand.setEngine_fresh (t : Strand) (g : Eng) (f : Engine → Engine) : (t.setEngine g f).fresh = t.fresh := rfl
@[simp] theorem Strand.setEngine_priv (t : Strand) (g : Eng) (f : Engine → Engine) : (t.setEngine g f).priv = t.priv := rfl
@[simp] theorem Strand.setEngine_task (t : Strand) (g : Eng) (f : Engine → Engine) : (t.setEngine g f).task = t.task := rfl
@[simp] theorem Strand.setEngine_kern (t : Strand) (g : Eng) (f : Engine → Engine) : (t.setEngine g f).kern = t.kern := rfl
@[simp] theorem Strand.setEngine_entry (t : Strand) (g : Eng) (f : Engine → Engine) : (t.setEngine g f).entry = t.entry := rfl
@[simp] theorem Strand.setEngine_text (t : Strand) (g : Eng) (f : Engine → Engine) : (t.setEngine g f).text = t.text := rfl
@[simp] theorem Strand.setEngine_nslots (t : Strand) (g : Eng) (f : Engine → Engine) : (t.setEngine g f).nslots = t.nslots := rfl
@[simp] theorem Strand.setEngine_wins (t : Strand) (g : Eng) (f : Engine → Engine) : (t.setEngine g f).wins = t.wins := rfl
@[simp] theorem Strand.setEngine_regs (t : Strand) (g : Eng) (f : Engine → Engine) : (t.setEngine g f).regs = t.regs := rfl
@[simp] theorem Strand.setEngine_eng (t : Strand) (g : Eng) (f : Engine → Engine) : (t.setEngine g f).eng = t.eng.set g (f (t.eng.get g)) := rfl
@[simp] theorem Strand.setEngine_pc0 (t : Strand) (g : Eng) (f : Engine → Engine) : (t.setEngine g f).pc0 = t.pc0 := rfl
@[simp] theorem Strand.setEngine_links (t : Strand) (g : Eng) (f : Engine → Engine) : (t.setEngine g f).links = t.links := rfl
@[simp] theorem Strand.setEngine_sys (t : Strand) (g : Eng) (f : Engine → Engine) : (t.setEngine g f).sys = t.sys := rfl
@[simp] theorem Strand.setEngine_x (t : Strand) (g : Eng) (f : Engine → Engine) : (t.setEngine g f).x = t.x := rfl
@[simp] theorem Strand.setEngine_sh (t : Strand) (g : Eng) (f : Engine → Engine) : (t.setEngine g f).sh = t.sh := rfl
@[simp] theorem Strand.setEngine_ly (t : Strand) (g : Eng) (f : Engine → Engine) : (t.setEngine g f).ly = t.ly := rfl
@[simp] theorem Strand.setEngine_lates (t : Strand) (g : Eng) (f : Engine → Engine) : (t.setEngine g f).lates = t.lates := rfl
@[simp] theorem Strand.setEngine_fl (t : Strand) (g : Eng) (f : Engine → Engine) : (t.setEngine g f).fl = t.fl := rfl
@[simp] theorem Strand.setEngine_seq (t : Strand) (g : Eng) (f : Engine → Engine) : (t.setEngine g f).seq = t.seq := rfl
@[simp] theorem Strand.setEngine_aside (t : Strand) (g : Eng) (f : Engine → Engine) : (t.setEngine g f).aside = t.aside := rfl
@[simp] theorem Strand.setEngine_tiles (t : Strand) (g : Eng) (f : Engine → Engine) : (t.setEngine g f).tiles = t.tiles := rfl
@[simp] theorem Strand.setEngine_lring (t : Strand) (g : Eng) (f : Engine → Engine) : (t.setEngine g f).lring = t.lring := rfl
@[simp] theorem Strand.setEngine_ops (t : Strand) (g : Eng) (f : Engine → Engine) : (t.setEngine g f).ops = t.ops := rfl
@[simp] theorem Strand.setEngine_ixres (t : Strand) (g : Eng) (f : Engine → Engine) : (t.setEngine g f).ixres = t.ixres := rfl
@[simp] theorem Strand.setEngine_shadow (t : Strand) (g : Eng) (f : Engine → Engine) : (t.setEngine g f).shadow = t.shadow := rfl
@[simp] theorem Strand.setEngine_nest (t : Strand) (g : Eng) (f : Engine → Engine) : (t.setEngine g f).nest = t.nest := rfl
@[simp] theorem Strand.setEngine_pend (t : Strand) (g : Eng) (f : Engine → Engine) : (t.setEngine g f).pend = t.pend := rfl
@[simp] theorem Strand.setEngine_acc (t : Strand) (g : Eng) (f : Engine → Engine) : (t.setEngine g f).acc = t.acc := rfl
@[simp] theorem Strand.setEngine_ph (t : Strand) (g : Eng) (f : Engine → Engine) : (t.setEngine g f).ph = t.ph := rfl
@[simp] theorem Strand.setEngine_joins (t : Strand) (g : Eng) (f : Engine → Engine) : (t.setEngine g f).joins = t.joins := rfl
@[simp] theorem Strand.setEngine_hand (t : Strand) (g : Eng) (f : Engine → Engine) : (t.setEngine g f).hand = t.hand := rfl
@[simp] theorem Strand.setEngine_step (t : Strand) (g : Eng) (f : Engine → Engine) : (t.setEngine g f).step = t.step := rfl
@[simp] theorem Strand.setEngine_dead (t : Strand) (g : Eng) (f : Engine → Engine) : (t.setEngine g f).dead = t.dead := rfl
@[simp] theorem Strand.setEngine_later (t : Strand) (g : Eng) (f : Engine → Engine) : (t.setEngine g f).later = t.later := rfl
@[simp] theorem Strand.setEngine_stalls (t : Strand) (g : Eng) (f : Engine → Engine) : (t.setEngine g f).stalls = t.stalls := rfl
@[simp] theorem Strand.setEngine_preempt (t : Strand) (g : Eng) (f : Engine → Engine) : (t.setEngine g f).preempt = t.preempt := rfl
@[simp] theorem Strand.setEngine_gy (t : Strand) (g : Eng) (f : Engine → Engine) : (t.setEngine g f).gy = t.gy := rfl
@[simp] theorem Strand.setEngine_kept (t : Strand) (g : Eng) (f : Engine → Engine) : (t.setEngine g f).kept = t.kept := rfl
@[simp] theorem Strand.setEngine_took (t : Strand) (g : Eng) (f : Engine → Engine) : (t.setEngine g f).took = t.took := rfl
@[simp] theorem Strand.setEngine_node (t : Strand) (g : Eng) (f : Engine → Engine) : (t.setEngine g f).node = t.node := rfl
@[simp] theorem Strand.setEngine_engine (t : Strand) (g : Eng) (f : Engine → Engine) :
    (t.setEngine g f).engine g = f (t.engine g) := by simp [Strand.engine]
theorem Strand.setEngine_engine_ne (t : Strand) {g h : Eng} (f : Engine → Engine) (n : h ≠ g) :
    (t.setEngine g f).engine h = t.engine h := by simp [Strand.engine, PerEng.get_set_ne _ _ n]
@[simp] theorem Strand.setEngine_setEngine (t : Strand) (g : Eng) (f k : Engine → Engine) :
    (t.setEngine g f).setEngine g k = t.setEngine g fun e => k (f e) := by simp [Strand.setEngine]

@[simp] theorem Strand.setReg_key (t : Strand) (g : Eng) (n : BitVec 5) (v : Word) : (t.setReg g n v).key = t.key := by
  simp only [Strand.setReg]; split <;> rfl
@[simp] theorem Strand.setReg_st (t : Strand) (g : Eng) (n : BitVec 5) (v : Word) : (t.setReg g n v).st = t.st := by
  simp only [Strand.setReg]; split <;> rfl
@[simp] theorem Strand.setReg_back (t : Strand) (g : Eng) (n : BitVec 5) (v : Word) : (t.setReg g n v).back = t.back := by
  simp only [Strand.setReg]; split <;> rfl
@[simp] theorem Strand.setReg_fresh (t : Strand) (g : Eng) (n : BitVec 5) (v : Word) : (t.setReg g n v).fresh = t.fresh := by
  simp only [Strand.setReg]; split <;> rfl
@[simp] theorem Strand.setReg_priv (t : Strand) (g : Eng) (n : BitVec 5) (v : Word) : (t.setReg g n v).priv = t.priv := by
  simp only [Strand.setReg]; split <;> rfl
@[simp] theorem Strand.setReg_task (t : Strand) (g : Eng) (n : BitVec 5) (v : Word) : (t.setReg g n v).task = t.task := by
  simp only [Strand.setReg]; split <;> rfl
@[simp] theorem Strand.setReg_kern (t : Strand) (g : Eng) (n : BitVec 5) (v : Word) : (t.setReg g n v).kern = t.kern := by
  simp only [Strand.setReg]; split <;> rfl
@[simp] theorem Strand.setReg_entry (t : Strand) (g : Eng) (n : BitVec 5) (v : Word) : (t.setReg g n v).entry = t.entry := by
  simp only [Strand.setReg]; split <;> rfl
@[simp] theorem Strand.setReg_text (t : Strand) (g : Eng) (n : BitVec 5) (v : Word) : (t.setReg g n v).text = t.text := by
  simp only [Strand.setReg]; split <;> rfl
@[simp] theorem Strand.setReg_nslots (t : Strand) (g : Eng) (n : BitVec 5) (v : Word) : (t.setReg g n v).nslots = t.nslots := by
  simp only [Strand.setReg]; split <;> rfl
@[simp] theorem Strand.setReg_wins (t : Strand) (g : Eng) (n : BitVec 5) (v : Word) : (t.setReg g n v).wins = t.wins := by
  simp only [Strand.setReg]; split <;> rfl
@[simp] theorem Strand.setReg_eng (t : Strand) (g : Eng) (n : BitVec 5) (v : Word) : (t.setReg g n v).eng = t.eng := by
  simp only [Strand.setReg]; split <;> rfl
@[simp] theorem Strand.setReg_pc0 (t : Strand) (g : Eng) (n : BitVec 5) (v : Word) : (t.setReg g n v).pc0 = t.pc0 := by
  simp only [Strand.setReg]; split <;> rfl
@[simp] theorem Strand.setReg_links (t : Strand) (g : Eng) (n : BitVec 5) (v : Word) : (t.setReg g n v).links = t.links := by
  simp only [Strand.setReg]; split <;> rfl
@[simp] theorem Strand.setReg_sys (t : Strand) (g : Eng) (n : BitVec 5) (v : Word) : (t.setReg g n v).sys = t.sys := by
  simp only [Strand.setReg]; split <;> rfl
@[simp] theorem Strand.setReg_x (t : Strand) (g : Eng) (n : BitVec 5) (v : Word) : (t.setReg g n v).x = t.x := by
  simp only [Strand.setReg]; split <;> rfl
@[simp] theorem Strand.setReg_sh (t : Strand) (g : Eng) (n : BitVec 5) (v : Word) : (t.setReg g n v).sh = t.sh := by
  simp only [Strand.setReg]; split <;> rfl
@[simp] theorem Strand.setReg_ly (t : Strand) (g : Eng) (n : BitVec 5) (v : Word) : (t.setReg g n v).ly = t.ly := by
  simp only [Strand.setReg]; split <;> rfl
@[simp] theorem Strand.setReg_lates (t : Strand) (g : Eng) (n : BitVec 5) (v : Word) : (t.setReg g n v).lates = t.lates := by
  simp only [Strand.setReg]; split <;> rfl
@[simp] theorem Strand.setReg_fl (t : Strand) (g : Eng) (n : BitVec 5) (v : Word) : (t.setReg g n v).fl = t.fl := by
  simp only [Strand.setReg]; split <;> rfl
@[simp] theorem Strand.setReg_seq (t : Strand) (g : Eng) (n : BitVec 5) (v : Word) : (t.setReg g n v).seq = t.seq := by
  simp only [Strand.setReg]; split <;> rfl
@[simp] theorem Strand.setReg_aside (t : Strand) (g : Eng) (n : BitVec 5) (v : Word) : (t.setReg g n v).aside = t.aside := by
  simp only [Strand.setReg]; split <;> rfl
@[simp] theorem Strand.setReg_tiles (t : Strand) (g : Eng) (n : BitVec 5) (v : Word) : (t.setReg g n v).tiles = t.tiles := by
  simp only [Strand.setReg]; split <;> rfl
@[simp] theorem Strand.setReg_lring (t : Strand) (g : Eng) (n : BitVec 5) (v : Word) : (t.setReg g n v).lring = t.lring := by
  simp only [Strand.setReg]; split <;> rfl
@[simp] theorem Strand.setReg_ops (t : Strand) (g : Eng) (n : BitVec 5) (v : Word) : (t.setReg g n v).ops = t.ops := by
  simp only [Strand.setReg]; split <;> rfl
@[simp] theorem Strand.setReg_ixres (t : Strand) (g : Eng) (n : BitVec 5) (v : Word) : (t.setReg g n v).ixres = t.ixres := by
  simp only [Strand.setReg]; split <;> rfl
@[simp] theorem Strand.setReg_shadow (t : Strand) (g : Eng) (n : BitVec 5) (v : Word) : (t.setReg g n v).shadow = t.shadow := by
  simp only [Strand.setReg]; split <;> rfl
@[simp] theorem Strand.setReg_nest (t : Strand) (g : Eng) (n : BitVec 5) (v : Word) : (t.setReg g n v).nest = t.nest := by
  simp only [Strand.setReg]; split <;> rfl
@[simp] theorem Strand.setReg_pend (t : Strand) (g : Eng) (n : BitVec 5) (v : Word) : (t.setReg g n v).pend = t.pend := by
  simp only [Strand.setReg]; split <;> rfl
@[simp] theorem Strand.setReg_acc (t : Strand) (g : Eng) (n : BitVec 5) (v : Word) : (t.setReg g n v).acc = t.acc := by
  simp only [Strand.setReg]; split <;> rfl
@[simp] theorem Strand.setReg_ph (t : Strand) (g : Eng) (n : BitVec 5) (v : Word) : (t.setReg g n v).ph = t.ph := by
  simp only [Strand.setReg]; split <;> rfl
@[simp] theorem Strand.setReg_joins (t : Strand) (g : Eng) (n : BitVec 5) (v : Word) : (t.setReg g n v).joins = t.joins := by
  simp only [Strand.setReg]; split <;> rfl
@[simp] theorem Strand.setReg_hand (t : Strand) (g : Eng) (n : BitVec 5) (v : Word) : (t.setReg g n v).hand = t.hand := by
  simp only [Strand.setReg]; split <;> rfl
@[simp] theorem Strand.setReg_step (t : Strand) (g : Eng) (n : BitVec 5) (v : Word) : (t.setReg g n v).step = t.step := by
  simp only [Strand.setReg]; split <;> rfl
@[simp] theorem Strand.setReg_dead (t : Strand) (g : Eng) (n : BitVec 5) (v : Word) : (t.setReg g n v).dead = t.dead := by
  simp only [Strand.setReg]; split <;> rfl
@[simp] theorem Strand.setReg_later (t : Strand) (g : Eng) (n : BitVec 5) (v : Word) : (t.setReg g n v).later = t.later := by
  simp only [Strand.setReg]; split <;> rfl
@[simp] theorem Strand.setReg_stalls (t : Strand) (g : Eng) (n : BitVec 5) (v : Word) : (t.setReg g n v).stalls = t.stalls := by
  simp only [Strand.setReg]; split <;> rfl
@[simp] theorem Strand.setReg_preempt (t : Strand) (g : Eng) (n : BitVec 5) (v : Word) : (t.setReg g n v).preempt = t.preempt := by
  simp only [Strand.setReg]; split <;> rfl
@[simp] theorem Strand.setReg_gy (t : Strand) (g : Eng) (n : BitVec 5) (v : Word) : (t.setReg g n v).gy = t.gy := by
  simp only [Strand.setReg]; split <;> rfl
@[simp] theorem Strand.setReg_kept (t : Strand) (g : Eng) (n : BitVec 5) (v : Word) : (t.setReg g n v).kept = t.kept := by
  simp only [Strand.setReg]; split <;> rfl
@[simp] theorem Strand.setReg_took (t : Strand) (g : Eng) (n : BitVec 5) (v : Word) : (t.setReg g n v).took = t.took := by
  simp only [Strand.setReg]; split <;> rfl
@[simp] theorem Strand.setReg_node (t : Strand) (g : Eng) (n : BitVec 5) (v : Word) : (t.setReg g n v).node = t.node := by
  simp only [Strand.setReg]; split <;> rfl

end Sys2Proof.Machine
end

