-- ==== Sys2Proof/Laws/Frame.lean ====
section
/-! SUPPORT. What the shared operations of the issue stage leave alone: stalls, ticks, moves through the text, traps,
the placing of results, and the issue of an instruction whose body keeps the machine. -/

namespace Sys2Proof.Machine

/-! ### Keeping -/

/-- What `Keeps` asks of the strand alone. -/
def Strand.Keeps (s t : Strand) : Prop :=
  t.key = s.key ∧ t.text = s.text ∧ t.wins = s.wins ∧ t.x.v = s.x.v ∧ t.x.p = s.x.p ∧ t.sh = s.sh ∧ t.ly = s.ly ∧
  t.lates = s.lates ∧ t.tiles = s.tiles ∧ t.lring = s.lring ∧ t.ops = s.ops ∧ t.ixres = s.ixres ∧
  t.shadow = s.shadow ∧ t.nest = s.nest ∧ t.pend = s.pend ∧ t.acc = s.acc ∧ t.ph.rep = s.ph.rep ∧
  t.ph.ckpt = s.ph.ckpt ∧ t.ph.input = s.ph.input ∧ t.joins = s.joins ∧ t.hand = s.hand ∧ t.step = s.step

/-- What `Keeps` asks of the rest of the machine. -/
def State.KeepsRest (s t : State) : Prop :=
  t.mem = s.mem ∧ t.others = s.others ∧ t.inputs = s.inputs ∧ t.strm = s.strm ∧
  { t.plant with upsets := [] } = { s.plant with upsets := [] } ∧ t.turn = s.turn ∧
  t.clock = s.clock

theorem State.keeps_iff {s t : State} : s.Keeps t ↔ s.KeepsRest t ∧ s.cur.Keeps t.cur := by
  constructor
  · intro h
    exact ⟨⟨h.mem, h.others, h.inputs, h.strm, h.plant, h.turn, h.clock⟩, h.key, h.text, h.wins, h.vectors,
      h.predicates, h.shapes, h.layouts, h.lates, h.tiles, h.ring, h.ops, h.ixres, h.shadow, h.nest, h.pend, h.acc,
      h.rep, h.ckpt, h.input, h.joins, h.hand, h.step⟩
  · rintro ⟨⟨h1, h2, h3, h4, h5, h6, h7⟩, a1, a2, a3, a4, a5, a6, a7, a8, a9, b1, b2, b3, b4, b5, b6, b7, b8, b9, c1,
      c2, c3, c4⟩
    exact ⟨h1, h2, h3, h4, h5, h6, h7, a1, a2, a3, a4, a5, a6, a7, a8, a9, b1, b2, b3, b4, b5, b6, b7, b8, b9, c1,
      c2, c3, c4⟩

theorem Strand.Keeps.refl (s : Strand) : s.Keeps s := by simp [Strand.Keeps]

theorem Strand.Keeps.trans {r s t : Strand} (h : r.Keeps s) (k : s.Keeps t) : r.Keeps t := by
  obtain ⟨a1, a2, a3, a4, a5, a6, a7, a8, a9, b1, b2, b3, b4, b5, b6, b7, b8, b9, c1, c2, c3, c4⟩ := h
  simp only [Strand.Keeps, a1, a2, a3, a4, a5, a6, a7, a8, a9, b1, b2, b3, b4, b5, b6, b7, b8, b9, c1, c2, c3, c4] at k ⊢
  exact k

theorem State.KeepsRest.trans {r s t : State} (h : r.KeepsRest s) (k : s.KeepsRest t) : r.KeepsRest t := by
  obtain ⟨h1, h2, h3, h4, h5, h6, h7⟩ := h
  simp only [State.KeepsRest, h1, h2, h3, h4, h5, h6, h7] at k ⊢
  exact k

theorem State.Keeps.refl (s : State) : s.Keeps s := State.keeps_iff.2 ⟨by simp [State.KeepsRest], .refl _⟩

theorem State.Keeps.trans {r s t : State} (h : r.Keeps s) (k : s.Keeps t) : r.Keeps t := by
  rw [State.keeps_iff] at *
  exact ⟨h.1.trans k.1, h.2.trans k.2⟩

/-- What a stall, a trap or a move leaves besides: the registers, and the system registers but those of a trap. -/
structure State.Holds (s t : State) : Prop where
  keeps : s.Keeps t
  regs : t.cur.regs = s.cur.regs
  sys : t.cur.sys.untrapped = s.cur.sys.untrapped

theorem State.Holds.refl (s : State) : s.Holds s := ⟨.refl s, rfl, rfl⟩

theorem State.Holds.trans {r s t : State} (h : r.Holds s) (k : s.Holds t) : r.Holds t :=
  ⟨h.keeps.trans k.keeps, k.regs.trans h.regs, k.sys.trans h.sys⟩

/-- A change of the strand at the front that keeps its fields. -/
theorem State.Holds.of_cur {s t : State} (h : s.KeepsRest t) (k : s.cur.Keeps t.cur) (r : t.cur.regs = s.cur.regs)
    (y : t.cur.sys.untrapped = s.cur.sys.untrapped) : s.Holds t := ⟨State.keeps_iff.2 ⟨h, k⟩, r, y⟩

/-! ### Counters and records -/

/-- What counting and emitting change: the trace, and the messages to the host. -/
structure State.Counts (s t : State) : Prop where
  cur : t.cur = s.cur
  rest : s.KeepsRest t
  work : t.work = s.work
  todo : t.todo = s.todo
  net : t.net = s.net
  free : t.free = s.free

theorem State.Counts.refl (s : State) : s.Counts s := ⟨rfl, by simp [State.KeepsRest], rfl, rfl, rfl, rfl⟩

theorem State.Counts.trans {r s t : State} (h : r.Counts s) (k : s.Counts t) : r.Counts t :=
  ⟨k.cur.trans h.cur, h.rest.trans k.rest, k.work.trans h.work, k.todo.trans h.todo, k.net.trans h.net,
    k.free.trans h.free⟩

theorem State.Counts.holds {s t : State} (h : s.Counts t) : s.Holds t :=
  .of_cur h.rest (h.cur ▸ .refl _) (by rw [h.cur]) (by rw [h.cur])

theorem msix_counts (s : State) (f v : Nat) : s.Counts (s.msix f v) :=
  ⟨rfl, by simp [State.KeepsRest, State.msix], rfl, rfl, rfl, rfl⟩

theorem foldl_counts {α : Type} {f : State → α → State} (h : ∀ (s : State) (a : α), s.Counts (f s a)) (l : List α) (s : State) :
    s.Counts (l.foldl f s) := by
  induction l generalizing s with
  | nil => exact .refl s
  | cons a l ih => exact (h s a).trans (ih _)

theorem trc_counts (s : State) (t : Trace) : s.Counts { s with trc := t } :=
  ⟨rfl, by simp [State.KeepsRest], rfl, rfl, rfl, rfl⟩

theorem countIn_counts (s : State) (b c : Nat) (x : Option Nat) (e : Option Eng) (n : Nat) :
    s.Counts (s.countIn b c x e n) := by
  simp only [State.countIn]
  split
  · exact .refl s
  · exact (trc_counts s _).trans (foldl_counts (f := fun s _ => s.counterInterrupt) (fun s _ => msix_counts s _ _) _ _)

theorem countCore_counts (s : State) (a b c : Nat) (e : Option Eng) (n : Nat) : s.Counts (s.countCore a b c e n) :=
  (countIn_counts ..).trans (countIn_counts ..)

theorem countCur_counts (s : State) (c : Nat) (e : Option Eng) (n : Nat) : s.Counts (s.countCur c e n) :=
  countCore_counts ..

theorem emitRec_counts (s : State) (a : Nat) (r : TraceRec) : s.Counts (s.emitRec a r) := by
  simp only [State.emitRec]
  split
  · exact .refl s
  · split <;> exact trc_counts ..

theorem emitCore_counts (s : State) (g : Eng) (c : Nat) (p : W32) (w : Word) : s.Counts (s.emitCore g c p w) :=
  (emitRec_counts ..).trans (countCur_counts ..)

@[simp] theorem countCur_cur (s : State) (c : Nat) (e : Option Eng) (n : Nat) : (s.countCur c e n).cur = s.cur :=
  (countCur_counts s c e n).cur
@[simp] theorem emitCore_cur (s : State) (g : Eng) (c : Nat) (p : W32) (w : Word) : (s.emitCore g c p w).cur = s.cur :=
  (emitCore_counts s g c p w).cur

/-! ### Engines -/

/-- A change of the strand at the front that its frame does not see. -/
theorem setCur_holds {s : State} {f : Strand → Strand} (k : s.cur.Keeps (f s.cur)) (r : (f s.cur).regs = s.cur.regs)
    (y : (f s.cur).sys.untrapped = s.cur.sys.untrapped) : s.Holds (s.setCur f) :=
  .of_cur (by simp [State.KeepsRest]) k r y

theorem setEng_holds (s : State) (g : Eng) (f : Engine → Engine) : s.Holds (s.setEng g f) :=
  setCur_holds (by simp [Strand.Keeps]) rfl rfl

/-- Whether a result of X lands does not rest on more than the results in flight and X's region. -/
theorem Strand.Calm.of_same {s t : Strand} (h : s.Calm) (k : t.fl = s.fl) (x : t.x.timed = s.x.timed) : t.Calm := by
  intro f hf
  have := h f (k ▸ hf)
  simp only [Strand.due, Strand.ticks, Strand.timed, x] at this ⊢
  exact this

theorem tickOn_holds {s : State} {g : Eng} (h : g = .x → s.cur.Calm) : s.Holds (s.tickOn g) := by
  simp only [State.tickOn, landed_calm h]
  split
  · exact (setEng_holds ..).trans (setCur_holds (by simp [Strand.Keeps]) rfl rfl)
  · exact setEng_holds ..

theorem stall_holds (s : State) (g : Eng) (w : Nat) : s.Holds (s.stall g w) :=
  (setEng_holds ..).trans (countCur_counts ..).holds

theorem bubble_holds {s : State} {g : Eng} (h : g = .x → s.cur.Calm) : s.Holds (s.bubble g) :=
  (setEng_holds ..).trans (tickOn_holds fun k => (h k).of_same rfl rfl)

theorem unhold_holds (s : State) (g : Eng) (o : Option Nat) : s.Holds (s.unhold g o) := by
  simp only [State.unhold]
  split
  · exact .refl s
  · exact .of_cur (by simp [State.KeepsRest]) (by simp [Strand.Keeps]) rfl rfl

/-! ### Moving through the text -/

/-- What a move of an engine changes: that engine alone. -/
def Strand.MovesOnly (s t : Strand) : Prop := ∃ e, t = { s with eng := e }

theorem Strand.MovesOnly.refl (s : Strand) : s.MovesOnly s := ⟨s.eng, rfl⟩

theorem Strand.MovesOnly.trans {r s t : Strand} (h : r.MovesOnly s) (k : s.MovesOnly t) : r.MovesOnly t := by
  obtain ⟨a, rfl⟩ := h
  obtain ⟨b, rfl⟩ := k
  exact ⟨b, rfl⟩

theorem Strand.setEngine_movesOnly (t : Strand) (g : Eng) (f : Engine → Engine) : t.MovesOnly (t.setEngine g f) := ⟨_, rfl⟩

theorem moveOver_movesOnly (g : Eng) (k n : Nat) (t : Strand) : t.MovesOnly (Strand.moveOver g k n t).1 := by
  induction k generalizing n t with
  | zero =>
    unfold Strand.moveOver
    split
    · split <;> exact ⟨_, rfl⟩
    · dsimp only
      split <;> exact ⟨_, rfl⟩
  | succ k ih =>
    unfold Strand.moveOver
    split
    · split <;> exact ⟨_, rfl⟩
    · dsimp only
      split
      · exact ⟨_, rfl⟩
      · exact Strand.MovesOnly.trans ⟨_, rfl⟩ (ih ..)

theorem moveTo_movesOnly (g : Eng) (n : Nat) (t : Strand) : t.MovesOnly (Strand.moveTo g n t).1 := moveOver_movesOnly ..

theorem moveOn_movesOnly (t : Strand) (g : Eng) (n : Nat) : t.MovesOnly (t.moveOn g n).1 := by
  simp only [Strand.moveOn]
  split
  · exact Strand.MovesOnly.trans ⟨_, rfl⟩ (moveTo_movesOnly ..)
  · split
    · exact ⟨_, rfl⟩
    · exact Strand.MovesOnly.trans ⟨_, rfl⟩ (moveTo_movesOnly ..)

theorem Strand.MovesOnly.holds {s : State} {t : Strand} (h : s.cur.MovesOnly t) : s.Holds { s with cur := t } := by
  obtain ⟨e, rfl⟩ := h
  exact .of_cur (by simp [State.KeepsRest]) (by simp [Strand.Keeps]) rfl rfl

theorem settleMove_movesOnly (t : Strand) (g : Eng) : t.MovesOnly (t.settleMove g) := by
  simp only [Strand.settleMove]
  split
  · exact .refl t
  · exact Strand.setEngine_movesOnly ..

theorem settleMoves_movesOnly (t : Strand) (g : Option Eng) : t.MovesOnly (t.settleMoves g) := by
  simp only [Strand.settleMoves]
  suffices h : ∀ (l : List Eng) (t : Strand), t.MovesOnly (l.foldl (fun t h => if g = some h then t else t.settleMove h) t)
    from h _ _
  intro l
  induction l with
  | nil => exact fun t => .refl t
  | cons h l ih =>
    intro t
    rw [List.foldl_cons]
    refine Strand.MovesOnly.trans ?_ (ih _)
    split
    · exact .refl t
    · exact settleMove_movesOnly ..

/-! ### Traps -/

theorem dropAnswers_holds (s : State) : s.Holds s.dropAnswers := by
  simp only [State.dropAnswers]
  split
  · exact .refl s
  · exact .of_cur (by simp [State.KeepsRest]) (.refl _) rfl rfl

theorem trapArgs_holds (s : State) (args : List Word) : s.Holds (s.trapArgs args).2 := by
  simp only [State.trapArgs]
  split
  · exact .of_cur (by simp [State.KeepsRest]) (.refl _) rfl rfl
  · exact .refl s

theorem pushRecord_holds (s : State) (c : Nat) (h : Bool) (r : List Byte) : s.Holds (s.pushRecord c h r) :=
  .of_cur (by simp [State.KeepsRest, State.pushRecord, State.setCtx]) (.refl _) rfl rfl

theorem postOnce_holds (s : State) (w : What) (a b : Nat) : s.Holds (s.postOnce w a b) := by
  simp only [State.postOnce]
  split
  · exact .refl s
  · exact .of_cur (by simp [State.KeepsRest, State.post]) (.refl _) rfl rfl

theorem taskStatus_holds (s : State) (k n : Nat) : s.Holds (s.taskStatus k n) := by
  simp only [State.taskStatus]
  split
  · exact .refl s
  · exact .of_cur (by simp [State.KeepsRest]) (.refl _) rfl rfl

theorem abortStrand_holds (s : State) (n : Nat) : s.Holds (s.abortStrand n) :=
  ((taskStatus_holds ..).trans (setCur_holds (by simp [Strand.Keeps]) rfl rfl)).trans (postOnce_holds ..)

theorem noteTrap_holds (s : State) (g : Eng) (code : Nat) (info : Word) (args : List Word) :
    s.Holds (s.noteTrap g code info args) :=
  ((setEng_holds ..).trans (setCur_holds (by simp [Strand.Keeps]) rfl rfl)).trans (emitCore_counts ..).holds

theorem unroutedTrap_holds (s : State) (code : Nat) (info : Word) (args : List Word) :
    s.Holds (s.unroutedTrap code info args) := by
  simp only [State.unroutedTrap]
  split
  · exact (pushRecord_holds ..).trans (setCur_holds (by simp [Strand.Keeps]) rfl rfl)
  · exact (pushRecord_holds ..).trans (abortStrand_holds ..)

theorem badVector_holds (s : State) (code : Nat) : s.Holds (s.badVector code) :=
  setCur_holds (by simp [Strand.Keeps]) rfl rfl

theorem routeTrap_holds (s : State) (g : Eng) (code : Nat) (info : Word) (args : List Word) :
    s.Holds (s.routeTrap g code info args) := by
  simp only [State.routeTrap]
  split
  · split
    · exact (badVector_holds ..).trans (unroutedTrap_holds ..)
    · split
      · exact (badVector_holds ..).trans (unroutedTrap_holds ..)
      · exact setCur_holds (by simp [Strand.Keeps, Strand.enterHandler]) rfl rfl
  · exact unroutedTrap_holds ..

/-- A trap keeps registers, memory and everything that Keeps names. -/
theorem takeTrap_holds (s : State) (g : Eng) (code : Nat) (args : List Word) : s.Holds (s.takeTrap g code args) :=
  (((dropAnswers_holds s).trans (settleMoves_movesOnly ..).holds).trans (trapArgs_holds ..)).trans
    ((noteTrap_holds ..).trans (routeTrap_holds ..))

/-- A trap of a strand whose engines issue changes its state of life. -/
theorem takeTrap_st {s : State} {g : Eng} {code : Nat} {args : List Word} (h : s.cur.runs = true) :
    (s.takeTrap g code args).cur.st ≠ s.cur.st := by
  have unr : ∀ (u : State) (n : Nat) (i : Word) (a : List Word), (u.unroutedTrap n i a).cur.st ≠ s.cur.st := by
    intro u n i a
    have abort : ∀ w : State, (w.abortStrand 1).cur.st = .ended := by
      intro w
      have hp : ∀ (x : State) (p : What) (a b : Nat), (x.postOnce p a b).cur = x.cur := by
        intro x p a b
        simp only [State.postOnce]
        split <;> rfl
      simp [State.abortStrand, hp]
    simp only [State.unroutedTrap]
    split
    · intro k
      simp only [State.setCur_cur] at k
      simp [Strand.runs, ← k] at h
    · rw [abort]
      intro k
      simp [Strand.runs, ← k] at h
  simp only [State.takeTrap, State.enterTrap, State.routeTrap]
  split
  · rename_i hr
    split
    · exact unr _ _ _ _
    · split
      · exact unr _ _ _ _
      · have hst : (State.noteTrap (State.trapArgs (s.dropAnswers.setCur fun t => t.settleMoves (some g)) args).2 g code
            ((State.trapArgs (s.dropAnswers.setCur fun t => t.settleMoves (some g)) args).2.cur.tinfo g code)
            (State.trapArgs (s.dropAnswers.setCur fun t => t.settleMoves (some g)) args).1).cur.st = s.cur.st := by
          have e1 : s.dropAnswers.cur = s.cur := by
            simp only [State.dropAnswers]
            split <;> rfl
          have e2 : (State.trapArgs (s.dropAnswers.setCur fun t => t.settleMoves (some g)) args).2.cur.st = s.cur.st := by
            obtain ⟨e, he⟩ := settleMoves_movesOnly s.cur (some g)
            simp only [State.trapArgs]
            split <;> simp [e1, he]
          simp [State.noteTrap, e2]
        simp only [Strand.routes, hst, Bool.and_eq_true, beq_iff_eq] at hr
        simp [Strand.enterHandler, hr.2]
  · exact unr _ _ _ _

/-! ### Results -/

/-- What an instruction leaves that writes at most the register d of engine g. -/
structure State.Writes (g : Eng) (d : Option (BitVec 5)) (s t : State) : Prop where
  keeps : s.Keeps t
  sys : t.cur.sys.untrapped = s.cur.sys.untrapped
  regs : ∀ e n, ¬ (e = g ∧ d = some n) → t.cur.reg e n = s.cur.reg e n

theorem State.Holds.writes {s t : State} (h : s.Holds t) (g : Eng) (d : Option (BitVec 5)) : s.Writes g d t :=
  ⟨h.keeps, h.sys, fun e n _ => by simp only [Strand.reg, h.regs]⟩

theorem State.Writes.trans {g : Eng} {d : Option (BitVec 5)} {r s t : State} (h : r.Writes g d s) (k : s.Writes g d t) :
    r.Writes g d t :=
  ⟨h.keeps.trans k.keeps, k.sys.trans h.sys, fun e n hn => (k.regs e n hn).trans (h.regs e n hn)⟩

/-- A list of results that names at most the register d. -/
def Wb.only (d : Option (BitVec 5)) (wb : List Wb) : Prop := ∀ w ∈ wb, ∃ n v, d = some n ∧ w = .reg n v

/-- A strand after such results. -/
def Strand.Writes (g : Eng) (d : Option (BitVec 5)) (s t : Strand) : Prop :=
  s.Keeps t ∧ t.sys = s.sys ∧ ∀ e n, ¬ (e = g ∧ d = some n) → t.reg e n = s.reg e n

theorem Strand.Writes.refl (g : Eng) (d : Option (BitVec 5)) (s : Strand) : s.Writes g d s := ⟨.refl s, rfl, fun _ _ _ => rfl⟩

theorem Strand.Writes.trans {g : Eng} {d : Option (BitVec 5)} {r s t : Strand} (h : r.Writes g d s)
    (k : s.Writes g d t) : r.Writes g d t :=
  ⟨h.1.trans k.1, k.2.1.trans h.2.1, fun e n hn => (k.2.2 e n hn).trans (h.2.2 e n hn)⟩

/-- A register reads as before after a write of another one. -/
theorem Strand.reg_setReg_ne {t : Strand} {g e : Eng} {m n : BitVec 5} (v : Word) (h : ¬ (e = g ∧ m = n)) :
    (t.setReg g m v).reg e n = t.reg e n := by
  simp only [Strand.setReg]
  split
  · rfl
  · simp only [Strand.reg]
    split
    · rfl
    · by_cases he : e = g
      · subst he
        have hm : m.toNat ≠ n.toNat := fun k => h ⟨rfl, BitVec.eq_of_toNat_eq k⟩
        simp [List.getElem?_set_ne hm]
      · rw [PerEng.get_set_ne _ _ he]

/-- A register holds what was written to it; a0 stays zero (R72). -/
theorem Strand.reg_setReg {t : Strand} {g : Eng} {n : BitVec 5} (v : Word) (h : n.toNat < (t.regs.get g).length) :
    (t.setReg g n v).reg g n = if g = .a ∧ n = 0 then 0 else v := by
  simp only [Strand.setReg, Strand.reg]
  split
  · rfl
  · simp [h]

theorem Strand.write_writes {t : Strand} {g : Eng} {n : BitVec 5} (v : Word) : t.Writes g (some n) (t.write g (.reg n v)) := by
  simp only [Strand.write]
  split
  · exact ⟨by simp [Strand.Keeps], rfl, fun _ _ _ => rfl⟩
  · exact ⟨by simp [Strand.Keeps], by simp,
      fun e m hm => Strand.reg_setReg_ne v fun k => hm ⟨k.1, by rw [k.2]⟩⟩

theorem Strand.foldl_write_writes {g : Eng} {d : Option (BitVec 5)} :
    ∀ {wb : List Wb} {t : Strand}, Wb.only d wb → t.Writes g d (wb.foldl (fun t w => t.write g w) t)
  | [], t, _ => .refl g d t
  | w :: wb, t, h => by
    obtain ⟨n, v, hd, hw⟩ := h w (by simp)
    have h1 : t.Writes g d (t.write g w) := by subst hw hd; exact Strand.write_writes v
    exact h1.trans (Strand.foldl_write_writes fun w hw => h w (by simp [hw]))

theorem Strand.Writes.of_same {g : Eng} {d : Option (BitVec 5)} {r s t : Strand} (h : r.Writes g d s) (k : s.Keeps t)
    (y : t.sys = s.sys) (z : t.regs = s.regs) : r.Writes g d t :=
  h.trans ⟨k, y, fun e n _ => by simp only [Strand.reg, z]⟩

theorem Strand.land_writes {t : Strand} {d : Option (BitVec 5)} {f : Flight} (h : Wb.only d f.wb) :
    t.Writes f.g d (t.land f) := by
  simp only [Strand.land]
  exact (Strand.foldl_write_writes h).of_same (by simp [Strand.Keeps]) rfl rfl

theorem Strand.deliver_writes {t : Strand} {g : Eng} {d : Option (BitVec 5)} {lat : Nat} {wb : List Wb} {sp sn : Bool}
    (h : Wb.only d wb) : t.Writes g d (t.deliver g lat wb sp sn) := by
  simp only [Strand.deliver]
  have h0 : t.Writes g d { t with seq := t.seq + 1 } :=
    (Strand.Writes.refl g d t).of_same (by simp [Strand.Keeps]) rfl rfl
  split
  · exact h0.of_same (by simp [Strand.Keeps]) rfl rfl
  · split
    · exact h0.of_same (by simp [Strand.Keeps]) rfl rfl
    · exact h0.trans (Strand.land_writes (f := ⟨g, max 1 lat, wb, sp, sn, t.seq + 1⟩) h)

/-- A write of a register leaves the results in flight and X's region alone. -/
theorem Strand.write_fl {t : Strand} {g : Eng} {w : Wb} :
    (t.write g w).fl = t.fl ∧ (t.write g w).x.timed = t.x.timed := by
  cases w <;> simp only [Strand.write]
  · split
    · exact ⟨rfl, rfl⟩
    · simp only [Strand.setReg]; split <;> exact ⟨rfl, rfl⟩
  all_goals first | exact ⟨trivial, trivial⟩ | (split <;> exact ⟨rfl, rfl⟩)

theorem Strand.foldl_write_fl {g : Eng} : ∀ {wb : List Wb} {t : Strand},
    (wb.foldl (fun t w => t.write g w) t).fl = t.fl ∧ (wb.foldl (fun t w => t.write g w) t).x.timed = t.x.timed
  | [], _ => ⟨rfl, rfl⟩
  | w :: wb, t => by
    have h := foldl_write_fl (g := g) (wb := wb) (t := t.write g w)
    exact ⟨h.1.trans write_fl.1, h.2.trans write_fl.2⟩

/-- A result that is placed does not land at the start of X's next tick. -/
theorem Strand.deliver_calm {t : Strand} {g : Eng} {lat : Nat} {wb : List Wb} {sp sn : Bool} (h : t.Calm) :
    (t.deliver g lat wb sp sn).Calm := by
  simp only [Strand.deliver]
  have add : ∀ f : Flight, t.due f = false → ({ t with seq := t.seq + 1, fl := t.fl ++ [f] } : Strand).Calm := by
    intro f hf k hk
    simp only [List.mem_append, List.mem_singleton] at hk
    rcases hk with hk | rfl
    · exact h k hk
    · exact hf
  split
  · refine add _ ?_
    have : (max 1 lat == 0) = false := by simp
    simp [Strand.due, this]
  · rename_i hn
    simp only [Bool.or_eq_true, not_or, Bool.not_eq_true] at hn
    split
    · refine add _ ?_
      have := hn.1.2
      simp only [Strand.ticks, Strand.timed] at this
      simp [Strand.due, Strand.ticks, Strand.timed, this]
    · simp only [Strand.land]
      exact h.of_same (foldl_write_fl.1.trans rfl) (foldl_write_fl.2.trans rfl)

theorem setCur_writes {s : State} {g : Eng} {d : Option (BitVec 5)} {f : Strand → Strand}
    (h : s.cur.Writes g d (f s.cur)) : s.Writes g d (s.setCur f) :=
  ⟨State.keeps_iff.2 ⟨by simp [State.KeepsRest], h.1⟩, by rw [State.setCur_cur, h.2.1], h.2.2⟩

/-- Results that are scalar leave the errors of vector registers alone. -/
theorem healVecs_only {s : State} {d : Option (BitVec 5)} {wb : List Wb} (h : Wb.only d wb) : s.healVecs wb = s := by
  simp only [State.healVecs]
  split
  · rfl
  · induction wb with
    | nil => rfl
    | cons w wb ih =>
      obtain ⟨n, v, _, rfl⟩ := h w (by simp)
      exact ih fun w hw => h w (by simp [hw])

theorem deliver_writes {s : State} {q : Issue} {d : Option (BitVec 5)} {links : Links → Links} {wb : List Wb}
    (h : Wb.only d wb) (c : q.g = .x → s.cur.Calm) : s.Writes q.g d (s.deliver q links wb) := by
  simp only [State.deliver, healVecs_only h]
  have calm : ∀ {t u : Strand}, (q.g = .x → t.Calm) → u.fl = t.fl → u.x.timed = t.x.timed → q.g = .x → u.Calm :=
    fun ht hf hx k => (ht k).of_same hf hx
  refine .trans ?_ ((countCur_counts ..).holds.writes ..)
  refine .trans ?_ ((tickOn_holds ?_).writes ..)
  · refine .trans ?_ ((setEng_holds ..).writes ..)
    refine .trans ?_ (setCur_writes (Strand.deliver_writes h))
    refine .trans (setCur_writes (f := fun t => { t with links := (links t.links).consume q.g q.ring }) ?_)
      (setCur_writes ((Strand.Writes.refl ..).of_same ?_ rfl rfl))
    · exact (Strand.Writes.refl ..).of_same (by simp [Strand.Keeps]) rfl rfl
    · cases q.unit <;> simp [Strand.Keeps, XUnit.occupy]
  · refine calm (t := (State.setCur _ _).cur) (fun k => ?_) rfl rfl
    refine Strand.deliver_calm ((c k).of_same rfl ?_)
    cases q.unit <;> rfl

theorem leaveWord_holds (s : State) (g : Eng) (len : Nat) (goto : Option Nat) : s.Holds (s.leaveWord g len goto) := by
  simp only [State.leaveWord]
  cases goto with
  | none =>
    dsimp only
    split
    · exact (moveOn_movesOnly ..).holds.trans (takeTrap_holds ..)
    · exact (moveOn_movesOnly ..).holds
  | some n =>
    dsimp only
    have h := ((Strand.setEngine_movesOnly s.cur g fun e => { e with bubble := e.bubble + b2n (farJump (s.cur.engine g).pc n) }).trans
      (moveTo_movesOnly g n _))
    split
    · exact h.holds.trans (takeTrap_holds ..)
    · exact h.holds

theorem retire_writes {s : State} {q : Issue} {e : Option (BitVec 5)} {links : Links → Links} {d : Done}
    (h : Wb.only e d.wb) (c : q.g = .x → s.cur.Calm) : s.Writes q.g e (s.retire q links d) :=
  (deliver_writes h c).trans ((leaveWord_holds ..).writes ..)

/-! ### Voted results (R125) -/

theorem Wb.only_set {d : Option (BitVec 5)} {wb : List Wb} (h : Wb.only d wb) {i : Nat} {w : Wb} (hw : wb[i]? = some w)
    (e : Nat) (v : Word) : Wb.only d (wb.set i (w.setElem e v)) := by
  intro k hk
  rcases List.mem_or_eq_of_mem_set hk with hk | rfl
  · exact h k hk
  · obtain ⟨n, x, hd, rfl⟩ := h w (List.mem_of_getElem? hw)
    exact ⟨n, v, hd, rfl⟩

theorem voteOn_only {d : Option (BitVec 5)} {us : List Upset} {wb ws : List Wb} {r : Vote} {u : Upset} {b : Bool}
    (h : ∀ ws b, r = .agree ws b → Wb.only d ws) (hv : voteOn us wb r u = .agree ws b) : Wb.only d ws := by
  simp only [voteOn] at hv
  split at hv
  · cases hv
  · rename_i ws' b'
    have h' := h ws' b' rfl
    split at hv
    · rename_i hw _
      split at hv
      · cases hv; exact h'
      · split at hv
        · cases hv; exact Wb.only_set h' hw _ _
        · split at hv
          · cases hv; exact Wb.only_set h' hw _ _
          · cases hv
    · cases hv; exact h'

/-- What a vote agrees on names the same register. -/
theorem vote_only {d : Option (BitVec 5)} {us : List Upset} {wb ws : List Wb} {b : Bool} (h : Wb.only d wb)
    (hv : vote us wb = .agree ws b) : Wb.only d ws := by
  have fold : ∀ (l : List Upset) (r : Vote), (∀ ws b, r = .agree ws b → Wb.only d ws) →
      ∀ ws b, l.foldl (voteOn us wb) r = .agree ws b → Wb.only d ws := by
    intro l
    induction l with
    | nil => exact fun r h => h
    | cons u l ih => exact fun r h => ih _ fun ws b hr => voteOn_only h hr
  exact fold us _ (fun ws b hr => by cases hr; exact h) ws b hv

/-! ### The issue of an instruction on scalar registers -/

/-- A body that reads registers and gives at most a result for d: it keeps the machine, the results in flight and X's
region, and neither holds, faults nor meets an error. -/
def Quiet (d : Option (BitVec 5)) (s : State) (r : Res Done) : Prop :=
  match r with
  | .ok e u => s.Holds u ∧ (u.cur.fl = s.cur.fl ∧ u.cur.x.timed = s.cur.x.timed) ∧ Wb.only d e.wb
  | .stop (.trap ..) => True
  | .stop (.wait _ u) => s.Holds u
  | .stop _ => False

theorem unhold_fl (s : State) (g : Eng) (o : Option Nat) :
    (s.unhold g o).cur.fl = s.cur.fl ∧ (s.unhold g o).cur.x.timed = s.cur.x.timed := by
  simp only [State.unhold]
  split <;> exact ⟨rfl, rfl⟩

theorem voteDone_holds (s : State) : s.Holds s.voteDone :=
  .of_cur (by simp [State.KeepsRest, State.voteDone]) (.refl _) rfl rfl

/-- What the completion of such an instruction changes. -/
theorem complete_writes {q : Issue} {s u : State} {x : Strand} {e : Option (BitVec 5)} {links : Links → Links} {d : Done}
    (c : q.g = .x → s.cur.Calm) (hu : Quiet e s (.ok d u)) : s.Writes q.g e (s.complete x u q links d) := by
  obtain ⟨hk, hf, hw⟩ := hu
  have cu : q.g = .x → u.cur.Calm := fun k => (c k).of_same hf.1 hf.2
  have ret : ∀ {v : State} {d : Done}, s.Holds v → (q.g = .x → v.cur.Calm) → Wb.only e d.wb →
      s.Writes q.g e ((v.unhold q.g none).retire q links d) := fun hv cv hd =>
    ((hv.trans (unhold_holds ..)).writes ..).trans
      (retire_writes hd fun k => (cv k).of_same (unhold_fl ..).1 (unhold_fl ..).2)
  simp only [State.complete]
  split
  · exact (bubble_holds c).writes ..
  · split
    · exact ret hk cu hw
    · split
      · rename_i wb b hv
        refine ret (v := State.voteDone (if b = true then u.countCur 0x043 (some q.g) 1 else u)) ?_ ?_ (vote_only hw hv)
        · refine State.Holds.trans ?_ (voteDone_holds _)
          split
          · exact hk.trans (countCur_counts ..).holds
          · exact hk
        · intro k
          simp only [State.voteDone]
          split
          · simpa using cu k
          · exact cu k
      · exact ((voteDone_holds s).trans (takeTrap_holds ..)).writes ..

/-- What the issue of such an instruction changes, however it ends, in a tick in which no earlier result of X lands. -/
theorem issue_writes {q : Issue} {body : List Word → Act Done} {s t : State} {d : Option (BitVec 5)}
    (c : q.g = .x → s.cur.Calm) (hv : q.vecs = []) (hb : ∀ vs, Quiet d s (body vs s)) (h : issue q body s = .next t) :
    s.Writes q.g d t := by
  have hr : s.readVecs [] = s := by simp [State.readVecs]
  simp only [issue, landed_calm c, unland_calm c, hv, hr, State.badVec, List.find?_nil] at h
  split at h
  · cases h; exact (takeTrap_holds ..).writes ..
  · split at h
    · cases h; exact (takeTrap_holds ..).writes ..
    · split at h
      · cases h; exact (stall_holds ..).writes ..
      · split at h
        · cases h; exact (takeTrap_holds ..).writes ..
        · cases h; exact (stall_holds ..).writes ..
        · rename_i vs l _
          split at h
          · cases h; exact (stall_holds ..).writes ..
          · split at h
            · cases h; exact (bubble_holds c).writes ..
            · split at h
              · cases h
                exact ((setEng_holds ..).trans (bubble_holds fun k => (c k).of_same rfl rfl)).writes ..
              · have hq := hb vs
                split at h
                · rename_i e u he
                  rw [he] at hq
                  cases h
                  exact complete_writes c hq
                · cases h; exact (takeTrap_holds ..).writes ..
                · rename_i w u he
                  rw [he] at hq
                  cases h
                  exact (State.Holds.trans hq (stall_holds ..)).writes ..
                all_goals
                  rename_i he
                  rw [he] at hq
                  exact hq.elim

end Sys2Proof.Machine
end

