-- ==== Sys2Proof/Laws/Async.lean ====
section
/-! SUPPORT. Asynchronous operations, element-wise vector results and unit steps on a strand. -/

namespace Sys2Proof.Machine

/-- Starting an operation inside an instruction is the state that `starting` names. -/
theorem starting_eq (g opc r kind touch step) (s : State) : startAct g opc r kind touch step s = .ok () (s.starting g opc r kind touch step) := by
  cases step <;> rfl

/-- A handle below 128 that names a tile. -/
theorem heldTile_ok {s : State} {w : Word} {v : Tile} (h : w.toNat < 128) (ht : s.cur.tile? w.toNat = some v) :
    heldTile w s = .ok (w.toNat, v) s := by
  simp [heldTile, handleNo, h, ht]

/-- A tile that may be written. -/
theorem writable_ok {s : State} {w : Word} {v : Tile} (h : w.toNat < 128) (ht : s.cur.tile? w.toNat = some v) (hr : v.ro = false):
    writableTile w s = .ok (w.toNat, v) s := by
  simp only [writableTile]; rw [Act.bind_of_ok (heldTile_ok h ht)]; simp [hr]

/-- The layout of a slot, its extents captured. -/
theorem layoutOf_ok {s : State} {n} {k} (h : s.cur.slot n = some k) : layoutOf n s = .ok { k with lay := { k.lay with ext := (s.cur.extents k.lay).map (BitVec.ofNat 32), shx := 0xFF } } s := by
  simp [layoutOf, h]

/-- The late lanes of a result (R54). -/
theorem late_ok (fp : Bool) (s : State) : lateLanes fp s = .ok (s.late fp).1 (s.late fp).2 := by
  simp only [lateLanes, State.late]; split <;> rfl

/-- A vector result with its events counted (R57). -/
theorem lanesDone_ok (f d m ls) (s : State) : lanesDone f d m ls s = .ok (.of [.vec d.toNat m (ls.map fun l => BitVec.ofNat 32 l.v)]) (s.counted f ls) := by
  rfl

/-- Drawing late lanes leaves the strand alone. -/
theorem late_cur (fp : Bool) (s : State) : (s.late fp).2.cur = s.cur := by
  simp only [State.late]; split <;> rfl

/-- An element-wise vector instruction that goes completes with its lanes. -/
theorem elementwise_next {r opc o x} {q : VIssue} {ub uc f} {s : State} {l}
   (h : s.Goes (({ q with vecs := [o.a.toNat] ++ (if ub then [o.b.toNat] else []) ++ (if uc then [(s.cur.xv x).c.toNat] else []), names := .vec o.d.toNat :: q.names } : VIssue).issue r opc x s.cur) [] l) :
   elementwise r opc o x q ub uc f s = 
     let w := s.cur.xv x
     let ls := laneMap (s.cur.governs w) (f w (s.late (q.fp && w.format.isFp)).1) (s.cur.x.vec o.a.toNat) (if ub then s.cur.x.vec o.b.toNat else s.cur.x.vec o.a.toNat) (if uc then s.cur.x.vec w.c.toNat else s.cur.x.vec o.a.toNat)
     ((s.late (q.fp && w.format.isFp)).2.counted w.format ls).writes (({ q with vecs := [o.a.toNat] ++ (if ub then [o.b.toNat] else []) ++ (if uc then [(s.cur.xv x).c.toNat] else []), names := .vec o.d.toNat :: q.names } : VIssue).issue r opc x s.cur) l
          [.vec o.d.toNat (s.cur.governs w) (ls.map fun k => BitVec.ofNat 32 k.v)] := by
  refine issue_next h ?_
  rw [Act.bind_of_ok (late_ok _ s)]
  rw [Act.get_bind, lanesDone_ok, late_cur]

/-- A unit step on a strand, from what it does with that strand at the front. -/
theorem onStrand_next {s u t : State} {k : Nat} {f : State → Out} (h : s.Front k u) (hf : f u = .next t) : onStrand k f s = s.backTo t := by
  obtain ⟨h1, rfl⟩ := h
  obtain ⟨tt, ht⟩ := Option.isSome_iff_exists.mp h1
  simp only [onStrand, ht, hf]; rfl

end Sys2Proof.Machine
end

