-- ==== Sys2Proof/Laws/Exec.lean ====
section
/-! SUPPORT. The meaning that exec gives each constructor. -/

namespace Sys2Proof.Machine

@[simp] theorem exec_nop : ∀ h s, exec (Instr.nop h) s = execNop h s := by intros; rfl
@[simp] theorem exec_b : ∀ h o x s, exec (Instr.b h o x) s = execB h o x s := by intros; rfl
@[simp] theorem exec_beq : ∀ h o x s, exec (Instr.beq h o x) s = execBeq h o x s := by intros; rfl
@[simp] theorem exec_bne : ∀ h o x s, exec (Instr.bne h o x) s = execBne h o x s := by intros; rfl
@[simp] theorem exec_blt : ∀ h o x s, exec (Instr.blt h o x) s = execBlt h o x s := by intros; rfl
@[simp] theorem exec_bge : ∀ h o x s, exec (Instr.bge h o x) s = execBge h o x s := by intros; rfl
@[simp] theorem exec_bltu : ∀ h o x s, exec (Instr.bltu h o x) s = execBltu h o x s := by intros; rfl
@[simp] theorem exec_bgeu : ∀ h o x s, exec (Instr.bgeu h o x) s = execBgeu h o x s := by intros; rfl
@[simp] theorem exec_bz : ∀ h o x s, exec (Instr.bz h o x) s = execBz h o x s := by intros; rfl
@[simp] theorem exec_bnz : ∀ h o x s, exec (Instr.bnz h o x) s = execBnz h o x s := by intros; rfl
@[simp] theorem exec_bfol : ∀ h o x s, exec (Instr.bfol h o x) s = execBfol h o x s := by intros; rfl
@[simp] theorem exec_call : ∀ h o x s, exec (Instr.call h o x) s = execCall h o x s := by intros; rfl
@[simp] theorem exec_ret : ∀ h o s, exec (Instr.ret h o) s = execRet h o s := by intros; rfl
@[simp] theorem exec_jr : ∀ h o x s, exec (Instr.jr h o x) s = execJr h o x s := by intros; rfl
@[simp] theorem exec_loop : ∀ h o x s, exec (Instr.loop h o x) s = execLoop h o x s := by intros; rfl
@[simp] theorem exec_loopi : ∀ h o x s, exec (Instr.loopi h o x) s = execLoopi h o x s := by intros; rfl
@[simp] theorem exec_brkl : ∀ h o s, exec (Instr.brkl h o) s = execBrkl h o s := by intros; rfl
@[simp] theorem exec_trap : ∀ h o s, exec (Instr.trap h o) s = execTrap h o s := by intros; rfl
@[simp] theorem exec_gets : ∀ h o s, exec (Instr.gets h o) s = execGets h o s := by intros; rfl
@[simp] theorem exec_sets : ∀ h o s, exec (Instr.sets h o) s = execSets h o s := by intros; rfl
@[simp] theorem exec_tri : ∀ h s, exec (Instr.tri h) s = execTri h s := by intros; rfl
@[simp] theorem exec_waitt : ∀ h o s, exec (Instr.waitt h o) s = execWaitt h o s := by intros; rfl
@[simp] theorem exec_fence : ∀ h o s, exec (Instr.fence h o) s = execFence h o s := by intros; rfl
@[simp] theorem exec_ldaq : ∀ h o x s, exec (Instr.ldaq h o x) s = execLdaq h o x s := by intros; rfl
@[simp] theorem exec_strl : ∀ h o x s, exec (Instr.strl h o x) s = execStrl h o x s := by intros; rfl
@[simp] theorem exec_add : ∀ h o s, exec (Instr.add h o) s = execAdd h o s := by intros; rfl
@[simp] theorem exec_sub : ∀ h o s, exec (Instr.sub h o) s = execSub h o s := by intros; rfl
@[simp] theorem exec_mul : ∀ h o s, exec (Instr.mul h o) s = execMul h o s := by intros; rfl
@[simp] theorem exec_mulh : ∀ h o s, exec (Instr.mulh h o) s = execMulh h o s := by intros; rfl
@[simp] theorem exec_mulhu : ∀ h o s, exec (Instr.mulhu h o) s = execMulhu h o s := by intros; rfl
@[simp] theorem exec_div : ∀ h o s, exec (Instr.div h o) s = execDiv h o s := by intros; rfl
@[simp] theorem exec_divu : ∀ h o s, exec (Instr.divu h o) s = execDivu h o s := by intros; rfl
@[simp] theorem exec_rem : ∀ h o s, exec (Instr.rem h o) s = execRem h o s := by intros; rfl
@[simp] theorem exec_remu : ∀ h o s, exec (Instr.remu h o) s = execRemu h o s := by intros; rfl
@[simp] theorem exec_and : ∀ h o s, exec (Instr.and h o) s = execAnd h o s := by intros; rfl
@[simp] theorem exec_or : ∀ h o s, exec (Instr.or h o) s = execOr h o s := by intros; rfl
@[simp] theorem exec_xor : ∀ h o s, exec (Instr.xor h o) s = execXor h o s := by intros; rfl
@[simp] theorem exec_shl : ∀ h o s, exec (Instr.shl h o) s = execShl h o s := by intros; rfl
@[simp] theorem exec_shr : ∀ h o s, exec (Instr.shr h o) s = execShr h o s := by intros; rfl
@[simp] theorem exec_sra : ∀ h o s, exec (Instr.sra h o) s = execSra h o s := by intros; rfl
@[simp] theorem exec_min : ∀ h o s, exec (Instr.min h o) s = execMin h o s := by intros; rfl
@[simp] theorem exec_max : ∀ h o s, exec (Instr.max h o) s = execMax h o s := by intros; rfl
@[simp] theorem exec_minu : ∀ h o s, exec (Instr.minu h o) s = execMinu h o s := by intros; rfl
@[simp] theorem exec_maxu : ∀ h o s, exec (Instr.maxu h o) s = execMaxu h o s := by intros; rfl
@[simp] theorem exec_slt : ∀ h o s, exec (Instr.slt h o) s = execSlt h o s := by intros; rfl
@[simp] theorem exec_sltu : ∀ h o s, exec (Instr.sltu h o) s = execSltu h o s := by intros; rfl
@[simp] theorem exec_seq : ∀ h o s, exec (Instr.seq h o) s = execSeq h o s := by intros; rfl
@[simp] theorem exec_madd : ∀ h o x s, exec (Instr.madd h o x) s = execMadd h o x s := by intros; rfl
@[simp] theorem exec_clz : ∀ h o s, exec (Instr.clz h o) s = execClz h o s := by intros; rfl
@[simp] theorem exec_popc : ∀ h o s, exec (Instr.popc h o) s = execPopc h o s := by intros; rfl
@[simp] theorem exec_bfx : ∀ h o x s, exec (Instr.bfx h o x) s = execBfx h o x s := by intros; rfl
@[simp] theorem exec_bfi : ∀ h o x s, exec (Instr.bfi h o x) s = execBfi h o x s := by intros; rfl
@[simp] theorem exec_addi : ∀ h o x s, exec (Instr.addi h o x) s = execAddi h o x s := by intros; rfl
@[simp] theorem exec_andi : ∀ h o x s, exec (Instr.andi h o x) s = execAndi h o x s := by intros; rfl
@[simp] theorem exec_ori : ∀ h o x s, exec (Instr.ori h o x) s = execOri h o x s := by intros; rfl
@[simp] theorem exec_xori : ∀ h o x s, exec (Instr.xori h o x) s = execXori h o x s := by intros; rfl
@[simp] theorem exec_shli : ∀ h o x s, exec (Instr.shli h o x) s = execShli h o x s := by intros; rfl
@[simp] theorem exec_shri : ∀ h o x s, exec (Instr.shri h o x) s = execShri h o x s := by intros; rfl
@[simp] theorem exec_srai : ∀ h o x s, exec (Instr.srai h o x) s = execSrai h o x s := by intros; rfl
@[simp] theorem exec_slti : ∀ h o x s, exec (Instr.slti h o x) s = execSlti h o x s := by intros; rfl
@[simp] theorem exec_li : ∀ h o x s, exec (Instr.li h o x) s = execLi h o x s := by intros; rfl
@[simp] theorem exec_lih : ∀ h o x s, exec (Instr.lih h o x) s = execLih h o x s := by intros; rfl
@[simp] theorem exec_ld : ∀ h o x s, exec (Instr.ld h o x) s = execLd h o x s := by intros; rfl
@[simp] theorem exec_ldz : ∀ h o x s, exec (Instr.ldz h o x) s = execLdz h o x s := by intros; rfl
@[simp] theorem exec_st : ∀ h o x s, exec (Instr.st h o x) s = execSt h o x s := by intros; rfl
@[simp] theorem exec_ldt : ∀ h o x s, exec (Instr.ldt h o x) s = execLdt h o x s := by intros; rfl
@[simp] theorem exec_stt : ∀ h o x s, exec (Instr.stt h o x) s = execStt h o x s := by intros; rfl
@[simp] theorem exec_shset : ∀ h o s, exec (Instr.shset h o) s = execShset h o s := by intros; rfl
@[simp] theorem exec_shseti : ∀ h o x s, exec (Instr.shseti h o x) s = execShseti h o x s := by intros; rfl
@[simp] theorem exec_shget : ∀ h o s, exec (Instr.shget h o) s = execShget h o s := by intros; rfl
@[simp] theorem exec_shmin : ∀ h o s, exec (Instr.shmin h o) s = execShmin h o s := by intros; rfl
@[simp] theorem exec_shadd : ∀ h o s, exec (Instr.shadd h o) s = execShadd h o s := by intros; rfl
@[simp] theorem exec_shcpy : ∀ h o s, exec (Instr.shcpy h o) s = execShcpy h o s := by intros; rfl
@[simp] theorem exec_lyld : ∀ h o x s, exec (Instr.lyld h o x) s = execLyld h o x s := by intros; rfl
@[simp] theorem exec_lyst : ∀ h o x s, exec (Instr.lyst h o x) s = execLyst h o x s := by intros; rfl
@[simp] theorem exec_lyget : ∀ h o s, exec (Instr.lyget h o) s = execLyget h o s := by intros; rfl
@[simp] theorem exec_lyset : ∀ h o s, exec (Instr.lyset h o) s = execLyset h o s := by intros; rfl
@[simp] theorem exec_lyseg : ∀ h o s, exec (Instr.lyseg h o) s = execLyseg h o s := by intros; rfl
@[simp] theorem exec_sync : ∀ s, exec .sync s = execSync s := by intros; rfl
@[simp] theorem exec_phase : ∀ o s, exec (Instr.phase o) s = execPhase o s := by intros; rfl
@[simp] theorem exec_phaseLong : ∀ o x s, exec (Instr.phaseLong o x) s = execPhaseLong o x s := by intros; rfl
@[simp] theorem exec_mode : ∀ o s, exec (Instr.mode o) s = execMode o s := by intros; rfl
@[simp] theorem exec_endJ : ∀ s, exec .endJ s = execEndJ s := by intros; rfl
@[simp] theorem exec_yieldJ : ∀ s, exec .yieldJ s = execYieldJ s := by intros; rfl
@[simp] theorem exec_talloc : ∀ r o x s, exec (Instr.talloc r o x) s = execTalloc r o x s := by intros; rfl
@[simp] theorem exec_tfree : ∀ r o x s, exec (Instr.tfree r o x) s = execTfree r o x s := by intros; rfl
@[simp] theorem exec_tshrink : ∀ r o x s, exec (Instr.tshrink r o x) s = execTshrink r o x s := by intros; rfl
@[simp] theorem exec_ttag : ∀ r o x s, exec (Instr.ttag r o x) s = execTtag r o x s := by intros; rfl
@[simp] theorem exec_tqry : ∀ r o x s, exec (Instr.tqry r o x) s = execTqry r o x s := by intros; rfl
@[simp] theorem exec_tcopy : ∀ r o x s, exec (Instr.tcopy r o x) s = execTcopy r o x s := by intros; rfl
@[simp] theorem exec_tslot : ∀ r o x s, exec (Instr.tslot r o x) s = execTslot r o x s := by intros; rfl
@[simp] theorem exec_tgath : ∀ r o x s, exec (Instr.tgath r o x) s = execTgath r o x s := by intros; rfl
@[simp] theorem exec_tscat : ∀ r o x s, exec (Instr.tscat r o x) s = execTscat r o x s := by intros; rfl
@[simp] theorem exec_twarm : ∀ r o x s, exec (Instr.twarm r o x) s = execTwarm r o x s := by intros; rfl
@[simp] theorem exec_chkick : ∀ r o x s, exec (Instr.chkick r o x) s = execChkick r o x s := by intros; rfl
@[simp] theorem exec_chlink : ∀ r o s, exec (Instr.chlink r o) s = execChlink r o s := by intros; rfl
@[simp] theorem exec_ixwalk : ∀ r o s, exec (Instr.ixwalk r o) s = execIxwalk r o s := by intros; rfl
@[simp] theorem exec_ixsplit : ∀ r o s, exec (Instr.ixsplit r o) s = execIxsplit r o s := by intros; rfl
@[simp] theorem exec_tblk : ∀ r o s, exec (Instr.tblk r o) s = execTblk r o s := by intros; rfl
@[simp] theorem exec_atom : ∀ r o x s, exec (Instr.atom r o x) s = execAtom r o x s := by intros; rfl
@[simp] theorem exec_atomr : ∀ r o x s, exec (Instr.atomr r o x) s = execAtomr r o x s := by intros; rfl
@[simp] theorem exec_cas : ∀ r o x s, exec (Instr.cas r o x) s = execCas r o x s := by intros; rfl
@[simp] theorem exec_qsubmit : ∀ r o s, exec (Instr.qsubmit r o) s = execQsubmit r o s := by intros; rfl
@[simp] theorem exec_qstat : ∀ r o s, exec (Instr.qstat r o) s = execQstat r o s := by intros; rfl
@[simp] theorem exec_ginfo : ∀ r o s, exec (Instr.ginfo r o) s = execGinfo r o s := by intros; rfl
@[simp] theorem exec_gyield : ∀ r o s, exec (Instr.gyield r o) s = execGyield r o s := by intros; rfl
@[simp] theorem exec_mdisp : ∀ r o s, exec (Instr.mdisp r o) s = execMdisp r o s := by intros; rfl
@[simp] theorem exec_ctxinfo : ∀ r o s, exec (Instr.ctxinfo r o) s = execCtxinfo r o s := by intros; rfl
@[simp] theorem exec_bjoin : ∀ r o s, exec (Instr.bjoin r o) s = execBjoin r o s := by intros; rfl
@[simp] theorem exec_barv : ∀ r o s, exec (Instr.barv r o) s = execBarv r o s := by intros; rfl
@[simp] theorem exec_bwait : ∀ r o s, exec (Instr.bwait r o) s = execBwait r o s := by intros; rfl
@[simp] theorem exec_bleave : ∀ r o s, exec (Instr.bleave r o) s = execBleave r o s := by intros; rfl
@[simp] theorem exec_ccadd : ∀ r o s, exec (Instr.ccadd r o) s = execCcadd r o s := by intros; rfl
@[simp] theorem exec_ccwait : ∀ r o s, exec (Instr.ccwait r o) s = execCcwait r o s := by intros; rfl
@[simp] theorem exec_pgfork : ∀ r o x s, exec (Instr.pgfork r o x) s = execPgfork r o x s := by intros; rfl
@[simp] theorem exec_pgdrop : ∀ r o x s, exec (Instr.pgdrop r o x) s = execPgdrop r o x s := by intros; rfl
@[simp] theorem exec_pgpin : ∀ r o x s, exec (Instr.pgpin r o x) s = execPgpin r o x s := by intros; rfl
@[simp] theorem exec_pgunpin : ∀ r o x s, exec (Instr.pgunpin r o x) s = execPgunpin r o x s := by intros; rfl
@[simp] theorem exec_pgqry : ∀ r o s, exec (Instr.pgqry r o) s = execPgqry r o s := by intros; rfl
@[simp] theorem exec_pgmove : ∀ r o x s, exec (Instr.pgmove r o x) s = execPgmove r o x s := by intros; rfl
@[simp] theorem exec_xcpost : ∀ r o s, exec (Instr.xcpost r o) s = execXcpost r o s := by intros; rfl
@[simp] theorem exec_xcarm : ∀ r o s, exec (Instr.xcarm r o) s = execXcarm r o s := by intros; rfl
@[simp] theorem exec_xcwait : ∀ r o s, exec (Instr.xcwait r o) s = execXcwait r o s := by intros; rfl
@[simp] theorem exec_xcqry : ∀ r o s, exec (Instr.xcqry r o) s = execXcqry r o s := by intros; rfl
@[simp] theorem exec_stbindOpen : ∀ r o s, exec (Instr.stbindOpen r o) s = execStbindOpen r o s := by intros; rfl
@[simp] theorem exec_stbindAppend : ∀ r o s, exec (Instr.stbindAppend r o) s = execStbindAppend r o s := by intros; rfl
@[simp] theorem exec_stbindCommit : ∀ r o s, exec (Instr.stbindCommit r o) s = execStbindCommit r o s := by intros; rfl
@[simp] theorem exec_stbindClose : ∀ r o s, exec (Instr.stbindClose r o) s = execStbindClose r o s := by intros; rfl
@[simp] theorem exec_sttake : ∀ r o s, exec (Instr.sttake r o) s = execSttake r o s := by intros; rfl
@[simp] theorem exec_sttick : ∀ r o s, exec (Instr.sttick r o) s = execSttick r o s := by intros; rfl
@[simp] theorem exec_stlate : ∀ r o s, exec (Instr.stlate r o) s = execStlate r o s := by intros; rfl
@[simp] theorem exec_stsink : ∀ r o s, exec (Instr.stsink r o) s = execStsink r o s := by intros; rfl
@[simp] theorem exec_trmark : ∀ r o s, exec (Instr.trmark r o) s = execTrmark r o s := by intros; rfl
@[simp] theorem exec_trmarkL : ∀ r o s, exec (Instr.trmarkL r o) s = execTrmarkL r o s := by intros; rfl
@[simp] theorem exec_trspanBegin : ∀ r o s, exec (Instr.trspanBegin r o) s = execTrspanBegin r o s := by intros; rfl
@[simp] theorem exec_trspanEnd : ∀ r o s, exec (Instr.trspanEnd r o) s = execTrspanEnd r o s := by intros; rfl
@[simp] theorem exec_trqry : ∀ r o s, exec (Instr.trqry r o) s = execTrqry r o s := by intros; rfl
@[simp] theorem exec_staterd : ∀ r o s, exec (Instr.staterd r o) s = execStaterd r o s := by intros; rfl
@[simp] theorem exec_vadd : ∀ r o x s, exec (Instr.vadd r o x) s = execVadd r o x s := by intros; rfl
@[simp] theorem exec_vsub : ∀ r o x s, exec (Instr.vsub r o x) s = execVsub r o x s := by intros; rfl
@[simp] theorem exec_vmul : ∀ r o x s, exec (Instr.vmul r o x) s = execVmul r o x s := by intros; rfl
@[simp] theorem exec_vfma : ∀ r o x s, exec (Instr.vfma r o x) s = execVfma r o x s := by intros; rfl
@[simp] theorem exec_vmin : ∀ r o x s, exec (Instr.vmin r o x) s = execVmin r o x s := by intros; rfl
@[simp] theorem exec_vmax : ∀ r o x s, exec (Instr.vmax r o x) s = execVmax r o x s := by intros; rfl
@[simp] theorem exec_vabs : ∀ r o x s, exec (Instr.vabs r o x) s = execVabs r o x s := by intros; rfl
@[simp] theorem exec_vneg : ∀ r o x s, exec (Instr.vneg r o x) s = execVneg r o x s := by intros; rfl
@[simp] theorem exec_vand : ∀ r o x s, exec (Instr.vand r o x) s = execVand r o x s := by intros; rfl
@[simp] theorem exec_vor : ∀ r o x s, exec (Instr.vor r o x) s = execVor r o x s := by intros; rfl
@[simp] theorem exec_vxor : ∀ r o x s, exec (Instr.vxor r o x) s = execVxor r o x s := by intros; rfl
@[simp] theorem exec_vnot : ∀ r o x s, exec (Instr.vnot r o x) s = execVnot r o x s := by intros; rfl
@[simp] theorem exec_vshl : ∀ r o x s, exec (Instr.vshl r o x) s = execVshl r o x s := by intros; rfl
@[simp] theorem exec_vshr : ∀ r o x s, exec (Instr.vshr r o x) s = execVshr r o x s := by intros; rfl
@[simp] theorem exec_vsra : ∀ r o x s, exec (Instr.vsra r o x) s = execVsra r o x s := by intros; rfl
@[simp] theorem exec_vcmp : ∀ r o x s, exec (Instr.vcmp r o x) s = execVcmp r o x s := by intros; rfl
@[simp] theorem exec_vsel : ∀ r o x s, exec (Instr.vsel r o x) s = execVsel r o x s := by intros; rfl
@[simp] theorem exec_vmov : ∀ r o x s, exec (Instr.vmov r o x) s = execVmov r o x s := by intros; rfl
@[simp] theorem exec_vsplat : ∀ r o x s, exec (Instr.vsplat r o x) s = execVsplat r o x s := by intros; rfl
@[simp] theorem exec_vidx : ∀ r o x s, exec (Instr.vidx r o x) s = execVidx r o x s := by intros; rfl
@[simp] theorem exec_vcvt : ∀ r o x s, exec (Instr.vcvt r o x) s = execVcvt r o x s := by intros; rfl
@[simp] theorem exec_vpack : ∀ r o x s, exec (Instr.vpack r o x) s = execVpack r o x s := by intros; rfl
@[simp] theorem exec_vunpk : ∀ r o x s, exec (Instr.vunpk r o x) s = execVunpk r o x s := by intros; rfl
@[simp] theorem exec_vqnt : ∀ r o x s, exec (Instr.vqnt r o x) s = execVqnt r o x s := by intros; rfl
@[simp] theorem exec_vdqnt : ∀ r o x s, exec (Instr.vdqnt r o x) s = execVdqnt r o x s := by intros; rfl
@[simp] theorem exec_vrotr : ∀ r o x s, exec (Instr.vrotr r o x) s = execVrotr r o x s := by intros; rfl
@[simp] theorem exec_vrotc : ∀ r o x s, exec (Instr.vrotc r o x) s = execVrotc r o x s := by intros; rfl
@[simp] theorem exec_vbcr : ∀ r o x s, exec (Instr.vbcr r o x) s = execVbcr r o x s := by intros; rfl
@[simp] theorem exec_vbcc : ∀ r o x s, exec (Instr.vbcc r o x) s = execVbcc r o x s := by intros; rfl
@[simp] theorem exec_vredr : ∀ r o x s, exec (Instr.vredr r o x) s = execVredr r o x s := by intros; rfl
@[simp] theorem exec_vredc : ∀ r o x s, exec (Instr.vredc r o x) s = execVredc r o x s := by intros; rfl
@[simp] theorem exec_vargr : ∀ r o x s, exec (Instr.vargr r o x) s = execVargr r o x s := by intros; rfl
@[simp] theorem exec_vargc : ∀ r o x s, exec (Instr.vargc r o x) s = execVargc r o x s := by intros; rfl
@[simp] theorem exec_vscanr : ∀ r o x s, exec (Instr.vscanr r o x) s = execVscanr r o x s := by intros; rfl
@[simp] theorem exec_vscanc : ∀ r o x s, exec (Instr.vscanc r o x) s = execVscanc r o x s := by intros; rfl
@[simp] theorem exec_vtrn : ∀ r o x s, exec (Instr.vtrn r o x) s = execVtrn r o x s := by intros; rfl
@[simp] theorem exec_vexp2 : ∀ r o x s, exec (Instr.vexp2 r o x) s = execVexp2 r o x s := by intros; rfl
@[simp] theorem exec_vlog2 : ∀ r o x s, exec (Instr.vlog2 r o x) s = execVlog2 r o x s := by intros; rfl
@[simp] theorem exec_vrcp : ∀ r o x s, exec (Instr.vrcp r o x) s = execVrcp r o x s := by intros; rfl
@[simp] theorem exec_vrsq : ∀ r o x s, exec (Instr.vrsq r o x) s = execVrsq r o x s := by intros; rfl
@[simp] theorem exec_vtanh : ∀ r o x s, exec (Instr.vtanh r o x) s = execVtanh r o x s := by intros; rfl
@[simp] theorem exec_vsigm : ∀ r o x s, exec (Instr.vsigm r o x) s = execVsigm r o x s := by intros; rfl
@[simp] theorem exec_vsin : ∀ r o x s, exec (Instr.vsin r o x) s = execVsin r o x s := by intros; rfl
@[simp] theorem exec_vcos : ∀ r o x s, exec (Instr.vcos r o x) s = execVcos r o x s := by intros; rfl
@[simp] theorem exec_vld : ∀ r o x s, exec (Instr.vld r o x) s = execVld r o x s := by intros; rfl
@[simp] theorem exec_vst : ∀ r o x s, exec (Instr.vst r o x) s = execVst r o x s := by intros; rfl
@[simp] theorem exec_vldg : ∀ r o x s, exec (Instr.vldg r o x) s = execVldg r o x s := by intros; rfl
@[simp] theorem exec_vstg : ∀ r o x s, exec (Instr.vstg r o x) s = execVstg r o x s := by intros; rfl
@[simp] theorem exec_pand : ∀ r o x s, exec (Instr.pand r o x) s = execPand r o x s := by intros; rfl
@[simp] theorem exec_por : ∀ r o x s, exec (Instr.por r o x) s = execPor r o x s := by intros; rfl
@[simp] theorem exec_pxor : ∀ r o x s, exec (Instr.pxor r o x) s = execPxor r o x s := by intros; rfl
@[simp] theorem exec_pnot : ∀ r o x s, exec (Instr.pnot r o x) s = execPnot r o x s := by intros; rfl
@[simp] theorem exec_pcnt : ∀ r o x s, exec (Instr.pcnt r o x) s = execPcnt r o x s := by intros; rfl
@[simp] theorem exec_pfirst : ∀ r o x s, exec (Instr.pfirst r o x) s = execPfirst r o x s := by intros; rfl
@[simp] theorem exec_plen : ∀ r o x s, exec (Instr.plen r o x) s = execPlen r o x s := by intros; rfl
@[simp] theorem exec_pseg : ∀ r o x s, exec (Instr.pseg r o x) s = execPseg r o x s := by intros; rfl
@[simp] theorem exec_vtox : ∀ r o x s, exec (Instr.vtox r o x) s = execVtox r o x s := by intros; rfl
@[simp] theorem exec_xtov : ∀ r o x s, exec (Instr.xtov r o x) s = execXtov r o x s := by intros; rfl
@[simp] theorem exec_vfmt : ∀ r o s, exec (Instr.vfmt r o) s = execVfmt r o s := by intros; rfl
@[simp] theorem exec_vfmtImm : ∀ r o x s, exec (Instr.vfmtImm r o x) s = execVfmtImm r o x s := by intros; rfl
@[simp] theorem exec_slclaim : ∀ r o s, exec (Instr.slclaim r o) s = execSlclaim r o s := by intros; rfl
@[simp] theorem exec_slrel : ∀ r o s, exec (Instr.slrel r o) s = execSlrel r o s := by intros; rfl
@[simp] theorem exec_slqry : ∀ r o s, exec (Instr.slqry r o) s = execSlqry r o s := by intros; rfl
@[simp] theorem exec_accz : ∀ r o x s, exec (Instr.accz r o x) s = execAccz r o x s := by intros; rfl
@[simp] theorem exec_accld : ∀ r o x s, exec (Instr.accld r o x) s = execAccld r o x s := by intros; rfl
@[simp] theorem exec_nlvl : ∀ r o x s, exec (Instr.nlvl r o x) s = execNlvl r o x s := by intros; rfl
@[simp] theorem exec_nops : ∀ r o x s, exec (Instr.nops r o x) s = execNops r o x s := by intros; rfl
@[simp] theorem exec_nepi : ∀ r o x s, exec (Instr.nepi r o x) s = execNepi r o x s := by intros; rfl
@[simp] theorem exec_nepiDef : ∀ r o s, exec (Instr.nepiDef r o) s = execNepiDef r o s := by intros; rfl
@[simp] theorem exec_nmode : ∀ r o s, exec (Instr.nmode r o) s = execNmode r o s := by intros; rfl
@[simp] theorem exec_nseg : ∀ r o s, exec (Instr.nseg r o) s = execNseg r o s := by intros; rfl
@[simp] theorem exec_nscl : ∀ r o s, exec (Instr.nscl r o) s = execNscl r o s := by intros; rfl
@[simp] theorem exec_ngo : ∀ r s, exec (Instr.ngo r) s = execNgo r s := by intros; rfl
@[simp] theorem exec_nwait : ∀ r s, exec (Instr.nwait r) s = execNwait r s := by intros; rfl
@[simp] theorem exec_ndrain : ∀ r o x s, exec (Instr.ndrain r o x) s = execNdrain r o x s := by intros; rfl
@[simp] theorem exec_smxrd : ∀ r o x s, exec (Instr.smxrd r o x) s = execSmxrd r o x s := by intros; rfl
@[simp] theorem exec_smxset : ∀ r o x s, exec (Instr.smxset r o x) s = execSmxset r o x s := by intros; rfl
@[simp] theorem exec_nqry : ∀ r o s, exec (Instr.nqry r o) s = execNqry r o s := by intros; rfl
@[simp] theorem exec_wst : ∀ r o x s, exec (Instr.wst r o x) s = execWst r o x s := by intros; rfl
@[simp] theorem exec_wstd : ∀ r o x s, exec (Instr.wstd r o x) s = execWstd r o x s := by intros; rfl
@[simp] theorem exec_wchain : ∀ r o x s, exec (Instr.wchain r o x) s = execWchain r o x s := by intros; rfl
@[simp] theorem exec_wpost : ∀ r o s, exec (Instr.wpost r o) s = execWpost r o s := by intros; rfl
@[simp] theorem exec_wcmpl : ∀ r s, exec (Instr.wcmpl r) s = execWcmpl r s := by intros; rfl
@[simp] theorem exec_wflush : ∀ r s, exec (Instr.wflush r) s = execWflush r s := by intros; rfl
@[simp] theorem exec_qkick : ∀ fn v s, exec (Instr.qkick fn v) s = execQkick fn v s := by intros; rfl
@[simp] theorem exec_qevbits : ∀ fn v s, exec (Instr.qevbits fn v) s = execQevbits fn v s := by intros; rfl
@[simp] theorem exec_stkick : ∀ fn v s, exec (Instr.stkick fn v) s = execStkick fn v s := by intros; rfl
@[simp] theorem exec_pgdoneResident : ∀ fn rqid s, exec (Instr.pgdoneResident fn rqid) s = execPgdoneResident fn rqid s := by intros; rfl
@[simp] theorem exec_pgdoneUnmappable : ∀ fn rqid s, exec (Instr.pgdoneUnmappable fn rqid) s = execPgdoneUnmappable fn rqid s := by intros; rfl
@[simp] theorem exec_pgdoneDenied : ∀ fn rqid s, exec (Instr.pgdoneDenied fn rqid) s = execPgdoneDenied fn rqid s := by intros; rfl
@[simp] theorem exec_mtflushGo : ∀ fn v s, exec (Instr.mtflushGo fn v) s = execMtflushGo fn v s := by intros; rfl
@[simp] theorem exec_mtflushRetry : ∀ fn v s, exec (Instr.mtflushRetry fn v) s = execMtflushRetry fn v s := by intros; rfl
@[simp] theorem exec_mtflushDiscard : ∀ fn v s, exec (Instr.mtflushDiscard fn v) s = execMtflushDiscard fn v s := by intros; rfl
@[simp] theorem exec_tlbinv : ∀ fn v s, exec (Instr.tlbinv fn v) s = execTlbinv fn v s := by intros; rfl
@[simp] theorem exec_ctxcmdLoad : ∀ fn ctx s, exec (Instr.ctxcmdLoad fn ctx) s = execCtxcmdLoad fn ctx s := by intros; rfl
@[simp] theorem exec_ctxcmdSave : ∀ fn ctx s, exec (Instr.ctxcmdSave fn ctx) s = execCtxcmdSave fn ctx s := by intros; rfl
@[simp] theorem exec_ctxcmdDrain : ∀ fn ctx s, exec (Instr.ctxcmdDrain fn ctx) s = execCtxcmdDrain fn ctx s := by intros; rfl
@[simp] theorem exec_ctxcmdTeardown : ∀ fn ctx s, exec (Instr.ctxcmdTeardown fn ctx) s = execCtxcmdTeardown fn ctx s := by intros; rfl
@[simp] theorem exec_ctxcmdRelease : ∀ fn ctx s, exec (Instr.ctxcmdRelease fn ctx) s = execCtxcmdRelease fn ctx s := by intros; rfl
@[simp] theorem exec_ctxcmdSwap : ∀ fn ctx s, exec (Instr.ctxcmdSwap fn ctx) s = execCtxcmdSwap fn ctx s := by intros; rfl
@[simp] theorem exec_ctxcmdAbort : ∀ fn ctx s, exec (Instr.ctxcmdAbort fn ctx) s = execCtxcmdAbort fn ctx s := by intros; rfl
@[simp] theorem exec_ctxringConsWrite : ∀ fn handler cons s, exec (Instr.ctxringConsWrite fn handler cons) s = execCtxringConsWrite fn handler cons s := by intros; rfl
@[simp] theorem exec_fpcmdAdd : ∀ fn v s, exec (Instr.fpcmdAdd fn v) s = execFpcmdAdd fn v s := by intros; rfl
@[simp] theorem exec_fpcmdTake : ∀ fn v s, exec (Instr.fpcmdTake fn v) s = execFpcmdTake fn v s := by intros; rfl
@[simp] theorem exec_fpcmdCount : ∀ fn v s, exec (Instr.fpcmdCount fn v) s = execFpcmdCount fn v s := by intros; rfl
@[simp] theorem exec_inspdRead : ∀ s, exec .inspdRead s = execInspdRead s := by intros; rfl
@[simp] theorem exec_inspdBreakpointWrite : ∀ v s, exec (Instr.inspdBreakpointWrite v) s = execInspdBreakpointWrite v s := by intros; rfl
@[simp] theorem exec_inspdResume : ∀ v s, exec (Instr.inspdResume v) s = execInspdResume v s := by intros; rfl
@[simp] theorem exec_traceSinkEnable : ∀ n v s, exec (Instr.traceSinkEnable n v) s = execTraceSinkEnable n v s := by intros; rfl
@[simp] theorem exec_registerWrite : ∀ fn off v s, exec (Instr.registerWrite fn off v) s = execRegisterWrite fn off v s := by intros; rfl
@[simp] theorem exec_moduleReset : ∀ s, exec .moduleReset s = execModuleReset s := by intros; rfl
@[simp] theorem exec_coolantLimit : ∀ tempC flowCL s, exec (Instr.coolantLimit tempC flowCL) s = execCoolantLimit tempC flowCL s := by intros; rfl
@[simp] theorem exec_junctionTemperature : ∀ die tempC s, exec (Instr.junctionTemperature die tempC) s = execJunctionTemperature die tempC s := by intros; rfl
@[simp] theorem exec_powerMeasure : ∀ die mW s, exec (Instr.powerMeasure die mW) s = execPowerMeasure die mW s := by intros; rfl
@[simp] theorem exec_patrolScrub : ∀ loc addr bad s, exec (Instr.patrolScrub loc addr bad) s = execPatrolScrub loc addr bad s := by intros; rfl
@[simp] theorem exec_timingReplay : ∀ die s, exec (Instr.timingReplay die) s = execTimingReplay die s := by intros; rfl
@[simp] theorem exec_firmwareLiveUpdate : ∀ img s, exec (Instr.firmwareLiveUpdate img) s = execFirmwareLiveUpdate img s := by intros; rfl
@[simp] theorem exec_firmwareHeartbeatMiss : ∀ s, exec .firmwareHeartbeatMiss s = execFirmwareHeartbeatMiss s := by intros; rfl
@[simp] theorem exec_strandPlace : ∀ die s, exec (Instr.strandPlace die) s = execStrandPlace die s := by intros; rfl
@[simp] theorem exec_strandStart : ∀ k s, exec (Instr.strandStart k) s = execStrandStart k s := by intros; rfl
@[simp] theorem exec_strandEnded : ∀ k s, exec (Instr.strandEnded k) s = execStrandEnded k s := by intros; rfl
@[simp] theorem exec_deadlock : ∀ k s, exec (Instr.deadlock k) s = execDeadlock k s := by intros; rfl
@[simp] theorem exec_waittExpire : ∀ k g s, exec (Instr.waittExpire k g) s = execWaittExpire k g s := by intros; rfl
@[simp] theorem exec_copyComplete : ∀ k op s, exec (Instr.copyComplete k op) s = execCopyComplete k op s := by intros; rfl
@[simp] theorem exec_slotFillComplete : ∀ k op s, exec (Instr.slotFillComplete k op) s = execSlotFillComplete k op s := by intros; rfl
@[simp] theorem exec_twarmComplete : ∀ k op s, exec (Instr.twarmComplete k op) s = execTwarmComplete k op s := by intros; rfl
@[simp] theorem exec_chainCopy : ∀ k op s, exec (Instr.chainCopy k op) s = execChainCopy k op s := by intros; rfl
@[simp] theorem exec_chainGather : ∀ k op s, exec (Instr.chainGather k op) s = execChainGather k op s := by intros; rfl
@[simp] theorem exec_chainPost : ∀ k op s, exec (Instr.chainPost k op) s = execChainPost k op s := by intros; rfl
@[simp] theorem exec_chainWait : ∀ k op s, exec (Instr.chainWait k op) s = execChainWait k op s := by intros; rfl
@[simp] theorem exec_chainLoop : ∀ k op s, exec (Instr.chainLoop k op) s = execChainLoop k op s := by intros; rfl
@[simp] theorem exec_chainIf : ∀ k op s, exec (Instr.chainIf k op) s = execChainIf k op s := by intros; rfl
@[simp] theorem exec_chainLink : ∀ k op s, exec (Instr.chainLink k op) s = execChainLink k op s := by intros; rfl
@[simp] theorem exec_chainEnd : ∀ k op s, exec (Instr.chainEnd k op) s = execChainEnd k op s := by intros; rfl
@[simp] theorem exec_indexComplete : ∀ k op s, exec (Instr.indexComplete k op) s = execIndexComplete k op s := by intros; rfl
@[simp] theorem exec_nestStep : ∀ k s, exec (Instr.nestStep k) s = execNestStep k s := by intros; rfl
@[simp] theorem exec_nestComplete : ∀ k s, exec (Instr.nestComplete k) s = execNestComplete k s := by intros; rfl
@[simp] theorem exec_nestSlotWaitLimit : ∀ k s, exec (Instr.nestSlotWaitLimit k) s = execNestSlotWaitLimit k s := by intros; rfl
@[simp] theorem exec_slclaimGrant : ∀ k s, exec (Instr.slclaimGrant k) s = execSlclaimGrant k s := by intros; rfl
@[simp] theorem exec_phaseCommitDone : ∀ k s, exec (Instr.phaseCommitDone k) s = execPhaseCommitDone k s := by intros; rfl
@[simp] theorem exec_phaseCancel : ∀ k s, exec (Instr.phaseCancel k) s = execPhaseCancel k s := by intros; rfl
@[simp] theorem exec_phaseRefetchDone : ∀ k s, exec (Instr.phaseRefetchDone k) s = execPhaseRefetchDone k s := by intros; rfl
@[simp] theorem exec_holdTimeout : ∀ k s, exec (Instr.holdTimeout k) s = execHoldTimeout k s := by intros; rfl
@[simp] theorem exec_uncorrAbort : ∀ k loc addr s, exec (Instr.uncorrAbort k loc addr) s = execUncorrAbort k loc addr s := by intros; rfl
@[simp] theorem exec_pageWalk : ∀ k va wr s, exec (Instr.pageWalk k va wr) s = execPageWalk k va wr s := by intros; rfl
@[simp] theorem exec_remoteRefusalRetry : ∀ tag s, exec (Instr.remoteRefusalRetry tag) s = execRemoteRefusalRetry tag s := by intros; rfl
@[simp] theorem exec_atomicEngineServe : ∀ eng s, exec (Instr.atomicEngineServe eng) s = execAtomicEngineServe eng s := by intros; rfl
@[simp] theorem exec_queueSlotGrant : ∀ die s, exec (Instr.queueSlotGrant die) s = execQueueSlotGrant die s := by intros; rfl
@[simp] theorem exec_queueParse : ∀ q s, exec (Instr.queueParse q) s = execQueueParse q s := by intros; rfl
@[simp] theorem exec_queueReread : ∀ q s, exec (Instr.queueReread q) s = execQueueReread q s := by intros; rfl
@[simp] theorem exec_queueDispatch : ∀ die s, exec (Instr.queueDispatch die) s = execQueueDispatch die s := by intros; rfl
@[simp] theorem exec_fencePacketTest : ∀ q s, exec (Instr.fencePacketTest q) s = execFencePacketTest q s := by intros; rfl
@[simp] theorem exec_qsubmitPush : ∀ k s, exec (Instr.qsubmitPush k) s = execQsubmitPush k s := by intros; rfl
@[simp] theorem exec_qsubmitFull : ∀ k s, exec (Instr.qsubmitFull k) s = execQsubmitFull k s := by intros; rfl
@[simp] theorem exec_taskRetire : ∀ task s, exec (Instr.taskRetire task) s = execTaskRetire task s := by intros; rfl
@[simp] theorem exec_groupEvaluate : ∀ die s, exec (Instr.groupEvaluate die) s = execGroupEvaluate die s := by intros; rfl
@[simp] theorem exec_bwaitTimeout : ∀ k s, exec (Instr.bwaitTimeout k) s = execBwaitTimeout k s := by intros; rfl
@[simp] theorem exec_ccwaitPoll : ∀ k s, exec (Instr.ccwaitPoll k) s = execCcwaitPoll k s := by intros; rfl
@[simp] theorem exec_ccwaitTimeout : ∀ k s, exec (Instr.ccwaitTimeout k) s = execCcwaitTimeout k s := by intros; rfl
@[simp] theorem exec_xcwaitTimeout : ∀ k s, exec (Instr.xcwaitTimeout k) s = execXcwaitTimeout k s := by intros; rfl
@[simp] theorem exec_contextLoadChecks : ∀ ctx s, exec (Instr.contextLoadChecks ctx) s = execContextLoadChecks ctx s := by intros; rfl
@[simp] theorem exec_contextResident : ∀ ctx s, exec (Instr.contextResident ctx) s = execContextResident ctx s := by intros; rfl
@[simp] theorem exec_contextSaved : ∀ ctx s, exec (Instr.contextSaved ctx) s = execContextSaved ctx s := by intros; rfl
@[simp] theorem exec_swapReload : ∀ ctx s, exec (Instr.swapReload ctx) s = execSwapReload ctx s := by intros; rfl
@[simp] theorem exec_budgetPeriodRollover : ∀ ctx s, exec (Instr.budgetPeriodRollover ctx) s = execBudgetPeriodRollover ctx s := by intros; rfl
@[simp] theorem exec_budgetExhausted : ∀ ctx s, exec (Instr.budgetExhausted ctx) s = execBudgetExhausted ctx s := by intros; rfl
@[simp] theorem exec_preemptImmediate : ∀ k s, exec (Instr.preemptImmediate k) s = execPreemptImmediate k s := by intros; rfl
@[simp] theorem exec_obdaokFrameReceive : ∀ port frame s, exec (Instr.obdaokFrameReceive port frame) s = execObdaokFrameReceive port frame s := by intros; rfl
@[simp] theorem exec_linkWrite : ∀ port q s, exec (Instr.linkWrite port q) s = execLinkWrite port q s := by intros; rfl
@[simp] theorem exec_linkWriteRed : ∀ port q s, exec (Instr.linkWriteRed port q) s = execLinkWriteRed port q s := by intros; rfl
@[simp] theorem exec_linkRead : ∀ port q s, exec (Instr.linkRead port q) s = execLinkRead port q s := by intros; rfl
@[simp] theorem exec_linkNotify : ∀ port q s, exec (Instr.linkNotify port q) s = execLinkNotify port q s := by intros; rfl
@[simp] theorem exec_linkAtomic : ∀ port q s, exec (Instr.linkAtomic port q) s = execLinkAtomic port q s := by intros; rfl
@[simp] theorem exec_linkAgree : ∀ port q s, exec (Instr.linkAgree port q) s = execLinkAgree port q s := by intros; rfl
@[simp] theorem exec_linkResponse : ∀ port p s, exec (Instr.linkResponse port p) s = execLinkResponse port p s := by intros; rfl
@[simp] theorem exec_linkKeepalive : ∀ port s, exec (Instr.linkKeepalive port) s = execLinkKeepalive port s := by intros; rfl
@[simp] theorem exec_linkWidth : ∀ port lanes s, exec (Instr.linkWidth port lanes) s = execLinkWidth port lanes s := by intros; rfl
@[simp] theorem exec_linkPause : ∀ port s, exec (Instr.linkPause port) s = execLinkPause port s := by intros; rfl
@[simp] theorem exec_linkResume : ∀ port s, exec (Instr.linkResume port) s = execLinkResume port s := by intros; rfl
@[simp] theorem exec_portEnable : ∀ port s, exec (Instr.portEnable port) s = execPortEnable port s := by intros; rfl
@[simp] theorem exec_portTrainingEnd : ∀ port lanes s, exec (Instr.portTrainingEnd port lanes) s = execPortTrainingEnd port lanes s := by intros; rfl
@[simp] theorem exec_portTrainingFail : ∀ port s, exec (Instr.portTrainingFail port) s = execPortTrainingFail port s := by intros; rfl
@[simp] theorem exec_portLaneLost : ∀ port s, exec (Instr.portLaneLost port) s = execPortLaneLost port s := by intros; rfl
@[simp] theorem exec_portDisable : ∀ port s, exec (Instr.portDisable port) s = execPortDisable port s := by intros; rfl
@[simp] theorem exec_portReset : ∀ port s, exec (Instr.portReset port) s = execPortReset port s := by intros; rfl
@[simp] theorem exec_ptpEventMessage : ∀ port offsetNs s, exec (Instr.ptpEventMessage port offsetNs) s = execPtpEventMessage port offsetNs s := by intros; rfl
@[simp] theorem exec_grandmasterLoss : ∀ s, exec .grandmasterLoss s = execGrandmasterLoss s := by intros; rfl
@[simp] theorem exec_workEntryFire : ∀ w s, exec (Instr.workEntryFire w) s = execWorkEntryFire w s := by intros; rfl
@[simp] theorem exec_workEntryComplete : ∀ w s, exec (Instr.workEntryComplete w) s = execWorkEntryComplete w s := by intros; rfl
@[simp] theorem exec_collectiveExpand : ∀ cid s, exec (Instr.collectiveExpand cid) s = execCollectiveExpand cid s := by intros; rfl
@[simp] theorem exec_linkHoldTimeout : ∀ task s, exec (Instr.linkHoldTimeout task) s = execLinkHoldTimeout task s := by intros; rfl
@[simp] theorem exec_cadenceTick : ∀ ctx sid s, exec (Instr.cadenceTick ctx sid) s = execCadenceTick ctx sid s := by intros; rfl
@[simp] theorem exec_streamDeadline : ∀ ctx sid s, exec (Instr.streamDeadline ctx sid) s = execStreamDeadline ctx sid s := by intros; rfl
@[simp] theorem exec_streamRecordAdmit : ∀ ctx sid s, exec (Instr.streamRecordAdmit ctx sid) s = execStreamRecordAdmit ctx sid s := by intros; rfl
@[simp] theorem exec_traceSync : ∀ die s, exec (Instr.traceSync die) s = execTraceSync die s := by intros; rfl
@[simp] theorem exec_traceEmitResume : ∀ k s, exec (Instr.traceEmitResume k) s = execTraceEmitResume k s := by intros; rfl
@[simp] theorem exec_hostMemoryWrite : ∀ fn host pa data s, exec (Instr.hostMemoryWrite fn host pa data) s = execHostMemoryWrite fn host pa data s := by intros; rfl
@[simp] theorem exec_pageMoveCopyDone : ∀ k s, exec (Instr.pageMoveCopyDone k) s = execPageMoveCopyDone k s := by intros; rfl
@[simp] theorem exec_tlbInvalidationComplete : ∀ fn s, exec (Instr.tlbInvalidationComplete fn) s = execTlbInvalidationComplete fn s := by intros; rfl
@[simp] theorem exec_inletReturn : ∀ c s, exec (Instr.inletReturn c) s = execInletReturn c s := by intros; rfl
@[simp] theorem exec_heartbeatTimeout : ∀ unit s, exec (Instr.heartbeatTimeout unit) s = execHeartbeatTimeout unit s := by intros; rfl
@[simp] theorem exec_hubAgentHoldLimit : ∀ a s, exec (Instr.hubAgentHoldLimit a) s = execHubAgentHoldLimit a s := by intros; rfl
@[simp] theorem exec_stepOpenTimeout : ∀ k s, exec (Instr.stepOpenTimeout k) s = execStepOpenTimeout k s := by intros; rfl
@[simp] theorem exec_linkChainAcceptance : ∀ k op s, exec (Instr.linkChainAcceptance k op) s = execLinkChainAcceptance k op s := by intros; rfl

end Sys2Proof.Machine
end

