-- ==== Sys2Proof/Laws/Memory.lean ====
section
/-! SUPPORT. Sparse tables and memory: what a table reads after a write, that every write of memory keeps the canonical
form, and that it changes the bytes written alone. -/

namespace Sys2Proof

variable {α : Type}

/-! ### Tables -/

@[simp] theorem SMap.get?_set (m : SMap α) (i : Nat) (v : α) : (m.set i v).get? i = some v := by
  induction m with
  | nil => simp [SMap.set, SMap.get?]
  | cons p m ih =>
    obtain ⟨k, w⟩ := p
    simp only [SMap.set]
    split
    · rename_i h
      simp [SMap.get?, h]
    · split
      · simp [SMap.get?]
      · rename_i h1 h2
        simp [SMap.get?, h1, h2, ih]

theorem SMap.get?_set_ne (m : SMap α) {i j : Nat} (v : α) (h : j ≠ i) : (m.set i v).get? j = m.get? j := by
  induction m with
  | nil =>
    simp only [SMap.set, SMap.get?, h, if_false]
    split <;> rfl
  | cons p m ih =>
    obtain ⟨k, w⟩ := p
    simp only [SMap.set]
    split
    · rename_i hk
      simp only [SMap.get?, ← hk, h, if_false]
    · split
      · simp only [SMap.get?, h, if_false]
        split
        · rename_i h1 h2 h3
          rw [if_neg (by omega), if_pos (by omega)]
        · rfl
      · simp only [SMap.get?, ih]

@[simp] theorem SMap.getD_set (m : SMap α) (i : Nat) (v d : α) : (m.set i v).getD i d = v := by simp [SMap.getD]

theorem SMap.getD_set_ne (m : SMap α) {i j : Nat} (v d : α) (h : j ≠ i) : (m.set i v).getD j d = m.getD j d := by
  simp [SMap.getD, SMap.get?_set_ne m v h]

theorem SMap.sorted_iff (m : SMap α) : m.sorted = true ↔ m.Pairwise fun p q => p.1 < q.1 := by
  induction m with
  | nil => simp [SMap.sorted]
  | cons p m ih =>
    obtain ⟨k, v⟩ := p
    cases m with
    | nil => simp [SMap.sorted]
    | cons q m =>
      obtain ⟨j, w⟩ := q
      simp only [SMap.sorted, Bool.and_eq_true, decide_eq_true_eq, ih, List.pairwise_cons]
      constructor
      · rintro ⟨h, h1, h2⟩
        refine ⟨?_, h1, h2⟩
        intro r hr
        rcases List.mem_cons.1 hr with rfl | hr
        · exact h
        · exact Nat.lt_trans h (h1 r hr)
      · rintro ⟨h, h1, h2⟩
        exact ⟨h (j, w) (by simp), h1, h2⟩

theorem SMap.mem_set {m : SMap α} {i : Nat} {v : α} {p : Nat × α} (h : p ∈ m.set i v) : p = (i, v) ∨ p ∈ m := by
  induction m with
  | nil => simpa [SMap.set] using h
  | cons q m ih =>
    obtain ⟨k, w⟩ := q
    simp only [SMap.set] at h
    split at h
    · rename_i hk
      rcases List.mem_cons.1 h with rfl | h
      · exact .inl (by rw [hk])
      · exact .inr (by simp [h])
    · split at h
      · rcases List.mem_cons.1 h with rfl | h
        · exact .inl rfl
        · exact .inr h
      · rcases List.mem_cons.1 h with rfl | h
        · exact .inr (by simp)
        · exact (ih h).imp_right fun h => by simp [h]

theorem SMap.mem_del {m : SMap α} {i : Nat} {p : Nat × α} (h : p ∈ m.del i) : p ∈ m := by
  induction m with
  | nil => simp [SMap.del] at h
  | cons q m ih =>
    obtain ⟨k, w⟩ := q
    simp only [SMap.del] at h
    split at h
    · simp [h]
    · split at h
      · exact h
      · rcases List.mem_cons.1 h with rfl | h
        · simp
        · simp [ih h]

theorem SMap.sorted_set {m : SMap α} (i : Nat) (v : α) (h : m.sorted = true) : (m.set i v).sorted = true := by
  rw [SMap.sorted_iff] at *
  induction m with
  | nil => simp [SMap.set]
  | cons p m ih =>
    obtain ⟨k, w⟩ := p
    have h' := List.pairwise_cons.1 h
    simp only [SMap.set]
    split
    · exact List.pairwise_cons.2 ⟨h'.1, h'.2⟩
    · split
      · rename_i h1 h2
        refine List.pairwise_cons.2 ⟨?_, h⟩
        intro q hq
        rcases List.mem_cons.1 hq with rfl | hq
        · exact h2
        · exact Nat.lt_trans h2 (h'.1 q hq)
      · rename_i h1 h2
        refine List.pairwise_cons.2 ⟨?_, ih h'.2⟩
        intro q hq
        rcases SMap.mem_set hq with rfl | hq
        · simp only
          omega
        · exact h'.1 q hq

theorem SMap.sorted_del {m : SMap α} (i : Nat) (h : m.sorted = true) : (m.del i).sorted = true := by
  rw [SMap.sorted_iff] at *
  induction m with
  | nil => simp [SMap.del]
  | cons p m ih =>
    obtain ⟨k, w⟩ := p
    have h' := List.pairwise_cons.1 h
    simp only [SMap.del]
    split
    · exact h'.2
    · split
      · exact h
      · exact List.pairwise_cons.2 ⟨fun q hq => h'.1 q (SMap.mem_del hq), ih h'.2⟩

theorem SMap.get?_of_lt {m : SMap α} {i : Nat} (h : ∀ p ∈ m, i < p.1) : m.get? i = none := by
  cases m with
  | nil => rfl
  | cons p m =>
    have := h p (by simp)
    simp only [SMap.get?]
    rw [if_neg (by omega), if_pos this]

theorem SMap.get?_del {m : SMap α} (i j : Nat) (h : m.sorted = true) :
    (m.del i).get? j = if j = i then none else m.get? j := by
  rw [SMap.sorted_iff] at h
  induction m with
  | nil => simp [SMap.del, SMap.get?]
  | cons p m ih =>
    obtain ⟨k, w⟩ := p
    have h' := List.pairwise_cons.1 h
    simp only [SMap.del]
    split
    · rename_i hk
      subst hk
      split
      · rename_i hj
        exact SMap.get?_of_lt fun p hp => hj ▸ h'.1 p hp
      · rename_i hj
        simp only [SMap.get?, hj, if_false]
        split
        · rename_i hlt
          exact SMap.get?_of_lt fun p hp => Nat.lt_trans hlt (h'.1 p hp)
        · rfl
    · split
      · rename_i h1 h2
        split
        · rename_i hj
          subst hj
          simp only [SMap.get?, h1, if_false, h2, if_true]
        · rfl
      · rename_i h1 h2
        simp only [SMap.get?, ih h'.2]
        by_cases hj : j = i
        · subst hj
          simp [h1, h2]
        · simp [hj]

namespace Machine

/-! ### Memory -/

theorem Memory.wf_sorted {m : Memory} (h : Memory.wf m = true) : SMap.sorted m = true := by
  simp only [Memory.wf, Bool.and_eq_true] at h
  exact h.1

theorem Memory.wf_nil : Memory.wf [] = true := rfl

/-- A write keeps the canonical form. -/
theorem Memory.wf_write {m : Memory} (a : Nat) (b : Byte) (h : Memory.wf m = true) : Memory.wf (Memory.write m a b) = true := by
  simp only [Memory.wf, Bool.and_eq_true, List.all_eq_true, bne_iff_ne] at h ⊢
  simp only [Memory.write]
  split
  · exact ⟨SMap.sorted_del a h.1, fun p hp => h.2 p (SMap.mem_del hp)⟩
  · rename_i hb
    refine ⟨SMap.sorted_set a b h.1, fun p hp => ?_⟩
    rcases SMap.mem_set hp with rfl | hp
    · exact hb
    · exact h.2 p hp

/-- A write changes the byte written alone. -/
theorem Memory.read_write {m : Memory} (a i : Nat) (b : Byte) (h : Memory.wf m = true) :
    Memory.read (Memory.write m a b) i = if i = a then b else Memory.read m i := by
  simp only [Memory.write, Memory.read]
  split
  · rename_i hb
    simp only [SMap.getD, SMap.get?_del a i (Memory.wf_sorted h)]
    split
    · rw [hb]; rfl
    · rfl
  · split
    · rename_i hi
      subst hi
      exact SMap.getD_set ..
    · rename_i hi
      exact SMap.getD_set_ne _ _ _ hi

theorem Memory.wf_writeN {m : Memory} (bs : List Byte) (a : Nat) (h : Memory.wf m = true) :
    Memory.wf (Memory.writeN m a bs) = true := by
  induction bs generalizing m a with
  | nil => exact h
  | cons b bs ih => exact ih (a + 1) (Memory.wf_write a b h)

/-- A write of several bytes changes those alone. -/
theorem Memory.read_writeN {m : Memory} (bs : List Byte) (a i : Nat) (h : Memory.wf m = true) :
    Memory.read (Memory.writeN m a bs) i =
      if a ≤ i ∧ i < a + bs.length then bs.getD (i - a) 0 else Memory.read m i := by
  induction bs generalizing m a with
  | nil =>
    rw [if_neg (by simp only [List.length_nil]; omega)]
    rfl
  | cons b bs ih =>
    simp only [Memory.writeN, ih (a + 1) (Memory.wf_write a b h), Memory.read_write a i b h, List.length_cons]
    by_cases h1 : i = a
    · subst h1
      rw [if_neg (by omega), if_pos rfl, if_pos (by omega)]
      simp
    · by_cases h2 : a + 1 ≤ i ∧ i < a + 1 + bs.length
      · rw [if_pos h2, if_pos (by omega)]
        obtain ⟨n, rfl⟩ : ∃ n, i = a + 1 + n := ⟨i - (a + 1), by omega⟩
        simp [show a + 1 + n - (a + 1) = n by omega, show a + 1 + n - a = n + 1 by omega]
      · rw [if_neg h2, if_neg h1, if_neg (by omega)]

/-- Both memories are in canonical form. -/
def Mem.wf (m : Mem) : Prop := Memory.wf m.dev = true ∧ Memory.wf m.host = true

theorem Mem.wf_put {m : Mem} (home pa : Nat) (b : List Byte) (h : m.wf) : (m.put home pa b).wf := by
  simp only [Mem.put]
  split
  · exact ⟨h.1, Memory.wf_writeN b pa h.2⟩
  · exact ⟨Memory.wf_writeN b pa h.1, h.2⟩

/-- The memory that a home names. -/
def Mem.at' (m : Mem) (home : Nat) : Memory := if home = 1 then m.host else m.dev

/-- A store changes the bytes stored alone. -/
theorem Mem.read_put {m : Mem} (home pa : Nat) (b : List Byte) (h : m.wf) (home' i : Nat) :
    Memory.read ((m.put home pa b).at' home') i =
      if (home = 1 ↔ home' = 1) ∧ pa ≤ i ∧ i < pa + b.length then b.getD (i - pa) 0 else Memory.read (m.at' home') i := by
  simp only [Mem.put, Mem.at']
  by_cases h1 : home = 1 <;> by_cases h2 : home' = 1
  · simp [h1, h2, Memory.read_writeN _ _ _ h.2]
  · simp [h1, h2]
  · simp [h1, h2]
  · simp [h1, h2, Memory.read_writeN _ _ _ h.1]

end Machine

end Sys2Proof
end

