-- ==== Sys2Proof/Laws/PerInstr.lean ====
section
/-! SUPPORT. Families of statements made instruction by instruction: Words says that an instruction's L bit tells
whether it has an extension word and that both words name the same engine. -/

namespace Sys2Proof.Laws

/-- The first word's L bit is 1 when an extension word follows (R60), and that word names the same engine (R62). -/
def Words.Statement (i : Instr) : Prop :=
  ∀ w, encode i = some w → isLong w.1 = w.2.isSome ∧ ∀ e, w.2 = some e → fld e 30 2 = fld w.1 30 2

/-- Bit 25 of a first word. -/
theorem Words.long_bit (g : BitVec 2) (rb : BitVec 4) (b : BitVec 1) (c : BitVec 8) (o : BitVec 17) :
    (g ++ rb ++ b ++ c ++ o).getLsbD 25 = b.getLsbD 0 := by
  simp only [BitVec.getLsbD_append]; rfl

/-- The engine field of both words. -/
theorem Words.eng_bits (g : BitVec 2) (rb : BitVec 4) (b : BitVec 1) (c : BitVec 8) (o : BitVec 17) (p : BitVec 30) :
    (g ++ p).extractLsb' 30 2 = (g ++ rb ++ b ++ c ++ o).extractLsb' 30 2 := by
  apply BitVec.eq_of_getLsbD_eq
  intro i hi
  have : i = 0 ∨ i = 1 := by omega
  rcases this with rfl | rfl <;> simp only [BitVec.getLsbD_extractLsb', BitVec.getLsbD_append] <;> rfl

theorem Words.of_encode (i : Instr) : Words.Statement i := by
  intro w hw
  obtain ⟨q, -, rfl⟩ := Option.map_eq_some_iff.1 hw
  refine ⟨?_, fun e he => ?_⟩
  · refine (long_bit ..).trans ?_
    cases h : q.p <;> simp [Parts.ext, h]
  · obtain ⟨p, -, rfl⟩ := Option.map_eq_some_iff.1 he
    exact eng_bits ..

theorem Words.nop (h : Hd) : Words.Statement (.nop h) := of_encode _
theorem Words.b (h : Hd) (o : FZ) (x : Option XZ) : Words.Statement (.b h o x) := of_encode _
theorem Words.beq (h : Hd) (o : FB) (x : Option XB) : Words.Statement (.beq h o x) := of_encode _
theorem Words.bne (h : Hd) (o : FB) (x : Option XB) : Words.Statement (.bne h o x) := of_encode _
theorem Words.blt (h : Hd) (o : FB) (x : Option XB) : Words.Statement (.blt h o x) := of_encode _
theorem Words.bge (h : Hd) (o : FB) (x : Option XB) : Words.Statement (.bge h o x) := of_encode _
theorem Words.bltu (h : Hd) (o : FB) (x : Option XB) : Words.Statement (.bltu h o x) := of_encode _
theorem Words.bgeu (h : Hd) (o : FB) (x : Option XB) : Words.Statement (.bgeu h o x) := of_encode _
theorem Words.bz (h : Hd) (o : FZ) (x : Option XZ) : Words.Statement (.bz h o x) := of_encode _
theorem Words.bnz (h : Hd) (o : FZ) (x : Option XZ) : Words.Statement (.bnz h o x) := of_encode _
theorem Words.bfol (h : Hd) (o : FZ) (x : Option XZ) : Words.Statement (.bfol h o x) := of_encode _
theorem Words.call (h : Hd) (o : FZ) (x : Option XZ) : Words.Statement (.call h o x) := of_encode _
theorem Words.ret (h : Hd) (o : FZ) : Words.Statement (.ret h o) := of_encode _
theorem Words.jr (h : Hd) (o : FZ) (x : Option XZ) : Words.Statement (.jr h o x) := of_encode _
theorem Words.loop (h : Hd) (o : FL) (x : Option XL) : Words.Statement (.loop h o x) := of_encode _
theorem Words.loopi (h : Hd) (o : FL) (x : Option XK) : Words.Statement (.loopi h o x) := of_encode _
theorem Words.brkl (h : Hd) (o : FL) : Words.Statement (.brkl h o) := of_encode _
theorem Words.trap (h : Hd) (o : FU) : Words.Statement (.trap h o) := of_encode _
theorem Words.gets (h : Hd) (o : FU) : Words.Statement (.gets h o) := of_encode _
theorem Words.sets (h : Hd) (o : FU) : Words.Statement (.sets h o) := of_encode _
theorem Words.tri (h : Hd) : Words.Statement (.tri h) := of_encode _
theorem Words.waitt (h : Hd) (o : F3) : Words.Statement (.waitt h o) := of_encode _
theorem Words.fence (h : Hd) (o : FU) : Words.Statement (.fence h o) := of_encode _
theorem Words.ldaq (h : Hd) (o : F3) (x : Option XM) : Words.Statement (.ldaq h o x) := of_encode _
theorem Words.strl (h : Hd) (o : F3) (x : Option XM) : Words.Statement (.strl h o x) := of_encode _
theorem Words.add (h : Hd) (o : F3) : Words.Statement (.add h o) := of_encode _
theorem Words.sub (h : Hd) (o : F3) : Words.Statement (.sub h o) := of_encode _
theorem Words.mul (h : Hd) (o : F3) : Words.Statement (.mul h o) := of_encode _
theorem Words.mulh (h : Hd) (o : F3) : Words.Statement (.mulh h o) := of_encode _
theorem Words.mulhu (h : Hd) (o : F3) : Words.Statement (.mulhu h o) := of_encode _
theorem Words.div (h : Hd) (o : F3) : Words.Statement (.div h o) := of_encode _
theorem Words.divu (h : Hd) (o : F3) : Words.Statement (.divu h o) := of_encode _
theorem Words.rem (h : Hd) (o : F3) : Words.Statement (.rem h o) := of_encode _
theorem Words.remu (h : Hd) (o : F3) : Words.Statement (.remu h o) := of_encode _
theorem Words.and (h : Hd) (o : F3) : Words.Statement (.and h o) := of_encode _
theorem Words.or (h : Hd) (o : F3) : Words.Statement (.or h o) := of_encode _
theorem Words.xor (h : Hd) (o : F3) : Words.Statement (.xor h o) := of_encode _
theorem Words.shl (h : Hd) (o : F3) : Words.Statement (.shl h o) := of_encode _
theorem Words.shr (h : Hd) (o : F3) : Words.Statement (.shr h o) := of_encode _
theorem Words.sra (h : Hd) (o : F3) : Words.Statement (.sra h o) := of_encode _
theorem Words.min (h : Hd) (o : F3) : Words.Statement (.min h o) := of_encode _
theorem Words.max (h : Hd) (o : F3) : Words.Statement (.max h o) := of_encode _
theorem Words.minu (h : Hd) (o : F3) : Words.Statement (.minu h o) := of_encode _
theorem Words.maxu (h : Hd) (o : F3) : Words.Statement (.maxu h o) := of_encode _
theorem Words.slt (h : Hd) (o : F3) : Words.Statement (.slt h o) := of_encode _
theorem Words.sltu (h : Hd) (o : F3) : Words.Statement (.sltu h o) := of_encode _
theorem Words.seq (h : Hd) (o : F3) : Words.Statement (.seq h o) := of_encode _
theorem Words.madd (h : Hd) (o : F3) (x : XR) : Words.Statement (.madd h o x) := of_encode _
theorem Words.clz (h : Hd) (o : F3) : Words.Statement (.clz h o) := of_encode _
theorem Words.popc (h : Hd) (o : F3) : Words.Statement (.popc h o) := of_encode _
theorem Words.bfx (h : Hd) (o : F3) (x : Option XR) : Words.Statement (.bfx h o x) := of_encode _
theorem Words.bfi (h : Hd) (o : F3) (x : Option XR) : Words.Statement (.bfi h o x) := of_encode _
theorem Words.addi (h : Hd) (o : FI) (x : Option XI) : Words.Statement (.addi h o x) := of_encode _
theorem Words.andi (h : Hd) (o : FI) (x : Option XI) : Words.Statement (.andi h o x) := of_encode _
theorem Words.ori (h : Hd) (o : FI) (x : Option XI) : Words.Statement (.ori h o x) := of_encode _
theorem Words.xori (h : Hd) (o : FI) (x : Option XI) : Words.Statement (.xori h o x) := of_encode _
theorem Words.shli (h : Hd) (o : FI) (x : Option XI) : Words.Statement (.shli h o x) := of_encode _
theorem Words.shri (h : Hd) (o : FI) (x : Option XI) : Words.Statement (.shri h o x) := of_encode _
theorem Words.srai (h : Hd) (o : FI) (x : Option XI) : Words.Statement (.srai h o x) := of_encode _
theorem Words.slti (h : Hd) (o : FI) (x : Option XI) : Words.Statement (.slti h o x) := of_encode _
theorem Words.li (h : Hd) (o : FU) (x : Option XU) : Words.Statement (.li h o x) := of_encode _
theorem Words.lih (h : Hd) (o : FU) (x : Option XU) : Words.Statement (.lih h o x) := of_encode _
theorem Words.ld (h : Hd) (o : F3) (x : Option XM) : Words.Statement (.ld h o x) := of_encode _
theorem Words.ldz (h : Hd) (o : F3) (x : Option XM) : Words.Statement (.ldz h o x) := of_encode _
theorem Words.st (h : Hd) (o : F3) (x : Option XM) : Words.Statement (.st h o x) := of_encode _
theorem Words.ldt (h : Hd) (o : F3) (x : Option XM) : Words.Statement (.ldt h o x) := of_encode _
theorem Words.stt (h : Hd) (o : F3) (x : Option XM) : Words.Statement (.stt h o x) := of_encode _
theorem Words.shset (h : Hd) (o : F3) : Words.Statement (.shset h o) := of_encode _
theorem Words.shseti (h : Hd) (o : FU) (x : Option XU) : Words.Statement (.shseti h o x) := of_encode _
theorem Words.shget (h : Hd) (o : F3) : Words.Statement (.shget h o) := of_encode _
theorem Words.shmin (h : Hd) (o : F3) : Words.Statement (.shmin h o) := of_encode _
theorem Words.shadd (h : Hd) (o : F3) : Words.Statement (.shadd h o) := of_encode _
theorem Words.shcpy (h : Hd) (o : F3) : Words.Statement (.shcpy h o) := of_encode _
theorem Words.lyld (h : Hd) (o : F3) (x : Option XM) : Words.Statement (.lyld h o x) := of_encode _
theorem Words.lyst (h : Hd) (o : F3) (x : Option XM) : Words.Statement (.lyst h o x) := of_encode _
theorem Words.lyget (h : Hd) (o : F3) : Words.Statement (.lyget h o) := of_encode _
theorem Words.lyset (h : Hd) (o : F3) : Words.Statement (.lyset h o) := of_encode _
theorem Words.lyseg (h : Hd) (o : F3) : Words.Statement (.lyseg h o) := of_encode _
theorem Words.sync : Words.Statement (.sync) := of_encode _
theorem Words.phase (o : BitVec 2) : Words.Statement (.phase o) := of_encode _
theorem Words.phaseLong (o : BitVec 2) (x : BitVec 30) : Words.Statement (.phaseLong o x) := of_encode _
theorem Words.mode (o : Bool) : Words.Statement (.mode o) := of_encode _
theorem Words.endJ : Words.Statement (.endJ) := of_encode _
theorem Words.yieldJ : Words.Statement (.yieldJ) := of_encode _
theorem Words.talloc (r : Ring) (o : F3) (x : XH) : Words.Statement (.talloc r o x) := of_encode _
theorem Words.tfree (r : Ring) (o : F3) (x : Option XH) : Words.Statement (.tfree r o x) := of_encode _
theorem Words.tshrink (r : Ring) (o : F3) (x : Option XH) : Words.Statement (.tshrink r o x) := of_encode _
theorem Words.ttag (r : Ring) (o : F3) (x : Option XH) : Words.Statement (.ttag r o x) := of_encode _
theorem Words.tqry (r : Ring) (o : F3) (x : Option XH) : Words.Statement (.tqry r o x) := of_encode _
theorem Words.tcopy (r : Ring) (o : F3) (x : XH) : Words.Statement (.tcopy r o x) := of_encode _
theorem Words.tslot (r : Ring) (o : F3) (x : Option XH) : Words.Statement (.tslot r o x) := of_encode _
theorem Words.tgath (r : Ring) (o : F3) (x : XH) : Words.Statement (.tgath r o x) := of_encode _
theorem Words.tscat (r : Ring) (o : F3) (x : XH) : Words.Statement (.tscat r o x) := of_encode _
theorem Words.twarm (r : Ring) (o : F3) (x : XH) : Words.Statement (.twarm r o x) := of_encode _
theorem Words.chkick (r : Ring) (o : F3) (x : Option XH) : Words.Statement (.chkick r o x) := of_encode _
theorem Words.chlink (r : Ring) (o : F3) : Words.Statement (.chlink r o) := of_encode _
theorem Words.ixwalk (r : Ring) (o : F3) : Words.Statement (.ixwalk r o) := of_encode _
theorem Words.ixsplit (r : Ring) (o : F3) : Words.Statement (.ixsplit r o) := of_encode _
theorem Words.tblk (r : Ring) (o : F3) : Words.Statement (.tblk r o) := of_encode _
theorem Words.atom (r : Ring) (o : F3) (x : XA) : Words.Statement (.atom r o x) := of_encode _
theorem Words.atomr (r : Ring) (o : F3) (x : XA) : Words.Statement (.atomr r o x) := of_encode _
theorem Words.cas (r : Ring) (o : F3) (x : XA) : Words.Statement (.cas r o x) := of_encode _
theorem Words.qsubmit (r : Ring) (o : F3) : Words.Statement (.qsubmit r o) := of_encode _
theorem Words.qstat (r : Ring) (o : F3) : Words.Statement (.qstat r o) := of_encode _
theorem Words.ginfo (r : Ring) (o : F3) : Words.Statement (.ginfo r o) := of_encode _
theorem Words.gyield (r : Ring) (o : F3) : Words.Statement (.gyield r o) := of_encode _
theorem Words.mdisp (r : Ring) (o : F3) : Words.Statement (.mdisp r o) := of_encode _
theorem Words.ctxinfo (r : Ring) (o : F3) : Words.Statement (.ctxinfo r o) := of_encode _
theorem Words.bjoin (r : Ring) (o : F3) : Words.Statement (.bjoin r o) := of_encode _
theorem Words.barv (r : Ring) (o : F3) : Words.Statement (.barv r o) := of_encode _
theorem Words.bwait (r : Ring) (o : F3) : Words.Statement (.bwait r o) := of_encode _
theorem Words.bleave (r : Ring) (o : F3) : Words.Statement (.bleave r o) := of_encode _
theorem Words.ccadd (r : Ring) (o : F3) : Words.Statement (.ccadd r o) := of_encode _
theorem Words.ccwait (r : Ring) (o : F3) : Words.Statement (.ccwait r o) := of_encode _
theorem Words.pgfork (r : Ring) (o : F3) (x : Option XP) : Words.Statement (.pgfork r o x) := of_encode _
theorem Words.pgdrop (r : Ring) (o : F3) (x : Option XP) : Words.Statement (.pgdrop r o x) := of_encode _
theorem Words.pgpin (r : Ring) (o : F3) (x : Option XP) : Words.Statement (.pgpin r o x) := of_encode _
theorem Words.pgunpin (r : Ring) (o : F3) (x : Option XP) : Words.Statement (.pgunpin r o x) := of_encode _
theorem Words.pgqry (r : Ring) (o : F3) : Words.Statement (.pgqry r o) := of_encode _
theorem Words.pgmove (r : Ring) (o : F3) (x : Option XP) : Words.Statement (.pgmove r o x) := of_encode _
theorem Words.xcpost (r : Ring) (o : F3) : Words.Statement (.xcpost r o) := of_encode _
theorem Words.xcarm (r : Ring) (o : F3) : Words.Statement (.xcarm r o) := of_encode _
theorem Words.xcwait (r : Ring) (o : F3) : Words.Statement (.xcwait r o) := of_encode _
theorem Words.xcqry (r : Ring) (o : F3) : Words.Statement (.xcqry r o) := of_encode _
theorem Words.stbindOpen (r : Ring) (o : F3) : Words.Statement (.stbindOpen r o) := of_encode _
theorem Words.stbindAppend (r : Ring) (o : F3) : Words.Statement (.stbindAppend r o) := of_encode _
theorem Words.stbindCommit (r : Ring) (o : F3) : Words.Statement (.stbindCommit r o) := of_encode _
theorem Words.stbindClose (r : Ring) (o : F3) : Words.Statement (.stbindClose r o) := of_encode _
theorem Words.sttake (r : Ring) (o : F3) : Words.Statement (.sttake r o) := of_encode _
theorem Words.sttick (r : Ring) (o : F3) : Words.Statement (.sttick r o) := of_encode _
theorem Words.stlate (r : Ring) (o : F3) : Words.Statement (.stlate r o) := of_encode _
theorem Words.stsink (r : Ring) (o : F3) : Words.Statement (.stsink r o) := of_encode _
theorem Words.trmark (r : Ring) (o : F3) : Words.Statement (.trmark r o) := of_encode _
theorem Words.trmarkL (r : Ring) (o : F3) : Words.Statement (.trmarkL r o) := of_encode _
theorem Words.trspanBegin (r : Ring) (o : F3) : Words.Statement (.trspanBegin r o) := of_encode _
theorem Words.trspanEnd (r : Ring) (o : F3) : Words.Statement (.trspanEnd r o) := of_encode _
theorem Words.trqry (r : Ring) (o : F3) : Words.Statement (.trqry r o) := of_encode _
theorem Words.staterd (r : Ring) (o : F3) : Words.Statement (.staterd r o) := of_encode _
theorem Words.vadd (r : Ring) (o : F3) (x : Option XV) : Words.Statement (.vadd r o x) := of_encode _
theorem Words.vsub (r : Ring) (o : F3) (x : Option XV) : Words.Statement (.vsub r o x) := of_encode _
theorem Words.vmul (r : Ring) (o : F3) (x : Option XV) : Words.Statement (.vmul r o x) := of_encode _
theorem Words.vfma (r : Ring) (o : F3) (x : XV) : Words.Statement (.vfma r o x) := of_encode _
theorem Words.vmin (r : Ring) (o : F3) (x : Option XV) : Words.Statement (.vmin r o x) := of_encode _
theorem Words.vmax (r : Ring) (o : F3) (x : Option XV) : Words.Statement (.vmax r o x) := of_encode _
theorem Words.vabs (r : Ring) (o : F3) (x : Option XV) : Words.Statement (.vabs r o x) := of_encode _
theorem Words.vneg (r : Ring) (o : F3) (x : Option XV) : Words.Statement (.vneg r o x) := of_encode _
theorem Words.vand (r : Ring) (o : F3) (x : Option XV) : Words.Statement (.vand r o x) := of_encode _
theorem Words.vor (r : Ring) (o : F3) (x : Option XV) : Words.Statement (.vor r o x) := of_encode _
theorem Words.vxor (r : Ring) (o : F3) (x : Option XV) : Words.Statement (.vxor r o x) := of_encode _
theorem Words.vnot (r : Ring) (o : F3) (x : Option XV) : Words.Statement (.vnot r o x) := of_encode _
theorem Words.vshl (r : Ring) (o : F3) (x : Option XV) : Words.Statement (.vshl r o x) := of_encode _
theorem Words.vshr (r : Ring) (o : F3) (x : Option XV) : Words.Statement (.vshr r o x) := of_encode _
theorem Words.vsra (r : Ring) (o : F3) (x : Option XV) : Words.Statement (.vsra r o x) := of_encode _
theorem Words.vcmp (r : Ring) (o : F3) (x : Option XV) : Words.Statement (.vcmp r o x) := of_encode _
theorem Words.vsel (r : Ring) (o : F3) (x : Option XV) : Words.Statement (.vsel r o x) := of_encode _
theorem Words.vmov (r : Ring) (o : F3) (x : Option XV) : Words.Statement (.vmov r o x) := of_encode _
theorem Words.vsplat (r : Ring) (o : F3) (x : Option XV) : Words.Statement (.vsplat r o x) := of_encode _
theorem Words.vidx (r : Ring) (o : F3) (x : Option XV) : Words.Statement (.vidx r o x) := of_encode _
theorem Words.vcvt (r : Ring) (o : F3) (x : XV) : Words.Statement (.vcvt r o x) := of_encode _
theorem Words.vpack (r : Ring) (o : F3) (x : XV) : Words.Statement (.vpack r o x) := of_encode _
theorem Words.vunpk (r : Ring) (o : F3) (x : Option XV) : Words.Statement (.vunpk r o x) := of_encode _
theorem Words.vqnt (r : Ring) (o : F3) (x : Option XV) : Words.Statement (.vqnt r o x) := of_encode _
theorem Words.vdqnt (r : Ring) (o : F3) (x : Option XV) : Words.Statement (.vdqnt r o x) := of_encode _
theorem Words.vrotr (r : Ring) (o : F3) (x : Option XV) : Words.Statement (.vrotr r o x) := of_encode _
theorem Words.vrotc (r : Ring) (o : F3) (x : Option XV) : Words.Statement (.vrotc r o x) := of_encode _
theorem Words.vbcr (r : Ring) (o : F3) (x : Option XV) : Words.Statement (.vbcr r o x) := of_encode _
theorem Words.vbcc (r : Ring) (o : F3) (x : Option XV) : Words.Statement (.vbcc r o x) := of_encode _
theorem Words.vredr (r : Ring) (o : F3) (x : Option XV) : Words.Statement (.vredr r o x) := of_encode _
theorem Words.vredc (r : Ring) (o : F3) (x : Option XV) : Words.Statement (.vredc r o x) := of_encode _
theorem Words.vargr (r : Ring) (o : F3) (x : Option XV) : Words.Statement (.vargr r o x) := of_encode _
theorem Words.vargc (r : Ring) (o : F3) (x : Option XV) : Words.Statement (.vargc r o x) := of_encode _
theorem Words.vscanr (r : Ring) (o : F3) (x : Option XV) : Words.Statement (.vscanr r o x) := of_encode _
theorem Words.vscanc (r : Ring) (o : F3) (x : Option XV) : Words.Statement (.vscanc r o x) := of_encode _
theorem Words.vtrn (r : Ring) (o : F3) (x : Option XV) : Words.Statement (.vtrn r o x) := of_encode _
theorem Words.vexp2 (r : Ring) (o : F3) (x : Option XV) : Words.Statement (.vexp2 r o x) := of_encode _
theorem Words.vlog2 (r : Ring) (o : F3) (x : Option XV) : Words.Statement (.vlog2 r o x) := of_encode _
theorem Words.vrcp (r : Ring) (o : F3) (x : Option XV) : Words.Statement (.vrcp r o x) := of_encode _
theorem Words.vrsq (r : Ring) (o : F3) (x : Option XV) : Words.Statement (.vrsq r o x) := of_encode _
theorem Words.vtanh (r : Ring) (o : F3) (x : Option XV) : Words.Statement (.vtanh r o x) := of_encode _
theorem Words.vsigm (r : Ring) (o : F3) (x : Option XV) : Words.Statement (.vsigm r o x) := of_encode _
theorem Words.vsin (r : Ring) (o : F3) (x : Option XV) : Words.Statement (.vsin r o x) := of_encode _
theorem Words.vcos (r : Ring) (o : F3) (x : Option XV) : Words.Statement (.vcos r o x) := of_encode _
theorem Words.vld (r : Ring) (o : F3) (x : Option XV) : Words.Statement (.vld r o x) := of_encode _
theorem Words.vst (r : Ring) (o : F3) (x : Option XV) : Words.Statement (.vst r o x) := of_encode _
theorem Words.vldg (r : Ring) (o : F3) (x : Option XV) : Words.Statement (.vldg r o x) := of_encode _
theorem Words.vstg (r : Ring) (o : F3) (x : Option XV) : Words.Statement (.vstg r o x) := of_encode _
theorem Words.pand (r : Ring) (o : F3) (x : Option XV) : Words.Statement (.pand r o x) := of_encode _
theorem Words.por (r : Ring) (o : F3) (x : Option XV) : Words.Statement (.por r o x) := of_encode _
theorem Words.pxor (r : Ring) (o : F3) (x : Option XV) : Words.Statement (.pxor r o x) := of_encode _
theorem Words.pnot (r : Ring) (o : F3) (x : Option XV) : Words.Statement (.pnot r o x) := of_encode _
theorem Words.pcnt (r : Ring) (o : F3) (x : Option XV) : Words.Statement (.pcnt r o x) := of_encode _
theorem Words.pfirst (r : Ring) (o : F3) (x : Option XV) : Words.Statement (.pfirst r o x) := of_encode _
theorem Words.plen (r : Ring) (o : F3) (x : Option XV) : Words.Statement (.plen r o x) := of_encode _
theorem Words.pseg (r : Ring) (o : F3) (x : Option XV) : Words.Statement (.pseg r o x) := of_encode _
theorem Words.vtox (r : Ring) (o : F3) (x : Option XV) : Words.Statement (.vtox r o x) := of_encode _
theorem Words.xtov (r : Ring) (o : F3) (x : Option XV) : Words.Statement (.xtov r o x) := of_encode _
theorem Words.vfmt (r : Ring) (o : F3) : Words.Statement (.vfmt r o) := of_encode _
theorem Words.vfmtImm (r : Ring) (o : F3) (x : XV) : Words.Statement (.vfmtImm r o x) := of_encode _
theorem Words.slclaim (r : Ring) (o : F3) : Words.Statement (.slclaim r o) := of_encode _
theorem Words.slrel (r : Ring) (o : F3) : Words.Statement (.slrel r o) := of_encode _
theorem Words.slqry (r : Ring) (o : F3) : Words.Statement (.slqry r o) := of_encode _
theorem Words.accz (r : Ring) (o : F3) (x : Option MC) : Words.Statement (.accz r o x) := of_encode _
theorem Words.accld (r : Ring) (o : F3) (x : Option MC) : Words.Statement (.accld r o x) := of_encode _
theorem Words.nlvl (r : Ring) (o : F3) (x : NL) : Words.Statement (.nlvl r o x) := of_encode _
theorem Words.nops (r : Ring) (o : F3) (x : NO) : Words.Statement (.nops r o x) := of_encode _
theorem Words.nepi (r : Ring) (o : F3) (x : Option XM) : Words.Statement (.nepi r o x) := of_encode _
theorem Words.nepiDef (r : Ring) (o : F3) : Words.Statement (.nepiDef r o) := of_encode _
theorem Words.nmode (r : Ring) (o : F3) : Words.Statement (.nmode r o) := of_encode _
theorem Words.nseg (r : Ring) (o : F3) : Words.Statement (.nseg r o) := of_encode _
theorem Words.nscl (r : Ring) (o : F3) : Words.Statement (.nscl r o) := of_encode _
theorem Words.ngo (r : Ring) : Words.Statement (.ngo r) := of_encode _
theorem Words.nwait (r : Ring) : Words.Statement (.nwait r) := of_encode _
theorem Words.ndrain (r : Ring) (o : F3) (x : Option MC) : Words.Statement (.ndrain r o x) := of_encode _
theorem Words.smxrd (r : Ring) (o : F3) (x : Option MC) : Words.Statement (.smxrd r o x) := of_encode _
theorem Words.smxset (r : Ring) (o : F3) (x : Option MC) : Words.Statement (.smxset r o x) := of_encode _
theorem Words.nqry (r : Ring) (o : F3) : Words.Statement (.nqry r o) := of_encode _
theorem Words.wst (r : Ring) (o : F3) (x : Option XM) : Words.Statement (.wst r o x) := of_encode _
theorem Words.wstd (r : Ring) (o : F3) (x : Option XM) : Words.Statement (.wstd r o x) := of_encode _
theorem Words.wchain (r : Ring) (o : F3) (x : Option XH) : Words.Statement (.wchain r o x) := of_encode _
theorem Words.wpost (r : Ring) (o : F3) : Words.Statement (.wpost r o) := of_encode _
theorem Words.wcmpl (r : Ring) : Words.Statement (.wcmpl r) := of_encode _
theorem Words.wflush (r : Ring) : Words.Statement (.wflush r) := of_encode _
theorem Words.qkick (fn : Nat) (v : Word) : Words.Statement (.qkick fn v) := of_encode _
theorem Words.qevbits (fn : Nat) (v : Word) : Words.Statement (.qevbits fn v) := of_encode _
theorem Words.stkick (fn : Nat) (v : Word) : Words.Statement (.stkick fn v) := of_encode _
theorem Words.pgdoneResident (fn : Nat) (rqid : BitVec 32) : Words.Statement (.pgdoneResident fn rqid) := of_encode _
theorem Words.pgdoneUnmappable (fn : Nat) (rqid : BitVec 32) : Words.Statement (.pgdoneUnmappable fn rqid) := of_encode _
theorem Words.pgdoneDenied (fn : Nat) (rqid : BitVec 32) : Words.Statement (.pgdoneDenied fn rqid) := of_encode _
theorem Words.mtflushGo (fn : Nat) (v : Word) : Words.Statement (.mtflushGo fn v) := of_encode _
theorem Words.mtflushRetry (fn : Nat) (v : Word) : Words.Statement (.mtflushRetry fn v) := of_encode _
theorem Words.mtflushDiscard (fn : Nat) (v : Word) : Words.Statement (.mtflushDiscard fn v) := of_encode _
theorem Words.tlbinv (fn : Nat) (v : Word) : Words.Statement (.tlbinv fn v) := of_encode _
theorem Words.ctxcmdLoad (fn : Nat) (ctx : BitVec 12) : Words.Statement (.ctxcmdLoad fn ctx) := of_encode _
theorem Words.ctxcmdSave (fn : Nat) (ctx : BitVec 12) : Words.Statement (.ctxcmdSave fn ctx) := of_encode _
theorem Words.ctxcmdDrain (fn : Nat) (ctx : BitVec 12) : Words.Statement (.ctxcmdDrain fn ctx) := of_encode _
theorem Words.ctxcmdTeardown (fn : Nat) (ctx : BitVec 12) : Words.Statement (.ctxcmdTeardown fn ctx) := of_encode _
theorem Words.ctxcmdRelease (fn : Nat) (ctx : BitVec 12) : Words.Statement (.ctxcmdRelease fn ctx) := of_encode _
theorem Words.ctxcmdSwap (fn : Nat) (ctx : BitVec 12) : Words.Statement (.ctxcmdSwap fn ctx) := of_encode _
theorem Words.ctxcmdAbort (fn : Nat) (ctx : BitVec 12) : Words.Statement (.ctxcmdAbort fn ctx) := of_encode _
theorem Words.ctxringConsWrite (fn : Nat) (handler : Bool) (cons : BitVec 32) : Words.Statement (.ctxringConsWrite fn handler cons) := of_encode _
theorem Words.fpcmdAdd (fn : Nat) (v : Word) : Words.Statement (.fpcmdAdd fn v) := of_encode _
theorem Words.fpcmdTake (fn : Nat) (v : Word) : Words.Statement (.fpcmdTake fn v) := of_encode _
theorem Words.fpcmdCount (fn : Nat) (v : Word) : Words.Statement (.fpcmdCount fn v) := of_encode _
theorem Words.inspdRead : Words.Statement (.inspdRead) := of_encode _
theorem Words.inspdBreakpointWrite (v : Word) : Words.Statement (.inspdBreakpointWrite v) := of_encode _
theorem Words.inspdResume (v : Word) : Words.Statement (.inspdResume v) := of_encode _
theorem Words.traceSinkEnable (n : Nat) (v : Word) : Words.Statement (.traceSinkEnable n v) := of_encode _
theorem Words.registerWrite (fn off : Nat) (v : Word) : Words.Statement (.registerWrite fn off v) := of_encode _
theorem Words.moduleReset : Words.Statement (.moduleReset) := of_encode _
theorem Words.coolantLimit (tempC flowCL : Nat) : Words.Statement (.coolantLimit tempC flowCL) := of_encode _
theorem Words.junctionTemperature (die tempC : Nat) : Words.Statement (.junctionTemperature die tempC) := of_encode _
theorem Words.powerMeasure (die : Nat) (mW : List Nat) : Words.Statement (.powerMeasure die mW) := of_encode _
theorem Words.patrolScrub (loc : Store) (addr : Nat) (bad : Bool) : Words.Statement (.patrolScrub loc addr bad) := of_encode _
theorem Words.timingReplay (die : Nat) : Words.Statement (.timingReplay die) := of_encode _
theorem Words.firmwareLiveUpdate (img : FwImage) : Words.Statement (.firmwareLiveUpdate img) := of_encode _
theorem Words.firmwareHeartbeatMiss : Words.Statement (.firmwareHeartbeatMiss) := of_encode _
theorem Words.strandPlace (die : Nat) : Words.Statement (.strandPlace die) := of_encode _
theorem Words.strandStart (k : Nat) : Words.Statement (.strandStart k) := of_encode _
theorem Words.strandEnded (k : Nat) : Words.Statement (.strandEnded k) := of_encode _
theorem Words.deadlock (k : Nat) : Words.Statement (.deadlock k) := of_encode _
theorem Words.waittExpire (k : Nat) (g : Eng) : Words.Statement (.waittExpire k g) := of_encode _
theorem Words.copyComplete (k op : Nat) : Words.Statement (.copyComplete k op) := of_encode _
theorem Words.slotFillComplete (k op : Nat) : Words.Statement (.slotFillComplete k op) := of_encode _
theorem Words.twarmComplete (k op : Nat) : Words.Statement (.twarmComplete k op) := of_encode _
theorem Words.chainCopy (k op : Nat) : Words.Statement (.chainCopy k op) := of_encode _
theorem Words.chainGather (k op : Nat) : Words.Statement (.chainGather k op) := of_encode _
theorem Words.chainPost (k op : Nat) : Words.Statement (.chainPost k op) := of_encode _
theorem Words.chainWait (k op : Nat) : Words.Statement (.chainWait k op) := of_encode _
theorem Words.chainLoop (k op : Nat) : Words.Statement (.chainLoop k op) := of_encode _
theorem Words.chainIf (k op : Nat) : Words.Statement (.chainIf k op) := of_encode _
theorem Words.chainLink (k op : Nat) : Words.Statement (.chainLink k op) := of_encode _
theorem Words.chainEnd (k op : Nat) : Words.Statement (.chainEnd k op) := of_encode _
theorem Words.indexComplete (k op : Nat) : Words.Statement (.indexComplete k op) := of_encode _
theorem Words.nestStep (k : Nat) : Words.Statement (.nestStep k) := of_encode _
theorem Words.nestComplete (k : Nat) : Words.Statement (.nestComplete k) := of_encode _
theorem Words.nestSlotWaitLimit (k : Nat) : Words.Statement (.nestSlotWaitLimit k) := of_encode _
theorem Words.slclaimGrant (k : Nat) : Words.Statement (.slclaimGrant k) := of_encode _
theorem Words.phaseCommitDone (k : Nat) : Words.Statement (.phaseCommitDone k) := of_encode _
theorem Words.phaseCancel (k : Nat) : Words.Statement (.phaseCancel k) := of_encode _
theorem Words.phaseRefetchDone (k : Nat) : Words.Statement (.phaseRefetchDone k) := of_encode _
theorem Words.holdTimeout (k : Nat) : Words.Statement (.holdTimeout k) := of_encode _
theorem Words.uncorrAbort (k : Nat) (loc : Store) (addr : Word) : Words.Statement (.uncorrAbort k loc addr) := of_encode _
theorem Words.pageWalk (k : Nat) (va : Word) (wr : Bool) : Words.Statement (.pageWalk k va wr) := of_encode _
theorem Words.remoteRefusalRetry (tag : Nat) : Words.Statement (.remoteRefusalRetry tag) := of_encode _
theorem Words.atomicEngineServe (eng : Nat) : Words.Statement (.atomicEngineServe eng) := of_encode _
theorem Words.queueSlotGrant (die : Nat) : Words.Statement (.queueSlotGrant die) := of_encode _
theorem Words.queueParse (q : Nat) : Words.Statement (.queueParse q) := of_encode _
theorem Words.queueReread (q : Nat) : Words.Statement (.queueReread q) := of_encode _
theorem Words.queueDispatch (die : Nat) : Words.Statement (.queueDispatch die) := of_encode _
theorem Words.fencePacketTest (q : Nat) : Words.Statement (.fencePacketTest q) := of_encode _
theorem Words.qsubmitPush (k : Nat) : Words.Statement (.qsubmitPush k) := of_encode _
theorem Words.qsubmitFull (k : Nat) : Words.Statement (.qsubmitFull k) := of_encode _
theorem Words.taskRetire (task : Nat) : Words.Statement (.taskRetire task) := of_encode _
theorem Words.groupEvaluate (die : Nat) : Words.Statement (.groupEvaluate die) := of_encode _
theorem Words.bwaitTimeout (k : Nat) : Words.Statement (.bwaitTimeout k) := of_encode _
theorem Words.ccwaitPoll (k : Nat) : Words.Statement (.ccwaitPoll k) := of_encode _
theorem Words.ccwaitTimeout (k : Nat) : Words.Statement (.ccwaitTimeout k) := of_encode _
theorem Words.xcwaitTimeout (k : Nat) : Words.Statement (.xcwaitTimeout k) := of_encode _
theorem Words.contextLoadChecks (ctx : Nat) : Words.Statement (.contextLoadChecks ctx) := of_encode _
theorem Words.contextResident (ctx : Nat) : Words.Statement (.contextResident ctx) := of_encode _
theorem Words.contextSaved (ctx : Nat) : Words.Statement (.contextSaved ctx) := of_encode _
theorem Words.swapReload (ctx : Nat) : Words.Statement (.swapReload ctx) := of_encode _
theorem Words.budgetPeriodRollover (ctx : Nat) : Words.Statement (.budgetPeriodRollover ctx) := of_encode _
theorem Words.budgetExhausted (ctx : Nat) : Words.Statement (.budgetExhausted ctx) := of_encode _
theorem Words.preemptImmediate (k : Nat) : Words.Statement (.preemptImmediate k) := of_encode _
theorem Words.obdaokFrameReceive (port : Nat) (frame : List Byte) : Words.Statement (.obdaokFrameReceive port frame) := of_encode _
theorem Words.linkWrite (port : Nat) (q : LinkReq) : Words.Statement (.linkWrite port q) := of_encode _
theorem Words.linkWriteRed (port : Nat) (q : LinkReq) : Words.Statement (.linkWriteRed port q) := of_encode _
theorem Words.linkRead (port : Nat) (q : LinkReq) : Words.Statement (.linkRead port q) := of_encode _
theorem Words.linkNotify (port : Nat) (q : LinkReq) : Words.Statement (.linkNotify port q) := of_encode _
theorem Words.linkAtomic (port : Nat) (q : LinkReq) : Words.Statement (.linkAtomic port q) := of_encode _
theorem Words.linkAgree (port : Nat) (q : LinkReq) : Words.Statement (.linkAgree port q) := of_encode _
theorem Words.linkResponse (port : Nat) (p : LinkResp) : Words.Statement (.linkResponse port p) := of_encode _
theorem Words.linkKeepalive (port : Nat) : Words.Statement (.linkKeepalive port) := of_encode _
theorem Words.linkWidth (port lanes : Nat) : Words.Statement (.linkWidth port lanes) := of_encode _
theorem Words.linkPause (port : Nat) : Words.Statement (.linkPause port) := of_encode _
theorem Words.linkResume (port : Nat) : Words.Statement (.linkResume port) := of_encode _
theorem Words.portEnable (port : Nat) : Words.Statement (.portEnable port) := of_encode _
theorem Words.portTrainingEnd (port lanes : Nat) : Words.Statement (.portTrainingEnd port lanes) := of_encode _
theorem Words.portTrainingFail (port : Nat) : Words.Statement (.portTrainingFail port) := of_encode _
theorem Words.portLaneLost (port : Nat) : Words.Statement (.portLaneLost port) := of_encode _
theorem Words.portDisable (port : Nat) : Words.Statement (.portDisable port) := of_encode _
theorem Words.portReset (port : Nat) : Words.Statement (.portReset port) := of_encode _
theorem Words.ptpEventMessage (port : Nat) (offsetNs : Int) : Words.Statement (.ptpEventMessage port offsetNs) := of_encode _
theorem Words.grandmasterLoss : Words.Statement (.grandmasterLoss) := of_encode _
theorem Words.workEntryFire (w : Nat) : Words.Statement (.workEntryFire w) := of_encode _
theorem Words.workEntryComplete (w : Nat) : Words.Statement (.workEntryComplete w) := of_encode _
theorem Words.collectiveExpand (cid : Nat) : Words.Statement (.collectiveExpand cid) := of_encode _
theorem Words.linkHoldTimeout (task : Nat) : Words.Statement (.linkHoldTimeout task) := of_encode _
theorem Words.cadenceTick (ctx sid : Nat) : Words.Statement (.cadenceTick ctx sid) := of_encode _
theorem Words.streamDeadline (ctx sid : Nat) : Words.Statement (.streamDeadline ctx sid) := of_encode _
theorem Words.streamRecordAdmit (ctx sid : Nat) : Words.Statement (.streamRecordAdmit ctx sid) := of_encode _
theorem Words.traceSync (die : Nat) : Words.Statement (.traceSync die) := of_encode _
theorem Words.traceEmitResume (k : Nat) : Words.Statement (.traceEmitResume k) := of_encode _
theorem Words.hostMemoryWrite (fn : Nat) (host : Bool) (pa : Nat) (data : List Byte) : Words.Statement (.hostMemoryWrite fn host pa data) := of_encode _
theorem Words.pageMoveCopyDone (k : Nat) : Words.Statement (.pageMoveCopyDone k) := of_encode _
theorem Words.tlbInvalidationComplete (fn : Nat) : Words.Statement (.tlbInvalidationComplete fn) := of_encode _
theorem Words.inletReturn (c : Coolant) : Words.Statement (.inletReturn c) := of_encode _
theorem Words.heartbeatTimeout (unit : Nat) : Words.Statement (.heartbeatTimeout unit) := of_encode _
theorem Words.hubAgentHoldLimit (a : Nat) : Words.Statement (.hubAgentHoldLimit a) := of_encode _
theorem Words.stepOpenTimeout (k : Nat) : Words.Statement (.stepOpenTimeout k) := of_encode _
theorem Words.linkChainAcceptance (k op : Nat) : Words.Statement (.linkChainAcceptance k op) := of_encode _

end Sys2Proof.Laws
end

