-- ==== Sys2Proof/Tests/Slice0.lean ====
section
/-! SUPPORT. Tests: ill-formed terms, words written out from the manual's encodings, single steps, and for every
statement a state and operands that meet its hypotheses. -/

namespace Sys2Proof.Tests

open Sys2Proof Sys2Proof.Machine

set_option maxRecDepth 100000

/-! ### Ill-formed terms, one for each check of WellFormed -/

def quiet : Ring := Ring.quiet
def onA : Hd := ⟨.a, quiet⟩
def onX : Hd := ⟨.x, quiet⟩
def onM : Hd := ⟨.m, quiet⟩
def onW : Hd := ⟨.w, quiet⟩
def f3 (d a b : BitVec 5) : F3 := ⟨d, a, b, 0⟩
def xv (flags : BitVec 8) : XV := ⟨0, 0, 1, 0, 0, 0, flags⟩

/-- Scalar fields: wrong-end channels, registers that M and W lack, peek bits, reserved fields, forbidden values. -/
theorem test_illFormed_scalar : ∀ i ∈ [
    Instr.add onA (f3 1 24 2),                       -- srcOk: A does not consume q0
    .add onX (f3 24 1 2),                            -- dstOk: X does not produce q0
    .add onM (f3 1 16 2),                            -- noReservedReg
    .add onA ⟨1, 2, 3, 1⟩,                           -- peekOk
    .b onA ⟨1, 4⟩ none,                              -- a reserved in B
    .b onA ⟨0, 4⟩ (some ⟨1, 0⟩),                     -- noPubZ
    .bz onX ⟨1, 4⟩ (some ⟨1, 0⟩),                    -- pubZ
    .beq onX ⟨1, 2, 4⟩ (some ⟨1, 0⟩),                -- pubB
    .bfol onA ⟨0, 4⟩ none,                           -- BFOL is not A's
    .ret onA ⟨1, 4⟩,                                 -- offset reserved in RET
    .loop onA ⟨3, 1, 4⟩ none,                        -- level 3
    .loop onA ⟨0, 1, 0⟩ none,                        -- end offset 0
    .loop onA ⟨0, 1, 4⟩ (some ⟨true, 0, 0, 0⟩),      -- count source with an extent
    .loopi onA ⟨0, 1, 0⟩ none, .brkl onA ⟨0, 1, 0⟩, .trap onA ⟨1, 0⟩,
    .gets onA ⟨1, 32⟩, .gets onA ⟨1, 6⟩,             -- getsOk
    .sets onA ⟨1, 0⟩,                                -- setsOk: read-only
    .tri ⟨.a, Ring.of 8⟩, .waitt onA (f3 1 2 0), .fence onA ⟨0, 0x500⟩, .fence onA ⟨0, 0x800⟩,
    .madd onA (f3 1 2 3) ⟨4, 1, 0⟩, .clz onA (f3 1 2 3), .bfx onA (f3 1 2 3) (some ⟨0, 0, 8⟩),
    .bfi onA (f3 27 2 3) none, .shli onA ⟨1, 2, 64⟩ none, .lih onA ⟨27, 0⟩ none,
    .ld onA (f3 1 2 3) (some ⟨false, 0⟩)             -- memOk: b reserved with IDX = 0
    ], i.wellFormed = false := by decide

theorem test_illFormed_shapes : ∀ i ∈ [
    Instr.shset onA (f3 16 1 0), .shget onA (f3 1 2 4), .lyld onA (f3 8 1 2) none, .lyget onA (f3 1 2 14),
    .shcpy onA (f3 1 2 3)], i.wellFormed = false := by decide

theorem test_illFormed_memory_engine : ∀ i ∈ [
    Instr.talloc quiet (f3 1 0 2) ⟨5, 0, true, 0⟩,   -- d reserved
    .tfree quiet (f3 0 1 0) (some ⟨5, 0, true, 0⟩),  -- hA: a reserved with IA = 1
    .tfree quiet (f3 0 0 0) (some ⟨5, 1, true, 0⟩),  -- plainH
    .tqry quiet (f3 1 2 14) none, .tslot quiet (f3 1 2 3) (some ⟨0, 0, false, 1⟩),
    .tgath quiet (f3 0 2 3) ⟨0, 1, false, 0⟩, .chkick quiet (f3 0 2 3) none,
    .atom quiet ⟨0, 2, 3, 1⟩ ⟨0, 0, 0⟩, .atomr quiet ⟨1, 2, 3, 3⟩ ⟨9, 0, 0⟩, .pgdrop quiet (f3 1 2 0) (some ⟨0, 0⟩),
    .pgdrop quiet (f3 1 2 0) (some ⟨1, 3⟩), .qstat quiet (f3 1 2 4), .ginfo quiet (f3 1 2 0), .stbindClose quiet (f3 1 0 0),
    .staterd quiet (f3 1 2 3)], i.wellFormed = false := by decide

theorem test_illFormed_vector : ∀ i ∈ [
    Instr.vadd quiet (f3 1 2 3) (some { xv 0 with c := 1 }),  -- vx: c reserved
    .vadd quiet (f3 1 2 3) (some (xv 1)),                     -- vx: FLAGS reserved
    .vcmp quiet (f3 0 2 3) none,                              -- predDst: p0
    .vcmp quiet (f3 1 2 3) (some (xv 7)),                     -- flagLe
    .pand quiet (f3 1 2 16) none,                             -- pReg
    .pand quiet (f3 1 2 3) (some (xv 0)),                     -- px: FMT reserved
    .vqnt quiet (f3 1 2 0) none,                              -- evenReg
    .vfmtImm quiet (f3 1 0 0) (xv 0)], i.wellFormed = false := by decide

theorem test_illFormed_nest_and_w : ∀ i ∈ [
    Instr.accz quiet (f3 1 0 0) (some ⟨0, true, false⟩),      -- accF
    .accz quiet (f3 0 0 0) (some ⟨0, true, true⟩),            -- noSide
    .ndrain quiet (f3 1 0 0) none,                            -- ndrainOk
    .nlvl quiet (f3 6 0 0) ⟨true, 0, 0, false, 0, 0, 0⟩,      -- selector
    .wst quiet (f3 1 2 3) none, .wstd quiet (f3 0 2 3) (some ⟨true, 0⟩), .nepi quiet ⟨0, 1, 2, 1⟩ none],
    i.wellFormed = false := by decide

/-! ### Words written out from the encoding tables (R60, R62, R63, R65, R74 to R77) -/

/-- ENG, WP WN SP SN, L, OPC and the operand bits. -/
def word (eng : BitVec 2) (ring : BitVec 4) (l : BitVec 1) (opc : BitVec 8) (o : BitVec 17) : W32 := eng ++ ring ++ l ++ opc ++ o

/-- The decoder reads the instruction i, when the word's own bits name it. -/
def reads (w0 : W32) (w1 : Option W32) (i : Instr) : Bool := match decode w0 w1 with | .ok j => j == i | .error _ => false

theorem test_decode_common : ∀ e ∈ [
    (word 0 0 0 0x00 0, none, Instr.nop onA),
    (word 3 0b0001 0 0x01 (0#5 ++ 0xFFE#12), none, .b ⟨.w, Ring.of 1⟩ ⟨0, 0xFFE⟩ none),
    (word 0 0 1 0x02 (1#5 ++ 2#5 ++ 3#7), some (0#2 ++ 5#3 ++ 0#11 ++ 7#16), .beq onA ⟨1, 2, 3⟩ (some ⟨5, 7⟩)),
    (word 1 0b1000 0 0x0A (0#5 ++ 4#12), none, .bfol ⟨.x, Ring.of 8⟩ ⟨0, 4⟩ none),
    (word 0 0 1 0x0E (2#2 ++ 0#5 ++ 9#10), some (0#2 ++ 1#1 ++ 3#4 ++ 2#2 ++ 0#19 ++ 1#4),
      .loop onA ⟨2, 0, 9⟩ (some ⟨true, 3, 2, 1⟩)),
    (word 2 0 1 0x0F (1#2 ++ 7#5 ++ 9#10), some (2#2 ++ 5#26 ++ 1#4), .loopi onM ⟨1, 7, 9⟩ (some ⟨5, 1⟩)),
    (word 3 0 0 0x11 (0#5 ++ 0xABC#12), none, .trap onW ⟨0, 0xABC⟩),
    (word 1 0 0 0x12 (4#5 ++ 6#12), none, .gets onX ⟨4, 6⟩),
    (word 0 0 1 0x4B (1#5 ++ 2#5 ++ 0#5 ++ 3#2), some (0#2 ++ 0#2 ++ 0#1 ++ 0x7FFFFFF#27),
      .ld onA ⟨1, 2, 0, 3⟩ (some ⟨false, 0x7FFFFFF⟩)),
    (word 0 0 0 0x51 (3#5 ++ 0xC05#12), none, .shseti onA ⟨3, 0xC05⟩ none),
    (word 0 0 0 0x20 (1#5 ++ 26#5 ++ 2#5 ++ 2#2), none, .add onA ⟨1, 26, 2, 2⟩)],
    reads e.1 e.2.1 e.2.2 = true := by decide

theorem test_decode_engines : ∀ e ∈ [
    (word 0 0 1 0x65 (0#5 ++ 2#5 ++ 3#5 ++ 0#2), some (0#2 ++ 0#7 ++ 0#7 ++ 0#1 ++ 0#1 ++ 0x2A40#14),
      Instr.tcopy quiet (f3 0 2 3) ⟨0, 0, false, 0x2A40⟩),
    (word 0 0 1 0x71 (1#5 ++ 2#5 ++ 3#5 ++ 3#2), some (0#2 ++ 4#4 ++ 0#5 ++ 0x10#21), .atomr quiet ⟨1, 2, 3, 3⟩ ⟨4, 0, 0x10⟩),
    (word 0 0 1 0x89 (1#5 ++ 2#5 ++ 0#7), some (0#2 ++ 9#10 ++ 1#2 ++ 0#18), .pgdrop quiet (f3 1 2 0) (some ⟨9, 1⟩)),
    (word 0 0 0 0x98 (1#5 ++ 2#5 ++ 3#5 ++ 1#2), none, .stbindAppend quiet ⟨1, 2, 3, 1⟩),
    (word 1 0 1 0x63 (1#5 ++ 2#5 ++ 3#5 ++ 0#2), some (1#2 ++ 4#5 ++ 5#4 ++ 2#4 ++ 3#3 ++ 1#3 ++ 0#3 ++ 0#8),
      .vfma quiet (f3 1 2 3) ⟨4, 5, 2, 3, 1, 0, 0⟩),
    (word 1 0 0 0xBA (0#5 ++ 2#5 ++ 0#7), none, .vfmt quiet (f3 0 2 0)),
    (word 2 0 1 0x65 (1#5 ++ 0#5 ++ 0#7), some (2#2 ++ 1#1 ++ 3#4 ++ 1#2 ++ 1#1 ++ 2#7 ++ 0x7F#7 ++ 1#7 ++ 0#1),
      .nlvl quiet (f3 1 0 0) ⟨true, 3, 1, true, 2, 0x7F, 1⟩),
    (word 2 0 1 0x66 (1#5 ++ 0#12), some (2#2 ++ 1#6 ++ 2#6 ++ 3#6 ++ 4#6 ++ 5#6), .nops quiet (f3 1 0 0) ⟨1, 2, 3, 4, 5⟩),
    (word 2 0 0 0x67 (0#15 ++ 1#2), none, .nepiDef quiet ⟨0, 0, 0, 1⟩),
    (word 3 0b0100 0 0x60 (8#5 ++ 2#5 ++ 3#5 ++ 0#2), none, .wst (Ring.of 4) (f3 8 2 3) none),
    (word 0 0 1 0xFF (1#5 ++ 0#1 ++ 0#9 ++ 2#2), some (0#2 ++ 6#30), .phaseLong 2 6)],
    reads e.1 e.2.1 e.2.2 = true := by decide

/-- The checks of R78 in their order: extension engine, unassigned, missing long form, reserved bit. -/
theorem test_decode_refuses :
    decode (word 1 0 1 0x60 0) (some 0) = .error .extEngine ∧ decode (word 1 0 0 0xFF 0) none = .error .unassigned ∧
    decode (word 0 0 0 0x36 0) none = .error .longForm ∧ decode (word 0 0 1 0x20 0) (some 0) = .error .longForm ∧
    decode (word 0 0 0 0x00 1) none = .error .reservedBit ∧ decode (word 0 0 0 0xFF (5#5 ++ 0#12)) none = .error .unassigned ∧
    decode (word 2 0 0 0x20 (16#5 ++ 0#12)) none = .error .forbidden := by
  refine ⟨?_, ?_, ?_, ?_, ?_, ?_, ?_⟩ <;> rfl

/-! ### Single steps, expected results worked out from the rules by hand -/

/-- The host strand with the words w0 and w1 at its pc, changed by f. -/
def placed (w0 w1 : W32) (f : Strand → Strand) : State := (State.reset.placeWord (w0.toNat + w1.toNat * 2 ^ 32)).setCur f

/-- The state that the step leaves. -/
def after (w0 w1 : W32) (f : Strand → Strand) : State :=
  match step (placed w0 w1 f) with
  | .next t => t
  | _ => State.reset

/-- Registers a2 and a3. -/
def regs (a b : Word) : Strand → Strand := fun t => (t.setReg .a 2 a).setReg .a 3 b
def op3 : BitVec 17 := 1#5 ++ 2#5 ++ 3#5 ++ 0#2

/-- R147: the sum wraps. -/
theorem test_add_wraps : (after (word 0 0 0 0x20 op3) 0 (regs (2 ^ 64 - 1) 2)).cur.reg .a 1 = 1 := by decide
/-- R148: REM(-7, 2) = -1 in flight with latency 18. -/
theorem test_rem : (after (word 0 0 0 0x27 op3) 0 (regs (-7) 2)).cur.fl.map (fun f => (f.rem, f.wb)) =
    [(18, [.reg 1 (-1)])] := by decide
/-- R147: the shift amount is b[5:0]. -/
theorem test_sra : (after (word 0 0 0 0x2E op3) 0 (regs (-8) 65)).cur.reg .a 1 = -4 := by decide
/-- R151: a field that does not fit raises RANGE. -/
theorem test_bfx_range : ((after (word 0 0 1 0x39 (1#5 ++ 2#5 ++ 0#7)) (0#2 ++ 0#5 ++ 0#13 ++ 60#6 ++ 5#6) (regs 0 0)).ctxOf 0).held.map
    (fun h => h.2.getD 8 0) = [0x11] := by decide
/-- R153: LI long and its sign. -/
theorem test_li_long : (after (word 0 0 1 0x48 (1#5 ++ 0#12)) (0#2 ++ 0#10 ++ 0x80000#20) id).cur.reg .a 1 =
    0xFFFFFFFF80000000 := by decide
/-- R134: a taken branch. -/
theorem test_beq_taken : (after (word 0 0 0 0x02 (2#5 ++ 3#5 ++ 2#7)) 0 (regs 5 5)).cur.eng.a.issueAddr = 2 := by decide
/-- R134: a branch not taken. -/
theorem test_bne_not_taken : (after (word 0 0 0 0x03 (2#5 ++ 3#5 ++ 2#7)) 0 (regs 5 5)).cur.eng.a.issueAddr = 1 := by decide
/-- R136: a count of 0 skips the body. -/
theorem test_loopi_zero : (after (word 0 0 0 0x0F (0#2 ++ 0#5 ++ 1#10)) 0 id).cur.eng.a.issueAddr = 2 := by decide
/-- R72: a write to a0 is discarded. -/
theorem test_a0 : (after (word 0 0 0 0x40 (0#5 ++ 0#5 ++ 5#7)) 0 id).cur.reg .a 0 = 0 := by decide
/-- R103: a missing token stalls, and the stalled engine's tick count stays. -/
theorem test_wp_stalls : (after (word 1 0b1000 0 0x00 0) 0 id).cur.eng.x.why = 1 ∧
    (after (word 1 0b1000 0 0x00 0) 0 id).cur.eng.x.tick = 0 := by decide
/-- R108: a channel destination. -/
theorem test_push : ((after (word 0 0 0 0x40 (24#5 ++ 0#5 ++ 5#7)) 0 id).cur.links.chan 0).add = [5] := by decide
/-- R128: TRAP routed to the handler at word 2. -/
theorem test_trap_routed : (after (word 0 0 0 0x11 (0#5 ++ 7#12)) 0 fun t =>
    { t with sys := { t.sys with tvec := 0x80000002, tmask := 1 <<< 22 } }).cur.sys.targ = [7, 0, 0, 0] ∧
    (after (word 0 0 0 0x11 (0#5 ++ 7#12)) 0 fun t =>
    { t with sys := { t.sys with tvec := 0x80000002, tmask := 1 <<< 22 } }).cur.st = .handler := by decide
/-- R95: TRAP not routed. -/
theorem test_trap_unrouted : (after (word 0 0 0 0x11 (0#5 ++ 7#12)) 0 id).cur.st = .ended := by decide
/-- R81: a user strand's STATERD raises PRIV, an unassigned opcode ILLEGAL. -/
theorem test_codes : ((after (word 0 0 0 0xA8 (1#5 ++ 2#5 ++ 0#7)) 0 id).ctxOf 0).held.map (fun h => h.2.getD 8 0) = [2] ∧
    ((after (word 0 0 0 0x1F 0) 0 id).ctxOf 0).held.map (fun h => h.2.getD 8 0) = [1] := by decide
/-- R177: TALLOC of 4 rows of 64 bytes takes one cell. -/
theorem test_talloc : (after (word 0 0 1 0x60 (0#5 ++ 0#5 ++ 2#5 ++ 0#2)) (0#2 ++ 5#7 ++ 0#7 ++ 1#1 ++ 0#1 ++ 1#14) fun t =>
    { regs 4 0 t with lring := .empty 40 }).cur.lring.used = 1 := by decide
/-- R161: SHSET takes effect at the end of the period. -/
theorem test_shset : (after (word 0 0 0 0x50 (3#5 ++ 2#5 ++ 1#5 ++ 0#2)) 0 (regs 70 0)).cur.lates = [(.a, .ext 3 1 70)] := by decide

/-! ### Hypotheses that can be met: for every statement a state and operands for each of its clauses -/

/-- The conditions of Goes, evaluated. -/
def goes (s : State) (q : Issue) (vs : List Word) (l : Links) : Bool :=
  q.legal && q.early.isNone && (s.cur.links.waitsOn q.g q.ring).isNone && (q.g != .x || s.cur.fl.all fun f => !s.cur.due f) &&
    (match s.cur.readSrcs q.g q.srcs s.cur.links with | .ok us k => us == vs && k == l | _ => false) &&
    !s.cur.mustAwait q && (q.g != .x || !s.cur.fullX) && !s.cur.unitBusy q && !(q.clash && !(s.cur.engine q.g).spread) &&
    s.mem.poison.isEmpty && s.mem.soft.isEmpty && ((s.cur.engine q.g).tri.isNone || s.plant.upsets.isEmpty)

theorem goes_of {s : State} {q : Issue} {vs : List Word} {l : Links} (h : goes s q vs l = true) : s.Goes q vs l := by
  simp only [goes, Bool.and_eq_true, Bool.not_eq_true', Bool.or_eq_true, bne_iff_ne, Option.isNone_iff_eq_none, List.all_eq_true,
    List.isEmpty_iff] at h
  obtain ⟨⟨⟨⟨⟨⟨⟨⟨⟨⟨⟨h1, h2⟩, h3⟩, h4⟩, h5⟩, h6⟩, h7⟩, h8⟩, h9⟩, h10⟩, h11⟩, h12⟩ := h
  refine ⟨h1, h2, h3, fun e f m => (h4.resolve_left (by simp [e])) f m, ?_, h6, fun e => h7.resolve_left (by simp [e]), h8, h9, ?_, h12⟩
  · split at h5
    · next us k e => simp at h5; rw [e, h5.1, h5.2]
    · simp at h5
  · simp [State.badVec, State.readVecs, Mem.spoilt, h10, h11]

/-- The instruction goes with its channels as they stand. -/
def ready (s : State) (q : Issue) (vs : List Word) : Bool := goes s q vs s.cur.links

/-- A running strand, changed by f. -/
def strand (f : Strand → Strand) : State := placed 0 0 f
def base : State := strand (regs 5 7)

/-- Every condition of a list holds. -/
def allOf (l : List Bool) : Bool := l.all id

theorem test_meets_RegisterArithmeticResults : allOf ([(0x20, 1), (0x21, 1), (0x22, 3), (0x23, 3), (0x24, 3), (0x29, 1),
    (0x2A, 1), (0x2B, 1), (0x2C, 1), (0x2D, 1), (0x2E, 1), (0x2F, 1), (0x30, 1), (0x31, 1), (0x32, 1), (0x33, 1), (0x34, 1),
    (0x35, 1)].map fun e => ready base (onA.issue e.1 1 (f3 1 2 3).srcs [.reg 1] e.2) [5, 7]) = true := by decide

theorem test_meets_DivisionResults : allOf ([0x25, 0x26, 0x27, 0x28].map fun opc =>
    ready (strand (regs (2 ^ 63) (-1))) (onA.issue opc 1 (f3 1 2 3).srcs [.reg 1] 18) [2 ^ 63, -1] &&
    ready (strand (regs 5 0)) (onA.issue opc 1 (f3 1 2 3).srcs [.reg 1] 18) [5, 0]) = true := by decide

theorem test_meets_MaddCountsAndFields : allOf [
    ready base (onA.issue 0x36 2 ((f3 1 2 3).srcs ++ [(2, false)]) [.reg 1] 3) [5, 7, 5],
    ready base (onA.issue 0x37 1 [(2, false)] [.reg 1] 1) [5], ready base (onA.issue 0x38 1 [(2, false)] [.reg 1] 1) [5],
    -- a field that ends at bit 63, and one that ends one bit further
    ready base (fieldIssue onA 0x39 (f3 1 2 0) (some ⟨0, 60, 4⟩)) [5], ready base (fieldIssue onA 0x3A (f3 1 2 0) (some ⟨0, 60, 4⟩)) [5],
    !(fieldIssue onA 0x3A (f3 1 2 0) (some ⟨0, 60, 5⟩)).early.isNone,
    ready (strand (regs 5 0x43C)) (fieldIssue onA 0x39 (f3 1 2 3) none) [5, 0x43C],
    ready (strand (regs 5 0x53C)) (fieldIssue onA 0x3A (f3 1 2 3) none) [5, 0x53C],
    (Instr.madd onA (f3 1 2 3) ⟨4, 0, 0⟩).wellFormed, (Instr.clz onA (f3 1 2 0)).wellFormed,
    (Instr.bfi onA (f3 1 2 0) (some ⟨0, 60, 4⟩)).wellFormed] = true := by decide

theorem test_meets_ImmediateResults : allOf ([0x40, 0x41, 0x42, 0x43, 0x44, 0x45, 0x46, 0x47].map (fun opc =>
    ready base (onA.issue opc 1 [(2, false)] [.reg 1] 1) [5] && ready base (onA.issue opc 2 [(2, false)] [.reg 1] 1) [5]) ++
    [ready base (onA.issue 0x48 1 [] [.reg 1] 1) [], ready base (onA.issue 0x49 2 [] [.reg 1] 1) [],
     (Instr.shli onA ⟨1, 2, 63⟩ none).wellFormed, (Instr.lih onA ⟨1, 0⟩ none).wellFormed]) = true := by decide

/-- The transfer to word n passes. -/
def reaches (s : State) (g : Eng) (n : Nat) : Bool :=
  decide (n < s.cur.text.length) && !isCont s.cur.text n && decide (s.cur.pc0.maxOther g ≤ n + s.cur.sys.win.toNat)

/-- A strand whose queue of X's branch outcomes is full. -/
def fullOutcomes : State :=
  strand fun t => { regs 5 7 t with links := { t.links with outc := t.links.outc.set .x ⟨List.replicate 8 true, 8, []⟩ } }

def canPublish (s : State) (pub : BitVec 3) : Bool :=
  (pubEngines pub).all fun g => decide ((s.cur.links.outc.get g).start + (s.cur.links.outc.get g).add.length < 8)

theorem test_meets_ConditionalBranches : allOf ([0x02, 0x03, 0x04, 0x05, 0x06, 0x07].map (fun opc =>
    ready base (onA.issue opc 1 [pop 2, pop 3] [] 1) [5, 7] && ready fullOutcomes (onA.issue opc 2 [pop 2, pop 3] [] 1) [5, 7]) ++
    [0x08, 0x09].map (fun opc => ready base (onA.issue opc 1 [pop 2] [] 1) [5] && ready base (onA.issue opc 1 [pop 0] [] 1) [0]) ++
    [canPublish base 0, canPublish base 1, !canPublish fullOutcomes 1, reaches base .a 2, reaches base .a 0]) = true := by decide

theorem test_meets_JumpsCallsAndReturns :
    let outcome := fun (q : List Bool) => strand fun t => { t with links := { t.links with outc := t.links.outc.set .x ⟨q, 0, []⟩ } }
    allOf [ready base (onA.issue 0x01 1 [] [] 1) [], ready base (onA.issue 0x0B 1 [] [.reg 1] 1) [], ready base (onA.issue 0x0C 1 [pop 2] [] 1) [5],
      ready (strand (regs 16383 0)) (onA.issue 0x0D 1 [pop 2] [] 1) [16383], ready (strand (regs 16384 0)) (onA.issue 0x0C 1 [pop 2] [] 1) [16384],
      ready (strand (regs 16384 0)) (onA.issue 0x0D 1 [pop 2] [] 1) [16384], reaches base .x 2,
      ready (outcome [true]) (onX.issue 0x0A 1 [] [] 1) [], ready (outcome [false]) (onX.issue 0x0A 1 [] [] 1) [],
      ready base (onX.issue 0x0A 1 [] [] 1) [], base.cur.st != .handler, !base.cur.noOutcome .x,
      (strand fun t => t.setEngine .a fun e => { e with arrived := true, atEnd := true }).cur.noOutcome .x] = true := by decide

/-- The target is outside the text, a continuation word, or below the window. -/
theorem test_meets_TransferTraps :
    let long := strand fun t => { regs 5 7 t with text := [0, 0x02000000, 0, 0x01FE3000] }
    let far := strand fun t => { regs 5 7 t with pc0 := t.pc0.set .x 100 }
    allOf [ready base (onA.issue 0x01 1 [] [] 1) [], ready base (onA.issue 0x0B 1 [] [.reg 1] 1) [], ready base (onA.issue 0x0C 1 [pop 2] [] 1) [5],
      ready base (onA.issue 0x0D 1 [pop 2] [] 1) [5], decide (base.cur.text.length ≤ 3), isCont long.cur.text 2,
      ready long (onA.issue 0x01 1 [] [] 1) [], ready far (onA.issue 0x01 1 [] [] 1) [],
      decide (2 + far.cur.sys.win.toNat < far.cur.pc0.maxOther .a), !isCont far.cur.text 2] = true := by decide

theorem test_meets_HardwareLoops :
    let q := fun (s : State) (a : BitVec 5) => { onA.issue 0x0E 1 [pop a] [] 1 with legal := s.cur.bodyOk .a 1 1 }
    let k := { onA.issue 0x0F 1 [] [] 1 with legal := base.cur.bodyOk .a 1 1 }
    let b := fun (s : State) => { onA.issue 0x10 1 [] [] 1 with legal := s.cur.st != .handler && ((s.cur.engine .a).level 0).active }
    let room := strand fun t => { t with text := [0x02000000, 0, 0, 0x01FE3000] }
    let shaped := { onA.issue 0x0E 2 [] [.sh 3] 1 with legal := room.cur.bodyOk .a 2 2 }
    let looping := base.setEng .a fun e => { e with levels := e.levels.set 0 ⟨true, 0, 1, 3, 0⟩ }
    allOf [ready base (q base 2) [5], ready (strand (regs (2 ^ 32) 0)) (q base 2) [2 ^ 32], ready (strand (regs (2 ^ 32 - 1) 0)) (q base 2) [2 ^ 32 - 1],
      ready base (q base 0) [0], ready base k [], reaches base .a 2, ready looping (b looping) [],
      ready room shaped [],
      ((looping.cur.engine .a).level 0).active, !((base.cur.engine .a).level 0).active] = true := by decide

theorem test_meets_TrapRaisesSwtrap : ready base (onA.issue 0x11 1 [] [] 1) [] = true := by decide

theorem test_meets_NopWaittFenceTri :
    let tri := placed (word 0 0 0 0x14 0) (word 0 0 0 0x20 op3) id
    let busy := (base.starting .a 0x65 quiet (.fill 0 0 0 0 false 0) [] (some .copyComplete))
    allOf [ready base (onA.issue 0x00 1 [] [] 1) [], ready base { onA.issue 0x15 1 [pop 2] [] 1 with async := true } [5], decide (base.ns < 5),
      ready base (onA.issue 0x15 1 [pop 0] [] 1) [0], decide (0 ≤ base.ns), ready base (onA.issue 0x16 1 [] [] 1) [],
      ready busy (onA.issue 0x16 1 [] [] 1) [], busy.cur.ops.all (fun o => !o.done),
      (tri.cur.moveOn .a 1).2.isNone, (tri.cur.moveOn .a 1).1.triOk .a ((tri.cur.moveOn .a 1).1.engine .a).issueAddr,
      !(base.cur.moveOn .a 1).1.triOk .a ((base.cur.moveOn .a 1).1.engine .a).issueAddr] = true := by decide

theorem test_meets_SystemRegisterAccess : allOf ([ready base (onA.issue 0x12 1 [] [.reg 1] 1) []] ++
    [(4, (16 : Word)), (4, 256), (5, 0), (5, 1024), (6, 127), (19, 0x80003FFF), (20, 2), (28, 2 ^ 32 - 1), (30, 0)].map (fun e =>
      ready (strand (regs e.2 0)) (onA.issue 0x13 1 [pop 2] [] 1) [e.2] && sysValueOk e.1 e.2) ++
    [(4, (15 : Word)), (4, 257), (5, 1023), (6, 128), (19, 0x4000), (20, 1), (20, 0x40000), (21, 16384), (27, 2),
      (28, 2 ^ 32)].map fun e => !sysValueOk e.1 e.2) = true := by decide

theorem test_meets_ScalarInstructionFrame :
    (scalarDest (.add onA (f3 1 2 3)), match exec (.add onA (f3 1 2 3)) base with | .next _ => true | _ => false) =
      (some (.a, some 1), true) := by decide

/-- What issue waits for: an illegal form, a missing token from either side, a closed and an empty channel, a pending
register. -/
theorem test_meets_WhatIssueWaitsFor :
    let q := onX.issue 0x20 1 [pop 24, pop 2] [.reg 1] 1
    let w := fun (n : BitVec 4) => { q with ring := Ring.of n }
    let closed := strand fun t => t.setEngine .a fun e => { e with arrived := true, atEnd := true }
    let pending := strand fun t => { t with fl := [⟨.x, 3, [.reg 2 0], false, false, 0⟩] }
    allOf [(base.cur.links.waitsOn .x quiet).isNone, base.cur.links.waitsOn .x (w 8).ring == some 1,
      base.cur.links.waitsOn .x (w 4).ring == some 2,
      (match closed.cur.readSrcs .x q.srcs closed.cur.links with | .closed _ => true | _ => false),
      (match base.cur.readSrcs .x q.srcs base.cur.links with | .empty => true | _ => false),
      (match pending.cur.readSrcs .x [pop 2] pending.cur.links with | .ok _ _ => true | _ => false),
      pending.cur.mustAwait (onX.issue 0x20 1 [pop 2] [.reg 1] 1)] = true := by decide

theorem test_meets_ResultsLand : allOf [ready base (onA.issue 0x20 1 [pop 2, pop 3] [.reg 1] 1) [5, 7], !base.cur.x.timed,
    base.cur.links.chans.length == 8, (base.cur.engine .a).tri.isNone, !isChan 1, isChan 24,
    decide ((1 : BitVec 5).toNat < (base.cur.regs.get .a).length), base.cur.links.canSignal .a false false,
    (base.cur.links.chan (chanNo 24)).room] = true := by decide

theorem test_meets_TrapEntersHandler :
    let s := strand fun t => { t with
      sys := { t.sys with tvec := 0x80000002, tmask := 1 <<< 22 }, eng := t.eng.map fun e => { e with moving := none } }
    allOf [s.cur.sys.tvec.getLsbD 31, s.cur.sys.tmask.getLsbD 22, s.cur.st == .running, decide (2 < s.cur.text.length),
      !isCont s.cur.text 2, [Eng.a, .x, .m, .w].all fun e => (s.cur.engine e).moving.isNone] = true := by decide

theorem test_meets_UnroutedTrapPostsRecord : ([1, 2, 3, 4] : List Word).length = 4 := rfl

theorem test_meets_HandlerReturn :
    let s := strand fun t => { t with
      st := .handler, aside := some ⟨.all [], t.links.outc, [], true, 0, 0, 0⟩, eng := t.eng.map fun e => { e with tret := some 0, tepc := 2 } }
    allOf [s.cur.aside == some ⟨.all [], s.cur.links.outc, [], true, 0, 0, 0⟩,
      [Eng.a, .x, .m, .w].all (fun e => (s.cur.engine e).tret == some 0 && (s.cur.engine e).tri.isNone),
      decide ((16 : Nat) ≤ s.cur.sys.win.toNat)] = true := by decide

/-! #### Memory -/

/-- The strand reads n bytes there. -/
def reads? (s : State) (va : Word) (n : Nat) : Bool :=
  match s.ownXlate va .read with
  | .ok x t => x.home != 2 && !t.mem.poisoned x.home x.pa n
  | _ => false

theorem loads_of {s : State} {va : Word} {n : Nat} (note : Bool) (h : reads? s va n = true) : ∃ b u, s.Loads va n note b u := by
  unfold reads? at h
  split at h
  · next x t e =>
    simp only [Bool.and_eq_true, bne_iff_ne, ne_eq, Bool.not_eq_true'] at h
    refine ⟨_, _, x, t, e, h.1, ?_, rfl, rfl⟩
    cases note <;> exact h.2
  · simp at h

/-- The machine once the phase has room for an entry that fits or not. -/
def room? (t : State) (fits : Bool) : Option State :=
  if t.cur.ph.rep then
    (if fits then some t else if t.unrepeat.cur.ph.buf.isEmpty && !t.unrepeat.cur.awaiting then some t.unrepeat else none)
  else if t.cur.ph.buf.isEmpty && !t.cur.awaiting && t.requestRoom then some t else none

theorem room_of {t u : State} {fits : Bool} (h : room? t fits = some u) : t.Room fits u := by
  unfold room? at h
  unfold State.Room
  cases fits <;> split at h <;> simp_all <;> obtain ⟨⟨h1, h2⟩, rfl⟩ := h <;> simp_all

/-- The strand's store goes to memory or to its buffer. -/
def stores? (s : State) (va : Word) (b : List Byte := [7]) (desc : Option W16 := none) (strl : Bool := false) : Bool :=
  match s.ownXlate va .write with
  | .ok x t =>
    match room? t (bufStore t.cur.ph.buf (blockOf x va b desc strl)).isSome with
    | some w => !(blockOf x va b desc strl).strl || !w.cur.awaiting
    | none => false
  | _ => false

theorem stores_of {s : State} {va : Word} {b : List Byte} {desc : Option W16} {strl : Bool}
    (h : stores? s va b desc strl = true) : ∃ u, s.Stores va b desc strl u := by
  unfold stores? at h
  split at h
  · next x t e =>
    split at h
    · next w r =>
      refine ⟨_, x, t, w, e, room_of r, fun k => ?_, rfl⟩
      simpa [k] using h
    · simp at h
  · simp at h

/-- A fault of the translation, by its code. -/
def faults (s : State) (va : Word) (acc : Access) (code : Nat) : Bool :=
  match s.ownXlate va acc with
  | .fault f => f.code == code
  | _ => false

/-- Memory with a block of bytes at physical address 0x1000, seen through a window at 0x40000000. -/
def withMem (b : List Byte) (f : Strand → Strand) : State :=
  let s := strand fun t => { f t with wins := [⟨0x40000000, 0, 16, 3⟩, ⟨0x50000000, 0, 16, 1⟩] }
  { s with mem := s.mem.put 0 0x1000 b }

/-- A page of a peer's memory, seen through the core's TLB. -/
def peerVa : Word := 0x90000000
def withPeer (s : State) : State := { s with mem := { s.mem with coreTlb := [(0, [⟨0, 0, 0x9000, 0x1C3⟩, ⟨0, 0, 0x8000, 2 ^ 63 + 0x983⟩])] } }
def sees (s : State) (va : Word) (acc : Access) (p : Xlate → Bool) : Bool :=
  match s.ownXlate va acc with | .ok x _ => p x | _ => false

def block : Word := 0x40001000
def readOnly : Word := 0x50001000

theorem test_meets_ScalarLoads :
    let s := fun (a : Word) => withMem [0x80] (regs a 0)
    let q := fun opc => memIssue onA opc (f3 1 2 3) none false
    allOf ([block, block + 1, 0x60000000, 2 ^ 56].map (fun a => ready (s a) (q 0x4B) [a, 0] && ready (s a) (q 0x4C) [a, 0] &&
        ready (s a) (q 0x17) [a, 0]) ++
      [reads? (s block) block 1, canonical block, canonical (0x60000000 : Word), !canonical (2 ^ 56 : Word), faults (s 0) 0x60000000 .read 1,
       ready (withPeer (s peerVa)) (q 0x4B) [peerVa, 0] && ready (withPeer (s peerVa)) (q 0x4C) [peerVa, 0],
       sees (withPeer (s peerVa)) peerVa .read (fun x => x.home == 2), (s 0).requestRoom,
       -- a leaf without the rights of a write
       faults (s readOnly) readOnly .write 3]) = true := by decide

theorem test_meets_ScalarStores :
    let s := fun (a : Word) => withMem [0x80] (regs a 0)
    let q := fun opc => memIssue onA opc (f3 1 2 3) none true
    allOf ([block, block + 1, readOnly, 2 ^ 56].map (fun a => ready (s a) (q 0x4D) [a, 0, 0] && ready (s a) (q 0x18) [a, 0, 0]) ++
      [stores? (s block) block, stores? (s block) block [7] none true, faults (s 0) readOnly .write 3, canonical readOnly]) = true := by decide

/-- The whole of a block's last byte, in a repeatable phase and in one that is not. -/
theorem test_meets_StoredBytesAreSeen :
    let s := withMem [0x80] id
    let u := (withMem [0x80] fun t => { t with ph := { t.ph with rep := false } })
    allOf ([s, u].map fun s => match s.ownXlate (block + 63) .write with
      | .ok x t => t.memWf && decide (x.home ≤ 1) && decide (x.pa % 64 + 1 ≤ 64) &&
          (bufStore t.cur.ph.buf (blockOf x (block + 63) [7] none false)).isSome && t.cur.ph.buf.isEmpty
      | _ => false) = true := by decide

/-- All four engines at W's word, at W's turn. -/
def met (f : Strand → Strand) : State :=
  { (strand fun t => f { t with eng := { (t.eng.map fun e => { e with arrived := true }) with w := t.eng.w } }) with turn := .eng .w }

def meets? (s : State) : Bool :=
  s.turn.engine == some .w && (s.cur.fl.all fun f => !s.cur.due f) && [Eng.a, .x, .m, .w].all fun e =>
    (s.cur.engine e).pc == (s.cur.engine .w).pc && (e == .w || (s.cur.engine e).arrived)

theorem meets_of {s : State} (h : meets? s = true) : s.Meets := by
  simp only [meets?] at h
  simp only [List.all_cons, List.all_nil, Bool.and_eq_true, beq_iff_eq, Bool.or_eq_true, Bool.and_true] at h
  obtain ⟨⟨ht, hf⟩, ha, hx, hm, -⟩ := h
  refine ⟨ht, fun f m => by simpa using List.all_eq_true.mp hf f m, fun e => ?_⟩
  cases e
  · exact ⟨ha.1, fun _ => ha.2.resolve_left (by decide)⟩
  · exact ⟨hx.1, fun _ => hx.2.resolve_left (by decide)⟩
  · exact ⟨hm.1, fun _ => hm.2.resolve_left (by decide)⟩
  · exact ⟨rfl, fun h => absurd rfl h⟩

theorem test_meets_JointWords :
    let saving := (met fun t => { t with preempt := true }).setCtx 0 fun c => { c with record := { c.record with saven := 1 } }
    let token := met fun t => { t with links := { t.links with sn := t.links.sn.set .a ⟨1, 1, 0⟩ } }
    let buffered := met fun t => { t with ph := { t.ph with buf := [⟨0, 0, 0, 0, 0, .submit 0 0 none⟩] } }
    let handling := met fun t => { t with st := .handler }
    let leaving : State := (met id).setCtx 0 fun c => { c with record := { c.record with saven := 1 } }
    let leaving := { leaving with work := { leaving.work with
      groups := [{ ctx := 0, die := 0, stage := 0, st := .forming, cores := [0], leaving := some (0, none), pend := [] }] } }
    allOf ([met id, saving, token, buffered, handling, leaving].map meets? ++
      [{ met id with turn := .eng .a }.turn == .eng .a, (met id).cur.fl.isEmpty, (met id).cur.st == .running, handling.cur.st == .handler, !(met id).cur.awaiting, (met id).cur.nest.isNone, (met id).cur.pend.isNone,
       (met id).cur.ops.isEmpty, (met id).cur.links.empty?, !((token.waitJoint false).cur.links.empty?),
       ((met id).waitJoint false).startCommit.cur.ph.buf.isEmpty, !(buffered.waitJoint false).startCommit.cur.ph.buf.isEmpty,
       !(((met id).waitJoint false).leaveJoint 1).cur.preempt, !(((met id).waitJoint false).leaveJoint 1).curLeaving,
       ((leaving.waitJoint false).leaveJoint 1).curLeaving, ((leaving.waitJoint false).leaveJoint 1).frameFree,
       ((saving.waitJoint false).leaveJoint 1).cur.preempt, ((saving.waitJoint false).leaveJoint 1).cur.runs,
       ((saving.waitJoint false).leaveJoint 1).frameFree]) = true := by decide

/-! #### Tiles, shapes and layouts -/

/-- A tile of 4 rows of 64 bytes under handle 5. -/
def tile5 : Tile := ⟨false, false, false, false, false, 1, 4, 1, 0, 0, false, .fresh 0, .fresh 1⟩
def tiled (f : Strand → Strand) : State :=
  strand fun t => (f { t with lring := { RingAlloc.empty 40 with head := 1, used := 1, spans := [⟨0, 1, (0, 5), true⟩] } }).setTile 5 tile5
def busy5 (s : State) : State := { s.starting .a 0x65 quiet (.fill 0 5 0 0 false 0) [⟨5, false, 0, 4, true⟩] (some .copyComplete) with clock := s.clock + 1 }

theorem test_meets_TileLoadAndStore :
    let s := fun (off : Word) => tiled (regs 5 off)
    let o : F3 := ⟨1, 2, 3, 3⟩
    let ql := { memIssue onA 0x4E o none false with lat := 12 }
    let qs := memIssue onA 0x4F o none true
    let alias5 := (s 0).setCur fun t => t.setTile 5 { tile5 with ro := true }
    allOf ([0, 248, 249, 256].map (fun off => ready (s off) ql [5, off] && ready (s off) qs [5, off, 0]) ++
      [(s 248).mem.poison.isEmpty, (s 248).cur.tile? 5 == some tile5, tile5.rows * tile5.rb == 256, !(s 248).rowsBusy 5 3 4, (busy5 (s 0)).rowsBusy 5 0 1,
       (match (s 0).cur.readSrcs .a [(2, true)] (s 0).cur.links with | .ok v k => v == [5] && k == (s 0).cur.links | _ => false), ready alias5 qs [5, 0, 0],
       ready (busy5 (s 0)) ql [5, 0]]) = true := by decide

/-- A linear layout of 4 rows of 16 elements, and a ragged one. -/
def linear : Layout := ⟨block, 1, 2, 0, 0xFF, 0, [16, 4, 1, 1], [64, 0, 0], 0⟩
def raggedLay : Layout := ⟨block, 0x401, 3, 1, 0xFF, 0, [16, 9, 2, 1], [64, 0, 0], block + 512⟩

theorem test_meets_ShapeAndLayoutInstructions :
    let q := fun opc => onA.issue opc 1 [(2, false)] [.sh 0] 1
    let slot := fun (k : LySlot) (f : Strand → Strand) => withMem linear.bytes fun t => { f t with ly := some k :: List.replicate 7 none }
    let s := slot ⟨linear, some block, false⟩ (regs block 0)
    let e := fun (v : Word) => (strand (regs v 0)).setCur fun t => t.applyLate (.ext 0 0 7)
    let r := (slot ⟨raggedLay, none, false⟩ (regs 0 1))
    let r := { r with mem := r.mem.put 0 0x1200 ([0, 3, 9].map (leBytes 4)).flatten }
    allOf [ready (e (2 ^ 32 - 1)) (q 0x50) [2 ^ 32 - 1], ready (e (2 ^ 32)) (q 0x50) [2 ^ 32],
      ready base (onA.issue 0x51 1 [] [.sh 0] 1) [], ready base (onA.issue 0x52 1 [] [.reg 1, .sh 0] 1) [],
      ready (e 5) (q 0x53) [5], ready (e (-7)) (q 0x54) [-7], ready (e (-8)) (q 0x54) [-8], ((e 0).cur.ext 0 0).toNat == 7,
      ready (e (2 ^ 32 - 7)) (q 0x54) [2 ^ 32 - 7], ready base (onA.issue 0x55 1 [] [.sh 0, .sh 1] 1) [], decide (0 < base.cur.sh.length), ready base (onA.issue 0x55 1 [] [.sh 0, .sh 0] 1) [],
      -- layouts
      ready s (onA.issue 0x56 1 (memPeeks (f3 0 2 3) none) [.ly 0] 40) [block, 0], reads? s block 64, (Layout.ofBytes linear.bytes).fault.isNone,
      (Layout.ofBytes (List.replicate 64 0)).fault == some tSHAPE, block.toNat % 64 == 0,
      ready s (onA.issue 0x57 1 (memPeeks (f3 0 2 3) none) [.ly 0] 1) [block, 0], stores? s block linear.bytes, s.cur.slot 0 == some ⟨linear, some block, false⟩,
      ready s (onA.issue 0x58 1 [] ([.reg 1, .ly 0] ++ s.cur.bound 0) 1) [], ready s (onA.issue 0x59 1 [(2, false)] [.ly 0] 1) [block],
      (linear.setSel 0 block).fault.isNone, (linear.setSel 2 5).fault == some tSHAPE,
      ready s (onA.issue 0x58 1 [] ([.reg 1, .ly 1] ++ s.cur.bound 1) 1) [], (s.cur.slot 1).isNone,
      ready r (onA.issue 0x5A 1 [(3, false)] ([.sh 0, .ly 0] ++ r.cur.bound 0) 40) [1], raggedLay.fault.isNone, raggedLay.ragged,
      (match raggedOffset raggedLay 1 r with
        | .ok lo w => lo == 3 && (match raggedOffset raggedLay 2 w with | .ok hi _ => hi == 9 | _ => false)
        | _ => false)] = true := by decide

theorem test_meets_TileHandles :
    let x : XH := ⟨5, 0, true, 1⟩
    let q := quiet.issue .a 0x60 2 (handleSrcs 0 (some x) ++ [2]) [] 2
    let s := fun (rows : Word) => strand fun t => { regs rows 0 t with lring := .empty 40 }
    let t := fun (b : Word) => tiled (regs b 0)
    let y : Option XH := some ⟨5, 0, true, 0⟩
    let qf := quiet.issue .a 0x61 2 (handleSrcs 0 y) [] 1
    let qs := quiet.issue .a 0x62 2 (handleSrcs 0 y ++ [2]) [] 1
    let qt := quiet.issue .a 0x63 2 (handleSrcs 0 y ++ [2]) [] 1
    let qq := quiet.issue .a 0x64 2 (handleSrcs 0 y) [.reg 1] 1
    let passed := (t 3).setPhase fun p => { p with marks := [5], gone := [5 * 65536, 5 * 65536 + 3] }
    let described := fun (b : Word) => (t b).setCur fun t => t.setTile 5 { tile5 with ds := true }
    allOf ([0, 4, 160, 161, 65535, 65536].map (fun n => ready (s n) q [n]) ++
      [((s 0).cur.tile? 5).isNone, (((s 0).ring false).alloc 40 (0, 5)).isSome, (((s 0).ring false).alloc 41 (0, 5)).isNone,
       ready ((t 4)) q [4], ready (t 4) qf [], ready passed qf [], passed.cur.ph.marks.contains 5, passed.cur.ph.gone.contains (5 * 65536),
       !(t 4).cur.ph.marks.contains 5, ready (s 4) qf [], (t 4).cur.naming 5 == 0, (busy5 (t 4)).cur.naming 5 != 0, ready (busy5 (t 4)) qf [],
       ready (t 1) qs [1], ready (t 4) qs [4], ready (t 1) qt [1], tileTagOk 1, tileTagOk 12, ready (t 12) qt [12], ready (described 1) qt [1], ready (described 12) qt [12], ready passed qs [3],
       passed.cur.ph.gone.contains (5 * 65536 + 3), ready (t 0xFFFF) qt [0xFFFF], !tileTagOk 0xFFFF, ready (t 4) qq []]) =
      true := by decide

/-- A window of rows 0 to 3 of the layout, a paged layout, an index tile. -/
def copying (b : Word) (f : Layout → Layout) : State :=
  let s := withMem [1, 2, 3] fun t => { regs b 0 t with
    lring := .empty 40, ly := some ⟨f linear, none, false⟩ :: List.replicate 7 none, sh := [0, 4, 0, 0] :: List.replicate 15 [0, 0, 0, 0] }
  s.setCur fun t => (t.setTile 5 tile5).setTile 6 { tile5 with tag := 11 }

/-- The hypotheses that all clauses of CopiesStart share. -/
def fitsIn (s : State) (k : Layout) : Bool :=
  let lay := { k with ext := (s.cur.extents k).map (BitVec.ofNat 32), shx := 0xFF }
  lay.shapeOk && (lay.lay != 3 || lay.pagedOk) && decide (lay.rowLen ≤ tile5.rb) && decide (0 + 4 ≤ tile5.rows) && lay.describedOk &&
    (match offsetsOf lay s with
     | .ok _ u => u.cur.tile? 5 == some tile5 && decide (u.scoreboard u.curCore + 2 ≤ Config.scoreboardEntries)
     | _ => false)

def paged : Layout → Layout := fun k => { k with tag := 0x301, rank := 3, st := [64, 0, 4], offs := block + 512 }

theorem test_meets_CopiesStart :
    let q := fun (opc : Nat) (s : State) => { quiet.issue .a opc 2 (handleSrcs 0 (some ⟨5, 0, true, 0⟩) ++ [2]) ([.ly 0, .sh 0] ++ s.cur.bound 0) 1 with
      async := true }
    let s := copying 0 id
    let p := copying 0 paged
    let full := s.setCur fun t => { t with ops := List.replicate 64 ⟨1, .a, 0x65, false, false, .fill 0 7 0 0 false 0, [⟨7, false, 0, 1, true⟩], false, none, 0⟩ }
    allOf [fitsIn s linear, fitsIn p (paged linear), ready s (q 0x65 s) [0], ready p (q 0x67 p) [0], ready p (q 0x68 p) [0],
      ready s (q 0x67 s) [0], ready s (q 0x68 s) [0], tile5.mayStore linear, (tile5.retag 1 false 0 false).isSome,
      (tile5.retag 2 false 0 false).isNone, fitsIn (copying 0 fun k => { k with tag := 2 }) { linear with tag := 2 },
      decide (0 + 4 ≤ linear.e 1), tagFmt ({ tile5 with tag := 11 } : Tile).tag == 11, decide (4 * (0 + 4) ≤ tile5.size),
      ready full (q 0x65 full) [0], decide (Config.scoreboardEntries < full.scoreboard full.curCore + 1)] = true := by decide

/-! #### Operations -/

def okAnd {α : Type} (r : Res α) (p : α → State → Bool) : Bool := match r with | .ok a s => p a s | .stop _ => false
def done? {α : Type} (r : Res α) : Bool := okAnd r fun _ _ => true

/-- The strand of CopiesStart with counters 0 to 3 at 0x2000 and more bytes in memory. -/
def world (a b : Word) (f : Layout → Layout) (m : List (Nat × List Byte)) : State :=
  let s := (copying a f).setCtx 0 fun c => { c with record := { c.record with cntbase := 0x40002000, ncnt := 4, hold := 1000 } }
  let s := s.setCur fun t => t.setReg .a 3 b
  { s with mem := m.foldl (fun n e => n.put 0 e.1 e.2) s.mem }

def claimed (st : SlotSt) (s : State) : State := s.setSlot s.curCore 0 fun f => { f with st, holder := some s.cur.key }

theorem test_meets_SlotFillsWarmsAndBlocks :
    let x : Option XH := some ⟨5, 0, true, 0⟩
    let qs := { quiet.issue .a 0x66 2 (handleSrcs 0 x ++ [2, 3]) [] 1 with async := true }
    let s := world 0 0 id []
    let qw := fun (s : State) => { quiet.issue .a 0x69 2 [] ([.ly 0, .sh 0] ++ s.cur.bound 0) 1 with async := true }
    let p := fun (e : Word) (i : Word) => world i 0 paged [(0x1200, leBytes 8 e.toNat)]
    let qb := fun (s : State) => quiet.issue .a 0x6E 1 [2] ([.reg 1, .ly 0] ++ s.cur.bound 0) 40
    allOf ([SlotSt.claimed, .full, .filling, .busy].map (fun st =>
        ready (claimed st s) qs [0, 0] && ((claimed st s).slot 0 0).heldBy (claimed st s).cur.key && ((claimed st s).slot 0 0).st == st) ++
      [(s.slot s.curCore 0).heldBy s.cur.key == false, ready s qs [0, 0], tagFmt tile5.tag != 0, decide (s.scoreboard 0 + 1 ≤ Config.scoreboardEntries),
       ready s (qw s) [], fitsIn s linear, ready (p block 3) (qb (p block 3)) [3], (paged linear).pagedOk, (paged linear).extOk, linear.extOk, decide (3 < (paged linear).e 1),
       ready s (qb s) [0], linear.lay != 3,
       done? (loadBytes ((paged linear).offs + w64 0) 8 true (p block 3)), block.toNat % 64 == 0, ready (p 0 0) (qb (p 0 0)) [0],
       ready (p 65 0) (qb (p 65 0)) [0]]) = true := by decide

theorem test_meets_RowPlaces :
    let sparse : Layout := { linear with tag := 0x41, ext := [64, 64, 1, 1] }
    let s := world 0 0 paged [(0x1200, leBytes 8 block.toNat), (0x1000, [1])]
    allOf [linear.lay == 0, tagSpc linear.tag == 0, ({ linear with tag := 0x201, ext := [64, 64, 1, 1] } : Layout).lay == 2,
      (paged linear).lay == 3, done? (loadBytes ((paged linear).offs + w64 (8 * (3 / 4))) 8 true s), tagSpc sparse.tag == 2, sparse.lay == 0,
      done? (loadBytes sparse.base (((64 + 63) / 64 * ((64 + 63) / 64) + 7) / 8) true s), decide (64 * (63 / 64) + 64 ≤ 64)] = true := by decide

/-- An operation under way, number 1, and one that stands in its way, number 0. -/
def underWay (k : OpKind) (touch : List Touch) (first : Bool) (s : State) : State := s.setCur fun t => { t with
  ops := (if first then [⟨0, .a, 0x65, false, false, .fill 0 5 0 0 false 1, [⟨5, false, 0, 4, true⟩], false, none, 0⟩] else []) ++
    [⟨1, .a, 0x65, false, false, k, touch, false, none, 0⟩] }

/-- The operation and no other in its way. -/
def freeToGo (s : State) : Bool := (s.strand? 0).isSome && (match (s.swapTo 0).cur.op? 1 with
  | some o => !s.cur.copyBlocked o.id o.touch
  | none => false)

theorem test_meets_CopiesComplete :
    let lay := { linear with ext := [16, 4, 1, 1] }
    let op : RowOp := ⟨lay, 0, 0, 4, 0, 0, 5, 0, [], false, none⟩
    let touch := [⟨5, false, 0, 4, true⟩]
    let s := world 0 0 id []
    let load := underWay (.load op false) touch false s
    let slot := underWay (.fill 0 5 0 0 false 1) [] false s
    let after := load.setCur fun t => { t with ops := ⟨0, .a, 0x65, false, false, .load op false, [], false, none, 0⟩ :: t.ops }
    allOf [freeToGo load, freeToGo slot, freeToGo (underWay (.store op) touch false s),
      !freeToGo (underWay (.load op false) touch true s), (s.swapTo 0).cur.tile? 5 == some tile5,
      okAnd (op.rows load) (fun rows w => okAnd (Act.map (readRow lay []) rows w) fun ds w' =>
        okAnd (healRows 5 0 ds w') fun _ t => (t.cur.tile? 5).isSome),
      okAnd (op.rows load) (fun rows w => okAnd (storeSound op tile5 rows w) fun _ w0 =>
        okAnd (storeAll (rows.map (rowStores lay tile5 0)).flatten 1 w0) fun _ w' => done? (markSlot op tile5 rows w')),
      okAnd (fillSound tile5 0 0 false 1 (slot.swapTo 0)) fun _ _ => true,
      (load.swapTo 0).cur.copyBefore 1 == false, (after.swapTo 0).cur.copyBefore 1, ((after.swapTo 0).cur.op? 1).isSome,
      freeToGo (underWay (.warm op []) [] false s), (s.warmAll []).1, okAnd (op.rows s) (fun _ w => (w.warmAll []).1),
      !(s.warmAll [0x60000000]).1] = true := by decide

theorem test_meets_ChainsStart :
    let s := fun (a b : Word) => world a b id []
    let q := fun (g : Eng) opc => { quiet.issue g opc 1 [2] [] 1 with async := true }
    let x : Option XH := some ⟨5, 0, true, 0x2000⟩
    let qt := { quiet.issue .a 0x6A 2 (handleSrcs 0 x ++ [2]) [] 1 with async := true }
    let ql := quiet.issue .a 0x6B 1 [2, 3] [.reg 1] 40
    let w := fun (a : Word) => (s 0 0).setCur fun t => t.setReg .w 2 a
    let running := underWay (.chain ⟨0x6A, 0, .mem (block + 64), [], [], 0, 0, .mem block, false⟩) [] false (s (block + 64) 0)
    allOf [ready (s block 0) (q .a 0x6A) [block], ready (s (block + 8) 0) (q .a 0x6A) [block + 8], ready (w block) (q .w 0x62) [block],
      ready (w (block + 8)) (q .w 0x62) [block + 8], ready (s 32 0) qt [32], (s 32 0).cur.tile? 5 == some tile5,
      ((s 32 0).cur.tile? 7).isNone, ready (s (block + 8) block) ql [block + 8, block], ready (s (block + 64) block) ql [block + 64, block],
      ready (s block block) ql [block, block], okAnd (loadBytes block 32 false (s block block)) (fun b _ => field b 0 1 != 0),
      okAnd (loadBytes (block + 64) 32 false (s 0 0)) (fun b u => field b 0 1 == 0 && (u.chainAt (block + 64)).isNone && stores? u (block + 64)),
      ready running ql [block + 64, 0], okAnd (loadBytes (block + 64) 32 false running) (fun _ u => (u.chainAt (block + 64)).isSome)] = true := by decide

/-- A chain that stands at an entry. -/
def atEntry (kind flags w4 : Nat) (q8 q16 q24 : Nat) (touch : List Touch := []) (first : Bool := false) : State :=
  underWay (.chain ⟨0x6A, 0, .mem (block + 64), [], [], 0, 0, .mem block, false⟩) touch first
    (world 0 0 id [(0x1020, [4, 0, 0, 0, 0, 0, 0, 0] ++ List.replicate 24 0),
      (0x1040, [BitVec.ofNat 8 kind, BitVec.ofNat 8 flags, 0, 0] ++ leBytes 4 w4 ++ leBytes 8 q8 ++ leBytes 8 q16 ++ leBytes 8 q24)])

/-- The entry is read there, the operation still under way, and p holds. -/
def entryIs (s : State) (p : Chain → ChainAddr → ChainEnt → State → Bool) : Bool :=
  match s.cur.op? 1 with
  | some o => match o.kind with
    | .chain c => !c.ended && okAnd (currentEntry c s) fun r w => w.cur.op? 1 == some o && p c r.1 r.2 w
    | _ => false
  | none => false

def counted? (e : ChainEnt) (w : State) : Bool := decide (e.w4 < w.curCtx.record.ncnt)

/-- The add to the entry's counter goes into the buffer. -/
def adds? (e : ChainEnt) (w : State) : Bool :=
  let va := counterVa w.curCtx e.w4
  counted? e w && okAnd (addCounter va e.w4 e.q8 w) (fun _ t => (t.cur.op? 1).isSome) && va.toNat % 8 == 0 && canonical va &&
    (match w.ownXlate va .write with
     | .ok x t => !x.desc && (room? t (decide (t.cur.ph.buf.length < Config.bufEntries))).isSome
     | _ => false)

/-- The entry's tiles can be recorded in the scoreboard. -/
def recordable (w : State) (want : List Touch) : Bool :=
  !w.cur.chainBlocked 1 want && decide (w.scoreboard w.curCore + want.length ≤ Config.scoreboardEntries)

theorem test_meets_ChainSteps :
    let tile := 5
    allOf [
      entryIs (atEntry 0 0 0 0 0 0) (fun _ _ e _ => e.kind == 0),
      entryIs (atEntry 0 1 3 1 0 0) (fun _ _ e w => e.flags == 1 && adds? e w && w.cur.ph.rep),
      entryIs (atEntry 1 0 64 block.toNat (block.toNat + 256) 0) (fun _ _ e w => okAnd (loadBytes e.q8 e.w4 true w) fun b t =>
        okAnd (Act.map (carried e.q8 e.q16) (storePieces e.q16 b) t) fun ps t' => okAnd (storeAll ps 1 t') fun _ t'' => (t''.cur.op? 1).isSome),
      entryIs (atEntry 1 2 64 block.toNat tile 0) (fun _ _ e w => tileAddr e.q16 == some (5, 0) && decide (0 + e.w4 ≤ tile5.size) &&
        recordable w [touchBytes tile5 5 0 e.w4 true]),
      entryIs (atEntry 1 2 64 block.toNat tile 0 [] true) (fun _ _ e w => !recordable w [touchBytes tile5 5 0 e.w4 true]),
      entryIs (atEntry 1 2 64 block.toNat tile 0 [touchBytes tile5 5 0 64 true]) (fun _ _ e w => okAnd (loadBytes e.q8 e.w4 true w) fun _ t =>
        okAnd (tileHeal tile5 true 0 e.w4 t) fun _ t' => t'.cur.tile? 5 == some tile5 && (t'.cur.op? 1).isSome),
      entryIs (atEntry 1 1 64 tile block.toNat 0) (fun _ _ e w => recordable w [touchBytes tile5 5 0 e.w4 false])] = true := by decide

theorem test_meets_ChainSteps_tiles :
    let tile := 5
    allOf [
      entryIs (atEntry 1 1 64 tile block.toNat 0 [touchBytes tile5 5 0 64 false]) (fun _ _ e w => okAnd (tileSound tile5 0 e.w4 w) fun _ t =>
        okAnd (storeAll (storePieces e.q16 (tile5.front.bytes 0 e.w4)) 1 t) fun _ t' => (t'.cur.op? 1).isSome)] = true := by decide

theorem test_meets_ChainSteps_tile_to_tile :
    let tile := 5
    allOf [
      entryIs (atEntry 1 3 64 tile (6 + 192 * 2 ^ 32) 0) (fun _ _ e w => tileAddr e.q16 == some (6, 192) && (w.cur.tile? 6).isSome &&
        decide (192 + e.w4 ≤ tile5.size) && recordable w [touchBytes tile5 5 0 e.w4 false, touchBytes tile5 6 192 e.w4 true]),
      entryIs (atEntry 1 3 64 tile (6 + 192 * 2 ^ 32) 0 [touchBytes tile5 5 0 64 false, touchBytes tile5 6 192 64 true]) (fun _ _ e w =>
        okAnd (tileSound tile5 0 e.w4 w) fun _ t => okAnd (tileHeal { tile5 with tag := 11 } true 192 e.w4 t) fun _ t' =>
          t'.cur.tile? 6 == some { tile5 with tag := 11 } && (t'.cur.op? 1).isSome)] = true := by decide

theorem test_meets_ChainSteps_gather : allOf [
      entryIs (atEntry 1 2 64 block.toNat 7 0) (fun _ _ e w => tileAddr e.q16 == some (7, 0) && (w.cur.tile? 7).isNone),
      entryIs (atEntry 2 0 0 (block.toNat + 256) (block.toNat + 512) (5 * 2 ^ 32) [⟨5, false, 0, 0, true⟩]) (fun c a e w =>
        okAnd (chainGatherBody 1 c a e { w with mem := (w.mem.put 0 0x1100 linear.bytes) }) fun _ t => (t.cur.op? 1).isSome)] = true := by decide

theorem test_meets_ChainSteps_counters : allOf [
      entryIs (atEntry 3 0 3 1 0 0) (fun _ _ e w => adds? e w && w.cur.ph.rep),
      entryIs (atEntry 3 0 4 1 0 0) (fun _ _ e w => !counted? e w), entryIs (atEntry 4 0 4 1 0 0) (fun _ _ e w => !counted? e w),
      entryIs (atEntry 6 0 4 1 2 0) (fun _ _ e w => !counted? e w),
      entryIs (atEntry 4 0 3 0 0 0) (fun _ _ e w => okAnd (counterPast (counterVa w.curCtx e.w4) e.q8 w) fun b _ => b),
      entryIs (atEntry 4 0 3 1 0 0) (fun _ _ e w => okAnd (counterPast (counterVa w.curCtx e.w4) e.q8 w) fun b _ => !b),
      entryIs (atEntry 6 0 3 1 2 0) (fun _ _ e w => okAnd (counterPast (counterVa w.curCtx e.w4) e.q8 w) fun b _ => !b)] = true := by decide

theorem test_meets_ChainSteps_control : allOf [
      entryIs (atEntry 5 0 1 1 0 0) (fun c a e w => okAnd (bodyBefore c a e.q8.toNat w) fun b t => b.length == 1 && (t.cur.op? 1).isSome),
      entryIs (atEntry 5 0 2 1 0 0) (fun c a e w => okAnd (bodyBefore c a e.q8.toNat w) fun b _ => b.all fun x => x.kind == 4),
      entryIs (atEntry 5 0 2 2 0 0) (fun c a e w => okAnd (bodyBefore c a e.q8.toNat
        { w with mem := w.mem.put 0 0x1000 (List.replicate 32 0) }) fun b _ => b.any fun x => x.kind == 0),
      entryIs (atEntry 7 0 0 block.toNat 0 0) (fun _ _ e _ => e.flags == 0),
      entryIs (atEntry 7 1 0 (5 + 64 * 2 ^ 32) 0 0) (fun _ _ e _ => tileAddr e.q8 == some (5, 64))] = true := by decide

/-- A descriptor of the index engine. -/
def indexDesc (n fl h1 h2 h3 : Nat) (rest : List Byte) : List Byte :=
  leBytes 8 (block.toNat + 64) ++ leBytes 4 n ++ [BitVec.ofNat 8 fl, BitVec.ofNat 8 h1, BitVec.ofNat 8 h2, BitVec.ofNat 8 h3] ++ rest

theorem test_meets_IndexWalks :
    let walk := indexDesc 4 2 5 6 6 (leBytes 4 0 ++ leBytes 4 10 ++ leBytes 4 0 ++ leBytes 4 10)
    let split := fun (parts : Nat) => leBytes 8 block.toNat ++ leBytes 4 9 ++ [0, 5] ++ leBytes 2 parts ++ List.replicate 16 0
    let s := fun (d : List Byte) (a : Word) => world a 0 id [(0x1000, d)]
    let q := fun opc => { quiet.issue .a opc 1 [2] [] 1 with async := true }
    let usable := fun (s : State) h => match s.cur.tile? h with | some v => !v.ro | none => false
    allOf ([block, block + 16].map (fun a => ready (s walk a) (q 0x6C) [a]) ++ [0, 4, 4096, 4097].map (fun n => ready (s (split n) block) (q 0x6D) [block]) ++
      [okAnd (loadBytes block 32 true (s walk block)) (fun d u => d == walk && [5, 6].all (usable u) && decide (u.scoreboard 0 + 3 ≤ Config.scoreboardEntries)),
       okAnd (loadBytes block 32 false (s (split 32) block)) (fun d u => field d 14 2 == 32 && field d 16 16 == 0 && usable u 5 && decide (8 * 32 ≤ tile5.size)),
       freeToGo (underWay (.walk block walk) [⟨5, false, 0, 4, true⟩] false (s walk block)),
       freeToGo (underWay (.split block (split 4)) [⟨5, false, 0, 4, true⟩] false (s (split 4) block)),
       done? (coordinates walk (s walk block))]) = true := by decide

/-! #### Atomics, counters, block stores -/

/-- Addresses of a described page and of host memory. -/
def withPages (f : Strand → Strand) : State :=
  let s := world block 5 id []
  let s := s.setCur fun t => { f t with wins := t.wins ++ [⟨0x70000000, 0, 16, 0x23⟩] }
  withPeer s

def unrepeatable (t : Strand) : Strand := { t with ph := { t.ph with rep := false } }
def xlated (s : State) (va : Word) (p : Xlate → Bool) : Bool := match s.ownXlate va .write with | .ok x _ => p x | _ => false

theorem test_meets_Atomics :
    let s := fun (va : Word) => (withPages unrepeatable).setCur fun t => t.setReg .a 2 va
    let q := fun opc srcs names => { quiet.issue .a opc 2 srcs names 1 with legal := decide (2 ≤ (3 : Nat)) }
    let ask : AtomReq := ⟨atomEngine 0 0x1000, 0, 0, 0, 0, 0, some 0, 0, 0, 0, 8, 0, 0x1000, 5, 0, false, none⟩
    let held := (s block).setCur fun t => { t with ph := { t.ph with rep := true, buf := [⟨0, 0, 0, 0, 0, .submit 0 0 none⟩] } }
    let asked := fun (l : List AtomReq) => { s block with mem := { (s block).mem with atoms := l } }
    let served := asked [{ ask with old := some 7 }]
    allOf ([block, block + 4, 0x70000000, 0x80000000, peerVa, 2 ^ 56].map (fun va =>
        ready (s va) (q 0x70 [2, 3] []) [va, 5] && ready (s va) (q 0x71 [2, 3] [.reg 1]) [va, 5] && ready (s va) (q 0x72 [2, 3, 0] [.reg 1]) [va, 5, 0]) ++
      [xlated (s 0) block (fun p => p.home == 0 && !p.desc), xlated (s 0) 0x70000000 (fun p => p.home == 1 && !p.desc),
       xlated (s 0) 0x80000000 (fun p => p.desc), xlated (s 0) peerVa (fun p => p.home == 2 && !p.desc), !(s 0).cur.ph.rep && (s 0).cur.ph.buf.isEmpty, !held.unrepeat.cur.ph.buf.isEmpty,
       !(s 0).unrepeat.cur.awaiting, (s 0).unrepeat.requestRoom, !(asked (List.replicate Config.coreRequests ask)).requestRoom,
       ((served.mem.atoms.find? fun k => k.key == served.cur.key && k.tag == 0 && !k.post).bind AtomReq.old).isSome,
       (room? (s 0) true).isSome]) = true := by decide

theorem test_meets_CompletionCounters :
    let s := fun (k b : Word) => world k b id [(0x2018, leBytes 8 9)]
    let w := fun (k : Word) => (s 0 0).setCur fun t => (t.setReg .w 2 k).setReg .w 3 0
    let q := quiet.issue .a 0x85 1 [2, 3] [] 1
    let va : Word := 0x40002018
    let late := { (s 3 10).setEng .a (fun e => { e with since := some 0 }) with clock := 2 ^ 60 }
    allOf ([3, 4].map (fun k => ready (s k 0) (quiet.issue .a 0x84 1 [2, 3] [] 1) [k, 0] && ready (w k) (quiet.issue .w 0x63 1 [2, 3] [] 1) [k, 0] &&
        ready (s k 0) q [k, 0]) ++
      [ready (s 3 9) q [3, 9], ready (s 3 10) q [3, 10], reads? (s 3 9) va 8, xlated (s 3 0) va (fun p => !p.desc), (s 3 0).cur.ph.rep, (room? (s 3 0) true).isSome, (s 3 0).mem.poison.isEmpty,
       va.toNat % 8 == 0, decide ((0 : Nat) < (s 3 10).holdPeriods), decide (late.holdPeriods ≤ late.clock), ready late q [3, 10]]) = true := by decide

theorem test_meets_BlockStores :
    let s := fun (va b : Word) => (withPages id).setCur fun t => (t.setReg .w 2 va).setReg .w 3 b
    let q := quiet.issue .w 0x60 1 ([2, 3] ++ tab 8 fun i => 8 + BitVec.ofNat 5 i) [] 1
    let qd := quiet.issue .w 0x61 1 ([2, 3] ++ tab 8 fun i => 8 + BitVec.ofNat 5 i) [] 1
    let posting := underWay (.chain ⟨0x62, 0, .mem block, [], [], 0, 0, .mem block, false⟩) [] false (s 0 0)
    let posting := posting.setCur fun t => { t with ops := t.ops.map fun o => { o with g := .w, opc := 0x62 } }
    let holding := (s 0 0).setCur fun t => { t with ph := { t.ph with buf := [⟨0, 0, 0, 0, 0, .submit 0 0 none⟩] } }
    allOf ([block, block + 8].map (fun va => ready (s va 0) q (va :: List.replicate 9 0)) ++
      [(0x80000000, (1 : Word)), (0x80000000, 0xFFFF), (0x80000000, 65536), (block, 1)].map (fun e =>
        ready (s e.1 e.2) qd (e.1 :: e.2 :: List.replicate 8 0)) ++
      [stores? (s 0 0) block, stores? (s 0 0) 0x80000000 [7] (some 1), (s 0 0).cur.ph.rep, !(s 0 0).unrepeat.cur.awaiting, xlated (s 0 0) 0x80000000 Xlate.desc, xlated (s 0 0) block (fun p => !p.desc),
       descOk 1, !descOk 0xFFFF, ready (s 0 0) (quiet.issue .w 0x64 1 [] [] 1) [], (s 0 0).cur.ops.isEmpty && (s 0 0).mem.stores.isEmpty,
       posting.cur.ops.any (fun o => o.g == .w && o.opc == 0x62 && !o.done), ready posting (quiet.issue .w 0x64 1 [] [] 1) [],
       ready (s 0 0) (quiet.issue .w 0x65 1 [] [] 1) [], (s 0 0).unrepeat.cur.ph.buf.isEmpty, !holding.unrepeat.cur.ph.buf.isEmpty]) = true := by decide

/-! #### Work -/

/-- The strand's task: levels of KIND 0, 2 and 3, an operand that names a near tile, a stream step. -/
def task0 : Task :=
  ⟨0, 0, 5, 0, 0, [0, 0, 0, 0, 0, 0, 0, 0, 1] ++ List.replicate 119 0, 3, 4, { Image.none with levels := [(0, 4), (2, 8), (3, 5)] },
    none, [], 0, [], 0, true, 0, some ⟨2, 50, -7, 1⟩, 0, false, none⟩

def queue5 : Queue :=
  ⟨5, .ready, 0, block, 4, 0, 100, 0, 0, 0, 3, 1, 0, 0, none, false, List.replicate 128 0, 0, 0, some 0, 0, [], false, [], [],
    some ⟨[], ⟨none, [], 0, 0⟩, []⟩, none, none⟩

/-- A strand of a task in a group of two cores. -/
def atWork (a b : Word) : State :=
  let s := world a b id []
  let s := s.setCtx 0 fun c => { c with record := { c.record with p := 5, diemask := 1, saven := 4, coreus := 100, period := 10 }, rank := 2, nstrm := 3 }
  { s with work := { s.work with
    tasks := [(0, task0)], queues := [(5, queue5)], groups := [⟨0, 0, 0, .active, [0, 1], none, []⟩] } }

theorem test_meets_QueueInstructions :
    let s := fun (a b : Word) => atWork a b
    let q := quiet.issue .a 0x78 1 [2, 3] [] 1
    let qs := quiet.issue .a 0x79 1 [2] [.reg 1] 40
    allOf [ready (s 5 block) q [5, block], ready (s 5 (block + 64)) q [5, block + 64], (s 5 0).queue? ((s 5 0).curCtx.fn * 2 ^ 20 + 5) == some queue5,
      queue5.ctx == (s 5 0).cur.sys.ctx.toNat, (s 5 0).cur.ph.rep, ready (s 5 0) qs [5], ready (s (2 ^ 20) 0) qs [2 ^ 20], ready (s 6 0) q [6, 0],
      ready (s 6 0) qs [6], ((s 6 0).queue? 6).isNone, (room? (s 5 0) true).isSome,
      queue5.pick.any (fun p => p.roomIn ((s 5 0).ctxOf 0)), !recFence queue5.record, recWait queue5.record == 0,
      ({ s 5 0 with work := { (s 5 0).work with queues := [(5, { queue5 with ctx := 1 })] } }).queue? 5 != some queue5] = true := by decide

theorem test_meets_GroupAndBarrierInstructions :
    let s := atWork 2 0
    let at' := fun (a : Word) => atWork a 0
    let q := quiet.issue .a 0x7A 1 [] [.reg 1] 1
    let qr := quiet.issue .a 0x7A 1 [2] [.reg 1] 1
    let qy := quiet.issue .a 0x7B 1 [2] [.reg 1] 1
    let bar : Barrier := ⟨true, 0, 2, 2, 1, 7⟩
    let b := fun (n a : Word) (v : Barrier) (js : List Join) => ((atWork n a).setBar 255 v).setCur fun t => { t with joins := js }
    let qj := quiet.issue .a 0x80 1 [2, 3] [] 8
    let qv := quiet.issue .a 0x81 1 [2] [.reg 1] 8
    let qw := quiet.issue .a 0x82 1 [2, 3] [] 1
    let ql := quiet.issue .a 0x83 1 [2] [] 8
    let full : Barrier := ⟨true, 0, 1, 1, 0, 7⟩
    allOf ([ready s q [], ready (atWork 5 0) qr [5], ready (atWork 6 0) qr [6], s.curLevels[2]? == some (3, 5), s.curLevels[1]? == some (2, 8),
        s.curLevels[0]? == some (0, 4), s.curCtx.dies.findIdx? (· == s.curDie) == some 0, ready (at' 1) qy [1], (at' 1).yields 1, !(at' 0).yields 0,
        ready (at' 0) qy [0], ready (at' 2) qy [2]] ++
      [(bar, [(⟨255, none, 0⟩ : Join)]), (bar, []), (full, []), ({ bar with members := 1 }, []), ({ bar with members := 0 }, []), ({ bar with v := false }, []),
        ({ bar with ctx := 1 }, []), (bar, [⟨255, some 0, 7⟩])].map (fun e =>
        ready (b 255 2 e.1 e.2) qj [255, 2] && ready (b 255 2 e.1 e.2) qv [255] && ready (b 255 7 e.1 e.2) qw [255, 7] && ready (b 255 2 e.1 e.2) ql [255] &&
          (b 255 2 e.1 e.2).bar 255 == some e.1) ++
      [ready (at' 256) qv [256], ready (at' 4) ql [4], ((at' 4).bar 4).isNone, (b 255 2 bar []).cur.sys.ctx == 0, (b 255 2 bar []).cur.ops.isEmpty, !(b 255 2 bar []).accessesOut 0xFF,
       decide ((0 : Nat) < (b 255 7 bar []).holdPeriods)]) = true := by decide

theorem test_meets_MethodsAndContexts :
    let s := fun (a b : Word) (m : List (Nat × List Byte)) =>
      let s := (atWork a b).setCtx 0 fun c => { c with record := { c.record with mtroot := 0x40003000 } }
      { s with mem := m.foldl (fun n e => n.put 0 e.1 e.2) s.mem }
    let q := quiet.issue .a 0x7C 1 [2, 3] [.reg 1] 40
    let root := leBytes 8 0x40003040 ++ leBytes 4 1 ++ leBytes 4 0 ++ leBytes 8 0x40003400 ++ leBytes 4 1 ++ leBytes 4 0
    let a : Word := 2 ^ 48 + 1
    let hit : CacheEnt := ⟨0, 0, 1, [1, 0, 0], [true, true, true], ⟨none, [], 3, 0⟩⟩
    let cached := fun (s : State) => s.cached 0 0 1 (tab 3 fun i => BitVec.ofNat 16 (a.toNat / 2 ^ (16 * i) % 65536)) [true, true, true]
    let known := { s a 0 [] with work := { (s a 0 []).work with cache := [hit] } }
    let qc := fun (reads : List (BitVec 5)) => { quiet.issue .a 0x7D 1 reads [.reg 1] 1 with legal := true }
    let near := (s (256 * 9) 0 []).setCtx 0 fun c => { c with near := [(0, tile5)] }
    let named := { near with work := { near.work with tasks := [(0, { task0 with record := List.replicate 128 0xFF })] } }
    allOf [ready (s a 0 []) q [a, 0], (cached (s a 0 [])).isNone, (cached known).isSome, ready known q [a, 0], ready (s a 8 []) q [a, 8], ready (s 0x8000 0 []) q [0x8000, 0],
      okAnd (loadBytes 0x40003000 32 false (s a 0 [(0x3000, root)])) (fun b t => match tableRoot b with
        | some (va, n, _, _) => done? (loadBytes va (32 * n) false t)
        | none => false),
      okAnd (loadBytes 0x40003000 32 false (s a 0 [(0x3000, [1])])) (fun b _ => (tableRoot b).isNone),
      ready (s 0 0 []) (qc []) [], ready (s (256 * 9 + 5) 0 []) (qc [2]) [256 * 9 + 5], ((s 0 0 []).cur.tile? 9).isNone, ((s 0 0 []).nearOperand 5).isNone,
      ready (s (256 * 5) 0 []) (qc [2]) [256 * 5], ready (s 6 0 []) (qc [2]) [6], ready near (qc [2]) [256 * 9],
      (SMap.get? named.curCtx.near 0).isSome] = true := by decide

/-- Page tables at 0x8000: a leaf of 64 KiB at VA 0x10000 and one without V at 0x20000. -/
def leaf0 : Word := 2 ^ 63 + 0x50187
def pages (a b : Word) (leaf : Word) : State :=
  let s := (strand (regs a b)).setCtx 0 fun c => { c with record := { c.record with ptroot := 0x8000 } }
  let es : List (Nat × Nat) := [(0x8000, 0x9001), (0x9000, 0xA001), (0xA000, 0xB001), (0xB000, 0xC001), (0xC008, leaf.toNat), (0xC010, 2)]
  { s with mem := es.foldl (fun m e => m.put 0 e.1 (leBytes 8 e.2)) s.mem }

/-- The page at VA 0x10000 is on the move. -/
def moving (s : State) : State := { s with mem := { s.mem with moves := [⟨0, 0, 0x10000, 65536, 0, 0, 0x60000⟩] } }

def isLeaf (s : State) (va : Word) (p : Word → Bool) : Bool := match s.pageSlot va 0 with | .entry _ e => p e | _ => false

theorem test_meets_PageInstructions :
    let q := fun opc extra => { quiet.issue .a opc 1 ((2 : BitVec 5) :: extra) [.reg 1] 1 with legal := true }
    let s := pages 0x10000 0x20000 leaf0
    let off := pages 0x10001 0 leaf0
    let odd := pages (2 ^ 56) 0 leaf0
    let b := fun (v : Word) => pages 0x10000 v leaf0
    let leaf := fun (va : Word) (p : Word → Bool) => !windowIn s.cur.wins va 65536 && (match s.pageSlot va 0 with | .entry _ e => leafV e && p e | _ => false)
    allOf [ready s (q 0x88 [3]) [0x10000, 0x20000], ready s (q 0x89 []) [0x10000], ready s (q 0x8A []) [0x10000], ready s (q 0x8B []) [0x10000],
      ready s (q 0x8D [3]) [0x10000, 0x20000], ready (pages 0x10000 13 leaf0) (q 0x8D [3]) [0x10000, 13],
      ready (pages 0x10000 14 leaf0) (q 0x8D [3]) [0x10000, 14], ready off (q 0x89 []) [0x10001], ready odd (q 0x8A []) [2 ^ 56],
      !canonical (2 ^ 56 : Word), (2 ^ 56 : Word).toNat % 65536 == 0, canonical 0x10000, canonical 0x20000,
      ready (b 0x20001) (q 0x88 [3]) [0x10000, 0x20001], ready (b (2 ^ 56)) (q 0x88 [3]) [0x10000, 2 ^ 56], ready (b 0) (q 0x8D [3]) [0x10000, 0],
      s.mem.moves.isEmpty && s.mem.atoms.isEmpty && s.net.remote.isEmpty, s.curCtx.record.poollog2 == 0, leaf 0x10000 (fun _ => true),
      leaf 0x10000 (fun e => !leafPin e && leafHome e == 0 && decide (frameCount s.mem (leafPa e) ≤ 1) && poolOf (leafHome e) (leafPa e) == 0),
      done? (pageLoop (fun va => forkPage 0 va (0x20000 + (va - 0x10000))) 0x10000 0 1 0 s), done? (pageLoop (dropOne 0) 0x10000 0 1 0 s),
      done? (pageLoop (pinOne 0) 0x10000 0 1 0 s), done? (pageLoop (movePage 0 13) 0x10000 0 1 0 (pages 0 0 (leaf0 + 512)))] = true := by decide

theorem test_meets_PageInstructions_one_page :
    let s := fun (leaf : Word) => pages 0 0 leaf
    allOf [isLeaf (s leaf0) 0x10000 leafV, isLeaf (s leaf0) 0x20000 (fun e => !leafV e), (match (s leaf0).pageSlot 0x40000000 0 with | .noPath _ _ => true | _ => false),
      (match (s leaf0).pageSlot 0x10000 1 with | .other | .entry .. => true | _ => false), (findWindow (s leaf0).cur.wins 0x10000).isNone,
      (findWindow (withMem [] id).cur.wins block).isSome, isLeaf (s (leaf0 + 32)) 0x10000 (fun e => leafHome e == 1),
      isLeaf (s (leaf0 + 64)) 0x10000 (fun e => leafHome e == 2), isLeaf (s leaf0) 0x10000 (fun e => leafHome e == 0 && !leafPin e),
      isLeaf (s (leaf0 + 512)) 0x10000 leafPin, decide (frameCount (s leaf0).mem 0x50000 ≤ 1),
      decide (1 < frameCount (((s leaf0).mem.share 0 0x50000 0).share 0 0x50000 0) 0x50000), (s leaf0).mem.moves.isEmpty,
      poolOf 0 0x50000 == 0,
      -- a page on the move, and a window in the way
      (moving (s leaf0)).pageBusy 0x10000 0, movingIn (moving (s leaf0)).mem 0 0x10000 65536, !(s leaf0).pageBusy 0x10000 0,
      windowIn (withMem [] id).cur.wins block 65536, !windowIn (s leaf0).cur.wins 0x10000 65536,
      !movingIn (s leaf0).mem 0 0x20000 65536, isLeaf (s (leaf0 + 512)) 0x10000 (fun e => leafV e && leafPin e)] = true := by decide

theorem test_meets_PageQuery :
    let q := quiet.issue .a 0x8C 1 [2] [.reg 1] 40
    let s := fun (a : Word) => pages a 0 leaf0
    let w := withMem [] (regs block 0)
    allOf [ready (s 0x10000) q [0x10000], ready (s (2 ^ 56)) q [2 ^ 56], ready (s 0x40000000) q [0x40000000], ready w q [block],
      !canonical (2 ^ 56 : Word), canonical block, (findWindow w.cur.wins block).isSome, (findWindow (s 0).cur.wins 0x10000).isNone,
      (match (s 0).walk 0 0x10000 with | .leaf .. => true | _ => false), (match (s 0).walk 0 0x40000000 with | .leaf .. => false | _ => true),
      ((s 0).mem.request? 0 0x10000).isNone, movingAt (moving (s 0)).mem 0 0x10000] = true := by decide

/-! #### Links, sequences, streams, trace -/

def holding (n : Nat) (h : LinkH) (s : State) : State := s.setCur fun t => { t with hand := t.hand.set n h }

theorem test_meets_LinkInstructions :
    let s := fun (a : Word) => (atWork a 0)
    let qp := { quiet.issue .a 0x90 1 [2] [.reg 1] 1 with async := true }
    let qa := { quiet.issue .a 0x91 1 [2] [.reg 1] 1 with async := true }
    let qw := quiet.issue .a 0x92 1 [2] [.reg 1] 1
    let none' := (s block).setCur fun t => { t with hand := List.replicate 16 ⟨true, 1, 0, 0, true⟩ }
    let held := (s block).setCur fun t => { t with ph := { t.ph with buf := [⟨0, 0, 0, 0, 0, .submit 0 0 none⟩] } }
    let late := { (holding 15 ⟨true, 1, 0, 0, true⟩ (s 15)).setEng .a (fun e => { e with since := some 0 }) with clock := 2 ^ 60 }
    allOf ([block, block + 8, 2 ^ 56].map (fun a => ready (s a) qp [a] && ready (s a) qa [a]) ++
      [(s 0).cur.hand.findIdx? (fun h => !h.held) == some 0, (s block).unrepeat.cur.ph.buf.isEmpty, !(s block).unrepeat.cur.awaiting, ready held qp [block], !held.unrepeat.cur.ph.buf.isEmpty,
       ready none' qp [block], ready none' qa [block], (none'.cur.hand.findIdx? fun h => !h.held).isNone,
       ready (holding 15 ⟨true, 1, 3, 1, false⟩ (s 15)) qw [15], ready (holding 15 ⟨true, 1, 0, 0, true⟩ (s 15)) qw [15], ready late qw [15],
       decide (late.holdPeriods ≤ late.clock), decide (0 < late.holdPeriods), ready (s 16) qw [16], ready (s 15) qw [15], !((s 0).cur.hand.getD 15 .free).held,
       ready (holding 15 ⟨true, 1, 3, 1, false⟩ (s 15)) (quiet.issue .a 0x93 1 [2] [.reg 1] 1) [15], ready (s 15) (quiet.issue .a 0x93 1 [2] [.reg 1] 40) [15],
       ready (s 16) (quiet.issue .a 0x93 1 [2] [.reg 1] 40) [16], ready (s 0) (quiet.issue .a 0x93 1 [2] [.reg 1] 1) [0]]) = true := by decide

/-- A sequence of 2 layers and 8 blocks of 16 tokens, with 30 committed. -/
def seq7 : Sequence := ⟨block, block + 64, 30, 16, 2, 0, 64, 8, [2, 3], none⟩
def sequenced (a b : Word) (o : Option Nat) (step : Option (Nat × Nat)) : State :=
  let s := atWork a b
  { s with strm := { s.strm with seqs := [(7, { seq7 with opened := o })] }, cur := { s.cur with step } }

theorem test_meets_SequenceInstructions :
    let q := fun srcs names lat => quiet.issue .a 0x98 1 srcs names lat
    let qo := q [2] [.reg 1] 40
    let qa := q [2, 3] [.reg 1] 1
    let qc := q [2] [] 1
    let qx := q [] [] 1
    let qs := quiet.issue .a 0x9C 1 [2, 3] [.reg 1] 40
    let s := fun a b => sequenced a b none none
    let o := fun a b => sequenced a b (some 0) (some (0, 7))
    let late := { (sequenced 7 15 (some 1) none).setEng .a (fun e => { e with since := some 0 }) with clock := 2 ^ 60 }
    allOf ([7, 8].map (fun a => ready (s a 15) qo [a] && ready (s a 15) qs [a, 15]) ++
      [ready (o 7 0) qo [7], ready (sequenced 7 15 (some 1) none) qo [7], ready (sequenced 7 15 (some 1) none) qs [7, 15], ready late qo [7], ready late qs [7, 15],
       ready (s 7 16) qs [7, 16], ready (o 1 95) qa [1, 95], ready (o 1 96) qa [1, 96], ready (o 2 0) qa [2, 0], ready (o 1 (2 ^ 32)) qa [1, 2 ^ 32],
       decide (30 + 3 + 95 ≤ seq7.btn * seq7.b), ready (o 2 0) qc [2], ready (o 3 0) qc [3], ready (s 0 0) qa [0, 0], ready (s 0 0) qc [0], ready (s 0 0) qx [],
       ready (o 0 0) qx [], (o 0 0).cur.step == some (0, 7), (SMap.get? (o 0 0).strm.seqs 7).isSome, (o 0 0).cur.ph.rep, (room? (o 0 0) true).isSome,
       decide (late.holdPeriods ≤ late.clock)]) = true := by decide

def stream2 : Stream :=
  ⟨block, 8, 0, 7, 1000, 0, 0, 0, 5, block, .step, 0, 0, [⟨-7, 2, 9, 0, 0, 1⟩, ⟨-6, 2, 9, 0, 0, 2⟩], [], [], none, none, 0, 0, 1, 2, 3, 4, none, none, none⟩

theorem test_meets_StreamInstructions :
    let s := fun (a b : Word) =>
      let s := sequenced a b none none
      { s with strm := { s.strm with streams := [(2, stream2)] } }
    let qt := quiet.issue .a 0x99 1 [2, 3] [.reg 1] 40
    let qk := quiet.issue .a 0x9A 1 [] [.reg 1] 1
    let ql := quiet.issue .a 0x9B 1 [2] [.reg 1] 1
    let alone := { s 5 8 with work := { (s 5 8).work with tasks := [] } }
    allOf [ready (s 5 8) qt [5, 8], ready (busy5 (s 5 8)) qt [5, 8], (busy5 (s 5 8)).rowsBusy 5 0 1, !(s 5 8).rowsBusy 5 0 1,
      ((s 5 8).task (s 5 8).cur.task).bind Task.step == some ⟨2, 50, -7, 1⟩, (s 5 8).cur.tile? 5 == some tile5, (s 5 8).stream? 0 2 == some stream2,
      (s 5 8).unrepeat.cur.ph.buf.isEmpty, !(s 5 8).unrepeat.cur.awaiting, !tile5.ro, (s 5 8).unrepeat.cur.tile? 5 == some tile5, (s 5 8).unrepeat.stream? 0 2 == some stream2,
      SMap.get? (s 5 8).unrepeat.strm.seqs (0 * 65536 + stream2.seq) == some seq7, (stream2.pend.filter fun x => decide (x.stamp ≤ -7)).length == 1,
      ready (s 5 8) qk [], ready (s 2 0) ql [2], decide (2 < (s 2 0).curCtx.nstrm), ready (s 3 0) ql [3], ready alone qt [5, 8], ready alone qk [],
      (alone.task alone.cur.task).isNone] = true := by decide

theorem test_meets_TraceInstructions :
    let s := fun (a b : Word) => atWork a b
    let q := fun opc srcs => quiet.issue .a opc 1 srcs [] 1
    let held := { s 1 255 with trc := { (s 1 255).trc with wait := [(0, 0, ⟨0, 0, 0, 0, 0, 0, false, []⟩)] } }
    let again := (s 1 255).setEng .a fun e => { e with since := some 0 }
    let qq := { quiet.issue .a 0xA2 1 [2] [.reg 1] 1 with legal := true }
    let high := (s 0 0).setCur fun t => { t with priv := true }
    let wild := (s (2 ^ 63 + 2 ^ 62) 0).setCur fun t => { t with priv := true }
    allOf ([(1, (255 : Word)), (1, 256)].map (fun e => ready (s e.1 e.2) (q 0xA0 [2, 3]) [e.1, e.2] && ready (s e.1 e.2) (q 0xA1 [2, 3]) [e.1, e.2] &&
        ready (s e.1 e.2) (q 0xA0 [2, 3, 0]) [e.1, e.2, 0]) ++
      [!((s 1 255).emitCore .a 0x6FF 1 0).emitting 0, (held.emitCore .a 0x6FF 1 0).emitting 0, ready held (q 0xA0 [2, 3]) [1, 255],
       ready again (q 0xA0 [2, 3]) [1, 255], ready (s 15 0) qq [15], ready (s 16 0) qq [16],
       ready (s 63 0) { quiet.issue .a 0xA2 1 [2] [.reg 1] 40 with legal := true } [63], ready (s 64 0) { quiet.issue .a 0xA2 1 [2] [.reg 1] 40 with legal := true } [64],
       !(s 0 0).cur.priv, ready high (quiet.issue .a 0xA8 1 [2] [.reg 1] 40) [0], (high.inspect 0 0 0).isSome,
       ready wild (quiet.issue .a 0xA8 1 [2] [.reg 1] 40) [2 ^ 63 + 2 ^ 62], (wild.inspect 0 0 (2 ^ 63 + 2 ^ 62)).isNone]) = true := by decide

/-! #### The vector file -/

def vecReady (q : VIssue) (opc : Nat) (x : Option XV) (s : State) (vs : List Word) : Bool := ready s (q.issue quiet opc x s.cur) vs
def withX (a b : Word) : State := (tiled id).setCur fun t => (t.setReg .x 2 a).setReg .x 3 b
def fmtX (fmt : BitVec 4) (flags : BitVec 8) : XV := ⟨4, 0, fmt, 0, 0, 0, flags⟩

theorem test_meets_VectorElements :
    let s := withX 0 0
    let two : VIssue := { fp := true, fmts := [1, 2, 3, 10, 11], sela := 1, selb := 1, vecs := [2, 3], names := [.vec 1] }
    let one : VIssue := { fp := true, fmts := [1, 2, 3, 10], sela := 1, vecs := [2], names := [.vec 1] }
    let x := some (fmtX 2 1)
    allOf ([0x60, 0x61, 0x62, 0x64, 0x65].map (fun opc => vecReady two opc none s []) ++
      [vecReady { two with lat := 8, sela := 2, selb := 2, vecs := [2, 3, 4] } 0x63 x s [], vecReady one 0x66 none s [], vecReady one 0x67 none s []] ++
      [0x68, 0x69, 0x6A, 0x6C, 0x6D, 0x6E].map (fun opc => vecReady { vecs := [2, 3], names := [.vec 1] } opc none s []) ++
      [0x6B, 0x71].map (fun opc => vecReady { vecs := [2], names := [.vec 1] } opc none s []) ++
      [vecReady { fp := true, fmts := convFmts, sela := selLimit 1, ok := convFmts.contains 1, vecs := [2], names := [.vec 1] } 0x74 x s []] ++
      [0x90, 0x91, 0x92, 0x93, 0x94, 0x95, 0x96, 0x97].map (fun opc =>
        vecReady { fp := true, fmts := [1, 2, 3], sela := 1, unit := .sfu, lat := 24, vecs := [2], names := [.vec 1] } opc none s []) ++
      [s.cur.sys.vfmt == 1, (SpecFn.rcp.special (exact .f32 0)).isSome, !SpecFn.exp2.fast .f32 0x7F000000]) = true := by decide

theorem test_meets_VectorLines :
    let s := withX 63 63
    let arith := [1, 2, 3, 10, 11]
    let line : VIssue := { fmts := arith, sela := 1, vecs := [2], names := [.vec 1] }
    let x := some (fmtX 8 0)
    allOf [vecReady { fmts := arith, sela := 1, selb := 1, vecs := [2, 3], names := [.pred 1] } 0x6F none s [],
      vecReady { vecs := [2, 3], names := [.vec 1] } 0x70 none s [], vecReady { srcs := [(2, false)], names := [.vec 1] } 0x72 none s [63],
      vecReady { srcs := [(2, false)], names := [.vec 1] } 0x73 none s [63], vecReady { lat := 10, vecs := [2], names := [.vec 1] } 0x8A none s [],
      vecReady { fmts := convFmts, sela := selLimit 8, ok := decide ((0 : Nat) < selLimit 8), vecs := [2, 4], names := [.vec 1] } 0x75 x s [],
      vecReady { fmts := convFmts, sela := selLimit 8, ok := true, vecs := [2], names := [.vec 1] } 0x76 x s [],
      vecReady { fmts := quantFmts, lat := 10, vecs := [2], names := [.vec 1, .vec 2] } 0x77 x s [],
      vecReady { fmts := quantFmts, sela := selLimit 8, selb := 4, lat := 10, vecs := [2, 3], names := [.vec 1] } 0x78 x s [],
      vecReady { lat := 6, srcs := [(3, false)], vecs := [2], names := [.vec 1] } 0x80 none s [63],
      vecReady { lat := 8, srcs := [(3, false)], vecs := [2], names := [.vec 1] } 0x81 none s [63],
      vecReady { lat := 6, srcs := [(3, false)], vecs := [2], names := [.vec 1] } 0x82 none s [63],
      vecReady { lat := 6, srcs := [(3, false)], vecs := [2], names := [.vec 1] } 0x82 none (withX 0 64) [64],
      vecReady { lat := 8, srcs := [(3, false)], vecs := [2], names := [.vec 1] } 0x83 none (withX 0 15) [15],
      vecReady { lat := 8, srcs := [(3, false)], vecs := [2], names := [.vec 1] } 0x83 none (withX 0 16) [16],
      vecReady { line with lat := 10 } 0x84 none s [], vecReady { line with lat := 8 } 0x85 none s [], vecReady { line with lat := 12 } 0x88 none s [],
      vecReady { line with lat := 9 } 0x89 none s [], vecReady { line with lat := 10, fmts := anyFmts } 0x84 (some (fmtX 1 3)) s [],
      vecReady { line with lat := 10, names := [.vec 1, .vec 2] } 0x86 none s [],
      vecReady { line with lat := 8, names := [.vec 1, .vec 2] } 0x87 none s []] = true := by decide

/-- A VLD inside the tile, at its edge, misaligned; a gather of one lane. -/
theorem test_meets_VectorAccessesAndPredicates :
    let load : VIssue := { srcs := [(2, false), (3, false)], names := [.vec 1], lat := 12 }
    let put : VIssue := { srcs := [(2, false), (3, false)], vecs := [1], fmts := tileFmts, lat := 1 }
    let one := fun (a : Word) => (withMem [1, 2, 3, 4] fun t => { t with x := { t.x with p := upd t.x.p 1 fun _ => 1 } }).setCur fun t => t.setReg .x 2 a
    let x : Option XV := some { fmtX 0 8 with pred := 1 }
    let typed := fun (fmt : BitVec 4) => some { fmtX fmt 0 with pred := 1 }
    let lane := (withX 5 3).setCur fun t => { t with x := { t.x with p := upd t.x.p 1 fun _ => 1 } }
    allOf [vecReady load 0xA0 none (withX 5 0) [5, 0], vecReady load 0xA0 none (withX 7 0) [7, 0], (withX 7 0).cur.tile? 5 == some tile5,
      ((withX 7 0).cur.tile? 7).isNone, !(withX 5 0).rowsBusy 5 0 16, vecReady put 0xA1 (typed 0) lane [5, 3], vecReady put 0xA1 (typed 1) lane [5, 3],
      vecReady put 0xA1 (typed 2) lane [5, 3], (tile5.retag 1 false 0 false).isSome, (tile5.retag 2 false 0 false).isNone, tile5.ro == false,
      enabled (lane.cur.governs { fmtX 0 0 with pred := 1 }) == [0], decide (3 + 0 < tile5.rows), decide (0 + 4 ≤ tile5.rb),
      vecReady put 0xA1 (typed 0) (withX 5 4) [5, 4], vecReady { srcs := [(2, false)], vecs := [3], names := [.vec 1], lat := 40 } 0xA2 x (one block) [block],
      vecReady { srcs := [(2, false)], vecs := [1, 3], lat := 1 } 0xA3 x (one block) [block],
      done? (readPieces [(block, 4)] true (one block)), done? (storeAll [⟨block, leBytes 4 0, none⟩] 0 (one block)), !(one block).cur.x.timed,
      -- a page that is mapped already
      (match (one block).ownXlate block .read with | .ok y t => y.home != 2 && t == one block | _ => false),
      (match (one block).ownXlate block .write with | .ok _ t => t == one block | _ => false), (one block).cur.ph.rep,
      decide ((one block).cur.ph.buf.length + 1 ≤ Config.bufEntries),
      okAnd (rowsSound tile5 [0, 1, 2, 3] 0 256 (withX 5 0)) (fun _ _ => true), (withX 5 0).mem.poison.isEmpty] = true := by decide

theorem test_meets_VectorAccessesAndPredicates_predicates :
    let p := fun opc lat unit srcs vecs names => predIssue quiet opc 1 lat unit srcs vecs names
    let s := withX 1023 16
    allOf ([0xB0, 0xB1, 0xB2, 0xB3].map (fun opc => ready s (p opc 2 .alu [] [] [.pred 2, .pred 3, .pred 1]) []) ++
      [0xB4, 0xB5].map (fun opc => ready s (p opc 4 .alu [] [] [.pred 2, .reg 1]) []) ++
      [ready s (p 0xB6 2 .alu [(2, false), (3, false)] [] [.pred 1]) [1023, 16], ready s (p 0xB7 6 .dp [] [2, 3] [.pred 1]) [],
       ready (withX 0 1023) (p 0xB8 6 .dp [(3, false)] [2] [.reg 1]) [1023], ready (withX 0 1024) (p 0xB8 6 .dp [(3, false)] [2] [.reg 1]) [1024],
       ready (withX 0 1023) (p 0xB9 6 .dp [(2, false), (3, false)] [] [.vec 1]) [0, 1023],
       ready (withX 0 1024) (p 0xB9 6 .dp [(2, false), (3, false)] [] [.vec 1]) [0, 1024],
       ready (withX 127 0) (p 0xBA 1 .alu [(2, false)] [] []) [127], ready (withX 128 0) (p 0xBA 1 .alu [(2, false)] [] []) [128],
       ready s (predIssue quiet 0xBA 2 1 .alu [] [] []) []]) = true := by decide

/-! #### Slots, accumulator tiles, nests -/

/-- A strand with 4 operand slots, 2 of them claimed, and 2 accumulator tiles. -/
def array (a b : Word) : State :=
  let s := (tiled id).setCur fun t => { (t.setReg .m 2 a).setReg .m 3 b with nslots := 4, acc := [.zero false, .zero true] }
  (s.claim 0 2)

theorem test_meets_SlotsAndAccumulators :
    let qc := quiet.issue .m 0x60 1 [2] [.reg 1] 2
    let qr := quiet.issue .m 0x61 1 [2, 3] [] 1
    let qq := quiet.issue .m 0x62 1 [2] [.reg 1] 1
    let none' := { array 2 0 with work := { (array 2 0).work with cores := [(0, List.replicate 64 { (array 2 0).slot 0 2 with st := .full, holder := some 9 })] } }
    let filling := (array 0 2).setSlot 0 1 fun k => { k with st := .filling }
    let waiting := (array 2 0).setCur fun t => { t with text := [word 2 0 0 0x60 (1#5 ++ 2#5 ++ 0#7), 0x01FE3000], eng := t.eng.map fun e => { e with moving := none } }
    allOf ([0, 2, 3, 64, 65].map (fun a => ready (array a 0) qc [a] && ready (array a 0) qq [a]) ++
      [(array 2 0).heldSlots.length == 2, (array 2 0).cur.nslots == 4, freeRun ((array 2 0).slots 0) 2 == some 2, ready none' qc [2], (freeRun (none'.slots 0) 2).isNone,
       none'.heldSlots.length == 0, ready (array 0 2) qr [0, 2], ready (array 1 2) qr [1, 2], ready (array 60 5) qr [60, 5], ready filling qr [0, 2],
       (filling.slot 0 1).st == .filling && (filling.slot 0 1).heldBy 0, (waiting.strand? 0).isSome, waiting.cur.st == .running,
       (waiting.cur.engine .m).moving.isNone, (match decode (waiting.cur.text.getD 0 0) none with | .ok (.slclaim _ _) => true | _ => false)]) = true := by decide

theorem test_meets_SlotsAndAccumulators_accumulators :
    let holding := (array 0 0).setCur fun t => { t with nest := some ⟨.default, 0, 0, [], 0, false, false⟩ }
    let x : Option MC := some ⟨1, true, false⟩
    allOf [ready (array 5 0) (quiet.issue .m 0x63 1 (accSrcs 2 none) [] 8) [5], (array 5 0).cur.acc[(5 : Nat)]? == none,
      ready (array 5 0) (quiet.issue .m 0x64 2 (accSrcs 0 x ++ [2, 3]) [] 40) [5, 0], (array 5 0).accldNear (f3 0 2 3) x == false,
      (array 5 0).mem.poison.isEmpty && (array 5 0).mem.soft.isEmpty, tagFmt tile5.tag == 1, tagFmt ({ tile5 with tag := 2 } : Tile).tag == 2, !(array 5 0).rowsBusy 5 0 64,
      ready (array 1 0) (quiet.issue .m 0x6D 1 (accSrcs 2 none) (tab 4 fun q => .vec (4 + q)) 36) [1],
      ready (array 1 63) (quiet.issue .m 0x6E 1 (accSrcs 2 none ++ [3]) [.reg 1] 2) [1, 63], ready (array 1 64) (quiet.issue .m 0x6E 1 (accSrcs 2 none ++ [3]) [.reg 1] 2) [1, 64],
      ready (array 0 63) (quiet.issue .m 0x6F 1 (accSrcs 0 x ++ [2, 3]) [] 2) [0, 0, 63] == false, ready (array 0 63) (quiet.issue .m 0x6F 2 (accSrcs 0 x ++ [2, 3]) [] 2) [0, 63],
      ready (array 0 64) (quiet.issue .m 0x6F 2 (accSrcs 0 x ++ [2, 3]) [] 2) [0, 64], ready holding (quiet.issue .m 0x63 1 (accSrcs 2 none) [] 8) [0],
      NestCfg.default.holds 0, (array 0 0).cur.nests.isEmpty, (array 1 0).cur.acc[(1 : Nat)]?.isSome] = true := by decide

/-- A nest of one step on slots 0 and 1, which hold elements of a tag. -/
def nested (tag : W16) (st : SlotSt) (f : Nest → Nest) : State :=
  let s := (array 0 0).setCur fun t => { t with nest := some (f ⟨{ NestCfg.default with b0 := 1 }, 0, 0, [], 0, false, false⟩) }
  (s.setSlot 0 0 fun k => { k with st, tag }).setSlot 0 1 fun k => { k with st, tag }

def steps (s : State) (p : Option Nat → Bool) : Bool :=
  match s.cur.nest with
  | some n => okAnd (stepAct n s.slotsRead) fun r _ => p r
  | none => false

theorem test_meets_Nests :
    let s := fun (a : Word) => array a 0
    let q := fun opc srcs => quiet.issue .m opc 1 srcs [] 1
    let epi := (withMem (leBytes 8 0x100) id).setCur fun t => t.setReg .m 2 block
    let go := { quiet.issue .m 0x6B 1 [] [] 1 with async := true }
    let sh := fun (c : NestCfg) => (s 0).setCur fun t => { t with shadow := { c with b0 := 1 } }
    let busy := (nested 4 .full id).setCur fun t => { t with pend := t.nest }
    allOf [ready (s (2 ^ 32 - 1)) (quiet.issue .m 0x65 2 [2] [] 1) [2 ^ 32 - 1], ready (s (2 ^ 32)) (quiet.issue .m 0x65 2 [2] [] 1) [2 ^ 32],
      ready (s 0) (quiet.issue .m 0x66 2 [] [] 1) [], ready (s 0) (q 0x68 []) [], ready (s 0) (q 0x69 []) [], ready (s (2 ^ 32 - 1)) (q 0x6A [2]) [2 ^ 32 - 1],
      ready (s (2 ^ 32)) (q 0x6A [2]) [2 ^ 32], ready epi (quiet.issue .m 0x67 1 (memSrcs 2 3 none) [] 40) [block, 0], reads? epi block 64, block.toNat % 64 == 0,
      okAnd (loadBytes block 64 false epi) (fun b _ => (Epi.ofBytes b).ok),
      okAnd (loadBytes block 64 false (withMem [0xFF] id)) (fun b _ => !(Epi.ofBytes b).ok), ready (s 8) (quiet.issue .m 0x67 1 (memSrcs 2 3 none) [] 40) [8, 0],
      ready (s 0) (quiet.issue .m 0x67 1 [] [] 1) [], ready (sh .default) go [], ready busy go [], busy.cur.pend.isSome,
      ({ NestCfg.default with lv := [⟨0, 0, 0, 0, false⟩] } : NestCfg).total == 0, ready (nested 4 .full id) go [],
      okAnd (ngoSlots (sh .default).cur.shadow (sh .default)) (fun _ u => done? (ngoDest (sh .default).cur.shadow u)),
      (sh .default).cur.shadow.slotsNamed.all (fun i => ((sh .default).slot 0 i).heldBy 0), Epi.default.kind != 2 && Epi.default.kind != 3,
      (let c := (sh .default).cur.shadow
       inRange (indexRange c.a0 NestLevel.sa c.lv) 64 && inRange (indexRange c.b0 NestLevel.sb c.lv) 64 &&
         inRange (indexRange c.c0 NestLevel.sc c.lv) (sh .default).cur.acc.length && c.mode == 0), NestCfg.default.total == 1,
      (nested 4 .full id).cur.nest.isSome, ready (s 0) (quiet.issue .m 0x6C 1 [] [] 1) [], ready (nested 4 .full id) (quiet.issue .m 0x6C 1 [] [] 1) [],
      ready (s 0) (quiet.issue .m 0x70 1 [] [.reg 1] 1) []] = true := by decide

theorem test_meets_Nests_steps :
    let full := nested 4 .full id
    let ended := nested 4 .full fun n => { n with done := 1 }
    let free := (nested 4 .full id).setSlot 0 1 fun k => { k with holder := none }
    let long : NestCfg := { NestCfg.default with b0 := 1, lv := upd NestCfg.default.lv 0 fun l => { l with count := 2, k := true } }
    let late := nested 4 .filling fun n => { n with since := [(0, 0), (1, 0)] }
    allOf ([full, ended, free, late].map (fun s => (s.strand? 0).isSome && s.cur.ph.st != .cancelled && s.cur.st != .saved && !s.throttled 0 s.curCore) ++
      [steps full Option.isNone, steps (nested 0 .full id) Option.isSome, NestCfg.default.total == 1,
       ({ NestCfg.default with b0 := 1 } : NestCfg).stepSlots (NestCfg.stepAt { NestCfg.default with b0 := 1 } 0) == [0, 1],
       [0, 1].all (fun i => (full.slotsRead.slot 0 i).heldBy 0 && (full.slotsRead.slot 0 i).st == .full), !(free.slot 0 1).heldBy 0,
       -- a step that is not the last of its tile
       !(long.stepAt 0).last, long.mode == 0, full.mem.poison.isEmpty, ((full.slotsRead.slot 0 0).descsOk && (full.slotsRead.slot 0 1).descsOk),
       (match plainStep long (long.stepAt 0) (full.slotsRead.slot 0 0) (full.slotsRead.slot 0 1) (.zero false) with
        | .ok k => !k.unrep
        | _ => false),
       (late.slot 0 1).st != .full, late.cur.sys.stl != 0, decide (late.cur.sys.stl.toNat < { late with clock := 2 ^ 60 }.clock - 0),
       SMap.get? (late.cur.nest.map Nest.since |>.getD []) 1 == some 0, decide ((0 : Nat) ≤ full.clock)]) = true := by decide

/-! #### The host, contexts, the plant -/

/-- A running context 0 of function 0 whose page at VA 0x10000 is mapped, with queue 5 and stream 2. -/
def hosted (f : Queue → Queue) : State :=
  let s := (pages 0 0 leaf0).setCtx 0 fun c => { c with st := .running, res := true, record :=
    { c.record with tqlog2 := 4, hqlog2 := 4, poollog2 := 4, period := 100, coreus := 1, hold := 1000, ncnt := 4, cntbase := 0x10000 } }
  { s with
    work := { s.work with queues := [(5, f { queue5 with ring := 0x10000, cring := 0x11000, evt := 0 })], tasks := [(0, task0)], qevset := [(0, 5)] }
    strm := { s.strm with streams := [(2, { stream2 with ring := 0x10000 })] } }

/-- A unit's access to a page in place, and a hub agent's read that finds n bytes there. -/
def inPlace? (s : State) (ctx : Nat) (va : Word) (acc : Access) (item : Post) : Bool :=
  canonical va && (match s.translate ctx [] none va acc with | .ok x t => t == s && x.home != 2 | _ => false) &&
    s.mem.waits.all fun w => w.item != item
def finds? (s : State) (ctx : Nat) (va : Word) (n : Nat) (item : Post) : Bool :=
  (pagePieces va n).all fun p => inPlace? s ctx p.1 .read item

def answered (s : State) (ctx : Nat) : Bool := (s.requestPage ctx 0x30000 1 0 none).2.mem.reqs.any fun p => p.rqid == (s.requestPage ctx 0x30000 1 0 none).1 && p.ctx == ctx

theorem test_meets_HostRegisterWrites :
    let s := hosted id
    let dormant := hosted fun q => { q with st := .stale }
    let sink := { s with trc := { s.trc with sinks := s.trc.sinks.set 3 { Sink.zero with base := 4096 } } }
    let inspects := fun (a : Word) => { s with ctl := { s.ctl with inspa := a } }
    let go : Word := 2 ^ 63
    allOf [s.queue? (queueKey 0 5) == SMap.get? s.work.queues 5, (s.queue? (queueKey 0 6)).isNone, decide ((17 - queue5.head).toNat ≤ queue5.n ∧ ((17 : BitVec 32) - queue5.tail).toNat ≤ queue5.n), queue5.kicked.isNone,
      decide (queue5.n < ((2 : BitVec 32) - queue5.tail).toNat),
      decide (queue5.n < ((18 : BitVec 32) - queue5.head).toNat), queue5.st == .ready, ((dormant.queue? (queueKey 0 5)).map Queue.st) == some .stale,
      s.queue? (queueKey 0 (SMap.getD s.work.qevset 0 0)) == s.queue? 5, (s.stream? 0 2).isSome, s.owns 0 0, decide (((256 : BitVec 32) - 0).toNat ≤ 2 ^ 8),
      decide (2 ^ 8 < ((257 : BitVec 32) - 0).toNat), answered s 0, !s.alien 0 0, !s.alien 0 7,
      (hosted fun q => { q with parked := [(3, [])] }).queue? 5 != none, Queue.hasParked { queue5 with parked := [(3, [])] }, (s.fnRegs 0).tlbb.getLsbD 63 == false, go.getLsbD 63,
      decide ((((s.ctxOf 0).tprod - (0xFFFFFFF0 : BitVec 32)).toNat) ≤ 16), decide (16 < (((s.ctxOf 0).tprod - (0xFFFFFFEF : BitVec 32)).toNat)),
      (s.ctxOf 0).record.poollog2 != 0, s.poolAddOk 0 0 0 0x50000, (SMap.getD s.mem.pools (poolKey 0 0) []).isEmpty,
      getBits (inspects (2 ^ 63)).ctl.inspa 60 4 == 8, getBits (inspects (2 ^ 63 + 31)).ctl.inspa 0 52 == 31, getBits (inspects (2 ^ 62)).ctl.inspa 60 4 == 4,
      getBits (inspects (2 ^ 63 + 2 ^ 60)).ctl.inspa 60 4 == 9, (sink.trc.sinks[(3 : Nat)]?.map Sink.enabled) == some false,
      decide (12 ≤ (go + 12).toNat % 32 ∧ (go + 28).toNat % 32 ≤ 28)] = true := by decide

def recordBytes : List Byte :=
  List.replicate 56 0 ++ [4, 4, 1, 0, 1, 0] ++ List.replicate 10 0 ++ [1, 0] ++ List.replicate 42 0 ++ leBytes 4 100 ++ List.replicate 136 0

/-- A context with its record at 0x7000. -/
def ctxIn (st : CtxSt) (f : Context → Context) : State :=
  let s := (hosted id).setCtx 0 fun c => f { c with st, recVa := 0x7000 }
  { s with mem := s.mem.put 0 0x7000 recordBytes }

theorem test_meets_ContextCommandsAndSteps :
    let loading := ctxIn .loading id
    let load : Post := ⟨.contextLoadChecks, 0, 0⟩
    let r := (loading.readRecord 0x7000).getD .zero
    let w := loading.putRecord 0 r
    -- a peer table of one entry, this chip
    let one := { w with mem := w.mem.put 0 0x50000 [0, 0, 0, 0, 0, 0, 1, 0] }
    let paged' := one.setCtx 0 fun c => { c with record := { c.record with p := 1, ptroot := 0x8000, pgtva := 0x10000, strmva := 0 } }
    let far := (ctxIn .loading id).setCtx 0 fun c => { c with bars := [(3, ⟨true, 0, 1, 1, 0, 0⟩)], loaded := true }
    let far := { far with work := { far.work with bars := [(3, ⟨true, 1, 1, 1, 0, 0⟩)] } }
    let alone := { ctxIn .preempting id with cur := .empty }
    let swap := { ctxIn .ready (fun c => { c with swap := some (0, 0) }) with work := { (hosted id).work with tasks := [] } }
    allOf ([CtxSt.free, .loading, .ready, .running, .preempting, .saved, .draining, .tornDown].map (fun st => (ctxIn st id).ctxOf 0 != .free && ((ctxIn st id).ctxOf 0).fn == 0 &&
        ((ctxIn st id).ctxOf 0).st == st) ++
      [((hosted id).ctxOf 0).swap.isNone, ((hosted id).queue? (queueKey 0 5)).isSome, queue5.ctx == 0,
       (loading.readRecord 0x7000).isSome, (loading.readRecord 0x7100).isNone, w.fits 0, !(far.putRecord 0 r).fits 0, (loading.ctxOf 0).peers.isEmpty,
       (match readTables 0 load w with | .ok (.error e) _ => e == 2 | _ => false),
       (match readTables 0 load paged' with
        | .ok (.ok ()) t => (t.newArenas 0).fits 0 && (match fillNear 0 load (t.newArenas 0) with | .ok () _ => true | _ => false)
        | _ => false),
       (ctxIn .saved fun c => { c with pending := true }).fits 0, (ctxIn .draining fun c => { c with pending := true, res := false }).fits 0,
       !far.fits 0, alone.strands.isEmpty, (ctxIn .preempting id).strands.any (fun e => e.2.sys.ctx.toNat == 0), (swap.ctxOf 0).swap.isSome,
       swap.work.tasks.isEmpty, (match fillNear 0 load (swap.setCtx 0 fun c => { c with record := { r with nttva := 2 ^ 56, nnt := 1 } }) with | .drop _ => true | _ => false),
       ((hosted id).ctxOf 0).counts, ((hosted id).ctxOf 0).spent.isNone, decide ((1 : Nat) * 1000 * Config.periodsPerNs ≤ 10 ^ 7), (hosted id).work.groups.isEmpty]) = true := by decide

theorem test_meets_PlantAndFirmware :
    let s := hosted id
    let booted := { s with ctl := { s.ctl with fw := { s.ctl.fw with booted := true } } }
    let updating := { s with ctl := { s.ctl with fw := { s.ctl.fw with update := some ⟨1, 0, 0, 0⟩ } } }
    allOf [s.plant.dies[(3 : Nat)]?.isSome, decide (45 < 46 ∧ 199 < 200 ∧ 42 < 43), booted.ctl.fw.booted, decide (s.ctl.fw.minVer ≤ 0),
      (0 : Nat) == (s.ctl.fw.images.getD s.ctl.fw.slot ⟨0, 0, 0, 0⟩).handover, updating.ctl.fw.update.isSome] = true := by decide

/-! #### Unit steps -/

/-- The front strand in a state of its own. -/
def unit (f : Strand → Strand) : State := (hosted id).setCur f

def halt (g : Eng) (w : W32) (f : Engine → Engine) (t : Strand) : Strand :=
  ({ t with text := [w, 0x01FE3000] }).setEngine g fun e => f { e with moving := none }

def waits (opc : BitVec 8) (b : BitVec 5) : State :=
  unit (halt .a (word 0 0 0 opc (0#5 ++ 2#5 ++ b ++ 0#2)) fun e => { e with since := some 0 })

def nextIs (s : State) (p : Instr → Bool) : Bool := match s.nextInstr .a with | some i => p i | none => false

theorem test_meets_StrandUnitSteps :
    let held : Held := ⟨.a, none, 0x30000, false, 1, 0, 0, 1, 0, 0, 0⟩
    let cancelled := fun (h : List Held) (rs : List PageReq) =>
      let s := unit fun t => { t with ph := { t.ph with st := .cancelled, held := h } }
      { s with mem := { s.mem with reqs := rs } }
    let spoiled := cancelled [held] []
    let spoiled := { spoiled with mem := { spoiled.mem with poison := [(16 + Store.checkpoint.code, spoiled.ckptSpot, 64)] } }
    let busy := underWay (.split 0 []) [] false (hosted id)
    let ending := fun (s : State) => s.setCur fun t => { t with st := .ending }
    let submit := fun (t : Strand) => { t with ph := { t.ph with rep := false, st := .committing, buf := [⟨0, 0, 0, 0, 0, .submit 0 0 none⟩] } }
    let group : Group := ⟨0, 0, 0, .active, [5], none, [⟨0, [], 0, 1, none⟩]⟩
    let placing := { hosted id with work := { (hosted id).work with groups := [group] } }
    let leaving := (unit fun t => { t with preempt := true }).setCtx 0 fun c => { c with record := { c.record with saven := 1 } }
    let waitsOn := fun opc b (v : Word) => (waits opc b).setCur fun t => t.setReg .a b v
    let qc := quiet.issue .a 0x85 1 [2, 3] [] 1
    let qb := quiet.issue .a 0x82 1 [2, 3] [] 1
    let qx := quiet.issue .a 0x92 1 [2] [.reg 0] 1
    let qo := quiet.issue .a 0x98 1 [2] [.reg 0] 40
    let joined := (((waitsOn 0x82 3 7).setBar 255 ⟨true, 0, 2, 2, 1, 7⟩).setCur fun t => { t.setReg .a 2 255 with joins := [⟨255, none, 0⟩] })
    let handed := holding 0 ⟨true, 1, 0, 0, true⟩ (waits 0x92 0)
    let opened := (waits 0x98 0).setCur fun t => t.setReg .a 2 7
    let opened := { opened with strm := { opened.strm with seqs := [(7, { seq7 with opened := some 1 })] } }
    let waitt := (hosted id).setEng .a fun e => { e with wait := some ⟨0, false, false⟩ }
    let due := { leaving.setCtx 0 (fun c => { c with spent := some 0 }) with clock := 10 ^ 9 }
    allOf [((hosted id).strand? 0).isSome, (hosted id).swapTo 0 == hosted id, (placing.group? 0 0 0) == some group, placing.work.groups.length == 1, group.die == 0, !group.pend.isEmpty,
      (hosted id).cur.kept.isEmpty && (hosted id).cur.ph.rep && (hosted id).cur.ph.st == .opened && (hosted id).cur.nest.isNone, (hosted id).curCtx.spent.isNone,
      (unit fun t => { t with fresh := true }).cur.fresh, !(ending (hosted id)).cur.awaiting, (unit id).cur.sys.stl != 0, placing.openSlot 5 false == some 10,
      ((placing.ctxOf 0).places), (unit fun t => { t with st := .staged }).coreTaken 0 0 == false, !(hosted id).coreLeaves 0,
      (ending (hosted id)).cur.workDone, !(ending busy).cur.workDone, (ending (hosted id)).startCommit.cur.ph.buf.isEmpty,
      (ending (hosted id)).startCommit.nothingOut, !(ending (unit submit)).cur.ph.buf.isEmpty, (unit submit).cur.ph.st == .committing,
      (unit fun t => { t with st := .ended }).nothingOut, (cancelled [held] [⟨1, 0, 0x30000, 1, 0, 0, none⟩]).mem.reqs.any (fun q => q.rqid == held.rqid),
      (cancelled [{ held with ans := 4 }] []).cur.ph.held.any (fun p => p.ans != 0), (cancelled [held] []).mem.reqs.isEmpty,
      !((cancelled [held] []).refetch [0x30000]).1, ((cancelled [] []).refetch []).1, !(cancelled [held] []).checkpointBad,
      spoiled.checkpointBad, spoiled.cur.ph.st == .cancelled, !(cancelled [held] []).cancelPhase.cur.preempt,
      (unit unrepeatable).cur.ph.rep == false, (unit unrepeatable).checkHolds.cur.ph.held.isEmpty,
      (unit fun t => { t with dead := 1048577 }).cur.sys.stl.toNat == 1048576, nextIs (waits 0x15 0) (fun i => match i with | .waitt .. => true | _ => false),
      nextIs (waits 0x82 3) (fun i => match i with | .bwait .. => true | _ => false),
      !(waits 0x82 3).waitedOut .a, { waits 0x82 3 with clock := 10 ^ 9 }.waitedOut .a,
      -- waits that are taken up again
      ready (waits 0x85 3) qc [0, 0], ready (waitsOn 0x85 3 1) qc [0, 1], nextIs (waits 0x85 3) (fun i => match i with | .ccwait .. => true | _ => false),
      inPlace? (waits 0x85 3) 0 0x10000 .read ⟨.taskRetire, 0, 0⟩, (waits 0x85 3).cur.sys.ctx == 0, ((waits 0x85 3).cur.engine .a).since.isSome,
      !((waits 0x85 3).cur.engine .a).arrived, !(waits 0x85 3).mem.poisoned 0 0x50000 8, ready joined qb [255, 7], (joined.bar 255).isSome,
      (joined.cur.joins.find? (fun i => i.b == 255)).isSome, ready handed qx [0], (handed.cur.hand.getD 0 .free).held && (handed.cur.hand.getD 0 .free).status == 0,
      nextIs handed (fun i => match i with | .xcwait .. => true | _ => false), ready opened qo [7],
      (match SMap.get? opened.strm.seqs 7 with | some y => y.opened == some 1 | none => false), opened.cur.step.isNone,
      nextIs opened (fun i => match i with | .stbindOpen .. => true | _ => false), nextIs (waits 0x9C 3) (fun i => match i with | .stsink .. => true | _ => false),
      (waitt.cur.engine .a).wait == some ⟨0, false, false⟩, decide (waitt.ns < 1),
      leaving.frameFree, !leaving.stopDue, due.stopDue, (unit fun t => { t with st := .saved }).settled,
      !(busy.setCur fun t => { t with st := .saved }).settled] = true := by decide

theorem test_meets_MemoryUnitSteps :
    let s := hosted id
    let xl := fun (va : Word) (p : XRes → Bool) => p (s.translate 0 [] (some 0) va .read)
    let remote : Remote := ⟨0, 0, 0, 9, 0, 0, 1, 0, 0, 0, 0, 0, [], 0, 0, true, none, 0, 0, none, none, 0, 0, none⟩
    let linked := fun (st : PortSt) (ps : List Peer) (r : Remote) =>
      let u := s.setCtx 0 fun c => { c with peers := ps }
      ({ u with net := { u.net with ports := u.net.ports.set 0 { Port.down with st, lanes := 8 }, remote := [r] } } : State)
    let peer : Peer := ⟨7, 1, 0, 1⟩
    let atom : AtomReq := ⟨3, 0, 0, 0, 0, 0, some 0, 0, 0, 0, 8, 0, 0x1000, 5, 0, false, none⟩
    let posted := { atom with post := true }
    let linkAtom := { atom with key := 2 ^ 20 + 15 }
    let move : Move := ⟨0, 0, 0x10000, 65536, 0, 0, 0x60000⟩
    allOf [xl 0x10000 (fun r => match r with | .ok .. => true | _ => false), xl 0x20000 (fun r => match r with | .fault f => f.code == 1 | _ => false),
      ((s.translate 0 [⟨0x40000000, 0, 16, 1⟩] none 0x40000000 .write) matches .fault _), (linked .up [peer] remote).net.remote.length == 1,
      decide ((linked .up [peer] { remote with due := 5 }).ns < 5), !(linked .up [peer] remote).notifyWaits remote, ((linked .up [] remote).peer 0 1).isNone,
      (linked .up [peer] remote).peer 0 1 == some peer, (linked .up [peer] remote).reaches peer.reach, !(linked .down [peer] remote).reaches peer.reach,
      (linked .up [peer] remote).pickPort remote peer.reach == some 0, nextAtom 3 0 [atom] == some atom, (nextAtom 4 0 [atom]).isNone,
      nextAtom 3 0 [posted] == some posted, decide (posted.key < 2 ^ 43), decide (2 ^ 43 ≤ agentKey 5), nextAtom 3 0 [linkAtom] == some linkAtom,
      decide (2 ^ 20 ≤ linkAtom.key ∧ linkAtom.key < 2 ^ 20 + 16), !s.moveWaits move, { s with mem := { s.mem with atoms := [{ atom with pa := 0x50000 }] } }.moveWaits move,
      !s.earlierAccess 0 0, { s with mem := { s.mem with atoms := [atom] } }.earlierAccess 0 0,
      ([move].filter fun m => m.key == 0) == [move], ((2 : Word) ^ 63).getLsbD 63] = true := by decide

theorem test_meets_QueueUnitSteps :
    let asks := fun (f : Queue → Queue) => let s := hosted f; { s with work := { s.work with asks := [5] } }
    let s := asks fun q => { q with st := .dormant }
    let head := hosted fun q => { q with st := .parse, slot := some 0 }
    let read := (agentBytes 0 0x10000 128 ⟨.queueParse, 5, 0⟩ : Ag (List Byte)) head
    let choosing := fun (s : State) => choosePick 0 0 queue5.record ⟨.queueDispatch, 0, 5⟩ s
    let known := { head with work := { head.work with cache := [⟨0, 0, 0, [0, 0, 0], [false, false, false], ⟨none, [], 0, 0⟩⟩] } }
    let rootless := head.setCtx 0 fun c => { c with record := { c.record with mtroot := 2 ^ 56 } }
    let retire : Post := ⟨.taskRetire, 0, 0⟩
    let signals := { task0 with record := List.replicate 16 0 ++ [1] ++ List.replicate 111 0 }
    let adds := { task0 with done := 1, record := List.replicate 26 0 ++ [1] ++ List.replicate 101 0 }
    let fence : List Byte := [0xFF, 0xFF, 0, 0, 0, 1] ++ List.replicate 122 0
    let pushing := fun (k : BufKind) (n : BitVec 32) => (hosted fun q => { q with tail := n, head := 0 }).setCur fun t =>
      { t with ph := { t.ph with rep := false, buf := [⟨0, 0, 0, 0, 0, k⟩] } }
    let fenced := hosted fun q => { q with record := fence, slot := some 0 }
    allOf [s.work.asks == [5], (s.freeQueueSlot 0).isSome, ((s.ctxOf 0).res), (head.queue? 5).map Queue.st == some .parse, (head.ctxOf 0).parses,
      (match read with | .ok b _ => field b 2 1 % 2 == 0 && b.length == 128 | _ => false),
      finds? head 0 0x10000 128 ⟨.queueParse, 5, 0⟩, (match (agentBytes 0 (2 ^ 56) 128 ⟨.queueParse, 5, 0⟩ : Ag (List Byte)) head with | .drop _ => true | _ => false),
      (match choosing known with | .ok .. => true | _ => false), (match choosing rootless with | .drop _ => true | _ => false), queue5.pick.isSome,
      ((hosted id).offer? { queue5 with slot := some 0 }).isSome, (hosted id).eligible queue5,
      finds? fenced 0 (counterVa (fenced.ctxOf 0) 0) 8 ⟨.fencePacketTest, 5, 0⟩, !(hosted id).emitting (2 ^ 20 + agentUnit 0),
      inPlace? (pushing (.submit 5 0x10000 none) 3) 0 0x10000 .read ⟨.qsubmitPush, 0, 0⟩, inPlace? (pushing (.submit 5 0x10000 none) 3) 0 0x10180 .write ⟨.qsubmitPush, 0, 0⟩,
      inPlace? (((hosted fun q => { q with evt := 1 }).setTask { signals with done := 1 }).setTask { signals with done := 2 }) 0 0x11000 .write retire,
      Task.signal signals == (1 : Word), Task.ccva signals == (0 : Word), field signals.record 2 2 == 0, Task.ccva adds == (0x10000 : Word),
      (match (hosted id).agentAdd (taskKey 0) 0 adds.ccva 0 5 retire with | .ok .. => true | _ => false),
      (match (hosted id).agentAdd (taskKey 0) 0 adds.ccva 0 5 retire with | .ok _ t => t.mem.atoms.any (fun r => r.owner == taskKey 0 && r.old.isNone) | _ => false), ({ queue5 with head := 16 } : Queue).lap 16 == 1, queue5.lap 3 == 0,
      !recFence queue5.record, recordOk queue5.record, !recordOk ([0, 0, 8] ++ List.replicate 125 0), recFence fence, Machine.fenceOk 4 fence,
      (match (Ag.each (fun (p : Nat × Nat) => agentBytes 0 (counterVa (fenced.ctxOf 0) p.1) 8 ⟨.fencePacketTest, 5, 0⟩) (fencePairs fence) : Ag (List (List Byte))) fenced with
        | .ok bs _ => bs.length == 1 | _ => false),
      !fenced.emitting (2 ^ 20 + agentUnit 0), ({ fenced with trc := { fenced.trc with wait := [(2 ^ 20 + agentUnit 0, 0, ⟨0, 0, 0, 0, 0, 0, false, []⟩)] } }).emitting (2 ^ 20 + agentUnit 0),
      ((pushing (.submit 5 0x10000 none) 3).queue? (queueKey 0 5)).isSome, ((pushing (.submit 6 0x10000 none) 3).queue? (queueKey 0 6)).isNone,
      !({ queue5 with tail := 15, head := 0 } : Queue).full, ({ queue5 with tail := 16, head := 0 } : Queue).full,
      (match (pushing (.submit 5 0x10000 none) 3).agentRead 0 0x10000 128 5 ⟨.qsubmitPush, 0, 0⟩ with | .ok b _ => b.length == 128 | _ => false),
      decide ((hosted id).curCtx.holdNs ≤ 10 ^ 9), ((hosted id).task 0).isSome, (hosted id).retires task0,
      (match (hosted id).agentWrite 0 0x11000 (leBytes 32 0) 5 ⟨.taskRetire, 0, 0⟩ with | .ok _ _ => true | _ => false)] = true := by decide

theorem test_meets_LinkUnitSteps :
    let s := (hosted id).setCtx 0 fun c => { c with peers := [⟨0, 0, 0, 1⟩, ⟨7, 1, 0, 1⟩], rank := 0 }
    let q : LinkReq := ⟨0, 0, 0, 0, 7, 3, 0x10000, 1, 0, 0, [9]⟩
    let retired : Post := ⟨.taskRetire, 0, 0⟩
    let sees0 := fun (va : Word) => match s.translate 0 [] none va .write with | .ok y _ => !y.desc | _ => false
    let pinned := { s with mem := s.mem.put 0 0xC008 (leBytes 8 (leaf0 + 512 + 1024).toNat) }
    let x := fun (wr : Bool) (va : Word) (n : Nat) => State.linkXlate 0 wr (pagePieces va n) s
    let r : Remote := ⟨0, 0, 0, 9, 0, 0, 1, 0, 0, 0, 0, 0, [], 0, 0, true, none, 0, 0, none, some 0, 0, 0, none⟩
    let port := fun (st : PortSt) (fails : Nat) => s.setPort 15 fun p => { p with st, lanes := 8, fails }
    let frame : List Byte := List.replicate 12 0 ++ [0x88, 0xB5] ++ [1, 1] ++ leBytes 2 0 ++ leBytes 2 0 ++ leBytes 2 0 ++ mkFlit 0 []
    allOf [(s.ctxOf 0).st == .running, (s.ctxOf 0).peers.any (fun m => m.chip == 7), q.data.length == q.len,
      (pagePieces 0x10000 1).all (fun p => inPlace? s 0 p.1 .write retired && (s.mem.request? 0 p.1).isNone && sees0 p.1), pinned.pinnedAt 0 0x10000,
      (match State.linkXlate 0 true (pagePieces 0x10000 1) pinned with | .hold _ => true | _ => false),
      (match x true 0x10000 1 with | .ok l _ => l.length == 1 | _ => false), (match x false 0x1FFFF 1 with | .ok _ _ => true | _ => false),
      (match x true 0x20000 1 with | .refuse _ => true | _ => false), (match x true (2 ^ 56) 1 with | .reject => true | _ => false),
      (redFmt 10).isSome, (redFmt 4).isNone, decide (3 < (s.ctxOf 0).record.ncnt), (match x true 0x10018 8 with | .ok _ _ => true | _ => false),
      ((s.ctxOf 0).rankOf 7).bind treeParent == some 0, s.net.colls.isEmpty, decide ((s.ctxOf 0).colls ≤ 0), r.sentAt.isSome && r.ans.isNone,
      decide (s.ns ≤ r.since + (s.ctxOf 0).holdNs), (port .training 0).trains 15, ((port .down 0).port 15).st == .down, ((port .failed 0).port 15).st == .failed,
      ((port .training 2).port 15).fails == 2, decide (2 ≤ min 8 ((port .training 0).port 15).peerLanes), beNat ((frame.drop 12).take 2) == s.ctl.fw.etherType.toNat,
      (parseFrame frame).isSome, (parseFrame (frame.take 60)).isNone, flitOk (mkFlit 0 []), ((port .up 0).port 15).st == .up] = true := by decide

theorem test_meets_WorkStreamAndTraceUnitSteps :
    let accept := underWay (.accept 0x10000 false false 0 none) [] false (hosted id)
    let e : Qpe := ⟨2, 0, 0, 0, 0, 0, 0x10000, 0, 8, noCounter, noCounter, 0, 0, 0⟩
    let w : WorkEnt := ⟨0, 0, 0, 0x10000, e, false, 0, none, false, 0, []⟩
    let entry := fun (w : WorkEnt) => let s := hosted id; { s with net := { s.net with work := [(1, w)] } }
    let c : Coll := ⟨0, 0, 0, 0, List.replicate 64 0, 0, [], [], []⟩
    let ticking := fun (f : Stream → Stream) => let s := hosted id; ({ s with strm := { s.strm with streams := [(2, f { stream2 with ring := 0x10000, tail := 1 })] } } : State)
    let out := { (hosted id).setTask { task0 with linkSince := some 0 } with net := { (hosted id).net with work := [(1, { w with key := taskKey 0 })] } }
    let stalled := { hosted id with trc := { (hosted id).trc with wait := [(3000, 0, ⟨0, 0, 0, 0, 0, 0, false, []⟩)] } }
    allOf [(accept.cur.op? 1).isSome, accept.cur.hand.all (fun h => !h.held), decide (accept.net.work.length < Config.armedEntries),
      okAnd (linkRecord 0x10000 accept) (fun b t => (qpeBad t.curCtx false (qpeOf b)).isSome), (qpeBad ((accept.setCtx 0 fun c => { c with peers := [⟨0, 0, 0, 1⟩] }).curCtx) false e).isNone,
      (SMap.get? (entry w).net.work 1) == some w, !(entry w).armerAway w, (entry { w with fired := true }).net.remote.isEmpty, (entry w).mem.stores.isEmpty,
      finds? (entry w) 0 0x10000 8 ⟨.workEntryFire, 1, 0⟩, inPlace? (ticking id) 0 0x10000 .read ⟨.streamRecordAdmit, 0, 2⟩,
      sees accept 0x10000 .read (fun y => y.home != 2), !accept.mem.poisoned 0 0x50000 64,
      (match (agentBytes 0 (2 ^ 56) 8 ⟨.workEntryFire, 1, 0⟩ : Ag (List Byte)) (entry w) with | .drop _ => true | _ => false),
      (match (agentBytes 0 0x10000 8 ⟨.workEntryFire, 1, 0⟩ : Ag (List Byte)) (entry w) with | .ok b _ => b.length == 8 | _ => false),
      (w64 0 - (1 : Word)).toInt < 0, c.stage == 0, (out.task 0).bind Task.linkSince == some 0, out.taskOut 0, (out.ctxOf 0).holdNs != 0,
      (ticking id).stream? 0 2 != none, decide (stream2.due ≤ (ticking id).ns), ((ticking id).ctxOf 0).res, decide ((ticking id).ns < 5),
      (0 : BitVec 32) != 1, !(ticking id).emitting (2 ^ 20 + 0x020), decide (stream2.pend.length < 256),
      (match (ticking id).agentRead 0 0x10000 32 (streamSource 2) ⟨.streamRecordAdmit, 0, 2⟩ with | .ok b _ => b.length == 32 | _ => false),
      (stalled.trc.wait.find? fun w => w.1 == 3000).isSome, !mustStall stalled.trc ⟨0, 0, 0, 0, 0, 0, false, []⟩] = true := by decide

/-! #### Words and turns -/

theorem test_meets_DecodeEncode : allOf [(Instr.add onA (f3 3 1 2)).wellFormed, (encode (Instr.add onA (f3 3 1 2))).isSome,
    (match decode (word 0 0 0 0x20 op3) none with | .ok _ => true | _ => false)] = true := by decide

theorem test_meets_StepRunsDecodedInstruction :
    let at' := fun (w : W32) => { (placed w 0 id).setCur fun t => { t with eng := t.eng.map fun e => { e with moving := none } } with turn := .eng .a }
    let s := at' (word 0 0 0 0x20 op3)
    let g := Eng.a
    let e := s.cur.engine g
    allOf [s.turn == .eng .a, { s with turn := .again .a }.turn == .again .a, !isCont s.cur.text e.pc, s.cur.st == .running, s.cur.ph.st == .opened, !e.blocked, e.tret.isNone,
      e.late.isNone, (s.cur.frozen g).isNone, e.wait.isNone,
      (match decode (s.cur.wordsAt e.pc).1 (s.cur.wordsAt e.pc).2 with | .ok i => putOffRank i == none | _ => false),
      (let m := at' (word 0 0 0 0x81 (1#5 ++ 2#5 ++ 0#7))
       match decode (m.cur.wordsAt 0).1 (m.cur.wordsAt 0).2 with | .ok i => putOffRank i == some 3 | _ => false),
      s.runners.find? (fun n => decide (0 ≤ n)) == some 0,
      (s.runners.find? fun n => decide (1 ≤ n)).isNone, s.laters.isEmpty, !s.emitting (4 * s.cur.key + g.code.toNat),
      e.moving.isNone, e.bubble == 0, !s.powerHolds g, (s.breakAt g e.pc).isNone, decide (e.pc < s.cur.text.length), e.tri.isNone,
      (match decode (s.cur.wordsAt e.pc).1 (s.cur.wordsAt e.pc).2 with | .ok _ => true | _ => false), State.reset.turn == .units, State.reset.inputs.isEmpty, !State.reset.ctl.fw.recovery,
      State.reset.todo.isEmpty, (match Instr.parts (.qkick 0 0) with | none => true | some _ => false)] = true := by decide

theorem test_meets_StepRunsDecodedInstruction_order :
    let ports := { State.reset with inputs := [.portLaneLost 3, .portTrainingEnd 3 8] }
    let both := { State.reset with inputs := [.qkick 0 0], left := 1, todo := [⟨.strandStart, 0, 0⟩] }
    allOf [ports.nextInput == some (510, 1), !ports.emitting (2 ^ 20 + 3), State.reset.nextInput.isNone, State.reset.nextPost.isNone,
      both.nextInput.isSome, both.nextPost.isSome, both.takesInput (.qkick 0 0), !both.portHeld (.qkick 0 0)] = true := by decide

theorem test_recovery :
    let r : State := { State.reset with inputs := [.qkick 0 0], ctl := { Ctl.reset with fw := { Firmware.reset with recovery := true } } }
    allOf [r.turn == .units, r.ctl.fw.recovery, (match step r with | .next t => t.inputs.isEmpty | _ => false)] = true := by decide

theorem test_meets_MemoryKeepsItsCanonicalForm :
    let s := hosted id
    allOf [s.memWf, (match s.translate 0 [] (some 0) 0x10000 .read with | .ok .. => true | _ => false),
      (match s.agentWrite 0 0x10000 [1] 5 ⟨.taskRetire, 0, 0⟩ with | .ok .. => true | _ => false),
      (match s.agentAdd 0 0 0x10000 1 5 ⟨.taskRetire, 0, 0⟩ with | .ok .. => true | _ => false),
      (match exec (.hostMemoryWrite 0 true 0 [1]) s with | .next _ => true | _ => false),
      (match exec (.pageMoveCopyDone 0) s with | .next _ => true | _ => false)] = true := by decide
end Sys2Proof.Tests
end

/-! ### The strand: TRAP (R139) -/

namespace Sys2Proof.Machine

/-- The body of TRAP stops with SWTRAP in every state and changes nothing before it does; TARG0 is imm12 (R139). -/
theorem execTrap_takes_swtrap {h : Hd} {o : FU} {s : State} {vs : List Word} {l : Links}
    (goes : s.Goes (h.issue 0x11 1 [] [] 1) vs l) :
    execTrap h o s = .next (s.takeTrap h.g tSWTRAP [o.imm.setWidth 64]) :=
  issue_trap goes (Act.trap_run tSWTRAP [o.imm.setWidth 64] s)

/-- Settles O9: a TRAP that issues ends as its body does, by the trap. -/
theorem trapRaisesSwtrap : Obligations.TrapRaisesSwtrap := by
  intro h o s l goes
  rw [exec_trap]
  exact execTrap_takes_swtrap goes

end Sys2Proof.Machine

/-! ### Integer instructions: values (R148 to R151) -/

namespace Sys2Proof.Machine

/-- A signed quotient by R148: −1 for b = 0, −2^63 where it overflows, else truncated toward zero. -/
theorem divSigned_eq (a b : Word) : divSigned a b =
    if b = 0 then BitVec.ofInt 64 (-1) else if a.toInt = -2 ^ 63 ∧ b.toInt = -1 then BitVec.ofInt 64 (-2 ^ 63)
    else BitVec.ofInt 64 (a.toInt.tdiv b.toInt) := by
  by_cases hb : b = 0
  · simp only [divSigned, hb, if_true]
    decide
  · by_cases hov : a.toInt = -2 ^ 63 ∧ b.toInt = -1
    · simp only [divSigned, hb, hov, and_self, if_true, if_false]
      decide
    · simp only [divSigned, hb, hov, if_false, wordOf]

theorem divUnsigned_eq (a b : Word) : divUnsigned a b =
    if b = 0 then BitVec.ofNat 64 (2 ^ 64 - 1) else BitVec.ofNat 64 (a.toNat / b.toNat) := by
  by_cases hb : b = 0
  · simp only [divUnsigned, hb, if_true]
    decide
  · simp only [divUnsigned, hb, if_false]
    rw [← BitVec.toNat_udiv, BitVec.ofNat_toNat, BitVec.setWidth_eq]

/-- A signed remainder is what the truncated quotient leaves of a; it is 0 where the quotient overflows. -/
theorem remSigned_eq (a b : Word) : remSigned a b =
    if b = 0 then a else if a.toInt = -2 ^ 63 ∧ b.toInt = -1 then 0
    else BitVec.ofInt 64 (a.toInt - b.toInt * a.toInt.tdiv b.toInt) := by
  by_cases hb : b = 0
  · simp only [remSigned, hb, if_true]
  · by_cases hov : a.toInt = -2 ^ 63 ∧ b.toInt = -1
    · simp only [remSigned, hb, hov, and_self, if_true, if_false]
      decide
    · simp only [remSigned, hb, hov, if_false, wordOf, Int.tmod_def]

theorem remUnsigned_eq (a b : Word) : remUnsigned a b =
    if b = 0 then a else BitVec.ofNat 64 (a.toNat - b.toNat * (a.toNat / b.toNat)) := by
  by_cases hb : b = 0
  · simp only [remUnsigned, hb, if_true]
  · simp only [remUnsigned, hb, if_false]
    rw [← Nat.mod_eq_sub_mul_div, ← BitVec.toNat_umod, BitVec.ofNat_toNat, BitVec.setWidth_eq]

/-- The low 64 bits of a × b + c, taken at unbounded precision (R149), are the wrapped product and sum. -/
theorem mul_add_eq_ofNat (a b c : Word) : a * b + c = BitVec.ofNat 64 (a.toNat * b.toNat + c.toNat) := by
  simp only [BitVec.ofNat_add, BitVec.ofNat_mul, BitVec.ofNat_toNat, BitVec.setWidth_eq]

/-- The leading zeros of the low n bits of 0 are all n. -/
theorem leadingZeros_zero (n : Nat) : leadingZeros 0 n = n := by
  induction n with
  | zero => rfl
  | succ n ih =>
    simp only [leadingZeros, BitVec.ofNat_eq_ofNat, BitVec.getLsbD_zero, Bool.false_eq_true, if_false] at ih ⊢
    omega

/-- The leading zeros of a number below 2^n lie above its highest one bit. -/
theorem leadingZeros_eq_log2 {a : Word} (ha : a.toNat ≠ 0) :
    ∀ {n : Nat}, a.toNat < 2 ^ n → leadingZeros a n = n - 1 - a.toNat.log2
  | 0, lt => by omega
  | n + 1, lt => by
    cases top : a.getLsbD n with
    | true =>
      have ge : 2 ^ n ≤ a.toNat := Nat.ge_two_pow_of_testBit top
      have log : a.toNat.log2 = n := (Nat.log2_eq_iff ha).2 ⟨ge, lt⟩
      simp only [leadingZeros, top, if_true]
      omega
    | false =>
      have below : a.toNat < 2 ^ n := Nat.lt_pow_two_of_testBit _ fun i hi => by
        rcases Nat.eq_or_lt_of_le hi with rfl | hi
        · exact top
        · exact Nat.testBit_lt_two_pow (Nat.lt_of_lt_of_le lt (Nat.pow_le_pow_right (by decide) hi))
      have log : a.toNat.log2 < n := (Nat.log2_lt ha).2 below
      simp only [leadingZeros, top, Bool.false_eq_true, if_false, leadingZeros_eq_log2 ha below]
      omega

/-- CLZ of a word (R150). -/
theorem w64_leadingZeros (a : Word) :
    w64 (leadingZeros a 64) = if a = 0 then 64 else BitVec.ofNat 64 (63 - a.toNat.log2) := by
  by_cases ha : a = 0
  · rw [if_pos ha, ha, leadingZeros_zero]
    rfl
  · rw [if_neg ha, leadingZeros_eq_log2 (fun h0 => ha (BitVec.eq_of_toNat_eq h0)) a.isLt]
    rfl

/-- The one bits among the low n bits, counted position by position. -/
theorem onesBelow_eq_countP (a : Word) (n : Nat) : onesBelow a n = (List.range n).countP fun i => a.getLsbD i := by
  induction n with
  | zero => rfl
  | succ n ih =>
    rw [List.range_succ, List.countP_append, List.countP_singleton, onesBelow, ih, b2n, Nat.add_comm]

/-! #### Bit fields -/

theorem lowMask_getLsbD (w i : Nat) : (lowMask w).getLsbD i = (decide (i < 64) && decide (i < w)) := by
  simp only [lowMask, w64, BitVec.getLsbD_ofNat, Nat.testBit_two_pow_sub_one]

/-- A bit of an extracted field is the bit of a as far above p. -/
theorem extractField_getLsbD (a : Word) (p w : Nat) {i : Nat} (hi : i < 64) :
    (extractField a p w).getLsbD i = (decide (i < w) && a.getLsbD (p + i)) := by
  simp only [extractField, BitVec.getLsbD_and, BitVec.getLsbD_ushiftRight, lowMask_getLsbD, hi, decide_true,
    Bool.true_and, Bool.and_comm]

/-- An inserted field holds the low bits of a; every other bit is d's. -/
theorem insertField_getLsbD (d a : Word) (p w : Nat) {i : Nat} (hi : i < 64) :
    (insertField d a p w).getLsbD i = if p ≤ i ∧ i < p + w then a.getLsbD (i - p) else d.getLsbD i := by
  simp only [insertField, BitVec.getLsbD_or, BitVec.getLsbD_and, BitVec.getLsbD_not, BitVec.getLsbD_shiftLeft,
    lowMask_getLsbD, hi, decide_true, Bool.true_and]
  by_cases hp : i < p
  · have out : ¬ (p ≤ i ∧ i < p + w) := by omega
    simp [hp, out]
  · have hj : i - p < 64 := by omega
    by_cases hw : i - p < w
    · have inside : p ≤ i ∧ i < p + w := by omega
      simp [hp, hj, hw, inside]
    · have out : ¬ (p ≤ i ∧ i < p + w) := by omega
      simp [hp, hj, hw, out]

/-- Position and width of a long field, whatever the sources give. -/
theorem fieldPos_some (r : XR) (vs : List Word) :
    fieldPos (some r) vs = (r.pos.toNat, if r.wid = 0 then 64 else r.wid.toNat) := by
  have zero : r.wid.toNat = 0 ↔ r.wid = 0 := ⟨fun h0 => BitVec.eq_of_toNat_eq h0, fun h0 => by rw [h0]; rfl⟩
  simp only [fieldPos, zero]

/-- Position and width of a short field, from source b. -/
theorem fieldPos_none (vs : List Word) :
    fieldPos none vs = ((vs.getD 1 0).toNat % 64,
      if (vs.getD 1 0).toNat / 256 % 64 = 0 then 64 else (vs.getD 1 0).toNat / 256 % 64) := by
  simp [fieldPos, getBits]

/-! #### Shifts and comparison -/

/-- An arithmetic shift right divides toward −∞. -/
theorem sshiftRight_eq_div (a : Word) (n : Nat) : a.sshiftRight n = BitVec.ofInt 64 (a.toInt / 2 ^ n) := by
  rw [BitVec.sshiftRight, Int.shiftRight_eq_div_pow]
  rfl

theorem boolWord_slt (a b : Word) : boolWord (a.slt b) = if a.toInt < b.toInt then 1 else 0 := by
  simp only [boolWord, BitVec.slt, decide_eq_true_eq]

end Sys2Proof.Machine

/-! ### Integer instructions: the results in d (R148 to R153) -/

namespace Sys2Proof.Machine

variable {h : Hd} {s : State} {l : Links}

theorem alu_gives {o : F3} {opc lat : Nat} {f : Word → Word → Word} {a b : Word}
    (goes : s.Goes (h.issue opc 1 o.srcs [.reg o.d] lat) [a, b] l) :
    alu h opc lat o f s = s.gives (h.issue opc 1 o.srcs [.reg o.d] lat) l o.d (f a b) :=
  issue_gives goes rfl

theorem aluImm_gives {o : FI} {x : Option XI} {opc : Nat} {f : Word → Word → Word} {a : Word}
    (goes : s.Goes (h.issue opc (lenOf x) [(o.a, false)] [.reg o.d] 1) [a] l) :
    aluImm h opc o x f s = s.gives (h.issue opc (lenOf x) [(o.a, false)] [.reg o.d] 1) l o.d (f a (o.value x)) :=
  issue_gives goes rfl

/-- A check of the issue stage that fails traps before anything is waited for (R78). -/
theorem issue_early {q : Issue} {body : List Word → Act Done} {code : Nat} {args : List Word} (legal : q.legal = true)
    (early : q.early = some (code, args)) : issue q body s = .next (s.takeTrap q.g code args) := by
  simp [issue, legal, early]

/-- A field that does not fit ends BFX and BFI by RANGE: at issue in the long form, by the body's check in the short
form. -/
theorem issue_field_range {opc : Nat} {o : F3} {x : Option XR} {vs : List Word} {body : List Word → Act Done}
    {p w : Nat} (field : fieldPos x vs = (p, w)) (big : 64 < p + w) (checks : body vs s = .stop (.trap tRANGE [w64 (p + w)]))
    (go : x.isSome = true ∨ s.Goes (fieldIssue h opc o x) vs l) :
    issue (fieldIssue h opc o x) body s = .next (s.takeTrap h.g tRANGE [w64 (p + w)]) := by
  rcases go with long | goes
  · obtain ⟨r, rfl⟩ := Option.isSome_iff_exists.1 long
    have early : (fieldIssue h opc o (some r)).early = some (tRANGE, [w64 (p + w)]) := by
      rw [fieldPos_some, ← fieldPos_some r []] at field
      simp [fieldIssue, field, earlyCheck, big]
    exact issue_early rfl early
  · exact issue_trap goes checks

section Fields

variable {o : F3} {x : Option XR} {vs : List Word} {p w : Nat} (field : fieldPos x vs = (p, w))

include field

theorem execBfx_gives (fits : p + w ≤ 64) (goes : s.Goes (fieldIssue h 0x39 o x) vs l) :
    execBfx h o x s = s.gives (fieldIssue h 0x39 o x) l o.d (extractField (vs.headD 0) p w) :=
  issue_gives goes (by simp [field, fits])

theorem execBfi_gives (fits : p + w ≤ 64) (goes : s.Goes (fieldIssue h 0x3A o x) vs l) :
    execBfi h o x s =
      s.gives (fieldIssue h 0x3A o x) l o.d (insertField (s.cur.reg h.g o.d) (vs.headD 0) p w) :=
  issue_gives goes (by simp [field, fits])

theorem execBfx_range (big : 64 < p + w) (go : x.isSome = true ∨ s.Goes (fieldIssue h 0x39 o x) vs l) :
    execBfx h o x s = .next (s.takeTrap h.g tRANGE [w64 (p + w)]) :=
  issue_field_range field big (by simp [field, Nat.not_le_of_gt big]) go

theorem execBfi_range (big : 64 < p + w) (go : x.isSome = true ∨ s.Goes (fieldIssue h 0x3A o x) vs l) :
    execBfi h o x s = .next (s.takeTrap h.g tRANGE [w64 (p + w)]) :=
  issue_field_range field big (by simp [field, Nat.not_le_of_gt big]) go

end Fields

end Sys2Proof.Machine

/-! ### Integer instructions: refused words and operands (R78) -/

namespace Sys2Proof

/-- MADD without its long form is refused (R149). -/
theorem decode_short_madd {w0 : W32} {w1 : Option W32} (short : w0.getLsbD 25 = false) (opc : fld w0 17 8 = 0x36) :
    decode w0 w1 = .error .longForm := by
  have words : decodeWords w0 w1 = .error .longForm := by
    have number : (fld w0 17 8).toNat = 0x36 := by rw [opc]; rfl
    have form : findForm (headOf w0).g 0x36 = some (formR F3.of XR.of XR.bits fun h o x => .madd h o x) := rfl
    have notLong : isLong w0 = false := short
    simp [decodeWords, notLong, number, form, formR]
  simp only [decode, words]

/-- With field b reserved, its peek bit s[0] is 0. -/
theorem peekOk_zero {a : BitVec 5} {s : BitVec 2} (ok : peekOk a 0 s = true) : s.getLsbD 0 = false := by
  have notChannel : isChan 0 = false := by decide
  simp only [peekOk, notChannel, Bool.or_false, Bool.and_eq_true, beq_iff_eq] at ok
  obtain ⟨-, even⟩ := ok
  simpa [getBits, BitVec.getLsbD, Nat.testBit_zero] using even

theorem aluOk_peek {g : Eng} {o : F3} (ok : aluOk g o = true) : peekOk o.a o.b o.s = true := by
  simp only [aluOk, Bool.and_eq_true] at ok
  exact ok.2

/-- CLZ and POPC: field b and its peek bit are reserved (R150). -/
theorem aluOk_reserved_b {g : Eng} {o : F3} (ok : (aluOk g o && o.b == 0) = true) :
    o.b = 0 ∧ o.s.getLsbD 0 = false := by
  simp only [Bool.and_eq_true, beq_iff_eq] at ok
  obtain ⟨ok, b0⟩ := ok
  exact ⟨b0, peekOk_zero (b0 ▸ aluOk_peek ok)⟩

/-- The long BFX and BFI: field b, its peek bit and field c are reserved (R151). -/
theorem bfOk_some {g : Eng} {o : F3} {r : XR} (ok : bfOk g o (some r) = true) :
    o.b = 0 ∧ o.s.getLsbD 0 = false ∧ r.c = 0 := by
  simp only [bfOk, Bool.and_eq_true, beq_iff_eq] at ok
  obtain ⟨-, ⟨b0, c0⟩, peek⟩ := ok
  exact ⟨b0, peekOk_zero peek, c0⟩

theorem notChan_eq {n : BitVec 5} (ok : notChan n = true) : isChan n = false := by
  simpa [notChan] using ok

/-- An immediate's extension to 64 bits keeps its signed value. -/
theorem FI.value_toInt (o : FI) (x : Option XI) : (o.value x).toInt = immI o x := by
  cases x with
  | none => exact BitVec.toInt_signExtend_of_le (by decide)
  | some e => exact BitVec.toInt_signExtend_of_le (by decide)

/-- A well-formed shift immediate lies from 0 to 63 (R152). -/
theorem shiftImmOk_bounds {o : FI} {x : Option XI} (ok : shiftImmOk o x = true) :
    0 ≤ (o.value x).toInt ∧ (o.value x).toInt ≤ 63 := by
  rw [FI.value_toInt]
  simpa [shiftImmOk] using ok

end Sys2Proof

/-! ### Integer instructions: the statements -/

namespace Sys2Proof.Machine

/-- Settles O2: a division is an ALU instruction whose value is that of R148. -/
theorem divisionResults : Obligations.DivisionResults := by
  intro h o s a b l q
  refine ⟨fun goes => ?_, fun goes => ?_, fun goes => ?_, fun goes => ?_⟩
  · rw [exec_div, ← divSigned_eq]
    exact alu_gives goes
  · rw [exec_divu, ← divUnsigned_eq]
    exact alu_gives goes
  · rw [exec_rem, ← remSigned_eq]
    exact alu_gives goes
  · rw [exec_remu, ← remUnsigned_eq]
    exact alu_gives goes

/-- Settles O3: the values of MADD and the counts, then the field of BFX and BFI, which both forms place as fieldPos
says. -/
theorem maddCountsAndFields : Obligations.MaddCountsAndFields := by
  refine ⟨fun h o x s a b c l w0 w1 => ⟨fun goes => ?_, fun goes => ?_, fun goes => ?_, decode_short_madd, fun ok => ?_,
    fun ok => ?_⟩, ?_⟩
  · rw [exec_madd, ← mul_add_eq_ofNat]
    exact issue_gives goes rfl
  · rw [exec_clz, ← w64_leadingZeros]
    exact issue_gives goes rfl
  · rw [exec_popc, ← onesBelow_eq_countP]
    exact issue_gives goes rfl
  · simp only [Instr.wellFormed, Bool.and_eq_true, beq_iff_eq] at ok
    obtain ⟨⟨-, pos0⟩, wid0⟩ := ok
    exact ⟨pos0, wid0⟩
  · rcases ok with ok | ok <;> exact aluOk_reserved_b ok
  · intro h o x s vs l p w a b q place
    have field : fieldPos x vs = (p, w) := by
      cases x with
      | none => rw [fieldPos_none, ← place.1, ← place.2]
      | some r => rw [fieldPos_some, ← place.1, ← place.2]
    refine ⟨fun fits goes => ⟨_, ?_, fun i => extractField_getLsbD a p w⟩,
      fun fits goes => ⟨_, ?_, fun i => insertField_getLsbD (s.cur.reg h.g o.d) a p w⟩, fun big go => ?_,
      fun big go => ?_, fun i mem ok r long => ?_, fun ok => ?_⟩
    · rw [exec_bfx]
      exact execBfx_gives field fits goes
    · rw [exec_bfi]
      exact execBfi_gives field fits goes
    · rw [exec_bfx]
      exact execBfx_range field big go
    · rw [exec_bfi]
      exact execBfi_range field big go
    · subst long
      simp only [List.mem_cons, List.not_mem_nil, or_false] at mem
      rcases mem with rfl | rfl <;> simp only [Instr.wellFormed, Bool.and_eq_true] at ok <;> exact bfOk_some ok.2
    · simp only [Instr.wellFormed, Bool.and_eq_true] at ok
      exact notChan_eq ok.1.2

/-- Settles O4: an immediate instruction is its counterpart's value on the extended immediate. -/
theorem immediateResults : Obligations.ImmediateResults := by
  intro h o x u y s a l i q r
  have value : o.value x = i := by cases x <;> rfl
  refine ⟨fun goes => ?_, fun goes => ?_, fun goes => ?_, fun goes => ?_, fun goes => ?_, fun goes => ?_, fun goes => ?_,
    fun goes => ?_, fun goes => ?_, fun goes => ?_, fun j mem ok => ?_, fun ok => ?_⟩
  · rw [exec_addi, ← value]
    exact aluImm_gives goes
  · rw [exec_andi, ← value]
    exact aluImm_gives goes
  · rw [exec_ori, ← value]
    exact aluImm_gives goes
  · rw [exec_xori, ← value]
    exact aluImm_gives goes
  · rw [exec_shli, ← value]
    exact aluImm_gives goes
  · rw [exec_shri, ← value]
    exact aluImm_gives goes
  · rw [exec_srai, ← value, ← sshiftRight_eq_div]
    exact aluImm_gives goes
  · rw [exec_slti, ← value, ← boolWord_slt]
    exact aluImm_gives goes
  · rw [exec_li]
    cases y <;> exact issue_gives goes rfl
  · rw [exec_lih]
    cases y <;> exact issue_gives goes rfl
  · rw [← value]
    simp only [List.mem_cons, List.not_mem_nil, or_false] at mem
    rcases mem with rfl | rfl | rfl <;> simp only [Instr.wellFormed, Bool.and_eq_true] at ok <;>
      exact shiftImmOk_bounds ok.2
  · simp only [Instr.wellFormed, Bool.and_eq_true] at ok
    exact notChan_eq ok.2

end Sys2Proof.Machine

/-! ### Words and instructions: fields read back and written back (R60 to R66) -/

namespace Sys2Proof

section Fields

variable {v w : Nat}

/-- A field of the lower part of joined words. -/
theorem fld_append_low {a : BitVec v} {b : BitVec w} {lo n : Nat} (inside : lo + n ≤ w) :
    fld (a ++ b) lo n = fld b lo n := BitVec.extractLsb'_append_eq_of_add_le inside

/-- A field of the upper part of joined words. -/
theorem fld_append_high {a : BitVec v} {b : BitVec w} {lo n : Nat} (above : w ≤ lo) :
    fld (a ++ b) lo n = fld a (lo - w) n := BitVec.extractLsb'_append_eq_of_le above

@[simp] theorem fld_whole (a : BitVec w) : fld a 0 w = a := BitVec.extractLsb'_eq_self

/-- Two adjacent fields, written side by side, are one field. -/
theorem fld_append_fld (a : BitVec w) {lo hi m n : Nat} (adjacent : hi = lo + n) :
    fld a hi m ++ fld a lo n = fld a lo (m + n) := BitVec.extractLsb'_append_extractLsb'_eq_extractLsb' adjacent

theorem flag_append (a : BitVec v) (b : BitVec w) (i : Nat) :
    flag (a ++ b) i = if i < w then flag b i else flag a (i - w) := by
  simp only [flag, BitVec.getLsbD_append]

@[simp] theorem flag_ofBool (c : Bool) : flag (BitVec.ofBool c) 0 = c := by simp [flag]

theorem ofBool_flag (a : BitVec w) (i : Nat) : BitVec.ofBool (flag a i) = fld a i 1 := by
  apply BitVec.eq_of_getLsbD_eq
  intro j hj
  have : j = 0 := by omega
  simp [this, flag, fld]

end Fields

/-! #### The operand formats of R63 -/

@[simp] theorem F3.of_bits (f : F3) : F3.of f.bits = f := by
  simp (disch := decide) only [F3.of, F3.bits, fld_append_low, fld_append_high, fld_whole, Nat.reduceSub]
@[simp] theorem FI.of_bits (f : FI) : FI.of f.bits = f := by
  simp (disch := decide) only [FI.of, FI.bits, fld_append_low, fld_append_high, fld_whole, Nat.reduceSub]
@[simp] theorem FU.of_bits (f : FU) : FU.of f.bits = f := by
  simp (disch := decide) only [FU.of, FU.bits, fld_append_low, fld_append_high, fld_whole, Nat.reduceSub]
@[simp] theorem FB.of_bits (f : FB) : FB.of f.bits = f := by
  simp (disch := decide) only [FB.of, FB.bits, fld_append_low, fld_append_high, fld_whole, Nat.reduceSub]
@[simp] theorem FZ.of_bits (f : FZ) : FZ.of f.bits = f := by
  simp (disch := decide) only [FZ.of, FZ.bits, fld_append_low, fld_append_high, fld_whole, Nat.reduceSub]
@[simp] theorem FL.of_bits (f : FL) : FL.of f.bits = f := by
  simp (disch := decide) only [FL.of, FL.bits, fld_append_low, fld_append_high, fld_whole, Nat.reduceSub]

@[simp] theorem F3.bits_of (o : BitVec 17) : (F3.of o).bits = o := by
  simp (disch := decide) only [F3.of, F3.bits, fld_append_fld]
  exact fld_whole _
@[simp] theorem FI.bits_of (o : BitVec 17) : (FI.of o).bits = o := by
  simp (disch := decide) only [FI.of, FI.bits, fld_append_fld]
  exact fld_whole _
@[simp] theorem FU.bits_of (o : BitVec 17) : (FU.of o).bits = o := by
  simp (disch := decide) only [FU.of, FU.bits, fld_append_fld]
  exact fld_whole _
@[simp] theorem FB.bits_of (o : BitVec 17) : (FB.of o).bits = o := by
  simp (disch := decide) only [FB.of, FB.bits, fld_append_fld]
  exact fld_whole _
@[simp] theorem FZ.bits_of (o : BitVec 17) : (FZ.of o).bits = o := by
  simp (disch := decide) only [FZ.of, FZ.bits, fld_append_fld]
  exact fld_whole _
@[simp] theorem FL.bits_of (o : BitVec 17) : (FL.of o).bits = o := by
  simp (disch := decide) only [FL.of, FL.bits, fld_append_fld]
  exact fld_whole _

/-! #### The payloads of R65, R66, R192, R266, R293 and R335 -/

@[simp] theorem XI.of_bits (x : XI) : XI.of x.bits = x := by
  simp (disch := decide) only [XI.of, XI.bits, fld_append_low, fld_whole]
@[simp] theorem XU.of_bits (x : XU) : XU.of x.bits = x := by
  simp (disch := decide) only [XU.of, XU.bits, fld_append_low, fld_whole]
@[simp] theorem XB.of_bits (x : XB) : XB.of x.bits = x := by
  simp (disch := decide) only [XB.of, XB.bits, fld_append_low, fld_append_high, fld_whole, Nat.reduceSub]
@[simp] theorem XZ.of_bits (x : XZ) : XZ.of x.bits = x := by
  simp (disch := decide) only [XZ.of, XZ.bits, fld_append_low, fld_append_high, fld_whole, Nat.reduceSub]
@[simp] theorem XL.of_bits (x : XL) : XL.of x.bits = x := by
  simp (disch := decide) only [XL.of, XL.bits, fld_append_low, fld_append_high, flag_append, flag_ofBool, fld_whole, if_neg, Nat.reduceSub]
@[simp] theorem XK.of_bits (x : XK) : XK.of x.bits = x := by
  simp (disch := decide) only [XK.of, XK.bits, fld_append_low, fld_append_high, fld_whole, Nat.reduceSub]
@[simp] theorem XM.of_bits (x : XM) : XM.of x.bits = x := by
  simp (disch := decide) only [XM.of, XM.bits, fld_append_low, flag_append, flag_ofBool, fld_whole, if_pos, if_neg, Nat.reduceSub]
@[simp] theorem XR.of_bits (x : XR) : XR.of x.bits = x := by
  simp (disch := decide) only [XR.of, XR.bits, fld_append_low, fld_append_high, fld_whole, Nat.reduceSub]
@[simp] theorem XV.of_bits (x : XV) : XV.of x.bits = x := by
  simp (disch := decide) only [XV.of, XV.bits, fld_append_low, fld_append_high, fld_whole, Nat.reduceSub]
@[simp] theorem XH.of_bits (x : XH) : XH.of x.bits = x := by
  simp (disch := decide) only [XH.of, XH.bits, fld_append_low, fld_append_high, flag_append, flag_ofBool, fld_whole, if_pos, if_neg, Nat.reduceSub]
@[simp] theorem XA.of_bits (x : XA) : XA.of x.bits = x := by
  simp (disch := decide) only [XA.of, XA.bits, fld_append_low, fld_append_high, fld_whole, Nat.reduceSub]
@[simp] theorem XP.of_bits (x : XP) : XP.of x.bits = x := by
  simp (disch := decide) only [XP.of, XP.bits, fld_append_low, fld_append_high, fld_whole, Nat.reduceSub]
@[simp] theorem MC.of_bits (x : MC) : MC.of x.bits = x := by
  simp (disch := decide) only [MC.of, MC.bits, fld_append_high, flag_append, flag_ofBool, fld_whole, if_pos, if_neg, Nat.reduceSub]
@[simp] theorem NL.of_bits (x : NL) : NL.of x.bits = x := by
  simp (disch := decide) only [NL.of, NL.bits, fld_append_low, fld_append_high, flag_append, flag_ofBool, fld_whole, if_pos, if_neg, Nat.reduceSub]
@[simp] theorem NO.of_bits (x : NO) : NO.of x.bits = x := by
  simp (disch := decide) only [NO.of, NO.bits, fld_append_low, fld_append_high, fld_whole, Nat.reduceSub]

/-! #### Header and first word (R60) -/

@[simp] theorem Ring.of_bits (r : Ring) : Ring.of r.bits = r := by
  simp (disch := decide) only [Ring.of, Ring.bits, flag_append, flag_ofBool, if_pos, if_neg, Nat.reduceSub]
@[simp] theorem Ring.bits_of (b : BitVec 4) : (Ring.of b).bits = b := by
  simp (disch := decide) only [Ring.of, Ring.bits, ofBool_flag, fld_append_fld]
  exact fld_whole _
@[simp] theorem Eng.ofCode_code (g : Eng) : Eng.ofCode g.code = g := by cases g <;> rfl
@[simp] theorem Eng.code_ofCode (c : BitVec 2) : (Eng.ofCode c).code = c := by
  revert c
  decide

end Sys2Proof

/-! ### Words and instructions: parts and words (R60, R62) -/

namespace Sys2Proof

/-- What the parts of an instruction decode to before the checks of its fields (R74 to R77). -/
def Parts.decode (q : Parts) : Dec Instr :=
  if q.g = .a ∧ q.opc = 0xFF then decodeJoint q.rb q.o q.p
  else match findForm q.g q.opc with
    | none => .error .unassigned
    | some f => f ⟨q.g, Ring.of q.rb⟩ q.o q.p

/-- The parts that a first word and the word after it hold. -/
def wordParts (w0 : W32) (w1 : Option W32) : Parts :=
  ⟨Eng.ofCode (fld w0 30 2), fld w0 26 4, (fld w0 17 8).toNat, fld w0 0 17,
    (if isLong w0 then w1 else none).map fun e => fld e 0 30⟩

/-- Words that pass checks 1 and 4 of R78 decode as their parts do. -/
theorem decodeWords_eq {w0 : W32} {w1 : Option W32} (present : isLong w0 = true → w1.isSome = true)
    (owner : isLong w0 = true → ∀ e, w1 = some e → fld e 30 2 = fld w0 30 2) :
    decodeWords w0 w1 = (wordParts w0 w1).decode := by
  cases long : isLong w0 with
  | false => simp [decodeWords, Parts.decode, wordParts, headOf, long] <;> rfl
  | true =>
    obtain ⟨e, rfl⟩ := Option.isSome_iff_exists.1 (present long)
    simp [decodeWords, Parts.decode, wordParts, headOf, long, owner long e rfl] <;> rfl

/-- Words that decode pass checks 1 and 4 of R78. -/
theorem decodeWords_ok {w0 : W32} {w1 : Option W32} {i : Instr} (ok : decodeWords w0 w1 = .ok i) :
    (isLong w0 = true → w1.isSome = true) ∧
      (isLong w0 = true → ∀ e, w1 = some e → fld e 30 2 = fld w0 30 2) := by
  cases long : isLong w0 with
  | false => simp
  | true =>
    cases w1 with
    | none => simp [decodeWords, long] at ok
    | some e =>
      refine ⟨fun _ => rfl, fun _ e' same => ?_⟩
      cases same
      refine Classical.byContradiction fun other => ?_
      simp [decodeWords, long, other] at ok

/-! #### Writing the parts of words -/

theorem Parts.first_wordParts {w0 : W32} {w1 : Option W32} (present : isLong w0 = true → w1.isSome = true) :
    (wordParts w0 w1).first = w0 := by
  have long : (wordParts w0 w1).p.isSome = flag w0 25 := by
    show _ = isLong w0
    cases bit : isLong w0 with
    | false => simp [wordParts, bit]
    | true => simp [wordParts, bit, present bit]
  simp (disch := decide) only [Parts.first, long, ofBool_flag]
  simp (disch := decide) only [wordParts, Eng.code_ofCode, BitVec.ofNat_toNat, BitVec.setWidth_eq, fld_append_fld]
  exact fld_whole _

theorem Parts.ext_wordParts {w0 : W32} {w1 : Option W32}
    (owner : isLong w0 = true → ∀ e, w1 = some e → fld e 30 2 = fld w0 30 2) :
    (wordParts w0 w1).ext = if isLong w0 then w1 else none := by
  cases long : isLong w0 with
  | false => simp [wordParts, long, Parts.ext]
  | true =>
    cases w1 with
    | none => simp [wordParts, long, Parts.ext]
    | some e =>
      simp only [wordParts, long, Parts.ext, if_true, Option.map_some, Eng.code_ofCode, ← owner long e rfl]
      exact congrArg some ((fld_append_fld e rfl).trans (fld_whole e))

/-! #### Reading the words of parts -/

theorem Parts.wordParts_words {q : Parts} {w1 : Option W32} (small : q.opc < 256)
    (next : q.p.isSome = true → w1 = q.ext) :
    wordParts q.first w1 = q ∧ isLong q.first = q.p.isSome := by
  have long : isLong q.first = q.p.isSome := by
    simp (disch := decide) only [isLong, Parts.first, flag_append, flag_ofBool, if_pos, if_neg, Nat.reduceSub]
  refine ⟨?_, long⟩
  obtain ⟨g, rb, opc, o, p⟩ := q
  have payload : (if p.isSome then w1 else none).map (fun e => fld e 0 30) = p := by
    cases p with
    | none => rfl
    | some e =>
      rw [next rfl]
      show some (fld (g.code ++ e) 0 30) = some e
      simp (disch := decide) only [fld_append_low, fld_whole]
  simp only [wordParts, long, payload]
  simp (disch := decide) only [Parts.first, fld_append_low, fld_append_high, fld_whole, Nat.reduceSub, Eng.ofCode_code,
    BitVec.toNat_ofNat]
  rw [Nat.mod_eq_of_lt small]

/-- The words of parts decode as these parts do, whatever follows a first word that has no extension word. -/
theorem Parts.decodeWords_words {q : Parts} {w1 : Option W32} (small : q.opc < 256)
    (next : q.p.isSome = true → w1 = q.ext) : decodeWords q.first w1 = q.decode := by
  obtain ⟨parts, long⟩ := Parts.wordParts_words small next
  have ext : q.p.isSome = true → ∃ e, w1 = some e ∧ fld e 30 2 = fld q.first 30 2 := by
    intro some'
    obtain ⟨e, payload⟩ := Option.isSome_iff_exists.1 some'
    refine ⟨q.g.code ++ e, by rw [next some', Parts.ext, payload]; rfl, ?_⟩
    simp (disch := decide) only [Parts.first, fld_append_high, fld_whole, Nat.reduceSub]
  rw [decodeWords_eq, parts]
  · intro l
    obtain ⟨e, rfl, -⟩ := ext (long ▸ l)
    rfl
  · intro l e same
    obtain ⟨e', eq, owner⟩ := ext (long ▸ l)
    rw [eq] at same
    cases same
    exact owner

end Sys2Proof

/-! ### Words and instructions: from an instruction to its words -/

namespace Sys2Proof

@[simp] theorem F3.fld_bits (f : F3) : fld f.bits 0 2 = f.s := congrArg F3.s f.of_bits

/-! #### What each form reads from operand bits and a payload that were written -/

section Forms

variable {α β : Type} {of : BitVec 17 → α} {xof : BitVec 30 → β} {xbits : β → BitVec 30}

@[simp] theorem payload_bits {x : β} (back : xof (xbits x) = x) : payload xof xbits (xbits x) = .ok x := by
  simp [payload, back]

@[simp] theorem formN_run (c : Hd → Instr) (h : Hd) : formN c h 0#17 none = .ok (c h) := rfl

@[simp] theorem formS_run (c : Hd → α → Instr) (h : Hd) (o : BitVec 17) : formS of c h o none = .ok (c h (of o)) := rfl

@[simp] theorem formO_run (c : Hd → α → Option β → Instr) (h : Hd) (o : BitVec 17) {x : Option β}
    (back : ∀ y, xof (xbits y) = y) : formO of xof xbits c h o (x.map xbits) = .ok (c h (of o) x) := by
  cases x with
  | none => rfl
  | some y => simp [formO, back, Except.map]

@[simp] theorem formR_run (c : Hd → α → β → Instr) (h : Hd) (o : BitVec 17) {x : β} (back : xof (xbits x) = x) :
    formR of xof xbits c h o (some (xbits x)) = .ok (c h (of o) x) := by
  simp [formR, back, Except.map]

@[simp] theorem formSL_short (short long : Form) (h : Hd) (o : BitVec 17) :
    formSL short long h o none = short h o none := rfl

@[simp] theorem formSL_long (short long : Form) (h : Hd) (o : BitVec 17) (e : BitVec 30) :
    formSL short long h o (some e) = long h o (some e) := rfl

theorem formSub_run {f : BitVec 2 → Option Form} {g : Form} {o : F3} {n : BitVec 2} (sub : o.s = n) (at' : f n = some g)
    (h : Hd) (p : Option (BitVec 30)) : formSub f h o.bits p = g h o.bits p := by
  simp only [formSub, F3.fld_bits, sub, at']

end Forms

theorem mhi_cases (o : BitVec 2) : o = 0 ∨ o = 1 ∨ o = 2 ∨ o = 3 := by
  revert o
  decide

theorem Parts.decode_of_form {q : Parts} {f : Form} (own : q.opc ≠ 0xFF) (form : findForm q.g q.opc = some f) :
    q.decode = f ⟨q.g, Ring.of q.rb⟩ q.o q.p := by
  simp [Parts.decode, own, form]

/-- The parts of a well-formed instruction decode to it. -/
theorem Instr.decode_parts {i : Instr} {q : Parts} (wf : i.wellFormed = true) (parts : i.parts = some q) :
    q.decode = .ok i := by
  cases i <;> cases parts
  case stbindOpen r o | stbindAppend r o | stbindCommit r o | stbindClose r o | trmark r o | trmarkL r o | trspanBegin r o
      | trspanEnd r o | nepi r o x | nepiDef r o =>
    simp only [Instr.wellFormed, Bool.and_eq_true, beq_iff_eq] at wf
    rw [Parts.decode_of_form (by simp) rfl, formSub_run wf.2 rfl]
    simp
  case sync | endJ | yieldJ => rfl
  case mode t => cases t <;> rfl
  case phase o => rcases mhi_cases o with rfl | rfl | rfl | rfl <;> rfl
  case phaseLong o x =>
    rcases mhi_cases o with rfl | rfl | rfl | rfl <;> simp [Parts.decode, decodeJoint, fld, flag]
  all_goals
    rw [Parts.decode_of_form (by simp) rfl]
    simp

theorem Instr.parts_opc_lt {i : Instr} {q : Parts} (parts : i.parts = some q) : q.opc < 256 := by
  cases i <;> cases parts <;> simp

/-! ### Words and instructions: from words to an instruction -/

/-- Whatever a form reads in the space of engine g has, as its parts, the bits that it was read from. -/
def Form.Writes (g : Eng) (opc : Nat) (f : Form) : Prop :=
  ∀ (r : Ring) (o : BitVec 17) (p : Option (BitVec 30)) (i : Instr),
    f ⟨g, r⟩ o p = .ok i → i.parts = some ⟨g, r.bits, opc, o, p⟩

section Writes

variable {α β : Type} {of : BitVec 17 → α} {xof : BitVec 30 → β} {xbits : β → BitVec 30} {g : Eng} {opc : Nat}

/-- A payload that is read is the one written from what is read. -/
theorem payload_ok {p : BitVec 30} {x : β} (ok : payload xof xbits p = .ok x) : x = xof p ∧ xbits (xof p) = p := by
  simp only [payload] at ok
  split at ok
  · rename_i back
    cases ok
    exact ⟨rfl, back⟩
  · cases ok

theorem formN_writes {c : Hd → Instr} (parts : ∀ r, (c ⟨g, r⟩).parts = some ⟨g, r.bits, opc, 0#17, none⟩) :
    Form.Writes g opc (formN c) := by
  intro r o p i ok
  simp only [formN] at ok
  split at ok
  · cases ok
  · rename_i short
    split at ok
    · rename_i zero
      cases ok
      rw [parts, show o = 0#17 from zero, Option.not_isSome_iff_eq_none.1 short]
    · cases ok

theorem formS_writes {c : Hd → α → Instr}
    (parts : ∀ r o, (c ⟨g, r⟩ (of o)).parts = some ⟨g, r.bits, opc, o, none⟩) : Form.Writes g opc (formS of c) := by
  intro r o p i ok
  simp only [formS] at ok
  split at ok
  · cases ok
  · rename_i short
    cases ok
    rw [parts, Option.not_isSome_iff_eq_none.1 short]

theorem formO_writes {c : Hd → α → Option β → Instr}
    (parts : ∀ r o x, (c ⟨g, r⟩ (of o) x).parts = some ⟨g, r.bits, opc, o, x.map xbits⟩) :
    Form.Writes g opc (formO of xof xbits c) := by
  intro r o p i ok
  cases p with
  | none =>
    cases ok
    exact parts r o none
  | some e =>
    simp only [formO] at ok
    cases read : payload xof xbits e with
    | error _ => simp [read, Except.map] at ok
    | ok x =>
      simp only [read, Except.map, Except.ok.injEq] at ok
      obtain ⟨rfl, back⟩ := payload_ok read
      rw [← ok, parts, Option.map_some, back]

theorem formR_writes {c : Hd → α → β → Instr}
    (parts : ∀ r o x, (c ⟨g, r⟩ (of o) x).parts = some ⟨g, r.bits, opc, o, some (xbits x)⟩) :
    Form.Writes g opc (formR of xof xbits c) := by
  intro r o p i ok
  cases p with
  | none => cases ok
  | some e =>
    simp only [formR] at ok
    cases read : payload xof xbits e with
    | error _ => simp [read, Except.map] at ok
    | ok x =>
      simp only [read, Except.map, Except.ok.injEq] at ok
      obtain ⟨rfl, back⟩ := payload_ok read
      rw [← ok, parts, back]

theorem formSub_none_writes : Form.Writes g opc (formSub fun _ => none) := by
  intro r o p i ok
  cases ok

theorem formSub_ite_writes {f : Form} {rest : BitVec 2 → Option Form} {n : BitVec 2} (hf : f.Writes g opc)
    (hr : Form.Writes g opc (formSub rest)) : Form.Writes g opc (formSub fun s => if s = n then some f else rest s) := by
  intro r o p i ok
  simp only [formSub] at ok
  split at ok
  · rename_i k chosen
    split at chosen
    · cases chosen
      exact hf r o p i ok
    · exact hr r o p i (by simpa only [formSub, chosen] using ok)
  · cases ok

theorem formSL_writes {short long : Form} (s : Form.Writes g opc short) (l : Form.Writes g opc long) :
    Form.Writes g opc (formSL short long) := by
  intro r o p i ok
  cases p with
  | none => exact s r o none i ok
  | some e => exact l r o (some e) i ok

end Writes

/-! #### The opcode map -/

/-- Every row of a part of the opcode map is what its form writes. -/
def RowsWrite (g : Eng) (rows : List (Nat × Form)) : Prop := ∀ row ∈ rows, Form.Writes g row.1 row.2

theorem RowsWrite.append {g : Eng} {a b : List (Nat × Form)} (ha : RowsWrite g a) (hb : RowsWrite g b) :
    RowsWrite g (a ++ b) := fun row mem => (List.mem_append.1 mem).elim (ha row) (hb row)

theorem stbind_writes : Form.Writes .a 0x98 (formSub fun s =>
    if s = 0#2 then some (formS F3.of fun h o => .stbindOpen h.ring o)
    else if s = 1#2 then some (formS F3.of fun h o => .stbindAppend h.ring o)
    else if s = 2#2 then some (formS F3.of fun h o => .stbindCommit h.ring o)
    else if s = 3#2 then some (formS F3.of fun h o => .stbindClose h.ring o)
    else none) := by
  iterate 4
    apply formSub_ite_writes
    · simp [formS_writes, Instr.parts]
  exact formSub_none_writes

theorem trmark_writes : Form.Writes .a 0xA0 (formSub fun s =>
    if s = 0#2 then some (formS F3.of fun h o => .trmark h.ring o)
    else if s = 1#2 then some (formS F3.of fun h o => .trmarkL h.ring o)
    else none) := by
  iterate 2
    apply formSub_ite_writes
    · simp [formS_writes, Instr.parts]
  exact formSub_none_writes

theorem trspan_writes : Form.Writes .a 0xA1 (formSub fun s =>
    if s = 0#2 then some (formS F3.of fun h o => .trspanBegin h.ring o)
    else if s = 1#2 then some (formS F3.of fun h o => .trspanEnd h.ring o)
    else none) := by
  iterate 2
    apply formSub_ite_writes
    · simp [formS_writes, Instr.parts]
  exact formSub_none_writes

theorem nepi_writes : Form.Writes .m 0x67 (formSub fun s =>
    if s = 0#2 then some (formO F3.of XM.of XM.bits fun h o x => .nepi h.ring o x)
    else if s = 1#2 then some (formS F3.of fun h o => .nepiDef h.ring o)
    else none) := by
  iterate 2
    apply formSub_ite_writes
    · simp [formS_writes, formO_writes, Instr.parts]
  exact formSub_none_writes

theorem commonOps_write (g : Eng) : RowsWrite g commonOps := by
  have nop : Form.Writes g 0x00 (formN fun h => .nop h) := formN_writes fun _ => rfl
  have tri : Form.Writes g 0x14 (formN fun h => .tri h) := formN_writes fun _ => rfl
  refine .append (.append (.append ?_ ?_) ?_) ?_ <;>
    simp [RowsWrite, commonOps0, commonOps1, commonOps2, commonOps3, nop, tri, formS_writes, formO_writes,
      formR_writes, Instr.parts]

theorem aOps_write : RowsWrite .a aOps := by
  refine .append (.append ?_ ?_) ?_ <;>
    simp [RowsWrite, aOps0, aOps1, aOps2, formS_writes, formO_writes, formR_writes, stbind_writes, trmark_writes,
      trspan_writes, Instr.parts]

theorem xOps_write : RowsWrite .x xOps := by
  refine .append (.append ?_ ?_) ?_ <;>
    simp [RowsWrite, xOps0, xOps1, xOps2, formS_writes, formO_writes, formR_writes, formSL_writes, Instr.parts]

theorem mOps_write : RowsWrite .m mOps := by
  have ngo : Form.Writes .m 0x6B (formN fun h => .ngo h.ring) := formN_writes fun _ => rfl
  have nwait : Form.Writes .m 0x6C (formN fun h => .nwait h.ring) := formN_writes fun _ => rfl
  simp [RowsWrite, mOps, ngo, nwait, formS_writes, formO_writes, formR_writes, nepi_writes, Instr.parts]

theorem wOps_write : RowsWrite .w wOps := by
  have wcmpl : Form.Writes .w 0x64 (formN fun h => .wcmpl h.ring) := formN_writes fun _ => rfl
  have wflush : Form.Writes .w 0x65 (formN fun h => .wflush h.ring) := formN_writes fun _ => rfl
  simp [RowsWrite, wOps, wcmpl, wflush, formS_writes, formO_writes, Instr.parts]

theorem ownOps_write (g : Eng) : RowsWrite g (ownOps g) := by
  cases g
  · exact aOps_write
  · exact xOps_write
  · exact mOps_write
  · exact wOps_write

theorem mem_of_lookup {rows : List (Nat × Form)} {opc : Nat} {f : Form} (found : rows.lookup opc = some f) :
    (opc, f) ∈ rows := by
  induction rows with
  | nil => cases found
  | cons row rows ih =>
    obtain ⟨n, k⟩ := row
    rw [List.lookup_cons] at found
    split at found
    · rename_i same
      cases found
      rw [eq_of_beq same]
      exact List.mem_cons_self ..
    · exact List.mem_cons_of_mem _ (ih found)

theorem findForm_writes {g : Eng} {opc : Nat} {f : Form} (found : findForm g opc = some f) : f.Writes g opc := by
  simp only [findForm] at found
  split at found
  · exact commonOps_write g _ (mem_of_lookup found)
  · exact ownOps_write g _ (mem_of_lookup found)

/-! #### Joint words (R70) -/

/-- The operand bits of a joint word from its fields. -/
theorem joint_bits (o : BitVec 17) : fld o 12 5 ++ BitVec.ofBool (flag o 11) ++ fld o 2 9 ++ fld o 0 2 = o := by
  simp (disch := decide) only [ofBool_flag, fld_append_fld]
  exact fld_whole _

theorem decodeJoint_writes {rb : BitVec 4} {o : BitVec 17} {p : Option (BitVec 30)} {i : Instr}
    (ok : decodeJoint rb o p = .ok i) : i.parts = some ⟨.a, rb, 0xFF, o, p⟩ := by
  have bits := joint_bits o
  have sub : ∀ n : BitVec 5, (fld o 12 5).toNat = n.toNat → fld o 12 5 = n := fun n eq => BitVec.eq_of_toNat_eq eq
  simp only [decodeJoint] at ok
  generalize fld o 12 5 = a at ok bits sub
  generalize flag o 11 = t at ok bits
  generalize fld o 2 9 = rest at ok bits
  generalize fld o 0 2 = mhi at ok bits
  subst bits
  split at ok
  · cases ok
  split at ok
  · cases ok
  rename_i noExt
  split at ok
  · cases ok
  rename_i zero
  simp only [Bool.or_eq_true, Bool.and_eq_true, bne_iff_ne, not_or, not_and, ne_eq, Classical.not_not] at noExt zero
  obtain ⟨⟨⟨rfl, rfl⟩, mode⟩, phase⟩ := zero
  have plain : a.toNat ≠ 1 → p = none ∧ mhi = 0 := fun other => by
    refine ⟨?_, ?_⟩
    · refine Classical.byContradiction fun some' => ?_
      exact other (noExt (Option.isSome_iff_ne_none.2 some'))
    · refine Classical.byContradiction fun nonzero => ?_
      exact other (phase nonzero)
  have timed : a.toNat ≠ 2 → t = false := fun other => by
    cases t with
    | false => rfl
    | true => exact absurd (mode rfl) other
  clear noExt mode phase
  split at ok
  · rename_i n
    cases ok
    cases sub 0 n
    obtain ⟨rfl, rfl⟩ := plain (by decide)
    cases timed (by decide)
    rfl
  split at ok
  · rename_i n
    cases sub 1 n
    cases timed (by decide)
    cases p <;> cases ok <;> rfl
  split at ok
  · rename_i n
    cases ok
    cases sub 2 n
    obtain ⟨rfl, rfl⟩ := plain (by decide)
    rfl
  split at ok
  · rename_i n
    cases ok
    cases sub 3 n
    obtain ⟨rfl, rfl⟩ := plain (by decide)
    cases timed (by decide)
    rfl
  · cases ok
    cases sub 4 (by show _ = 4; omega)
    obtain ⟨rfl, rfl⟩ := plain (by decide)
    cases timed (by decide)
    rfl

/-- What parts decode to has these parts. -/
theorem Parts.decode_writes {q : Parts} {i : Instr} (ok : q.decode = .ok i) : i.parts = some q := by
  simp only [Parts.decode] at ok
  split at ok
  · rename_i joint
    obtain ⟨a, opc⟩ := joint
    rw [decodeJoint_writes ok, ← a, ← opc]
  · split at ok
    · cases ok
    · rename_i f found
      rw [findForm_writes found _ _ _ _ ok, Ring.bits_of]

theorem decode_of_words {w0 : W32} {w1 : Option W32} {i : Instr} (words : decodeWords w0 w1 = .ok i)
    (wf : i.wellFormed = true) : decode w0 w1 = .ok i := by simp only [decode, words, wf, if_true]

/-- Settles O56: the parts of an instruction and its words correspond (R60, R62), and each form of the opcode map reads
the bits that it writes. -/
theorem decodeEncode : Obligations.DecodeEncode := by
  refine ⟨fun i w following wf enc => ?_, fun w0 w1 i dec => ?_⟩
  · obtain ⟨q, parts, rfl⟩ := Option.map_eq_some_iff.1 enc
    have words := Parts.decodeWords_words (w1 := match q.ext with | some e => some e | none => following)
      (Instr.parts_opc_lt parts) fun long => by
        obtain ⟨e, payload⟩ := Option.isSome_iff_exists.1 long
        simp [Parts.ext, payload]
    exact decode_of_words (words.trans (Instr.decode_parts wf parts)) wf
  · have ok : decodeWords w0 w1 = .ok i ∧ i.wellFormed = true := by
      simp only [decode] at dec
      split at dec
      · cases dec
      · split at dec
        · cases dec
          exact ⟨by assumption, by assumption⟩
        · cases dec
    obtain ⟨words, wf⟩ := ok
    obtain ⟨present, owner⟩ := decodeWords_ok words
    refine ⟨wf, ?_⟩
    rw [decodeWords_eq present owner] at words
    rw [encode, Parts.decode_writes words, Option.map_some, Parts.first_wordParts present, Parts.ext_wordParts owner]
    rfl

end Sys2Proof

/-! ### Integer instructions: the two-source values of R147 -/

namespace Sys2Proof.Machine

theorem minSigned_eq (a b : Word) : minSigned a b = BitVec.ofInt 64 (min a.toInt b.toInt) := by
  by_cases less : b.toInt < a.toInt
  · simp [minSigned, BitVec.slt, less, Int.min_eq_right (Int.le_of_lt less)]
  · simp [minSigned, BitVec.slt, less, Int.min_eq_left (Int.not_lt.1 less)]

theorem maxSigned_eq (a b : Word) : maxSigned a b = BitVec.ofInt 64 (max a.toInt b.toInt) := by
  by_cases less : a.toInt < b.toInt
  · simp [maxSigned, BitVec.slt, less, Int.max_eq_right (Int.le_of_lt less)]
  · simp [maxSigned, BitVec.slt, less, Int.max_eq_left (Int.not_lt.1 less)]

theorem minUnsigned_eq (a b : Word) : minUnsigned a b = BitVec.ofNat 64 (min a.toNat b.toNat) := by
  by_cases less : b.toNat < a.toNat
  · simp [minUnsigned, BitVec.ult, less, Nat.min_eq_right (Nat.le_of_lt less)]
  · simp [minUnsigned, BitVec.ult, less, Nat.min_eq_left (Nat.not_lt.1 less)]

theorem maxUnsigned_eq (a b : Word) : maxUnsigned a b = BitVec.ofNat 64 (max a.toNat b.toNat) := by
  by_cases less : a.toNat < b.toNat
  · simp [maxUnsigned, BitVec.ult, less, Nat.max_eq_right (Nat.le_of_lt less)]
  · simp [maxUnsigned, BitVec.ult, less, Nat.max_eq_left (Nat.not_lt.1 less)]

theorem boolWord_ult (a b : Word) : boolWord (a.ult b) = if a.toNat < b.toNat then 1 else 0 := by
  simp only [boolWord, BitVec.ult, decide_eq_true_eq]

theorem boolWord_beq (a b : Word) : boolWord (a == b) = if a = b then 1 else 0 := by
  simp only [boolWord, beq_iff_eq]

/-- The upper half of an unsigned product. -/
theorem mulHigh_toNat (a b : Word) :
    mulHigh a.toNat b.toNat = BitVec.ofNat 64 (a.toNat * b.toNat / 2 ^ 64) := by
  rw [← BitVec.ofInt_natCast]
  rfl

/-- Settles O1: each instruction is an ALU instruction whose value is that of the table of R147. -/
theorem registerArithmeticResults : Obligations.RegisterArithmeticResults := by
  intro h o s a b l q
  refine ⟨fun goes => ?_, fun goes => ?_, fun goes => ?_, fun goes => ?_, fun goes => ?_, fun goes => ?_, fun goes => ?_,
    fun goes => ?_, fun goes => ?_, fun goes => ?_, fun goes => ?_, fun goes => ?_, fun goes => ?_, fun goes => ?_,
    fun goes => ?_, fun goes => ?_, fun goes => ?_, fun goes => ?_⟩
  · rw [exec_add]
    exact alu_gives goes
  · rw [exec_sub]
    exact alu_gives goes
  · rw [exec_mul]
    exact alu_gives goes
  · rw [exec_mulh]
    exact alu_gives goes
  · rw [exec_mulhu, ← mulHigh_toNat]
    exact alu_gives goes
  · rw [exec_and]
    exact alu_gives goes
  · rw [exec_or]
    exact alu_gives goes
  · rw [exec_xor]
    exact alu_gives goes
  · rw [exec_shl]
    exact alu_gives goes
  · rw [exec_shr]
    exact alu_gives goes
  · rw [exec_sra, ← sshiftRight_eq_div]
    exact alu_gives goes
  · rw [exec_min, ← minSigned_eq]
    exact alu_gives goes
  · rw [exec_max, ← maxSigned_eq]
    exact alu_gives goes
  · rw [exec_minu, ← minUnsigned_eq]
    exact alu_gives goes
  · rw [exec_maxu, ← maxUnsigned_eq]
    exact alu_gives goes
  · rw [exec_slt, ← boolWord_slt]
    exact alu_gives goes
  · rw [exec_sltu, ← boolWord_ult]
    exact alu_gives goes
  · rw [exec_seq, ← boolWord_beq]
    exact alu_gives goes

end Sys2Proof.Machine

/-! ### Control: branches, calls and returns (R133 to R135) -/

namespace Sys2Proof.Machine

theorem Strand.Reaches.checkTarget {t : Strand} {g : Eng} {n : Nat} (reach : t.Reaches g n) :
    t.checkTarget g n = none := Strand.checkTarget_none reach.1 reach.2.1 reach.2.2

/-- A target inside the slip window, kept in the loops around it. -/
theorem transfer_reaches {s : State} {g : Eng} {target : Int} {n : Nat} {wb : List Wb} (arrives : target = n)
    (reach : s.cur.Reaches g n) : transfer g target false wb s = .ok ⟨wb, some n⟩ s := by
  rw [arrives]
  exact transfer_keep reach.checkTarget

/-- A target inside the slip window, which leaves the loops that it lies outside of (R117). -/
theorem transfer_leaves {s : State} {g : Eng} {target : Int} {n : Nat} {wb : List Wb} (arrives : target = n)
    (reach : s.cur.Reaches g n) : transfer g target true wb s = .ok ⟨wb, some n⟩ (s.leavingLoops g n) := by
  rw [arrives]
  exact transfer_drop reach.checkTarget

theorem branch_run {s : State} {g : Eng} {off : Int} {n : Nat} (arrives : (s.pc g : Int) + off = n)
    (reach : s.cur.Reaches g n) : branch g off s = .ok ⟨[], some n⟩ (s.leavingLoops g n) :=
  transfer_leaves (s := s) arrives reach

/-! #### Conditional branches (R113, R134) -/

theorem canPublish_iff (s : State) (pub : BitVec 3) :
    s.canPublish pub ↔ ((pubEngines pub).all fun e => (s.cur.links.outc.get e).room) = true := by
  simp only [State.canPublish, Fifo.room, List.all_eq_true, decide_eq_true_eq]

section CondBranch

variable {s : State} {g : Eng} {pub : BitVec 3} {off : Int} {taken : Bool} {n : Nat}

theorem condBranch_full (full : ¬ s.canPublish pub) : condBranch g pub off taken s = .stop (.wait 7 s) := by
  rw [canPublish_iff, Bool.not_eq_true] at full
  simp [condBranch, full]

theorem condBranch_falls (room : s.canPublish pub) :
    condBranch g pub off false s = .ok (.of []) (s.publishing pub false) := by
  rw [canPublish_iff] at room
  simp [condBranch, room, State.publishing]

theorem condBranch_goes (room : s.canPublish pub) (arrives : (s.pc g : Int) + off = n) (reach : s.cur.Reaches g n) :
    condBranch g pub off true s = .ok ⟨[], some n⟩ ((s.leavingLoops g n).publishing pub true) := by
  rw [canPublish_iff] at room
  simp only [condBranch, Act.get_bind, room, Act.until_true, Act.then_bind, Act.pure_bind, if_true]
  rw [Act.bind_of_ok (branch_run arrives reach)]
  rfl

/-- How a conditional branch ends: it waits for room, goes on, or goes to its target. -/
theorem issue_condBranch {q : Issue} {body : List Word → Act Done} {vs : List Word} {l : Links} (goes : s.Goes q vs l)
    (branches : body vs s = condBranch q.g pub off taken s) :
    (¬ s.canPublish pub → issue q body s = .next (s.stall q.g 7)) ∧
    (s.canPublish pub → taken = false → issue q body s = (s.publishing pub false).ends q l) ∧
    (s.canPublish pub → taken = true → (s.pc q.g : Int) + off = n → s.cur.Reaches q.g n →
      issue q body s = ((s.leavingLoops q.g n).publishing pub true).goesTo q l [] n) := by
  refine ⟨fun full => ?_, fun room falls => ?_, fun room takes arrives reach => ?_⟩
  · exact issue_wait goes (branches.trans (condBranch_full full))
  · subst falls
    exact issue_ends goes (branches.trans (condBranch_falls room))
  · subst takes
    exact issue_goesTo goes (branches.trans (condBranch_goes room arrives reach))

end CondBranch

theorem compareBranch_ends {h : Hd} {opc : Nat} {o : FB} {x : Option XB} {c : Word → Word → Bool} {s : State} {a b : Word}
    {l : Links} {taken : Bool} {n : Nat} (goes : s.Goes (h.issue opc (lenOf x) [pop o.a, pop o.b] [] 1) [a, b] l)
    (same : c a b = taken) :
    (¬ s.canPublish (pubOfB x) → compareBranch h opc o x c s = .next (s.stall h.g 7)) ∧
    (s.canPublish (pubOfB x) → taken = false → compareBranch h opc o x c s =
      (s.publishing (pubOfB x) false).ends (h.issue opc (lenOf x) [pop o.a, pop o.b] [] 1) l) ∧
    (s.canPublish (pubOfB x) → taken = true → (s.pc h.g : Int) + o.offset x = n → s.cur.Reaches h.g n →
      compareBranch h opc o x c s = ((s.leavingLoops h.g n).publishing (pubOfB x) true).goesTo
        (h.issue opc (lenOf x) [pop o.a, pop o.b] [] 1) l [] n) := by
  subst same
  exact issue_condBranch goes rfl

theorem testBranch_ends {h : Hd} {opc : Nat} {o : FZ} {x : Option XZ} {c : Word → Bool} {s : State} {a : Word}
    {l : Links} {taken : Bool} {n : Nat} (goes : s.Goes (h.issue opc (lenOf x) [pop o.a] [] 1) [a] l)
    (same : c a = taken) :
    (¬ s.canPublish (pubOfZ x) → testBranch h opc o x c s = .next (s.stall h.g 7)) ∧
    (s.canPublish (pubOfZ x) → taken = false → testBranch h opc o x c s =
      (s.publishing (pubOfZ x) false).ends (h.issue opc (lenOf x) [pop o.a] [] 1) l) ∧
    (s.canPublish (pubOfZ x) → taken = true → (s.pc h.g : Int) + o.offset x = n → s.cur.Reaches h.g n →
      testBranch h opc o x c s = ((s.leavingLoops h.g n).publishing (pubOfZ x) true).goesTo
        (h.issue opc (lenOf x) [pop o.a] [] 1) l [] n) := by
  subst same
  exact issue_condBranch goes rfl

theorem beq_word (a b : Word) : (a == b) = decide (a = b) := rfl

theorem bne_word (a b : Word) : (a != b) = decide (a ≠ b) := decide_not.symm

theorem not_slt_eq_decide (a b : Word) : (!a.slt b) = decide (b.toInt ≤ a.toInt) := by
  simp only [BitVec.slt, ← decide_not, Int.not_lt]

theorem not_ult_eq_decide (a b : Word) : (!a.ult b) = decide (b.toNat ≤ a.toNat) := by
  simp only [BitVec.ult, ← decide_not, Nat.not_lt]

/-- Settles O5: every conditional branch ends as issue_condBranch says, with its own comparison. -/
theorem conditionalBranches : Obligations.ConditionalBranches := by
  intro h o x o' x' s a b l n p
  refine ⟨?_, ?_⟩ <;> intro e mem q pub goes <;> simp only [List.mem_cons, List.not_mem_nil, or_false] at mem
  · rcases mem with rfl | rfl | rfl | rfl | rfl | rfl
    · rw [exec_beq]
      exact compareBranch_ends goes (beq_word a b)
    · rw [exec_bne]
      exact compareBranch_ends goes (bne_word a b)
    · rw [exec_blt]
      exact compareBranch_ends (c := BitVec.slt) goes rfl
    · rw [exec_bge]
      exact compareBranch_ends goes (not_slt_eq_decide a b)
    · rw [exec_bltu]
      exact compareBranch_ends (c := BitVec.ult) goes rfl
    · rw [exec_bgeu]
      exact compareBranch_ends goes (not_ult_eq_decide a b)
  · rcases mem with rfl | rfl
    · rw [exec_bz]
      exact testBranch_ends goes (beq_word a 0)
    · rw [exec_bnz]
      exact testBranch_ends goes (bne_word a 0)

/-! #### Jumps, calls and returns (R114, R134, R135) -/

theorem registerTarget_ok {v : Word} (opc : Nat) (fits : v.toNat < 16384) : registerTarget v opc = Act.pure v.toNat := by
  simp [registerTarget, fits]

theorem registerTarget_range {v : Word} {opc : Nat} {β : Type} {f : Nat → Act β} {s : State} (big : 16384 ≤ v.toNat) :
    (registerTarget v opc).bind f s = .stop (.trap tRANGE [v, w64 opc]) := by
  simp [registerTarget, Nat.not_lt.2 big]

theorem lenOf_eq {α : Type} (x : Option α) : lenOf x = if x = none then 1 else 2 := by cases x <;> simp [lenOf]

/-- Settles O6: the target passes the checks of a transfer, so that each body goes there. -/
theorem jumpsCallsAndReturns : Obligations.JumpsCallsAndReturns := by
  intro h o x s a l n p qb qf qc qr qj outcomes
  refine ⟨fun goes arrives reach => ?_, fun rest goes head arrives reach => ?_, fun rest goes head => ?_,
    fun goes empty more => ?_, fun goes empty done => ?_, fun goes arrives reach => ?_, fun goes arrives fits reach => ?_,
    fun goes fits arrives reach => ?_, fun goes big => ?_, fun goes big => ?_⟩
  · rw [exec_b]
    exact issue_goesTo goes (branch_run arrives reach)
  · rw [exec_bfol]
    refine issue_goesTo goes ?_
    simp only [Act.get_bind, show (s.cur.links.outc.get h.g).q = true :: rest from head, if_true]
    rw [Act.bind_of_ok (branch_run arrives reach)]
    rfl
  · rw [exec_bfol]
    refine issue_ends goes ?_
    simp only [Act.get_bind, show (s.cur.links.outc.get h.g).q = false :: rest from head]
    rfl
  · rw [exec_bfol]
    refine issue_wait goes ?_
    simp only [Act.get_bind, show (s.cur.links.outc.get h.g).q = [] from empty, more]
    rfl
  · rw [exec_bfol]
    refine issue_trap goes ?_
    simp only [Act.get_bind, show (s.cur.links.outc.get h.g).q = [] from empty, done]
    rfl
  · rw [exec_call]
    refine issue_goesTo goes ?_
    rw [← lenOf_eq]
    exact transfer_reaches arrives reach
  · rw [exec_ret]
    refine issue_goesTo goes ?_
    rw [List.headD_cons, registerTarget_ok _ (arrives ▸ fits)]
    exact transfer_reaches (congrArg Nat.cast arrives) reach
  · rw [exec_jr]
    refine issue_goesTo goes ?_
    rw [List.headD_cons, registerTarget_ok _ fits]
    exact transfer_leaves arrives reach
  · rw [exec_ret]
    exact issue_trap goes (registerTarget_range big)
  · rw [exec_jr]
    exact issue_trap goes (registerTarget_range big)

/-! #### Targets that cannot be reached (R61, R100, R132) -/

section TransferStops

variable {s : State} {g : Eng} {target : Int} {n : Nat} {drop : Bool} {wb : List Wb}

theorem transfer_negative (below : target < 0) :
    transfer g target drop wb s = .stop (.trap tPROTECT [BitVec.ofInt 64 target]) := by
  obtain ⟨m, rfl⟩ := Int.eq_negSucc_of_lt_zero below
  rfl

theorem transfer_outside (arrives : target = n) (outside : s.cur.text.length ≤ n) :
    transfer g target drop wb s = .stop (.trap tPROTECT [BitVec.ofNat 64 n]) := by
  subst arrives
  exact transfer_trap (by simp [Strand.checkTarget, outside, w64])

theorem transfer_continuation (arrives : target = n) (inside : n < s.cur.text.length)
    (cont : isCont s.cur.text n = true) :
    transfer g target drop wb s = .stop (.trap tILLEGAL (s.cur.illegalArgs g)) := by
  subst arrives
  exact transfer_trap (by simp [Strand.checkTarget, Nat.not_le.2 inside, cont])

theorem transfer_below (arrives : target = n) (inside : n < s.cur.text.length) (first : isCont s.cur.text n = false)
    (low : n + s.cur.sys.win.toNat < s.cur.pc0.maxOther g) :
    transfer g target drop wb s = .stop (.trap tWINDOW
      [BitVec.ofNat 64 n, BitVec.ofNat 64 s.cur.sys.win.toNat, BitVec.ofNat 64 (s.cur.pc0.maxOther g)]) := by
  subst arrives
  exact transfer_trap (by simp [Strand.checkTarget, Nat.not_le.2 inside, first, Strand.below, low, windowArgs, w64])

/-- How an instruction ends whose body is a transfer that fails a check. -/
theorem issue_transfer_traps {q : Issue} {body : List Word → Act Done} {vs : List Word} {l : Links} (goes : s.Goes q vs l)
    (transfers : body vs s = transfer q.g target drop wb s) :
    (target < 0 → issue q body s = .next (s.takeTrap q.g tPROTECT [BitVec.ofInt 64 target])) ∧
    (target = n → s.cur.text.length ≤ n → issue q body s = .next (s.takeTrap q.g tPROTECT [BitVec.ofNat 64 n])) ∧
    (target = n → n < s.cur.text.length → isCont s.cur.text n = true →
      issue q body s = .next (s.takeTrap q.g tILLEGAL (s.cur.illegalArgs q.g))) ∧
    (target = n → n < s.cur.text.length → isCont s.cur.text n = false →
      n + s.cur.sys.win.toNat < s.cur.pc0.maxOther q.g →
      issue q body s = .next (s.takeTrap q.g tWINDOW
        [BitVec.ofNat 64 n, BitVec.ofNat 64 s.cur.sys.win.toNat, BitVec.ofNat 64 (s.cur.pc0.maxOther q.g)])) :=
  ⟨fun below => issue_trap goes (transfers.trans (transfer_negative below)),
    fun arrives outside => issue_trap goes (transfers.trans (transfer_outside arrives outside)),
    fun arrives inside cont => issue_trap goes (transfers.trans (transfer_continuation arrives inside cont)),
    fun arrives inside first low => issue_trap goes (transfers.trans (transfer_below arrives inside first low))⟩

end TransferStops

/-- Settles O7: the body of each of the four is one transfer. -/
theorem transferTraps : Obligations.TransferTraps := by
  intro h o x s a l n p qb qc qr qj e mem fits goes
  simp only [List.mem_cons, List.not_mem_nil, or_false] at mem
  rcases mem with rfl | rfl | rfl | rfl
  · rw [exec_b]
    exact issue_transfer_traps goes rfl
  · rw [exec_call]
    exact issue_transfer_traps goes rfl
  · rw [exec_ret]
    exact issue_transfer_traps goes (by rw [List.headD_cons, registerTarget_ok _ fits]; rfl)
  · rw [exec_jr]
    exact issue_transfer_traps goes (by rw [List.headD_cons, registerTarget_ok _ fits]; rfl)

/-! ### Control: loops (R136, R137) -/

section Loops

variable {s : State} {g : Eng} {lv len e n : Nat}

theorem startLoop_starts (some' : 0 < n) :
    startLoop g lv len e n s = .ok (.of []) (s.setEng g fun en => { en with
      levels := en.levels.set lv ⟨true, s.pc g + len, s.pc g + e, BitVec.ofNat 32 n, en.starts⟩
      starts := en.starts + 1 }) := by
  simp [startLoop, Nat.ne_of_gt some']

theorem startLoop_skips (none' : n = 0) (reach : s.cur.Reaches g (s.pc g + e + 1)) :
    startLoop g lv len e n s = .ok ⟨[], some (s.pc g + e + 1)⟩ s := by
  simp only [startLoop, Act.get_bind, none', if_true]
  exact transfer_reaches rfl reach

end Loops

/-- A change of an engine that gives the same from what the engine is. -/
theorem setEng_congr {s : State} {g : Eng} {f k : Engine → Engine} (same : f (s.cur.engine g) = k (s.cur.engine g)) :
    s.setEng g f = s.setEng g k := by
  simp only [Strand.engine] at same
  simp only [State.setEng, State.setCur, Strand.setEngine, same]

/-- The levels after BRKL of level i, which was l: it ends, and so does every level started at or after it (R137). -/
def Level.broken (ls : List Level) (i : Nat) (l : Level) : List Level :=
  (ls.set i { l with cnt := 0, active := false }).map fun k =>
    if k.active ∧ l.ord ≤ k.ord then { k with active := false } else k

theorem Level.getElem?_broken {ls : List Level} {i j : Nat} {m : Level} (at' : ls[j]? = some m) :
    (Level.broken ls i (ls.getD i .off))[j]? = some { m with
      cnt := if j = i then 0 else m.cnt
      active := m.active && decide (j ≠ i) && decide (m.ord < (ls.getD i .off).ord) } := by
  have inside : j < ls.length := (List.getElem?_eq_some_iff.1 at').1
  by_cases same : j = i
  · subst same
    have level : ls.getD j .off = m := by simp [at']
    simp only [Level.broken, level, List.getElem?_map, List.getElem?_set_self inside, Option.map_some]
    simp
  · have other : (ls.set i { ls.getD i .off with cnt := 0, active := false })[j]? = some m := by
      rw [List.getElem?_set_ne (Ne.symm same), at']
    generalize ls.getD i .off = l at other ⊢
    simp only [Level.broken, List.getElem?_map, other, Option.map_some, same, if_false]
    by_cases newer : m.active ∧ l.ord ≤ m.ord
    · simp [newer, Nat.not_lt.2 newer.2]
    · rw [if_neg newer]
      cases active : m.active with
      | false => cases m; simp_all
      | true =>
        have older : m.ord < l.ord := by simpa [active] using newer
        cases m
        simp_all

/-- An encoding that rests on the state and is not legal in it (R78 check 7). -/
theorem issue_illegal {q : Issue} {body : List Word → Act Done} {s : State} (illegal : q.legal = false) :
    issue q body s = .next (s.takeTrap q.g tILLEGAL (s.cur.illegalArgs q.g)) := by
  simp [issue, illegal]

/-- The count that LOOP takes: an extent or its source (R136). -/
def loopCount (x : Option XL) (t : Strand) (vs : List Word) : Word :=
  match x with
  | some l => if l.kind then (t.ext l.sh.toNat l.ext.toNat).setWidth 64 else vs.headD 0
  | none => vs.headD 0

/-- What LOOP does with its count. -/
def loopBody (h : Hd) (o : FL) (x : Option XL) (c : Word) : Act Done :=
  (Act.check (decide (c.toNat < 2 ^ 32)) tRANGE [c, w64 0x0E]).andThen
    (startLoop h.g o.lv.toNat (lenOf x) (loopEnd o x) c.toNat)

/-- Settles O8: a loop starts a level or transfers past its body; BRKL transfers past it and ends levels. -/
theorem hardwareLoops : Obligations.HardwareLoops := by
  intro h o x k s c vs l p e ek shaped named ql qi count lv qb source
  have counts : loopCount x s.cur vs = c := by
    cases x with
    | none => rw [show vs = [c] from source]; rfl
    | some y =>
      simp only at source
      split at source
      · rename_i kind
        rw [loopCount, if_pos kind, source]
      · rename_i kind
        rw [loopCount, if_neg kind, source]
        rfl
  refine ⟨fun goes big => ?_, fun goes pos fits => ?_, fun goes zero reach => ?_, fun goes pos => ?_,
    fun goes zero reach => ?_, fun goes reach => ?_, fun bad => ?_⟩
  · rw [exec_loop]
    refine issue_trap goes ?_
    show loopBody h o x (loopCount x s.cur vs) s = _
    simp only [counts, loopBody, Nat.not_lt.2 big, decide_false]
    rfl
  · rw [exec_loop]
    refine issue_ends goes ?_
    show loopBody h o x (loopCount x s.cur vs) s = _
    simp only [counts, loopBody, fits, decide_true, Act.check_true, Act.then_bind, Act.pure_bind]
    exact startLoop_starts pos
  · rw [exec_loop]
    refine issue_goesTo goes ?_
    show loopBody h o x (loopCount x s.cur vs) s = _
    simp only [counts, loopBody, zero]
    exact startLoop_skips (lv := o.lv.toNat) (len := lenOf x) rfl reach
  · simp only [exec_loopi, execLoopi]
    refine issue_ends goes ?_
    exact startLoop_starts pos
  · simp only [exec_loopi, execLoopi]
    refine issue_goesTo goes ?_
    exact startLoop_skips zero reach
  · refine ⟨s.setEng h.g fun en => { en with levels := Level.broken en.levels o.lv.toNat lv }, ?_, ?_, ?_⟩
    · simp only [exec_brkl, execBrkl]
      refine issue_goesTo goes ?_
      rw [Act.bind_of_ok (transfer_reaches rfl reach)]
      rfl
    · exact setEng_congr (by simp)
    · intro j m at'
      simp only [State.setEng_cur, Strand.setEngine_engine]
      exact Level.getElem?_broken at'
  · simp only [exec_brkl, execBrkl]
    refine issue_illegal ?_
    rcases bad with handler | off
    · simp [handler]
    · simp only [show ((s.cur.engine h.g).level o.lv.toNat).active = false from off, Bool.and_false]

end Sys2Proof.Machine

/-! ### NOP, WAITT, FENCE and TRI (R125, R138, R141, R287) -/

namespace Sys2Proof.Machine

/-- A WAITT decides by its source whether its engine is held (R141). -/
theorem execWaitt_eq {h : Hd} {o : F3} {s : State} {a : Word} {l : Links}
    (reads : s.cur.readSrcs h.g [pop o.a] s.cur.links = .ok [a] l) :
    execWaitt h o s = issue { h.issue 0x15 1 [pop o.a] [] 1 with async := decide (s.ns < a.toNat) }
      (fun vs => Act.get.bind fun s =>
        (if s.ns < (vs.headD 0).toNat then
          Act.modify fun s => s.setEng h.g fun e => { e with wait := some ⟨vs.headD 0, h.ring.sp, h.ring.sn⟩ }
        else Act.pure ()).andThen noResult) s := by
  simp only [execWaitt, reads, List.headD_cons]

/-- What a FENCE waits for (R287). -/
def State.fencePasses (s : State) (imm : BitVec 12) (since : Nat) : Bool :=
  s.cur.fencePassed imm since && !s.accessesOut imm && (getBits imm 8 3 != 4 || !s.sendsOut imm)

theorem fencePasses_iff (s : State) (imm : BitVec 12) (since : Nat) :
    s.fencePasses imm since = true ↔
      (∀ op ∈ s.cur.ops, op.done = true ∨ imm.getLsbD op.kind.path = false ∨ since ≤ op.issued) ∧
      (imm.getLsbD 2 = true → ∀ n ∈ s.cur.nest.toList ++ s.cur.pend.toList, since ≤ n.issued) ∧
      s.accessesOut imm = false ∧ (imm.toNat / 256 % 8 = 4 → s.sendsOut imm = false) := by
  have scope : getBits imm 8 3 = imm.toNat / 256 % 8 := rfl
  simp only [State.fencePasses, Strand.fencePassed, flag, scope, Bool.and_eq_true, Bool.or_eq_true, List.all_eq_true,
    decide_eq_true_eq, Bool.not_eq_true', bne_iff_ne, ne_eq, or_assoc, and_assoc, Decidable.imp_iff_not_or,
    Bool.not_eq_true]

/-- FENCE ends once everything it waits for has passed, counted from its first attempt. -/
theorem issue_fence {h : Hd} {f : FU} {s : State} {l : Links} (goes : s.Goes (h.issue 0x16 1 [] [] 1) [] l) :
    let since := (s.cur.engine h.g).since.getD s.clock
    let waiting := s.setEng h.g fun e => { e with since := some since }
    (s.fencePasses f.imm since = true → execFence h f s = waiting.ends (h.issue 0x16 1 [] [] 1) l) ∧
    (s.fencePasses f.imm since = false → execFence h f s = .next (waiting.stall h.g 0)) := by
  refine ⟨fun passes => ?_, fun waits => ?_⟩
  · refine issue_ends goes ?_
    show (Act.until (State.fencePasses s f.imm _) 0).andThen noResult _ = _
    rw [passes]
    rfl
  · refine issue_wait goes ?_
    show (Act.until (State.fencePasses s f.imm _) 0).andThen noResult _ = _
    rw [waits]
    rfl

/-- Settles O10: WAITT by its source, FENCE by what it waits for, TRI by the word that it moves to. -/
theorem nopWaittFenceTri : Obligations.NopWaittFenceTri := by
  intro h o f s a l qn qw qf since waiting passed next
  refine ⟨fun goes => ?_, fun goes due => ?_, fun goes later => ?_, fun goes pass => ?_, fun goes wait => ?_,
    fun moves ok => ?_, fun moves bad => ?_⟩
  · rw [exec_nop]
    exact issue_ends goes rfl
  · have due' : ¬ s.ns < a.toNat := Nat.not_lt.2 due
    rw [exec_waitt, execWaitt_eq goes.reads, decide_eq_false due']
    refine issue_ends goes ?_
    simp only [Act.get_bind, List.headD_cons, due', if_false]
    rfl
  · rw [exec_waitt, execWaitt_eq goes.reads, decide_eq_true later]
    refine issue_ends goes ?_
    simp only [Act.get_bind, List.headD_cons, later, if_true]
    rfl
  · rw [exec_fence]
    exact (issue_fence goes).1 ((fencePasses_iff ..).2 pass)
  · rw [exec_fence]
    refine (issue_fence goes).2 (Bool.eq_false_iff.2 fun pass => wait ((fencePasses_iff ..).1 pass))
  · rw [exec_tri]
    simp only [execTri, moves]
    rw [if_pos ok]
  · rw [exec_tri]
    simp only [execTri, moves]
    rw [if_neg (by rw [bad]; decide)]

/-! ### System registers (R140, R142, R143) -/

theorem w64_b2n (b : Bool) : w64 (b2n b) = if b then 1 else 0 := by cases b <;> rfl

/-- The limits of a written system register. -/
theorem sysValueOk_iff {i : Nat} {v : Word} (writable : i ∈ [4, 5, 6, 19, 20, 21, 27, 28, 29, 30]) :
    let n := v.toNat
    sysValueOk i v = true ↔
      (i = 4 → 16 ≤ n ∧ n ≤ 256) ∧ (i = 5 → n < 2 ^ 32 ∧ (n = 0 ∨ 1024 ≤ n)) ∧ (i = 6 → n < 128) ∧
       (i = 19 → n < 2 ^ 32 ∧ n / 2 ^ 14 % 2 ^ 17 = 0) ∧
       (i = 20 → n < 2 ^ 27 ∧ v.getLsbD 0 = false ∧ v.getLsbD 18 = false) ∧
       (i = 21 → n < 16384) ∧ (i = 27 → n ≤ 1) ∧ (28 ≤ i → n < 2 ^ 32) := by
  intro n
  simp only [List.mem_cons, List.not_mem_nil, or_false] at writable
  rcases writable with rfl | rfl | rfl | rfl | rfl | rfl | rfl | rfl | rfl | rfl <;>
    simp [sysValueOk, getBits, n, and_assoc]

theorem setWidth_setWidth_of_lt {v : Word} {w : Nat} (fits : v.toNat < 2 ^ w) :
    (v.setWidth w).setWidth 64 = v := by
  apply BitVec.eq_of_toNat_eq
  simp only [BitVec.toNat_setWidth, Nat.mod_eq_of_lt fits, Nat.mod_eq_of_lt v.isLt]

/-- The loop counters are one of the set-aside levels and the engine's own (R129). -/
theorem Strand.loopCounter_setSys {t : Strand} {g : Eng} {k : Nat} {v : Word} (level : k < 3)
    (three : (match t.aside with | some a => a.levels.get g | none => (t.engine g).levels).length = 3) :
    (t.setSys g (28 + k) v).loopCounter g k = v.setWidth 32 := by
  have counter : ∀ ls : List Level, ls.length = 3 →
      ((upd ls k fun l => { l with cnt := v.setWidth 32 }).getD k .off).cnt = v.setWidth 32 := by
    intro ls len
    have inside : k < ls.length := len ▸ level
    simp [upd, inside]
  have arm : t.setSys g (28 + k) v =
      let f := fun (ls : List Level) => upd ls k fun l => { l with cnt := v.setWidth 32 }
      match t.aside with
      | some a => { t with aside := some { a with levels := a.levels.set g (f (a.levels.get g)) } }
      | none => t.setEngine g fun e => { e with levels := f e.levels } := by
    have cases : k = 0 ∨ k = 1 ∨ k = 2 := by omega
    rcases cases with rfl | rfl | rfl <;> rfl
  rw [arm]
  cases aside : t.aside with
  | none =>
    rw [aside] at three
    simpa [Strand.loopCounter, aside] using counter _ three
  | some a =>
    rw [aside] at three
    simpa [Strand.loopCounter] using counter _ three

/-- A system register reads what was written to it within its limits. -/
theorem Strand.sysReg_setSys {t : Strand} {ns : Nat} {g : Eng} {i : Nat} {v : Word}
    (writable : i ∈ [4, 5, 6, 19, 20, 21, 27, 28, 29, 30]) (fits : sysValueOk i v = true) (notRet : i ≠ 27)
    (three : (match t.aside with | some a => a.levels.get g | none => (t.engine g).levels).length = 3) :
    (t.setSys g i v).sysReg ns g i = v := by
  have limits := (sysValueOk_iff writable).1 fits
  obtain ⟨win, stl, vfmt, tvec, tmask, tepc, -, loops⟩ := limits
  have counter : ∀ k, k < 3 → v.toNat < 2 ^ 32 →
      ((t.setSys g (28 + k) v).loopCounter g k).setWidth 64 = v := by
    intro k level small
    rw [Strand.loopCounter_setSys level three, setWidth_setWidth_of_lt small]
  simp only [List.mem_cons, List.not_mem_nil, or_false] at writable
  rcases writable with rfl | rfl | rfl | rfl | rfl | rfl | rfl | rfl | rfl | rfl
  · exact setWidth_setWidth_of_lt (by have := (win rfl).2; omega)
  · exact setWidth_setWidth_of_lt (stl rfl).1
  · exact setWidth_setWidth_of_lt (vfmt rfl)
  · exact setWidth_setWidth_of_lt (tvec rfl).1
  · exact setWidth_setWidth_of_lt (by have := (tmask rfl).1; omega)
  · show (((t.setEngine g fun e => { e with tepc := v.setWidth 14 }).engine g).tepc).setWidth 64 = v
    rw [Strand.setEngine_engine]
    exact setWidth_setWidth_of_lt (tepc rfl)
  · exact absurd rfl notRet
  · exact counter 0 (by decide) (loops (by decide))
  · exact counter 1 (by decide) (loops (by decide))
  · exact counter 2 (by decide) (loops (by decide))

/-- Settles O11: GETS gives the row of its index, SETS leaves its write for the end of the tick. -/
theorem systemRegisterAccess : Obligations.SystemRegisterAccess := by
  refine ⟨?_, ?_⟩
  · intro h o s l q t e levels goes
    have table : ∀ r : Nat × Word, o.imm.toNat = r.1 → t.sysReg s.ns h.g r.1 = r.2 →
        exec (.gets h o) s = s.gives q l o.d r.2 := by
      intro r index value
      rw [exec_gets]
      refine issue_gives goes ?_
      simp only [Act.get_bind, result_eq, index, Act.pure_run]
      rw [value]
    simp only [List.forall_mem_cons, List.not_mem_nil, false_implies, implies_true, and_true]
    refine ⟨?_, ?_, ?_, ?_, ?_, ?_, ?_, ?_, ?_, ?_, ?_, ?_, ?_, ?_, ?_, ?_, ?_, ?_, ?_, ?_, ?_, ?_, ?_, ?_, ?_, ?_, ?_, ?_,
      ?_, ?_, ?_⟩ <;> intro index <;> refine table (_, _) index ?_
    case refine_8 => exact w64_b2n _
    all_goals rfl
  · intro h o s v l i q n fits writable goes
    refine ⟨fun ok => ⟨?_, fun notRet three => ?_⟩, fun bad => ?_⟩
    · rw [exec_sets]
      refine issue_ends goes ?_
      simp only [List.headD_cons, show sysValueOk o.imm.toNat v = true from (sysValueOk_iff writable).2 ok]
      rfl
    · exact Strand.sysReg_setSys writable ((sysValueOk_iff writable).2 ok) notRet three
    · rw [exec_sets]
      refine issue_trap goes ?_
      have no : sysValueOk i v = false := Bool.eq_false_iff.2 fun ok => bad ((sysValueOk_iff writable).1 ok)
      simp only [List.headD_cons, show sysValueOk o.imm.toNat v = false from no]
      show Res.stop (Stop.trap tRANGE [v, w64 o.imm.toNat]) = _
      rw [w64, BitVec.ofNat_toNat]

end Sys2Proof.Machine

/-! ### The frame of an instruction on scalar registers -/

namespace Sys2Proof.Machine

/-- The strand's state of life and its system registers stay. -/
structure State.Steady (s t : State) : Prop where
  st : t.cur.st = s.cur.st
  sys : t.cur.sys = s.cur.sys

theorem State.Steady.refl (s : State) : s.Steady s := ⟨rfl, rfl⟩

theorem State.Steady.trans {r s t : State} (h : r.Steady s) (k : s.Steady t) : r.Steady t :=
  ⟨k.st.trans h.st, k.sys.trans h.sys⟩

theorem State.Steady.of_counts {s t : State} (h : s.Counts t) : s.Steady t := ⟨by rw [h.cur], by rw [h.cur]⟩

theorem State.Steady.of_moves {s : State} {t : Strand} (h : s.cur.MovesOnly t) : s.Steady { s with cur := t } := by
  obtain ⟨e, rfl⟩ := h
  exact ⟨rfl, rfl⟩

/-- The system registers stay unless a trap changes the strand's state of life. -/
structure State.Settles (s t : State) : Prop where
  sys : s.cur.runs = true → t.cur.st = s.cur.st → t.cur.sys = s.cur.sys

theorem State.Steady.settles {s t : State} (h : s.Steady t) : s.Settles t := ⟨fun _ _ => h.sys⟩

theorem State.Steady.then_settles {r s t : State} (h : r.Steady s) (k : s.Settles t) : r.Settles t := by
  refine ⟨fun runs st => ?_⟩
  have runs' : s.cur.runs = true := by simpa only [Strand.runs, h.st] using runs
  exact (k.sys runs' (st.trans h.st.symm)).trans h.sys

theorem takeTrap_settles (s : State) (g : Eng) (code : Nat) (args : List Word) : s.Settles (s.takeTrap g code args) :=
  ⟨fun runs st => absurd st (takeTrap_st runs)⟩

/-! #### The operations of the issue stage -/

theorem setEng_steady (s : State) (g : Eng) (f : Engine → Engine) : s.Steady (s.setEng g f) := ⟨rfl, rfl⟩

theorem stall_steady (s : State) (g : Eng) (why : Nat) : s.Steady (s.stall g why) :=
  (setEng_steady ..).trans (.of_counts (countCur_counts ..))

theorem tickOn_steady {s : State} {g : Eng} (calm : g = .x → s.cur.Calm) : s.Steady (s.tickOn g) := by
  simp only [State.tickOn, landed_calm calm]
  split <;> exact ⟨rfl, rfl⟩

theorem bubble_steady {s : State} {g : Eng} (calm : g = .x → s.cur.Calm) : s.Steady (s.bubble g) :=
  (setEng_steady ..).trans (tickOn_steady fun k => (calm k).of_same rfl rfl)

theorem unhold_steady (s : State) (g : Eng) (op : Option Nat) : s.Steady (s.unhold g op) := by
  simp only [State.unhold]
  split <;> exact ⟨rfl, rfl⟩

theorem voteDone_steady (s : State) : s.Steady s.voteDone := ⟨rfl, rfl⟩

theorem Strand.write_st (t : Strand) (g : Eng) (n : BitVec 5) (v : Word) : (t.write g (.reg n v)).st = t.st := by
  simp only [Strand.write]
  split
  · rfl
  · exact Strand.setReg_st ..

theorem Strand.foldl_write_st {g : Eng} {d : Option (BitVec 5)} {wb : List Wb} :
    ∀ {t : Strand}, Wb.only d wb → (wb.foldl (fun t w => t.write g w) t).st = t.st := by
  induction wb with
  | nil => exact fun _ => rfl
  | cons w wb ih =>
    intro t only
    obtain ⟨n, v, -, rfl⟩ := only w (by simp)
    exact (ih fun w mem => only w (by simp [mem])).trans (Strand.write_st t g n v)

theorem Strand.deliver_st {t : Strand} {g : Eng} {d : Option (BitVec 5)} {lat : Nat} {wb : List Wb} {sp sn : Bool}
    (only : Wb.only d wb) : (t.deliver g lat wb sp sn).st = t.st := by
  simp only [Strand.deliver]
  split
  · rfl
  · split
    · rfl
    · exact Strand.foldl_write_st only

theorem deliver_steady {s : State} {q : Issue} {d : Option (BitVec 5)} {links : Links → Links} {wb : List Wb}
    (only : Wb.only d wb) (calm : q.g = .x → s.cur.Calm) : s.Steady (s.deliver q links wb) := by
  simp only [State.deliver, healVecs_only only]
  refine .trans ?_ (.of_counts (countCur_counts ..))
  refine .trans ?_ (tickOn_steady ?_)
  · refine .trans ?_ (setEng_steady ..)
    exact ⟨Strand.deliver_st only, (Strand.deliver_writes only).2.1⟩
  · intro k
    refine Strand.Calm.of_same (s := Strand.deliver _ _ _ _ _ _) (Strand.deliver_calm ?_) rfl rfl
    refine (calm k).of_same rfl ?_
    cases q.unit <;> rfl

theorem leaveWord_settles (s : State) (g : Eng) (len : Nat) (goto : Option Nat) : s.Settles (s.leaveWord g len goto) := by
  have moved : ∀ r : Strand × Option (List Word), s.cur.MovesOnly r.1 →
      s.Settles (match r.2 with
        | some args => State.takeTrap { s with cur := r.1 } g tWINDOW args
        | none => { s with cur := r.1 }) := by
    intro r moves
    split
    · exact (State.Steady.of_moves moves).then_settles (takeTrap_settles ..)
    · exact (State.Steady.of_moves moves).settles
  simp only [State.leaveWord]
  cases goto with
  | none => exact moved _ (moveOn_movesOnly ..)
  | some n => exact moved _ ((Strand.setEngine_movesOnly ..).trans (moveTo_movesOnly ..))

/-! #### Bodies -/

/-- What a body on scalar registers leaves of the machine when it ends or waits. -/
structure State.Mild (s t : State) : Prop where
  holds : s.Holds t
  steady : s.Steady t
  fl : t.cur.fl = s.cur.fl
  timed : t.cur.x.timed = s.cur.x.timed

theorem State.Mild.refl (s : State) : s.Mild s := ⟨.refl s, .refl s, rfl, rfl⟩

theorem State.Mild.trans {r s t : State} (h : r.Mild s) (k : s.Mild t) : r.Mild t :=
  ⟨h.holds.trans k.holds, h.steady.trans k.steady, k.fl.trans h.fl, k.timed.trans h.timed⟩

theorem setEng_mild (s : State) (g : Eng) (f : Engine → Engine) : s.Mild (s.setEng g f) :=
  ⟨setEng_holds .., setEng_steady .., rfl, rfl⟩

theorem setLinks_mild (s : State) (f : Strand → Links) : s.Mild (s.setCur fun t => { t with links := f t }) :=
  ⟨setCur_holds (by simp [Strand.Keeps]) rfl rfl, ⟨rfl, rfl⟩, rfl, rfl⟩

section Act

variable {α β : Type}

/-- The outcome leaves the machine mildly changed, or is a trap. -/
def Res.Mild (s : State) : Res α → Prop
  | .ok _ u => s.Mild u
  | .stop (.trap ..) => True
  | .stop (.wait _ u) => s.Mild u
  | .stop _ => False

/-- An action that leaves the machine mildly changed, or traps. -/
structure Act.Mild (x : Act α) : Prop where
  ran : ∀ s, Res.Mild s (x s)

theorem Res.Mild.after {s u : State} {r : Res α} (h : s.Mild u) (k : Res.Mild u r) : Res.Mild s r := by
  cases r with
  | ok a w => exact h.trans k
  | stop r =>
    cases r with
    | trap => trivial
    | wait => exact h.trans k
    | _ => exact k.elim

theorem Res.Mild.stop {s : State} {r : Stop} (h : Res.Mild s (.stop r : Res α)) : Res.Mild s (.stop r : Res β) := by
  cases r <;> exact h

theorem Act.Mild.pure (a : α) : (Act.pure a).Mild := ⟨fun s => .refl s⟩
theorem Act.Mild.get : Act.get.Mild := ⟨fun s => .refl s⟩
theorem Act.Mild.trap (c : Nat) (args : List Word) : (Act.trap c args : Act α).Mild := ⟨fun _ => trivial⟩
theorem Act.Mild.wait (why : Nat) : (Act.wait why : Act α).Mild := ⟨fun s => .refl s⟩
theorem Act.Mild.modify {f : State → State} (h : ∀ s : State, s.Mild (f s)) : (Act.modify f).Mild := ⟨h⟩

theorem Act.Mild.bind {x : Act α} {f : α → Act β} (hx : x.Mild) (hf : ∀ a, (f a).Mild) : (x.bind f).Mild := by
  refine ⟨fun s => ?_⟩
  have h := hx.ran s
  cases run : x s with
  | ok a u =>
    rw [Act.bind_of_ok run]
    rw [run] at h
    exact .after h ((hf a).ran u)
  | stop r =>
    rw [Act.bind_of_stop run]
    rw [run] at h
    exact h.stop

theorem Act.Mild.then' {x : Act α} {y : Act β} (hx : x.Mild) (hy : y.Mild) : (x.andThen y).Mild := hx.bind fun _ => hy

theorem Act.Mild.check (ok : Bool) (c : Nat) (args : List Word) : (Act.check ok c args).Mild := by
  cases ok
  · exact .trap ..
  · exact .pure _

theorem Act.Mild.until' (ok : Bool) (why : Nat) : (Act.until ok why).Mild := by
  cases ok
  · exact .wait _
  · exact .pure _

/-- An action whose results name at most the register d. -/
structure Act.Only (d : Option (BitVec 5)) (x : Act Done) : Prop where
  only : ∀ {s e u}, x s = .ok e u → Wb.only d e.wb

theorem Act.Only.pure {d : Option (BitVec 5)} {e : Done} (only : Wb.only d e.wb) : (Act.pure e).Only d := by
  refine ⟨fun ran => ?_⟩
  cases ran
  exact only

theorem Act.Only.bind {d : Option (BitVec 5)} {x : Act α} {f : α → Act Done} (hf : ∀ a, (f a).Only d) :
    (x.bind f).Only d := by
  refine ⟨fun ran => ?_⟩
  simp only [Act.bind] at ran
  split at ran
  · exact (hf _).only ran
  · cases ran

/-- A result that is passed on unchanged. -/
theorem Act.Only.bind_pass {d : Option (BitVec 5)} {x : Act Done} {f : Done → Act Unit} (hx : x.Only d) :
    (x.bind fun e => (f e).andThen (Act.pure e)).Only d := by
  refine ⟨fun ran => ?_⟩
  simp only [Act.bind, Act.andThen] at ran
  split at ran
  · rename_i b w h
    split at ran
    · cases ran
      exact hx.only h
    · cases ran
  · cases ran

theorem Act.Only.then' {d : Option (BitVec 5)} {x : Act α} {y : Act Done} (hy : y.Only d) : (x.andThen y).Only d :=
  .bind fun _ => hy

theorem Act.Only.trap {d : Option (BitVec 5)} (c : Nat) (args : List Word) : (Act.trap c args).Only d := by
  refine ⟨fun ran => ?_⟩
  cases ran

theorem Act.Only.wait {d : Option (BitVec 5)} (why : Nat) : (Act.wait why).Only d := by
  refine ⟨fun ran => ?_⟩
  cases ran

theorem Wb.only_nil (d : Option (BitVec 5)) : Wb.only d [] := by
  intro w mem
  cases mem

theorem Wb.only_reg (d : BitVec 5) (v : Word) : Wb.only (some d) [.reg d v] := by
  intro w mem
  cases List.mem_singleton.1 mem
  exact ⟨d, v, rfl, rfl⟩

end Act

/-- A body on scalar registers that gives at most a result for d. -/
structure Scalar (d : Option (BitVec 5)) (x : Act Done) : Prop where
  mild : x.Mild
  only : x.Only d

theorem Scalar.noResult {d : Option (BitVec 5)} : Scalar d noResult := ⟨.pure _, .pure (Wb.only_nil d)⟩
theorem Scalar.result (d : BitVec 5) (v : Word) : Scalar (some d) (result d v) := ⟨.pure _, .pure (Wb.only_reg d v)⟩
theorem Scalar.trap {d : Option (BitVec 5)} (c : Nat) (args : List Word) : Scalar d (Act.trap c args) := ⟨.trap .., .trap ..⟩
theorem Scalar.wait {d : Option (BitVec 5)} (why : Nat) : Scalar d (Act.wait why) := ⟨.wait _, .wait _⟩
theorem Scalar.bind {α : Type} {d : Option (BitVec 5)} {x : Act α} {f : α → Act Done} (hx : x.Mild)
    (hf : ∀ a, Scalar d (f a)) : Scalar d (x.bind f) := ⟨hx.bind fun a => (hf a).mild, .bind fun a => (hf a).only⟩
theorem Scalar.then' {α : Type} {d : Option (BitVec 5)} {x : Act α} {y : Act Done} (hx : x.Mild) (hy : Scalar d y) :
    Scalar d (x.andThen y) := .bind hx fun _ => hy
theorem Scalar.bind_pass {d : Option (BitVec 5)} {x : Act Done} {f : Done → Act Unit} (hx : Scalar d x)
    (hf : ∀ e, (f e).Mild) : Scalar d (x.bind fun e => (f e).andThen (Act.pure e)) :=
  ⟨hx.mild.bind fun e => (hf e).then' (.pure e), .bind_pass hx.only⟩

theorem Scalar.quiet {d : Option (BitVec 5)} {x : Act Done} (h : Scalar d x) (s : State) : Quiet d s (x s) := by
  have m := h.mild.ran s
  have o : ∀ {e u}, x s = .ok e u → Wb.only d e.wb := h.only.only
  revert m o
  simp only [Quiet]
  cases x s with
  | ok e u => exact fun m o => ⟨m.holds, ⟨m.fl, m.timed⟩, o rfl⟩
  | stop r =>
    cases r with
    | trap => exact fun _ _ => trivial
    | wait => exact fun m _ => m.holds
    | _ => exact fun m _ => m

/-- The completion of such an instruction. -/
theorem complete_settles {q : Issue} {s u : State} {x : Strand} {e : Option (BitVec 5)} {links : Links → Links} {d : Done}
    (calm : q.g = .x → s.cur.Calm) (mild : s.Mild u) (only : Wb.only e d.wb) :
    s.Settles (s.complete x u q links d) := by
  have done : ∀ {v : State} {d : Done}, s.Steady v → (q.g = .x → v.cur.Calm) → Wb.only e d.wb →
      s.Settles ((v.unhold q.g none).retire q links d) := fun hv cv hd =>
    (hv.trans ((unhold_steady ..).trans (deliver_steady hd fun k =>
      (cv k).of_same (unhold_fl ..).1 (unhold_fl ..).2))).then_settles (leaveWord_settles ..)
  have cu : q.g = .x → u.cur.Calm := fun k => (calm k).of_same mild.fl mild.timed
  simp only [State.complete]
  split
  · exact (bubble_steady calm).settles
  · split
    · exact done mild.steady cu only
    · split
      · rename_i wb b hv
        refine done (v := State.voteDone (if b = true then u.countCur 0x043 (some q.g) 1 else u)) ?_ ?_ (vote_only only hv)
        · refine State.Steady.trans ?_ (voteDone_steady _)
          split
          · exact mild.steady.trans (.of_counts (countCur_counts ..))
          · exact mild.steady
        · intro k
          simp only [State.voteDone]
          split
          · simpa using cu k
          · exact cu k
      · exact (voteDone_steady s).then_settles (takeTrap_settles ..)

/-- The issue of such an instruction, however it ends. -/
theorem issue_settles {q : Issue} {body : List Word → Act Done} {s t : State} {d : Option (BitVec 5)}
    (calm : q.g = .x → s.cur.Calm) (vecs : q.vecs = []) (scalar : ∀ vs, Scalar d (body vs))
    (next : issue q body s = .next t) : s.Settles t := by
  have reads : s.readVecs [] = s := by simp [State.readVecs]
  simp only [issue, landed_calm calm, unland_calm calm, vecs, reads, State.badVec, List.find?_nil] at next
  split at next
  · cases next; exact takeTrap_settles ..
  split at next
  · cases next; exact takeTrap_settles ..
  split at next
  · cases next; exact (stall_steady ..).settles
  split at next
  · cases next; exact takeTrap_settles ..
  · cases next; exact (stall_steady ..).settles
  rename_i vs l _
  split at next
  · cases next; exact (stall_steady ..).settles
  split at next
  · cases next; exact (bubble_steady calm).settles
  split at next
  · cases next
    exact ((setEng_steady ..).trans (bubble_steady fun k => (calm k).of_same rfl rfl)).settles
  have mild := (scalar vs).mild.ran s
  split at next
  · rename_i e u run
    rw [run] at mild
    cases next
    exact complete_settles calm mild ((scalar vs).only.only run)
  · cases next; exact takeTrap_settles ..
  · rename_i w u run
    rw [run] at mild
    cases next
    exact (State.Steady.trans mild.steady (stall_steady ..)).settles
  all_goals
    rename_i run
    rw [run] at mild
    exact mild.elim

/-! #### The instructions -/

/-- What an instruction of engine g on scalar registers that writes at most d gives. -/
structure ScalarRun (g : Eng) (d : Option (BitVec 5)) (s : State) (out : Out) : Prop where
  issues : ∃ q body, out = issue q body s ∧ q.g = g ∧ q.vecs = [] ∧ ∀ vs, Scalar d (body vs)

theorem ScalarRun.issue {g : Eng} {d : Option (BitVec 5)} {s : State} {q : Issue} {body : List Word → Act Done}
    (eng : q.g = g) (vecs : q.vecs = []) (scalar : ∀ vs, Scalar d (body vs)) :
    ScalarRun g d s (Machine.issue q body s) :=
  ⟨q, body, rfl, eng, vecs, scalar⟩

theorem transfer_scalar {g : Eng} {target : Int} {drop : Bool} {d : Option (BitVec 5)} {wb : List Wb}
    (only : Wb.only d wb) : Scalar d (transfer g target drop wb) := by
  refine .bind .get fun s => ?_
  split
  · exact .trap ..
  · split
    · exact .trap ..
    · refine .then' (.modify fun s => ?_) ⟨.pure _, .pure only⟩
      split
      · exact setEng_mild ..
      · exact .refl s

theorem branch_scalar (g : Eng) (off : Int) : Scalar none (branch g off) :=
  .bind .get fun _ => transfer_scalar (Wb.only_nil none)

theorem condBranch_scalar (g : Eng) (pub : BitVec 3) (off : Int) (taken : Bool) :
    Scalar none (condBranch g pub off taken) := by
  unfold condBranch
  refine .bind .get fun s => .then' (.until' ..) (.bind_pass ?_ fun _ => .modify fun s => setLinks_mild ..)
  split
  · exact branch_scalar ..
  · exact .noResult

theorem registerTarget_mild (v : Word) (opc : Nat) : (registerTarget v opc).Mild := .then' (.check ..) (.pure _)

theorem waitSince_mild (g : Eng) : (waitSince g).Mild := ⟨fun s => setEng_mild s g _⟩

theorem startLoop_scalar (g : Eng) (lv len e n : Nat) : Scalar none (startLoop g lv len e n) := by
  refine .bind .get fun s => ?_
  dsimp only
  split
  · exact transfer_scalar (Wb.only_nil none)
  · exact .then' (.modify fun s => setEng_mild ..) .noResult

theorem alu_scalar (s : State) (h : Hd) (opc lat : Nat) (o : F3) (f : Word → Word → Word) :
    ScalarRun h.g (some o.d) s (alu h opc lat o f s) := .issue rfl rfl fun _ => .result ..

theorem aluImm_scalar (s : State) (h : Hd) (opc : Nat) (o : FI) (x : Option XI) (f : Word → Word → Word) :
    ScalarRun h.g (some o.d) s (aluImm h opc o x f s) := .issue rfl rfl fun _ => .result ..

theorem compareBranch_scalar (s : State) (h : Hd) (opc : Nat) (o : FB) (x : Option XB) (c : Word → Word → Bool) :
    ScalarRun h.g none s (compareBranch h opc o x c s) := .issue rfl rfl fun _ => condBranch_scalar ..

theorem testBranch_scalar (s : State) (h : Hd) (opc : Nat) (o : FZ) (x : Option XZ) (c : Word → Bool) :
    ScalarRun h.g none s (testBranch h opc o x c s) := .issue rfl rfl fun _ => condBranch_scalar ..

theorem execBfol_scalar (s : State) (h : Hd) (o : FZ) (x : Option XZ) : ScalarRun h.g none s (execBfol h o x s) := by
  refine .issue rfl rfl fun _ => .bind .get fun u => ?_
  split
  · split
    · exact .trap ..
    · exact .wait _
  · refine .bind_pass ?_ fun _ => .modify fun s => setLinks_mild ..
    split
    · exact branch_scalar ..
    · exact .noResult

theorem execWaitt_scalar (s : State) (h : Hd) (o : F3) : ScalarRun h.g none s (execWaitt h o s) := by
  refine .issue rfl rfl fun _ => .bind .get fun u => .then' ?_ .noResult
  split
  · exact .modify fun s => setEng_mild ..
  · exact .pure _

/-- Every instruction that scalarDest lists. -/
theorem scalarRun_of_scalarDest {i : Instr} {g : Eng} {d : Option (BitVec 5)} (s : State)
    (dest : scalarDest i = some (g, d)) : ScalarRun g d s (exec i s) := by
  cases i <;> cases dest
  case nop => rw [exec_nop]; exact .issue rfl rfl fun _ => .noResult
  case b => rw [exec_b]; exact .issue rfl rfl fun _ => branch_scalar ..
  case beq | bne | blt | bge | bltu | bgeu =>
    simp only [exec_beq, exec_bne, exec_blt, exec_bge, exec_bltu, exec_bgeu, execBeq, execBne, execBlt, execBge, execBltu,
      execBgeu]
    exact compareBranch_scalar ..
  case bz | bnz =>
    simp only [exec_bz, exec_bnz, execBz, execBnz]
    exact testBranch_scalar ..
  case bfol => rw [exec_bfol]; exact execBfol_scalar ..
  case call => rw [exec_call]; exact .issue rfl rfl fun _ => .bind .get fun _ => transfer_scalar (Wb.only_reg _ _)
  case ret =>
    rw [exec_ret]
    exact .issue rfl rfl fun _ => .bind (registerTarget_mild ..) fun _ => transfer_scalar (Wb.only_nil _)
  case jr =>
    rw [exec_jr]
    exact .issue rfl rfl fun _ => .bind (registerTarget_mild ..) fun _ => transfer_scalar (Wb.only_nil _)
  case loop =>
    rw [exec_loop]
    exact .issue rfl rfl fun _ => .bind .get fun _ => .then' (.check ..) (startLoop_scalar ..)
  case loopi => simp only [exec_loopi, execLoopi]; exact .issue rfl rfl fun _ => startLoop_scalar ..
  case brkl =>
    simp only [exec_brkl, execBrkl]
    exact .issue rfl rfl fun _ => .bind_pass (transfer_scalar (Wb.only_nil _)) fun _ => .modify fun s => setEng_mild ..
  case trap => rw [exec_trap]; exact .issue rfl rfl fun _ => .trap ..
  case gets => rw [exec_gets]; exact .issue rfl rfl fun _ => .bind .get fun _ => .result ..
  case waitt => rw [exec_waitt]; exact execWaitt_scalar ..
  case fence =>
    rw [exec_fence]
    exact .issue rfl rfl fun _ => .bind (waitSince_mild _) fun _ => .bind .get fun _ => .then' (.until' ..) .noResult
  case add | sub | mul | mulh | mulhu | div | divu | rem | remu | and | or | xor | shl | shr | sra | min | max | minu | maxu
      | slt | sltu | seq =>
    simp only [exec_add, exec_sub, exec_mul, exec_mulh, exec_mulhu, exec_div, exec_divu, exec_rem, exec_remu, exec_and,
      exec_or, exec_xor, exec_shl, exec_shr, exec_sra, exec_min, exec_max, exec_minu, exec_maxu, exec_slt, exec_sltu,
      exec_seq, execAdd, execSub, execMul, execMulh, execMulhu, execDiv, execDivu, execRem, execRemu, execAnd, execOr,
      execXor, execShl, execShr, execSra, execMin, execMax, execMinu, execMaxu, execSlt, execSltu, execSeq]
    exact alu_scalar ..
  case addi | andi | ori | xori | shli | shri | srai | slti =>
    simp only [exec_addi, exec_andi, exec_ori, exec_xori, exec_shli, exec_shri, exec_srai, exec_slti, execAddi, execAndi,
      execOri, execXori, execShli, execShri, execSrai, execSlti]
    exact aluImm_scalar ..
  case madd => rw [exec_madd]; exact .issue rfl rfl fun _ => .result ..
  case clz => rw [exec_clz]; exact .issue rfl rfl fun _ => .result ..
  case popc => rw [exec_popc]; exact .issue rfl rfl fun _ => .result ..
  case li => rw [exec_li]; exact .issue rfl rfl fun _ => .result ..
  case lih => rw [exec_lih]; exact .issue rfl rfl fun _ => .bind .get fun _ => .result ..
  case bfx => rw [exec_bfx]; exact .issue rfl rfl fun _ => .then' (.check ..) (.result ..)
  case bfi => rw [exec_bfi]; exact .issue rfl rfl fun _ => .bind .get fun _ => .then' (.check ..) (.result ..)

/-- Settles O12: what an instruction on scalar registers changes, from its issue. -/
theorem scalarInstructionFrame : Obligations.ScalarInstructionFrame := by
  intro i s t g d dest calm next
  obtain ⟨q, body, run, rfl, vecs, scalar⟩ := (scalarRun_of_scalarDest s dest).issues
  have writes := issue_writes calm vecs (fun vs => (scalar vs).quiet s) (run.symm.trans next)
  exact ⟨writes.keeps, writes.regs, writes.sys, (issue_settles calm vecs scalar (run.symm.trans next)).sys, rfl, rfl⟩

end Sys2Proof.Machine

/-! ### The order of the issue stage -/

namespace Sys2Proof.Machine

theorem Links.waitsOn_eq_one (l : Links) (g : Eng) (r : Ring) :
    l.waitsOn g r = some 1 ↔ r.wp = true ∧ (l.sn.get g.pred).now = 0 := by
  simp only [Links.waitsOn]
  split
  · simp_all
  · split <;> simp_all

theorem Links.waitsOn_eq_two (l : Links) (g : Eng) (r : Ring) :
    l.waitsOn g r = some 2 ↔
      ¬ (r.wp = true ∧ (l.sn.get g.pred).now = 0) ∧ r.wn = true ∧ (l.sp.get g.succ).now = 0 := by
  simp only [Links.waitsOn]
  split
  · simp_all
  · split <;> simp_all

/-- A result that cannot land leaves everything in flight. -/
theorem Strand.landDue_stays {t : Strand} {why : Nat} (h : t.landDue.2 = some why) : t.landDue.1 = t := by
  simp only [Strand.landDue] at h ⊢
  split
  · rfl
  · rename_i none
    rw [if_neg none] at h
    simp [h] at none

theorem Strand.illegalArgs_eq (t : Strand) (g : Eng) :
    t.illegalArgs g =
      [(t.wordsAt (t.engine g).pc).1.setWidth 64, ((t.wordsAt (t.engine g).pc).2.getD 0).setWidth 64] := by
  simp only [Strand.illegalArgs]
  cases (t.wordsAt (t.engine g).pc).2 <;> rfl

theorem issue_refuses {q : Issue} {body : List Word → Act Done} {s : State} (illegal : q.legal = false) :
    issue q body s = .next (s.takeTrap q.g tILLEGAL (s.cur.illegalArgs q.g)) := by
  simp only [issue, illegal]
  rfl

theorem issue_early_trap {q : Issue} {body : List Word → Act Done} {s : State} {p : Nat × List Word} (legal : q.legal = true)
    (early : q.early = some p) : issue q body s = .next (s.takeTrap q.g p.1 p.2) := by
  simp only [issue, legal, early]
  rfl

theorem issue_token_missing {q : Issue} {body : List Word → Act Done} {s : State} {why : Nat} (legal : q.legal = true)
    (early : q.early = none) (waits : s.cur.links.waitsOn q.g q.ring = some why) :
    issue q body s = .next (s.stall q.g why) := by
  simp only [issue, legal, early, waits]
  rfl

section
variable {q : Issue} {body : List Word → Act Done} {s : State}
  (ready : q.legal = true ∧ q.early = none ∧ s.cur.links.waitsOn q.g q.ring = none)
include ready

theorem issue_source_closed {n : Nat}
    (reads : (s.landed q.g).cur.readSrcs q.g q.srcs (s.landed q.g).cur.links = .closed n) :
    issue q body s = .next (s.takeTrap q.g tCHANNEL [BitVec.ofNat 64 n]) := by
  obtain ⟨legal, early, waits⟩ := ready
  simp only [issue, legal, early, waits, reads]
  rfl

theorem issue_source_empty (reads : (s.landed q.g).cur.readSrcs q.g q.srcs (s.landed q.g).cur.links = .empty) :
    issue q body s = .next (s.stall q.g 4) := by
  obtain ⟨legal, early, waits⟩ := ready
  simp only [issue, legal, early, waits, reads]
  rfl

theorem issue_awaits {vs : List Word} {k : Links}
    (reads : (s.landed q.g).cur.readSrcs q.g q.srcs (s.landed q.g).cur.links = .ok vs k) (pending : s.cur.mustAwait q = true) :
    issue q body s = .next (s.stall q.g 0) := by
  obtain ⟨legal, early, waits⟩ := ready
  simp only [issue, legal, early, waits, reads, pending]
  rfl

end

/-- Settles O13: the branches of the issue stage, in their order. -/
theorem whatIssueWaitsFor : Obligations.WhatIssueWaitsFor := by
  intro q body s l w ready
  refine ⟨l.waitsOn_eq_one .., l.waitsOn_eq_two .., fun illegal => ?_, fun _ => issue_early_trap, fun _ => issue_token_missing,
    fun _ r => issue_source_closed r, issue_source_empty, fun _ _ r => issue_awaits r, fun calm => ?_,
    fun _ => Strand.landDue_stays, fun g why => ⟨?_, (countCur_counts ..).rest.left⟩⟩
  · rw [issue_refuses illegal, Strand.illegalArgs_eq]
    rfl
  · exact landed_calm fun k => calm.resolve_right (absurd k)
  · rw [State.stall, countCur_cur]
    rfl

end Sys2Proof.Machine

/-! ### Where results land, and traps taken -/

namespace Sys2Proof.Machine

/-- X runs in a timed region with a result in flight, and A, whose loop goes back below the window, has a handler. -/
def atBackEdge : State :=
  (State.reset.placeWord 0).setCur fun t => { t with
    sys := { t.sys with tvec := 0x80000002, tmask := BitVec.allOnes _ }
    pc0 := t.pc0.set .x 500
    x := { t.x with timed := true }
    fl := [⟨.x, 5, [.reg 1 0], false, false, 0⟩]
    eng := t.eng.set .a { t.eng.a with levels := [⟨true, 0, 0, 3, 0⟩] } }

/-- A division of A without sources. -/
def divisionOfA : Issue :=
  { g := .a, ring := .quiet, len := 1, opc := 0x25, srcs := [], uses := [.reg 1], lat := 18 }

theorem atBackEdge_goes : atBackEdge.Goes divisionOfA [] atBackEdge.cur.links where
  legal := rfl
  early := rfl
  waits := rfl
  calm := nofun
  reads := rfl
  await := by decide
  room := nofun
  unit := rfl
  bank := rfl
  sound := ⟨rfl, rfl⟩
  votes := .inl rfl

/-- Refutes O14: where the engine leaves its word by a loop back-edge below the window, the WINDOW trap sets aside the
results of X's timed region, and the flight list is not the old one with the new result. -/
theorem not_resultsLand : ¬ Obligations.ResultsLand := by
  intro lands
  have flights := (lands divisionOfA atBackEdge [] atBackEdge.cur.links 1 0 atBackEdge_goes (.inr (by decide)) (by decide)
    (by decide)).2.2.1 (by decide)
  obtain ⟨f, fl, -⟩ := flights
  have one : (atBackEdge.finish divisionOfA atBackEdge.cur.links (.of [.reg 1 0])).cur.fl.length = 1 := by decide
  rw [fl] at one
  exact absurd one (by simp [atBackEdge])

/-! #### A trap that a handler takes (R128) -/

/-- Where no engine is on its way, every engine stands at its word already. -/
theorem Strand.settleMoves_still {t : Strand} (still : ∀ e, (t.engine e).moving = none) (g : Option Eng) :
    t.settleMoves g = t := by
  have settled : ∀ h, t.settleMove h = t := fun h => by simp only [Strand.settleMove, still h]
  simp [Strand.settleMoves, Eng.list, settled]

theorem dropAnswers_cur (s : State) : s.dropAnswers.cur = s.cur := by
  simp only [State.dropAnswers]
  split <;> rfl

theorem trapArgs_named (s : State) {args : List Word} (named : args ≠ []) : s.trapArgs args = (fourArgs args, s) := by
  simp [State.trapArgs, named]

/-- The strand once its trap is noted. -/
def Strand.noted (t : Strand) (g : Eng) (code : Nat) : Strand :=
  let u := t.setEngine g fun e => if e.moving.isNone then { e with tri := none } else e
  { u with
    sys := { u.sys with trapc := BitVec.ofNat 8 code }
    eng := u.eng.map fun e => { e with tepc := BitVec.ofNat 14 e.issueAddr } }

theorem noteTrap_cur (s : State) (g : Eng) (code : Nat) (info : Word) (args : List Word) :
    (s.noteTrap g code info args).cur = s.cur.noted g code := emitCore_cur ..

/-- The strand that a routed trap leaves. -/
theorem takeTrap_cur_of_routes {s : State} {g : Eng} {code : Nat} {args : List Word} (routes : s.cur.routes code = true)
    (inside : s.cur.sys.tvec.toNat % 16384 < s.cur.text.length)
    (first : isCont s.cur.text (s.cur.sys.tvec.toNat % 16384) = false) (named : args ≠ [])
    (still : ∀ e, (s.cur.engine e).moving = none) :
    (s.takeTrap g code args).cur =
      { (s.cur.noted g code).enterHandler (s.cur.sys.tvec.toNat % 16384) with
        sys := { (s.cur.noted g code).sys with tinfo := s.cur.tinfo g code, targ := fourArgs args } } := by
  have settled : s.dropAnswers.setCur (fun t => t.settleMoves (some g)) = s.dropAnswers := by
    rw [State.setCur, dropAnswers_cur, Strand.settleMoves_still still]
    exact congrArg (fun c => { s.dropAnswers with cur := c }) (dropAnswers_cur s).symm
  rw [State.takeTrap, settled, State.enterTrap, trapArgs_named _ named]
  simp only [State.routeTrap, noteTrap_cur, dropAnswers_cur]
  rw [if_pos (show (s.cur.noted g code).routes code = true from routes),
    if_neg (show ¬ (s.cur.noted g code).text.length ≤ (s.cur.noted g code).sys.tvec.toNat % 16384 from Nat.not_le.2 inside),
    if_neg (show ¬ isCont (s.cur.noted g code).text ((s.cur.noted g code).sys.tvec.toNat % 16384) = true from
      (Bool.not_eq_true _).symm ▸ first)]
  simp only [State.setCur_cur, noteTrap_cur, dropAnswers_cur]
  rfl

theorem fourArgs_getD {args : List Word} (short : args.length ≤ 4) {n : Nat} (hn : n < 4) :
    (fourArgs args).getD n 0 = args.getD n 0 := by
  simp only [fourArgs, List.getD_eq_getElem?_getD, List.getElem?_take_of_lt hn, List.getElem?_append]
  split
  · rfl
  · rename_i past
    have zeros : ([0, 0, 0, 0] : List Word)[n - args.length]? = some 0 := by
      have : n - args.length < 4 := by omega
      revert this
      generalize n - args.length = k
      intro hk
      match k, hk with
      | 0, _ | 1, _ | 2, _ | 3, _ => rfl
    rw [zeros, List.getElem?_eq_none (Nat.not_lt.1 past)]
    rfl

/-- The address that an engine would issue next, once the trap of engine g is noted. -/
theorem noted_issueAddr {t : Strand} (still : ∀ e, (t.engine e).moving = none) (g e : Eng) (code : Nat) :
    ((t.noted g code).engine e).tepc = BitVec.ofNat 14
      (if e = g then (t.engine e).pc else match (t.engine e).tri with | some p => p | none => (t.engine e).pc) := by
  have own := still e
  simp only [Strand.noted, Strand.engine, PerEng.get_map, Strand.setEngine] at own ⊢
  by_cases same : e = g
  · subst same
    simp [own, Engine.issueAddr]
  · rw [PerEng.get_set_ne _ _ same, if_neg same]
    simp only [Engine.issueAddr, own] <;> cases (t.eng.get e).tri <;> rfl

/-- What each engine keeps of itself while a trap is noted. -/
theorem noted_levels (t : Strand) (g e : Eng) (code : Nat) :
    ((t.noted g code).engine e).levels = (t.engine e).levels := by
  simp only [Strand.noted, Strand.engine, PerEng.get_map, Strand.setEngine]
  by_cases same : e = g
  · subst same
    rw [PerEng.get_set]
    split <;> rfl
  · rw [PerEng.get_set_ne _ _ same]

/-- Settles O15: the strand that the routed trap leaves, field by field. -/
theorem trapEntersHandler : Obligations.TrapEntersHandler := by
  intro s g code args t addr enabled masked running inside first named short still
  have routes : s.cur.routes code = true := by simp only [Strand.routes, enabled, masked, running]; rfl
  have cur : t.cur = _ := takeTrap_cur_of_routes routes inside first named still
  have holds : s.Holds t := takeTrap_holds ..
  refine ⟨by rw [cur]; rfl, by rw [cur]; rfl, by rw [cur], fun n hn => ?_, by rw [cur]; rfl, by rw [cur]; rfl,
    fun e => ⟨?_, ?_, ?_, ?_⟩, ?_, by rw [cur]; rfl, by rw [cur]; rfl, by rw [cur]; rfl, holds.regs, holds.keeps.mem⟩
  · rw [cur]
    exact fourArgs_getD short hn
  · rw [cur]
    simp [Strand.engine, Strand.enterHandler]
    rfl
  · rw [cur]
    simp [Strand.engine, Strand.enterHandler]
    rfl
  · intro l mem
    rw [cur] at mem
    simp only [Strand.engine, Strand.enterHandler, PerEng.get_map, List.mem_map] at mem
    obtain ⟨k, -, rfl⟩ := mem
    rfl
  · rw [cur]
    simp only [Strand.engine, Strand.enterHandler, PerEng.get_map]
    exact noted_issueAddr still g e code
  · rw [cur]
    refine ⟨_, rfl, rfl, rfl, fun e => ?_⟩
    simp only [PerEng.get_map]
    exact noted_levels ..

end Sys2Proof.Machine

/-! ### Traps that no handler takes, and the return from a handler -/

namespace Sys2Proof.Machine

/-! #### The record of an unrouted trap (R131) -/

theorem leBytes_length (n v : Nat) : (leBytes n v).length = n := by
  induction n generalizing v with
  | zero => rfl
  | succ n ih => simp [leBytes, ih]

theorem Strand.trapRecord_length (t : Strand) (ns : Nat) (info : Word) {args : List Word} (four : args.length = 4) :
    (t.trapRecord ns info args).length = 64 := by
  match args, four with
  | [_, _, _, _], _ => simp [Strand.trapRecord, leBytes_length, Eng.list]

theorem pushRecord_ctxOf (s : State) (c : Nat) (handler : Bool) (r : List Byte) :
    ((s.pushRecord c handler r).ctxOf c).held = (s.ctxOf c).held ++ [(handler, r)] := by
  simp [State.pushRecord, State.setCtx, State.ctxOf, SMap.upd]

theorem postOnce_same (s : State) (w : What) (a b : Nat) :
    (s.postOnce w a b).cur = s.cur ∧ (s.postOnce w a b).ctl = s.ctl ∧ (s.postOnce w a b).work = s.work := by
  simp only [State.postOnce]
  split <;> exact ⟨rfl, rfl, rfl⟩

theorem taskStatus_same (s : State) (task status : Nat) :
    (s.taskStatus task status).cur = s.cur ∧ (s.taskStatus task status).ctl = s.ctl := by
  simp only [State.taskStatus]
  split <;> exact ⟨rfl, rfl⟩

theorem taskStatus_task {s : State} {task status : Nat} {k : Task} (has : SMap.get? s.work.tasks task = some k) :
    (SMap.get? (s.taskStatus task status).work.tasks task).map Task.status =
      some (if k.status = 0 then status else k.status) := by
  simp only [State.taskStatus, has, SMap.get?_set]
  rfl

theorem abortStrand_ctl (s : State) (status : Nat) : (s.abortStrand status).ctl = s.ctl :=
  (postOnce_same ..).2.1.trans (taskStatus_same ..).2

theorem abortStrand_cur (s : State) (status : Nat) :
    (s.abortStrand status).cur = { s.cur with st := .ended, ph := { s.cur.ph with buf := [], held := [] } } := by
  rw [State.abortStrand, (postOnce_same ..).1, State.setCur_cur, (taskStatus_same ..).1]

theorem abortStrand_work (s : State) (status : Nat) :
    (s.abortStrand status).work = (s.taskStatus s.cur.task status).work := (postOnce_same ..).2.2

/-- Settles O16: the record that waits for the trap ring, and the strand that BREAK halts and another trap aborts. -/
theorem unroutedTrapPostsRecord : Obligations.UnroutedTrapPostsRecord := by
  intro s code info args t record four
  have holds : s.Holds t := unroutedTrap_holds ..
  have ctl : t.ctl = (s.pushRecord s.cur.sys.ctx.toNat false record).ctl := by
    simp only [t, State.unroutedTrap]
    split
    · rfl
    · exact abortStrand_ctl ..
  refine ⟨Strand.trapRecord_length _ _ _ four, ?_, fun stop => ?_, fun other => ?_, holds.keeps.mem, holds.regs⟩
  · rw [← pushRecord_ctxOf, State.ctxOf, ctl]
    rfl
  · simp only [t, State.unroutedTrap, if_pos stop]
    exact ⟨rfl, rfl⟩
  · simp only [t, State.unroutedTrap, if_neg other]
    refine ⟨by rw [abortStrand_cur], by rw [abortStrand_cur], fun k has => ?_⟩
    rw [abortStrand_work]
    exact taskStatus_task has

/-! #### The return from a handler (R130) -/

/-- An engine at its resumption address, with the loop levels that were set aside. -/
def Engine.restored (e : Engine) (levels : List Level) : Engine :=
  { e with levels, pc := e.tepc.toNat, moving := none }

/-- The strand with every engine at its resumption address. -/
def Strand.restored (t : Strand) (a : Aside) : Strand :=
  let u := Eng.list.foldl (fun t g => t.setEngine g fun e => e.restored (a.levels.get g)) t
  { u with pc0 := u.eng.map Engine.pc }

/-- An engine that wrote 1 moves past its word, another stays at it. -/
def Strand.pastReturn (t : Strand) (g : Eng) : Strand :=
  if (t.engine g).tret = some 1 then
    (({ t with sys := { t.sys with win := BitVec.allOnes 9 }, pc0 := .all (t.engine g).pc }).moveOn g
      (wordLen (t.text.getD (t.engine g).pc 0))).1
  else t.setEngine g fun e => { e with moving := some e.pc }

/-- An engine that goes on at an address. -/
def Engine.back (e : Engine) : Engine := { e with tret := none, pc := e.issueAddr, moving := some e.issueAddr, why := 0 }

theorem leaveHandler_of_aside {s : State} {a : Aside} (has : s.cur.aside = some a) :
    s.leaveHandler =
      let t := s.cur
      let u := Eng.list.foldl Strand.pastReturn (t.restored a)
      let addrs := u.eng.map Engine.issueAddr
      if t.sys.win.toNat < spreadOf addrs then
        s.takeTrap .a tWINDOW (windowArgs addrs.a t.sys.win.toNat (addrs.maxOther .a))
      else
        s.setCur fun _ => { u with
          st := .running, aside := none, sys := t.sys, fl := t.fl ++ a.landing,
          x := { t.x with timed := a.timed, dp := a.dp, sfu := a.sfu, alu := a.alu, adv := false },
          links := { t.links with outc := a.outc }, eng := u.eng.map Engine.back, pc0 := addrs } := by
  simp only [State.leaveHandler, has]
  rfl

/-- A change of every engine in turn. -/
theorem Strand.foldl_setEngine (f : Eng → Engine → Engine) (t : Strand) :
    Eng.list.foldl (fun t g => t.setEngine g (f g)) t =
      { t with eng := ⟨f .a t.eng.a, f .x t.eng.x, f .m t.eng.m, f .w t.eng.w⟩ } := by
  simp only [Eng.list, List.foldl_cons, List.foldl_nil, Strand.setEngine, PerEng.set, PerEng.get]

theorem Strand.restored_eq (t : Strand) (a : Aside) :
    t.restored a = { t with
      eng := ⟨t.eng.a.restored a.levels.a, t.eng.x.restored a.levels.x, t.eng.m.restored a.levels.m,
        t.eng.w.restored a.levels.w⟩
      pc0 := t.eng.map fun e => e.tepc.toNat } := by
  simp only [Strand.restored, Strand.foldl_setEngine fun g e => e.restored (a.levels.get g)]
  rfl

theorem Strand.restored_engine (t : Strand) (a : Aside) (e : Eng) :
    (t.restored a).engine e = (t.engine e).restored (a.levels.get e) := by
  rw [Strand.restored_eq]
  cases e <;> rfl

/-- Engines that wrote 0 stay at their words. -/
theorem Strand.foldl_pastReturn_zero {t : Strand} (zero : ∀ e, (t.engine e).tret = some 0) :
    Eng.list.foldl Strand.pastReturn t = { t with eng := t.eng.map fun e => { e with moving := some e.pc } } := by
  have stays : ∀ (l : List Eng) (t : Strand), (∀ e, (t.engine e).tret = some 0) →
      l.foldl Strand.pastReturn t = l.foldl (fun t g => t.setEngine g fun e => { e with moving := some e.pc }) t := by
    intro l
    induction l with
    | nil => exact fun _ _ => rfl
    | cons g l ih =>
      intro t zero
      have one : t.pastReturn g = t.setEngine g fun e => { e with moving := some e.pc } := by
        rw [Strand.pastReturn, zero g, if_neg (by decide)]
      rw [List.foldl_cons, List.foldl_cons, one]
      refine ih _ fun e => ?_
      by_cases same : e = g
      · rw [same, Strand.setEngine_engine]
        exact zero g
      · rw [Strand.setEngine_engine_ne _ _ same]
        exact zero e
  rw [stays _ _ zero, Strand.foldl_setEngine fun _ e => { e with moving := some e.pc }]
  rfl

/-- Settles O17: with every TRET 0, each engine is at its TEPC and what was set aside is back. -/
theorem handlerReturn : Obligations.HandlerReturn := by
  intro s a t has zero near
  have tret : ∀ e, ((s.cur.restored a).engine e).tret = some 0 := fun e => by
    rw [Strand.restored_engine]
    exact (zero e).1
  have addr : ∀ e, ({ (s.cur.restored a).engine e with moving := some ((s.cur.restored a).engine e).pc } : Engine).issueAddr =
      (s.cur.engine e).tepc.toNat := fun e => by
    simp only [Strand.restored_engine, Engine.issueAddr, Engine.restored, (zero e).2]
  have addrs : ((Eng.list.foldl Strand.pastReturn (s.cur.restored a)).eng.map Engine.issueAddr) =
      s.cur.eng.map fun e => e.tepc.toNat := by
    rw [Strand.foldl_pastReturn_zero tret]
    simp only [PerEng.map]
    exact congr (congr (congr (congrArg PerEng.mk (addr .a)) (addr .x)) (addr .m)) (addr .w)
  have left : t = s.setCur fun _ => { Eng.list.foldl Strand.pastReturn (s.cur.restored a) with
      st := .running, aside := none, sys := s.cur.sys, fl := s.cur.fl ++ a.landing,
      x := { s.cur.x with timed := a.timed, dp := a.dp, sfu := a.sfu, alu := a.alu, adv := false },
      links := { s.cur.links with outc := a.outc },
      eng := (Eng.list.foldl Strand.pastReturn (s.cur.restored a)).eng.map Engine.back,
      pc0 := s.cur.eng.map fun e => e.tepc.toNat } := by
    simp only [t, leaveHandler_of_aside has, addrs]
    exact if_neg (Nat.not_lt.2 near)
  rw [Strand.foldl_pastReturn_zero tret, Strand.restored_eq] at left
  have engine : ∀ e, t.cur.engine e =
      ({ (s.cur.restored a).engine e with moving := some ((s.cur.restored a).engine e).pc } : Engine).back := fun e => by
    rw [left, Strand.restored_engine]
    cases e <;> rfl
  refine ⟨by rw [left]; rfl, by rw [left]; rfl, by rw [left]; rfl, by rw [left]; rfl, fun e => ?_, by rw [left]; rfl,
    by rw [left]; rfl, by rw [left]; rfl, by rw [left]; rfl, by rw [left]; rfl, by rw [left]; rfl, by rw [left]; rfl,
    by rw [left]; rfl, by rw [left]; rfl, by rw [left]; rfl⟩
  rw [engine e, ← addr e, Strand.restored_engine]
  refine ⟨?_, rfl, rfl⟩
  simp only [Engine.back, Engine.issueAddr, Engine.restored, (zero e).2]

end Sys2Proof.Machine

/-! ### Scalar loads and stores -/

namespace Sys2Proof

theorem tabFrom_length {α : Type} (f : Nat → α) (n i : Nat) : (tabFrom f i n).length = n := by
  induction n generalizing i with
  | zero => rfl
  | succ n ih => simp [tabFrom, ih]

@[simp] theorem tab_length {α : Type} (n : Nat) (f : Nat → α) : (tab n f).length = n := tabFrom_length f n 0

/-- The model's signed reading is that of a bit vector. -/
theorem toSigned_eq_toInt {w : Nat} (pos : 0 < w) (n : Nat) : toSigned w n = (BitVec.ofNat w n).toInt := by
  have two : 2 ^ w = 2 * 2 ^ (w - 1) := by rw [← Nat.pow_succ']; congr 1; omega
  simp only [toSigned, BitVec.toInt_eq_toNat_cond, BitVec.toNat_ofNat]
  have small := Nat.mod_lt n (Nat.two_pow_pos w)
  by_cases low : 2 * (n % 2 ^ w) < 2 ^ w
  · rw [if_neg (by omega), if_pos low]
  · rw [if_pos (by omega), if_neg low]

namespace Machine

theorem State.seen_length (s : State) (home pa n : Nat) : (s.seen home pa n).length = n := tab_length ..

theorem State.Loads.length {s u : State} {va : Word} {n : Nat} {note : Bool} {b : List Byte} (h : s.Loads va n note b u) :
    b.length = n := by
  obtain ⟨x, t, -, -, -, rfl, -⟩ := h
  exact State.seen_length ..

theorem extended_signed {b : List Byte} {n : Nat} (len : b.length = n) (pos : 0 < n) :
    extended true b = BitVec.ofInt 64 ((BitVec.ofNat (8 * n) (leNat b)).toInt) := by
  simp only [extended, if_true, wordOf, len]
  rw [toSigned_eq_toInt (by omega)]

/-- A load whose page is a peer's leaves the engine at once. -/
theorem loadLate_peer {s t : State} {opc : Nat} {d : BitVec 5} {va : Word} {n : Nat} {value : List Byte → Word} {signed : Bool}
    {y : Xlate} (place : s.ownXlate va .read = .ok y t) (peer : y.home = 2)
    (room : (t.setCur fun c => { c with ph := c.ph.note va }).requestRoom = true) :
    loadLate opc d va n value signed s =
      let v := t.setCur fun c => { c with ph := c.ph.note va }
      .ok (.await d (.peer v.net.tagN.toNat) va (v.ownBytes 2 y.pa n) signed)
        (v.askPeer (v.peerRequest 2 y.pa n [] 0 opc va)) := by
  simp only [loadLate]
  rw [Act.bind_of_ok (xlate_ok place)]
  simp only [noteRead, Act.then_bind, Act.modify_bind, peer, if_true, requestFree, Act.bind_assoc, Act.get_bind, room,
    Act.until_true, Act.pure_bind]

/-- The stop of a translation that faults. -/
def faultStop (s : State) (f : TFault) : Stop := if f.code = 3 then .trap tPROTECT (faultArgs f none) else .fault f s

theorem loadLate_fault {s : State} {opc : Nat} {d : BitVec 5} {va : Word} {n : Nat} {value : List Byte → Word} {signed : Bool}
    {f : TFault} (h : s.ownXlate va .read = .fault f) : loadLate opc d va n value signed s = .stop (faultStop s f) :=
  Act.bind_of_stop (xlate_fault h)

theorem loadOne_fault {s : State} {va : Word} {n : Nat} {note : Bool} {f : TFault} (h : s.ownXlate va .read = .fault f) :
    loadOne va n note s = .stop (faultStop s f) := Act.bind_of_stop (xlate_fault h)

theorem storeBytes_fault {s : State} {va : Word} {b : List Byte} {desc : Option W16} {strl : Bool} {path : Nat} {f : TFault}
    (h : s.ownXlate va .write = .fault f) : storeBytes va b desc strl path s = .stop (faultStop s f) :=
  Act.bind_of_stop (xlate_fault h)

/-! #### The checks of an address, and the access behind them -/

/-- What an access of n bytes at va does when it cannot go on. -/
structure Faults (va : Word) (n : Nat) (acc : Access) (g : Eng) (opc : Nat) (s : State) (out : Out) : Prop where
  misaligned : va.toNat % n ≠ 0 → out = .next (s.takeTrap g tALIGN [])
  noncanonical : va.toNat % n = 0 → canonical va = false →
    out = .next (s.takeTrap g tPROTECT [va, w64 (256 * b2n (acc == .write))])
  protect : ∀ f, va.toNat % n = 0 ∧ canonical va = true → s.ownXlate va acc = .fault f → f.code = 3 →
    out = .next (s.takeTrap g tPROTECT (faultArgs f none))
  page : ∀ f, va.toNat % n = 0 ∧ canonical va = true → s.ownXlate va acc = .fault f → f.code ≠ 3 →
    out = .next ((s.phaseFault g none f opc).stall g 0)

/-- An instruction that checks its address and then makes an access that stops where its translation faults. -/
theorem issue_faults {q : Issue} {body : List Word → Act Done} {s : State} {vs : List Word} {l : Links} {va : Word} {n : Nat}
    {acc : Access} {rest : Act Done} (goes : s.Goes q vs l)
    (shape : body vs = (checkAddr va n (acc == .write)).andThen rest)
    (stops : ∀ f, s.ownXlate va acc = .fault f → rest s = .stop (faultStop s f)) :
    Faults va n acc q.g q.opc s (issue q body s) := by
  have passes : va.toNat % n = 0 ∧ canonical va = true → body vs s = rest s := fun fits => by
    rw [shape, checkAddr_ok fits.1 fits.2]
    rfl
  refine ⟨fun bad => ?_, fun aligned bad => ?_, fun f fits fault code => ?_, fun f fits fault code => ?_⟩
  · refine issue_trap goes ?_
    rw [shape]
    exact Act.bind_of_stop (checkAddr_misaligned bad s)
  · refine issue_trap goes ?_
    rw [shape]
    exact Act.bind_of_stop (checkAddr_noncanonical aligned bad s)
  · refine issue_trap goes ?_
    rw [passes fits, stops f fault, faultStop, if_pos code]
  · refine issue_fault goes ?_
    rw [passes fits, stops f fault, faultStop, if_neg code]

section
variable {h : Hd} {opc : Nat} {o : F3} {x : Option XM} {signed strl : Bool} {s : State} {vs : List Word} {l : Links}

theorem loadWord_gives {u : State} {b : List Byte} (goes : s.Goes (memIssue h opc o x false) vs l)
    (fits : (memAddr x vs).toNat % 2 ^ o.s.toNat = 0 ∧ canonical (memAddr x vs) = true)
    (loads : s.Loads (memAddr x vs) (2 ^ o.s.toNat) true b u) :
    loadWord h opc o x signed s = u.gives (memIssue h opc o x false) l o.d (extended signed b) := by
  refine issue_next goes ?_
  simp only [F3.size, checkAddr_ok fits.1 fits.2, Act.then_bind, Act.pure_bind]
  rw [Act.bind_of_ok (loadLate_ok loads)]
  rfl

theorem acquireWord_gives {u : State} {b : List Byte} (goes : s.Goes (memIssue h 0x17 o x false) vs l)
    (fits : (memAddr x vs).toNat % 2 ^ o.s.toNat = 0 ∧ canonical (memAddr x vs) = true)
    (loads : s.Loads (memAddr x vs) (2 ^ o.s.toNat) false b u) :
    acquireWord h o x s = u.gives (memIssue h 0x17 o x false) l o.d (extended true b) := by
  refine issue_next goes ?_
  simp only [F3.size, checkAddr_ok fits.1 fits.2, Act.then_bind, Act.pure_bind]
  rw [Act.bind_of_ok (loadOne_ok loads)]
  rfl

theorem loadWord_awaits {t : State} {y : Xlate} (goes : s.Goes (memIssue h opc o x false) vs l)
    (fits : (memAddr x vs).toNat % 2 ^ o.s.toNat = 0 ∧ canonical (memAddr x vs) = true)
    (place : s.ownXlate (memAddr x vs) .read = .ok y t) (peer : y.home = 2)
    (room : (t.setCur fun c => { c with ph := c.ph.note (memAddr x vs) }).requestRoom = true) :
    let v := t.setCur fun c => { c with ph := c.ph.note (memAddr x vs) }
    loadWord h opc o x signed s =
      (v.askPeer (v.peerRequest 2 y.pa (2 ^ o.s.toNat) [] 0 opc (memAddr x vs))).writes (memIssue h opc o x false) l
        [.await o.d (.peer v.net.tagN.toNat) (memAddr x vs) (v.ownBytes 2 y.pa (2 ^ o.s.toNat)) signed] := by
  refine issue_next goes ?_
  simp only [F3.size, checkAddr_ok fits.1 fits.2, Act.then_bind, Act.pure_bind]
  rw [Act.bind_of_ok (loadLate_peer place peer room)]
  rfl

theorem loadWord_faults (goes : s.Goes (memIssue h opc o x false) vs l) :
    Faults (memAddr x vs) (2 ^ o.s.toNat) .read h.g opc s (loadWord h opc o x signed s) :=
  issue_faults goes rfl fun _ fault => Act.bind_of_stop (loadLate_fault fault)

theorem acquireWord_faults (goes : s.Goes (memIssue h 0x17 o x false) vs l) :
    Faults (memAddr x vs) (2 ^ o.s.toNat) .read h.g 0x17 s (acquireWord h o x s) :=
  issue_faults goes rfl fun _ fault => Act.bind_of_stop (loadOne_fault fault)

theorem storeWord_ends {u : State} (goes : s.Goes (memIssue h opc o x true) vs l)
    (fits : (memAddr x vs).toNat % 2 ^ o.s.toNat = 0 ∧ canonical (memAddr x vs) = true)
    (stores : s.Stores (memAddr x vs) (leBytes (2 ^ o.s.toNat) (memData x vs).toNat) none strl u) :
    storeWord h opc o x strl s = u.ends (memIssue h opc o x true) l := by
  refine issue_ends goes ?_
  simp only [F3.size, checkAddr_ok fits.1 fits.2, Act.then_bind, Act.pure_bind]
  rw [Act.bind_of_ok (storeBytes_ok stores)]
  rfl

theorem storeWord_faults (goes : s.Goes (memIssue h opc o x true) vs l) :
    Faults (memAddr x vs) (2 ^ o.s.toNat) .write h.g opc s (storeWord h opc o x strl s) :=
  issue_faults goes rfl fun _ fault => Act.bind_of_stop (storeBytes_fault fault)

end

/-- Settles O18: the loads' values, the peer's answer they wait for, and their traps. -/
theorem scalarLoads : Obligations.ScalarLoads := by
  intro h o x s u vs l b va n q signed fits
  have value : ∀ {note}, s.Loads va n note b u → extended true b = signed := fun loads =>
    extended_signed loads.length (Nat.two_pow_pos _)
  refine ⟨fun goes ok loads => ?_, fun goes ok loads => ?_, fun goes ok loads => ?_, ?_,
    fun e mem goes => ?_⟩
  · rw [exec_ld, ← value loads]
    exact loadWord_gives goes ok loads
  · rw [exec_ldz]
    exact loadWord_gives goes ok loads
  · rw [exec_ldaq, ← value loads]
    exact acquireWord_gives goes ok loads
  · intro e mem y t goes ok place peer v room
    simp only [List.mem_cons, List.not_mem_nil, or_false] at mem
    rcases mem with rfl | rfl
    · exact loadWord_awaits goes ok place peer room
    · exact loadWord_awaits goes ok place peer room
  · have faults : Faults va n .read h.g e.2 s (exec e.1 s) := by
      simp only [List.mem_cons, List.not_mem_nil, or_false] at mem
      rcases mem with rfl | rfl | rfl
      · exact loadWord_faults goes
      · exact loadWord_faults goes
      · exact acquireWord_faults goes
    exact ⟨faults.misaligned, faults.noncanonical, faults.protect, faults.page⟩

/-- Settles O19: the store through the phase's buffer, and its traps. -/
theorem scalarStores : Obligations.ScalarStores := by
  intro h o x s u vs l va n b q fits
  refine ⟨fun goes ok stores => ?_, fun goes ok stores => ?_, fun e mem goes => ?_⟩
  · rw [exec_st]
    exact storeWord_ends goes ok stores
  · rw [exec_strl]
    exact storeWord_ends goes ok stores
  · have faults : Faults va n .write h.g e.2 s (exec e.1 s) := by
      simp only [List.mem_cons, List.not_mem_nil, or_false] at mem
      rcases mem with rfl | rfl
      · exact storeWord_faults goes
      · exact storeWord_faults goes
    exact ⟨faults.misaligned, faults.noncanonical, faults.protect⟩

end Machine

end Sys2Proof

/-! ### What a store inside one block changes -/

namespace Sys2Proof

/-! #### Runs of consecutive keys -/

section
variable {α : Type}

/-- The map of a list of values at consecutive keys. -/
def SMap.runFrom (i : Nat) : List α → SMap α
  | [] => []
  | x :: xs => (i, x) :: SMap.runFrom (i + 1) xs

theorem SMap.set_past {m : SMap α} {i : Nat} (x : α) (past : ∀ p ∈ m, p.1 < i) : m.set i x = m ++ [(i, x)] := by
  induction m with
  | nil => rfl
  | cons p m ih =>
    have before : p.1 < i := past p (List.mem_cons_self ..)
    simp only [SMap.set, if_neg (Nat.ne_of_gt before), if_neg (Nat.not_lt_of_gt before), List.cons_append,
      ih fun q mem => past q (List.mem_cons_of_mem _ mem)]

theorem SMap.puts_past {m : SMap α} {i : Nat} (xs : List α) (past : ∀ p ∈ m, p.1 < i) :
    m.puts i xs = m ++ SMap.runFrom i xs := by
  induction xs generalizing m i with
  | nil => simp [SMap.puts, SMap.runFrom]
  | cons x xs ih =>
    rw [SMap.puts, SMap.set_past x past, ih, SMap.runFrom, List.append_assoc]
    · rfl
    · intro p mem
      rcases List.mem_append.1 mem with old | new
      · exact Nat.lt_succ_of_lt (past p old)
      · rw [List.mem_singleton.1 new]
        exact Nat.lt_succ_self i

theorem SMap.puts_nil (i : Nat) (xs : List α) : SMap.puts [] i xs = SMap.runFrom i xs :=
  SMap.puts_past xs (by simp)

theorem SMap.get?_runFrom (i k : Nat) (xs : List α) :
    (SMap.runFrom i xs).get? k = if i ≤ k then xs[k - i]? else none := by
  induction xs generalizing i with
  | nil => simp [SMap.runFrom, SMap.get?]
  | cons x xs ih =>
    simp only [SMap.runFrom, SMap.get?]
    by_cases here : k = i
    · simp [here]
    · rw [if_neg here]
      by_cases before : k < i
      · rw [if_pos before, if_neg (by omega)]
      · rw [if_neg before, ih, if_pos (by omega), if_pos (by omega), show k - i = (k - (i + 1)) + 1 by omega]
        rfl

/-- A run laid over a map. -/
theorem SMap.get?_over_runFrom (m : SMap α) (i k : Nat) (xs : List α) :
    ((SMap.runFrom i xs).foldl (fun m c => m.set c.1 c.2) m).get? k = ((SMap.runFrom i xs).get? k).or (m.get? k) := by
  induction xs generalizing m i with
  | nil => rfl
  | cons x xs ih =>
    rw [SMap.runFrom, List.foldl_cons, ih]
    simp only [SMap.get?]
    by_cases here : k = i
    · subst here
      rw [SMap.get?_runFrom, if_neg (by omega), if_pos rfl, SMap.get?_set]
      rfl
    · rw [SMap.get?_set_ne _ _ here, if_neg here]
      by_cases before : k < i
      · rw [if_pos before, SMap.get?_runFrom, if_neg (by omega)]
      · rw [if_neg before]

end

namespace Machine

/-- The bytes of one store are written as one run. -/
theorem byteRuns_runFrom (i : Nat) (b : Byte) (bs : List Byte) : byteRuns (SMap.runFrom i (b :: bs)) = [(i, b :: bs)] := by
  induction bs generalizing i b with
  | nil => rfl
  | cons c cs ih =>
    rw [SMap.runFrom, byteRuns, ih (i + 1) c]
    simp only [if_true]

/-! #### The buffer's bytes -/

/-- The byte that an entry holds for an address. -/
def BufEntry.byte (e : BufEntry) (home pa : Nat) : Option Byte :=
  match e.kind with
  | .data bytes _ _ => if e.home = home ∧ e.pa = pa / 64 * 64 then SMap.get? bytes (pa % 64) else none
  | _ => none

theorem bufByte_eq (buf : List BufEntry) (home pa : Nat) : bufByte buf home pa = buf.reverse.findSome? (·.byte home pa) := rfl

/-- The byte that a store to a block gives an address. -/
def BlockStore.byte (b : BlockStore) (home pa : Nat) : Option Byte :=
  if b.home = home ∧ b.pa = pa / 64 * 64 then SMap.get? b.bytes (pa % 64) else none

theorem BlockStore.entry_byte (b : BlockStore) (home pa : Nat) : b.entry.byte home pa = b.byte home pa := rfl

/-- Laid over a map, the store's bytes stand over the map's. -/
def BlockStore.Overlays (b : BlockStore) : Prop :=
  ∀ (m : SMap Byte) (k : Nat),
    (b.bytes.foldl (fun m c => SMap.set m c.1 c.2) m).get? k = (b.bytes.get? k).or (m.get? k)

theorem blockOf_overlays (x : Xlate) (va : Word) (bs : List Byte) (desc : Option W16) (strl : Bool) (path : Nat) :
    (blockOf x va bs desc strl path).Overlays := by
  intro m k
  simp only [blockOf, SMap.puts_nil]
  exact SMap.get?_over_runFrom ..

section
variable {b : BlockStore} {e : BufEntry} {home pa : Nat}

theorem BlockStore.merge_byte (lays : b.Overlays) (same : b.same e = true) :
    (b.merge e).byte home pa = (b.byte home pa).or (e.byte home pa) := by
  simp only [BlockStore.same, Bool.and_eq_true, beq_iff_eq] at same
  obtain ⟨⟨homes, pas⟩, data⟩ := same
  cases kind : e.kind with
  | data bytes d strl =>
    simp only [BlockStore.merge, kind, BufEntry.byte, BlockStore.byte, homes, pas]
    split
    · exact lays ..
    · rfl
  | _ => simp [kind, BufKind.isData] at data

/-- An entry for another block says nothing of the addresses of this one. -/
theorem BlockStore.byte_or_other (other : ¬ b.same e = true) (rest : Option Byte) :
    (e.byte home pa).or ((b.byte home pa).or rest) = (b.byte home pa).or ((e.byte home pa).or rest) := by
  cases kind : e.kind with
  | data bytes d strl =>
    simp only [BlockStore.same, kind, BufKind.isData, Bool.and_true, Bool.and_eq_true, beq_iff_eq] at other
    simp only [BufEntry.byte, kind, BlockStore.byte]
    by_cases mine : b.home = home ∧ b.pa = pa / 64 * 64
    · rw [if_neg fun his => other ⟨his.1.trans mine.1.symm, his.2.trans mine.2.symm⟩]
      rfl
    · rw [if_neg mine]
      rfl
  | _ => simp [BufEntry.byte, kind]

theorem findSome?_cons_byte (e : BufEntry) (es : List BufEntry) :
    (e :: es).findSome? (·.byte home pa) = (e.byte home pa).or (es.findSome? (·.byte home pa)) := by
  rw [List.findSome?_cons]
  cases e.byte home pa <;> rfl

theorem mergePlain_byte (lays : b.Overlays) {es fs : List BufEntry} (merged : mergePlain b es = some fs) :
    fs.findSome? (·.byte home pa) = (b.byte home pa).or (es.findSome? (·.byte home pa)) := by
  induction es generalizing fs with
  | nil => cases merged
  | cons e es ih =>
    simp only [mergePlain] at merged
    split at merged
    · cases merged
    · split at merged
      · rename_i same
        cases merged
        rw [findSome?_cons_byte, findSome?_cons_byte, BlockStore.merge_byte lays same, Option.or_assoc]
      · rename_i other
        obtain ⟨gs, rest, rfl⟩ := Option.map_eq_some_iff.1 merged
        rw [findSome?_cons_byte, findSome?_cons_byte, ih rest, BlockStore.byte_or_other other]

/-- A store that the buffer takes stands over what the buffer held. -/
theorem bufStore_byte (lays : b.Overlays) {buf buf' : List BufEntry} (stored : bufStore buf b = some buf') :
    bufByte buf' home pa = (b.byte home pa).or (bufByte buf home pa) := by
  have entered : ∀ merged : Option (List BufEntry),
      (∀ fs, merged = some fs → fs.findSome? (·.byte home pa) =
        (b.byte home pa).or (buf.reverse.findSome? (·.byte home pa))) →
      (match merged with
        | some r => some r.reverse
        | none => if buf.length < Config.bufEntries then some (buf ++ [b.entry]) else none) = some buf' →
      bufByte buf' home pa = (b.byte home pa).or (bufByte buf home pa) := by
    intro merged holds taken
    cases merged with
    | some fs =>
      cases taken
      rw [bufByte_eq, List.reverse_reverse, holds fs rfl, bufByte_eq]
    | none =>
      simp only at taken
      split at taken
      · cases taken
        rw [bufByte_eq, List.reverse_append, List.reverse_singleton, List.singleton_append, findSome?_cons_byte]
        rfl
      · cases taken
  simp only [bufStore] at stored
  refine entered _ ?_ stored
  intro fs merged
  split at merged
  · split at merged
    · rename_i e es newest
      split at merged
      · rename_i same
        cases merged
        rw [newest, findSome?_cons_byte, findSome?_cons_byte, BlockStore.merge_byte lays same, Option.or_assoc]
      · cases merged
    · cases merged
  · exact mergePlain_byte lays merged

end

/-! #### What the strand sees -/

theorem State.seen_one (s : State) (home a : Nat) :
    s.seen home a 1 = [(bufByte s.cur.ph.buf home a).getD (Memory.read (s.mem.at' home) a)] := by
  simp only [State.seen, tab, tabFrom, Nat.add_zero, Mem.at']
  cases bufByte s.cur.ph.buf home a <;> rfl

theorem Mem.bytes_one (m : Mem) (home a : Nat) : m.bytes home a 1 = [Memory.read (m.at' home) a] := rfl

/-- The bytes that a store gives, by address. -/
theorem blockOf_byte {x : Xlate} {va : Word} {bs : List Byte} {strl : Bool} (inside : x.pa % 64 + bs.length ≤ 64) (home a : Nat) :
    (blockOf x va bs none strl).byte home a =
      if home = x.home ∧ x.pa ≤ a ∧ a < x.pa + bs.length then some (bs.getD (a - x.pa) 0) else none := by
  simp only [BlockStore.byte, blockOf, SMap.puts_nil, SMap.get?_runFrom]
  by_cases stored : home = x.home ∧ x.pa ≤ a ∧ a < x.pa + bs.length
  · obtain ⟨rfl, low, high⟩ := stored
    rw [if_pos ⟨rfl, by omega⟩, if_pos (by omega), if_pos ⟨rfl, low, high⟩, show a % 64 - x.pa % 64 = a - x.pa by omega,
      List.getD_eq_getElem?_getD, List.getElem?_eq_getElem (by omega)]
    rfl
  · rw [if_neg stored]
    split
    · rename_i block
      split
      · rw [List.getElem?_eq_none]
        have := fun low high => stored ⟨block.1.symm, low, high⟩
        omega
      · rfl
    · rfl

/-- The memory after a store that is written through. -/
theorem storeBlock_written {t : State} {x : Xlate} {va : Word} {b : Byte} {bs : List Byte} {strl : Bool}
    (unrep : t.cur.ph.rep = false) (local' : x.home ≤ 1) :
    t.storeBlock (blockOf x va (b :: bs) none strl) = { t with mem := t.mem.put x.home x.pa (b :: bs) } := by
  have homes : x.home ≠ 3 ∧ x.home ≠ 2 := by omega
  have whole : x.pa / 64 * 64 + x.pa % 64 = x.pa := by omega
  simp only [State.storeBlock, unrep, Bool.false_eq_true, if_false, State.putBlock, blockOf, if_neg homes.1, if_neg homes.2,
    SMap.puts_nil, byteRuns_runFrom, List.foldl_cons, List.foldl_nil, whole, ite_self]

/-- Settles O20: the buffer's new entry, or the bytes written, stand over what the strand saw. -/
theorem storedBytesAreSeen : Obligations.StoredBytesAreSeen := by
  intro s t x va bytes strl e u stored _ wf home1 inside pos fits drained
  have memory : t.mem.wf := by simpa [State.memWf, Mem.wf] using wf
  cases rep : t.cur.ph.rep with
  | true =>
    obtain ⟨buf, taken⟩ := Option.isSome_iff_exists.1 (fits rep)
    have after : u = t.setPhase fun p => { p with buf } := by simp only [u, State.storeBlock, rep, if_true, taken]
    refine ⟨fun home a _ => ?_, fun _ => by rw [after]; rfl, nofun⟩
    rw [State.seen_one, after, State.setPhase_cur, State.setPhase_mem, bufStore_byte (blockOf_overlays x va bytes none strl 0) taken, State.seen_one,
      blockOf_byte inside]
    simp only [stored]
    split <;> rfl
  | false =>
    obtain ⟨b, bs, rfl⟩ := List.exists_cons_of_length_pos pos
    have after : u = { t with mem := t.mem.put x.home x.pa (b :: bs) } := storeBlock_written rep home1
    have same : ∀ home, home ≤ 1 → ((x.home = 1 ↔ home = 1) ↔ home = x.home) := by omega
    refine ⟨fun home a near => ?_, nofun, fun _ home a near out => ?_⟩
    · rw [State.seen_one, after, State.seen_one, drained rep, Mem.read_put _ _ _ memory]
      simp only [same home near, stored]
      split <;> rfl
    · rw [after, Mem.bytes_one, Mem.bytes_one, Mem.read_put _ _ _ memory]
      simp only [same home near]
      rw [if_neg out]

end Machine

end Sys2Proof

/-! ### Joint words -/

namespace Sys2Proof.Machine

/-- The engine of W once it waits at a joint word. -/
def Engine.waits (e : Engine) (isEnd : Bool) (clock : Nat) : Engine :=
  { e with arrived := true, atEnd := isEnd, why := 9, since := some (e.since.getD clock), tick := e.tick + 1 }

theorem waitJoint_w {s : State} (turn : s.turn.engine = some .w) (isEnd : Bool) :
    s.waitJoint isEnd = s.setEng .w fun e => e.waits isEnd s.clock := by
  simp only [State.waitJoint, turn]
  rfl

theorem waitJoint_turn (s : State) (isEnd : Bool) : (s.waitJoint isEnd).turn = s.turn := by
  simp only [State.waitJoint]
  split
  · rfl
  · simp only [State.tickOn, State.landed]
    split <;> rfl

/-- An engine other than W waits. -/
theorem joint_waits {isEnd : Bool} {ready : State → Bool} {effect : State → Out} {s : State} {g : Eng}
    (turn : s.turn.engine = some g) (other : g ≠ .w) : joint isEnd ready effect s = .next (s.waitJoint isEnd) := by
  have notW : ¬ (s.waitJoint isEnd).turn.engine = some .w := by
    rw [waitJoint_turn, turn]
    exact fun k => other (Option.some.inj k)
  simp only [joint]
  rw [if_neg fun k => notW k.1]

/-- W, the last to arrive, takes the word's effect. -/
theorem joint_takes {isEnd : Bool} {ready : State → Bool} {effect : State → Out} {s : State} (meets : s.Meets)
    (isReady : ready (s.waitJoint isEnd) = true) : joint isEnd ready effect s = effect (s.waitJoint isEnd) := by
  obtain ⟨turn, -, at'⟩ := meets
  have met : (s.waitJoint isEnd).cur.met = true := by
    have a := at' .a
    have x := at' .x
    have m := at' .m
    simp only [Strand.engine, PerEng.get] at a x m
    rw [waitJoint_w turn]
    simp [Strand.met, PerEng.every, PerEng.set, PerEng.get, Engine.waits, a.1, a.2, x.1, x.2, m.1, m.2]
  simp only [joint]
  rw [if_pos ⟨by rw [waitJoint_turn, turn], met, isReady⟩]

/-- W waits until the word is ready. -/
theorem joint_unready {isEnd : Bool} {ready : State → Bool} {effect : State → Out} {s : State}
    (unready : ready (s.waitJoint isEnd) = false) : joint isEnd ready effect s = .next (s.waitJoint isEnd) := by
  simp only [joint]
  rw [if_neg fun k => by simp [unready] at k]

theorem State.Meets.cur {s : State} (meets : s.Meets) (isEnd : Bool) :
    (s.waitJoint isEnd).cur = s.cur.setEngine .w fun e => e.waits isEnd s.clock := by
  rw [waitJoint_w meets.1]
  rfl

theorem quietX_of {t : Strand} (quiet : ∀ f ∈ t.fl, f.g ≠ .x) : t.quietX = true := by
  simpa [Strand.quietX] using quiet

/-- What SYNC, YIELD and END wait for (R111). -/
theorem State.Meets.quietX {s : State} (meets : s.Meets) (quiet : ∀ f ∈ s.cur.fl, f.g ≠ .x) (isEnd : Bool) :
    (s.waitJoint isEnd).cur.quietX = true := by
  rw [meets.cur]
  exact quietX_of quiet

/-- What MODE waits for (R112). -/
theorem State.Meets.allQuiet {s : State} (meets : s.Meets) (fl : s.cur.fl = []) (ops : ∀ p ∈ s.cur.ops, p.sp = false ∧ p.sn = false)
    (nests : ∀ n ∈ s.cur.nest.toList ++ s.cur.pend.toList, n.sp = false ∧ n.sn = false) :
    (s.waitJoint false).cur.allQuiet = true := by
  have signals : ∀ n : Option Nest, (∀ k ∈ n.toList, k.sp = false ∧ k.sn = false) →
      (!((n.map fun k => k.sp || k.sn).getD false)) = true := by
    intro n clear
    cases n with
    | none => rfl
    | some k => simp [clear k (by simp)]
  rw [meets.cur]
  have noOp : (s.cur.ops.all fun o => !(o.sp || o.sn)) = true := by
    rw [List.all_eq_true]
    intro p mem
    simp [ops p mem]
  simp only [Strand.allQuiet, Strand.setEngine_fl, Strand.setEngine_ops, Strand.setEngine_nest, Strand.setEngine_pend, fl,
    noOp, signals _ fun k mem => nests k (List.mem_append_left _ mem), signals _ fun k mem => nests k (List.mem_append_right _ mem)]
  rfl

/-- What PHASE waits for (R112, R300). -/
theorem State.Meets.phaseReady {s : State} (meets : s.Meets) (quiet : ∀ f ∈ s.cur.fl, f.g ≠ .x) (nest : s.cur.nest = none)
    (pend : s.cur.pend = none) (ops : ∀ p ∈ s.cur.ops, p.done = true) (answered : s.cur.awaiting = false) :
    phaseReady (s.waitJoint false) = true := by
  have work : (s.waitJoint false).cur.workDone = true := by
    rw [meets.cur]
    simpa [Strand.workDone, nest, pend] using ops
  have done : (s.waitJoint false).cur.awaiting = false := by
    rw [meets.cur]
    exact answered
  simp only [Machine.phaseReady, meets.quietX quiet, work, done]
  rfl

/-! #### YIELD -/

/-- What YIELD does once the engines have left the word. -/
def yieldFrom (s : State) : Out :=
  if !s.cur.runs || !s.frameFree then .next s
  else if s.cur.preempt then .next (s.stashStrand 0)
  else if s.curLeaving && s.cur.st == .running then .next (s.moveStrand 0)
  else .next s

theorem execYieldJ_eq {s : State} (meets : s.Meets) (quiet : ∀ f ∈ s.cur.fl, f.g ≠ .x) :
    exec .yieldJ s = yieldFrom ((s.waitJoint false).leaveJoint 1) := by
  rw [exec_yieldJ]
  exact joint_takes meets (meets.quietX quiet false)

theorem yieldFrom_stays {s : State} (stays : s.cur.preempt = false) (place : s.curLeaving = false) : yieldFrom s = .next s := by
  simp only [yieldFrom, stays, place]
  split <;> rfl

theorem yieldFrom_moves {s : State} (stays : s.cur.preempt = false) (running : s.cur.st = .running) (place : s.curLeaving = true)
    (frame : s.frameFree = true) : yieldFrom s = .next (s.moveStrand 0) := by
  simp [yieldFrom, Strand.runs, stays, running, place, frame]

theorem yieldFrom_stashes {s : State} (preempt : s.cur.preempt = true) (runs : s.cur.runs = true) (frame : s.frameFree = true) :
    yieldFrom s = .next (s.stashStrand 0) := by
  simp [yieldFrom, preempt, runs, frame]

/-! #### PHASE -/

theorem phaseEffect_illegal {s : State} (full : s.cur.links.empty? = false) :
    phaseEffect s = .next (s.takeTrap .a tILLEGAL (s.cur.illegalArgs .a)) := by
  simp [phaseEffect, full]

theorem phaseEffect_finishes {s : State} (empty : s.cur.links.empty? = true) (released : s.startCommit.cur.ph.buf = []) :
    phaseEffect s = .next s.startCommit.finishPhase := by
  simp [phaseEffect, empty, released]

theorem phaseEffect_commits {s : State} (empty : s.cur.links.empty? = true) (holds : ¬ s.startCommit.cur.ph.buf = []) :
    phaseEffect s = .next (s.startCommit.postOnce .phaseCommitDone s.startCommit.cur.key) := by
  simp [phaseEffect, empty, holds]

/-- Settles O21: the engines that wait, and what each joint word does once all four have met. -/
theorem jointWords : Obligations.JointWords := by
  intro s o y m at' quiet answered allQuiet done phase
  refine ⟨fun i mem g turn other => ?_, fun g turn other => ?_, fun meets still => ?_, fun meets still => ?_,
    fun meets handler => ?_, fun meets still running => ?_, fun meets still stays place => ?_,
    fun meets still stays running place frame => ?_, fun meets still preempt runs frame => ?_, fun i mem meets finished ans => ?_⟩
  · simp only [List.mem_cons, List.not_mem_nil, or_false] at mem
    rcases mem with rfl | rfl | rfl | rfl | rfl
    · rw [exec_sync, execSync]; exact joint_waits turn other
    · rw [exec_phase, execPhase]; exact joint_waits turn other
    · rw [exec_phaseLong, execPhaseLong]; exact joint_waits turn other
    · rw [exec_mode, execMode]; exact joint_waits turn other
    · rw [exec_yieldJ, execYieldJ]; exact joint_waits turn other
  · rw [exec_endJ, execEndJ]
    exact joint_waits turn other
  · rw [exec_sync, execSync, joint_takes meets (meets.quietX still false)]
  · rw [exec_mode, execMode, joint_takes meets (meets.allQuiet still.1 still.2.1 still.2.2)]
  · rw [exec_endJ, execEndJ]
    refine joint_unready ?_
    rw [meets.cur]
    simp [handler]
  · have ready : ((s.waitJoint true).cur.quietX && (s.waitJoint true).cur.st == .running) = true := by
      rw [meets.quietX still true, meets.cur]
      simp [running]
    have key : (s.waitJoint true).cur.key = s.cur.key := by rw [meets.cur]; rfl
    rw [exec_endJ, execEndJ, joint_takes meets ready, ← key]
  · rw [execYieldJ_eq meets still]
    change yieldFrom (at'.leaveJoint 1) = _
    exact yieldFrom_stays stays place
  · rw [execYieldJ_eq meets still]
    change yieldFrom (at'.leaveJoint 1) = _
    exact yieldFrom_moves stays running place frame
  · rw [execYieldJ_eq meets still]
    change yieldFrom (at'.leaveJoint 1) = _
    exact yieldFrom_stashes preempt runs frame
  · obtain ⟨still, nest, pend, ops⟩ := finished
    have takes : exec i s = phaseEffect at' := by
      have ready := meets.phaseReady still nest pend ops ans
      simp only [List.mem_cons, List.not_mem_nil, or_false] at mem
      rcases mem with rfl | rfl
      · rw [exec_phase, execPhase]; exact joint_takes meets ready
      · rw [exec_phaseLong, execPhaseLong]; exact joint_takes meets ready
    rw [takes]
    exact ⟨phaseEffect_illegal, phaseEffect_finishes, phaseEffect_commits⟩

end Sys2Proof.Machine

/-! ### Words written out -/

namespace Sys2Proof

/-- Settles O57: each word of the tables decodes as it is laid out. -/
theorem decodedWords : Obligations.DecodedWords :=
  ⟨rfl, rfl, rfl, rfl, rfl, rfl, rfl, rfl, rfl, rfl⟩

end Sys2Proof

/-! ### Turns -/

namespace Sys2Proof.Machine

/-! #### An engine's turn -/

/-- A strand at the front whose engine stands at a word that decodes. -/
structure State.AtWord (s : State) (g : Eng) (i : Instr) : Prop where
  inside : (s.cur.engine g).pc < s.cur.text.length
  first : isCont s.cur.text (s.cur.engine g).pc = false
  word : decode (s.cur.wordsAt (s.cur.engine g).pc).1 (s.cur.wordsAt (s.cur.engine g).pc).2 = .ok i

theorem State.AtWord.fetch {s : State} {g : Eng} {i : Instr} (at' : s.AtWord g i) :
    s.cur.fetch (s.cur.engine g).pc = .ok i := by
  have wf : i.wellFormed = true := (decodeEncode.2 _ _ _ at'.word).1
  simp only [Strand.fetch, at'.word, at'.first, wf]
  rw [if_neg (Nat.not_le.2 at'.inside)]
  rfl

theorem State.Ready.runs {s : State} {g : Eng} (ready : s.Ready g) : s.cur.runs = true := by
  rcases ready.running with st | st <;> simp [Strand.runs, st]

theorem State.Ready.issueAt {s : State} {g : Eng} {i : Instr} (ready : s.Ready g) (at' : s.AtWord g i) :
    s.issueAt g = exec i s := by
  have free : (if (s.cur.engine g).arrived then none else s.breakAt g (s.cur.engine g).pc) = none := by
    rcases ready.breaks with arrived | none
    · rw [if_pos arrived]
    · rw [none, ite_self]
  simp only [State.issueAt, free, at'.fetch]

theorem State.Ready.goOn {s : State} {g : Eng} {i : Instr} (ready : s.Ready g) (at' : s.AtWord g i) :
    s.goOn g = exec i s := by
  have bubble : ¬ 0 < (s.cur.engine g).bubble := by simp [ready.bubble]
  simp only [State.goOn, ready.moves, Option.isSome_none, Bool.false_eq_true, if_false, if_neg bubble, ready.power]
  exact ready.issueAt at'

theorem State.Ready.engineTurn {s : State} {g : Eng} {i : Instr} (ready : s.Ready g) (at' : s.AtWord g i) :
    s.engineTurn g = exec i s := by
  have goes : ¬ (!s.cur.runs || s.cur.ph.st == .cancelled) = true := by simp [ready.runs, ready.phase.1]
  simp only [State.engineTurn]
  rw [if_neg goes, if_neg ready.phase.2]
  simp only [ready.free, ready.back, ready.late, ready.emits, ready.lands, ready.time, Option.isSome_none, Bool.false_eq_true,
    if_false]
  exact ready.goOn at'

theorem State.Ready.wordRank {s : State} {g : Eng} {i : Instr} (ready : s.Ready g) (at' : s.AtWord g i) :
    s.wordRank g = putOffRank i := by
  have goes : ¬ (!s.cur.runs || s.cur.ph.st == .cancelled || s.cur.ph.st == .committing) = true := by
    simp [ready.runs, ready.phase.1, ready.phase.2]
  have next : s.nextInstr g = some i := by simp only [State.nextInstr, State.pc, at'.word]
  simp only [State.wordRank]
  rw [if_neg goes]
  simp only [ready.moves, Option.isSome_none, Bool.false_eq_true, if_false]
  exact congrArg (·.bind putOffRank) next

theorem firstTurn_goes {s : State} {g : Eng} {i : Instr} (ready : s.Ready g) (at' : s.AtWord g i)
    (first : putOffRank i = none ∨ g = .x ∨ g = .w) : s.firstTurn g = s.turnFrom g (exec i s) := by
  have rank : (if g = .a ∨ g = .m then s.wordRank g else none) = none := by
    rcases first with free | rfl | rfl
    · rw [ready.wordRank at', free, ite_self]
    · rfl
    · rfl
  simp only [State.firstTurn, rank, ready.engineTurn at', State.turnFrom] <;> cases exec i s <;> rfl

theorem firstTurn_putOff {s : State} {g : Eng} {i : Instr} {r : Nat} (ready : s.Ready g) (at' : s.AtWord g i)
    (behind : putOffRank i = some r) (eng : g = .a ∨ g = .m) : s.firstTurn g = .next ((s.putOff g r).turnAfter g) := by
  simp only [State.firstTurn, if_pos eng, ready.wordRank at', behind]

theorem laterTurn_goes {s : State} {g : Eng} {i : Instr} (ready : s.Ready g) (at' : s.AtWord g i) :
    s.laterTurn g = s.againFrom g (exec i s) := by
  simp only [State.laterTurn, ready.engineTurn at', State.againFrom] <;> cases exec i s <;> rfl

/-! #### The units' turn -/

theorem takeInput_runs {s : State} {i : Instr} {n : Nat} (here : s.inputs[n]? = some i) (act : i.parts = none)
    (takes : s.takesInput i = true) : s.takeInput n = exec i { s with inputs := s.inputs.eraseIdx n } := by
  simp only [State.takeInput, here, act, takes]
  rfl

theorem takeInput_drops {s : State} {i : Instr} {n : Nat} (here : s.inputs[n]? = some i) (refuses : s.takesInput i = false) :
    s.takeInput n = .next { s with inputs := s.inputs.eraseIdx n } := by
  simp only [State.takeInput, here, refuses, Bool.not_false, Bool.or_true]
  rfl

/-- An outside act comes before the units' steps of its rank. -/
theorem unitsTurn_input {s : State} {r n : Nat} (input : s.nextInput = some (r, n))
    (before : ∀ q, s.nextPost = some q → r ≤ q.1) : s.unitsTurn = s.takeInput n := by
  simp only [State.unitsTurn, input]
  cases post : s.nextPost with
  | none => rfl
  | some q => exact if_pos (before q post)

theorem unitsTurn_post {s : State} {r n : Nat} (post : s.nextPost = some (r, n))
    (before : ∀ q, s.nextInput = some q → r < q.1) : s.unitsTurn = s.takePost n := by
  simp only [State.unitsTurn, post]
  cases input : s.nextInput with
  | none => rfl
  | some q => exact if_neg (Nat.not_le.2 (before q input))

theorem takePost_runs {s : State} {p : Post} {n : Nat} (here : s.todo[n]? = some p) :
    s.takePost n = match runPost p { s with left := s.left - 1, todo := s.todo.eraseIdx n } with
      | .next t => .next (t.dropRead p)
      | o => o := by
  simp only [State.takePost, here] <;> rfl

/-! #### The next outside act, the next step -/

theorem nextInput_nil {s : State} (empty : s.inputs = []) : s.nextInput = none := by
  simp [State.nextInput, empty, leastOf]

theorem nextInput_single {s : State} {i : Instr} (one : s.inputs = [i]) (free : s.portHeld i = false) :
    s.nextInput = some (s.inputRank i, 0) := by
  have first : (isWrite i && (0 : Nat) != if counterWrite i = true then [i].findIdx counterWrite
      else [i].findIdx fun i => isWrite i && !counterWrite i) = false := by
    by_cases counter : counterWrite i = true
    · simp [List.findIdx_cons, counter]
    · by_cases write : isWrite i = true <;> simp [List.findIdx_cons, counter, write]
  have kept : (s.inputs.zipIdx.filter fun e => !s.portHeld e.1) = [(i, 0)] := by simp [one, free]
  simp only [State.nextInput, kept]
  simp only [one, leastOf, List.zipIdx_cons, List.zipIdx_nil, List.foldl_cons, List.foldl_nil, first]
  rfl

theorem nextInput_ports {s : State} {port lanes : Nat} (two : s.inputs = [.portLaneLost port, .portTrainingEnd port lanes])
    (free : s.emitting (2 ^ 20 + port) = false) : s.nextInput = some (510, 1) := by
  have kept : (s.inputs.zipIdx.filter fun e => !s.portHeld e.1) =
      [(.portLaneLost port, 0), (.portTrainingEnd port lanes, 1)] := by
    have held : s.portHeld (.portLaneLost port) = false ∧ s.portHeld (.portTrainingEnd port lanes) = false := ⟨free, free⟩
    simp [two, held]
  simp only [State.nextInput, kept]
  rfl

theorem nextPost_nil {s : State} (empty : s.left = 0 ∨ s.todo = []) : s.nextPost = none := by
  rcases empty with left | todo
  · simp [State.nextPost, left, leastOf]
  · simp [State.nextPost, todo, leastOf]

theorem nextPost_single {s : State} {p : Post} (one : s.todo = [p]) (left : 1 ≤ s.left) : s.nextPost = some (s.postRank p, 0) := by
  rw [State.nextPost, one, List.take_of_length_le left]
  rfl

/-! #### Whose turn is next -/

theorem endTurn_passes {s t : State} {g : Eng} (h : (s.cur.engine g).tri ≠ none ∨ (t.cur.engine g).tri = none) :
    s.endTurn t g = t.turnAfter g := by
  have : ((s.cur.engine g).tri.isNone && (t.cur.engine g).tri.isSome) = false := by
    rcases h with h | h
    · simp [h]
    · simp [h]
  simp [State.endTurn, this]

theorem endTurn_stays {s t : State} {g : Eng} (before : (s.cur.engine g).tri = none) (after : (t.cur.engine g).tri ≠ none) :
    s.endTurn t g = t := by
  simp [State.endTurn, before, Option.isSome_iff_ne_none.2 after]

theorem toAgain_closes {s : State} (empty : s.laters = []) : s.toAgain = { s with turn := .close } := by
  simp only [State.toAgain, State.nextLater, empty, List.foldl_nil]

theorem step_units {s : State} (turn : s.turn = .units) : step s = s.unitsTurn := by rw [step, State.advance, turn]
theorem step_eng {s : State} {g : Eng} (turn : s.turn = .eng g) : step s = s.firstTurn g := by rw [step, State.advance, turn]
theorem step_again {s : State} {g : Eng} (turn : s.turn = .again g) : step s = s.laterTurn g := by
  rw [step, State.advance, turn]
theorem step_close {s : State} (turn : s.turn = .close) : step s = .next s.closeTurn := by rw [step, State.advance, turn]

/-- Settles O58: the turn of an engine whose word decodes, of the units, and the order of the turns. -/
theorem stepRunsDecodedInstruction : Obligations.StepRunsDecodedInstruction := by
  refine ⟨?_, fun s i p r n turn => ⟨fun input before here => ⟨fun act takes => ?_,
    fun refuses => ?_⟩, fun post before here => ?_, fun input post => ?_⟩, fun s i p port lanes => ⟨nextInput_nil,
    nextInput_single, nextInput_ports, nextPost_nil, nextPost_single, fun up => ?_⟩, fun s t g k n => ⟨fun turn => ?_,
    endTurn_passes, endTurn_stays, rfl, fun found => ?_, fun gone => ?_, toAgain_closes⟩⟩
  · intro s g i p w ready inside first word
    have at' : s.AtWord g i := ⟨inside, first, word⟩
    exact ⟨fun turn free => (step_eng turn).trans (firstTurn_goes ready at' free),
      fun r turn behind eng => (step_eng turn).trans (firstTurn_putOff ready at' behind eng),
      fun turn => (step_again turn).trans (laterTurn_goes ready at')⟩
  · exact (step_units turn).trans ((unitsTurn_input input before).trans (takeInput_runs here act takes))
  · exact (step_units turn).trans ((unitsTurn_input input before).trans (takeInput_drops here refuses))
  · exact (step_units turn).trans ((unitsTurn_post post before).trans (takePost_runs here))
  · rw [step_units turn]
    simp only [State.unitsTurn, input, post]
  · simp [State.takesInput, up]
  · exact step_close turn
  · simp only [State.strandTurn, found]
  · simp only [State.strandTurn, gone]

end Sys2Proof.Machine

/-! ### Reset and a new strand -/

namespace Sys2Proof.Machine

theorem getD_replicate_self {α : Type} (n k : Nat) (v : α) : (List.replicate n v).getD k v = v := by
  rw [List.getD_eq_getElem?_getD, List.getElem?_replicate]
  split <;> rfl

section
variable (key entry : Nat) (sh0 : List W32) (win : BitVec 9) (text : List W32)

theorem Strand.new_reg (g : Eng) (n : BitVec 5) : (Strand.new key entry sh0 win text).reg g n = 0 := by
  simp only [Strand.reg]
  split
  · rfl
  · cases g <;> exact getD_replicate_self ..

theorem Strand.new_vec (k m : Nat) : (((Strand.new key entry sh0 win text).x.v.getD k []).getD m 0) = 0 := by
  show ((List.replicate 32 (List.replicate 1024 (0 : W32))).getD k []).getD m 0 = 0
  rw [List.getD_eq_getElem?_getD (l := List.replicate 32 _), List.getElem?_replicate]
  split
  · exact getD_replicate_self ..
  · rfl

theorem Strand.new_pred {k : Nat} (pos : 0 < k) : (Strand.new key entry sh0 win text).x.pred k = 0 := by
  obtain ⟨j, rfl⟩ := Nat.exists_eq_succ_of_ne_zero (Nat.ne_of_gt pos)
  rw [XUnit.pred, if_neg (Nat.succ_ne_zero j)]
  show (BitVec.allOnes 1024 :: List.replicate 15 0).getD (j + 1) 0 = 0
  rw [List.getD_cons_succ, getD_replicate_self]

/-- The system registers of R142 in a new strand. -/
theorem Strand.new_sysReg (g : Eng) : ∀ r ∈ [(0, 0), (4, win.setWidth 64), (5, 1048576), (6, 1), (7, 0), (8, 0), (9, 0), (19, 0),
    (20, 0), (21, 0), (22, 0), (23, 0), (24, 0), (25, 0), (26, 0), (28, 0), (29, 0), (30, 0), (31, (0 : Word))],
    (Strand.new key entry sh0 win text).sysReg 0 g r.1 = r.2 := by
  have ringst : Links.empty.ringst = 0 := by decide
  simp only [List.forall_mem_cons]
  cases g <;>
    exact ⟨rfl, rfl, rfl, rfl, rfl, rfl, rfl, rfl, rfl, rfl, rfl, rfl, rfl, rfl, rfl, rfl, rfl, rfl, ringst, nofun⟩

end

/-- Settles O59: the state after reset is empty, and a new strand is as dispatch loads it. -/
theorem resetState : Obligations.ResetState := by
  refine ⟨rfl, fun _ => ⟨rfl, rfl⟩, rfl, rfl, rfl, rfl, rfl, rfl, rfl, rfl, rfl, rfl, rfl, rfl, rfl, by decide, rfl, rfl, rfl, ?_⟩
  intro key entry sh0 win text g n t
  refine ⟨rfl, by cases g <;> rfl, Strand.new_reg .., rfl, rfl, fun k _ => ?_, fun k _ => getD_replicate_self .., rfl, rfl, rfl,
    fun _ _ => Strand.new_vec .., fun _ => Strand.new_pred _ _ _ _ _, rfl, rfl, ?_,
    Strand.new_sysReg _ _ _ _ _ _⟩
  · show (List.replicate 15 ([0, 0, 0, 0] : List W32)).getD k [] = _
    rw [List.getD_eq_getElem?_getD, List.getElem?_replicate, if_pos (by assumption)]
    rfl
  · intro k _
    have levels : (t.engine g).levels = List.replicate 3 .off := by cases g <;> rfl
    rw [levels, getD_replicate_self]
    exact ⟨rfl, rfl⟩

end Sys2Proof.Machine

/-! ### Memories stay in canonical form -/

namespace Sys2Proof.Machine

theorem State.memWf_iff (s : State) : s.memWf = true ↔ s.mem.wf := by simp [State.memWf, Mem.wf]

/-- Canonical memories stay canonical. -/
structure State.KeepsWf (s t : State) : Prop where
  wf : s.mem.wf → t.mem.wf

namespace State.KeepsWf

theorem refl (s : State) : s.KeepsWf s := ⟨id⟩
theorem trans {r s t : State} (h : r.KeepsWf s) (k : s.KeepsWf t) : r.KeepsWf t := ⟨fun wf => k.wf (h.wf wf)⟩

theorem before {r s t : State} (k : s.KeepsWf t) (h : r.KeepsWf s) : r.KeepsWf t := h.trans k

/-- Both memories stay as they are. -/
theorem of_bytes {s t : State} (dev : t.mem.dev = s.mem.dev) (host : t.mem.host = s.mem.host) : s.KeepsWf t :=
  ⟨fun wf => ⟨by rw [dev]; exact wf.1, by rw [host]; exact wf.2⟩⟩

/-- A change of what stands beside the memories. -/
theorem setMem (s : State) (m : Mem) (dev : m.dev = s.mem.dev) (host : m.host = s.mem.host) : s.KeepsWf { s with mem := m } :=
  .of_bytes dev host

theorem of_mem {s t : State} (mem : t.mem = s.mem) : s.KeepsWf t := .of_bytes (by rw [mem]) (by rw [mem])
theorem of_counts {s t : State} (counts : s.Counts t) : s.KeepsWf t := .of_mem counts.rest.left

theorem put (s : State) (home pa : Nat) (b : List Byte) : s.KeepsWf { s with mem := s.mem.put home pa b } :=
  ⟨fun wf => Mem.wf_put home pa b wf⟩

theorem foldl {α : Type} {f : State → α → State} (h : ∀ (s : State) (a : α), s.KeepsWf (f s a)) (l : List α) (s : State) :
    s.KeepsWf (l.foldl f s) := by
  induction l generalizing s with
  | nil => exact .refl s
  | cons a l ih => exact (h s a).trans (ih _)

/-- The memory is kept either way. -/
theorem ite {s t u : State} {c : Prop} [Decidable c] (h : s.KeepsWf t) (k : s.KeepsWf u) : s.KeepsWf (if c then t else u) := by
  split
  · exact h
  · exact k

end State.KeepsWf

open State (KeepsWf)

/-! #### Records, counts and posts -/

theorem postOnce_keepsWf (s : State) (w : What) (a b : Nat) : s.KeepsWf (s.postOnce w a b) := .ite (.refl s) (.of_mem rfl)
theorem repost_keepsWf (s : State) (p : Post) : s.KeepsWf (s.repost p) := postOnce_keepsWf ..
theorem postError_keepsWf (s : State) (c i st a src : Nat) : s.KeepsWf (s.postError c i st a src) := .of_mem rfl
theorem askPeer_keepsWf (s : State) (r : Remote) : s.KeepsWf (s.askPeer r) := .of_mem rfl
theorem queueAtom_keepsWf (s : State) (r : AtomReq) : s.KeepsWf (s.queueAtom r) :=
  .trans (.setMem s { s.mem with atoms := s.mem.atoms ++ [r] } rfl rfl) (postOnce_keepsWf ..)

theorem emitUnit_keepsWf (s : State) (core unit code : Nat) (ctx : Option Nat) (p0 : W32) (p1 : Word) :
    s.KeepsWf (s.emitUnit core unit code ctx p0 p1) :=
  .of_counts ((emitRec_counts ..).trans (countIn_counts ..))

theorem requestPage_keepsWf (s : State) (ctx : Nat) (va : Word) (code acc : Nat) (core : Option Nat) :
    s.KeepsWf (s.requestPage ctx va code acc core).2 := by
  simp only [State.requestPage]
  split
  · exact .refl s
  · split
    · exact .refl s
    · cases core with
      | none => exact .of_bytes rfl rfl
      | some c => exact ⟨fun wf => (emitUnit_keepsWf _ c 4 0xA01 (some ctx) _ _).wf wf⟩

/-! #### Translation -/

theorem walkFor_keepsWf {s t : State} {ctx : Nat} {core : Option Nat} {va : Word} {acc : Access} {x : Xlate}
    (done : s.walkFor ctx core va acc = .ok x t) : s.KeepsWf t := by
  simp only [State.walkFor] at done
  split at done
  · cases done
  · cases done
  · split at done
    · cases done
    · split at done
      · cases done
      · cases done
        refine ⟨fun wf => ?_⟩
        have set : ∀ (c : Prop) [Decidable c] (pa : Nat) (b : List Byte),
            (if c then s.mem else s.mem.put 0 pa b).wf := fun c _ pa b => by
          split
          · exact wf
          · exact Mem.wf_put 0 pa b wf
        cases core <;> exact set ..

theorem translate_keepsWf {s t : State} {ctx : Nat} {ws : List Window} {core : Option Nat} {va : Word} {acc : Access} {x : Xlate}
    (done : s.translate ctx ws core va acc = .ok x t) : s.KeepsWf t := by
  simp only [State.translate] at done
  split at done
  · split at done
    · cases done
    · split at done
      · cases done
      · cases done
        exact .refl s
  · split at done
    · cases done
    · split at done
      · exact walkFor_keepsWf done
      · split at done
        · split at done
          · cases done
            exact .refl s
          · exact walkFor_keepsWf done
        · exact walkFor_keepsWf done

/-! #### Accesses of hub agents -/

/-- The machine that an agent's access leaves. -/
def AgentRes.left {α : Type} : AgentRes α → State
  | .ok _ s => s
  | .drop s => s
  | .wait s => s

theorem agentXlate_keepsWf (s : State) (ctx : Nat) (va : Word) (wr : Bool) (src : Nat) (item : Post) (acc : Access) :
    s.KeepsWf (s.agentXlate ctx va wr src item acc).left := by
  have clear : ∀ (t : State) (ws : List AgentWait), t.KeepsWf { t with mem := { t.mem with waits := ws } } :=
    fun _ _ => .of_bytes rfl rfl
  have report : ∀ ws : List AgentWait,
      s.KeepsWf (if item.what.own || item.what == .ring then { s with mem := { s.mem with waits := ws } }
        else State.postError { s with mem := { s.mem with waits := ws } } ctx 0 0x105 va.toNat src) :=
    fun ws => .ite (clear s ws) ((clear s ws).trans (postError_keepsWf ..))
  simp only [State.agentXlate]
  split
  · exact clear s _
  split
  · exact report _
  split
  · rename_i done
    exact (translate_keepsWf done).trans (clear _ _)
  · exact clear s _
  · exact repost_keepsWf ..
  rename_i f _
  split
  · exact report _
  split
  · exact .refl s
  split
  · exact (requestPage_keepsWf ..).trans (repost_keepsWf ..)
  · refine (requestPage_keepsWf s ctx va f.code (accBits acc) none).trans ?_
    exact .ite (clear _ _) ((clear _ _).trans (postOnce_keepsWf ..))

theorem agentXlate_left {s : State} {ctx : Nat} {va : Word} {wr : Bool} {src : Nat} {item : Post} {acc : Access} {r : AgentRes Xlate}
    (done : s.agentXlate ctx va wr src item acc = r) : s.KeepsWf r.left := done ▸ agentXlate_keepsWf ..

theorem agentWrite_left {s : State} {ctx : Nat} {va : Word} {b : List Byte} {src : Nat} {item : Post} {r : AgentRes Unit}
    (done : s.agentWrite ctx va b src item = r) : s.KeepsWf r.left := by
  subst done
  simp only [State.agentWrite]
  split
  · rename_i done
    exact (agentXlate_left done).trans (.ite (askPeer_keepsWf ..) (.put ..))
  · rename_i done
    exact agentXlate_left done
  · rename_i done
    exact agentXlate_left done

theorem agentAdd_left {s : State} {owner ctx : Nat} {va add : Word} {src : Nat} {item : Post} {r : AgentRes Unit}
    (done : s.agentAdd owner ctx va add src item = r) : s.KeepsWf r.left := by
  subst done
  simp only [State.agentAdd]
  split
  · rename_i done
    exact (agentXlate_left done).trans (.ite (askPeer_keepsWf ..) (queueAtom_keepsWf ..))
  · rename_i done
    exact agentXlate_left done
  · rename_i done
    exact agentXlate_left done

theorem agentTry_keepsWf (s : State) (a : AgentStore) : s.KeepsWf (s.agentTry a) := by
  have gone : ∀ t : State, t.KeepsWf { t with mem := { t.mem with stores := t.mem.stores.erase a } } :=
    fun _ => .of_bytes rfl rfl
  have kept : ∀ r : AgentRes Unit, s.KeepsWf r.left →
      s.KeepsWf (match r with
        | .ok _ t => { t with mem := { t.mem with stores := t.mem.stores.erase a } }
        | .drop t => { t with mem := { t.mem with stores := t.mem.stores.erase a } }
        | .wait t => t) := by
    intro r h
    cases r with
    | ok _ t => exact h.trans (gone t)
    | drop t => exact h.trans (gone t)
    | wait t => exact h
  simp only [State.agentTry]
  refine kept _ ?_
  split
  · exact agentAdd_left rfl
  · exact agentWrite_left rfl

theorem agentPut_keepsWf (s : State) (key ctx : Nat) (va : Word) (bytes : List Byte) (add : Option Word) (src : Nat) :
    s.KeepsWf (s.agentPut key ctx va bytes add src) :=
  ⟨fun wf => (agentTry_keepsWf ..).wf wf⟩

/-! #### Released blocks -/

theorem Mem.wf_foldl_put (home pa : Nat) (runs : List (Nat × List Byte)) {m : Mem} (wf : m.wf) :
    (runs.foldl (fun (m : Mem) r => m.put home (pa + r.1) r.2) m).wf := by
  induction runs generalizing m with
  | nil => exact wf
  | cons r runs ih => exact ih (Mem.wf_put _ _ _ wf)

theorem putBlock_keepsWf (s : State) (va : Word) (home pa : Nat) (bytes : SMap Byte) (desc : Option W16) (paths : BitVec 8) :
    s.KeepsWf (s.putBlock va home pa bytes desc paths) := by
  simp only [State.putBlock]
  split
  · exact .of_counts (countCur_counts ..)
  · split
    · exact .foldl (fun _ _ => askPeer_keepsWf ..) _ _
    · refine ⟨fun wf => ?_⟩
      have written := Mem.wf_foldl_put home pa (byteRuns bytes) wf
      cases desc with
      | none => exact written
      | some d => exact Mem.wf_put _ _ _ written

/-! #### Pages that move -/

theorem writePool_keepsWf (s : State) (ctx pool : Nat) : s.KeepsWf (s.writePool ctx pool) := by
  simp only [State.writePool]
  split
  · exact .refl s
  · split
    · rename_i done
      exact (translate_keepsWf done).trans (.ite (askPeer_keepsWf ..) (.put ..))
    · exact .refl s

theorem returnFrame_keepsWf (s : State) (ctx home pa size : Nat) : s.KeepsWf (s.returnFrame ctx home pa size) := by
  simp only [State.returnFrame]
  split
  · exact .refl s
  · split
    · exact postError_keepsWf ..
    · exact .trans (.setMem s { s.mem with pools := SMap.set _ _ _ } rfl rfl) (writePool_keepsWf ..)

theorem unshare_keepsWf (s : State) (ctx home pa size : Nat) : s.KeepsWf (s.unshare ctx home pa size) := by
  simp only [State.unshare]
  split
  · exact returnFrame_keepsWf ..
  split
  · exact .refl s
  split
  · exact .refl s
  split
  · exact .trans (.setMem s (s.mem.setCount pa 0) rfl rfl) (returnFrame_keepsWf ..)
  · exact .setMem s (s.mem.setCount pa _) rfl rfl

theorem Memory.wf_filter {m : Memory} (f : Host.Cell → Bool) (wf : Memory.wf m = true) : Memory.wf (m.filter f) = true := by
  simp only [Memory.wf, Bool.and_eq_true, SMap.sorted_iff, List.all_eq_true] at wf ⊢
  exact ⟨wf.1.filter f, fun c mem => wf.2 c (List.mem_filter.mp mem).1⟩

theorem copyCells_wf (src : Memory) {dst : Memory} (a b n : Nat) (wf : Memory.wf dst = true) :
    Memory.wf (copyCells src dst a b n) = true := by
  have written : ∀ (cells : List Host.Cell) (m : Memory), Memory.wf m = true →
      Memory.wf (cells.foldl (fun m c => Memory.write m (b + (c.1 - a)) c.2) m) = true := by
    intro cells
    induction cells with
    | nil => exact fun _ h => h
    | cons c cells ih => exact fun m h => ih _ (Memory.wf_write _ _ h)
  exact written _ _ (Memory.wf_filter _ wf)

theorem Mem.wf_movedData {m : Mem} (wf : m.wf) {home a b n : Nat} {src : Memory} :
    (if home = 1 then { m with host := copyCells src m.host a b n } else { m with dev := copyCells src m.dev a b n }).wf := by
  split
  · exact ⟨wf.1, copyCells_wf _ _ _ _ wf.2⟩
  · exact ⟨copyCells_wf _ _ _ _ wf.1, wf.2⟩

theorem Mem.wf_movedDesc {m : Mem} (wf : m.wf) {c : Bool} {a b n : Nat} :
    (if c then { m with dev := copyCells m.dev m.dev a b n } else m).wf := by
  split
  · exact ⟨copyCells_wf _ _ _ _ wf.1, wf.2⟩
  · exact wf

theorem Mem.wf_counted {m : Mem} (wf : m.wf) {ctx va n home pa k : Nat} :
    (if home = 0 then (m.invalidate ctx va n).setCount pa k else m.invalidate ctx va n).wf := by
  split <;> exact wf

theorem endMove_keepsWf (s : State) (v : Move) : s.KeepsWf (s.endMove v) := by
  refine .trans (s := { s with mem := { s.mem with moves := s.mem.moves.erase v } }) (.of_bytes rfl rfl) ?_
  simp only [State.endMove]
  split
  · split
    · exact returnFrame_keepsWf ..
    · refine .before (unshare_keepsWf ..) ⟨fun wf => ?_⟩
      exact Mem.wf_counted (Mem.wf_put (m := _) 0 _ _ (Mem.wf_movedDesc (Mem.wf_movedData wf)))
  · exact returnFrame_keepsWf ..

/-! #### Trace and trap records -/

theorem writeSink_keepsWf (r : TraceRec) (s : State) (n : Nat) : s.KeepsWf (writeSink r s n) := by
  simp only [writeSink]
  split
  · exact .refl s
  · split
    · exact .refl s
    · split
      · refine ⟨fun wf => ⟨wf.1, Memory.wf_writeN _ _ ?_⟩⟩
        split
        · exact Memory.wf_writeN _ _ wf.2
        · exact wf.2
      · exact .of_mem rfl

theorem mergeOut_keepsWf (rs : List TraceRec) (s : State) : s.KeepsWf (State.mergeOut rs s) := by
  induction rs generalizing s with
  | nil => exact .of_mem rfl
  | cons r rs ih =>
    simp only [State.mergeOut]
    split
    · exact .of_mem rfl
    · exact (KeepsWf.foldl (fun s n => writeSink_keepsWf r s n) _ s).trans (ih _)

theorem mergeTrace_keepsWf (s : State) : s.KeepsWf s.mergeTrace := .ite (.refl s) (mergeOut_keepsWf ..)

theorem flushRing_keepsWf (ctx : Nat) (handler : Bool) (fuel : Nat) (s : State) :
    s.KeepsWf (State.flushRing ctx handler fuel s) := by
  induction fuel generalizing s with
  | zero => exact .refl s
  | succ fuel ih =>
    simp only [State.flushRing]
    split
    · exact .refl s
    · refine .ite (.refl s) ?_
      cases handler <;> simp only [Bool.false_eq_true, if_true, if_false]
      all_goals
        split
        · rename_i done
          exact agentWrite_left done
        · rename_i done
          exact (agentWrite_left done).trans (.before (ih _) (.before (.of_counts (countIn_counts ..)) (.of_mem rfl)))
        · rename_i done
          exact (agentWrite_left done).trans (.before (ih _) (.of_mem rfl))

theorem flushRings_keepsWf (s : State) : s.KeepsWf s.flushRings :=
  .foldl (fun s e => .ite (.refl s) ((flushRing_keepsWf ..).trans (flushRing_keepsWf ..))) _ s

/-- Settles O60: each way to memory keeps both memories in canonical form. -/
theorem memoryKeepsItsCanonicalForm : Obligations.MemoryKeepsItsCanonicalForm := by
  intro s memWf
  have kept : ∀ {t : State}, s.KeepsWf t → t.memWf = true := fun k => (State.memWf_iff _).2 (k.wf ((State.memWf_iff s).1 memWf))
  refine ⟨fun _ _ _ _ _ _ _ done => kept (translate_keepsWf done), fun ctx va b src item t done => ?_,
    fun owner ctx va add src item t done => ?_, fun _ _ _ _ _ _ => kept (agentPut_keepsWf ..), fun _ _ _ _ _ _ => kept (.put ..),
    fun _ _ _ _ _ _ => kept (putBlock_keepsWf ..), fun _ => kept (endMove_keepsWf ..), fun _ _ => kept (writeSink_keepsWf ..),
    kept (flushRings_keepsWf s), kept (mergeTrace_keepsWf s), fun fn host pa data t done => ?_, fun k t done => ?_⟩
  · exact kept (agentWrite_left done)
  · exact kept (agentAdd_left done)
  · cases done
    exact kept (.put ..)
  · cases done
    refine kept ?_
    have moved := KeepsWf.foldl endMove_keepsWf ((s.mem.moves.filter fun v => v.key == k).filter fun v => !s.moveWaits v) s
    exact .ite (moved.trans (postOnce_keepsWf ..)) moved

end Sys2Proof.Machine

/-! ### Tile words -/

namespace Sys2Proof.Machine

/-- Running a sequence: its first part succeeds, and the rest gives r from there. -/
theorem Act.bind_eq {α β : Type} {x : Act α} {f : α → Act β} {s t : State} {a : α} {r : Res β} (first : x s = .ok a t)
    (rest : f a t = r) : x.bind f s = r :=
  (Act.bind_of_ok first).trans rest

theorem Act.then_eq {α β : Type} {x : Act α} {y : Act β} {s t : State} {a : α} {r : Res β} (first : x s = .ok a t)
    (rest : y t = r) : x.andThen y s = r :=
  Act.bind_eq first rest

/-- An aligned access inside a tile whose rows are not in use passes its checks. -/
theorem tileAccess_ok {s : State} {k n : Nat} {v : Tile} {off : Word} (aligned : off.toNat % n = 0)
    (inside : off.toNat + n ≤ v.size)
    (free : s.rowsBusy k (off.toNat / v.rb) ((off.toNat + n - 1) / v.rb + 1) = false) :
    tileAccess (k, v) off n s = .ok () s := by
  simp [tileAccess, aligned, inside, free]

theorem tileAccess_misaligned {s : State} {k n : Nat} {v : Tile} {off : Word} (unaligned : off.toNat % n ≠ 0) :
    tileAccess (k, v) off n s = .stop (.trap tALIGN []) := by
  have no : (off.toNat % n == 0) = false := by simpa using unaligned
  simp [tileAccess, no]

theorem tileAccess_outside {s : State} {k n : Nat} {v : Tile} {off : Word} (aligned : off.toNat % n = 0)
    (outside : v.size < off.toNat + n) : tileAccess (k, v) off n s = .stop (.trap tRANGE []) := by
  have no : ¬ off.toNat + n ≤ v.size := by omega
  simp [tileAccess, aligned, no]

theorem tileAccess_busy {s : State} {k n : Nat} {v : Tile} {off : Word} (aligned : off.toNat % n = 0)
    (inside : off.toNat + n ≤ v.size)
    (busy : s.rowsBusy k (off.toNat / v.rb) ((off.toNat + n - 1) / v.rb + 1) = true) :
    tileAccess (k, v) off n s = .stop (.wait 0 s) := by
  simp [tileAccess, aligned, inside, busy]

theorem tileSound_ok {s : State} {v : Tile} {off n : Nat}
    (good : s.mem.spoilt v.store (s.tileSpot v v.half off) n = false) :
    tileSound v off n s = .ok () (s.corrected (16 + v.store.code) (s.tileSpot v v.half off) n) := by
  simp [tileSound, sound, good]

/-- A read-only tile may not be written. -/
theorem writableTile_alias {s : State} {w : Word} {v : Tile} (h : w.toNat < 128) (ht : s.cur.tile? w.toNat = some v)
    (hr : v.ro = true) : writableTile w s = .stop (.trap tHANDLE [w]) := by
  simp only [writableTile]
  rw [Act.bind_of_ok (heldTile_ok h ht)]
  simp [hr, badHandle]

/-- LDT is an issue whose latency is that of the level its tile lies in (R156). -/
theorem execLdt_level {h : Hd} {o : F3} {x : Option XM} {s : State} {w : Word} {v : Tile}
    (held : s.cur.tile? w.toNat = some v) (read : s.cur.readSrcs h.g [(o.a, true)] s.cur.links = .ok [w] s.cur.links) :
    execLdt h o x s = issue { memIssue h 0x4E o x false with lat := if v.near then 40 else 12 } (fun vs =>
      (heldTile (vs.headD 0)).bind fun t =>
      (tileAccess t (tileOffset x vs) o.size).andThen <| (tileSound t.2 (tileOffset x vs).toNat o.size).andThen <|
      result o.d (w64 (leNat (t.2.front.bytes (tileOffset x vs).toNat o.size)))) s := by
  simp only [execLdt, read, held, Option.map_some, Option.getD_some]

/-- Settles O22: the tile is held, the access passes its checks, and the bytes of its front half are read or written. -/
theorem tileLoadAndStore : Obligations.TileLoadAndStore := by
  intro h o x s vs l v n k off ql qs fits spot sound small held read
  refine ⟨fun goes ⟨aligned, inside, free⟩ good => ?_, fun goes ⟨aligned, inside, free⟩ rw => ?_, fun b => ?_,
    fun goes ro => ?_, ?_⟩
  · rw [exec_ldt, execLdt_level held read]
    exact issue_next goes (Act.bind_eq (heldTile_ok small held) (Act.then_eq (tileAccess_ok aligned inside free)
      (Act.then_eq (tileSound_ok good) rfl)))
  · rw [exec_stt, execStt]
    exact issue_next goes (Act.bind_eq (writable_ok small held rw) (Act.then_eq (tileAccess_ok aligned inside free) rfl))
  · have table : SMap.get? s.cur.tiles k = some v := held
    simp only [Strand.write, table, Strand.setTile]
  · rw [exec_stt, execStt]
    exact issue_trap goes (Act.bind_of_stop (writableTile_alias small held ro))
  · -- the two instructions raise the same traps and waits, by what their access does
    have stops : ∀ e ∈ [(Instr.ldt h o x, ql), (.stt h o x, qs)], s.Goes e.2 vs l → v.ro = false → ∀ {r : Stop} {out : Out},
        tileAccess (k, v) (tileOffset x vs) n s = .stop r →
        (∀ (q : Issue) (body : List Word → Act Done), q.g = h.g → s.Goes q vs l → body vs s = .stop r → issue q body s = out) →
        exec e.1 s = out := by
      intro e mem goes rw r out stop ends
      rw [List.mem_cons, List.mem_singleton] at mem
      rcases mem with rfl | rfl
      · rw [exec_ldt, execLdt_level held read]
        exact ends _ _ rfl goes (Act.bind_eq (heldTile_ok small held) (Act.bind_of_stop stop))
      · rw [exec_stt, execStt]
        exact ends _ _ rfl goes (Act.bind_eq (writable_ok small held rw) (Act.bind_of_stop stop))
    intro e mem goes rw
    refine ⟨fun unaligned => stops e mem goes rw (tileAccess_misaligned unaligned) ?_,
      fun aligned outside => stops e mem goes rw (tileAccess_outside aligned outside) ?_,
      fun aligned inside busy => stops e mem goes rw (tileAccess_busy aligned inside busy) ?_⟩
    · intro q body eng goes stop
      rw [issue_trap goes stop, eng]
    · intro q body eng goes stop
      rw [issue_trap goes stop, eng]
    · intro q body eng goes stop
      rw [issue_wait goes stop, eng]

end Sys2Proof.Machine

/-! ### Shape registers and layout slots -/

namespace Sys2Proof

theorem getBits_low {w : Nat} (x : BitVec w) (n : Nat) : getBits x 0 n = x.toNat % 2 ^ n := by
  simp [getBits]

/-- The highest n bits of a word need no mask. -/
theorem getBits_high {lo n : Nat} (x : BitVec (lo + n)) : getBits x lo n = x.toNat / 2 ^ lo := by
  rw [getBits, Nat.mod_eq_of_lt]
  exact Nat.div_lt_of_lt_mul (Nat.pow_add 2 lo n ▸ x.isLt)

theorem getD_upd_same {α : Type} {l : List α} {i : Nat} (inside : i < l.length) (f : α → α) (d : α) :
    (upd l i f).getD i d = f (l.getD i d) := by
  simp [upd, inside]

theorem getD_upd_other {α : Type} {l : List α} {i j : Nat} (other : j ≠ i) (f : α → α) (d : α) :
    (upd l i f).getD j d = l.getD j d := by
  simp only [upd]
  split
  · simp [List.getD_eq_getElem?_getD, List.getElem?_set_ne other.symm]
  · rfl

namespace Machine

/-- Two decided facts that do not hold together. -/
theorem and_decide_false {p q : Prop} [Decidable p] [Decidable q] (no : ¬ (p ∧ q)) : (decide p && decide q) = false := by
  simpa using fun hp hq => no ⟨hp, hq⟩

/-- A shape instruction whose operation gives a value writes it to its extent. -/
theorem shapeOp_writes {h : Hd} {opc : Nat} {o : F3} {f : W32 → Word → Act W32} {s : State} {a : Word} {l : Links} {v : W32}
    (goes : s.Goes (h.issue opc 1 [(o.a, flag o.s 1)] [.sh o.d.toNat] 1) [a] l)
    (gives : f (s.cur.ext o.d.toNat (o.b.toNat % 4)) a s = .ok v s) :
    shapeOp h opc o f s =
      s.writes (h.issue opc 1 [(o.a, flag o.s 1)] [.sh o.d.toNat] 1) l [.ext o.d.toNat (o.b.toNat % 4) v] := by
  rw [shapeOp, getBits_low o.b 2]
  exact issue_next goes (Act.bind_eq (a := s) rfl (Act.bind_eq gives rfl))

/-- A shape instruction whose operation traps. -/
theorem shapeOp_traps {h : Hd} {opc code : Nat} {o : F3} {f : W32 → Word → Act W32} {s : State} {a : Word} {l : Links}
    {args : List Word} (goes : s.Goes (h.issue opc 1 [(o.a, flag o.s 1)] [.sh o.d.toNat] 1) [a] l)
    (traps : f (s.cur.ext o.d.toNat (o.b.toNat % 4)) a s = .stop (.trap code args)) :
    shapeOp h opc o f s = .next (s.takeTrap h.g code args) := by
  rw [shapeOp, getBits_low o.b 2]
  exact issue_trap goes (Act.bind_eq (a := s) rfl (Act.bind_of_stop traps))

/-- A check that passes lets the rest run. -/
theorem Act.check_then {α : Type} {c : Bool} {code : Nat} {args : List Word} {y : Act α} {s : State} {r : Res α} (pass : c = true)
    (rest : y s = r) : (Act.check c code args).andThen y s = r := by
  subst pass
  exact rest

/-- A check that fails raises its trap. -/
theorem Act.check_fails {α : Type} {c : Bool} {code : Nat} {args : List Word} {y : Act α} {s : State} (fail : c = false) :
    (Act.check c code args).andThen y s = .stop (.trap code args) := by
  subst fail
  rfl

/-- Writing an extent that exists changes this extent alone. -/
theorem Strand.applyLate_ext {t : Strand} {n k : Nat} (v : W32) (reg : n < t.sh.length) (dim : k < (t.sh.getD n []).length) :
    (t.applyLate (.ext n k v)).ext n k = v ∧ ∀ m j, ¬ (m = n ∧ j = k) → (t.applyLate (.ext n k v)).ext m j = t.ext m j := by
  refine ⟨?_, fun m j other => ?_⟩
  · simp only [Strand.applyLate, Strand.ext, getD_upd_same reg]
    rw [List.getD_eq_getElem?_getD, List.getElem?_set_self dim, Option.getD_some]
  · by_cases same : m = n
    · subst same
      simp only [Strand.applyLate, Strand.ext, getD_upd_same reg]
      have ne : k ≠ j := fun e => other ⟨rfl, e.symm⟩
      simp only [List.getD_eq_getElem?_getD, List.getElem?_set_ne ne]
    · simp only [Strand.applyLate, Strand.ext, getD_upd_other same]

/-- An aligned, canonical address passes the checks of R154, whatever the state. -/
theorem checkAddr_passes {va : Word} {n : Nat} {wr : Bool} (aligned : va.toNat % n = 0) (canon : canonical va = true)
    (s : State) : checkAddr va n wr s = .ok () s := by
  rw [checkAddr_ok aligned canon]
  rfl

/-- Settles O23: each instruction reads its extent, slot or record and gives its value or its trap. -/
theorem shapeAndLayoutInstructions : Obligations.ShapeAndLayoutInstructions := by
  refine ⟨?_, ?_⟩
  · intro h o f x s a l n k e q qi qg qc imm
    refine ⟨fun goes small => ?_, fun goes big => ?_, fun goes => ?_, fun goes => ?_, fun goes => ?_,
      fun goes low high => ?_, fun goes outside => ?_, fun goes ne => ?_, fun goes eq => ?_, fun g v r => ⟨rfl, rfl⟩,
      fun t v reg dim => Strand.applyLate_ext v reg dim⟩
    · rw [exec_shset, execShset]
      exact shapeOp_writes goes (Act.check_then (decide_eq_true small) rfl)
    · rw [exec_shset, execShset]
      exact shapeOp_traps goes (Act.check_fails (decide_eq_false (Nat.not_lt.mpr big)))
    · rw [exec_shseti, execShseti, getBits_low, getBits_high (lo := 10) (n := 2)]
      refine issue_next goes ?_
      cases x
      · dsimp only [imm]
        rw [Nat.zero_add]
        rfl
      · rfl
    · rw [exec_shget, execShget, getBits_low]
      exact issue_gives goes rfl
    · rw [exec_shmin, execShmin]
      exact shapeOp_writes goes rfl
    · rw [exec_shadd, execShadd]
      exact shapeOp_writes goes (Act.check_then ((Bool.and_eq_true ..).mpr ⟨decide_eq_true low, decide_eq_true high⟩) rfl)
    · rw [exec_shadd, execShadd]
      have no : ¬ (0 ≤ (e : Int) + a.toInt ∧ (e : Int) + a.toInt < 2 ^ 32) := by omega
      exact shapeOp_traps goes (Act.check_fails (and_decide_false no))
    · rw [exec_shcpy, execShcpy]
      refine issue_next goes ?_
      simp only [Act.get_bind, if_neg ne]
      rfl
    · rw [exec_shcpy, execShcpy]
      refine issue_ends goes ?_
      simp only [Act.get_bind, if_pos eq]
      rfl
  · intro h o x s u w vs l b k lo hi va a n m ql qs qg qt qe new ext
    refine ⟨fun goes aligned canon loads fine => ?_, fun code goes aligned canon loads bad => ?_,
      fun goes aligned canon slot stores => ?_, fun goes unaligned => ?_, fun goes aligned empty => ?_, ?_,
      fun goes slot fits fine => ?_, fun code goes slot fits bad => ?_,
      fun goes slot ragged inside first second order bound => ?_, fun goes empty => ?_⟩
    · rw [exec_lyld, execLyld]
      refine issue_next goes (Act.then_eq (checkAddr_passes aligned canon s) (Act.bind_eq (loadOne_ok loads) ?_))
      rw [fine]
      rfl
    · rw [exec_lyld, execLyld]
      refine issue_trap goes (Act.then_eq (checkAddr_passes aligned canon s) (Act.bind_eq (loadOne_ok loads) ?_))
      rw [bad]
      rfl
    · rw [exec_lyst, execLyst]
      refine issue_ends goes (Act.bind_eq (a := s) rfl (Act.check_then (by simpa using aligned) ?_))
      rw [slot]
      exact Act.check_then canon (Act.then_eq (storeBytes_ok stores) rfl)
    · rw [exec_lyst, execLyst]
      exact issue_trap goes (Act.bind_eq (a := s) rfl (Act.check_fails (by simpa using unaligned)))
    · rw [exec_lyst, execLyst]
      refine issue_trap goes (Act.bind_eq (a := s) rfl (Act.check_then (by simpa using aligned) ?_))
      rw [empty]
      rfl
    · intro r mem goes slot sel
      rw [exec_lyget, execLyget]
      refine issue_gives goes (Act.bind_eq (a := s) rfl ?_)
      rw [slot, sel]
      simp only [List.mem_cons, List.not_mem_nil, or_false] at mem
      rcases mem with rfl | rfl | rfl | rfl | rfl | rfl | rfl | rfl | rfl | rfl | rfl | rfl | rfl | rfl <;> rfl
    · rw [exec_lyset, execLyset]
      refine issue_next goes (Act.bind_eq (a := s) rfl ?_)
      rw [slot]
      refine Act.check_then (decide_eq_true fits) ?_
      rw [show (k.lay.setSel o.b.toNat ([a].headD 0)).fault = none from fine]
      rfl
    · rw [exec_lyset, execLyset]
      refine issue_trap goes (Act.bind_eq (a := s) rfl ?_)
      rw [slot]
      refine Act.check_then (decide_eq_true fits) ?_
      rw [show (k.lay.setSel o.b.toNat ([a].headD 0)).fault = some code from bad]
      rfl
    · rw [exec_lyseg, execLyseg]
      refine issue_next goes (Act.bind_eq (a := s) rfl ?_)
      rw [slot]
      exact Act.check_then ragged (Act.check_then (decide_eq_true inside) (Act.bind_eq first (Act.bind_eq second
        (Act.check_then ((Bool.and_eq_true ..).mpr ⟨decide_eq_true order, decide_eq_true bound⟩) rfl))))
    · rw [exec_lyget, execLyget]
      refine issue_trap goes (Act.bind_eq (a := s) rfl ?_)
      rw [empty]
      rfl

end Machine
end Sys2Proof

/-! ### Tile handles -/

namespace Sys2Proof

theorem tabFrom_getElem? {α : Type} (f : Nat → α) (n i k : Nat) :
    (tabFrom f i n)[k]? = if k < n then some (f (i + k)) else none := by
  induction n generalizing i k with
  | zero => simp [tabFrom]
  | succ n ih =>
    cases k with
    | zero => simp [tabFrom]
    | succ k => simp [tabFrom, ih, Nat.add_comm, Nat.add_left_comm]

theorem tab_getElem? {α : Type} (f : Nat → α) (n k : Nat) : (tab n f)[k]? = if k < n then some (f k) else none := by
  simp [tab, tabFrom_getElem?]

theorem tabFrom_pairs {α : Type} (f : Nat → α) (n i : Nat) :
    tabFrom (fun j => (j, f j)) i n = SMap.runFrom i (tabFrom f i n) := by
  induction n generalizing i with
  | zero => rfl
  | succ n ih => simp only [tabFrom, ih, SMap.runFrom]

/-- The map that lists f j for every j below n. -/
theorem get?_tab_pairs {α : Type} {f : Nat → α} {n j : Nat} (inside : j < n) :
    SMap.get? (tab n fun j => (j, f j)) j = some (f j) := by
  have listed : SMap.get? (SMap.runFrom 0 (tabFrom f 0 n)) j = some (f j) := by
    rw [SMap.get?_runFrom, if_pos (Nat.zero_le j), tabFrom_getElem?]
    simp [inside]
  rw [tab, tabFrom_pairs]
  exact listed

namespace Machine

theorem handleNo_ok {w : Word} (small : w.toNat < 128) (s : State) : handleNo w s = .ok w.toNat s := by
  simp [handleNo, small]

/-- A value that names no held tile raises HANDLE. -/
theorem heldTile_absent {s : State} {w : Word} (small : w.toNat < 128) (absent : s.cur.tile? w.toNat = none) :
    heldTile w s = .stop (.trap tHANDLE [w]) := by
  refine Act.bind_eq (handleNo_ok small s) ?_
  simp [absent, badHandle]

theorem updTile_ok {s : State} {h : Nat} {v : Tile} (f : Tile → Tile) (held : s.cur.tile? h = some v) :
    updTile h f s = .ok () (s.setCur fun t => t.setTile h (f v)) := by
  simp only [updTile, Act.modify_run, State.setCur, held]

theorem tileQuiet_ok {s : State} {h : Nat} (quiet : s.cur.naming h = 0) : tileQuiet h s = .ok () s := by
  simp [tileQuiet, quiet]

theorem tileQuiet_waits {s : State} {h : Nat} (named : s.cur.naming h ≠ 0) : tileQuiet h s = .stop (.wait 0 s) := by
  have no : (s.cur.naming h == 0) = false := by simpa using named
  simp [tileQuiet, no]

/-- A handle that this replay passes over. -/
theorem replayed_passes {s : State} {h rows : Nat}
    (passed : s.cur.ph.marks.contains h = true ∧ s.cur.ph.gone.contains (h * 65536 + rows) = true) :
    replayed h rows s = .ok true (s.setCur fun t => t.unmark h) := by
  have both : s.cur.marked h = true ∧ s.cur.ph.gone.contains (h * 65536 + rows) = true := passed
  simp only [replayed, Act.get_bind, if_pos both, Act.then_bind, Act.modify_bind, Act.pure_run]

theorem replayed_not {s : State} {h rows : Nat}
    (fresh : ¬ (s.cur.ph.marks.contains h = true ∧ s.cur.ph.gone.contains (h * 65536 + rows) = true)) :
    replayed h rows s = .ok false s := by
  have none : ¬ (s.cur.marked h = true ∧ s.cur.ph.gone.contains (h * 65536 + rows) = true) := fresh
  simp only [replayed, Act.get_bind, if_neg none, Act.pure_run]

/-- The descriptors that TTAG rewrites in a tile that has them. -/
def Half.reformat (h : Half) (blocks code : Nat) : Half :=
  { h with desc := tab blocks fun j => (j, (h.blockDesc j &&& 0xFFF0) ||| BitVec.ofNat 16 code) }

theorem Half.blockDesc_reformat (h : Half) {blocks code j : Nat} (inside : j < blocks) :
    (h.reformat blocks code).blockDesc j = (h.blockDesc j &&& 0xFFF0) ||| BitVec.ofNat 16 code := by
  simp only [Half.reformat, Half.blockDesc, get?_tab_pairs inside, Option.getD_some]

/-- Settles O24: a handle is looked up, passed over in a replay, or waited for; its cells and its tag change as one. -/
theorem tileHandles : Obligations.TileHandles := by
  refine ⟨?_, ?_⟩
  · intro r o x s vs l
    rcases arg : handleArg (some x) vs with ⟨hv, rest⟩
    intro q hv' h rows n near rb sc ds db hdr cells goes
    have units : getBits x.op 0 8 = x.op.toNat % 256 := getBits_low ..
    have free : s.cur.tile? h = none → ¬ (s.cur.tile? hv.toNat).isSome = true := by
      intro absent
      rw [show s.cur.tile? hv.toNat = none from absent]
      exact Bool.false_ne_true
    have header : headerBytes n rb sc ds = hdr := by simp only [headerBytes, hdr, Nat.mul_comm 4 n]
    have asks : tileCells (headerBytes (rest.headD 0).toNat (rowBytes (x.op.toNat % 256)) (flag x.op 12) (flag x.op 11))
        (rest.headD 0).toNat (rowBytes (x.op.toNat % 256)) (flag x.op 10) = cells := by
      rw [show headerBytes (rest.headD 0).toNat (rowBytes (x.op.toNat % 256)) (flag x.op 12) (flag x.op 11) = hdr from header]
      rfl
    refine ⟨fun bad => ?_, fun small absent outside => ?_, fun small absent pos most full => ?_,
      fun start ring small absent pos most room => ?_⟩
    · rw [exec_talloc, execTalloc]
      refine issue_trap goes ?_
      simp only [arg]
      by_cases small : h < 128
      · refine Act.bind_eq (handleNo_ok (w := hv) small s) (Act.bind_eq (a := s) rfl ?_)
        rw [if_pos (bad.resolve_left (Nat.not_le.mpr small))]
        rfl
      · refine Act.bind_of_stop ?_
        rw [handleNo, if_neg small]
        rfl
    · rw [exec_talloc, execTalloc]
      refine issue_trap goes ?_
      simp only [arg]
      refine Act.bind_eq (handleNo_ok (w := hv) small s) (Act.bind_eq (a := s) rfl ?_)
      rw [if_neg (free absent)]
      have no : ¬ (1 ≤ rows.toNat ∧ rows.toNat ≤ 65535) := by omega
      exact Act.check_fails (and_decide_false no)
    · rw [exec_talloc, execTalloc]
      refine issue_trap goes ?_
      simp only [arg, units]
      refine Act.bind_eq (handleNo_ok (w := hv) small s) (Act.bind_eq (a := s) rfl ?_)
      rw [if_neg (free absent)]
      refine Act.check_then ((Bool.and_eq_true ..).mpr ⟨decide_eq_true pos, decide_eq_true most⟩) ?_
      rw [asks]
      rw [show (s.ring (flag x.op 13)).alloc cells (s.cur.key, hv.toNat) = none from full]
      rfl
    · rw [exec_talloc, execTalloc]
      refine issue_ends goes ?_
      simp only [arg, units]
      refine Act.bind_eq (handleNo_ok (w := hv) small s) (Act.bind_eq (a := s) rfl ?_)
      rw [if_neg (free absent)]
      refine Act.check_then ((Bool.and_eq_true ..).mpr ⟨decide_eq_true pos, decide_eq_true most⟩) ?_
      rw [asks]
      rw [show (s.ring (flag x.op 13)).alloc cells (s.cur.key, hv.toNat) = some (start, ring) from room]
      rw [show headerBytes (rest.headD 0).toNat (rowBytes (x.op.toNat % 256)) (flag x.op 12) (flag x.op 11) = hdr from header]
      rfl
  · intro r o x s vs l v
    rcases arg : handleArg x vs with ⟨hv, rest⟩
    intro hv' h b qf qs qt qq passed noted cells small passedOver
    -- TTAG up to its tag check
    have tagging : ∀ {res : Res Done} (body : Nat × Tile → Act Done), s.cur.tile? h = some v → v.ro = false →
        tileTagOk b = true → body (h, v) s = res →
        (writableTile hv).bind (fun p => (Act.check (tileTagOk b) tSHAPE []).andThen (body p)) s = res :=
      fun body held rw ok rest => Act.bind_eq (writable_ok small held rw) (Act.check_then ok rest)
    refine ⟨fun goes skip => ?_, fun goes skip pos most => ?_, fun goes new absent => ?_, fun goes new held named => ?_,
      fun goes new held quiet => ?_, fun goes new held rw db quiet pos most => ?_, fun goes held rw ok fmt plain => ?_,
      fun goes held rw ok fmt => ?_, fun goes held rw ok fmt desc => ?_, fun goes held rw bad => ?_, ?_, ?_⟩
    · rw [exec_tfree, execTfree]
      refine issue_ends goes ?_
      simp only [arg]
      exact Act.bind_eq (handleNo_ok (w := hv) small s) (Act.bind_eq (replayed_passes skip) rfl)
    · rw [exec_tshrink, execTshrink]
      refine issue_ends goes ?_
      simp only [arg]
      have same : b.toNat % 65536 = b.toNat := Nat.mod_eq_of_lt most
      have skip : s.cur.ph.marks.contains h = true ∧ s.cur.ph.gone.contains (h * 65536 + b.toNat % 65536) = true := by
        rw [same]; exact skip
      refine Act.bind_eq (handleNo_ok (w := hv) small s) (Act.bind_eq (replayed_passes skip) ?_)
      rw [if_pos ⟨rfl, pos, most⟩]
      rfl
    · rw [exec_tfree, execTfree]
      refine issue_trap goes ?_
      simp only [arg]
      exact Act.bind_eq (handleNo_ok (w := hv) small s) (Act.bind_eq (replayed_not new)
        (Act.bind_of_stop (heldTile_absent small absent)))
    · rw [exec_tfree, execTfree]
      refine issue_wait goes ?_
      simp only [arg]
      exact Act.bind_eq (handleNo_ok (w := hv) small s) (Act.bind_eq (replayed_not new)
        (Act.bind_eq (heldTile_ok small held) (Act.bind_of_stop (tileQuiet_waits named))))
    · rw [exec_tfree, execTfree]
      refine issue_ends goes ?_
      simp only [arg]
      exact Act.bind_eq (handleNo_ok (w := hv) small s) (Act.bind_eq (replayed_not new)
        (Act.bind_eq (heldTile_ok small held) (Act.then_eq (tileQuiet_ok quiet) rfl)))
    · rw [exec_tshrink, execTshrink]
      refine issue_ends goes ?_
      simp only [arg]
      refine Act.bind_eq (handleNo_ok (w := hv) small s) (Act.bind_eq (replayed_not new) ?_)
      rw [if_neg (fun h => Bool.false_ne_true h.1)]
      refine Act.bind_eq (writable_ok small held rw) (Act.then_eq (tileQuiet_ok quiet) ?_)
      refine Act.check_then ((Bool.and_eq_true ..).mpr ⟨decide_eq_true pos, decide_eq_true most⟩) ?_
      refine Act.check_then (by simp [db]) ?_
      simp only [tileCells, Bool.false_eq_true, if_false, Nat.mul_one]
      rfl
    · rw [exec_ttag, execTtag]
      refine issue_ends goes ?_
      simp only [arg, getBits_low]
      have code : (b.toNat % 2 ^ 4 != 12) = true := by simpa using fmt
      refine tagging _ held rw ok (Act.check_then ((Bool.or_eq_true ..).mpr (.inl code)) (Act.then_eq (updTile_ok _ held) ?_))
      simp only [plain, Bool.false_and, Bool.false_eq_true, if_false]
      rfl
    · rw [exec_ttag, execTtag]
      split
      · rename_i desc
        refine issue_ends goes ?_
        simp only [arg, getBits_low]
        refine tagging _ held rw ok (Act.check_then (by simp [desc]) (Act.then_eq (updTile_ok _ held) ?_))
        have code : (b.toNat % 2 ^ 4 != 12) = false := by simpa using fmt
        simp only [b, code, Bool.and_false, Bool.false_eq_true, if_false] at *
        rfl
      · rename_i plain
        refine issue_trap goes ?_
        simp only [arg, getBits_low]
        have code : (b.toNat % 2 ^ 4 != 12) = false := by simpa using fmt
        exact tagging _ held rw ok (Act.check_fails ((Bool.or_eq_false_iff ..).mpr ⟨code, Bool.eq_false_iff.mpr plain⟩))
    · refine ⟨{ v with
        tag := b.setWidth 16, h0 := v.h0.reformat (v.size / 64) (b.toNat % 16),
        h1 := v.h1.reformat (v.size / 64) (b.toNat % 16) }, ?_, rfl,
        fun j inside => ⟨v.h0.blockDesc_reformat inside, v.h1.blockDesc_reformat inside⟩⟩
      rw [exec_ttag, execTtag]
      refine issue_ends goes ?_
      simp only [arg, getBits_low]
      refine tagging _ held rw ok (Act.check_then (by simp [desc]) (Act.then_eq (updTile_ok _ held) ?_))
      have code : (b.toNat % 2 ^ 4 != 12) = true := by simpa using fmt
      simp only [b, code, desc, Bool.and_true, if_true] at *
      rfl
    · rw [exec_ttag, execTtag]
      refine issue_trap goes ?_
      simp only [arg]
      exact Act.bind_eq (writable_ok small held rw) (Act.check_fails bad)
    · intro e mem goes held sel
      rw [exec_tqry, execTqry]
      refine issue_gives goes (Act.bind_eq (a := s) rfl ?_)
      rw [sel, arg]
      simp only [List.mem_cons, List.not_mem_nil, or_false] at mem
      rcases mem with rfl | rfl | rfl | rfl | rfl | rfl | rfl <;> exact Act.bind_eq (heldTile_ok small held) rfl
    · intro e mem goes sel
      rw [exec_tqry, execTqry]
      refine issue_gives goes (Act.bind_eq (a := s) rfl ?_)
      rw [sel, arg]
      simp only [List.mem_cons, List.not_mem_nil, or_false] at mem
      rcases mem with rfl | rfl | rfl | rfl | rfl | rfl | rfl
      · exact Act.bind_eq (handleNo_ok small s) rfl
      all_goals rfl

end Machine
end Sys2Proof

/-! ### Copies at issue -/

namespace Sys2Proof.Machine

/-- The checks of a row operation up to its offsets. -/
theorem rowChecks_eq {t : Tile} {row : Word} {w : Win} {l : Layout} {lays : List Nat} {inside store : Bool} {s : State}
    {r : Res (List Nat)} (code : l.lay ∈ lays) (shape : l.shapeOk = true) (paged : l.lay = 3 → l.pagedOk = true)
    (dense : store = true → tagSpc l.tag ≠ 2) (long : l.rowLen ≤ t.rb) (rows : row.toNat + w.n ≤ t.rows)
    (window : inside = true → w.f + w.n ≤ l.e 1) (offsets : offsetsOf l s = r) :
    rowChecks t row w l lays inside store s = r := by
  have shaped : (lays.contains l.lay && l.shapeOk && (l.lay != 3 || l.pagedOk) && !(store && tagSpc l.tag == 2)) = true := by
    simp only [Bool.and_eq_true, Bool.or_eq_true, bne_iff_ne, Bool.not_eq_true', Bool.and_eq_false_iff, beq_eq_false_iff_ne,
      List.contains_iff_mem]
    refine ⟨⟨⟨code, shape⟩, ?_⟩, ?_⟩
    · by_cases table : l.lay = 3
      · exact .inr (paged table)
      · exact .inl table
    · cases store
      · exact .inl rfl
      · exact .inr (dense rfl)
  have inWindow : (!inside || decide (w.f + w.n ≤ l.e 1)) = true := by
    cases inside
    · rfl
    · simpa using window rfl
  exact Act.check_then shaped (Act.check_then (decide_eq_true long) (Act.check_then (decide_eq_true rows)
    (Act.check_then inWindow offsets)))

theorem scoreRoom_ok {s : State} {n : Nat} (room : s.scoreboard s.curCore + n ≤ Config.scoreboardEntries) :
    scoreRoom n s = .ok () s := by
  simp [scoreRoom, room]

theorem scoreRoom_full {s : State} {n : Nat} (full : ¬ s.scoreboard s.curCore + n ≤ Config.scoreboardEntries) :
    scoreRoom n s = .stop (.wait 0 s) := by
  simp [scoreRoom, full]

/-- What a layout's tag makes of a tile's (R186). -/
def Layout.retags (l : Layout) (t : Tile) : Option (W16 × Bool) := t.retag (tagFmt l.tag) (tagScaled l.tag) (tagSpc l.tag) l.described

/-- The rows that a row operation holds in a tile. -/
def RowOp.touch (r : RowOp) (t : Tile) (wr : Bool) : Touch :=
  ⟨r.h, if wr then t.half != t.db else t.half, r.row, r.row + r.n, wr⟩

def RowOp.step (r : RowOp) : Option What := if r.n = 0 then none else some .copyComplete

/-- A load that starts: its tile takes the tag, and the operation holds its rows. -/
theorem startRows_load {g : Eng} {opc : Nat} {ring : Ring} {t : Tile} {r : RowOp} {extra : List Touch} {s : State} {tag : W16}
    {mixed : Bool} (retag : r.lay.retags t = some (tag, mixed)) (aligned : r.lay.describedOk = true)
    (room : s.scoreboard s.curCore + (1 + extra.length) ≤ Config.scoreboardEntries) (held : s.cur.tile? r.h = some t) :
    startRows g opc ring false t r extra s =
      .ok () ((if r.n = 0 then s else s.setCur fun c => c.setTile r.h { t with tag := tag }).starting g opc ring
        (.load r mixed) (r.touch t true :: extra) r.step) := by
  have retag : t.retag (tagFmt r.lay.tag) (tagScaled r.lay.tag) (tagSpc r.lay.tag) r.lay.described = some (tag, mixed) := retag
  rw [startRows, retag]
  refine Act.then_eq (t := s) rfl (Act.check_then aligned (Act.then_eq (scoreRoom_ok room) ?_))
  by_cases empty : r.n = 0
  · simp only [empty]
    refine Act.then_eq (t := s) rfl ?_
    rw [starting_eq, RowOp.step, if_pos empty]
    simp only [RowOp.touch, empty, if_true]
    rfl
  · have some : (false || r.n == 0) = false := by simpa using empty
    simp only [some]
    refine Act.then_eq (updTile_ok _ held) ?_
    rw [starting_eq, RowOp.step, if_neg empty, if_neg empty]
    rfl

/-- A store that starts. -/
theorem startRows_store {g : Eng} {opc : Nat} {ring : Ring} {t : Tile} {r : RowOp} {extra : List Touch} {s : State}
    (may : t.mayStore r.lay = true) (aligned : r.lay.describedOk = true)
    (room : s.scoreboard s.curCore + (1 + extra.length) ≤ Config.scoreboardEntries) :
    startRows g opc ring true t r extra s =
      .ok () (s.starting g opc ring (.store r) (r.touch t false :: extra) r.step) := by
  refine Act.check_then may (Act.check_then aligned (Act.then_eq (scoreRoom_ok room) (Act.then_eq (t := s) rfl ?_)))
  rw [starting_eq]
  rfl

/-- A tag that does not go with the tile's. -/
theorem startRows_conflict {g : Eng} {opc : Nat} {ring : Ring} {t : Tile} {r : RowOp} {extra : List Touch} {s : State}
    (conflict : r.lay.retags t = none) : startRows g opc ring false t r extra s = .stop (.trap tTAGCONFLICT []) := by
  have conflict : t.retag (tagFmt r.lay.tag) (tagScaled r.lay.tag) (tagSpc r.lay.tag) r.lay.described = none := conflict
  rw [startRows, conflict]
  exact Act.check_fails rfl

/-- A full scoreboard. -/
theorem startRows_full {g : Eng} {opc : Nat} {ring : Ring} {t : Tile} {r : RowOp} {extra : List Touch} {s : State}
    {tag : W16} {mixed : Bool} (retag : r.lay.retags t = some (tag, mixed)) (aligned : r.lay.describedOk = true)
    (full : ¬ s.scoreboard s.curCore + (1 + extra.length) ≤ Config.scoreboardEntries) :
    startRows g opc ring false t r extra s = .stop (.wait 0 s) := by
  have retag : t.retag (tagFmt r.lay.tag) (tagScaled r.lay.tag) (tagSpc r.lay.tag) r.lay.described = some (tag, mixed) := retag
  rw [startRows, retag]
  exact Act.then_eq (t := s) rfl (Act.check_then aligned (Act.bind_of_stop (scoreRoom_full full)))

/-- A slot's layout as a row operation captures it. -/
def State.captured (s : State) (k : LySlot) : Layout :=
  { k.lay with ext := (s.cur.extents k.lay).map (BitVec.ofNat 32), shx := 0xFF }

/-- The window that a shape register names. -/
def State.window (s : State) (sh : Nat) : Win :=
  ⟨(s.cur.ext sh 0).toNat, (s.cur.ext sh 1).toNat, (s.cur.ext sh 2).toNat, (s.cur.ext sh 3).toNat⟩

/-- What every row operation does first: its tile, layout and window are read and checked, then its offsets. -/
theorem rowOp_eq {α : Type} {hv row : Word} {n sh : Nat} {lays : List Nat} {inside store : Bool} {s u : State} {v : Tile}
    {k : LySlot} {offs : List Nat} {f : Nat × Tile → LySlot → Win → List Nat → Act α} {r : Res α}
    (small : hv.toNat < 128) (held : s.cur.tile? hv.toNat = some v) (rw : store = false → v.ro = false)
    (slot : s.cur.slot n = some k) (code : (s.captured k).lay ∈ lays) (shape : (s.captured k).shapeOk = true)
    (paged : (s.captured k).lay = 3 → (s.captured k).pagedOk = true)
    (dense : store = true → tagSpc (s.captured k).tag ≠ 2) (long : (s.captured k).rowLen ≤ v.rb)
    (rows : row.toNat + (s.window sh).n ≤ v.rows)
    (below : inside = true → (s.window sh).f + (s.window sh).n ≤ (s.captured k).e 1)
    (offsets : offsetsOf (s.captured k) s = .ok offs u)
    (rest : f (hv.toNat, v) { k with lay := s.captured k } (s.window sh) offs u = r) :
    ((if store then heldTile hv else writableTile hv).bind fun p => (layoutOf n).bind fun k => (windowOf sh).bind fun w =>
      (rowChecks p.2 row w k.lay lays inside store).bind fun offs => f p k w offs) s = r := by
  have tile : (if store then heldTile hv else writableTile hv) s = .ok (hv.toNat, v) s := by
    cases store
    · exact writable_ok small held (rw rfl)
    · exact heldTile_ok small held
  refine Act.bind_eq tile (Act.bind_eq (layoutOf_ok slot) (Act.bind_eq (a := s.window sh) (t := s) rfl ?_))
  exact Act.bind_eq (rowChecks_eq code shape paged dense long rows below offsets) rest

/-- The rows of the index tile that a gather holds. -/
def indexTouch (hb f n : Nat) (i : Tile) : Touch := ⟨hb, i.half, 4 * f / i.rb, (4 * (f + n) + i.rb - 1) / i.rb, false⟩

/-- The index tile of a gather: i32 elements, as far as the window needs them. -/
theorem indexTile_eq {hb : BitVec 7} {f n : Nat} {s : State} {i : Tile} (held : s.cur.tile? hb.toNat = some i)
    (fmt : tagFmt i.tag = 11) (fits : 4 * (f + n) ≤ i.size) :
    ((heldTile (hb.setWidth 64)).bind fun q =>
        (Act.check (tagFmt q.2.tag == 11) tTAGCONFLICT []).andThen <|
        (Act.check (decide (4 * (f + n) ≤ q.2.size)) tRANGE []).andThen <|
        Act.pure [(⟨q.1, q.2.half, 4 * f / q.2.rb, (4 * (f + n) + q.2.rb - 1) / q.2.rb, false⟩ : Touch)]) s =
      .ok [indexTouch hb.toNat f n i] s := by
  have wide : (hb.setWidth 64).toNat = hb.toNat := by
    have := hb.isLt
    rw [BitVec.toNat_setWidth]
    omega
  have named : (hb.setWidth 64).toNat < 128 := wide ▸ hb.isLt
  refine Act.bind_eq (heldTile_ok named (wide ▸ held)) (Act.check_then (by simp [fmt]) (Act.check_then (decide_eq_true fits) ?_))
  rw [wide]
  rfl

/-- Settles O25: the checks pass, the tile takes its tag, and the operation holds its rows; or the tag or the scoreboard
stops it. -/
theorem copiesStart : Obligations.CopiesStart := by
  intro r o x s u vs l v k offs
  rcases arg : handleArg (some x) vs with ⟨hv, rest⟩
  intro hv' h row n sh bit e lay q op touch fits room step loading storing retag small held slot
    ⟨shape, paged, long, rows, described, offsets, kept⟩
  refine ⟨fun tag mixed load rw code below free tags goes => ?_, fun store code dense below may free goes => ?_,
    fun tag mixed window rw code below free tags goes => ?_, fun window code dense below may free goes => ?_,
    fun i indexed bound index fmt fits free code => ?_, fun load rw code below conflict goes => ?_,
    fun tag mixed load rw code below full tags goes => ?_⟩
  · have load : flag x.op 13 = false := load
    rw [exec_tcopy, execTcopy]
    refine issue_ends goes ?_
    simp only [arg, load]
    exact rowOp_eq (store := false) small held (fun _ => rw) slot code shape paged (fun h => nomatch h) long rows (fun _ => below) offsets
      (Act.then_eq (startRows_load tags described free kept) rfl)
  · have store : flag x.op 13 = true := store
    rw [exec_tcopy, execTcopy]
    refine issue_ends goes ?_
    simp only [arg, store]
    exact rowOp_eq (store := true) small held (fun h => nomatch h) slot code shape paged (fun _ => dense) long rows (fun _ => below) offsets
      (Act.then_eq (startRows_store may described free) rfl)
  · have window : flag x.op 13 = false := window
    have table : lay.lay ∈ [3] := List.mem_singleton.mpr code
    rw [exec_tgath, execTgath, gatherRows]
    refine issue_ends goes ?_
    simp only [arg, window]
    exact rowOp_eq (store := false) small held (fun _ => rw) slot table shape paged (fun h => nomatch h) long rows
      (fun _ => below) offsets
      (Act.bind_eq (a := []) (t := u) rfl (Act.then_eq (startRows_load tags described free kept) rfl))
  · have window : flag x.op 13 = false := window
    have table : lay.lay ∈ [3] := List.mem_singleton.mpr code
    rw [exec_tscat, execTscat, gatherRows]
    refine issue_ends goes ?_
    simp only [arg, window]
    exact rowOp_eq (store := true) small held (fun h => nomatch h) slot table shape paged (fun _ => dense) long rows
      (fun _ => below) offsets (Act.bind_eq (a := []) (t := u) rfl (Act.then_eq (startRows_store may described free) rfl))
  · intro it
    have indexed : flag x.op 13 = true := indexed
    have picks := indexTile_eq (f := e 0) (n := e 1) index fmt fits
    refine ⟨fun tag mixed rw tags goes => ?_, fun dense may goes => ?_⟩
    · rw [exec_tgath, execTgath, gatherRows]
      refine issue_ends goes ?_
      simp only [arg, indexed]
      exact rowOp_eq (store := false) small held (fun _ => rw) slot code shape paged (fun h => nomatch h) long rows
        (fun h => nomatch h) offsets (Act.bind_eq picks (Act.then_eq (startRows_load tags described free kept) rfl))
    · rw [exec_tscat, execTscat, gatherRows]
      refine issue_ends goes ?_
      simp only [arg, indexed]
      exact rowOp_eq (store := true) small held (fun h => nomatch h) slot code shape paged (fun _ => dense) long rows
        (fun h => nomatch h) offsets (Act.bind_eq picks (Act.then_eq (startRows_store may described free) rfl))
  · have load : flag x.op 13 = false := load
    rw [exec_tcopy, execTcopy]
    refine issue_trap goes ?_
    simp only [arg, load]
    exact rowOp_eq (store := false) small held (fun _ => rw) slot code shape paged (fun h => nomatch h) long rows
      (fun _ => below) offsets (Act.bind_of_stop (startRows_conflict conflict))
  · have load : flag x.op 13 = false := load
    rw [exec_tcopy, execTcopy]
    refine issue_wait goes ?_
    simp only [arg, load]
    exact rowOp_eq (store := false) small held (fun _ => rw) slot code shape paged (fun h => nomatch h) long rows
      (fun _ => below) offsets (Act.bind_of_stop (startRows_full tags described full))

end Sys2Proof.Machine

/-! ### Slot fills, warms and block addresses at issue -/

namespace Sys2Proof.Machine

/-- A wait whose condition holds. -/
theorem Act.until_then {α : Type} {c : Bool} {why : Nat} {y : Act α} {s : State} {r : Res α} (met : c = true) (rest : y s = r) :
    (Act.until c why).andThen y s = r := by
  subst met
  exact rest

/-- A wait whose condition does not hold. -/
theorem Act.until_waits {α : Type} {c : Bool} {why : Nat} {y : Act α} {s : State} (unmet : c = false) :
    (Act.until c why).andThen y s = .stop (.wait why s) := by
  subst unmet
  rfl

/-- The checks that a paged consumer makes of its layout. -/
theorem pagedLayout {l : Layout} (paged : l.lay = 3 → l.pagedOk = true) : (l.lay != 3 || l.pagedOk) = true := by
  by_cases table : l.lay = 3
  · simp [paged table]
  · simp [table]

/-- Settles O26: TSLOT checks the tile, the origin and the slot in turn; TWARM captures its layout and window; TBLK reads the
block table. -/
theorem slotFillsWarmsAndBlocks : Obligations.SlotFillsWarmsAndBlocks := by
  intro r o x y s u vs l v k b
  rcases arg : handleArg x vs with ⟨hv, rest⟩
  intro h slot org row0 col0 tr bits qs held form n sh e lay qw m qb i lb entry
  have row : getBits (rest.getD 1 0) 0 16 = row0 := getBits_low ..
  -- TSLOT up to the check that the strand holds the slot
  have reaches : ∀ {res : Res Done} {body : Nat × Tile → State → Act Done}, h < 128 → s.cur.tile? h = some v → org < 2 ^ 32 →
      slot < 64 → body (h, v) s s = res →
      ((heldTile hv).bind fun p => Act.get.bind fun s =>
        (Act.check (decide ((rest.getD 1 0).toNat < 2 ^ 32)) tRANGE []).andThen <|
        (Act.check (decide ((rest.headD 0).toNat ≤ 63)) tRANGE []).andThen <| body p s) s = res :=
    fun small tile origin number then' =>
      Act.bind_eq (heldTile_ok small tile) (Act.bind_eq (a := s) rfl (Act.check_then (decide_eq_true origin)
        (Act.check_then (decide_eq_true (Nat.le_of_lt_succ number)) then')))
  -- and past the checks of its form
  have formed : form → (col0 % 64 == 0) = true ∧ (tagFmt v.tag != 0) = true ∧ (!tr || bits == 8 || bits == 16) = true ∧
      (!tr || (!v.ds && !tagScaled v.tag)) = true := by
    rintro ⟨col, fmt, turned⟩
    refine ⟨by simpa using col, by simpa using fmt, ?_⟩
    cases way : tr
    · exact ⟨rfl, rfl⟩
    · obtain ⟨width, plain, unscaled⟩ := turned way
      exact ⟨by simpa using width, by simp [plain, unscaled]⟩
  refine ⟨fun goes small tile origin number mine formOk state room => ?_,
    fun goes small tile origin number other => ?_, fun goes small tile origin number mine formOk state => ?_,
    fun goes full ext paged => ?_, fun goes full bad => ?_, fun goes full code paged ext inside load => ?_⟩
  · obtain ⟨col, fmt, width, plain⟩ := formed formOk
    simp only [exec_tslot, execTslot]
    refine issue_ends goes ?_
    simp only [arg, row]
    refine reaches small tile origin number (Act.check_then mine (Act.check_then col (Act.check_then fmt
      (Act.check_then width (Act.check_then plain (Act.until_then ?_ (Act.then_eq (scoreRoom_ok room) ?_)))))))
    · simp only [List.mem_cons, List.not_mem_nil, or_false] at state
      rcases state with st | st <;> simp only [slot] at st <;> rw [st] <;> rfl
    · rfl
  · simp only [exec_tslot, execTslot]
    refine issue_trap goes ?_
    simp only [arg, row]
    exact reaches small tile origin number (Act.check_fails (Bool.eq_false_iff.mpr other))
  · obtain ⟨col, fmt, width, plain⟩ := formed formOk
    simp only [exec_tslot, execTslot]
    refine issue_wait goes ?_
    simp only [arg, row]
    refine reaches small tile origin number (Act.check_then mine (Act.check_then col (Act.check_then fmt
      (Act.check_then width (Act.check_then plain (Act.until_waits ?_))))))
    simp only [List.mem_cons, List.not_mem_nil, or_false] at state
    rcases state with st | st <;> simp only [slot] at st <;> rw [st] <;> rfl
  · rw [exec_twarm, execTwarm]
    refine issue_ends goes ?_
    refine Act.bind_eq (layoutOf_ok full) (Act.bind_eq (a := s.window sh) (t := s) rfl
      (Act.check_then ((Bool.and_eq_true ..).mpr ⟨ext, pagedLayout paged⟩) ?_))
    refine Act.then_eq (starting_eq ..) ?_
    rfl
  · rw [exec_tblk, execTblk]
    refine issue_trap goes (Act.bind_eq (a := s) rfl ?_)
    rw [full]
    refine Act.check_fails (?_ : (lb.lay == 3 && lb.pagedOk && lb.extOk) = false)
    rcases bad with code | paged | ext
    · simp [code]
    · simp [paged]
    · simp [ext]
  · have fine : (lb.lay == 3 && lb.pagedOk && lb.extOk) = true := by simp [code, paged, ext]
    have body : ∀ {res : Res Done}, ((Act.check (entry != 0 && entry % 64 == 0) tRANGE [w64 entry]).andThen
        (result o.d (w64 entry + lb.base + w64 (i % lb.blockRows) * lb.stride 1))) u = res →
        (Act.check (lb.lay == 3 && lb.pagedOk && lb.extOk) tSHAPE []).andThen
          ((Act.check (decide (i < lb.e 1)) tRANGE []).andThen
            ((loadBytes (lb.offs + w64 (8 * (i / lb.blockRows))) 8).bind fun b =>
              (Act.check (leNat b != 0 && leNat b % 64 == 0) tRANGE [w64 (leNat b)]).andThen
                (result o.d (w64 (leNat b) + lb.base + w64 (i % lb.blockRows) * lb.stride 1)))) s = res :=
      fun rest => Act.check_then fine (Act.check_then (decide_eq_true inside) (Act.bind_eq load rest))
    refine ⟨fun present aligned => ?_, fun bad => ?_⟩
    · rw [exec_tblk, execTblk]
      refine issue_next goes (Act.bind_eq (a := s) rfl ?_)
      rw [full]
      have names : (entry != 0 && entry % 64 == 0) = true := by simp [present, aligned]
      refine body ?_
      rw [names]
      rfl
    · rw [exec_tblk, execTblk]
      refine issue_trap goes (Act.bind_eq (a := s) rfl ?_)
      rw [full]
      have names : (entry != 0 && entry % 64 == 0) = false := by
        rcases bad with absent | unaligned
        · simp [absent]
        · simp [unaligned]
      refine body ?_
      rw [names]
      rfl

end Sys2Proof.Machine

/-! ### Where the rows of a layout lie -/

namespace Sys2Proof

/-- The first entry of a table that has a property. -/
theorem find?_tab {α : Type} {f : Nat → α} {n c : Nat} {p : α → Bool} (inside : c < n) (here : p (f c) = true)
    (before : ∀ j < c, p (f j) = false) : (tab n f).find? p = some (f c) := by
  have entry : ∀ (j : Nat) (h : j < (tab n f).length), (tab n f)[j] = f j := by
    intro j h
    have listed := tab_getElem? f n j
    rw [tab_length] at h
    rw [if_pos h, List.getElem?_eq_getElem (by simpa using h)] at listed
    exact Option.some.inj listed
  rw [List.find?_eq_some_iff_getElem]
  refine ⟨here, c, by simpa using inside, entry .., fun j lt => ?_⟩
  rw [entry, before j lt]
  rfl

namespace Machine

/-- The byte at off of a row of a tiled layout lies in the run of its tile. -/
theorem runAddr_tiledRuns {l : Layout} {i1 j2 j3 off : Nat} (inRow : off < l.rowLen) (inTiles : off / (8 * l.bits) < l.e 0 / 64)
    (wide : 0 < l.bits) :
    runAddr (tiledRuns l i1 j2 j3) off = some (l.base + w64 (i1 / 64) * l.stride 1 +
      w64 (off / (8 * l.bits) * 512 * l.bits) + w64 j2 * l.stride 2 + w64 j3 * l.stride 3 + w64 (i1 % 64 * (8 * l.bits)) +
      w64 (off % (8 * l.bits))) := by
  have split := Nat.div_add_mod off (8 * l.bits)
  have rest := Nat.mod_lt off (show 0 < 8 * l.bits by omega)
  rw [Nat.mul_comm] at split
  have found := find?_tab (p := fun (r : Run) => decide (r.off ≤ off) && decide (off < r.off + r.n))
    (f := fun c => (⟨c * (8 * l.bits), some (l.base + w64 (i1 / 64) * l.stride 1 + w64 (c * 512 * l.bits) + w64 j2 * l.stride 2 +
      w64 j3 * l.stride 3 + w64 (i1 % 64 * (8 * l.bits))), min (8 * l.bits) (l.rowLen - c * (8 * l.bits))⟩ : Run)) inTiles
    (by simp only [Bool.and_eq_true, decide_eq_true_eq]; omega)
    (fun c lt => by
      have next : (c + 1) * (8 * l.bits) ≤ off / (8 * l.bits) * (8 * l.bits) := Nat.mul_le_mul_right _ lt
      rw [Nat.succ_mul] at next
      refine and_decide_false fun ⟨_, short⟩ => ?_
      have most : c * (8 * l.bits) + min (8 * l.bits) (l.rowLen - c * (8 * l.bits)) ≤ c * (8 * l.bits) + 8 * l.bits :=
        Nat.add_le_add_left (Nat.min_le_left ..) _
      exact absurd (Nat.lt_of_lt_of_le short (Nat.le_trans most next)) (by omega))
  simp only [runAddr, tiledRuns, found, Option.map_some]
  rw [show off - off / (8 * l.bits) * (8 * l.bits) = off % (8 * l.bits) by omega]

/-- The bits counted before a place of the bitmap. -/
theorem bitsBefore_eq (m : List Byte) (k : Nat) : bitsBefore m k = (List.range k).countP fun n => bitAt m n := by
  induction k with
  | zero => rfl
  | succ k ih =>
    rw [bitsBefore, ih, List.range_succ, List.countP_append, List.countP_singleton, Nat.add_comm]
    cases bitAt m k <;> rfl

/-- Settles O27: each layout code has its own branch of `rowRuns`. -/
theorem rowPlaces : Obligations.RowPlaces := by
  intro l s u i1 j2 j3 b st plain w
  refine ⟨fun code dense => ?_, fun tiled dense => ⟨tiledRuns l i1 j2 j3, ?_, fun off inRow inTiles wide =>
    runAddr_tiledRuns inRow inTiles wide⟩, fun paged load => ?_, fun code sparse load => ⟨sparseRuns l b i1 j2 j3, ?_, ?_⟩⟩
  · have not3 : l.lay ≠ 3 := fun e => code (by simp [e])
    have not2 : l.lay ≠ 2 := fun e => code (by simp [e])
    rw [rowRuns, if_neg not3, if_neg dense, if_neg not2]
    rfl
  · rw [rowRuns, if_neg (by omega), if_neg dense, if_pos tiled]
    rfl
  · rw [rowRuns, if_pos paged]
    refine Act.bind_eq load ?_
    show (if leNat b = 0 ∨ leNat b % 64 ≠ 0 then Act.pure none else _ : Act (Option (List Run))) u = _
    split <;> rfl
  · have not3 : l.lay ≠ 3 := fun e => code (by simp [e])
    rw [rowRuns, if_neg not3, if_pos sparse]
    exact Act.bind_eq load rfl
  · intro bj inside
    have inside : bj < blockCols l := inside
    refine ⟨_, by rw [sparseRuns, tab_getElem?, if_pos inside], rfl, ?_, fun set => ?_⟩
    · show (if bitAt b (i1 / 64 * blockCols l + bj) = true then some _ else none).isSome = true ↔ _
      split
      · simpa using ‹bitAt b _ = true›
      · simpa using ‹¬ bitAt b _ = true›
    · show (if bitAt b (i1 / 64 * blockCols l + bj) = true then some _ else none) = _
      have set : bitAt b (i1 / 64 * blockCols l + bj) = true := set
      rw [if_pos set, bitsBefore_eq]
      rfl

end Machine
end Sys2Proof

/-! ### Copies, slot fills and warms complete -/

namespace Sys2Proof

/-- Reading a map after values were put at consecutive keys. -/
theorem SMap.get?_puts {α : Type} (m : SMap α) (i k : Nat) (xs : List α) :
    (m.puts i xs).get? k = if i ≤ k ∧ k < i + xs.length then xs[k - i]? else m.get? k := by
  induction xs generalizing m i with
  | nil => rw [SMap.puts, if_neg (by simp)]
  | cons x xs ih =>
    rw [SMap.puts, ih, List.length_cons]
    by_cases here : k = i
    · subst here
      rw [if_neg (by omega), if_pos (by omega), SMap.get?_set, Nat.sub_self]
      rfl
    · by_cases inside : i + 1 ≤ k ∧ k < i + 1 + xs.length
      · rw [if_pos inside, if_pos (by omega), show k - i = (k - (i + 1)) + 1 by omega]
        rfl
      · rw [if_neg inside, if_neg (by omega), SMap.get?_set_ne _ _ here]

namespace Machine

/-! ### The step of an operation -/

theorem State.Under.front {s u : State} {k op : Nat} {o : AsyncOp} (under : s.Under k op o u) : s.Front k u :=
  ⟨under.1, under.2.1⟩

section
variable {s u w : State} {k op : Nat} {o : AsyncOp} {step : What} {body : AsyncOp → Act Unit} {after : AsyncOp → State → State}

/-- The step of an operation whose body completes. -/
theorem runOp_ok (under : s.Under k op o u) (does : body o u = .ok () w) :
    runOp k op step body after s = s.backTo (after o w) := by
  refine onStrand_next under.front ?_
  simp only [under.2.2, does]

/-- The step of an operation whose body waits: it asks again. -/
theorem runOp_waits {why : Nat} (under : s.Under k op o u) (does : body o u = .stop (.wait why w)) :
    runOp k op step body after s = s.backTo (w.postOnce step k op) := by
  refine onStrand_next under.front ?_
  simp only [under.2.2, does]

/-- The step of an operation whose body traps: the operation is abandoned. -/
theorem runOp_traps {code : Nat} {args : List Word} (under : s.Under k op o u) (does : body o u = .stop (.trap code args)) :
    runOp k op step body after s = s.backTo ((u.abandonOp o).lateTrap o.g code args) := by
  refine onStrand_next under.front ?_
  simp only [under.2.2, does]

end

/-! ### Rows that are put into a tile -/

theorem Tile.copyHalf_setCopyHalf (t : Tile) (h : Half) : (t.setCopyHalf h).copyHalf = h := by
  by_cases half : t.half == t.db <;> simp [Tile.setCopyHalf, Tile.copyHalf, half]

/-- The bytes of the copies' half after a row is put. -/
theorem Tile.putRow_data (t : Tile) (row : Nat) (d : RowData) :
    (t.putRow row d).copyHalf.data = SMap.puts t.copyHalf.data ((row + d.k) * t.rb) d.bytes ∧
      (t.putRow row d).copyHalf.seed = t.copyHalf.seed := by
  simp only [Tile.putRow, Tile.copyHalf_setCopyHalf]
  cases t.sc <;> cases t.ds <;> exact ⟨rfl, rfl⟩

theorem Tile.putRow_inside (t : Tile) (row : Nat) (d : RowData) {i : Nat} (inside : i < d.bytes.length) :
    (t.putRow row d).copyHalf.byte ((row + d.k) * t.rb + i) = d.bytes.getD i 0 := by
  obtain ⟨data, -⟩ := t.putRow_data row d
  rw [Half.byte, data, SMap.get?_puts, if_pos (by omega), Nat.add_sub_cancel_left]
  simp [inside]

theorem Tile.putRow_outside (t : Tile) (row : Nat) (d : RowData) {a : Nat}
    (outside : ¬ ((row + d.k) * t.rb ≤ a ∧ a < (row + d.k) * t.rb + d.bytes.length)) :
    (t.putRow row d).copyHalf.byte a = t.copyHalf.byte a := by
  obtain ⟨data, seed⟩ := t.putRow_data row d
  rw [Half.byte, data, seed, SMap.get?_puts, if_neg outside]
  rfl

theorem State.unhold_ops (s : State) (g : Eng) (op : Option Nat) : (s.unhold g op).cur.ops = s.cur.ops := by
  simp only [State.unhold]
  split <;> rfl

/-- Settles O28: an operation that nothing stands before does its transfer and completes; the others ask again. -/
theorem copiesComplete : Obligations.CopiesComplete := by
  intro k op s u w w' w'' o rows ds v counted free putAll under
  refine ⟨fun before => ?_, fun blocked => ?_, fun r m ⟨clear, first⟩ kind place read heals held => ?_,
    fun r w0 ⟨clear, first⟩ kind place held reads stores marks => ?_,
    fun slot h row0 col0 t tag clear kind held reads => ?_, fun r vas kind tables place pages => ?_,
    fun r vas kind tables => ?_, fun row d i inside => v.putRow_inside row d inside,
    fun row d a outside => v.putRow_outside row d outside, fun w => ?_⟩
  · rw [exec_copyComplete, execCopyComplete]
    exact runOp_waits under (Act.bind_eq (a := u) rfl (Act.until_waits (by simp [before])))
  · have stays : (!u.cur.copyBlocked o.id o.touch) = false := by simp [blocked]
    have copy : (!u.cur.copyBlocked o.id o.touch && !u.cur.copyBefore o.id) = false := by simp [blocked]
    simp only [List.forall_mem_cons]
    refine ⟨?_, ?_, ?_, fun i mem => nomatch mem⟩
    · rw [exec_copyComplete, execCopyComplete]
      exact runOp_waits under (Act.bind_eq (a := u) rfl (Act.until_waits copy))
    · rw [exec_slotFillComplete, execSlotFillComplete]
      exact runOp_waits under (Act.bind_eq (a := u) rfl (Act.until_waits stays))
    · rw [exec_indexComplete, execIndexComplete]
      exact runOp_waits under (Act.bind_eq (a := u) rfl (Act.until_waits stays))
  · rw [exec_copyComplete, execCopyComplete]
    refine runOp_ok under (Act.bind_eq (a := u) rfl (Act.until_then (by simp [clear, first]) ?_))
    rw [kind]
    exact Act.bind_eq place (Act.bind_eq read (Act.then_eq (t := counted w') rfl (Act.then_eq heals (updTile_ok _ held))))
  · rw [exec_copyComplete, execCopyComplete]
    refine runOp_ok under (Act.bind_eq (a := u) rfl (Act.until_then (by simp [clear, first]) ?_))
    rw [kind]
    refine Act.bind_eq place (Act.bind_eq (a := w) rfl ?_)
    rw [held]
    exact Act.then_eq reads (Act.then_eq stores (Act.then_eq (t := counted w') rfl marks))
  · rw [exec_slotFillComplete, execSlotFillComplete]
    refine runOp_ok under (Act.bind_eq (a := u) rfl (Act.until_then (by simp [clear]) ?_))
    rw [kind]
    show (match u.cur.tile? h with
      | some v => _
      | none => _ : Act Unit) u = _
    rw [held]
    exact Act.then_eq reads rfl
  · rw [exec_twarmComplete, execTwarmComplete]
    refine runOp_ok under ?_
    rw [kind]
    simp only [tables, place, pages]
    rfl
  · rw [exec_twarmComplete, execTwarmComplete]
    refine runOp_waits under (why := 0) ?_
    rw [kind]
    simp only [tables]
    rfl
  · show ((w.unhold o.g (some o.id)).cur.ops.map _) = _
    rw [State.unhold_ops]

end Machine
end Sys2Proof

/-! ### Chains at issue -/

namespace Sys2Proof.Machine

/-- Where a kick finds its chain. -/
def kickAt (x : Option XH) (tl : Bool) (vs : List Word) : Act ChainAddr :=
  if tl then
    (Act.check (((handleArg x vs).2.headD 0).toNat % 32 == 0) tALIGN []).andThen <|
    (heldTile (handleArg x vs).1).bind fun p => Act.pure (ChainAddr.tile p.1 ((handleArg x vs).2.headD 0).toNat)
  else
    (Act.check ((vs.headD 0).toNat % 32 == 0) tALIGN []).andThen (Act.pure (ChainAddr.mem (vs.headD 0)))

/-- A kick that finds its chain starts it. -/
theorem kickChain_starts {g : Eng} {r : Ring} {opc : Nat} {o : F3} {x : Option XH} {s : State} {vs : List Word} {l : Links}
    {q : Issue} {tl : Bool} {ce : Nat} {a : ChainAddr}
    (body : kickChain g r opc o x s = issue q (fun vs => (kickAt x tl vs).bind fun a =>
      (startAct g opc r (.chain (.start opc ce a)) [] (some .chainCopy)).andThen noResult) s)
    (goes : s.Goes q vs l) (found : kickAt x tl vs s = .ok a s) :
    kickChain g r opc o x s = (s.starting g opc r (.chain (.start opc ce a)) [] (some .chainCopy)).ends q l := by
  rw [body]
  refine issue_ends goes (Act.bind_eq found ?_)
  exact Act.then_eq (starting_eq ..) rfl

/-- A kick whose check fails. -/
theorem kickChain_traps {g : Eng} {r : Ring} {opc : Nat} {o : F3} {x : Option XH} {s : State} {vs : List Word} {l : Links}
    {q : Issue} {tl : Bool} {ce code : Nat} {args : List Word}
    (body : kickChain g r opc o x s = issue q (fun vs => (kickAt x tl vs).bind fun a =>
      (startAct g opc r (.chain (.start opc ce a)) [] (some .chainCopy)).andThen noResult) s)
    (goes : s.Goes q vs l) (bad : kickAt x tl vs s = .stop (.trap code args)) :
    kickChain g r opc o x s = .next (s.takeTrap q.g code args) := by
  rw [body]
  exact issue_trap goes (Act.bind_of_stop bad)

/-- Settles O29: a kick checks where its chain begins and starts it; CHLINK reads the END entry that it links at. -/
theorem chainsStart : Obligations.ChainsStart := by
  intro r o x s u w vs l v b ce tile engine q chain va hv off ql
  refine ⟨?_, fun goes unaligned => ?_, fun goes aligned load => ⟨fun other => ?_, fun isEnd linked => ?_,
    fun isEnd gone stores => ?_⟩⟩
  · have kicked : ∀ g opc, kickChain g r opc o x s = issue (q g opc) (fun vs => (kickAt x tile vs).bind fun a =>
        (startAct g opc r (.chain (.start opc engine a)) [] (some .chainCopy)).andThen noResult) s := by
      intro g opc
      cases x <;> rfl
    have memory : tile = false → va.toNat % 32 = 0 → kickAt x tile vs s = .ok (.mem va) s := by
      intro short aligned
      rw [kickAt, short]
      exact Act.check_then (beq_iff_eq.mpr aligned) rfl
    have misaligned : tile = false → va.toNat % 32 ≠ 0 → kickAt x tile vs s = .stop (.trap tALIGN []) := by
      intro short unaligned
      rw [kickAt, short]
      exact Act.check_fails (beq_false_of_ne unaligned)
    have inTile : tile = true → off.toNat % 32 = 0 → hv.toNat < 128 → s.cur.tile? hv.toNat = some v →
        kickAt x tile vs s = .ok (.tile hv.toNat off.toNat) s := by
      intro long aligned small held
      rw [kickAt, long]
      exact Act.check_then (beq_iff_eq.mpr aligned) (Act.bind_eq (heldTile_ok small held) rfl)
    have noTile : tile = true → off.toNat % 32 = 0 → 128 ≤ hv.toNat ∨ s.cur.tile? hv.toNat = none →
        kickAt x tile vs s = .stop (.trap tHANDLE [hv]) := by
      intro long aligned bad
      rw [kickAt, long]
      refine Act.check_then (beq_iff_eq.mpr aligned) (Act.bind_of_stop ?_)
      by_cases small : hv.toNat < 128
      · exact heldTile_absent small (bad.resolve_left (Nat.not_le.mpr small))
      · refine Act.bind_of_stop ?_
        rw [handleNo, if_neg small]
        rfl
    -- one kick of engine g, as CHKICK and WCHAIN make it
    have kick : ∀ g opc, s.Goes (q g opc) vs l →
        (tile = false → va.toNat % 32 = 0 → kickChain g r opc o x s =
          (s.starting g opc r (chain opc engine (.mem va)) [] (some .chainCopy)).ends (q g opc) l) ∧
        (tile = false → va.toNat % 32 ≠ 0 → kickChain g r opc o x s = .next (s.takeTrap g tALIGN [])) ∧
        (tile = true → off.toNat % 32 = 0 → hv.toNat < 128 → s.cur.tile? hv.toNat = some v → kickChain g r opc o x s =
          (s.starting g opc r (chain opc engine (.tile hv.toNat off.toNat)) [] (some .chainCopy)).ends (q g opc) l) ∧
        (tile = true → off.toNat % 32 = 0 → 128 ≤ hv.toNat ∨ s.cur.tile? hv.toNat = none →
          kickChain g r opc o x s = .next (s.takeTrap g tHANDLE [hv])) := fun g opc goes =>
      ⟨fun a b => kickChain_starts (kicked g opc) goes (memory a b),
        fun a b => kickChain_traps (q := q g opc) (kicked g opc) goes (misaligned a b),
        fun a b c d => kickChain_starts (kicked g opc) goes (inTile a b c d),
        fun a b c => kickChain_traps (q := q g opc) (kicked g opc) goes (noTile a b c)⟩
    simp only [List.forall_mem_cons]
    refine ⟨?_, ?_, fun e mem => nomatch mem⟩
    · rw [exec_chkick, execChkick]
      exact kick .a 0x6A
    · rw [exec_wchain, execWchain]
      exact kick .w 0x62
  · rw [exec_chlink, execChlink]
    exact issue_trap goes (Act.check_fails (beq_false_of_ne unaligned))
  · rw [exec_chlink, execChlink]
    exact issue_trap goes (Act.check_then (beq_iff_eq.mpr aligned) (Act.bind_eq load (Act.check_fails (beq_false_of_ne other))))
  · rw [exec_chlink, execChlink]
    refine issue_next goes (Act.check_then (beq_iff_eq.mpr aligned) (Act.bind_eq load (Act.check_then (beq_iff_eq.mpr isEnd)
      (Act.bind_eq (a := u) rfl ?_))))
    rw [linked]
    exact Act.then_eq (starting_eq ..) rfl
  · rw [exec_chlink, execChlink]
    refine issue_next goes (Act.check_then (beq_iff_eq.mpr aligned) (Act.bind_eq load (Act.check_then (beq_iff_eq.mpr isEnd)
      (Act.bind_eq (a := u) rfl ?_))))
    rw [gone]
    exact Act.then_eq (storeBytes_ok stores) rfl

end Sys2Proof.Machine

/-! ### The steps of a chain -/

namespace Sys2Proof.Machine

/-- An operation that is found by its number has this number. -/
theorem Strand.op?_id {t : Strand} {id : Nat} {o : AsyncOp} (found : t.op? id = some o) : o.id = id := by
  have holds := List.find?_some found
  simp only [Bool.and_eq_true, beq_iff_eq] at holds
  exact holds.1

/-- Changing an operation leaves it where it is found. -/
theorem Strand.op?_updOp {t : Strand} {id : Nat} {o : AsyncOp} {f : AsyncOp → AsyncOp} (found : t.op? id = some o)
    (keeps : ∀ p, (f p).id = p.id ∧ (f p).done = p.done) : (t.updOp id f).op? id = some (f o) := by
  have same : ∀ p : AsyncOp, ((if p.id = id then f p else p).id == id && !(if p.id = id then f p else p).done) =
      (p.id == id && !p.done) := by
    intro p
    split
    · rw [(keeps p).1, (keeps p).2]
    · rfl
  rw [Strand.op?, Strand.updOp, List.find?_map]
  simp only [Function.comp_def, same]
  rw [Strand.op?] at found
  rw [found, Option.map_some, if_pos (Strand.op?_id found)]

theorem Strand.op?_of_ops {t u : Strand} (same : u.ops = t.ops) (id : Nat) : u.op? id = t.op? id := by
  simp only [Strand.op?, same]

/-- The machine once a chain's step is over: the operation holds the chain as it now is and no rows. -/
def State.chained (t : State) (o : AsyncOp) (op : Nat) (c : Chain) : State :=
  State.setCur (t.unhold o.g (some op)) fun m => m.updOp op fun p => { p with kind := .chain c, touch := [] }

theorem State.chained_op? {t : State} {o p : AsyncOp} {op : Nat} (c : Chain) (there : t.cur.op? op = some o) :
    (t.chained p op c).cur.op? op = some { o with kind := .chain c, touch := [] } := by
  have kept : (t.unhold p.g (some op)).cur.op? op = some o := by
    rw [Strand.op?_of_ops (State.unhold_ops ..), there]
  exact Strand.op?_updOp kept fun _ => ⟨rfl, rfl⟩

section
variable {s u w t : State} {k op kind : Nat} {o : AsyncOp} {c c' : Chain} {a : ChainAddr} {e : ChainEnt}
  {body : Chain → ChainAddr → ChainEnt → Act Chain}

/-- The step of a chain whose entry is of another kind asks for the step of that kind. -/
theorem chainStep_other (under : s.Under k op o u) (chain : o.kind = .chain c) (runs : c.ended = false)
    (entry : currentEntry c u = .ok (a, e) w) (there : w.cur.op? op = some o) (other : e.kind ≠ kind) :
    chainStep kind k op body s = s.backTo (w.post (kindStep e.kind) k op) := by
  have id := Strand.op?_id there
  refine (runOp_ok (w := w.post (kindStep e.kind) k op) under ?_).trans ?_
  · rw [chain]
    refine Act.bind_eq entry ?_
    rw [if_pos other]
    rfl
  · have found : (w.post (kindStep e.kind) k op).cur.op? o.id = some o := by rw [id]; exact there
    simp only [found, chain, runs]
    rfl

/-- The step of a chain whose entry is performed. -/
theorem chainStep_goes (under : s.Under k op o u) (chain : o.kind = .chain c) (entry : currentEntry c u = .ok (a, e) w)
    (same : e.kind = kind) (does : body c a e w = .ok c' t) (there : t.cur.op? op = some o) :
    chainStep kind k op body s = s.backTo (if c'.ended then (t.chained o op c').completeOp o
      else (t.chained o op c').post (kindStep e.kind) k op) := by
  have id := Strand.op?_id there
  refine (runOp_ok (w := if c'.ended then t.chained o op c' else (t.chained o op c').post (kindStep kind) k op) under ?_).trans ?_
  · rw [chain]
    refine Act.bind_eq entry ?_
    rw [if_neg (by simp [same])]
    exact Act.bind_eq does rfl
  · subst same
    have found : (t.chained o op c').cur.op? o.id = some { o with kind := .chain c', touch := [] } := by
      exact (congrArg _ id).trans (State.chained_op? c' there)
    cases ended : c'.ended
    · have posted : ((t.chained o op c').post (kindStep e.kind) k op).cur.op? o.id =
          some { o with kind := .chain c', touch := [] } := found
      simp only [Bool.false_eq_true, if_false, posted, ended]
    · simp only [if_true, found, ended]

/-- The step of a chain whose entry waits. -/
theorem chainStep_waits {why : Nat} (under : s.Under k op o u) (chain : o.kind = .chain c)
    (entry : currentEntry c u = .ok (a, e) w) (same : e.kind = kind) (does : body c a e w = .stop (.wait why t)) :
    chainStep kind k op body s = s.backTo (t.postOnce (kindStep kind) k op) := by
  refine runOp_waits (why := why) under ?_
  rw [chain]
  refine Act.bind_eq entry ?_
  rw [if_neg (by simp [same])]
  exact Act.bind_of_stop does

/-- The step of a chain whose entry is malformed: the chain is stopped. -/
theorem chainStep_stops (under : s.Under k op o u) (chain : o.kind = .chain c) (entry : currentEntry c u = .ok (a, e) w)
    (same : e.kind = kind) (bad : body c a e w = malformed c a w) :
    chainStep kind k op body s = s.backTo ((u.abandonOp o).lateTrap o.g tRANGE [a.word, w64 c.kick]) := by
  refine runOp_traps under ?_
  rw [chain]
  refine Act.bind_eq entry ?_
  rw [if_neg (by simp [same])]
  exact Act.bind_of_stop bad

end

end Sys2Proof.Machine

/-! ### Each kind of chain entry -/

namespace Sys2Proof.Machine

theorem tileRange_fits {t : Strand} {h off n : Nat} {v : Tile} (held : t.tile? h = some v) (fits : off + n ≤ v.size) :
    tileRange t h off n = some v := by
  simp only [tileRange, held, if_pos fits]

/-! #### An entry's rows are recorded -/

/-- An entry that moves no tile rows starts at once. -/
theorem chainStarts_none (op : Nat) (s : State) : chainStarts op [] s = .ok () s := rfl

section
variable {s : State} {op : Nat} {o : AsyncOp} {want : List Touch}

theorem chainStarts_held (there : s.cur.op? op = some o) (held : o.touch = want) : chainStarts op want s = .ok () s := by
  have same : ((s.cur.op? op).map fun o => o.touch == want).getD false = true := by simp [there, held]
  simp only [chainStarts, Act.get_bind, same, Bool.or_true, if_true]
  rfl

/-- The condition under which an entry's rows are recorded. -/
def State.chainFree (s : State) (op : Nat) (want : List Touch) : Prop :=
  s.cur.chainBlocked op want = false ∧ s.scoreboard s.curCore + want.length ≤ Config.scoreboardEntries

/-- What an entry that moves tile rows does before they are recorded. -/
theorem chainStarts_new (there : s.cur.op? op = some o) (new : o.touch ≠ want) (rows : want ≠ []) :
    chainStarts op want s = ((Act.until (!s.cur.chainBlocked op want) 0).andThen <| (scoreRoom want.length).andThen <|
      (Act.modify fun s => s.setCur fun t => t.updOp op fun o => { o with touch := want }).andThen (Act.wait 0)) s := by
  have differ : (want.isEmpty || ((s.cur.op? op).map fun o => o.touch == want).getD false) = false := by
    simp [there, new, rows]
  simp only [chainStarts, Act.get_bind, differ, Bool.false_eq_true, if_false]

theorem chainStarts_records (there : s.cur.op? op = some o) (new : o.touch ≠ want) (rows : want ≠ [])
    (free : s.chainFree op want) : chainStarts op want s =
      .stop (.wait 0 (s.setCur fun t => t.updOp op fun o => { o with touch := want })) := by
  rw [chainStarts_new there new rows]
  exact Act.until_then (by simp [free.1]) (Act.then_eq (scoreRoom_ok free.2) rfl)

theorem chainStarts_waits (there : s.cur.op? op = some o) (new : o.touch ≠ want) (rows : want ≠ [])
    (held : ¬ s.chainFree op want) : chainStarts op want s = .stop (.wait 0 s) := by
  rw [chainStarts_new there new rows]
  cases blocked : s.cur.chainBlocked op want
  · have full : ¬ s.scoreboard s.curCore + want.length ≤ Config.scoreboardEntries := fun room => held ⟨blocked, room⟩
    exact Act.until_then rfl (Act.bind_of_stop (scoreRoom_full full))
  · exact Act.until_waits rfl

end

/-! #### COPY -/

section
variable {op : Nat} {c : Chain} {a : ChainAddr} {e : ChainEnt} {w : State} {p p' : Nat × Nat} {v v' : Tile}

theorem chainCopyBody_memory (src : ¬ e.flags % 2 = 1) (dst : ¬ e.flags / 2 = 1) :
    chainCopyBody op c a e w = ((loadBytes e.q8 e.w4).bind fun bytes =>
      ((Act.map (carried e.q8 e.q16) (storePieces e.q16 bytes)).bind storeAll).andThen (Act.pure (c.pass e 1))) w := by
  simp only [chainCopyBody, Act.get_bind, if_neg src, if_neg dst]
  rfl

theorem chainCopyBody_into (src : ¬ e.flags % 2 = 1) (dst : e.flags / 2 = 1) (place : tileAddr e.q16 = some p)
    (held : w.cur.tile? p.1 = some v) (fits : p.2 + e.w4 ≤ v.size) (rw : v.ro = false) :
    chainCopyBody op c a e w = ((chainStarts op [touchBytes v p.1 p.2 e.w4 true]).andThen <|
      (loadBytes e.q8 e.w4).bind fun bytes =>
      ((tileHeal v true p.2 e.w4).andThen <| updTile p.1 fun t => t.setCopyHalf (t.copyHalf.put p.2 bytes)).andThen <|
      Act.pure (c.pass e 1)) w := by
  simp only [chainCopyBody, Act.get_bind, if_neg src, if_pos dst, place, Option.map_some, tileRange_fits held fits, rw]
  rfl

theorem chainCopyBody_from (src : e.flags % 2 = 1) (dst : ¬ e.flags / 2 = 1) (place : tileAddr e.q8 = some p)
    (held : w.cur.tile? p.1 = some v) (fits : p.2 + e.w4 ≤ v.size) :
    chainCopyBody op c a e w = ((chainStarts op [touchBytes v p.1 p.2 e.w4 false]).andThen <|
      (tileSound v p.2 e.w4).andThen <| (storeAll (storePieces e.q16 (v.front.bytes p.2 e.w4))).andThen <|
      Act.pure (c.pass e 1)) w := by
  simp only [chainCopyBody, Act.get_bind, if_pos src, if_neg dst, place, Option.map_some, tileRange_fits held fits]
  simp only [Act.then_bind, Act.bind_assoc, Act.pure_bind]
  rfl

theorem chainCopyBody_across (src : e.flags % 2 = 1) (dst : e.flags / 2 = 1) (place : tileAddr e.q8 = some p)
    (place' : tileAddr e.q16 = some p') (held : w.cur.tile? p.1 = some v) (fits : p.2 + e.w4 ≤ v.size)
    (held' : w.cur.tile? p'.1 = some v') (fits' : p'.2 + e.w4 ≤ v'.size) (rw : v'.ro = false) :
    chainCopyBody op c a e w =
      ((chainStarts op [touchBytes v p.1 p.2 e.w4 false, touchBytes v' p'.1 p'.2 e.w4 true]).andThen <|
      (tileSound v p.2 e.w4).andThen <|
      ((tileHeal v' true p'.2 e.w4).andThen <| updTile p'.1 fun t =>
        t.setCopyHalf (moveSidecars v t p.2 p'.2 e.w4 (t.copyHalf.put p'.2 (v.front.bytes p.2 e.w4)))).andThen <|
      Act.pure (c.pass e 1)) w := by
  simp only [chainCopyBody, Act.get_bind, if_pos src, if_pos dst, place, place', Option.map_some, tileRange_fits held fits,
    tileRange_fits held' fits', rw]
  simp only [Act.then_bind, Act.bind_assoc, Act.pure_bind]
  rfl

end

/-- A destination that no tile is held under. -/
theorem chainCopyBody_absent {op : Nat} {c : Chain} {a : ChainAddr} {e : ChainEnt} {w : State} {p : Nat × Nat}
    (src : ¬ e.flags % 2 = 1) (dst : e.flags / 2 = 1) (place : tileAddr e.q16 = some p)
    (absent : w.cur.tile? p.1 = none) : chainCopyBody op c a e w = malformed c a w := by
  have range : tileRange w.cur p.1 p.2 e.w4 = none := by simp only [tileRange, absent]
  simp only [chainCopyBody, Act.get_bind, if_neg src, if_pos dst, place, Option.map_some, Option.map_none, range]
  rfl

/-! #### Counters -/

/-- An add to a counter joins the store buffer (R189, R301). -/
theorem addCounter_enters {w t t' : State} {va v : Word} {i : Nat} {x : Xlate} (aligned : va.toNat % 8 = 0)
    (canon : canonical va = true) (place : w.ownXlate va .write = .ok x t) (plain : x.desc = false)
    (room : t.Room (decide (t.cur.ph.buf.length < Config.bufEntries)) t') :
    addCounter va i v w = .ok () (t'.orderedEntry ⟨va, x.home, x.pa, x.ord, 16, .counter i v⟩) := by
  have addr : atomicAddr va 8 0 w = .ok x t :=
    Act.check_then (beq_iff_eq.mpr aligned) (Act.check_then canon (Act.bind_eq (xlate_ok place)
      (Act.check_then (by simp [plain]) (Act.check_then (by simp) rfl))))
  exact Act.bind_eq addr (Act.then_eq (bufferRoom_ok (fits := fun buf => decide (buf.length < Config.bufEntries)) room) rfl)

theorem chainCounter_ok {w : State} {c : Chain} {a : ChainAddr} {e : ChainEnt} (known : e.w4 < w.curCtx.record.ncnt) :
    chainCounter c a e w = .ok (counterVa w.curCtx e.w4) w := by
  simp only [chainCounter, Act.get_bind, if_neg (Nat.not_le.mpr known)]
  rfl

theorem chainCounter_malformed {w : State} {c : Chain} {a : ChainAddr} {e : ChainEnt}
    (unknown : ¬ e.w4 < w.curCtx.record.ncnt) :
    chainCounter c a e w = .stop (.trap tRANGE [a.word, w64 c.kick]) := by
  simp only [chainCounter, Act.get_bind, if_pos (Nat.not_lt.mp unknown)]
  rfl

/-- Settles O30: each entry's step is the chain's step with what the entry does. -/
theorem chainSteps : Obligations.ChainSteps := by
  intro k op s u w t t' t'' o c c' a e past body bytes ps goesOn stops counter counterAt src dst fits records from' into
    under chain runs entry there
  -- the entry's rows are recorded before it moves them
  have recording : ∀ {want rest}, e.kind = 1 → chainCopyBody op c a e w = ((chainStarts op want).andThen rest) w → want ≠ [] →
      records want := by
    intro want rest kind first rows new
    refine ⟨fun free => ?_, fun held => ?_⟩
    · rw [exec_chainCopy, execChainCopy]
      exact chainStep_waits under chain entry kind (first.trans (Act.bind_of_stop (chainStarts_records there new rows free)))
    · rw [exec_chainCopy, execChainCopy]
      exact chainStep_waits under chain entry kind (first.trans (Act.bind_of_stop (chainStarts_waits there new rows held)))
  refine ⟨?_, fun kind noSrc noDst load carries stores op? => ?_, fun p v kind noSrc isDst place ⟨held, inside⟩ rw => ?_,
    fun p v kind isSrc noDst place ⟨held, inside⟩ => ?_,
    fun p v p' v' kind isSrc isDst place place' ⟨held, inside⟩ ⟨held', inside'⟩ rw => ?_, fun p kind isDst noSrc place gone => ?_,
    fun kind does op? => ?_, fun kind known adds op? => ?_,
    fun x aligned canon place plain room => addCounter_enters aligned canon place plain room, fun unknown => ?_,
    fun known reads op? => ?_, fun kind before op? => ?_, fun kind flags => ?_, fun h off kind flags place => ?_,
    fun kind flags => ?_, fun kind flags known adds op? => ?_, fun va plain addr => ?_, fun h off plain addr => ?_⟩
  · simp only [List.forall_mem_cons]
    refine ⟨?_, ?_, ?_, ?_, ?_, ?_, ?_, ?_, fun i mem => nomatch mem⟩
    · rw [exec_chainCopy, execChainCopy]
      exact chainStep_other under chain runs entry there
    · rw [exec_chainGather, execChainGather]
      exact chainStep_other under chain runs entry there
    · rw [exec_chainPost, execChainPost]
      exact chainStep_other under chain runs entry there
    · rw [exec_chainWait, execChainWait]
      exact chainStep_other under chain runs entry there
    · rw [exec_chainLoop, execChainLoop]
      exact chainStep_other under chain runs entry there
    · rw [exec_chainIf, execChainIf]
      exact chainStep_other under chain runs entry there
    · rw [exec_chainLink, execChainLink]
      exact chainStep_other under chain runs entry there
    · rw [exec_chainEnd, execChainEnd]
      exact chainStep_other under chain runs entry there
  · rw [exec_chainCopy, execChainCopy]
    exact chainStep_goes under chain entry kind ((chainCopyBody_memory noSrc noDst).trans
      (Act.bind_eq load (Act.then_eq (Act.bind_eq carries stores) rfl))) op?
  · have first := chainCopyBody_into (op := op) (c := c) (a := a) noSrc isDst place held inside rw
    refine ⟨recording kind first (List.cons_ne_nil _ _), fun touch load heals there' op? => ?_⟩
    rw [exec_chainCopy, execChainCopy]
    exact chainStep_goes under chain entry kind (first.trans (Act.then_eq (chainStarts_held there touch)
      (Act.bind_eq load (Act.then_eq (Act.then_eq heals (updTile_ok _ there')) rfl)))) op?
  · have first := chainCopyBody_from (op := op) (c := c) (a := a) isSrc noDst place held inside
    refine ⟨recording kind first (List.cons_ne_nil _ _), fun touch sound stores op? => ?_⟩
    rw [exec_chainCopy, execChainCopy]
    exact chainStep_goes under chain entry kind (first.trans (Act.then_eq (chainStarts_held there touch)
      (Act.then_eq sound (Act.then_eq stores rfl)))) op?
  · have first := chainCopyBody_across (op := op) (c := c) (a := a) isSrc isDst place place' held inside held' inside' rw
    refine ⟨recording kind first (List.cons_ne_nil _ _), fun touch sound heals there' op? => ?_⟩
    rw [exec_chainCopy, execChainCopy]
    exact chainStep_goes under chain entry kind (first.trans (Act.then_eq (chainStarts_held there touch)
      (Act.then_eq sound (Act.then_eq (Act.then_eq heals (updTile_ok _ there')) rfl)))) op?
  · rw [exec_chainCopy, execChainCopy]
    refine chainStep_stops under chain entry kind ?_
    exact chainCopyBody_absent noSrc isDst place gone
  · rw [exec_chainGather, execChainGather]
    exact chainStep_goes under chain entry kind does op?
  · rw [exec_chainPost, execChainPost]
    exact chainStep_goes under chain entry kind (Act.bind_eq (chainCounter_ok known) (Act.then_eq adds rfl)) op?
  · refine ⟨fun kind => ?_, fun kind => ?_, fun kind => ?_⟩
    · rw [exec_chainPost, execChainPost]
      exact chainStep_stops under chain entry kind (Act.bind_of_stop (chainCounter_malformed unknown))
    · rw [exec_chainWait, execChainWait]
      exact chainStep_stops under chain entry kind (Act.bind_of_stop (chainCounter_malformed unknown))
    · rw [exec_chainIf, execChainIf]
      exact chainStep_stops under chain entry kind (Act.bind_of_stop (chainCounter_malformed unknown))
  · refine ⟨fun kind passed => ?_, fun kind short => ?_, fun kind => ?_⟩
    · rw [exec_chainWait, execChainWait]
      exact chainStep_goes under chain entry kind
        (Act.bind_eq (chainCounter_ok known) (Act.bind_eq reads (Act.until_then passed rfl))) op?
    · rw [exec_chainWait, execChainWait]
      exact chainStep_waits under chain entry kind
        (Act.bind_eq (chainCounter_ok known) (Act.bind_eq reads (Act.until_waits short)))
    · rw [exec_chainIf, execChainIf]
      exact chainStep_goes under chain entry kind (Act.bind_eq (chainCounter_ok known) (Act.bind_eq reads rfl)) op?
  · refine ⟨fun nested => ?_, fun plain once => ?_, fun plain again => ?_⟩
    · rw [exec_chainLoop, execChainLoop]
      refine chainStep_stops under chain entry kind (Act.bind_eq before ?_)
      rw [if_pos nested]
      rfl
    · rw [exec_chainLoop, execChainLoop]
      refine chainStep_goes under chain entry kind (Act.bind_eq before ?_) op?
      rw [plain]
      simp only [Bool.false_eq_true, if_false, if_pos once]
      rfl
    · rw [exec_chainLoop, execChainLoop]
      refine chainStep_goes under chain entry kind (Act.bind_eq before ?_) op?
      rw [plain]
      simp only [Bool.false_eq_true, if_false, if_neg again]
      rfl
  · rw [exec_chainLink, execChainLink]
    refine chainStep_goes under chain entry kind ?_ there
    rw [flags]
    rfl
  · rw [exec_chainLink, execChainLink]
    refine chainStep_goes under chain entry kind ?_ there
    simp only [if_pos flags, place]
    rfl
  · rw [exec_chainEnd, execChainEnd]
    refine chainStep_goes under chain entry kind ?_ there
    rw [flags]
    rfl
  · rw [exec_chainEnd, execChainEnd]
    refine chainStep_goes under chain entry kind ?_ op?
    rw [if_pos flags]
    exact Act.then_eq (Act.bind_eq (chainCounter_ok known) adds) rfl
  · simp only [Chain.pass, plain, List.isEmpty_nil, if_true, addr]
    rfl
  · simp only [Chain.pass, plain, List.isEmpty_nil, if_true, addr]
    rfl

end Sys2Proof.Machine

/-! ### The index engine -/

namespace Sys2Proof

theorem tab_eq_map {α : Type} (n : Nat) (f : Nat → α) : tab n f = (List.range n).map f := by
  apply List.ext_getElem?
  intro k
  rw [tab_getElem?, List.getElem?_map]
  by_cases inside : k < n
  · rw [if_pos inside, List.getElem?_range inside]
    rfl
  · rw [if_neg inside, List.getElem?_eq_none (by simpa using inside)]
    rfl

namespace Machine

theorem State.heal_cur (s : State) (st : Store) (addr n : Nat) : (s.heal st addr n).cur = s.cur := by
  simp only [State.heal]
  split <;> rfl

/-- A handle of a descriptor that may be written. -/
theorem indexTile_ok {s : State} {h : Nat} {v : Tile} (small : h < 128) (held : s.cur.tile? h = some v) (rw : v.ro = false) :
    indexTile h s = .ok (h, v) s := by
  have value : (w64 h).toNat = h := by
    rw [w64, BitVec.toNat_ofNat]
    omega
  have found := writable_ok (w := w64 h) (value.symm ▸ small) (value.symm ▸ held) rw
  rwa [value] at found

/-- Elements written from the first of a tile on. -/
theorem putIndex_held {s : State} {h : Nat} {v : Tile} (vs : List Nat) (held : s.cur.tile? h = some v) :
    putIndex h 0 vs s = .ok () ((s.heal v.store (s.tileSpot v v.half 0) (4 * vs.length)).setCur fun t =>
      t.setTile h (v.setFront (v.front.put 0 (vs.map fun n => leBytes 4 n).flatten))) := by
  refine Act.then_eq (a := ()) (t := s.heal v.store (s.tileSpot v v.half 0) (4 * vs.length)) ?_
    (updTile_ok _ (by rw [State.heal_cur]; exact held))
  simp only [Act.get_bind, held]
  rfl

theorem putIndex_absent {s : State} {h : Nat} (vs : List Nat) (absent : s.cur.tile? h = none) : putIndex h 0 vs s = .ok () s := by
  refine Act.then_eq (a := ()) (t := s) ?_ ?_
  · simp only [Act.get_bind, absent]
    rfl
  · simp only [updTile, Act.modify_run, State.setCur, absent]

/-- The starts and lengths of p parts of n entries, as far apart as they go. -/
theorem plainParts {n p : Nat} (pos : 1 ≤ p) :
    ((plainCuts n p).zip ((plainCuts n p).drop 1 ++ [n])).map (fun e => [e.1, e.2 - e.1]) =
      tab p fun q => [q * (n / p) + min q (n % p), if q < n % p then n / p + 1 else n / p] := by
  apply List.ext_getElem?
  intro q
  rw [tab_getElem?, List.getElem?_map, List.zip_eq_zipWith, List.getElem?_zipWith]
  have total := Nat.div_add_mod n p
  have less := Nat.mod_lt n pos
  by_cases inside : q < p
  · rw [if_pos inside]
    have here : (plainCuts n p)[q]? = some (q * (n / p) + min q (n % p)) := by rw [plainCuts, tab_getElem?, if_pos inside]
    have next : ((plainCuts n p).drop 1 ++ [n])[q]? = some (q * (n / p) + min q (n % p) + if q < n % p then n / p + 1 else n / p) := by
      by_cases last : q + 1 < p
      · rw [List.getElem?_append_left (by simp [plainCuts]; omega), List.getElem?_drop, plainCuts, tab_getElem?,
          if_pos (by omega), Nat.add_comm 1 q, Nat.succ_mul]
        split <;> congr 1 <;> omega
      · obtain rfl : p = q + 1 := by omega
        rw [List.getElem?_append_right (by simp [plainCuts])]
        simp only [plainCuts, List.length_drop, tab_length, Nat.add_sub_cancel, Nat.sub_self, List.getElem?_cons_zero]
        rw [Nat.succ_mul] at total
        split <;> congr 1 <;> omega
    simp only [here, next, Option.map_some, Nat.add_sub_cancel_left]
  · have none : (plainCuts n p)[q]? = none := by rw [plainCuts, tab_getElem?, if_neg inside]
    simp only [none, if_neg inside, Option.map_none]

/-- No entries give parts of length 0. -/
theorem noParts (p : Nat) :
    List.replicate (2 * p) 0 = (tab p fun q => [q * (0 / p) + min q (0 % p), if q < 0 % p then 0 / p + 1 else 0 / p]).flatten := by
  simp only [Nat.zero_div, Nat.zero_mod, Nat.mul_zero, Nat.min_zero, Nat.not_lt_zero, if_false, Nat.add_zero, tab_eq_map]
  induction p with
  | zero => rfl
  | succ p ih =>
    rw [List.range_succ, List.map_append, List.flatten_append, ← ih, Nat.mul_succ, ← List.replicate_append_replicate]
    rfl

/-- Settles O31: a descriptor names writable tiles; the walk and the split put their numbers there and into IXRES. -/
theorem indexWalks : Obligations.IndexWalks := by
  intro r o s u w vs l d k op p cs va at' qw qs fl names usable whole parts put res kept room out n size long
  have tiles : ∀ {t : State} {h : Nat}, usable t h → ∃ v, indexTile h t = .ok (h, v) t ∧ wholeTile (h, v) = whole t h ∧
      t.cur.tile? h = some v := by
    rintro t h ⟨small, v, held, rw⟩
    refine ⟨v, indexTile_ok small held rw, ?_, held⟩
    simp only [whole, held]
    rfl
  have puts : ∀ (t : State) (h : Nat) (vs : List Nat), putIndex h 0 vs t = .ok () (put t h vs) := by
    intro t h vs
    rcases tile : t.cur.tile? h with _ | v
    · simp only [put, tile]
      exact putIndex_absent vs tile
    · simp only [put, tile]
      exact putIndex_held vs tile
  refine ⟨fun goes unaligned => ?_, fun goes aligned load use flags score => ?_,
    fun goes aligned load use flags zero pos most fits score => ?_, fun goes aligned load use flags zero bad => ?_,
    fun under clear kind coords => ?_, fun under clear kind plain pos => ?_⟩
  · rw [exec_ixwalk, execIxwalk]
    exact issue_trap goes (Act.check_fails (beq_false_of_ne unaligned))
  · rw [exec_ixwalk, execIxwalk]
    refine issue_ends goes (Act.check_then (beq_iff_eq.mpr aligned) (Act.bind_eq load ?_))
    obtain ⟨v1, first, rows1, -⟩ := tiles (use (field d 13 1) (by simp [names]))
    obtain ⟨v2, second, rows2, -⟩ := tiles (use (field d 14 1) (by simp [names]))
    by_cases third : fl / 2 % 2 = 1
    · obtain ⟨v3, picks, rows3, -⟩ := tiles (use (field d 15 1) (by simp [names, third]))
      simp only [names, if_pos third] at score ⊢
      refine Act.bind_eq first (Act.bind_eq second ?_)
      rw [if_pos (show field d 12 1 / 2 % 2 = 1 from third)]
      refine Act.bind_eq (Act.bind_eq picks rfl) (Act.check_then (decide_eq_true flags) (Act.then_eq (scoreRoom_ok score)
        (Act.then_eq (starting_eq ..) ?_)))
      simp only [List.map_cons, List.map_nil, rows1, rows2, rows3]
      rfl
    · simp only [names, if_neg third] at score ⊢
      refine Act.bind_eq first (Act.bind_eq second ?_)
      rw [if_neg (show ¬ field d 12 1 / 2 % 2 = 1 from third)]
      refine Act.bind_eq (a := []) (t := u) rfl (Act.check_then (decide_eq_true flags) (Act.then_eq (scoreRoom_ok score)
        (Act.then_eq (starting_eq ..) ?_)))
      simp only [List.map_cons, List.map_nil, rows1, rows2]
      rfl
  · rw [exec_ixsplit, execIxsplit]
    obtain ⟨v, found, rows, held⟩ := tiles use
    refine issue_ends goes (Act.check_then (beq_iff_eq.mpr aligned) (Act.bind_eq load (Act.bind_eq found
      (Act.check_then ((Bool.and_eq_true ..).mpr ⟨decide_eq_true flags, beq_iff_eq.mpr zero⟩)
      (Act.check_then ((Bool.and_eq_true ..).mpr ⟨decide_eq_true pos, decide_eq_true most⟩)
      (Act.check_then (decide_eq_true (fits v held)) (Act.then_eq (scoreRoom_ok score) (Act.then_eq (starting_eq ..) ?_))))))))
    rw [rows]
    rfl
  · rw [exec_ixsplit, execIxsplit]
    obtain ⟨v, found, rows, held⟩ := tiles use
    have no : ¬ (1 ≤ parts ∧ parts ≤ 4096) := by omega
    exact issue_trap goes (Act.check_then (beq_iff_eq.mpr aligned) (Act.bind_eq load (Act.bind_eq found
      (Act.check_then ((Bool.and_eq_true ..).mpr ⟨decide_eq_true flags, beq_iff_eq.mpr zero⟩)
      (Act.check_fails (and_decide_false no))))))
  · rw [exec_indexComplete, execIndexComplete]
    refine runOp_ok under (Act.bind_eq (a := u) rfl (Act.until_then (by simp [clear]) ?_))
    rw [kind]
    have places : ∀ t : State, (if field d 12 1 / 2 % 2 = 1 then putIndex (field d 15 1) 0 (out.map (·.2.2)) else Act.pure ()) t =
        .ok () (if fl / 2 % 2 = 1 then put t (field d 15 1) (out.map (·.2.2)) else t) := by
      intro t
      by_cases third : fl / 2 % 2 = 1
      · rw [if_pos third, if_pos (show field d 12 1 / 2 % 2 = 1 from third)]
        exact puts ..
      · rw [if_neg third, if_neg (show ¬ field d 12 1 / 2 % 2 = 1 from third)]
        rfl
    exact Act.bind_eq coords (Act.bind_eq (a := w) rfl (Act.then_eq (puts ..) (Act.then_eq (puts ..) (Act.then_eq (places _) rfl))))
  · rw [exec_indexComplete, execIndexComplete]
    refine runOp_ok under (Act.bind_eq (a := u) rfl (Act.until_then (by simp [clear]) ?_))
    rw [kind]
    have whole : ¬ field d 12 1 / 2 % 2 = 1 := by omega
    have cuts : (if n = 0 then List.replicate (2 * parts) 0 else
        (((plainCuts n parts).zip ((plainCuts n parts).drop 1 ++ [n])).map fun e => [e.1, e.2 - e.1]).flatten) =
          (tab parts fun q => [q * (n / parts) + min q (n % parts), if q < n % parts then n / parts + 1 else n / parts]).flatten := by
      by_cases empty : n = 0
      · rw [if_pos empty, empty]
        exact noParts parts
      · rw [if_neg empty, plainParts pos]
    have some : parts ≠ 0 := by omega
    simp only [size, long, if_neg some]
    rw [splitBody, if_neg whole]
    refine Act.bind_eq (a := []) (t := u) rfl ?_
    simp only [if_neg whole]
    refine Act.then_eq ((congrArg (fun l => putIndex (field d 13 1) 0 l u) cuts).trans (puts ..)) ?_
    rw [if_neg (fun both => whole both.1)]
    rfl

end Machine
end Sys2Proof

/-! ### Atomics -/

namespace Sys2Proof

theorem leNat_leBytes (n v : Nat) : leNat (leBytes n v) = v % 2 ^ (8 * n) := by
  induction n generalizing v with
  | zero => simp [leBytes, leNat, Nat.mod_one]
  | succ n ih =>
    rw [leBytes, leNat, ih, Nat.mul_succ, Nat.add_comm (8 * n) 8, Nat.pow_add, Nat.mod_mul]
    simp

theorem four_or_eight {n : Nat} (size : n ∈ [4, 8]) : n = 4 ∨ n = 8 := by
  simpa only [List.mem_cons, List.not_mem_nil, or_false] using size

namespace Machine

/-- The value of an operation on numbers of w bits, before it is cut to them. -/
def atomicRaw (op w a b : Nat) (new : Word) : Nat :=
  match op with
  | 0 => a + b
  | 1 => if toSigned w a ≤ toSigned w b then a else b
  | 2 => if toSigned w a ≤ toSigned w b then b else a
  | 3 => if a ≤ b then a else b
  | 4 => if a ≤ b then b else a
  | 5 => a &&& b
  | 6 => a ||| b
  | 7 => a ^^^ b
  | 8 => b
  | 9 => rnF32 (Val.add 0 (exact .f32 a) (exact .f32 b))
  | _ => if a = b then new.toNat else a

theorem atomicValue_eq (op n : Nat) (old b new : Word) : atomicValue op n old b new =
    w64 (atomicRaw op (8 * n) (old.toNat % 2 ^ (8 * n)) (b.toNat % 2 ^ (8 * n)) new % 2 ^ (8 * n)) := rfl

/-- The value that an operation on numbers of its size leaves. -/
theorem atomicValue_toNat {op n a b : Nat} {new : Word} (size : n ∈ [4, 8]) (small : a < 2 ^ (8 * n)) (less : b < 2 ^ (8 * n)) :
    (atomicValue op n (BitVec.ofNat 64 a) (BitVec.ofNat 64 b) new).toNat = atomicRaw op (8 * n) a b new % 2 ^ (8 * n) := by
  have word : 2 ^ (8 * n) ≤ 2 ^ 64 := by
    rcases four_or_eight size with rfl | rfl <;> decide
  have kept : ∀ k, k < 2 ^ (8 * n) → (BitVec.ofNat 64 k).toNat % 2 ^ (8 * n) = k := by
    intro k lt
    rw [BitVec.toNat_ofNat, Nat.mod_eq_of_lt (Nat.lt_of_lt_of_le lt word), Nat.mod_eq_of_lt lt]
  rw [atomicValue_eq, kept a small, kept b less, w64, BitVec.toNat_ofNat]
  exact Nat.mod_eq_of_lt (Nat.lt_of_lt_of_le (Nat.mod_lt _ (Nat.two_pow_pos _)) word)

/-- The checks of an atomic's address. -/
theorem atomicAddr_ok {s u : State} {va : Word} {n op : Nat} {p : Xlate} (aligned : va.toNat % n = 0) (canon : canonical va = true)
    (place : s.ownXlate va .write = .ok p u) (plain : p.desc = false) (host : p.home = 1 → op ∈ [0, 8, 10]) :
    atomicAddr va n op s = .ok p u := by
  have allowed : (p.home != 1 || op == 0 || op == 8 || op == 10) = true := by
    by_cases atHost : p.home = 1
    · have code := host atHost
      simp only [List.mem_cons, List.not_mem_nil, or_false] at code
      rcases code with rfl | rfl | rfl <;> simp
    · simp [atHost]
  exact Act.check_then (beq_iff_eq.mpr aligned) (Act.check_then canon (Act.bind_eq (xlate_ok place)
    (Act.check_then (by simp [plain]) (Act.check_then allowed rfl))))

/-- How the checks of an atomic's address fail. -/
theorem atomicAddr_traps {s : State} {va : Word} {n op : Nat} :
    (va.toNat % n ≠ 0 → atomicAddr va n op s = .stop (.trap tALIGN [])) ∧
    (va.toNat % n = 0 → canonical va = false → atomicAddr va n op s = .stop (.trap tPROTECT [va, 256])) ∧
    (∀ p u, va.toNat % n = 0 ∧ canonical va = true ∧ s.ownXlate va .write = .ok p u →
      (p.desc = true → atomicAddr va n op s = .stop (.trap tATOMIC [])) ∧
      (p.desc = false → p.home = 1 → op ∉ [0, 8, 10] → atomicAddr va n op s = .stop (.trap tATOMIC []))) := by
  refine ⟨fun bad => Act.check_fails (beq_false_of_ne bad), fun aligned bad =>
    Act.check_then (beq_iff_eq.mpr aligned) (Act.check_fails bad), fun p u ⟨aligned, canon, place⟩ => ⟨fun desc => ?_,
    fun plain host no => ?_⟩⟩
  · exact Act.check_then (beq_iff_eq.mpr aligned) (Act.check_then canon (Act.bind_eq (xlate_ok place)
      (Act.check_fails (by simp [desc]))))
  · simp only [List.mem_cons, List.not_mem_nil, or_false, not_or] at no
    obtain ⟨no0, no8, no10⟩ := no
    exact Act.check_then (beq_iff_eq.mpr aligned) (Act.check_then canon (Act.bind_eq (xlate_ok place)
      (Act.check_then (by simp [plain]) (Act.check_fails (by simp [host, no0, no8, no10])))))

theorem unrepeatAct_ok {s : State} (buf : s.unrepeat.cur.ph.buf = []) (quiet : s.unrepeat.cur.awaiting = false) :
    unrepeatAct s = .ok () s.unrepeat := by
  simp [unrepeatAct, buf, quiet]

theorem unrepeatAct_waits {s : State} (held : ¬ (s.unrepeat.cur.ph.buf = [] ∧ s.unrepeat.cur.awaiting = false)) :
    unrepeatAct s = .stop (.wait 0 s.unrepeat) := by
  have stays : (s.unrepeat.cur.ph.buf.isEmpty && !s.unrepeat.cur.awaiting) = false := by
    by_cases buf : s.unrepeat.cur.ph.buf = []
    · have out : s.unrepeat.cur.awaiting = true := by simpa [buf] using held
      simp [out]
    · simp [buf]
  simp [unrepeatAct, stays]

theorem requestFree_ok {s : State} (room : s.requestRoom = true) : requestFree s = .ok () s := by
  simp [requestFree, room]

theorem requestFree_waits {s : State} (full : s.requestRoom = false) : requestFree s = .stop (.wait 0 s) := by
  simp [requestFree, full]

/-- The answer of a home atomic engine, cut to the operation's size. -/
theorem fillFlight_atom {s : State} {f : Flight} {d : BitVec 5} {va old : Word} {tag n : Nat} {k : AtomReq}
    (waits : f.wb = [.await d (.atom tag) va (List.replicate n none) false])
    (found : s.mem.atoms.find? (fun k => k.key == s.cur.key && k.tag == BitVec.ofNat 32 tag && !k.post) = some k)
    (value : k.old = some old) :
    s.fillFlight f = (s.forgetSource (.atom tag)).setCur fun t => { t with
      fl := t.fl ++ [{ f with wb := [.reg d (BitVec.ofNat 64 (old.toNat % 2 ^ (8 * n)))] }] } := by
  have answer : s.answerFrom (.atom tag) (List.replicate n none) = some (.ok (leBytes n old.toNat)) := by
    simp only [State.answerFrom, found, value, Option.map_some, List.length_replicate]
  simp only [State.fillFlight, waits, answer, extended, Bool.false_eq_true, if_false, leNat_leBytes]
  rfl

/-- Settles O32: the address is checked and translated, the buffer released, the operation sent; the value is that of the
table of R293. -/
theorem atomics : Obligations.Atomics := by
  refine ⟨?_, ?_⟩
  · intro r o x s u vs l p va n b c code q qa qr qc fits plain w released ask peer own
    refine ⟨fun t goes ⟨aligned, canon, place⟩ ⟨noDesc, host⟩ room => ?_, ?_, fun f tag k old waits found value =>
      fillFlight_atom waits found value, ?_⟩
    · have allowed : p.home = 1 → code ∈ [0, 8, 10] := fun h => by
        have := host h
        simp only [List.mem_cons, List.not_mem_nil, or_false] at this ⊢
        omega
      rw [exec_atom, execAtom]
      exact issue_ends goes (Act.bind_eq (atomicAddr_ok aligned canon place noDesc allowed)
        (Act.then_eq (Act.then_eq (bufferRoom_ok (fits := fun buf => decide (buf.length < Config.bufEntries)) room) rfl) rfl))
    · -- ATOMR and CAS
      have sends : ∀ {opc op srcs}, s.Goes (q opc srcs [.reg o.d]) vs l → fits → p.desc = false → (p.home = 1 → op ∈ [0, 8, 10]) →
          (¬ released → returning r opc o x op srcs s = .next (w.stall .a 0)) ∧
          (released → w.requestRoom = false → returning r opc o x op srcs s = .next (w.stall .a 0)) ∧
          (released → w.requestRoom = true → p.home ≠ 2 → returning r opc o x op srcs s =
            (w.queueAtom (ask op c)).writes (q opc srcs [.reg o.d]) l [.await o.d (.atom w.cur.seq) va own false]) ∧
          (released → w.requestRoom = true → p.home = 2 → returning r opc o x op srcs s =
            (w.askPeer (peer opc op c)).writes (q opc srcs [.reg o.d]) l
              [.await o.d (.peer w.net.tagN.toNat) va own false]) := by
        intro opc op srcs goes ⟨aligned, canon, place⟩ noDesc host
        have addr := atomicAddr_ok (op := op) aligned canon place noDesc host
        refine ⟨fun held => ?_, fun ⟨buf, quiet⟩ full => ?_, fun ⟨buf, quiet⟩ room home => ?_, fun ⟨buf, quiet⟩ room home => ?_⟩
        · rw [returning]
          exact issue_wait goes (Act.bind_eq addr (Act.bind_of_stop (unrepeatAct_waits held)))
        · rw [returning]
          exact issue_wait goes (Act.bind_eq addr (Act.then_eq (unrepeatAct_ok buf quiet)
            (Act.bind_of_stop (requestFree_waits full))))
        · rw [returning]
          refine issue_next goes (Act.bind_eq addr (Act.then_eq (unrepeatAct_ok buf quiet) (Act.then_eq (requestFree_ok room) ?_)))
          simp only [askAtomic, if_neg home]
          rfl
        · rw [returning]
          refine issue_next goes (Act.bind_eq addr (Act.then_eq (unrepeatAct_ok buf quiet) (Act.then_eq (requestFree_ok room) ?_)))
          simp only [askAtomic, if_pos home]
          rfl
      simp only [List.forall_mem_cons]
      refine ⟨?_, ?_, fun e mem => nomatch mem⟩
      · rw [exec_atomr, execAtomr]
        exact sends
      · rw [exec_cas, execCas]
        exact sends
    · have traps : ∀ {op : Nat} {q' : Issue} {rest : Xlate → Act Done} {body : List Word → Act Done}, s.Goes q' vs l →
          body vs = (atomicAddr va n op).bind rest →
          (va.toNat % n ≠ 0 → issue q' body s = .next (s.takeTrap q'.g tALIGN [])) ∧
          (va.toNat % n = 0 → canonical va = false → issue q' body s = .next (s.takeTrap q'.g tPROTECT [va, 256])) ∧
          (fits → p.desc = true → issue q' body s = .next (s.takeTrap q'.g tATOMIC [])) ∧
          (fits → p.desc = false → p.home = 1 → op ∉ [0, 8, 10] → issue q' body s = .next (s.takeTrap q'.g tATOMIC [])) := by
        intro op q' rest body goes shape
        obtain ⟨align, protect, atomic⟩ := atomicAddr_traps (s := s) (va := va) (n := n) (op := op)
        refine ⟨fun bad => issue_trap goes ?_, fun aligned bad => issue_trap goes ?_, fun ok desc => issue_trap goes ?_,
          fun ok plain host no => issue_trap goes ?_⟩
        · rw [shape]; exact Act.bind_of_stop (align bad)
        · rw [shape]; exact Act.bind_of_stop (protect aligned bad)
        · rw [shape]; exact Act.bind_of_stop ((atomic p u ok).1 desc)
        · rw [shape]; exact Act.bind_of_stop ((atomic p u ok).2 plain host no)
      simp only [List.forall_mem_cons]
      refine ⟨fun goes => ?_, fun goes => ?_, fun goes => ?_, fun e mem => nomatch mem⟩
      · rw [exec_atom, execAtom]
        exact traps goes rfl
      · rw [exec_atomr, execAtomr, returning]
        exact traps goes rfl
      · rw [exec_cas, execCas, returning]
        exact traps goes rfl
  · intro n a b new w signed value size small less
    have at' : ∀ op, value op = atomicRaw op w a b new % 2 ^ w := fun op => atomicValue_toNat size small less
    have pos : 0 < w := by
      rcases four_or_eight size with rfl | rfl <;> decide
    have kept : ∀ {c : Prop} [Decidable c] {i j : Nat}, i < 2 ^ w → j < 2 ^ w → (if c then i else j) % 2 ^ w = if c then i else j := by
      intro c _ i j hi hj
      apply Nat.mod_eq_of_lt
      split <;> assumption
    have order : ∀ i j, (toSigned w i ≤ toSigned w j) = (signed i ≤ signed j) := fun i j => by
      rw [toSigned_eq_toInt pos, toSigned_eq_toInt pos]
    refine ⟨at' 0, ?_, ?_, ?_, ?_, ?_, ?_, ?_, ?_, ?_, fun m home pa op v => rfl⟩
    · rw [at', atomicRaw, kept small less]
      simp only [order]
    · rw [at', atomicRaw, kept less small]
      simp only [order]
    · rw [at', atomicRaw, kept small less, Nat.min_def]
    · rw [at', atomicRaw, kept less small, Nat.max_def]
    · rw [at', atomicRaw, Nat.mod_eq_of_lt (Nat.and_lt_two_pow _ less)]
    · rw [at', atomicRaw, Nat.mod_eq_of_lt (Nat.or_lt_two_pow small less)]
    · rw [at', atomicRaw, Nat.mod_eq_of_lt (Nat.xor_lt_two_pow small less)]
    · rw [at', atomicRaw, Nat.mod_eq_of_lt less]
    · refine (at' 10).trans ?_
      show (if a = b then new.toNat else a) % 2 ^ w = _
      split
      · rfl
      · exact Nat.mod_eq_of_lt small

end Machine
end Sys2Proof

/-! ### Completion counters and block stores -/

namespace Sys2Proof.Machine

theorem counterOf_ok {s : State} {k : Word} (known : k.toNat < s.curCtx.record.ncnt) :
    counterOf k s = .ok (counterVa s.curCtx k.toNat) s :=
  Act.bind_eq (a := s) rfl (Act.check_then (decide_eq_true known) rfl)

theorem counterOf_unknown {s : State} {k : Word} (unknown : ¬ k.toNat < s.curCtx.record.ncnt) :
    counterOf k s = .stop (.trap tRANGE [k]) :=
  Act.bind_eq (a := s) rfl (Act.check_fails (decide_eq_false unknown))

/-- The value of a counter whose page is in place. -/
theorem counterRead_ok {s u : State} {va : Word} {p : Xlate} (place : s.ownXlate va .read = .ok p u) (here : p.home ≠ 2)
    (sound : u.mem.poisoned p.home p.pa 8 = false) :
    counterRead va s = .ok (w64 (leNat (u.mem.bytes p.home p.pa 8))) (u.corrected p.home p.pa 8) := by
  refine Act.bind_eq (xlate_ok place) ?_
  simp only [if_neg here, sound, Bool.false_eq_true, if_false]

/-- The machine when engine g's wait has begun. -/
def State.waitsSince (s : State) (g : Eng) : State :=
  s.setEng g fun e => { e with since := some ((s.cur.engine g).since.getD s.clock) }

theorem waitSince_ok (g : Eng) (s : State) : waitSince g s = .ok ((s.cur.engine g).since.getD s.clock) (s.waitsSince g) := rfl

theorem State.waitedOut_waitsSince (s : State) :
    (s.waitsSince .a).waitedOut .a = decide (s.holdPeriods ≤ s.clock - (s.cur.engine .a).since.getD s.clock) := rfl

/-- A wait of A that has not lasted the hold limit. -/
theorem holdWait_waits {s : State} {args : List Word}
    (early : s.clock - (s.cur.engine .a).since.getD s.clock < s.holdPeriods) :
    holdWait .a false args s = .stop (.wait 0 (s.waitsSince .a)) := by
  have not : (s.waitsSince .a).waitedOut .a = false := by
    rw [State.waitedOut_waitsSince]
    exact decide_eq_false (Nat.not_le.mpr early)
  rw [holdWait, if_neg Bool.false_ne_true]
  refine Act.bind_eq (waitSince_ok .a s) (Act.bind_eq (a := s.waitsSince .a) rfl ?_)
  rw [not]
  rfl

/-- A wait of A that has lasted the hold limit. -/
theorem holdWait_times_out {s : State} {args : List Word}
    (late : s.holdPeriods ≤ s.clock - (s.cur.engine .a).since.getD s.clock) :
    holdWait .a false args s = .stop (.trap tTIMEOUT args) := by
  have out : (s.waitsSince .a).waitedOut .a = true := by
    rw [State.waitedOut_waitsSince]
    exact decide_eq_true late
  rw [holdWait, if_neg Bool.false_ne_true]
  refine Act.bind_eq (waitSince_ok .a s) (Act.bind_eq (a := s.waitsSince .a) rfl ?_)
  rw [out]
  rfl

/-- Settles O33: an add joins the buffer; a wait reads the counter and compares. -/
theorem completionCounters : Obligations.CompletionCounters := by
  intro r o s u vs l p k b va counts qw value w since waiting
  refine ⟨?_, fun goes unknown => ?_, fun goes known place here sound => ⟨fun past => ?_, fun short early => ?_,
    fun short late => ?_⟩⟩
  · have posts : ∀ {g opc}, s.Goes (r.issue g opc 1 [o.a, o.b] [] 1) vs l →
        (∀ t, counts → va.toNat % 8 = 0 → canonical va = true → s.ownXlate va .write = .ok p u → p.desc = false →
          u.Room (decide (u.cur.ph.buf.length < Config.bufEntries)) t →
          postCounter r g opc o s = (t.orderedEntry ⟨va, p.home, p.pa, p.ord, 16, .counter k.toNat b⟩).ends
            (r.issue g opc 1 [o.a, o.b] [] 1) l) ∧
        (¬ counts → postCounter r g opc o s = .next (s.takeTrap g tRANGE [k])) := by
      intro g opc goes
      refine ⟨fun t known aligned canon place plain room => ?_, fun unknown => ?_⟩
      · rw [postCounter]
        exact issue_ends goes (Act.bind_eq (counterOf_ok known)
          (Act.then_eq (addCounter_enters aligned canon place plain room) rfl))
      · rw [postCounter]
        exact issue_trap goes (Act.bind_of_stop (counterOf_unknown unknown))
    simp only [List.forall_mem_cons]
    refine ⟨?_, ?_, fun e mem => nomatch mem⟩
    · rw [exec_ccadd, execCcadd]
      exact posts
    · rw [exec_wpost, execWpost]
      exact posts
  · rw [exec_ccwait, execCcwait]
    exact issue_trap goes (Act.bind_of_stop (counterOf_unknown unknown))
  · rw [exec_ccwait, execCcwait]
    refine issue_ends goes (Act.bind_eq (counterOf_ok known) (Act.bind_eq (counterRead_ok place here sound) ?_))
    rw [show decide (0 ≤ (w64 (leNat (u.mem.bytes p.home p.pa 8)) - vs.getD 1 0).toInt) = true from decide_eq_true past]
    rfl
  · rw [exec_ccwait, execCcwait]
    refine issue_wait goes (Act.bind_eq (counterOf_ok known) (Act.bind_eq (counterRead_ok place here sound) ?_))
    rw [show decide (0 ≤ (w64 (leNat (u.mem.bytes p.home p.pa 8)) - vs.getD 1 0).toInt) = false from
      decide_eq_false (Int.not_le.mpr short)]
    exact Act.bind_of_stop (holdWait_waits early)
  · rw [exec_ccwait, execCcwait]
    refine issue_trap goes (Act.bind_eq (counterOf_ok known) (Act.bind_eq (counterRead_ok place here sound) ?_))
    rw [show decide (0 ≤ (w64 (leNat (u.mem.bytes p.home p.pa 8)) - vs.getD 1 0).toInt) = false from
      decide_eq_false (Int.not_le.mpr short)]
    exact Act.bind_of_stop (holdWait_times_out late)

/-- What WCMPL waits for. -/
theorem State.postsOut_eq_false (s : State) : s.postsOut = false ↔
    (∀ op ∈ s.cur.ops, op.g = .w → op.opc = 0x62 → op.done = true) ∧
      (s.cur.ph.rep = true ∨ ∀ e ∈ s.cur.ph.buf, e.isCounter = false) := by
  simp only [State.postsOut, Bool.or_eq_false_iff, List.any_eq_false, Bool.and_eq_false_iff, Bool.not_eq_false',
    Bool.and_eq_true, beq_iff_eq, Bool.not_eq_true', not_and, Bool.not_eq_false]
  simp

/-- Settles O34: the address is checked, the block stored; WCMPL and WFLUSH wait for what is on its way. -/
theorem blockStores : Obligations.BlockStores := by
  intro r o x s t u vs l p srcs data first q va bytes qd vd b qc qf posted flushed
  refine ⟨fun goes aligned canon stores => ?_, fun goes unaligned => ?_,
    fun goes aligned canon place small => ⟨fun desc code stores => ?_, fun bad => ?_⟩,
    fun goes aligned canon place large => ?_, fun goes done => ?_, fun goes out => ?_, fun goes done => ?_, fun goes out => ?_⟩
  · rw [exec_wst, execWst]
    exact issue_ends goes (Act.then_eq (checkAddr_passes aligned canon s) (Act.then_eq (storeBytes_ok stores) rfl))
  · rw [exec_wst, execWst]
    exact issue_trap goes (Act.bind_of_stop (checkAddr_misaligned unaligned s))
  · rw [exec_wstd, execWstd]
    exact issue_ends goes (Act.then_eq (checkAddr_passes aligned canon s) (Act.bind_eq (xlate_ok place)
      (Act.check_then (decide_eq_true small) (Act.check_then ((Bool.and_eq_true ..).mpr ⟨desc, code⟩)
        (Act.then_eq (storeBytes_ok stores) rfl)))))
  · rw [exec_wstd, execWstd]
    have no : (p.desc && descOk (b.setWidth 16)) = false := (Bool.and_eq_false_iff ..).mpr bad
    exact issue_trap goes (Act.then_eq (checkAddr_passes aligned canon s) (Act.bind_eq (xlate_ok place)
      (Act.check_then (decide_eq_true small) (Act.check_fails no))))
  · rw [exec_wstd, execWstd]
    exact issue_trap goes (Act.then_eq (checkAddr_passes aligned canon s) (Act.bind_eq (xlate_ok place)
      (Act.check_fails (decide_eq_false (Nat.not_lt.mpr large)))))
  · rw [exec_wcmpl, execWcmpl]
    have none : s.postsOut = false := (s.postsOut_eq_false).mpr done
    exact issue_ends goes (Act.bind_eq (a := s) rfl (Act.until_then (by rw [none]; rfl) rfl))
  · rw [exec_wcmpl, execWcmpl]
    have some : s.postsOut = true := eq_true_of_ne_false fun h => out ((s.postsOut_eq_false).mp h)
    exact issue_wait goes (Act.bind_eq (a := s) rfl (Act.until_waits (by rw [some]; rfl)))
  · rw [exec_wflush, execWflush]
    exact issue_ends goes (Act.then_eq (unrepeatAct_ok done.1 done.2) rfl)
  · rw [exec_wflush, execWflush]
    exact issue_wait goes (Act.bind_of_stop (unrepeatAct_waits out))

end Sys2Proof.Machine

/-! ### Queue instructions -/

namespace Sys2Proof.Machine

/-- A queue of the strand's own context. -/
theorem queueArg_ok {s : State} {a : Word} {k : Queue} (small : a.toNat < 2 ^ 20)
    (found : s.queue? (queueKey s.curCtx.fn a.toNat) = some k) (own : k.ctx = s.cur.sys.ctx.toNat) : queueArg a s = .ok k s := by
  simp only [queueArg, Act.get_bind, if_pos small, found, if_pos own, Act.pure_run]

theorem queueArg_absent {s : State} {a : Word}
    (absent : 2 ^ 20 ≤ a.toNat ∨ s.queue? (queueKey s.curCtx.fn a.toNat) = none) :
    queueArg a s = .stop (.trap tRANGE []) := by
  have none : (if a.toNat < 2 ^ 20 then s.queue? (queueKey s.curCtx.fn a.toNat) else none) = none := by
    split
    · exact absent.resolve_left (by omega)
    · rfl
  simp only [queueArg, Act.get_bind, none, Act.trap_run]

theorem queueArg_foreign {s : State} {a : Word} {k : Queue} (found : s.queue? (queueKey s.curCtx.fn a.toNat) = some k)
    (other : k.ctx ≠ s.cur.sys.ctx.toNat) : queueArg a s = .stop (.trap tRANGE []) := by
  by_cases small : a.toNat < 2 ^ 20
  · simp only [queueArg, Act.get_bind, if_pos small, found, if_neg other, Act.trap_run]
  · exact queueArg_absent (.inl (Nat.not_lt.mp small))

/-- When the head packet of a queue can be dispatched (R359). -/
theorem State.eligible_iff (s : State) (k : Queue) : s.eligible k = true ↔
    k.st = .ready ∧ recFence k.record = false ∧ k.evt &&& recWait k.record = recWait k.record ∧
      ∃ p, k.pick = some p ∧ p.roomIn (s.ctxOf k.ctx) = true := by
  rcases pick : k.pick with _ | p
  · simp [State.eligible, pick]
  · simp [State.eligible, pick, Queue.waitMet, and_assoc]

/-- Settles O35: the queue is looked up in the strand's context; QSUBMIT's entry joins the buffer, QSTAT reads the queue. -/
theorem queueInstructions : Obligations.QueueInstructions := by
  intro r o s vs l k a b q qs mine state level eligible running
  refine ⟨fun t goes ⟨small, found, own⟩ aligned room => ?_, fun goes ⟨small, found, own⟩ unaligned => ?_, ?_, ?_⟩
  · rw [exec_qsubmit, execQsubmit]
    exact issue_ends goes (Act.bind_eq (queueArg_ok small found own) (Act.check_then (beq_iff_eq.mpr aligned)
      (Act.then_eq (Act.then_eq (bufferRoom_ok (fits := fun buf => decide (buf.length < Config.bufEntries)) room) rfl) rfl)))
  · rw [exec_qsubmit, execQsubmit]
    exact issue_trap goes (Act.bind_eq (queueArg_ok small found own) (Act.check_fails (beq_false_of_ne unaligned)))
  · have reads : ∀ sel v, s.queueStat k sel = v → s.Goes qs vs l → mine → o.b.toNat = sel →
        exec (.qstat r o) s = s.gives qs l o.d v := by
      intro sel v value goes ⟨small, found, own⟩ same
      rw [exec_qstat, execQstat]
      refine issue_gives goes (Act.bind_eq (queueArg_ok small found own) ?_)
      simp only [Act.get_bind, same, value]
      rfl
    simp only [List.forall_mem_cons]
    refine ⟨reads 0 _ rfl, reads 1 _ ?_, reads 2 _ rfl, reads 3 _ rfl, fun e mem => nomatch mem⟩
    have code : k.st.code = state := by
      cases st : k.st <;> simp only [state, st] <;> rfl
    have block : b2n k.nonblock * 128 = if k.flags / 2 % 2 = 1 then 128 else 0 := by
      simp only [Queue.nonblock, b2n, beq_iff_eq]
      split <;> rfl
    have ready : b2n (s.eligible k) * 256 = if eligible then 256 else 0 := by
      by_cases can : eligible
      · rw [if_pos can, (s.eligible_iff k).mpr can]
        rfl
      · rw [if_neg can, Bool.eq_false_iff.mpr fun yes => can ((s.eligible_iff k).mp yes)]
        rfl
    show w64 (k.st.code + level * 16 + b2n k.nonblock * 128 + b2n (s.eligible k) * 256) = _
    rw [code, block, ready]
  · have traps : ∀ {e : Instr × Issue}, e ∈ [(Instr.qsubmit r o, q), (.qstat r o, qs)] → s.Goes e.2 vs l →
        queueArg a s = .stop (.trap tRANGE []) → exec e.1 s = .next (s.takeTrap .a tRANGE []) := by
      intro e mem goes bad
      rw [List.mem_cons, List.mem_singleton] at mem
      rcases mem with rfl | rfl
      · rw [exec_qsubmit, execQsubmit]
        exact issue_trap goes (Act.bind_of_stop bad)
      · rw [exec_qstat, execQstat]
        exact issue_trap goes (Act.bind_of_stop bad)
    exact fun e mem goes => ⟨fun absent => traps mem goes (queueArg_absent absent),
      fun found other => traps mem goes (queueArg_foreign found other)⟩

end Sys2Proof.Machine

/-! ### Groups and barriers -/

namespace Sys2Proof

theorem SMap.get?_map {α β : Type} (m : SMap α) (f : α → β) (k : Nat) :
    SMap.get? (m.map fun e => (e.1, f e.2)) k = (m.get? k).map f := by
  induction m with
  | nil => rfl
  | cons p m ih =>
    rw [List.map_cons, SMap.get?, SMap.get?]
    split
    · rfl
    · split
      · rfl
      · exact ih

namespace Machine

/-! #### What GINFO reads of a spread level (R366) -/

/-- A part of an index, as GINFO gives it. -/
def partWord (n q k : Nat) : Nat := (n / q + (if k < n % q then 1 else 0)) * 2 ^ 32 + (k * (n / q) + min k (n % q))

theorem partOf_word (n q k : Nat) : (partOf n q k).2 * 2 ^ 32 + (partOf n q k).1 = partWord n q k := by
  simp only [partOf, partWord, b2n, decide_eq_true_eq]

/-- GINFO as an issue that asks for its level's register where its selector reads one. -/
theorem execGinfo_eq (r : Ring) (o : F3) (s : State) :
    execGinfo r o s = issue (r.issue .a 0x7A 1 (if o.b.toNat = 3 ∨ o.b.toNat = 4 ∨ o.b.toNat = 8 then [o.a] else []) [.reg o.d]
      (if o.b.toNat = 9 then 40 else 1)) (fun vs =>
      (Act.check (!decide (o.b.toNat = 3 ∨ o.b.toNat = 4 ∨ o.b.toNat = 8) || decide ((vs.headD 0).toNat ≤ 5)) tRANGE [vs.headD 0]).andThen <|
      Act.get.bind fun s => result o.d (w64 (s.groupInfo (vs.headD 0).toNat o.b.toNat))) s := by
  have uses : (o.b.toNat == 3 || o.b.toNat == 4 || o.b.toNat == 8) = decide (o.b.toNat = 3 ∨ o.b.toNat = 4 ∨ o.b.toNat = 8) := by
    rw [Bool.eq_iff_iff]
    simp [or_assoc]
  simp only [execGinfo, uses, decide_eq_true_eq]

/-- GINFO checks its level, GYIELD its operand. -/
theorem groupInstructions : (∀ (r : Ring) (o : F3) (s : State) (vs : List Word) (l : Links),
     let sel := o.b.toNat
     let a := vs.headD 0
     let reads := sel = 3 ∨ sel = 4 ∨ sel = 8
     let q := r.issue .a 0x7A 1 (if reads then [o.a] else []) [.reg o.d] (if sel = 9 then 40 else 1)
     let qy := r.issue .a 0x7B 1 [o.a] [.reg o.d] 1
     (s.Goes q vs l → (reads → a.toNat ≤ 5) → exec (.ginfo r o) s = s.gives q l o.d (w64 (s.groupInfo a.toNat sel))) ∧
     (s.Goes q vs l → reads → 5 < a.toNat → exec (.ginfo r o) s = .next (s.takeTrap .a tRANGE [a])) ∧
     (s.Goes qy vs l → a.toNat ≤ 1 → s.yields a = true → exec (.gyield r o) s =
       (State.postOnce (s.markLeaving.setCur fun t => { t with gy := true }) .preemptImmediate s.cur.key).gives qy l o.d 1) ∧
     (s.Goes qy vs l → a.toNat ≤ 1 → s.yields a = false → exec (.gyield r o) s = s.gives qy l o.d 0) ∧
     (s.Goes qy vs l → 1 < a.toNat → exec (.gyield r o) s = .next (s.takeTrap .a tRANGE []))) := by
  intro r o s vs l sel a reads q qy
  refine ⟨fun goes inside => ?_, fun goes level outside => ?_, fun goes small moves => ?_, fun goes small stays => ?_,
    fun goes large => ?_⟩
  · rw [exec_ginfo, execGinfo_eq]
    refine issue_gives goes (Act.check_then ?_ rfl)
    by_cases level : reads
    · exact (Bool.or_eq_true ..).mpr (.inr (decide_eq_true (inside level)))
    · exact (Bool.or_eq_true ..).mpr (.inl (by rw [decide_eq_false level]; rfl))
  · rw [exec_ginfo, execGinfo_eq]
    refine issue_trap goes (Act.check_fails ?_)
    rw [decide_eq_true level, decide_eq_false (Nat.not_le.mpr outside)]
    rfl
  · rw [exec_gyield, execGyield]
    refine issue_next goes (Act.check_then (decide_eq_true small) (Act.bind_eq (a := s) rfl ?_))
    rw [if_pos moves]
    rfl
  · rw [exec_gyield, execGyield]
    refine issue_gives goes (Act.check_then (decide_eq_true small) (Act.bind_eq (a := s) rfl ?_))
    rw [if_neg (Bool.eq_false_iff.mp stays)]
    rfl
  · rw [exec_gyield, execGyield]
    exact issue_trap goes (Act.check_fails (decide_eq_false (Nat.not_le.mpr large)))

/-! #### Barriers (R377 to R380) -/

section
variable {s : State} {a : Word} {v : Barrier} {j : Join}

/-- A barrier of the die that is the context's own. -/
structure State.Names (s : State) (a : Word) (v : Barrier) : Prop where
  small : a.toNat < 256
  found : s.bar (barKey s.curDie a.toNat) = some v
  valid : v.v = true
  own : v.ctx = s.cur.sys.ctx

theorem barrierOf_ok (names : s.Names a v) : barrierOf a s = .ok (barKey s.curDie a.toNat, v) s := by
  simp only [barrierOf, Act.get_bind, if_pos names.small, names.found, if_pos (And.intro names.valid names.own), Act.pure_run]

theorem barrierOf_bad (bad : 256 ≤ a.toNat ∨ s.bar (barKey s.curDie a.toNat) = none ∨
    (s.bar (barKey s.curDie a.toNat) = some v ∧ (v.v = false ∨ v.ctx ≠ s.cur.sys.ctx))) :
    barrierOf a s = .stop (.trap tRANGE [a]) := by
  by_cases small : a.toNat < 256
  · rcases bad with large | absent | ⟨found, unusable⟩
    · exact absurd small (Nat.not_lt.mpr large)
    · simp only [barrierOf, Act.get_bind, if_pos small, absent, Act.trap_run]
    · have no : ¬ (v.v = true ∧ v.ctx = s.cur.sys.ctx) := by
        rintro ⟨valid, own⟩
        rcases unusable with invalid | other
        · exact Bool.false_ne_true (invalid.symm.trans valid)
        · exact other own
      simp only [barrierOf, Act.get_bind, if_pos small, found, if_neg no, Act.trap_run]
  · simp only [barrierOf, Act.get_bind, if_neg small, Act.trap_run]

theorem joined_ok (member : s.cur.join? a.toNat = some j) : joined a s = .ok j s := by
  simp only [joined, Act.get_bind, member, Act.pure_run]

theorem joined_not (outside : s.cur.join? a.toNat = none) : joined a s = .stop (.trap tRANGE []) := by
  simp only [joined, Act.get_bind, outside, Act.trap_run]

theorem Strand.join?_number {t : Strand} {b : Nat} (member : t.join? b = some j) : j.b = b := by
  simpa using List.find?_some member

/-- What a strand that leaves a barrier changes. -/
theorem State.leaveBar_own (names : s.Names a v) (number : j.b = a.toNat) :
    s.leaveBar j = (s.setCur fun t => { t with joins := t.joins.filter fun i => i.b != j.b }).setBar
      (barKey s.curDie a.toNat) (v.leave j) := by
  obtain ⟨-, found, -, own⟩ := names
  rw [← number] at found ⊢
  have kept : (s.setCur fun t => { t with joins := t.joins.filter fun i => i.b != j.b }).bar (barKey s.curDie j.b) = some v :=
    found
  have same : v.ctx = (s.setCur fun t => { t with joins := t.joins.filter fun i => i.b != j.b }).cur.sys.ctx := own
  simp only [State.leaveBar, kept, if_pos same]

/-- What BARV waits for. -/
theorem Strand.opsPassed_iff (t : Strand) (since : Nat) : t.opsPassed since = true ↔
    (∀ op ∈ t.ops, op.done = true ∨ since ≤ op.issued) ∧ ∀ m ∈ t.nest.toList ++ t.pend.toList, since ≤ m.issued := by
  simp only [Strand.opsPassed, Strand.nests, Bool.and_eq_true, List.all_eq_true, Bool.or_eq_true, decide_eq_true_eq]

/-- The checks of BJOIN that its member count passes. -/
theorem bjoin_admits (n : Word) : ((n != 0 && decide (n.toNat ≤ 128)) = true ∧
      (decide (s.cur.joins.length < 4) && (v.members == 0 || (v.target.toNat == n.toNat && v.members != v.target))) = true) ↔
    n.toNat ≠ 0 ∧ n.toNat ≤ 128 ∧ s.cur.joins.length < 4 ∧ (v.members = 0 ∨ v.target.toNat = n.toNat ∧ v.members ≠ v.target) := by
  have zero : n ≠ 0 ↔ n.toNat ≠ 0 := by
    rw [ne_eq, ne_eq, ← BitVec.toNat_inj]
    rfl
  simp only [Bool.and_eq_true, bne_iff_ne, decide_eq_true_eq, Bool.or_eq_true, beq_iff_eq, zero, and_assoc]

end

/-- Settles O36: GINFO and GYIELD by their checks; a barrier is looked up first, then the strand's place in it. -/
theorem groupAndBarrierInstructions : Obligations.GroupAndBarrierInstructions := by
  refine ⟨?_, ?_⟩
  · intro r o s vs l sel a reads q qy c g d level p child part fill
    obtain ⟨info, range, moves, stays, wrong⟩ := groupInstructions r o s vs l
    have infos : ∀ n, s.groupInfo a.toNat sel = n → s.Goes q vs l → (reads → a.toNat ≤ 5) →
        exec (.ginfo r o) s = s.gives q l o.d (w64 n) := by
      rintro n rfl goes inside
      exact info goes inside
    refine ⟨?_, fun goes level8 inside kind => ?_, fun k goes level8 inside kind die => ?_, fun goes level8 inside no3 no2 => ?_,
      range, moves, stays, wrong⟩
    · intro e mem goes selects inside
      refine infos e.2 ?_ goes inside
      rw [selects]
      simp only [List.mem_cons, List.not_mem_nil, or_false] at mem
      rcases mem with rfl | rfl | rfl | rfl | rfl | rfl | rfl | rfl | rfl <;> rfl
    · refine infos _ ?_ goes fun _ => inside
      have kind : (s.curLevels[a.toNat]?).map (·.1) = some 3 := kind
      rw [level8]
      simp only [State.groupInfo, kind, Context.fPart, part]
      by_cases none : (extentsOf 3 s.curLevels).isEmpty = true
      · rw [if_pos none, if_pos none]
        rfl
      · rw [if_neg none, if_neg none, partOf_word]
        rfl
    · refine infos _ ?_ goes fun _ => inside
      have kind : (s.curLevels[a.toNat]?).map (·.1) = some 2 := kind
      have die : s.curCtx.dies.findIdx? (· == s.curDie) = some k := die
      rw [level8]
      simp only [State.groupInfo, kind, Context.dPart, part, die]
      by_cases none : (extentsOf 2 s.curLevels).isEmpty = true
      · rw [if_pos none, if_pos none]
        rfl
      · rw [if_neg none, if_neg none, partOf_word]
        rfl
    · refine infos 0 ?_ goes fun _ => inside
      rw [level8]
      show (match (s.curLevels[a.toNat]?).map (·.1) with
        | some 3 => _
        | some 2 => _
        | _ => 0 : Nat) = 0
      split
      · exact absurd ‹_› no3
      · exact absurd ‹_› no2
      · rfl
  · intro r o s vs l v j a n key qj qv qw ql valid joined test admits member since waiting passed less
    have names : valid → s.Names a v := fun ⟨small, found, ok, own⟩ => ⟨small, found, ok, own⟩
    refine ⟨fun goes ok new fits => ?_, fun goes ok old => ?_, fun goes ok new no => ?_, fun goes ok mem again => ?_,
      fun goes ok mem first done => ?_, fun goes ok mem first out => ?_, fun goes ok mem opened => ?_,
      fun goes ok mem same early => ?_, fun goes ok mem same late => ?_, fun goes ok mem => ?_, fun goes ok new => ?_,
      fun k => SMap.get?_map .., ?_, ?_⟩
    · obtain ⟨count, place⟩ := (bjoin_admits n).mpr fits
      rw [exec_bjoin, execBjoin]
      refine issue_ends goes (Act.bind_eq (barrierOf_ok (names ok)) (Act.bind_eq (a := s) rfl ?_))
      rw [show s.cur.join? (vs.headD 0).toNat = none from new]
      exact Act.check_then count (Act.check_then place rfl)
    · rw [exec_bjoin, execBjoin]
      refine issue_ends goes (Act.bind_eq (barrierOf_ok (names ok)) (Act.bind_eq (a := s) rfl ?_))
      rw [if_pos (show (s.cur.join? (vs.headD 0).toNat).isSome = true from old)]
      rfl
    · rw [exec_bjoin, execBjoin]
      refine issue_trap goes (Act.bind_eq (barrierOf_ok (names ok)) (Act.bind_eq (a := s) rfl ?_))
      rw [show s.cur.join? (vs.headD 0).toNat = none from new]
      by_cases count : (n != 0 && decide (n.toNat ≤ 128)) = true
      · exact Act.check_then count (Act.check_fails (Bool.eq_false_iff.mpr fun place => no ((bjoin_admits n).mp ⟨count, place⟩)))
      · exact Act.check_fails (Bool.eq_false_iff.mpr count)
    · rw [exec_barv, execBarv]
      refine issue_gives goes (Act.bind_eq (barrierOf_ok (names ok)) (Act.bind_eq (joined_ok mem) (Act.bind_eq (a := s) rfl ?_)))
      rw [if_pos again]
      rfl
    · rw [exec_barv, execBarv]
      refine issue_next goes (Act.bind_eq (barrierOf_ok (names ok)) (Act.bind_eq (joined_ok mem) (Act.bind_eq (a := s) rfl ?_)))
      rw [if_neg first]
      obtain ⟨ops, nests, accesses⟩ := done
      have quiet : (s.cur.opsPassed since && !s.accessesOut 0xFF) = true := by
        rw [(s.cur.opsPassed_iff since).mpr ⟨ops, nests⟩, accesses]
        rfl
      exact Act.bind_eq (waitSince_ok .a s) (Act.until_then quiet rfl)
    · rw [exec_barv, execBarv]
      refine issue_wait goes (Act.bind_eq (barrierOf_ok (names ok)) (Act.bind_eq (joined_ok mem) (Act.bind_eq (a := s) rfl ?_)))
      rw [if_neg first]
      have busy : (s.cur.opsPassed since && !s.accessesOut 0xFF) = false := by
        refine Bool.eq_false_iff.mpr fun quiet => out ?_
        obtain ⟨ops, accesses⟩ := (Bool.and_eq_true ..).mp quiet
        obtain ⟨ops, nests⟩ := (s.cur.opsPassed_iff since).mp ops
        exact ⟨ops, nests, by simpa using accesses⟩
      exact Act.bind_eq (waitSince_ok .a s) (Act.until_waits busy)
    · rw [exec_bwait, execBwait]
      refine issue_ends goes (Act.bind_eq (barrierOf_ok (names ok)) (Act.bind_eq (joined_ok mem) ?_))
      rw [show (v.gen != (vs.getD 1 0).setWidth 24) = true from bne_iff_ne.mpr opened]
      rfl
    · rw [exec_bwait, execBwait]
      refine issue_wait goes (Act.bind_eq (barrierOf_ok (names ok)) (Act.bind_eq (joined_ok mem) ?_))
      rw [show (v.gen != (vs.getD 1 0).setWidth 24) = false from bne_eq_false_iff_eq.mpr same]
      exact Act.bind_of_stop (holdWait_waits early)
    · rw [exec_bwait, execBwait]
      refine issue_trap goes (Act.bind_eq (barrierOf_ok (names ok)) (Act.bind_eq (joined_ok mem) ?_))
      rw [show (v.gen != (vs.getD 1 0).setWidth 24) = false from bne_eq_false_iff_eq.mpr same]
      exact Act.bind_of_stop (holdWait_times_out late)
    · rw [exec_bleave, execBleave]
      refine issue_ends goes (Act.bind_eq (barrierOf_ok (names ok)) (Act.bind_eq (a := s) rfl ?_))
      rw [show s.cur.join? (vs.headD 0).toNat = some j from mem]
      refine Act.then_eq (a := ()) (t := s.leaveBar j) rfl ?_
      rw [State.leaveBar_own (names ok) (Strand.join?_number mem)]
      rfl
    · rw [exec_bleave, execBleave]
      refine issue_ends goes (Act.bind_eq (barrierOf_ok (names ok)) (Act.bind_eq (a := s) rfl ?_))
      rw [show s.cur.join? (vs.headD 0).toNat = none from new]
      rfl
    · simp only [List.forall_mem_cons]
      refine ⟨fun goes bad => ?_, fun goes bad => ?_, fun goes bad => ?_, fun goes bad => ?_, fun e mem => nomatch mem⟩
      · rw [exec_bjoin, execBjoin]
        exact issue_trap goes (Act.bind_of_stop (barrierOf_bad bad))
      · rw [exec_barv, execBarv]
        exact issue_trap goes (Act.bind_of_stop (barrierOf_bad bad))
      · rw [exec_bwait, execBwait]
        exact issue_trap goes (Act.bind_of_stop (barrierOf_bad bad))
      · rw [exec_bleave, execBleave]
        exact issue_trap goes (Act.bind_of_stop (barrierOf_bad bad))
    · simp only [List.forall_mem_cons]
      refine ⟨fun goes ok new => ?_, fun goes ok new => ?_, fun e mem => nomatch mem⟩
      · rw [exec_barv, execBarv]
        exact issue_trap goes (Act.bind_eq (barrierOf_ok (names ok)) (Act.bind_of_stop (joined_not new)))
      · rw [exec_bwait, execBwait]
        exact issue_trap goes (Act.bind_eq (barrierOf_ok (names ok)) (Act.bind_of_stop (joined_not new)))

end Machine
end Sys2Proof

/-! ### Methods and contexts -/

namespace Sys2Proof
namespace Machine

section Search
variable {op : W16} {gs : List W16} {conv : List Bool} {s t u : State}

theorem mdispSearch_cached {c : Choice} (known : s.cached s.curDie s.cur.sys.ctx.toNat op gs conv = some c) :
    mdispSearch op gs conv s = .ok c s := by
  refine Act.bind_eq (a := s) rfl ?_
  rw [known]
  rfl

variable {b : List Byte} (new : s.cached s.curDie s.cur.sys.ctx.toNat op gs conv = none)
  (root : loadBytes s.curCtx.record.mtroot 32 false s = .ok b t)
include new root

theorem mdispSearch_unsound (unsound : tableRoot b = none) : mdispSearch op gs conv s = .ok ⟨none, [], 6, 0⟩ t := by
  refine Act.bind_eq (a := s) rfl ?_
  rw [new]
  refine Act.bind_eq root ?_
  rw [unsound]
  rfl

theorem mdispSearch_searches {va ktab : Word} {n kerns : Nat} {tb : List Byte}
    (sound : tableRoot b = some (va, n, ktab, kerns)) (table : loadBytes va (32 * n) false t = .ok tb u) :
    mdispSearch op gs conv s = .ok (searchMethods (methodsOf kerns n tb) ktab op.toNat gs conv) u := by
  refine Act.bind_eq (a := s) rfl ?_
  rw [new]
  refine Act.bind_eq root ?_
  rw [sound]
  exact Act.bind_eq table rfl

end Search

/-- The word of a search that found no method: kind 2 and no index. -/
theorem Choice.word_absent : (⟨none, [], 6, 0⟩ : Choice).word = w64 (2 ^ 63 + 0xFFFFFFFFFFFF) := by
  simp [Choice.word]

theorem Context.holdNs_div (c : Context) : c.holdNs / 1000 = if c.record.hold = 0 then 10000 else c.record.hold :=
  Nat.mul_div_cancel _ (by decide)

/-- The check of CTXINFO's near-tile operand is its form (R394). -/
theorem aliasForm_iff (a : Word) :
    (decide (a.toNat < 2 ^ 15) && getBits a 3 5 == 0 && decide (getBits a 0 3 ≤ 5)) = true ↔
      a.toNat < 2 ^ 15 ∧ a.toNat / 8 % 32 = 0 ∧ a.toNat % 8 ≤ 5 := by
  rw [getBits_low]
  simp only [Bool.and_eq_true, decide_eq_true_iff, beq_iff_eq, and_assoc]
  rfl

/-- Settles O37: MDISP gives the cached choice or searches; CTXINFO reads its selectors, or makes a read-only tile. -/
theorem methodsAndContexts : Obligations.MethodsAndContexts := by
  unfold Obligations.MethodsAndContexts
  intro r o s t u vs l c b tb va ktab n kerns v a q tags op conv fits die ctx sel qc h i rec' form left
  have opEq : BitVec.ofNat 16 (getBits a 48 16) = op := congrArg _ (getBits_high (lo := 48) (n := 16) a)
  have run {d : Choice} {w : State} (ok : fits) (found : mdispSearch op tags conv s = .ok d w) (goes : s.Goes q vs l) :
      exec (.mdisp r o) s = w.gives q l o.d d.word := by
    have found' : mdispSearch (BitVec.ofNat 16 (getBits a 48 16)) tags conv s = .ok d w := opEq.symm ▸ found
    rw [exec_mdisp, execMdisp]
    refine issue_next goes (Act.check_then ?_ (Act.bind_eq found' rfl))
    exact (Bool.and_eq_true ..).mpr ⟨decide_eq_true ok.1, List.all_eq_true.mpr fun g mem => decide_eq_true (ok.2 g mem)⟩
  refine ⟨fun goes ok known => ?_, fun goes ok new root => ⟨fun unsound => ?_, fun sound table => ?_⟩, fun goes bad => ?_, ?_,
    fun goes five ok free near => ?_, fun goes five ok free near => ?_, fun goes five ok held => ?_,
    fun goes five bad => ?_, fun five given => ?_⟩
  · exact run ok (mdispSearch_cached known) goes
  · exact Choice.word_absent ▸ run ok (mdispSearch_unsound new root unsound) goes
  · exact run ok (mdispSearch_searches new root sound table) goes
  · rw [exec_mdisp, execMdisp]
    refine issue_trap goes (Act.check_fails ?_)
    refine Bool.eq_false_iff.mpr fun ok => bad ?_
    obtain ⟨low, all⟩ := (Bool.and_eq_true ..).mp ok
    exact ⟨of_decide_eq_true low, fun g mem => of_decide_eq_true (List.all_eq_true.mp all g mem)⟩
  · have word (k : Nat) (w : Word) (goes : s.Goes qc [] l) (at' : sel = k) (plain : k ≠ 5) (value : s.ctxInfo k = w) :
        exec (.ctxinfo r o) s = s.gives qc l o.d w := by
      simp only [exec_ctxinfo, execCtxinfo]
      refine issue_gives goes (Act.bind_eq (a := s) rfl ?_)
      rw [if_pos (show o.b.toNat ≠ 5 from fun five => plain (at'.symm.trans five)), show o.b.toNat = k from at', value]
      rfl
    simp only [List.forall_mem_cons]
    refine ⟨fun goes at' => ?_, fun goes at' => ?_, fun goes at' => ?_, fun goes at' => ?_, fun goes at' => ?_,
      fun e mem => nomatch mem⟩
    · exact word 0 _ goes at' (by decide) rfl
    · exact word 1 _ goes at' (by decide) rfl
    · exact word 2 _ goes at' (by decide) rfl
    · exact word 3 _ goes at' (by decide) rfl
    · exact word 4 _ goes at' (by decide)
        (congrArg (fun x => w64 (x + s.curCtx.record.diemask.toNat * 2 ^ 32)) s.curCtx.holdNs_div)
  · simp only [exec_ctxinfo, execCtxinfo]
    refine issue_next goes (Act.bind_eq (a := s) rfl ?_)
    rw [if_neg (not_not_intro (show o.b.toNat = 5 from five))]
    refine Act.check_then ((aliasForm_iff _).mpr ok) (Act.check_then (Option.isNone_iff_eq_none.mpr free) ?_)
    rw [show s.nearOperand (getBits (vs.headD 0) 0 3) = some v from (getBits_low (vs.headD 0) 3).symm ▸ near]
    exact Act.then_eq (a := ()) rfl rfl
  · simp only [exec_ctxinfo, execCtxinfo]
    refine issue_gives goes (Act.bind_eq (a := s) rfl ?_)
    rw [if_neg (not_not_intro (show o.b.toNat = 5 from five))]
    refine Act.check_then ((aliasForm_iff _).mpr ok) (Act.check_then (Option.isNone_iff_eq_none.mpr free) ?_)
    rw [show s.nearOperand (getBits (vs.headD 0) 0 3) = none from (getBits_low (vs.headD 0) 3).symm ▸ near]
    rfl
  · simp only [exec_ctxinfo, execCtxinfo]
    refine issue_trap goes (Act.bind_eq (a := s) rfl ?_)
    rw [if_neg (not_not_intro (show o.b.toNat = 5 from five))]
    refine Act.check_then ((aliasForm_iff _).mpr ok) (Act.check_fails ?_)
    exact Option.isNone_eq_false_iff.mpr held
  · simp only [exec_ctxinfo, execCtxinfo]
    refine issue_trap goes (Act.bind_eq (a := s) rfl ?_)
    rw [if_neg (not_not_intro (show o.b.toNat = 5 from five))]
    exact Act.check_fails (Bool.eq_false_iff.mpr fun ok => bad ((aliasForm_iff _).mp ok))
  · simp only [exec_ctxinfo, execCtxinfo]
    refine issue_illegal (q := qc) ?_
    exact (Bool.or_eq_false_iff ..).mpr ⟨beq_eq_false_iff_ne.mpr five, beq_eq_false_iff_ne.mpr given⟩

end Machine
end Sys2Proof

/-! ### Page instructions -/

namespace Sys2Proof
namespace Machine

theorem getLsbD_setBit {w : Word} {k j : Nat} (on : Bool) (hk : k < 64) (hj : j < 64) :
    (setBit w k on).getLsbD j = if j = k then on else w.getLsbD j := by
  have bit : (BitVec.ofNat 64 (2 ^ k)).getLsbD j = decide (k = j) := by
    rw [BitVec.getLsbD_ofNat, Nat.testBit_two_pow, decide_eq_true hj, Bool.true_and]
  cases on with
  | false =>
    rw [setBit, if_neg Bool.false_ne_true, BitVec.getLsbD_and, BitVec.getLsbD_not, bit]
    split
    next same => simp [same]
    next other => simp [hj, Ne.symm other]
  | true =>
    rw [setBit, if_pos rfl, BitVec.getLsbD_or, bit]
    split
    next same => simp [same]
    next other => simp [Ne.symm other]

/-! The checks at issue (R336) -/

theorem Act.check_passes {ok : Bool} {code : Nat} {args : List Word} (s : State) (pass : ok = true) :
    Act.check ok code args s = .ok () s :=
  congrFun (if_pos pass) s

theorem Act.check_stops {ok : Bool} {code : Nat} {args : List Word} (s : State) (fail : ok = false) :
    Act.check ok code args s = .stop (.trap code args) :=
  congrFun (if_neg (Bool.eq_false_iff.mp fail)) s

/-- The pages of a range are aligned and canonical. -/
def PagesInside (x : Option XP) (v : Word) : Prop :=
  v.toNat % 2 ^ pageShift (pageSize x) = 0 ∧ ∀ i, i < pageCount x → canonical (pageVa v (pageSize x) i) = true

theorem Act.each_ok {α : Type} {f : α → Act Unit} {l : List α} {s : State} (ok : ∀ v ∈ l, f v s = .ok () s) :
    Act.each f l s = .ok () s := by
  induction l with
  | nil => rfl
  | cons v l ih =>
    obtain ⟨first, rest⟩ := List.forall_mem_cons.mp ok
    exact Act.then_eq first (ih rest)

section Checks
variable {a : Word} {size n : Nat} {s : State}

theorem pageAligned_ok (aligned : a.toNat % 2 ^ pageShift size = 0) : pageAligned a size s = .ok () s :=
  Act.check_passes s (beq_iff_eq.mpr aligned)

theorem pageAligned_fails (bad : ¬ a.toNat % 2 ^ pageShift size = 0) :
    pageAligned a size s = .stop (.trap tALIGN []) :=
  Act.check_stops s (beq_false_of_ne bad)

theorem pageRange_ok (mapped : ∀ i, i < n → canonical (pageVa a size i) = true) : pageRange a size n s = .ok () s := by
  have found : ((tab n fun i => pageVa a size i).find? fun v => !canonical v) = none := by
    rw [List.find?_eq_none, tab_eq_map]
    intro v mem
    obtain ⟨i, inside, rfl⟩ := List.mem_map.mp mem
    simp [mapped i (List.mem_range.mp inside)]
  rw [pageRange, found]
  rfl

theorem pageRange_fails {i : Nat} (inside : i < n) (bad : canonical (pageVa a size i) = false)
    (first : ∀ j, j < i → canonical (pageVa a size j) = true) :
    pageRange a size n s = .stop (.trap tPROTECT [pageVa a size i]) := by
  have found : ((tab n fun i => pageVa a size i).find? fun v => !canonical v) = some (pageVa a size i) :=
    find?_tab inside (by simp [bad]) fun j before => by simp [first j before]
  rw [pageRange, found]
  rfl

end Checks

section Instr
variable {r : Ring} {opc k : Nat} {o : F3} {x : Option XP} {extra : List (BitVec 5)} {check : List Word → Act Unit}
  {f : List Word → PageStep} {s u : State} {vs : List Word} {l : Links} {v : Word}

/-- The issue facts of a page instruction. -/
abbrev pageIssue (r : Ring) (opc : Nat) (o : F3) (x : Option XP) (extra : List (BitVec 5)) : Issue :=
  { r.issue .a opc (lenOf x) (o.a :: extra) [.reg o.d] 1 with legal := pageCount x != 0 && pageSize x != 3 }

theorem pageInstr_gives (goes : s.Goes (pageIssue r opc o x extra) vs l) (inside : ∀ v ∈ vs.take k, PagesInside x v)
    (passes : check vs s = .ok () s)
    (loop : pageLoop (f vs) (vs.headD 0) (pageSize x) (pageCount x) 0 s = .ok v u) :
    pageInstr r opc o x extra k check f s = u.gives (pageIssue r opc o x extra) l o.d v :=
  issue_next goes (Act.then_eq (Act.each_ok fun v mem => pageAligned_ok (inside v mem).1)
    (Act.then_eq (Act.each_ok fun v mem => pageRange_ok (inside v mem).2) (Act.then_eq passes (Act.bind_eq loop rfl))))

theorem pageInstr_illegal (bad : pageCount x = 0 ∨ pageSize x = 3) :
    pageInstr r opc o x extra k check f s = .next (s.takeTrap .a tILLEGAL (s.cur.illegalArgs .a)) := by
  refine issue_illegal (q := pageIssue r opc o x extra) ?_
  refine Bool.and_eq_false_imp.mpr fun some' => ?_
  exact bne_eq_false_iff_eq.mpr (bad.resolve_left (bne_iff_ne.mp some'))

theorem pageInstr_traps {code : Nat} {args : List Word} (goes : s.Goes (pageIssue r opc o x extra) vs l)
    (inside : ∀ v ∈ vs.take k, PagesInside x v) (fails : check vs s = .stop (.trap code args)) :
    pageInstr r opc o x extra k check f s = .next (s.takeTrap .a code args) :=
  issue_trap goes (Act.then_eq (Act.each_ok fun v mem => pageAligned_ok (inside v mem).1)
    (Act.then_eq (Act.each_ok fun v mem => pageRange_ok (inside v mem).2) (Act.bind_of_stop fails)))

theorem pageInstr_misaligned {a : Word} {ws ys : List Word} (goes : s.Goes (pageIssue r opc o x extra) vs l)
    (sources : vs.take k = ws ++ a :: ys) (before : ∀ v ∈ ws, v.toNat % 2 ^ pageShift (pageSize x) = 0)
    (bad : ¬ a.toNat % 2 ^ pageShift (pageSize x) = 0) :
    pageInstr r opc o x extra k check f s = .next (s.takeTrap .a tALIGN []) := by
  refine issue_trap goes (Act.bind_of_stop ?_)
  rw [sources]
  clear sources
  induction ws with
  | nil => exact Act.bind_of_stop (pageAligned_fails bad)
  | cons w ws ih =>
    obtain ⟨first, rest⟩ := List.forall_mem_cons.mp before
    exact Act.then_eq (pageAligned_ok first) (ih rest)

theorem pageInstr_protects {a : Word} {i : Nat} {ws ys : List Word} (goes : s.Goes (pageIssue r opc o x extra) vs l)
    (sources : vs.take k = ws ++ a :: ys) (before : ∀ v ∈ ws, PagesInside x v)
    (aligned : ∀ v ∈ vs.take k, v.toNat % 2 ^ pageShift (pageSize x) = 0) (inside : i < pageCount x)
    (bad : canonical (pageVa a (pageSize x) i) = false)
    (first : ∀ j, j < i → canonical (pageVa a (pageSize x) j) = true) :
    pageInstr r opc o x extra k check f s = .next (s.takeTrap .a tPROTECT [pageVa a (pageSize x) i]) := by
  refine issue_trap goes (Act.then_eq (Act.each_ok fun v mem => pageAligned_ok (aligned v mem)) (Act.bind_of_stop ?_))
  rw [sources]
  clear sources aligned
  induction ws with
  | nil => exact Act.bind_of_stop (pageRange_fails inside bad first)
  | cons w ws ih =>
    obtain ⟨head, rest⟩ := List.forall_mem_cons.mp before
    exact Act.then_eq (pageRange_ok head.2) (ih rest)

end Instr

theorem eq_of_length_one {vs : List Word} (one : vs.length = 1) : vs = [vs.headD 0] := by
  obtain ⟨a, rfl⟩ := List.length_eq_one_iff.mp one
  rfl

theorem eq_of_length_two {vs : List Word} (two : vs.length = 2) : vs = [vs.headD 0, vs.getD 1 0] := by
  match vs, two with
  | [_, _], _ => rfl

/-! The loop over the pages -/

section Loop
variable {f : PageStep} {a : Word} {size n i : Nat} {s t u : State}

theorem pageLoop_window (window : windowIn s.cur.wins (pageVa a size i) (2 ^ pageShift size) = true) :
    pageLoop f a size (n + 1) i s = .ok (w64 (8 * 2 ^ 56 + i)) s := by
  refine Act.bind_eq (a := s) rfl ?_
  rw [if_pos window]
  rfl

theorem pageLoop_busy (plain : windowIn s.cur.wins (pageVa a size i) (2 ^ pageShift size) = false)
    (busy : s.pageBusy (pageVa a size i) size = true) : pageLoop f a size (n + 1) i s = .stop (.wait 0 s) := by
  refine Act.bind_eq (a := s) rfl ?_
  rw [if_neg (Bool.eq_false_iff.mp plain), if_pos busy]
  rfl

theorem pageLoop_page {reason : Nat} (plain : windowIn s.cur.wins (pageVa a size i) (2 ^ pageShift size) = false)
    (quiet : s.pageBusy (pageVa a size i) size = false) (page : f (pageVa a size i) s = .ok reason t) :
    pageLoop f a size (n + 1) i s =
      if reason = 0 then pageLoop f a size n (i + 1) t else .ok (w64 (reason * 2 ^ 56 + i)) t := by
  refine Act.bind_eq (a := s) rfl ?_
  rw [if_neg (Bool.eq_false_iff.mp plain), if_neg (Bool.eq_false_iff.mp quiet)]
  refine Act.bind_eq page ?_
  split <;> rfl

/-- Where every page finds P and keeps it for the pages that are left, the loop completes. -/
theorem pageLoop_completes (P : Nat → State → Prop) (quiet : ∀ k s va, P (k + 1) s → s.pageBusy va size = false)
    (page : ∀ k s va, P (k + 1) s → ∃ reason t, reason ≤ 8 ∧ f va s = .ok reason t ∧ P k t) (holds : P n s) :
    ∃ t done reason, done ≤ i + n ∧ reason ≤ 8 ∧ pageLoop f a size n i s = .ok (w64 (reason * 2 ^ 56 + done)) t := by
  induction n generalizing i s with
  | zero => exact ⟨s, i, 0, i.le_refl, by decide, congrArg (fun v => Res.ok (w64 v) s) (by simp)⟩
  | succ n ih =>
    by_cases window : windowIn s.cur.wins (pageVa a size i) (2 ^ pageShift size) = true
    · exact ⟨s, i, 8, Nat.le_add_right .., by decide, pageLoop_window window⟩
    · obtain ⟨reason, t, small, run, keeps⟩ := page n s (pageVa a size i) holds
      have step := pageLoop_page (n := n) (Bool.eq_false_iff.mpr window) (quiet n s _ holds) run
      by_cases zero : reason = 0
      · obtain ⟨u, done, why, le, le', rest⟩ := ih (i := i + 1) keeps
        exact ⟨u, done, why, by omega, le', by rw [step, if_pos zero, rest]⟩
      · exact ⟨t, i, reason, Nat.le_add_right .., small, by rw [step, if_neg zero]⟩

end Loop

/-! Nothing in the way -/

/-- Nothing is MOVING, no atomic waits at an engine and no access to a peer is on its way. -/
def State.PagesIdle (s : State) : Prop := s.mem.moves = [] ∧ s.mem.atoms = [] ∧ s.net.remote = []

theorem Mem.put_moves (m : Mem) (home pa : Nat) (b : List Byte) :
    (m.put home pa b).moves = m.moves ∧ (m.put home pa b).atoms = m.atoms := by
  unfold Mem.put
  split <;> exact ⟨rfl, rfl⟩

theorem Mem.share_moves (m : Mem) (ctx pa level : Nat) :
    (m.share ctx pa level).moves = m.moves ∧ (m.share ctx pa level).atoms = m.atoms := by
  simp only [Mem.share]
  split
  · exact ⟨rfl, rfl⟩
  · split <;> exact ⟨rfl, rfl⟩

namespace State
variable {s : State}

theorem PagesIdle.moving (idle : s.PagesIdle) (ctx : Nat) (va : Word) (k : Nat) : movingIn s.mem ctx va k = false := by
  rw [movingIn, idle.1]
  rfl

theorem PagesIdle.pageBusy (idle : s.PagesIdle) (va : Word) (size : Nat) : s.pageBusy va size = false := by
  have unused (home pa k : Nat) : s.mem.inUse s.net s.cur.sys.ctx.toNat va home pa k = false := by
    rw [Mem.inUse, idle.2.1, idle.2.2]
    rfl
  simp only [State.pageBusy, idle.moving, Bool.false_or]
  split
  · rw [unused, Bool.and_false]
  · rfl

theorem PagesIdle.of_put (idle : s.PagesIdle) (home pa : Nat) (b : List Byte) :
    PagesIdle { s with mem := s.mem.put home pa b } := by
  obtain ⟨moves, atoms⟩ := s.mem.put_moves home pa b
  exact ⟨moves.trans idle.1, atoms.trans idle.2.1, idle.2.2⟩

theorem PagesIdle.of_share (idle : s.PagesIdle) (ctx pa level : Nat) :
    PagesIdle { s with mem := s.mem.share ctx pa level } := by
  obtain ⟨moves, atoms⟩ := s.mem.share_moves ctx pa level
  exact ⟨moves.trans idle.1, atoms.trans idle.2.1, idle.2.2⟩

theorem returnFrame_unpooled {ctx : Nat} (unpooled : (s.ctxOf ctx).record.poollog2 = 0) (home pa size : Nat) :
    s.returnFrame ctx home pa size = if home = 2 then s else s.postError ctx 0 0x104 pa noSource := by
  simp only [State.returnFrame]
  rw [if_pos (Or.inl unpooled)]

theorem ctxOf_postError_record (s : State) (ctx idx status arg src : Nat) :
    ((s.postError ctx idx status arg src).ctxOf ctx).record = (s.ctxOf ctx).record := by
  simp [State.postError, State.pushRecord, State.setCtx, State.ctxOf, SMap.upd]

/-- What the pages of PGDROP keep for the pages after them, without pools. -/
def DropKeeps (s t : State) : Prop :=
  t.PagesIdle ∧ t.cur.sys = s.cur.sys ∧ t.curCtx.record = s.curCtx.record

theorem returnFrame_keeps (idle : s.PagesIdle) (unpooled : s.curCtx.record.poollog2 = 0) (home pa size : Nat) :
    s.DropKeeps (s.returnFrame s.cur.sys.ctx.toNat home pa size) := by
  rw [returnFrame_unpooled unpooled]
  split
  · exact ⟨idle, rfl, rfl⟩
  · exact ⟨idle, rfl, ctxOf_postError_record ..⟩

theorem unshare_keeps (idle : s.PagesIdle) (unpooled : s.curCtx.record.poollog2 = 0) (home pa size : Nat) :
    s.DropKeeps (s.unshare s.cur.sys.ctx.toNat home pa size) := by
  simp only [State.unshare]
  split
  · exact returnFrame_keeps idle unpooled ..
  · split
    · exact ⟨idle, rfl, rfl⟩
    · split
      · exact ⟨idle, rfl, rfl⟩
      · split
        · exact returnFrame_keeps (s := { s with mem := s.mem.setCount pa 0 }) idle unpooled ..
        · exact ⟨idle, rfl, rfl⟩

theorem dropLeaf_keeps (idle : s.PagesIdle) (unpooled : s.curCtx.record.poollog2 = 0) (va : Word) (pa : Nat) (e : Word)
    (level : Nat) : s.DropKeeps (s.dropLeaf s.cur.sys.ctx.toNat va pa e level) :=
  let m := (s.mem.put 0 pa (leBytes 8 (setBit e 0 false).toNat)).invalidate s.cur.sys.ctx.toNat
    (va.toNat / 2 ^ levelShift level * 2 ^ levelShift level) (2 ^ levelShift level / 65536)
  unshare_keeps (s := { s with mem := m }) (idle.of_put ..) unpooled ..

end State

/-! One page of each instruction -/

section Page
variable {size : Nat} {va dst b : Word} {s : State} {pa tp : Nat} {e d : Word}

theorem validLeaf_leaf {k : Nat → Word → Act Nat} (slot : s.pageSlot va size = .entry pa e) (valid : leafV e = true) :
    validLeaf va size k s = k pa e s := by
  refine Act.bind_eq (a := s) rfl ?_
  rw [slot]
  exact congrFun (if_pos valid) s

theorem validLeaf_invalid {k : Nat → Word → Act Nat} (slot : s.pageSlot va size = .entry pa e) (invalid : leafV e = false) :
    validLeaf va size k s = .ok 1 s := by
  refine Act.bind_eq (a := s) rfl ?_
  rw [slot]
  exact congrFun (if_neg (Bool.eq_false_iff.mp invalid)) s

theorem validLeaf_noPath {k : Nat → Word → Act Nat} {level : Nat} (slot : s.pageSlot va size = .noPath level e) :
    validLeaf va size k s = .ok 2 s := by
  refine Act.bind_eq (a := s) rfl ?_
  rw [slot]
  rfl

theorem validLeaf_other {k : Nat → Word → Act Nat} (slot : s.pageSlot va size = .other) :
    validLeaf va size k s = .ok 2 s := by
  refine Act.bind_eq (a := s) rfl ?_
  rw [slot]
  rfl

/-- Whatever a valid leaf completes with, a page without one completes too. -/
theorem validLeaf_completes {k : Nat → Word → Act Nat} {Q : State → Prop} (holds : Q s)
    (leaf : ∀ pa e, s.pageSlot va size = .entry pa e → leafV e = true →
      ∃ reason t, reason ≤ 8 ∧ k pa e s = .ok reason t ∧ Q t) :
    ∃ reason t, reason ≤ 8 ∧ validLeaf va size k s = .ok reason t ∧ Q t := by
  cases slot : s.pageSlot va size with
  | entry pa e =>
    by_cases valid : leafV e = true
    · exact validLeaf_leaf slot valid ▸ leaf pa e slot valid
    · exact ⟨1, s, by decide, validLeaf_invalid slot (Bool.eq_false_iff.mpr valid), holds⟩
  | noPath level e => exact ⟨2, s, by decide, validLeaf_noPath slot, holds⟩
  | other => exact ⟨2, s, by decide, validLeaf_other slot, holds⟩

/-- The target of a fork is no window and is not MOVING. -/
def State.ForkPlain (s : State) (dst : Word) (size : Nat) : Prop :=
  windowIn s.cur.wins dst (2 ^ pageShift size) = false ∧ movingIn s.mem s.cur.sys.ctx.toNat dst (2 ^ pageShift size) = false

theorem forkPage_window (window : windowIn s.cur.wins dst (2 ^ pageShift size) = true) :
    forkPage size va dst s = .ok 8 s := by
  refine Act.bind_eq (a := s) rfl ?_
  rw [if_pos window]
  rfl

theorem forkPage_moving (plain : windowIn s.cur.wins dst (2 ^ pageShift size) = false)
    (moving : movingIn s.mem s.cur.sys.ctx.toNat dst (2 ^ pageShift size) = true) :
    forkPage size va dst s = .stop (.wait 0 s) := by
  refine Act.bind_eq (a := s) rfl ?_
  rw [if_neg (Bool.eq_false_iff.mp plain), if_pos moving]
  rfl

/-- The state after the leaf e at pa was shared with the slot at tp. -/
def State.forked (s : State) (va : Word) (size pa tp : Nat) (e : Word) : State :=
  let w := (s.putEntry pa (setBit e 10 true)).putEntry tp
    (setBit (setBit (setBit (setBit e 10 true) 8 false) 7 false) 9 false)
  State.dropTlb { w with mem := w.mem.share s.cur.sys.ctx.toNat (leafPa e) size } va size

/-- What a fork does with a valid leaf of the source. -/
def forkLeaf (size : Nat) (va dst : Word) (s : State) (pa : Nat) (e : Word) : Act Nat :=
  if leafHome e ≠ 0 then Act.pure 7
  else match s.pageSlot dst size with
    | .entry tp t =>
      if leafV t then Act.pure (if leafPa t = leafPa e ∧ leafHome t = 0 ∧ leafCow t then 0 else 6)
      else (Act.modify fun s => s.forked va size pa tp e).andThen (Act.pure 0)
    | _ => Act.pure 2

theorem forkPage_plain (plain : s.ForkPlain dst size) :
    forkPage size va dst s = validLeaf va size (forkLeaf size va dst s) s := by
  refine Act.bind_eq (a := s) rfl ?_
  rw [if_neg (Bool.eq_false_iff.mp plain.1), if_neg (Bool.eq_false_iff.mp plain.2)]
  rfl

theorem forkLeaf_far (far : leafHome e ≠ 0) : forkLeaf size va dst s pa e s = .ok 7 s := by
  rw [forkLeaf, if_pos far]
  rfl

theorem forkLeaf_taken (near : leafHome e = 0) (slot : s.pageSlot dst size = .entry tp d) (valid : leafV d = true) :
    forkLeaf size va dst s pa e s = .ok (if leafPa d = leafPa e ∧ leafHome d = 0 ∧ leafCow d = true then 0 else 6) s := by
  rw [forkLeaf, if_neg (not_not_intro near), slot]
  exact congrFun (if_pos valid) s

theorem forkLeaf_shares (near : leafHome e = 0) (slot : s.pageSlot dst size = .entry tp d) (free : leafV d = false) :
    forkLeaf size va dst s pa e s = .ok 0 (s.forked va size pa tp e) := by
  rw [forkLeaf, if_neg (not_not_intro near), slot]
  exact congrFun (if_neg (Bool.eq_false_iff.mp free)) s

theorem State.PagesIdle.forked (idle : s.PagesIdle) (va : Word) (size pa tp : Nat) (e : Word) :
    (s.forked va size pa tp e).PagesIdle :=
  ((idle.of_put 0 pa _).of_put 0 tp _).of_share ..

theorem forkPage_completes (idle : s.PagesIdle) :
    ∃ reason t, reason ≤ 8 ∧ forkPage size va dst s = .ok reason t ∧ t.PagesIdle := by
  by_cases window : windowIn s.cur.wins dst (2 ^ pageShift size) = true
  · exact ⟨8, s, Nat.le_refl 8, forkPage_window window, idle⟩
  rw [forkPage_plain ⟨Bool.eq_false_iff.mpr window, idle.moving ..⟩]
  refine validLeaf_completes idle fun pa e slot valid => ?_
  by_cases near : leafHome e = 0
  · cases target : s.pageSlot dst size with
    | entry tp d =>
      by_cases taken : leafV d = true
      · refine ⟨_, s, ?_, forkLeaf_taken near target taken, idle⟩
        split <;> decide
      · exact ⟨0, _, by decide, forkLeaf_shares near target (Bool.eq_false_iff.mpr taken), idle.forked ..⟩
    | noPath level d =>
      refine ⟨2, s, by decide, ?_, idle⟩
      rw [forkLeaf, if_neg (not_not_intro near), target]
      rfl
    | other =>
      refine ⟨2, s, by decide, ?_, idle⟩
      rw [forkLeaf, if_neg (not_not_intro near), target]
      rfl
  · exact ⟨7, s, by decide, forkLeaf_far near, idle⟩

theorem dropOne_other (slot : s.pageSlot va size = .other) : dropOne size va s = .ok 2 s := by
  refine Act.bind_eq (a := s) rfl ?_
  rw [slot]
  rfl

theorem dropOne_noPath {level : Nat} (slot : s.pageSlot va size = .noPath level e) : dropOne size va s = .ok 0 s := by
  refine Act.bind_eq (a := s) rfl ?_
  rw [slot]
  rfl

theorem dropOne_invalid (slot : s.pageSlot va size = .entry pa e) (invalid : leafV e = false) :
    dropOne size va s = .ok 0 s := by
  refine Act.bind_eq (a := s) rfl ?_
  rw [slot]
  show (if (!leafV e) = true then Act.pure 0 else _ : Act Nat) s = _
  rw [invalid]
  rfl

theorem dropOne_pinned (slot : s.pageSlot va size = .entry pa e) (valid : leafV e = true) (pinned : leafPin e = true) :
    dropOne size va s = .ok 3 s := by
  refine Act.bind_eq (a := s) rfl ?_
  rw [slot]
  show (if (!leafV e) = true then Act.pure 0 else if leafPin e = true then _ else _ : Act Nat) s = _
  rw [valid, if_neg (by decide), if_pos pinned]
  rfl

theorem dropOne_drops (slot : s.pageSlot va size = .entry pa e) (valid : leafV e = true) (loose : leafPin e = false) :
    dropOne size va s = .ok 0 ((s.discardPage va size).dropLeaf s.cur.sys.ctx.toNat va pa e size) := by
  refine Act.bind_eq (a := s) rfl ?_
  rw [slot]
  show (if (!leafV e) = true then Act.pure 0 else if leafPin e = true then _ else _ : Act Nat) s = _
  rw [valid, if_neg (by decide), if_neg (Bool.eq_false_iff.mp loose)]
  rfl

/-- PGDROP of a page completes, and without a pool leaves nothing in the way of the next page. -/
theorem dropOne_completes (idle : s.PagesIdle) : ∃ reason t, reason ≤ 8 ∧ dropOne size va s = .ok reason t ∧
    (s.curCtx.record.poollog2 = 0 → s.DropKeeps t) := by
  have same : s.DropKeeps s := ⟨idle, rfl, rfl⟩
  cases slot : s.pageSlot va size with
  | entry pa e =>
    by_cases valid : leafV e = true
    · by_cases pinned : leafPin e = true
      · exact ⟨3, s, by decide, dropOne_pinned slot valid pinned, fun _ => same⟩
      · exact ⟨0, _, by decide, dropOne_drops slot valid (Bool.eq_false_iff.mpr pinned), fun unpooled =>
          State.dropLeaf_keeps (s := s.discardPage va size) idle unpooled ..⟩
    · exact ⟨0, s, by decide, dropOne_invalid slot (Bool.eq_false_iff.mpr valid), fun _ => same⟩
  | noPath level e => exact ⟨0, s, by decide, dropOne_noPath slot, fun _ => same⟩
  | other => exact ⟨2, s, by decide, dropOne_other slot, fun _ => same⟩

theorem pinOne_pins (slot : s.pageSlot va size = .entry pa e) (valid : leafV e = true) :
    pinOne size va s = .ok 0 ((s.putEntry pa (setBit e 9 true)).dropTlb va size) := by
  refine Act.bind_eq (a := s) rfl ?_
  rw [slot]
  show (if (!leafV e) = true then _ else _ : Act Nat) s = _
  rw [valid]
  rfl

theorem pinOne_faults (slot : s.pageSlot va size = .entry pa e) (invalid : leafV e = false) :
    pinOne size va s = .stop (.fault ⟨va, false, 1, size, e⟩ s) := by
  refine Act.bind_eq (a := s) rfl ?_
  rw [slot]
  show (if (!leafV e) = true then _ else _ : Act Nat) s = _
  rw [invalid]
  rfl

theorem pinOne_other (slot : s.pageSlot va size = .other) : pinOne size va s = .ok 2 s := by
  refine Act.bind_eq (a := s) rfl ?_
  rw [slot]
  rfl

/-- PGUNPIN's page (R336). -/
def unpinOne (size : Nat) (va : Word) : Act Nat := validLeaf va size fun pa e =>
  (Act.modify fun s => (s.putEntry pa (setBit e 9 false)).dropTlb va size).andThen (Act.pure 0)

theorem unpinOne_completes (idle : s.PagesIdle) :
    ∃ reason t, reason ≤ 8 ∧ unpinOne size va s = .ok reason t ∧ t.PagesIdle :=
  validLeaf_completes idle fun pa e _ _ => ⟨0, _, by decide, rfl, State.PagesIdle.of_put idle 0 pa (leBytes 8 (setBit e 9 false).toNat)⟩

/-- Whether a move of the page goes on. -/
def State.Moves (s : State) (va : Word) : Prop := ∃ m ∈ s.mem.moves, m.ctx = s.cur.sys.ctx.toNat ∧ m.va = va.toNat

theorem State.moves_iff (s : State) (va : Word) :
    (s.mem.moves.any fun v => v.ctx == s.cur.sys.ctx.toNat && v.va == va.toNat) = true ↔ s.Moves va := by
  simp [State.Moves]

theorem movePage_waits (moves : s.Moves va) : movePage size b va s = .stop (.wait 0 s) := by
  refine Act.bind_eq (a := s) rfl ?_
  rw [if_pos ((s.moves_iff va).mpr moves)]
  rfl

/-- What PGMOVE does with a valid leaf. -/
def moveLeaf (size : Nat) (b va : Word) (s : State) (e : Word) : Act Nat :=
  if leafPin e then Act.pure 3
  else if leafHome e = 0 ∧ 1 < frameCount s.mem (leafPa e) then Act.pure 4
  else if leafHome e = 2 then Act.pure 7
  else if poolOf (leafHome e) (leafPa e) = movePool b then Act.pure 0
  else match if s.curCtx.record.poollog2 = 0 then none else s.takeFrame s.cur.sys.ctx.toNat (movePool b) size with
    | none => Act.pure 5
    | some (frame, t) =>
      let v : Move :=
        ⟨s.cur.key, s.cur.sys.ctx.toNat, va.toNat, 2 ^ pageShift size, size, if movePool b = 4 then 1 else 0, frame⟩
      fun _ =>
        let t := { t with mem := { t.mem with moves := t.mem.moves ++ [v] } }
        .stop (.wait 0 ((t.discardPage va size).post .pageMoveCopyDone s.cur.key))

theorem movePage_leaf (still : ¬ s.Moves va) (slot : s.pageSlot va size = .entry pa e) (valid : leafV e = true) :
    movePage size b va s = moveLeaf size b va s e s := by
  refine Act.bind_eq (a := s) rfl ?_
  rw [if_neg fun any => still ((s.moves_iff va).mp any)]
  exact validLeaf_leaf slot valid

theorem moveLeaf_pinned (pinned : leafPin e = true) : moveLeaf size b va s e s = .ok 3 s := by
  rw [moveLeaf, if_pos pinned]
  rfl

theorem moveLeaf_shared (loose : leafPin e = false) (near : leafHome e = 0) (shared : 1 < frameCount s.mem (leafPa e)) :
    moveLeaf size b va s e s = .ok 4 s := by
  rw [moveLeaf, if_neg (Bool.eq_false_iff.mp loose), if_pos ⟨near, shared⟩]
  rfl

theorem moveLeaf_peer (loose : leafPin e = false) (peer : leafHome e = 2) : moveLeaf size b va s e s = .ok 7 s := by
  rw [moveLeaf, if_neg (Bool.eq_false_iff.mp loose), if_neg fun near => absurd (peer.symm.trans near.1) (by decide), if_pos peer]
  rfl

theorem moveLeaf_there (loose : leafPin e = false) (own : leafHome e = 0 → frameCount s.mem (leafPa e) ≤ 1)
    (here : leafHome e ≠ 2) (there : poolOf (leafHome e) (leafPa e) = if b.toNat % 4 = 1 then 4 else b.toNat / 4) :
    moveLeaf size b va s e s = .ok 0 s := by
  rw [moveLeaf, if_neg (Bool.eq_false_iff.mp loose), if_neg fun near => absurd near.2 (Nat.not_lt.mpr (own near.1)),
    if_neg here, if_pos (show _ = movePool b from there)]
  rfl

end Page

/-! PGQRY (R338) -/

section Query
variable {s : State} {va : Word}

theorem queryPage_window {w : Window} (window : findWindow s.cur.wins va = some w) :
    s.queryPage va 0 = w64 (w.attr.toNat + 2 ^ 62) ∧ s.queryPage va 1 = 0 ∧
    s.queryPage va 2 = w64 (3 + 16 * b2n (s.mem.request? s.cur.sys.ctx.toNat va).isSome +
      32 * b2n (movingAt s.mem s.cur.sys.ctx.toNat va)) := by
  simp only [State.queryPage]
  rw [window]
  exact ⟨rfl, rfl, rfl⟩

theorem queryPage_leaf {pa level : Nat} {e : Word} (plain : findWindow s.cur.wins va = none)
    (leaf : s.walk s.cur.sys.ctx.toNat va = .leaf pa e level) :
    s.queryPage va 0 = e ∧
    s.queryPage va 1 = (if leafHome e = 0 then w64 (frameCount s.mem (leafPa e)) else 0) ∧
    s.queryPage va 2 = w64 (1 + 4 * level + 16 * b2n (s.mem.request? s.cur.sys.ctx.toNat va).isSome +
      32 * b2n (movingAt s.mem s.cur.sys.ctx.toNat va)) := by
  simp only [State.queryPage]
  rw [plain, leaf]
  exact ⟨rfl, rfl, rfl⟩

theorem queryPage_absent (plain : findWindow s.cur.wins va = none)
    (absent : ∀ pa e level, s.walk s.cur.sys.ctx.toNat va ≠ .leaf pa e level) :
    s.queryPage va 0 = 0 ∧ s.queryPage va 1 = 0 ∧
    s.queryPage va 2 = w64 (16 * b2n (s.mem.request? s.cur.sys.ctx.toNat va).isSome +
      32 * b2n (movingAt s.mem s.cur.sys.ctx.toNat va)) := by
  simp only [State.queryPage]
  rw [plain]
  cases walk : s.walk s.cur.sys.ctx.toNat va with
  | leaf pa e level => exact absurd walk (absent pa e level)
  | stop => exact ⟨rfl, rfl, congrArg w64 (by simp [b2n])⟩
  | absent => exact ⟨rfl, rfl, congrArg w64 (by simp [b2n])⟩

end Query

/-! O38, in its three parts -/

section Instructions
variable {r : Ring} {o : F3} {x : Option XP} {s u : State} {vs : List Word} {l : Links} {v : Word}

theorem State.Goes.pageSource {opc : Nat} (goes : s.Goes (pageIssue r opc o x []) vs l) : vs = [vs.headD 0] :=
  eq_of_length_one goes.length

theorem State.Goes.pageSources {opc : Nat} (goes : s.Goes (pageIssue r opc o x [o.b]) vs l) :
    vs = [vs.headD 0, vs.getD 1 0] :=
  eq_of_length_two goes.length

/-- Sources of a page instruction whose first alone names pages. -/
theorem take_one_inside {P : Word → Prop} {vs : List Word} (some' : vs ≠ []) (first : P (vs.headD 0)) :
    ∀ v ∈ vs.take 1, P v := by
  cases vs with
  | nil => exact absurd rfl some'
  | cons a vs => exact List.forall_mem_cons.mpr ⟨first, fun e mem => nomatch mem⟩

theorem take_one_eq {vs : List Word} (some' : vs ≠ []) : vs.take 1 = [] ++ vs.headD 0 :: [] := by
  cases vs with
  | nil => exact absurd rfl some'
  | cons a vs => rfl

theorem take_two_inside {P : Word → Prop} {vs : List Word} (two : vs = [vs.headD 0, vs.getD 1 0])
    (first : P (vs.headD 0)) (second : P (vs.getD 1 0)) : ∀ v ∈ vs.take 2, P v := by
  rw [two]
  exact List.forall_mem_cons.mpr ⟨first, List.forall_mem_cons.mpr ⟨second, fun e mem => nomatch mem⟩⟩

theorem exec_ne_nil {opc : Nat} {extra : List (BitVec 5)} (goes : s.Goes (pageIssue r opc o x extra) vs l) : vs ≠ [] :=
  fun empty => absurd (empty ▸ goes.length) (Nat.succ_ne_zero _).symm

end Instructions

/-- Settles O38: each page instruction makes its checks, then its loop over the pages, each page as R336 and R337 say. -/
theorem pageInstructions : Obligations.PageInstructions := by
  unfold Obligations.PageInstructions
  refine ⟨?_, ?_, ?_⟩
  · intro r o x s u vs l v a b n size bytes q aligned mapped inside place loop idle leaf completes
    have nEq : n = pageCount x := rfl
    have one (opc : Nat) (goes : s.Goes (q opc []) vs l) (ok : inside a) : ∀ v ∈ vs.take 1, PagesInside x v :=
      take_one_inside (exec_ne_nil goes) ok
    have two (opc : Nat) (goes : s.Goes (q opc [o.b]) vs l) (ok : inside a) (ok' : inside b) :
        ∀ v ∈ vs.take 2, PagesInside x v :=
      take_two_inside goes.pageSources ok ok'
    have one' (opc : Nat) (goes : s.Goes (q opc [o.b]) vs l) (ok : inside a) : ∀ v ∈ vs.take 1, PagesInside x v :=
      take_one_inside (exec_ne_nil goes) ok
    have placed (ok : place) :
        Act.check (decide ((vs.getD 1 0).toNat < 16) && decide ((vs.getD 1 0).toNat % 4 ≤ 1)) tRANGE [] s = .ok () s :=
      Act.check_passes s ((Bool.and_eq_true ..).mpr ⟨decide_eq_true ok.1, decide_eq_true ok.2⟩)
    have finishes {i : Instr} {q' : Issue} (P : Nat → State → Prop) {f : PageStep} (holds : P n s)
        (gives : ∀ u v, pageLoop f a size n 0 s = .ok v u → exec i s = u.gives q' l o.d v)
        (quiet : ∀ k s va, P (k + 1) s → s.pageBusy va size = false)
        (page : ∀ k s va, P (k + 1) s → ∃ reason t, reason ≤ 8 ∧ f va s = .ok reason t ∧ P k t) : completes i q' := by
      obtain ⟨t, done, reason, le, small, run⟩ := pageLoop_completes (i := 0) (a := a) P quiet page holds
      exact ⟨t, done, reason, by omega, small, gives t _ run⟩
    have fork (goes : s.Goes (q 0x88 [o.b]) vs l) (ok : inside a) (ok' : inside b) (u : State) (v : Word)
        (run : pageLoop (fun va => forkPage size va (b + (va - a))) a size n 0 s = .ok v u) :
        exec (.pgfork r o x) s = u.gives (q 0x88 [o.b]) l o.d v := by
      rw [exec_pgfork, execPgfork]
      exact pageInstr_gives goes (two _ goes ok ok') rfl run
    have drop (goes : s.Goes (q 0x89 []) vs l) (ok : inside a) (u : State) (v : Word)
        (run : pageLoop (dropOne size) a size n 0 s = .ok v u) :
        exec (.pgdrop r o x) s = u.gives (q 0x89 []) l o.d v := by
      rw [exec_pgdrop, execPgdrop]
      exact pageInstr_gives goes (one _ goes ok) rfl run
    have pin (goes : s.Goes (q 0x8A []) vs l) (ok : inside a) (u : State) (v : Word)
        (run : pageLoop (pinOne size) a size n 0 s = .ok v u) :
        exec (.pgpin r o x) s = u.gives (q 0x8A []) l o.d v := by
      rw [exec_pgpin, execPgpin]
      exact pageInstr_gives goes (one _ goes ok) rfl run
    have unpin (goes : s.Goes (q 0x8B []) vs l) (ok : inside a) (u : State) (v : Word)
        (run : pageLoop (unpinOne size) a size n 0 s = .ok v u) :
        exec (.pgunpin r o x) s = u.gives (q 0x8B []) l o.d v := by
      rw [exec_pgunpin, execPgunpin]
      exact pageInstr_gives goes (one _ goes ok) rfl run
    have move (goes : s.Goes (q 0x8D [o.b]) vs l) (ok : inside a) (to' : place) (u : State) (v : Word)
        (run : pageLoop (movePage size b) a size n 0 s = .ok v u) :
        exec (.pgmove r o x) s = u.gives (q 0x8D [o.b]) l o.d v := by
      rw [exec_pgmove, execPgmove]
      exact pageInstr_gives goes (one' _ goes ok) (placed to') run
    refine ⟨fun goes ok ok' idle => ?_, fun goes ok idle few => ?_, fun goes ok idle => ?_,
      fun pa e goes ok idle single leaf => ?_, fun goes ok to' idle there => ?_, fun goes ok ok' => fork goes ok ok' u v,
      fun goes ok => drop goes ok u v, fun goes ok => pin goes ok u v, fun goes ok => unpin goes ok u v,
      fun goes ok to' => move goes ok to' u v, fun goes ok bad => ?_, fun i goes ok ok' lt bad first => ?_,
      fun goes ok bad => ?_, ?_⟩
    · exact finishes (fun _ => State.PagesIdle) idle (fork goes ok ok') (fun _ _ va idle => idle.pageBusy va size)
        fun _ _ _ idle => forkPage_completes idle
    · refine finishes (fun k t => k = 0 ∨ t.PagesIdle ∧ (k = 1 ∨ t.curCtx.record.poollog2 = 0)) (Or.inr ⟨idle, few⟩)
        (drop goes ok) (fun k t va holds => (holds.resolve_left k.succ_ne_zero).1.pageBusy va size) fun k t va holds => ?_
      obtain ⟨idle, few⟩ := holds.resolve_left k.succ_ne_zero
      obtain ⟨reason, w, small, run, keeps⟩ := dropOne_completes (size := size) (va := va) idle
      refine ⟨reason, w, small, run, few.imp Nat.succ.inj fun unpooled => ?_⟩
      obtain ⟨idle, -, record⟩ := keeps unpooled
      exact ⟨idle, Or.inr (record.symm ▸ unpooled)⟩
    · exact finishes (fun _ => State.PagesIdle) idle (unpin goes ok) (fun _ _ va idle => idle.pageBusy va size)
        fun _ _ _ idle => unpinOne_completes idle
    · obtain ⟨plain, slot, valid⟩ := leaf
      refine pin goes ok _ _ ?_
      have place : pageVa a size 0 = a + w64 0 := by rw [pageVa, Nat.zero_mul]
      have run := pageLoop_page (n := 0) plain (State.PagesIdle.pageBusy idle _ _) (pinOne_pins slot valid)
      rw [if_pos rfl] at run
      rw [single, ← place]
      exact run
    · refine move goes ok to' s _ ?_
      have rest (k i : Nat) (all : i + k = n) : pageLoop (movePage size b) a size k i s = .ok (w64 n) s := by
        induction k generalizing i with
        | zero => exact all ▸ rfl
        | succ k ih =>
          obtain ⟨pa, e, ⟨plain, slot, valid⟩, loose, here, own, pool⟩ := there i (by omega)
          have still : ¬ s.Moves (pageVa a size i) := by simp [State.Moves, idle.1]
          have page := (movePage_leaf (b := b) still slot valid).trans (moveLeaf_there loose own here pool)
          rw [pageLoop_page plain (State.PagesIdle.pageBusy idle _ _) page, if_pos rfl]
          exact ih (i + 1) (by omega)
      exact rest n 0 (Nat.zero_add n)
    · rw [exec_pgfork, execPgfork]
      exact pageInstr_misaligned (a := b) (ws := [a]) (ys := []) goes (by rw [goes.pageSources]; rfl)
        (List.forall_mem_cons.mpr ⟨ok, fun e mem => nomatch mem⟩) bad
    · rw [exec_pgfork, execPgfork]
      exact pageInstr_protects (a := b) (ws := [a]) (ys := []) goes (by rw [goes.pageSources]; rfl)
        (List.forall_mem_cons.mpr ⟨ok, fun e mem => nomatch mem⟩) (take_two_inside goes.pageSources ok.1 ok') lt bad first
    · rw [exec_pgmove, execPgmove]
      refine pageInstr_traps goes (one' _ goes ok) (Act.check_stops s (Bool.eq_false_iff.mpr fun ok => bad ?_))
      obtain ⟨low, kind⟩ := (Bool.and_eq_true ..).mp ok
      exact ⟨of_decide_eq_true low, of_decide_eq_true kind⟩
    · simp only [List.forall_mem_cons]
      refine ⟨⟨fun bad => pageInstr_illegal bad, fun goes bad => ?_, fun i goes ok ok' lt bad first => ?_⟩,
        ⟨fun bad => pageInstr_illegal bad, fun goes bad => ?_, fun i goes ok _ lt bad first => ?_⟩,
        ⟨fun bad => pageInstr_illegal bad, fun goes bad => ?_, fun i goes ok _ lt bad first => ?_⟩,
        ⟨fun bad => pageInstr_illegal bad, fun goes bad => ?_, fun i goes ok _ lt bad first => ?_⟩,
        ⟨fun bad => pageInstr_illegal bad, fun goes bad => ?_, fun i goes ok _ lt bad first => ?_⟩,
        fun e mem => nomatch mem⟩
      · exact pageInstr_misaligned (a := a) (ws := []) (ys := [b]) goes (by rw [goes.pageSources]; rfl)
          (fun e mem => nomatch mem) bad
      · exact pageInstr_protects (a := a) (ws := []) (ys := [b]) goes (by rw [goes.pageSources]; rfl)
          (fun e mem => nomatch mem) (take_two_inside goes.pageSources ok (ok' trivial)) lt bad first
      all_goals have source := take_one_eq (exec_ne_nil goes)
      · exact pageInstr_misaligned goes source (fun e mem => nomatch mem) bad
      · exact pageInstr_protects goes source (fun e mem => nomatch mem) (take_one_inside (exec_ne_nil goes) ok) lt bad first
      · exact pageInstr_misaligned goes source (fun e mem => nomatch mem) bad
      · exact pageInstr_protects goes source (fun e mem => nomatch mem) (take_one_inside (exec_ne_nil goes) ok) lt bad first
      · exact pageInstr_misaligned goes source (fun e mem => nomatch mem) bad
      · exact pageInstr_protects goes source (fun e mem => nomatch mem) (take_one_inside (exec_ne_nil goes) ok) lt bad first
      · exact pageInstr_misaligned goes source (fun e mem => nomatch mem) bad
      · exact pageInstr_protects goes source (fun e mem => nomatch mem) (take_one_inside (exec_ne_nil goes) ok) lt bad first
  · intro r o s vs l w pa level e a ctx q asked moves gives none' goes
    have word (v : Word) (canon : canonical a = true) (value : s.queryPage a o.b.toNat = v) :
        exec (.pgqry r o) s = s.gives q l o.d v := by
      rw [exec_pgqry, execPgqry]
      refine issue_gives goes (Act.bind_eq (a := s) rfl ?_)
      rw [if_pos (show canonical (vs.headD 0) = true from canon), show s.queryPage (vs.headD 0) o.b.toNat = v from value]
      rfl
    refine ⟨fun bad => ?_, fun canon => ⟨fun window => ?_, fun plain leaf => ?_, fun absent => ?_⟩⟩
    · rw [show gives 0 = (exec (.pgqry r o) s = s.gives q l o.d (w64 0)) from rfl, exec_pgqry, execPgqry]
      refine issue_gives goes (Act.bind_eq (a := s) rfl ?_)
      rw [if_neg (Bool.eq_false_iff.mp (show canonical (vs.headD 0) = false from bad))]
      rfl
    · obtain ⟨attr, zero, kind⟩ := queryPage_window window
      exact ⟨fun sel => word _ canon (sel.symm ▸ attr), fun sel => word _ canon (sel.symm ▸ zero),
        fun sel => word _ canon (sel.symm ▸ kind)⟩
    · obtain ⟨entry, count, kind⟩ := queryPage_leaf plain leaf
      refine ⟨fun sel => word _ canon ?_, fun sel => word _ canon ?_, fun sel => word _ canon (sel.symm ▸ kind)⟩
      · rw [sel, entry, w64, BitVec.ofNat_toNat, BitVec.setWidth_eq]
      · rw [sel, count]
        split <;> rfl
    · obtain ⟨zero, one, kind⟩ := queryPage_absent absent.1 absent.2
      refine ⟨fun low => word _ canon ?_, fun sel => word _ canon (sel.symm ▸ kind)⟩
      obtain sel | sel : o.b.toNat = 0 ∨ o.b.toNat = 1 := by omega
      · exact sel.symm ▸ zero
      · exact sel.symm ▸ one
  · intro s t f a va dst b size n i reason pa pt level e d at' ctx size' plain leaf put
    refine ⟨rfl, pageLoop_window, pageLoop_busy, pageLoop_page, fun w slot invalid => ⟨dropOne_invalid slot invalid,
      fun ok => (forkPage_plain ok).trans (validLeaf_invalid slot invalid), _, pinOne_faults slot invalid, rfl, rfl, rfl⟩,
      fun slot => ⟨dropOne_noPath slot, fun ok => (forkPage_plain ok).trans (validLeaf_noPath slot)⟩,
      fun slot => ⟨dropOne_other slot, pinOne_other slot, fun ok => (forkPage_plain ok).trans (validLeaf_other slot)⟩,
      forkPage_window, forkPage_moving, fun ok leaf far => ?_, fun ok leaf near target taken => ?_,
      fun ok leaf near target free => ?_, fun leaf => dropOne_pinned leaf.1 leaf.2, fun leaf => dropOne_drops leaf.1 leaf.2,
      fun leaf => pinOne_pins leaf.1 leaf.2, fun still leaf => ?_, movePage_waits, fun w k j on => getLsbD_setBit on⟩
    · exact (forkPage_plain ok).trans ((validLeaf_leaf leaf.1 leaf.2).trans (forkLeaf_far far))
    · exact (forkPage_plain ok).trans ((validLeaf_leaf leaf.1 leaf.2).trans (forkLeaf_taken near target taken))
    · exact (forkPage_plain ok).trans ((validLeaf_leaf leaf.1 leaf.2).trans (forkLeaf_shares near target free))
    · have run := movePage_leaf (b := b) (fun ⟨m, mem, same⟩ => still m mem same) leaf.1 leaf.2
      exact ⟨fun pinned => run.trans (moveLeaf_pinned pinned),
        fun loose near shared => run.trans (moveLeaf_shared loose near shared),
        fun loose peer => run.trans (moveLeaf_peer loose peer),
        fun loose own here there => run.trans (moveLeaf_there loose own here there)⟩

end Machine
end Sys2Proof

/-! ### Link instructions -/

namespace Sys2Proof
namespace Machine

section Posting
variable {r : Ring} {opc : Nat} {o : F3} {coll arm : Bool} {s u : State} {vs : List Word} {l : Links}

/-- The issue facts of XCPOST and XCARM. -/
abbrev postIssue (r : Ring) (opc : Nat) (o : F3) : Issue := { r.issue .a opc 1 [o.a] [.reg o.d] 1 with async := true }

/-- The state after handle i took the acceptance of the chain at va (R414, R416). -/
def State.postsLinks (u : State) (opc : Nat) (r : Ring) (va : Word) (coll arm : Bool) (i : Nat) : State :=
  (State.setCur { u with net := { u.net with nextW := u.net.nextW + 1 } } fun t =>
    { t with hand := t.hand.set i ⟨true, u.net.nextW, 0, 0, true⟩ }).starting .a opc r
      (.accept va coll arm u.net.nextW none) [] (some .linkChainAcceptance)

variable (goes : s.Goes (postIssue r opc o) vs l)
include goes

theorem postLinks_misaligned (bad : (vs.headD 0).toNat % 64 ≠ 0) :
    postLinks r opc o coll arm s = .next (s.takeTrap .a tALIGN []) :=
  issue_trap goes (Act.check_fails (beq_false_of_ne bad))

variable (aligned : (vs.headD 0).toNat % 64 = 0)
include aligned

theorem postLinks_protects (bad : canonical (vs.headD 0) = false) :
    postLinks r opc o coll arm s = .next (s.takeTrap .a tPROTECT [vs.headD 0]) :=
  issue_trap goes (Act.check_then (beq_iff_eq.mpr aligned) (Act.check_fails bad))

variable (canon : canonical (vs.headD 0) = true)
include canon

theorem postLinks_full (full : (s.cur.hand.findIdx? fun h => !h.held) = none) :
    postLinks r opc o coll arm s =
      (s.starting .a opc r (.accept (vs.headD 0) coll arm 0 none) [] none).gives (postIssue r opc o) l o.d Word.ones := by
  refine issue_next goes (Act.check_then (beq_iff_eq.mpr aligned) (Act.check_then canon (Act.bind_eq (a := s) rfl ?_)))
  rw [full]
  exact Act.then_eq (starting_eq ..) rfl

theorem postLinks_posts {i : Nat} (free : (s.cur.hand.findIdx? fun h => !h.held) = some i)
    (releases : (if arm then Act.pure () else unrepeatAct) s = .ok () u) :
    postLinks r opc o coll arm s = (u.postsLinks opc r (vs.headD 0) coll arm i).gives (postIssue r opc o) l o.d (w64 i) := by
  refine issue_next goes (Act.check_then (beq_iff_eq.mpr aligned) (Act.check_then canon (Act.bind_eq (a := s) rfl ?_)))
  rw [free]
  exact Act.then_eq releases (Act.bind_eq (a := u) rfl (Act.then_eq (a := ()) rfl (Act.then_eq (starting_eq ..) rfl)))

theorem postLinks_waits {i : Nat} (free : (s.cur.hand.findIdx? fun h => !h.held) = some i)
    (waits : unrepeatAct s = .stop (.wait 0 u)) :
    postLinks r opc o coll false s = .next (u.stall .a 0) := by
  refine issue_wait goes (Act.check_then (beq_iff_eq.mpr aligned) (Act.check_then canon (Act.bind_eq (a := s) rfl ?_)))
  rw [free]
  exact Act.bind_of_stop waits

end Posting

section Handles
variable {a : Word} {s : State}

theorem heldHandle_ok {h : LinkH} (low : a.toNat < 16) (named : s.cur.hand.getD a.toNat .free = h) (held : h.held = true) :
    heldHandle a s = .ok h s := by
  subst named
  exact Act.bind_eq (a := s) rfl (Act.check_then ((Bool.and_eq_true ..).mpr ⟨decide_eq_true low, held⟩) rfl)

theorem heldHandle_bad (bad : 16 ≤ a.toNat ∨ (s.cur.hand.getD a.toNat .free).held = false) :
    heldHandle a s = .stop (.trap tRANGE [a]) := by
  refine Act.bind_eq (a := s) rfl (Act.check_fails (Bool.and_eq_false_imp.mpr fun low => ?_))
  exact bad.resolve_left (Nat.not_le.mpr (of_decide_eq_true low))

theorem State.linkQuery_free {n : Nat} (new : (s.cur.hand.getD n .free).held = false) : s.linkQuery 0 n = 255 := by
  have zero (x : Bool) (b c : Nat) (off : x = false) :
      w64 ((if x = true then b else 255) + (if x = true then c else 0) % 2 ^ 32 * 2 ^ 16) = 255 := by
    rw [if_neg (Bool.eq_false_iff.mp off), if_neg (Bool.eq_false_iff.mp off)]
    rfl
  exact zero _ _ _ new

end Handles

/-- Settles O39: posting takes a free handle once its phase is released; waiting and queries read the handles and ports. -/
theorem linkInstructions : Obligations.LinkInstructions := by
  unfold Obligations.LinkInstructions
  intro r o s vs l i h a qp qa qw qq coll fits free takes held since p released
  refine ⟨fun goes ok idle done => ?_, fun goes ok idle out => ?_, fun goes ok idle => ?_, ?_, fun goes held done => ?_,
    fun goes held undone early => ?_, fun goes held undone late => ?_, fun goes bad => ?_, fun goes sel held => ?_,
    fun goes sel low new => ?_, fun goes sel low => ?_, fun goes sel => ?_, fun goes sel => ?_, fun goes sel high => ?_⟩
  · rw [exec_xcpost, execXcpost]
    exact postLinks_posts goes ok.1 ok.2 idle (unrepeatAct_ok done.1 done.2)
  · rw [exec_xcpost, execXcpost]
    exact postLinks_waits goes ok.1 ok.2 idle (unrepeatAct_waits out)
  · rw [exec_xcarm, execXcarm]
    exact postLinks_posts goes ok.1 ok.2 idle rfl
  · simp only [List.forall_mem_cons]
    refine ⟨fun goes => ?_, fun goes => ?_, fun e mem => nomatch mem⟩
    · rw [exec_xcpost, execXcpost]
      exact ⟨fun ok full => postLinks_full goes ok.1 ok.2 full, postLinks_misaligned goes, postLinks_protects goes⟩
    · rw [exec_xcarm, execXcarm]
      exact ⟨fun ok full => postLinks_full goes ok.1 ok.2 full, postLinks_misaligned goes, postLinks_protects goes⟩
  · obtain ⟨low, named, used⟩ := held
    rw [exec_xcwait, execXcwait]
    refine issue_next goes (Act.bind_eq (heldHandle_ok low named used) (Act.then_eq (a := ()) (t := s) ?_
      (Act.then_eq (a := ()) rfl rfl)))
    rw [holdWait, if_pos (bne_iff_ne.mpr done)]
    rfl
  · obtain ⟨low, named, used⟩ := held
    rw [exec_xcwait, execXcwait]
    refine issue_wait goes (Act.bind_eq (heldHandle_ok low named used) (Act.bind_of_stop ?_))
    rw [undone]
    exact holdWait_waits early
  · obtain ⟨low, named, used⟩ := held
    rw [exec_xcwait, execXcwait]
    refine issue_trap goes (Act.bind_eq (heldHandle_ok low named used) (Act.bind_of_stop ?_))
    rw [undone]
    exact holdWait_times_out late
  · rw [exec_xcwait, execXcwait]
    exact issue_trap goes (Act.bind_of_stop (heldHandle_bad bad))
  · obtain ⟨low, named, used⟩ := held
    rw [exec_xcqry, execXcqry]
    refine issue_gives goes (Act.check_then (Bool.or_eq_true_iff.mpr (Or.inr (decide_eq_true low)))
      (Act.bind_eq (a := s) rfl ?_))
    rw [sel, State.linkQuery, show s.cur.hand.getD (vs.headD 0).toNat .free = h from named, used]
    rfl
  · rw [exec_xcqry, execXcqry]
    refine issue_gives goes (Act.check_then (Bool.or_eq_true_iff.mpr (Or.inr (decide_eq_true low)))
      (Act.bind_eq (a := s) rfl ?_))
    rw [sel, State.linkQuery_free new]
    rfl
  · rw [exec_xcqry, execXcqry]
    refine issue_gives goes (Act.check_then (Bool.or_eq_true_iff.mpr (Or.inr (decide_eq_true low)))
      (Act.bind_eq (a := s) rfl ?_))
    rw [sel]
    rfl
  · rw [exec_xcqry, execXcqry]
    refine issue_gives goes (Act.check_then (Bool.or_eq_true_iff.mpr (Or.inl (decide_eq_true (Nat.le_of_eq sel.symm))))
      (Act.bind_eq (a := s) rfl ?_))
    rw [sel, State.linkQuery, List.countP_eq_length_filter]
    rfl
  · rw [exec_xcqry, execXcqry]
    refine issue_gives goes (Act.check_then (Bool.or_eq_true_iff.mpr (Or.inl (decide_eq_true (by omega))))
      (Act.bind_eq (a := s) rfl ?_))
    rw [sel]
    rfl
  · rw [exec_xcqry, execXcqry]
    refine issue_trap goes (Act.check_fails (Bool.or_eq_false_iff.mpr ⟨decide_eq_false (Nat.not_le.mpr sel), ?_⟩))
    exact decide_eq_false (Nat.not_lt.mpr high)

end Machine
end Sys2Proof

/-! ### Sequence instructions -/

namespace Sys2Proof
namespace Machine

theorem enterOrdered_ok {s u : State} {e : BufEntry}
    (room : s.Room (decide (s.cur.ph.buf.length < Config.bufEntries)) u) :
    enterOrdered e s = .ok () (u.orderedEntry e) :=
  Act.then_eq (bufferRoom_ok (fits := fun buf => decide (buf.length < Config.bufEntries)) room) rfl

section Named
variable {a : Word} {s : State} {k : Sequence}

theorem sequenceArg_ok (named : a.toNat < 65536 ∧ SMap.get? s.strm.seqs (s.cur.sys.ctx.toNat * 65536 + a.toNat) = some k) :
    sequenceArg a s = .ok k s := by
  refine Act.bind_eq (a := s) rfl ?_
  rw [if_pos named.1, seqKey, named.2]
  rfl

theorem sequenceArg_bad (bad : ¬ (a.toNat < 65536 ∧
    (SMap.get? s.strm.seqs (s.cur.sys.ctx.toNat * 65536 + a.toNat)).isSome = true)) :
    sequenceArg a s = .stop (.trap tRANGE [a]) := by
  refine Act.bind_eq (a := s) rfl ?_
  by_cases low : a.toNat < 65536
  · have absent : SMap.get? s.strm.seqs (s.cur.sys.ctx.toNat * 65536 + a.toNat) = none :=
      Option.not_isSome_iff_eq_none.mp fun held => bad ⟨low, held⟩
    rw [if_pos low, seqKey, absent]
    rfl
  · rw [if_neg low]
    rfl

/-- Whether the strand may open the sequence or change its sinks (R433, R436). -/
def Sequence.FreeFor (k : Sequence) (key : Nat) : Prop := k.opened = none ∨ k.opened = some key

theorem Sequence.freeFor_iff (k : Sequence) (key : Nat) :
    (k.opened.isNone || k.opened == some key) = true ↔ k.FreeFor key := by
  simp [Sequence.FreeFor]

theorem stepFree_ok {opc : Nat} (free : k.FreeFor s.cur.key) : stepFree a opc k s = .ok () s := by
  refine Act.bind_eq (a := s) rfl ?_
  rw [holdWait, if_pos ((k.freeFor_iff _).mpr free)]
  rfl

variable (held : ¬ k.FreeFor s.cur.key)
include held

theorem stepFree_waits {opc : Nat} (early : s.clock - (s.cur.engine .a).since.getD s.clock < s.holdPeriods) :
    stepFree a opc k s = .stop (.wait 0 (s.waitsSince .a)) := by
  refine Act.bind_eq (a := s) rfl ?_
  rw [Bool.eq_false_iff.mpr fun free => held ((k.freeFor_iff _).mp free)]
  exact holdWait_waits early

theorem stepFree_times_out {opc : Nat} (late : s.holdPeriods ≤ s.clock - (s.cur.engine .a).since.getD s.clock) :
    stepFree a opc k s = .stop (.trap tTIMEOUT
      [a, w64 opc, w64 ((s.clock - (s.cur.engine .a).since.getD s.clock) / Config.periodsPerNs / 1000),
        s.cur.sys.phasen.setWidth 64]) := by
  refine Act.bind_eq (a := s) rfl ?_
  rw [Bool.eq_false_iff.mpr fun free => held ((k.freeFor_iff _).mp free)]
  exact holdWait_times_out late

end Named

section Step
variable {a : Word} {s : State} {k : Sequence} {c n : Nat}

theorem openStep_ok (opened : s.cur.step = some (c, n)) (held : SMap.get? s.strm.seqs (c * 65536 + n) = some k) :
    openStep a s = .ok (n, k) s := by
  refine Act.bind_eq (a := s) rfl ?_
  rw [opened]
  show (match SMap.get? s.strm.seqs (seqKey c n) with
    | some q => Act.pure (n, q)
    | none => Act.trap tRANGE [a] : Act (Nat × Sequence)) s = _
  rw [seqKey, held]
  rfl

theorem openStep_absent (absent : s.cur.step = none) : openStep a s = .stop (.trap tRANGE [a]) := by
  refine Act.bind_eq (a := s) rfl ?_
  rw [absent]
  rfl

end Step

theorem all_layers_iff {n : Nat} {p : Nat → Prop} [DecidablePred p] :
    ((tab n id).all fun j => decide (p j)) = true ↔ ∀ j, j < n → p j := by
  rw [tab_eq_map, List.map_id, List.all_eq_true]
  simp [List.mem_range]

/-- Settles O40: opening, appending, committing and closing a step, and the sinks of a sequence. -/
theorem sequenceInstructions : Obligations.SequenceInstructions := by
  unfold Obligations.SequenceInstructions
  intro r o s u vs l k n a b ctx room q qo qa qc qx qs named free since waiting late opened cursor pos entry
  have open' (opened : opened) (a : Word) : openStep a s = .ok (n, k) s := openStep_ok opened.1 opened.2
  have cursorEq : s.cursor n k = cursor := rfl
  refine ⟨fun goes named idle free => ?_, fun goes named idle => ?_, fun goes opened layer low fits room => ?_,
    fun goes opened layer => ?_, fun goes opened layer bad => ?_, fun goes opened fits room => ?_,
    fun j goes opened layer bad => ?_, fun idle => ⟨fun goes => ?_, fun goes => ?_, fun goes => ?_⟩,
    fun goes opened room => ?_, fun goes named low free => ?_, fun goes named high => ?_, ?_⟩
  · rw [exec_stbindOpen, execStbindOpen]
    exact issue_next goes (Act.bind_eq (sequenceArg_ok named) (Act.bind_eq (a := s) rfl
      (Act.check_then (Option.isNone_iff_eq_none.mpr idle) (Act.then_eq (stepFree_ok free) (Act.then_eq (a := ()) rfl rfl)))))
  · rw [exec_stbindOpen, execStbindOpen]
    exact issue_trap goes (Act.bind_eq (sequenceArg_ok named) (Act.bind_eq (a := s) rfl
      (Act.check_fails (Option.isNone_eq_false_iff.mpr (Option.isSome_iff_ne_none.mpr idle)))))
  · rw [exec_stbindAppend, execStbindAppend]
    exact issue_next goes (Act.bind_eq (open' opened _) (Act.check_then (decide_eq_true layer)
      (Act.check_then (decide_eq_true low) (Act.bind_eq (a := s) rfl (Act.check_then (decide_eq_true fits)
        (Act.then_eq (Act.then_eq (enterOrdered_ok room) rfl) rfl))))))
  · rw [exec_stbindAppend, execStbindAppend]
    exact issue_trap goes (Act.bind_eq (open' opened _) (Act.check_fails (decide_eq_false (Nat.not_lt.mpr layer))))
  · rw [exec_stbindAppend, execStbindAppend]
    refine issue_trap goes (Act.bind_eq (open' opened _) (Act.check_then (decide_eq_true layer) ?_))
    by_cases low : b.toNat < 2 ^ 32
    · have over' := bad.resolve_left (Nat.not_le.mpr low)
      exact Act.check_then (decide_eq_true low) (Act.bind_eq (a := s) rfl
        (Act.check_fails (decide_eq_false (Nat.not_le.mpr over'))))
    · exact Act.check_fails (decide_eq_false low)
  · rw [exec_stbindCommit, execStbindCommit]
    exact issue_next goes (Act.bind_eq (open' opened _) (Act.bind_eq (a := s) rfl
      (Act.check_then (all_layers_iff.mpr fits) (Act.then_eq (enterOrdered_ok room) rfl))))
  · rw [exec_stbindCommit, execStbindCommit]
    refine issue_trap goes (Act.bind_eq (open' opened _) (Act.bind_eq (a := s) rfl (Act.check_fails ?_)))
    exact Bool.eq_false_iff.mpr fun all => Nat.not_le.mpr bad (all_layers_iff.mp all j layer)
  · rw [exec_stbindAppend, execStbindAppend]
    exact issue_trap goes (Act.bind_of_stop (openStep_absent idle))
  · rw [exec_stbindCommit, execStbindCommit]
    exact issue_trap goes (Act.bind_of_stop (openStep_absent idle))
  · rw [exec_stbindClose, execStbindClose]
    refine issue_ends goes (Act.bind_eq (a := s) rfl ?_)
    rw [idle]
    rfl
  · rw [exec_stbindClose, execStbindClose]
    refine issue_next goes (Act.bind_eq (a := s) rfl ?_)
    rw [opened]
    exact Act.then_eq (enterOrdered_ok room) rfl
  · rw [exec_stsink, execStsink]
    exact issue_next goes (Act.bind_eq (sequenceArg_ok named) (Act.check_then (decide_eq_true low)
      (Act.then_eq (stepFree_ok free) (Act.then_eq (a := ()) rfl rfl))))
  · rw [exec_stsink, execStsink]
    exact issue_trap goes (Act.bind_eq (sequenceArg_ok named) (Act.check_fails (decide_eq_false (Nat.not_le.mpr high))))
  · simp only [List.forall_mem_cons]
    refine ⟨fun goes => ⟨fun bad => ?_, fun named idle low held early => ?_, fun named idle low held late => ?_⟩,
      fun goes => ⟨fun bad => ?_, fun named idle low held early => ?_, fun named idle low held late => ?_⟩,
      fun e mem => nomatch mem⟩
    · rw [exec_stbindOpen, execStbindOpen]
      exact issue_trap goes (Act.bind_of_stop (sequenceArg_bad bad))
    · rw [exec_stbindOpen, execStbindOpen]
      exact issue_wait goes (Act.bind_eq (sequenceArg_ok named) (Act.bind_eq (a := s) rfl
        (Act.check_then (Option.isNone_iff_eq_none.mpr idle) (Act.bind_of_stop (stepFree_waits held early)))))
    · rw [exec_stbindOpen, execStbindOpen]
      exact issue_trap goes (Act.bind_eq (sequenceArg_ok named) (Act.bind_eq (a := s) rfl
        (Act.check_then (Option.isNone_iff_eq_none.mpr idle) (Act.bind_of_stop (stepFree_times_out held late)))))
    · rw [exec_stsink, execStsink]
      exact issue_trap goes (Act.bind_of_stop (sequenceArg_bad bad))
    · rw [exec_stsink, execStsink]
      exact issue_wait goes (Act.bind_eq (sequenceArg_ok named) (Act.check_then (decide_eq_true low)
        (Act.bind_of_stop (stepFree_waits held early))))
    · rw [exec_stsink, execStsink]
      exact issue_trap goes (Act.bind_eq (sequenceArg_ok named) (Act.check_then (decide_eq_true low)
        (Act.bind_of_stop (stepFree_times_out held late))))

end Machine
end Sys2Proof

/-! ### Stream instructions -/

namespace Sys2Proof
namespace Machine

theorem Token32.bytes_length (x : Token32) : x.bytes.length = 32 := by
  simp [Token32.bytes, leBytes_length]

theorem stepFacts_ok {s : State} {f : StepFacts} (step : s.stepOf = some f) : stepFacts s = .ok f s := by
  refine Act.bind_eq (a := s) rfl ?_
  rw [step]
  rfl

theorem stepFacts_absent {s : State} (step : s.stepOf = none) : stepFacts s = .stop (.trap tSTREAM []) := by
  refine Act.bind_eq (a := s) rfl ?_
  rw [step]
  rfl

theorem State.updStream_of {s : State} {ctx sid : Nat} {v : Stream} (f : Stream → Stream) (held : s.stream? ctx sid = some v) :
    s.updStream (streamKey ctx sid) f = s.setStream ctx sid (f v) := by
  rw [State.updStream, show SMap.get? s.strm.streams (streamKey ctx sid) = some v from held]
  rfl

/-- A heal of on-package storage changes memory alone. -/
theorem State.heal_strm (s : State) (st : Store) (addr n : Nat) : (s.heal st addr n).strm = s.strm := by
  simp only [State.heal]
  split <;> rfl

/-- Settles O41: STTAKE takes the due records in order, STTICK and STLATE read the step's and the stream's facts. -/
theorem streamInstructions : Obligations.StreamInstructions := by
  unfold Obligations.StreamInstructions
  intro r o s vs l f v t k a b ctx qt qk ql step before due stamps left u blocked
  refine ⟨fun goes ofStep low tile rw' stream ready buf quiet tile' stream' seq => ?_,
    fun goes ofStep low tile rw' stream some' busy => ?_, ?_, ?_, fun goes high => ?_,
    fun absent => ⟨fun goes => ?_, fun goes => ?_⟩, Token32.bytes_length⟩
  · have free : (due.length == 0 || !s.rowsBusy a.toNat 0 ((32 * due.length + t.rb - 1) / t.rb)) = true := by
      obtain empty | free := ready
      · rw [empty]
        rfl
      · exact Bool.or_eq_true_iff.mpr (Or.inr (Bool.not_eq_true' _ ▸ Bool.eq_false_iff.mpr free))
    let w := u.heal t.store (u.tileSpot t t.half 0) (32 * due.length)
    have healed : w.cur.tile? a.toNat = some t := by rw [State.heal_cur, tile']
    have stays : (w.setCur fun c => c.setTile a.toNat (t.setFront (t.front.put 0 (due.map Token32.bytes).flatten))).stream? ctx
        f.sid = some v := by
      rw [← stream', State.stream?, State.stream?, ← u.heal_strm t.store (u.tileSpot t t.half 0) (32 * due.length)]
      rfl
    rw [exec_sttake, execSttake]
    refine issue_next goes (Act.bind_eq (stepFacts_ok ofStep) (Act.bind_eq (writable_ok low tile rw')
      (Act.bind_eq (a := s) rfl (Act.until_then ?_ (Act.then_eq (unrepeatAct_ok buf quiet) (Act.bind_eq (a := u) rfl ?_))))))
    · simp only [show s.stream? s.cur.sys.ctx.toNat f.sid = some v from stream]
      exact free
    · simp only [show u.stream? s.cur.sys.ctx.toNat f.sid = some v from stream',
        show SMap.get? u.strm.seqs (seqKey s.cur.sys.ctx.toNat v.seq) = some k from seq]
      refine Act.then_eq (a := ()) (t := w) rfl (Act.then_eq (updTile_ok _ healed) (Act.then_eq (a := ()) ?_ rfl))
      exact congrArg (fun x : State => Res.ok () ((x.setCur fun t =>
        { t with took := t.took + due.length }).postOnce .streamRecordAdmit ctx f.sid)) (State.updStream_of _ stays)
  · have busy' : (due.length == 0 || !s.rowsBusy a.toNat 0 ((32 * due.length + t.rb - 1) / t.rb)) = false := by
      refine Bool.or_eq_false_iff.mpr ⟨beq_false_of_ne fun empty => some' (List.eq_nil_of_length_eq_zero empty), ?_⟩
      exact Bool.not_eq_false' _ ▸ busy
    rw [exec_sttake, execSttake]
    refine issue_wait goes (Act.bind_eq (stepFacts_ok ofStep) (Act.bind_eq (writable_ok low tile rw')
      (Act.bind_eq (a := s) rfl (Act.until_waits ?_))))
    simp only [show s.stream? s.cur.sys.ctx.toNat f.sid = some v from stream]
    exact busy'
  · simp only [List.forall_mem_cons]
    refine ⟨fun goes ofStep sel => ?_, fun goes ofStep sel => ?_, fun goes ofStep sel => ?_, fun goes ofStep sel => ?_,
      fun e mem => nomatch mem⟩ <;>
    · rw [exec_sttick, execSttick]
      refine issue_gives goes (Act.bind_eq (stepFacts_ok ofStep) ?_)
      rw [sel]
      rfl
  · simp only [List.forall_mem_cons]
    refine ⟨fun goes low stream sel => ?_, fun goes low stream sel => ?_, fun goes low stream sel => ?_,
      fun goes low stream sel => ?_, fun e mem => nomatch mem⟩ <;>
    · rw [exec_stlate, execStlate]
      refine issue_gives goes (Act.bind_eq (a := s) rfl (Act.check_then (decide_eq_true low) ?_))
      rw [show s.stream? s.cur.sys.ctx.toNat (vs.headD 0).toNat = some v from stream, sel]
      rfl
  · rw [exec_stlate, execStlate]
    exact issue_trap goes (Act.bind_eq (a := s) rfl (Act.check_fails (decide_eq_false (Nat.not_lt.mpr high))))
  · rw [exec_sttake, execSttake]
    exact issue_trap goes (Act.bind_of_stop (stepFacts_absent absent))
  · rw [exec_sttick, execSttick]
    exact issue_trap goes (Act.bind_of_stop (stepFacts_absent absent))

end Machine
end Sys2Proof

/-! ### Trace instructions -/

namespace Sys2Proof
namespace Machine

section Marks
variable {r : Ring} {opc : Nat} {srcs : List (BitVec 5)} {body : List Word → Act Done} {s : State} {vs : List Word} {l : Links}
  {code : Nat} {p0 : W32} {p1 : Word}

theorem markIssue_bad (goes : s.Goes (r.issue .a opc 1 srcs [] 1) vs l) (bad : 256 ≤ (vs.getD 1 0).toNat) :
    markIssue r opc srcs body s = .next (s.takeTrap .a tRANGE [vs.getD 1 0]) :=
  issue_trap goes (Act.check_fails (decide_eq_false (Nat.not_lt.mpr bad)))

variable (goes : s.Goes (r.issue .a opc 1 srcs [] 1) vs l) (low : (vs.getD 1 0).toNat < 256)
  (mark : body vs = markAct code p0 p1)
include goes low mark

theorem markIssue_emits (new : (s.cur.engine .a).since = none)
    (room : ¬ (s.emitCore .a code p0 p1).emitting (4 * (s.emitCore .a code p0 p1).cur.key) = true) :
    markIssue r opc srcs body s = (s.emitCore .a code p0 p1).ends (r.issue .a opc 1 srcs [] 1) l := by
  refine issue_next goes (Act.check_then (decide_eq_true low) (mark ▸ Act.bind_eq (a := s) rfl ?_))
  rw [new]
  exact if_neg room

theorem markIssue_waits (new : (s.cur.engine .a).since = none)
    (full : (s.emitCore .a code p0 p1).emitting (4 * (s.emitCore .a code p0 p1).cur.key) = true) :
    markIssue r opc srcs body s = .next (((s.emitCore .a code p0 p1).setEng .a fun e =>
      { e with since := some (s.emitCore .a code p0 p1).clock }).stall .a 0) := by
  refine issue_wait goes (Act.check_then (decide_eq_true low) (mark ▸ Act.bind_eq (a := s) rfl ?_))
  rw [new]
  exact if_pos full

theorem markIssue_retires (emitted : (s.cur.engine .a).since ≠ none) :
    markIssue r opc srcs body s = s.ends (r.issue .a opc 1 srcs [] 1) l := by
  refine issue_ends goes (Act.check_then (decide_eq_true low) (mark ▸ Act.bind_eq (a := s) rfl ?_))
  rw [if_pos (Option.isSome_iff_ne_none.mpr emitted)]
  rfl

end Marks

theorem spanWord_eq (stop : Bool) (a : Word) :
    spanWord stop a = BitVec.ofNat 32 (a.toNat % 2 ^ 31 + b2n stop * 2 ^ 31) := by
  rw [spanWord, getBits_low]

/-- Settles O42: marks and spans emit or wait, TRQRY reads counters, STATERD reads what it names. -/
theorem traceInstructions : Obligations.TraceInstructions := by
  unfold Obligations.TraceInstructions
  intro r o s vs l a b q sel qq qr span waits
  refine ⟨?_, fun goes zero low => ?_, fun goes one low => ?_, fun goes two => ?_, fun goes three => ?_, fun goes bad => ?_,
    fun user => ?_, fun v priv goes known => ?_, fun priv goes absent => ?_⟩
  · simp only [List.forall_mem_cons]
    refine ⟨fun goes => ?_, fun goes => ?_, fun goes => ?_, fun goes => ?_, fun e mem => nomatch mem⟩
    · rw [exec_trmark, execTrmark]
      exact ⟨fun low => markIssue_emits goes low rfl, fun low => markIssue_waits goes low rfl,
        fun low => markIssue_retires goes low rfl, markIssue_bad goes⟩
    · rw [exec_trmarkL, execTrmarkL]
      exact ⟨fun low => markIssue_emits goes low rfl, fun low => markIssue_waits goes low rfl,
        fun low => markIssue_retires goes low rfl, markIssue_bad goes⟩
    · have word : spanWord false (vs.headD 0) = span 0 := spanWord_eq false _
      have mark := congrArg (fun p => markAct (0x700 + b.toNat) p 0) word
      rw [exec_trspanBegin, execTrspanBegin]
      exact ⟨fun low => markIssue_emits goes low mark, fun low => markIssue_waits goes low mark,
        fun low => markIssue_retires goes low mark, markIssue_bad goes⟩
    · have word : spanWord true (vs.headD 0) = span 1 := spanWord_eq true _
      have mark := congrArg (fun p => markAct (0x700 + b.toNat) p 0) word
      rw [exec_trspanEnd, execTrspanEnd]
      exact ⟨fun low => markIssue_emits goes low mark, fun low => markIssue_waits goes low mark,
        fun low => markIssue_retires goes low mark, markIssue_bad goes⟩
  · have sel' : o.b.toNat = 0 := zero
    simp only [exec_trqry, execTrqry]
    refine issue_gives goes (Act.check_then (Bool.or_eq_true_iff.mpr (Or.inr ?_)) (Act.bind_eq (a := s) rfl ?_))
    · rw [if_pos sel']
      exact decide_eq_true low
    · rw [sel']
      rfl
  · have sel' : o.b.toNat = 1 := one
    simp only [exec_trqry, execTrqry]
    refine issue_gives goes (Act.check_then (Bool.or_eq_true_iff.mpr (Or.inr ?_)) (Act.bind_eq (a := s) rfl ?_))
    · rw [if_neg (by omega)]
      exact decide_eq_true low
    · rw [sel']
      rfl
  · have sel' : o.b.toNat = 2 := two
    simp only [exec_trqry, execTrqry]
    refine issue_gives goes (Act.check_then (Bool.or_eq_true_iff.mpr (Or.inl (decide_eq_true (by omega))))
      (Act.bind_eq (a := s) rfl ?_))
    rw [sel']
    rfl
  · have sel' : o.b.toNat = 3 := three
    simp only [exec_trqry, execTrqry]
    refine issue_gives goes (Act.check_then (Bool.or_eq_true_iff.mpr (Or.inl (decide_eq_true (by omega))))
      (Act.bind_eq (a := s) rfl ?_))
    rw [sel']
    rfl
  · simp only [exec_trqry, execTrqry]
    refine issue_trap goes (Act.check_fails (Bool.or_eq_false_iff.mpr ?_))
    obtain ⟨zero, high⟩ | ⟨one, high⟩ := bad
    · have sel' : o.b.toNat = 0 := zero
      exact ⟨decide_eq_false (by omega), by rw [if_pos sel']; exact decide_eq_false (Nat.not_lt.mpr high)⟩
    · have sel' : o.b.toNat = 1 := one
      exact ⟨decide_eq_false (by omega), by rw [if_neg (by omega)]; exact decide_eq_false (Nat.not_lt.mpr high)⟩
  · rw [exec_staterd, execStaterd, user]
    rfl
  · rw [exec_staterd, execStaterd, priv, if_neg (by decide)]
    refine issue_next goes (Act.bind_eq (a := s) rfl ?_)
    rw [show s.inspect s.cur.sys.ctx.toNat s.curCtx.fn (vs.headD 0) = some v from known]
    exact Act.then_eq (a := ()) rfl rfl
  · rw [exec_staterd, execStaterd, priv, if_neg (by decide)]
    refine issue_trap goes (Act.bind_eq (a := s) rfl ?_)
    rw [show s.inspect s.cur.sys.ctx.toNat s.curCtx.fn (vs.headD 0) = none from absent]
    rfl

end Machine
end Sys2Proof

/-! ### Element-wise vector instructions -/

namespace Sys2Proof

/-! Special functions (R51, R52, R234) -/

namespace SpecFn
variable (fn : SpecFn) (fmt : Fmt) {e : Nat}

theorem near_ne_nil (x : Val) : fn.near x fmt ≠ [] := by
  simp only [SpecFn.near]
  split
  · split
    · exact List.cons_ne_nil _ _
    · split
      · exact List.cons_ne_nil _ _
      · split <;> exact List.cons_ne_nil _ _
  · exact List.cons_ne_nil _ _

/-- Inside the fast interval some encoding next to the exact value is delivered. -/
theorem apply_fast (fast : fn.fast fmt e = true) : (fn.apply fmt e).enc ∈ fn.near (exact fmt e) fmt := by
  rw [SpecFn.apply, if_pos fast]
  have some' : 0 < (fn.near (exact fmt e) fmt).length := List.length_pos_iff.mpr (fn.near_ne_nil fmt _)
  have inside := Nat.mod_lt (Config.fastPick fn.code e fmt.bits) some'
  show (fn.near (exact fmt e) fmt).getD (Config.fastPick fn.code e fmt.bits % _) _ ∈ _
  rw [List.getD_eq_getElem?_getD, List.getElem?_eq_getElem inside, Option.getD_some]
  exact List.getElem_mem inside

theorem apply_slow (slow : fn.fast fmt e = false) : (fn.apply fmt e).enc = fn.nearest (exact fmt e) fmt 0 := by
  rw [SpecFn.apply, if_neg (Bool.eq_false_iff.mp slow)]
  rfl

theorem slow_of_special {y : Val} (special : fn.special (exact fmt e) = some y) : fn.fast fmt e = false := by
  simp [SpecFn.fast, special]

theorem nearest_special {x y : Val} (special : fn.special x = some y) : fn.nearest x fmt 0 = round y fmt 0 := by
  rw [SpecFn.nearest, SpecFn.rounded, special]
  rfl

end SpecFn

namespace Machine

theorem specialLane_prompt (fn : SpecFn) (v : XV) (i : Nat) (a b c : W32) :
    (specialLane fn v (fun _ => false) i a b c).v = (fn.apply v.format (pick v.format.bits v.sela.toNat a)).enc := rfl

section Elements
variable {r : Ring} {opc : Nat} {o : F3} {x : Option XV} {q : VIssue} {ub uc : Bool}
  {f : XV → (Nat → Bool) → Nat → W32 → W32 → W32 → Lane} {lane : (Nat → Bool) → Nat → W32 → W32 → W32 → Lane} {s : State}
  {l : Links}

/-- The issue facts of an element-wise instruction. -/
abbrev laneIssue (q : VIssue) (o : F3) (ub uc : Bool) (w : XV) : VIssue :=
  { q with
    vecs := [o.a.toNat] ++ (if ub then [o.b.toNat] else []) ++ (if uc then [w.c.toNat] else []), names := .vec o.d.toNat :: q.names }

/-- An element-wise instruction writes what its lane function gives, however that is written. -/
theorem elementwise_lanes (goes : s.Goes ((laneIssue q o ub uc (s.cur.xv x)).issue r opc x s.cur) [] l)
    (same : f (s.cur.xv x) = lane) :
    elementwise r opc o x q ub uc f s =
      let w := s.cur.xv x
      let late := s.late (q.fp && w.format.isFp)
      let a := s.cur.x.vec o.a.toNat
      let ls := laneMap (s.cur.governs w) (lane late.1) a (if ub then s.cur.x.vec o.b.toNat else a)
        (if uc then s.cur.x.vec w.c.toNat else a)
      (late.2.counted w.format ls).writes ((laneIssue q o ub uc w).issue r opc x s.cur) l
        [.vec o.d.toNat (s.cur.governs w) (ls.map fun k => BitVec.ofNat 32 k.v)] := by
  subst same
  exact elementwise_next goes

end Elements

/-- A difference written as a sum. -/
theorem arithLane_sub (v : XV) : arithLane (fun rnd a b _ => Val.sub rnd a b) (fun a b _ => a - b) false v =
    arithLane (fun rnd a b _ => Val.add rnd a b.negate) (fun a b _ => a + -1 * b) false v := by
  congr 1
  funext a b _
  omega

theorem arithLane_add (v : XV) : arithLane (fun rnd a b _ => Val.add rnd a b) (fun a b _ => a + b) false v =
    arithLane (fun rnd a b _ => Val.add rnd a b) (fun a b _ => a + 1 * b) false v := by
  congr 1
  funext a b _
  omega

/-- Settles O43: each element-wise instruction writes its lanes, and a special function delivers what R51 and R52 allow. -/
theorem vectorElements : Obligations.VectorElements := by
  unfold Obligations.VectorElements
  intro r o x e s l v elements regA regB two one plain2 plain1 p p' rounded whole sum product fused extreme signed
  refine ⟨fun goes => ?_, fun goes => ?_, fun goes => ?_, fun goes => ?_, fun goes => ?_, fun goes => ?_, fun goes => ?_,
    fun goes => ?_, fun goes => ?_, fun goes => ?_, fun goes => ?_, fun goes => ?_, fun goes => ?_, fun goes => ?_,
    fun goes => ?_, fun goes => ?_, ?_, ?_, fun fn a b c i _ => ⟨fun y special => ?_, fun slow => ?_, fun fast => ?_⟩⟩
  · rw [exec_vadd, execVadd, arith]
    exact elementwise_lanes (lane := fun late i a b _ => sum v false late i a b) goes (by
      rw [arithLane_add]
      rfl)
  · rw [exec_vsub, execVsub, arith]
    exact elementwise_lanes (lane := fun late i a b _ => sum v true late i a b) goes (by
      rw [arithLane_sub]
      rfl)
  · rw [exec_vmul, execVmul, arith]
    exact elementwise_next goes
  · rw [exec_vfma, execVfma]
    exact elementwise_next goes
  · rw [exec_vmin, execVmin, minMax]
    exact elementwise_next goes
  · rw [exec_vmax, execVmax, minMax]
    exact elementwise_next goes
  · rw [exec_vabs, execVabs, signOp]
    exact elementwise_next goes
  · rw [exec_vneg, execVneg, signOp]
    exact elementwise_next goes
  · rw [exec_vand, execVand, bitwise]
    exact elementwise_next goes
  · rw [exec_vor, execVor, bitwise]
    exact elementwise_next goes
  · rw [exec_vxor, execVxor, bitwise]
    exact elementwise_next goes
  · rw [exec_vnot, execVnot, bitwise]
    exact elementwise_next goes
  · rw [exec_vshl, execVshl, bitwise]
    exact elementwise_next goes
  · rw [exec_vshr, execVshr, bitwise]
    exact elementwise_next goes
  · rw [exec_vsra, execVsra, bitwise]
    exact elementwise_next goes
  · rw [exec_vmov, execVmov, bitwise]
    exact elementwise_next goes
  · intro f goes
    simp only [exec_vcvt, execVcvt]
    refine issue_next goes (Act.bind_eq (late_ok ..) (Act.bind_eq (a := (s.late e.format.isFp).2) rfl ?_))
    rw [late_cur]
    simp only [rounded, List.any_cons, List.any_nil, Bool.or_false]
    exact lanesDone_ok ..
  · simp only [List.forall_mem_cons]
    refine ⟨fun goes => ?_, fun goes => ?_, fun goes => ?_, fun goes => ?_, fun goes => ?_, fun goes => ?_, fun goes => ?_,
      fun goes => ?_, fun e mem => nomatch mem⟩
    · rw [exec_vexp2, execVexp2, specialFn]
      exact elementwise_next goes
    · rw [exec_vlog2, execVlog2, specialFn]
      exact elementwise_next goes
    · rw [exec_vrcp, execVrcp, specialFn]
      exact elementwise_next goes
    · rw [exec_vrsq, execVrsq, specialFn]
      exact elementwise_next goes
    · rw [exec_vtanh, execVtanh, specialFn]
      exact elementwise_next goes
    · rw [exec_vsigm, execVsigm, specialFn]
      exact elementwise_next goes
    · rw [exec_vsin, execVsin, specialFn]
      exact elementwise_next goes
    · rw [exec_vcos, execVcos, specialFn]
      exact elementwise_next goes
  · exact (fn.apply_slow _ (fn.slow_of_special _ special)).trans (fn.nearest_special _ special)
  · exact fn.apply_slow _ slow
  · exact fn.apply_fast _ fast

end Machine
end Sys2Proof

/-! ### Vector instructions across lanes -/

namespace Sys2Proof

theorem tab_const {α : Type} (n : Nat) (a : α) : (tab n fun _ => a) = List.replicate n a := by
  rw [tab_eq_map, List.map_const', List.length_range]

namespace Machine

theorem bitOp_iff (op : Nat) : bitOp op = true ↔ 3 ≤ op := decide_eq_true_iff

theorem not_bitOp (op : Nat) : (!bitOp op) = decide (op < 3) := by
  by_cases low : op < 3
  · simp [bitOp, low]
  · simp [bitOp, low, Nat.not_lt.mp low]

theorem axisLines_of_cur {s t : State} (same : t.cur = s.cur) (v : XV) (byRow : Bool) (op a : Nat) :
    t.axisLines v byRow op a = s.axisLines v byRow op a := by
  rw [State.axisLines, State.axisLines, same]

section Lines
variable {r : Ring} {opc lat : Nat} {o : F3} {x : Option XV} {byRow : Bool} {s : State} {vs : List Word} {l : Links}
  {f : Nat → List W32 → List W32}

abbrev lineIssue (r : Ring) (opc lat : Nat) (o : F3) (x : Option XV) (t : Strand) : Issue :=
  ({ lat, srcs := [o.srcB], vecs := [o.a.toNat], names := [.vec o.d.toNat] } : VIssue).issue r opc x t

theorem moveLines_moves {bound : Option Nat} (goes : s.Goes (lineIssue r opc lat o x s.cur) vs l)
    (inside : ∀ n, bound = some n → (vs.headD 0).toNat < n) :
    moveLines r opc o x lat byRow bound f s = s.writes (lineIssue r opc lat o x s.cur) l
      [.vec o.d.toNat (s.cur.governs (s.cur.xv x))
        (ofLines 0 byRow ((toLines 0 byRow (s.cur.x.vec o.a.toNat)).map (f (vs.headD 0).toNat)))] := by
  refine issue_next goes (Act.check_then ?_ (Act.bind_eq (a := s) rfl rfl))
  cases bound with
  | none => rfl
  | some n => exact decide_eq_true (inside n rfl)

theorem moveLines_outside {n : Nat} (goes : s.Goes (lineIssue r opc lat o x s.cur) vs l) (outside : n ≤ (vs.headD 0).toNat) :
    moveLines r opc o x lat byRow (some n) f s = .next (s.takeTrap .x tRANGE [vs.headD 0]) :=
  issue_trap (q := lineIssue r opc lat o x s.cur) goes (Act.check_fails (decide_eq_false (Nat.not_lt.mpr outside)))

/-- The lanes of a reduction or scan. -/
def axisLanes (s : State) (v : XV) (byRow : Bool) (op a : Nat) (late : Nat → Bool)
    (g : List Nat → List (Rounded × List Nat)) : List Lane :=
  (ofLines (⟨0, false, false⟩, []) byRow ((s.axisLines v byRow op a).map g)).zipIdx.map fun e =>
    axisLane v.format op (late e.2) e.1.1 e.1.2

theorem axisOp_writes {g : Fmt → Nat → Nat → List Nat → List (Rounded × List Nat)} :
    let v := s.cur.xv x
    let op := getBits v.flags 0 3
    let q := ({ lat, fmts := if 3 ≤ op then anyFmts else arithFmts, sela := if 3 ≤ op then 1 else s.selOf x, vecs := [o.a.toNat],
                names := [.vec o.d.toNat] } : VIssue).issue r opc x s.cur
    let t := s.late (decide (op < 3) && v.format.isFp)
    let ls := axisLanes s v byRow op o.a.toNat t.1 (g v.format op v.rnd.toNat)
    s.Goes q [] l → axisOp r opc o x lat byRow g s = (t.2.counted (if 3 ≤ op then .s32 else v.format) ls).writes q l
      [.vec o.d.toNat (BitVec.allOnes 1024) (ls.map fun k => BitVec.ofNat 32 k.v)] := by
  intro v op q t ls goes
  simp only [axisOp, bitOp_iff, not_bitOp]
  refine issue_next goes (Act.bind_eq (late_ok ..) (Act.bind_eq (a := t.2) rfl ?_))
  rw [axisLines_of_cur (late_cur ..)]
  rfl

/-- What a line's positions are given by VARGR and VARGC (R232). -/
def argBest (f : Fmt) (l : List (Nat × Bool)) : Nat × Nat :=
  match greatest f l with
  | some b => (quieten f b.1, b.2)
  | none => (identityOf f 1, 2 ^ 32 - 1)

/-- The greatest elements with their places, one for each lane. -/
def argLanes (s : State) (v : XV) (byRow : Bool) (a : Nat) : List (Nat × Nat) :=
  ofLines (0, 0) byRow ((toLines (0, false) byRow ((s.cur.x.vec a).zipIdx.map fun e =>
    (pick v.format.bits v.sela.toNat e.1, (s.cur.governs v).getLsbD e.2))).map fun line =>
      List.replicate line.length (argBest v.format line))

/-- VARGR and VARGC have written their lines' greatest elements and places. -/
def argDone (f : Fmt) (o : F3) (late : Nat → Bool) (best : List (Nat × Nat)) (t : State) : Res Done :=
  let ls := best.zipIdx.map fun e => chosenLane f (late e.2) e.1.1 true
  .ok (.of [.vec o.d.toNat (BitVec.allOnes 1024) (ls.map fun k => BitVec.ofNat 32 k.v),
    .vec (o.d.toNat + 1) (BitVec.allOnes 1024) (best.map fun e => BitVec.ofNat 32 e.2)]) (t.counted f ls)

theorem argOp_writes :
    let v := s.cur.xv x
    let q := ({ lat, fmts := arithFmts, sela := s.selOf x, vecs := [o.a.toNat],
                names := [.vec o.d.toNat, .vec (o.d.toNat + 1)] } : VIssue).issue r opc x s.cur
    let t := s.late v.format.isFp
    let ls := (argLanes s v byRow o.a.toNat).zipIdx.map fun e => chosenLane v.format (t.1 e.2) e.1.1 true
    s.Goes q [] l → argOp r opc o x lat byRow s = (t.2.counted v.format ls).writes q l
      [.vec o.d.toNat (BitVec.allOnes 1024) (ls.map fun k => BitVec.ofNat 32 k.v),
        .vec (o.d.toNat + 1) (BitVec.allOnes 1024) ((argLanes s v byRow o.a.toNat).map fun e => BitVec.ofNat 32 e.2)] := by
  intro v q t ls goes
  simp only [argOp]
  refine issue_next goes (Act.bind_eq (late_ok ..) (Act.bind_eq (a := t.2) rfl ?_))
  rw [late_cur]
  refine Act.bind_eq (lanesDone_ok ..) (congrArg (fun best => argDone v.format o t.1 best t.2) ?_)
  refine congrArg (ofLines (0, 0) byRow) (List.map_congr_left fun line _ => congrArg (List.replicate line.length) ?_)
  unfold argBest
  cases greatest v.format line <;> rfl

end Lines

/-- Settles O44: the instructions across lanes write what their rules give from the lines of their sources. -/
theorem vectorLines : Obligations.VectorLines := by
  unfold Obligations.VectorLines
  intro r o x e s vs l v f mask d regA regB arith' writes
  refine ⟨fun goes => ?_, fun goes => ?_, ⟨fun goes => ?_, fun goes => ?_⟩, fun goes => ?_, fun goes => ?_, fun goes => ?_,
    fun goes => ?_, fun goes => ?_, ?_, ?_, ⟨fun goes => ?_, fun goes => ?_, fun goes => ?_, fun goes => ?_⟩, ?_⟩
  · simp only [exec_vcmp, execVcmp]
    exact issue_next goes (Act.bind_eq (a := s) rfl rfl)
  · simp only [exec_vsel, execVsel]
    exact issue_next goes (Act.bind_eq (a := s) rfl rfl)
  · simp only [exec_vsplat, execVsplat, splat, tab_const]
    exact issue_next goes (Act.bind_eq (a := s) rfl rfl)
  · simp only [exec_vidx, execVidx, splat]
    refine issue_next goes (Act.bind_eq (a := s) rfl ?_)
    refine congrArg (fun g => Res.ok (Done.of [.vec d mask (tab 1024 g)]) s) (funext fun i => ?_)
    refine congrArg (fun n => (vs.headD 0).setWidth 32 + BitVec.ofNat 32 n) ?_
    match getBits v.flags 0 2 with
    | 0 => rfl
    | 1 => rfl
    | kind + 2 => rfl
  · simp only [exec_vtrn, execVtrn]
    exact issue_next goes (Act.bind_eq (a := s) rfl rfl)
  · simp only [exec_vpack, execVpack]
    exact issue_next goes (Act.bind_eq (a := s) rfl rfl)
  · simp only [exec_vunpk, execVunpk]
    exact issue_next goes (Act.bind_eq (a := s) rfl rfl)
  · simp only [exec_vqnt, execVqnt]
    refine issue_next goes (Act.bind_eq (late_ok ..) (Act.bind_eq (a := (s.late f.isFp).2) rfl ?_))
    rw [late_cur]
    exact Act.bind_eq (lanesDone_ok ..) rfl
  · simp only [exec_vdqnt, execVdqnt]
    refine issue_next goes (Act.bind_eq (late_ok ..) (Act.bind_eq (a := (s.late true).2) rfl ?_))
    rw [late_cur]
    exact lanesDone_ok ..
  · simp only [List.forall_mem_cons]
    refine ⟨fun goes => ?_, fun goes => ?_, fun e mem => nomatch mem⟩
    · rw [exec_vrotr, execVrotr]
      exact moveLines_moves goes nofun
    · rw [exec_vrotc, execVrotc]
      exact moveLines_moves goes nofun
  · simp only [List.forall_mem_cons]
    refine ⟨⟨fun inside goes => ?_, fun outside goes => ?_⟩, ⟨fun inside goes => ?_, fun outside goes => ?_⟩,
      fun e mem => nomatch mem⟩
    · rw [exec_vbcr, execVbcr]
      exact moveLines_moves goes fun n same => Option.some.inj same ▸ inside
    · rw [exec_vbcr, execVbcr]
      exact moveLines_outside goes outside
    · rw [exec_vbcc, execVbcc]
      exact moveLines_moves goes fun n same => Option.some.inj same ▸ inside
    · rw [exec_vbcc, execVbcc]
      exact moveLines_outside goes outside
  · rw [exec_vredr, execVredr]
    exact axisOp_writes goes
  · rw [exec_vredc, execVredc]
    exact axisOp_writes goes
  · rw [exec_vscanr, execVscanr]
    exact axisOp_writes goes
  · rw [exec_vscanc, execVscanc]
    exact axisOp_writes goes
  · simp only [List.forall_mem_cons]
    refine ⟨fun goes => ?_, fun goes => ?_, fun e mem => nomatch mem⟩
    · rw [exec_vargr, execVargr]
      exact argOp_writes goes
    · rw [exec_vargc, execVargc]
      exact argOp_writes goes

end Machine
end Sys2Proof

/-! ### Accesses in many pieces -/

namespace Sys2Proof
namespace Machine

/-! Translation does not look at the phase -/

/-- A translation's state changed. -/
def XRes.onState (f : State → State) : XRes → XRes
  | .ok x t => .ok x (f t)
  | .fault f => .fault f
  | .moving => .moving
  | .absent => .absent

theorem walkFor_setPhase (s : State) (f : Phase → Phase) (ctx : Nat) (core : Option Nat) (va : Word) (acc : Access) :
    (s.setPhase f).walkFor ctx core va acc = (s.walkFor ctx core va acc).onState (State.setPhase · f) := by
  simp only [State.walkFor]
  rw [show (s.setPhase f).walk ctx va = s.walk ctx va from rfl, State.setPhase_mem]
  cases s.walk ctx va with
  | absent => rfl
  | stop => rfl
  | leaf pa e level =>
    show (if _ then _ else if _ then _ else _ : XRes) = XRes.onState _ (if _ then _ else if _ then _ else _)
    split
    · rfl
    · split <;> rfl

theorem translate_setPhase (s : State) (f : Phase → Phase) (ctx : Nat) (ws : List Window) (core : Option Nat) (va : Word)
    (acc : Access) :
    (s.setPhase f).translate ctx ws core va acc = (s.translate ctx ws core va acc).onState (State.setPhase · f) := by
  simp only [State.translate]
  rw [State.setPhase_mem]
  split
  · split
    · rfl
    · split <;> rfl
  · split
    · rfl
    · split
      · exact walkFor_setPhase ..
      · split
        · split
          · rfl
          · exact walkFor_setPhase ..
        · exact walkFor_setPhase ..

theorem ownXlate_setPhase {s : State} {va : Word} {acc : Access} {x : Xlate} (place : s.ownXlate va acc = .ok x s)
    (f : Phase → Phase) : (s.setPhase f).ownXlate va acc = .ok x (s.setPhase f) :=
  (translate_setPhase s f ..).trans (congrArg (XRes.onState (State.setPhase · f)) place)

/-! Reads -/

/-- Two states in which the strand sees the same bytes of device and host memory. -/
structure State.SeesAs (s t : State) : Prop where
  buf : t.cur.ph.buf = s.cur.ph.buf
  dev : t.mem.dev = s.mem.dev
  host : t.mem.host = s.mem.host
  poison : t.mem.poison = s.mem.poison

namespace State.SeesAs
variable {s t u : State}

theorem refl (s : State) : s.SeesAs s := ⟨rfl, rfl, rfl, rfl⟩

theorem trans (h : s.SeesAs t) (k : t.SeesAs u) : s.SeesAs u :=
  ⟨k.buf.trans h.buf, k.dev.trans h.dev, k.host.trans h.host, k.poison.trans h.poison⟩

theorem seen (h : s.SeesAs t) (home pa n : Nat) : t.seen home pa n = s.seen home pa n := by
  simp only [State.seen, h.buf, h.dev, h.host]

theorem poisoned (h : s.SeesAs t) (home pa n : Nat) : t.mem.poisoned home pa n = s.mem.poisoned home pa n := by
  rw [Mem.poisoned, Mem.poisoned, h.poison]

theorem of_corrected (s : State) (home pa n : Nat) : s.SeesAs (s.corrected home pa n) := by
  simp only [State.corrected]
  split
  · exact refl s
  · obtain ⟨cur, ⟨mem, -⟩, -⟩ := countIn_counts { s with mem := { s.mem with soft := s.mem.soft.filter fun e =>
      !(e.1 == home && overlaps pa n e.2.1 e.2.2) } } (dieBlock (if home < 16 then dieOf pa else coreDie (pa / 2 ^ 32 % 256)))
      0x262 none none
      (s.mem.soft.filter fun e => e.1 == home && overlaps pa n e.2.1 e.2.2).length
    exact ⟨(congrArg (·.ph.buf) cur :), (congrArg Mem.dev mem :), (congrArg Mem.host mem :), (congrArg Mem.poison mem :)⟩

theorem of_note (s : State) (va : Word) : s.SeesAs (s.setCur fun c => { c with ph := c.ph.note va }) := by
  have same : (s.cur.ph.note va).buf = s.cur.ph.buf := by
    simp only [Phase.note]
    split <;> rfl
  exact ⟨same, rfl, rfl, rfl⟩

end State.SeesAs

theorem noteAll_sees (ps : List Piece) (s : State) :
    ∃ u, Act.each (fun p : Piece => noteRead p.1) ps s = .ok () u ∧ s.SeesAs u := by
  induction ps generalizing s with
  | nil => exact ⟨s, rfl, .refl s⟩
  | cons p ps ih =>
    obtain ⟨u, run, alike⟩ := ih (s.setCur fun c => { c with ph := c.ph.note p.1 })
    exact ⟨u, Act.then_eq (a := ()) rfl run, (State.SeesAs.of_note s p.1).trans alike⟩

section Pieces
variable {α : Type} {s : State} {at' : α → Word} {size : α → Nat} {y : α → Xlate}

/-- Pieces whose pages are in place. -/
theorem xlateAll_ok {acc : Access} {es : List α}
    (canon : ∀ e ∈ es, canonical (at' e) = true) (place : ∀ e ∈ es, s.ownXlate (at' e) acc = .ok (y e) s) :
    xlateAll acc (es.map fun e => (at' e, size e)) s = .ok (es.map fun e => (y e, (at' e, size e))) s := by
  induction es with
  | nil => rfl
  | cons e es ih =>
    obtain ⟨first, rest⟩ := List.forall_mem_cons.mp canon
    obtain ⟨first', rest'⟩ := List.forall_mem_cons.mp place
    have here : (Act.check (canonical (at' e)) tPROTECT [at' e, w64 (256 * b2n (acc == .write))]).andThen (xlate (at' e) acc) s =
        .ok (y e) s := Act.check_then first (xlate_ok first')
    simp only [List.map_cons, xlateAll, here]
    exact Act.bind_eq (ih rest rest') rfl

theorem readAll_ok {es : List α} {u : State} (alike : s.SeesAs u) (near : ∀ e ∈ es, (y e).home ≠ 2)
    (good : ∀ e ∈ es, s.mem.poisoned (y e).home (y e).pa (size e) = false) :
    ∃ w, Act.map (fun e : Xlate × Piece => readAt e.1 e.2.1 e.2.2) (es.map fun e => (y e, (at' e, size e))) u =
      .ok (es.map fun e => s.seen (y e).home (y e).pa (size e)) w := by
  induction es generalizing u with
  | nil => exact ⟨u, rfl⟩
  | cons e es ih =>
    obtain ⟨first, rest⟩ := List.forall_mem_cons.mp near
    obtain ⟨first', rest'⟩ := List.forall_mem_cons.mp good
    obtain ⟨w, run⟩ := ih (alike.trans (.of_corrected u (y e).home (y e).pa (size e))) rest rest'
    have read := readAt_ok (va := at' e) first ((alike.poisoned ..).trans first')
    rw [alike.seen] at read
    exact ⟨w, Act.bind_eq read (Act.bind_eq run rfl)⟩

/-- Reads of device and host memory in place give what the strand sees there. -/
theorem readPieces_ok {es : List α} (canon : ∀ e ∈ es, canonical (at' e) = true)
    (place : ∀ e ∈ es, s.ownXlate (at' e) .read = .ok (y e) s) (near : ∀ e ∈ es, (y e).home ≠ 2)
    (good : ∀ e ∈ es, s.mem.poisoned (y e).home (y e).pa (size e) = false) :
    ∃ w, readPieces (es.map fun e => (at' e, size e)) true s =
      .ok (es.map fun e => s.seen (y e).home (y e).pa (size e)) w := by
  obtain ⟨u, noted, alike⟩ := noteAll_sees (es.map fun e => (at' e, size e)) s
  obtain ⟨w, run⟩ := readAll_ok (at' := at') alike near good
  have asks : ((es.map fun e => (y e, (at' e, size e))).map fun e : Xlate × Piece => if e.1.home = 2 then
      (requestsOf e.1.pa e.2.2).map fun p => u.peerRequest 2 (e.1.pa + p.1) p.2 [] else []).flatten = [] := by
    refine List.flatten_eq_nil_iff.mpr fun l listed => ?_
    obtain ⟨p, placed, rfl⟩ := List.mem_map.mp listed
    obtain ⟨e, mem, rfl⟩ := List.mem_map.mp placed
    exact if_neg (near e mem)
  refine ⟨w, Act.bind_eq (xlateAll_ok canon place) (Act.then_eq noted (Act.bind_eq (a := u) rfl ?_))⟩
  rw [asks]
  exact Act.then_eq (a := ()) (t := u) rfl run

end Pieces

/-! Buffered stores -/

theorem mergePlain_length {b : BlockStore} {es fs : List BufEntry} (merged : mergePlain b es = some fs) :
    fs.length = es.length := by
  induction es generalizing fs with
  | nil => cases merged
  | cons e es ih =>
    simp only [mergePlain] at merged
    split at merged
    · cases merged
    · split at merged
      · cases merged
        rfl
      · obtain ⟨gs, rest, rfl⟩ := Option.map_eq_some_iff.1 merged
        rw [List.length_cons, List.length_cons, ih rest]

/-- A buffer with a free entry takes a store, in at most one entry more. -/
theorem bufStore_room {buf : List BufEntry} (b : BlockStore) (room : buf.length < Config.bufEntries) :
    ∃ buf', bufStore buf b = some buf' ∧ buf'.length ≤ buf.length + 1 := by
  simp only [bufStore]
  split
  next r merged =>
    refine ⟨_, rfl, ?_⟩
    rw [List.length_reverse]
    have same : r.length = buf.reverse.length := by
      split at merged
      · split at merged
        next e es newest =>
          split at merged
          · cases merged
            rw [newest]
            rfl
          · cases merged
        · cases merged
      · exact mergePlain_length merged
    rw [same, List.length_reverse]
    exact Nat.le_succ _
  next =>
    exact ⟨_, if_pos room, Nat.le_of_eq List.length_append⟩

/-- A repeatable phase with room buffers a store on a page that is in place; memory stays. -/
theorem storeBytes_buffers {s : State} {va : Word} {x : Xlate} (bytes : List Byte) (desc : Option W16) (path : Nat)
    (rep : s.cur.ph.rep = true) (room : s.cur.ph.buf.length < Config.bufEntries) (place : s.ownXlate va .write = .ok x s) :
    ∃ buf, storeBytes va bytes desc false path s = .ok () (s.setPhase fun p => { p with buf }) ∧
      buf.length ≤ s.cur.ph.buf.length + 1 := by
  obtain ⟨buf, stored, le⟩ := bufStore_room (blockOf x va bytes desc false path) room
  refine ⟨buf, storeBytes_ok ⟨x, s, s, place, .inl ⟨rep, by rw [stored]; rfl, rfl⟩, nofun, ?_⟩, le⟩
  rw [State.storeBlock, if_pos rep, stored]

theorem storeEach_buffers {α : Type} {s : State} {va : α → Word} {x : α → Xlate} {bytes : α → List Byte} {es : List α} (path : Nat)
    (rep : s.cur.ph.rep = true) (room : s.cur.ph.buf.length + es.length ≤ Config.bufEntries)
    (place : ∀ e ∈ es, s.ownXlate (va e) .write = .ok (x e) s) :
    ∃ w, Act.each (fun p : StorePiece => storeBytes p.va p.bytes p.desc false path) (es.map fun e => ⟨va e, bytes e, none⟩) s =
      .ok () w ∧ w.mem = s.mem := by
  induction es generalizing s with
  | nil => exact ⟨s, rfl, rfl⟩
  | cons e es ih =>
    obtain ⟨first, rest⟩ := List.forall_mem_cons.mp place
    rw [List.length_cons] at room
    obtain ⟨buf, stored, le⟩ := storeBytes_buffers (bytes e) none path rep (by omega) first
    obtain ⟨w, run, mem⟩ := ih (s := s.setPhase fun p => { p with buf }) rep
      (show buf.length + es.length ≤ Config.bufEntries by omega) fun e mem => ownXlate_setPhase (rest e mem) _
    exact ⟨w, Act.then_eq stored run, mem⟩

/-- Stores of a repeatable phase to pages in place, with room for each in the buffer, leave memory as it is. -/
theorem storeAll_buffers {α : Type} {s : State} {va : α → Word} {x : α → Xlate} {bytes : α → List Byte} {es : List α} (path : Nat)
    (rep : s.cur.ph.rep = true) (room : s.cur.ph.buf.length + es.length ≤ Config.bufEntries)
    (canon : ∀ e ∈ es, canonical (va e) = true) (place : ∀ e ∈ es, s.ownXlate (va e) .write = .ok (x e) s) :
    ∃ w, storeAll (es.map fun e => ⟨va e, bytes e, none⟩) path s = .ok () w ∧ w.mem = s.mem := by
  obtain ⟨w, run, mem⟩ := storeEach_buffers (bytes := bytes) path rep room place
  have ready : storeReady s = .ok () s := Act.bind_eq (a := s) rfl (by rw [rep]; rfl)
  have placed := xlateAll_ok (size := fun e => (bytes e).length) canon place
  have pieces : ((es.map fun e => (⟨va e, bytes e, none⟩ : StorePiece)).map fun p => (p.va, p.bytes.length)) =
      es.map fun e => (va e, (bytes e).length) := List.map_map
  exact ⟨w, Act.then_eq (pieces ▸ placed) (Act.then_eq ready run), mem⟩

end Machine
end Sys2Proof

/-! ### Vector accesses, predicates and moves -/

namespace Sys2Proof
namespace Machine

/-- A register that holds an error ends the strand (R314). -/
theorem issue_uncorr {q : Issue} {body : List Word → Act Done} {s h : State} {vs : List Word} {l : Links} {st : Store} {va : Word}
    (goes : s.Goes q vs l) (stops : body vs s = .stop (.uncorr st va h)) : issue q body s = .next (h.uncorr st va) := by
  rw [issue_goes goes, stops]

theorem heldTile_bad {s : State} {w : Word} (bad : 128 ≤ w.toNat ∨ s.cur.tile? w.toNat = none) :
    heldTile w s = .stop (.trap tHANDLE [w]) := by
  by_cases small : w.toNat < 128
  · exact heldTile_absent small (bad.resolve_left (Nat.not_le.mpr small))
  · simp [heldTile, handleNo, badHandle, small]

section Origin
variable {h org : Word} {side : Nat} {s : State} {t : Tile}

/-- The origin of a vector access lies on the tile's words, and the rows from it are free (R235, R236). -/
structure OriginFits (s : State) (h org : Word) (side : Nat) : Prop where
  small : org.toNat < 2 ^ 32
  aligned : side = 0 → org.toNat / 65536 % 4 = 0
  plain : side ≠ 0 → org.toNat / 65536 = 0
  free : s.rowsBusy h.toNat (org.toNat % 65536) (org.toNat % 65536 + if side = 2 then 64 else 16) = false

theorem tileOrigin_ok {write : Bool} (fits : OriginFits s h org side)
    (held : (if write then writableTile h else heldTile h) s = .ok (h.toNat, t) s) :
    tileOrigin h org write side s = .ok (h.toNat, t) s := by
  refine Act.bind_eq held (Act.check_then (decide_eq_true fits.small) (Act.check_then ?_ (Act.check_then ?_
    (Act.bind_eq (a := s) rfl (Act.until_then ?_ rfl)))))
  · by_cases zero : side = 0
    · exact Bool.or_eq_true_iff.mpr (Or.inr (beq_iff_eq.mpr (fits.aligned zero)))
    · exact Bool.or_eq_true_iff.mpr (Or.inl (bne_iff_ne.mpr zero))
  · by_cases zero : side = 0
    · exact Bool.or_eq_true_iff.mpr (Or.inl (beq_iff_eq.mpr zero))
    · exact Bool.or_eq_true_iff.mpr (Or.inr (beq_iff_eq.mpr (fits.plain zero)))
  · exact (Bool.not_eq_true' _).mpr fits.free

end Origin

/-- Element i of a window of VLD (R235). -/
theorem vldElem_eq (t : Tile) (side row off r c : Nat) : t.vldElem side row off r c =
    if side = 1 then (if t.rows ≤ row + r then padding else t.sidecar (row + r))
    else if side = 2 then (if t.rows ≤ row + c then padding else t.sidecar (row + c))
    else if t.rows ≤ row + r ∨ t.rb < off + 4 * c + 4 then 0
    else BitVec.ofNat 32 (leNat (t.front.bytes ((row + r) * t.rb + off + 4 * c) 4)) := by
  match side with
  | 0 => rfl
  | 1 => rfl
  | 2 => rfl
  | n + 3 => rfl

theorem rowsSound_clean {s : State} (t : Tile) (rows : List Nat) (off n : Nat) (poison : s.mem.poison = []) (soft : s.mem.soft = []) :
    rowsSound t rows off n s = .ok () s := by
  rw [rowsSound, poison, soft]
  rfl

/-- What VLD does after its checks. -/
theorem vld_reads {r : Ring} {o : F3} {x : Option XV} {s u : State} {vs : List Word} {l : Links} {t : Tile} :
    let v := s.cur.xv x
    let side := getBits v.flags 0 2
    let org := vs.getD 1 0
    let row := org.toNat % 65536
    let off := org.toNat / 65536
    let q := ({ srcs := o.srcs, names := [.vec o.d.toNat], lat := if s.nearTile o.a then 40 else 12 } : VIssue).issue r 0xA0 x s.cur
    s.Goes q vs l → tileOrigin (vs.headD 0) org false side s = .ok ((vs.headD 0).toNat, t) s →
    (if side = 0 then rowsSound t ((tab 16 (row + ·)).filter fun i => decide (i < t.rows)) off 256 else Act.pure ()) s = .ok () u →
    execVld r o x s = u.writes q l [.vec o.d.toNat (s.cur.governs v) (tab 1024 fun i =>
      if (s.cur.governs v).getLsbD i then t.vldElem side row off (i / 64) (i % 64) else 0)] := by
  intro v side org row off q goes origin sound
  simp only [execVld]
  exact issue_next goes (Act.bind_eq origin (Act.bind_eq (a := s) rfl (Act.then_eq sound rfl)))

/-! #### Stores into a tile -/

theorem healWords_eq (t : Tile) (places : List Nat) (s : State) :
    healWords t places s = .ok () (if s.mem.poison = [] then s
      else places.foldl (fun s o => s.heal t.store (s.tileSpot t t.half o) 8) s) := by
  simp only [healWords, Act.modify_run]
  cases poison : s.mem.poison <;> rfl

theorem healEach_cur (t : Tile) (places : List Nat) (s : State) :
    (places.foldl (fun (s : State) o => s.heal t.store (s.tileSpot t t.half o) 8) s).cur = s.cur := by
  induction places generalizing s with
  | nil => rfl
  | cons p places ih => exact (ih _).trans (s.heal_cur ..)

/-- Where element i of a store from an origin lies in a tile's bytes. -/
def Tile.placeOf (t : Tile) (org i : Nat) : Nat := (org % 65536 + i / 64) * t.rb + org / 65536 + 4 * (i % 64)

/-- The tile after the enabled elements of a register were put (R236). -/
def Tile.storing (t : Tile) (org : Nat) (es : List Nat) (data : List W32) : Tile :=
  t.setFront (es.foldl (fun (h : Half) i => h.put (t.placeOf org i) (leBytes 4 (data.getD i 0).toNat)) t.front)

/-- The state after the errors in the words that a store covers whole are cleared. -/
def State.healing (s : State) (t : Tile) (org : Nat) (es : List Nat) : State :=
  let words := (es.filter fun i => t.placeOf org i % 8 == 0 && i % 64 != 63 && es.contains (i + 1)).map (t.placeOf org)
  if s.mem.poison = [] then s else words.foldl (fun s o => s.heal t.store (s.tileSpot t t.half o) 8) s

theorem State.healing_cur (s : State) (t : Tile) (org : Nat) (es : List Nat) : (s.healing t org es).cur = s.cur := by
  simp only [State.healing]
  split
  · rfl
  · exact healEach_cur ..

section Vst
variable {r : Ring} {o : F3} {x : Option XV} {s : State} {vs : List Word} {l : Links} {t : Tile}

/-- The issue facts of VST. -/
abbrev vstIssue (r : Ring) (o : F3) (x : Option XV) (t : Strand) : Issue :=
  ({ srcs := o.srcs, vecs := [o.d.toNat], fmts := tileFmts, lat := 1 } : VIssue).issue r 0xA1 x t

/-- Every enabled element lies on the tile. -/
def StoreFits (s : State) (x : Option XV) (t : Tile) (org : Word) : Prop :=
  ∀ i ∈ enabled (s.cur.governs (s.cur.xv x)),
    org.toNat % 65536 + i / 64 < t.rows ∧ org.toNat / 65536 + 4 * (i % 64) + 4 ≤ t.rb

theorem storeFits_iff (es : List Nat) (row off rows rb : Nat) :
    (es.all fun i => decide (row + i / 64 < rows) && decide (off + 4 * (i % 64) + 4 ≤ rb)) = true ↔
      ∀ i ∈ es, row + i / 64 < rows ∧ off + 4 * (i % 64) + 4 ≤ rb := by
  simp

variable (goes : s.Goes (vstIssue r o x s.cur) vs l)
  (origin : tileOrigin (vs.headD 0) (vs.getD 1 0) true 0 s = .ok ((vs.headD 0).toNat, t) s)
include goes origin

theorem vst_outside (outside : ¬ StoreFits s x t (vs.getD 1 0)) :
    execVst r o x s = .next (s.takeTrap .x tRANGE [vs.getD 1 0]) := by
  simp only [execVst]
  exact issue_trap goes (Act.bind_eq origin (Act.bind_eq (a := s) rfl (Act.check_fails
    (Bool.eq_false_iff.mpr fun all => outside ((storeFits_iff ..).mp all)))))

variable (fits : StoreFits s x t (vs.getD 1 0)) (held : s.cur.tile? (vs.headD 0).toNat = some t)
include fits

theorem vst_conflicts (typed : (s.cur.xv x).code ≠ 0) (bad : t.retag (s.cur.xv x).code false 0 false = none) :
    execVst r o x s = .next (s.takeTrap .x tTAGCONFLICT []) := by
  simp only [execVst]
  refine issue_trap goes (Act.bind_eq origin (Act.bind_eq (a := s) rfl (Act.check_then ((storeFits_iff ..).mpr fits)
    (Act.bind_of_stop ?_))))
  rw [if_neg typed, bad]
  rfl

include held

theorem vst_stores {m : W16 × Bool}
    (tag : ((s.cur.xv x).code = 0 ∧ m = (t.tag, false)) ∨
      ((s.cur.xv x).code ≠ 0 ∧ t.retag (s.cur.xv x).code false 0 false = some m)) :
    let es := enabled (s.cur.governs (s.cur.xv x))
    let org := (vs.getD 1 0).toNat
    let v := t.storing org es (s.cur.x.vec o.d.toNat)
    execVst r o x s = ((s.healing t org es).setCur fun c => c.setTile (vs.headD 0).toNat
      (if (s.cur.xv x).code = 0 then v
       else v.typed m.1 m.2 (plainDesc (s.cur.xv x).code false) (es.map fun i => t.placeOf org i / 64))).ends
      (vstIssue r o x s.cur) l := by
  intro es org v
  have retagged : (if (s.cur.xv x).code = 0 then Act.pure (t.tag, false)
      else match t.retag (s.cur.xv x).code false 0 false with
        | some m => Act.pure m
        | none => Act.trap tTAGCONFLICT [] : Act (W16 × Bool)) s = .ok m s := by
    obtain ⟨untyped, rfl⟩ | ⟨typed, tag⟩ := tag
    · exact congrFun (if_pos untyped) s
    · rw [if_neg typed, tag]
      rfl
  have healed : (s.healing t org es).cur.tile? (vs.headD 0).toNat = some t := by rw [State.healing_cur, held]
  simp only [execVst]
  exact issue_next goes (Act.bind_eq origin (Act.bind_eq (a := s) rfl (Act.check_then ((storeFits_iff ..).mpr fits)
    (Act.bind_eq retagged (Act.then_eq (healWords_eq ..) (Act.then_eq (updTile_ok _ healed) rfl))))))

end Vst

/-! #### Memory, lane by lane -/

theorem mem_enabled {mask : BitVec 1024} {i : Nat} : i ∈ enabled mask ↔ i < 1024 ∧ mask.getLsbD i = true := by
  rw [enabled, tab_eq_map, List.map_id, List.mem_filter, List.mem_range]

theorem tab_congr {α : Type} {n : Nat} {f g : Nat → α} (same : ∀ i, i < n → f i = g i) : tab n f = tab n g := by
  rw [tab_eq_map, tab_eq_map]
  exact List.map_congr_left fun i mem => same i (List.mem_range.mp mem)

/-- What VLDG collects, one element after another: each index has its own value. -/
theorem getD_collected {f : Nat → Nat × Word} (g : Nat × Word → List Byte) (h : List Byte → W32) (named : ∀ i, (f i).1 = i)
    (is : List Nat) (m : SMap W32) (i : Nat) :
    SMap.getD (((is.map f).zip ((is.map f).map g)).foldl (fun (m : SMap W32) e => SMap.set m e.1.1 (h e.2)) m) i 0 =
      if i ∈ is then h (g (f i)) else SMap.getD m i 0 := by
  induction is generalizing m with
  | nil => rfl
  | cons j is ih =>
    simp only [List.map_cons, List.zip_cons_cons, List.foldl_cons]
    rw [ih, named]
    by_cases later : i ∈ is
    · rw [if_pos later, if_pos (List.mem_cons_of_mem _ later)]
    · rw [if_neg later]
      by_cases here : i = j
      · rw [here, SMap.getD_set, if_pos List.mem_cons_self]
      · rw [SMap.getD_set_ne _ _ _ here, if_neg fun mem => (List.mem_cons.mp mem).elim here later]

section Lanes
variable {base : Word} {idx : List W32} {v : XV} {mask : BitVec 1024} {wr : Bool} {s : State}

/-- The enabled elements with their addresses. -/
def laneAddrs (base : Word) (idx : List W32) (v : XV) (mask : BitVec 1024) : List (Nat × Word) :=
  (enabled mask).map fun i => (i, base + ((idx.getD i 0).signExtend 64 <<< getBits v.flags 0 2))

theorem gatherAddrs_ok (aligned : ∀ e ∈ laneAddrs base idx v mask, e.2.toNat % 2 ^ getBits v.flags 2 2 = 0)
    (canon : ∀ e ∈ laneAddrs base idx v mask, canonical e.2 = true) :
    gatherAddrs base idx v mask wr s = .ok (laneAddrs base idx v mask) s := by
  have first : ((laneAddrs base idx v mask).find? fun (e : Nat × Word) => e.2.toNat % 2 ^ getBits v.flags 2 2 != 0) = none :=
    List.find?_eq_none.mpr fun e mem => by simp [aligned e mem]
  have second : ((laneAddrs base idx v mask).find? fun (e : Nat × Word) => !canonical e.2) = none :=
    List.find?_eq_none.mpr fun e mem => by simp [canon e mem]
  simp only [gatherAddrs]
  rw [← laneAddrs, first, second]
  rfl

end Lanes

end Machine
end Sys2Proof

/-! ### Vector accesses and predicates settled -/

namespace Sys2Proof
namespace Machine

section Gather
variable {r : Ring} {o : F3} {x : Option XV} {s u : State} {vs : List Word} {l : Links} {bs : List (List Byte)}

abbrev vldgIssue (r : Ring) (o : F3) (x : Option XV) (t : Strand) : Issue :=
  ({ srcs := [o.srcA], vecs := [o.b.toNat], names := [.vec o.d.toNat], lat := 40, ok := !t.x.timed } : VIssue).issue r 0xA2 x t

abbrev vstgIssue (r : Ring) (o : F3) (x : Option XV) (t : Strand) : Issue :=
  ({ srcs := [o.srcA], vecs := [o.d.toNat, o.b.toNat], lat := 1, ok := !t.x.timed } : VIssue).issue r 0xA3 x t

/-- The addresses of the enabled elements of VLDG and VSTG. -/
def State.lanesAt (s : State) (x : Option XV) (o : F3) (base : Word) : List (Nat × Word) :=
  laneAddrs base (s.cur.x.vec o.b.toNat) (s.cur.xv x) (s.cur.governs (s.cur.xv x))

/-- What VLDG makes of the bytes of an element. -/
def laneValue (v : XV) (b : List Byte) : W32 :=
  if flag v.flags 4 then BitVec.ofInt 32 (toSigned (8 * 2 ^ getBits v.flags 2 2) (leNat b)) else BitVec.ofNat 32 (leNat b)

variable (aligned : ∀ e ∈ s.lanesAt x o (vs.headD 0), e.2.toNat % 2 ^ getBits (s.cur.xv x).flags 2 2 = 0)
  (canon : ∀ e ∈ s.lanesAt x o (vs.headD 0), canonical e.2 = true)
include aligned canon

theorem vldg_loads (goes : s.Goes (vldgIssue r o x s.cur) vs l)
    (loads : readPieces ((s.lanesAt x o (vs.headD 0)).map fun e => (e.2, 2 ^ getBits (s.cur.xv x).flags 2 2)) true s = .ok bs u) :
    execVldg r o x s = u.writes (vldgIssue r o x s.cur) l [.vec o.d.toNat (s.cur.governs (s.cur.xv x)) (tab 1024 fun i =>
      SMap.getD (((s.lanesAt x o (vs.headD 0)).zip bs).foldl (fun (m : SMap W32) e => SMap.set m e.1.1
        (laneValue (s.cur.xv x) e.2)) []) i 0)] := by
  simp only [execVldg]
  exact issue_next goes (Act.bind_eq (a := s) rfl (Act.bind_eq (gatherAddrs_ok aligned canon) (Act.bind_eq loads rfl)))

theorem vstg_stores (goes : s.Goes (vstgIssue r o x s.cur) vs l)
    (stores : storeAll ((s.lanesAt x o (vs.headD 0)).map fun e =>
      ⟨e.2, leBytes (2 ^ getBits (s.cur.xv x).flags 2 2) ((s.cur.x.vec o.d.toNat).getD e.1 0).toNat, none⟩) 0 s = .ok () u) :
    execVstg r o x s = u.ends (vstgIssue r o x s.cur) l := by
  simp only [execVstg]
  exact issue_next goes (Act.bind_eq (a := s) rfl (Act.bind_eq (gatherAddrs_ok aligned canon) (Act.then_eq stores rfl)))

end Gather

/-- Settles O45: vector loads and stores of tiles and memory, predicates, moves and VFMT. -/
theorem vectorAccessesAndPredicates : Obligations.VectorAccessesAndPredicates := by
  unfold Obligations.VectorAccessesAndPredicates
  intro r o x e s u vs l t bs y v mask d regA regB regD predA predB a b side row off ql qs sound element place inside stored
    words healed putTile sound' size qlg qsg at' es aligned reachable value loaded two num qlen qseg qto qof qf qfi bit0 vfmt all
  have named (P : Nat × Word → Prop) (holds : ∀ i ∈ enabled mask, P (i, at' i)) : ∀ e ∈ s.lanesAt x o a, P e := by
    intro e mem
    obtain ⟨i, on, rfl⟩ := List.mem_map.mp mem
    exact holds i on
  have origin (low : a.toNat < 128) (tile : s.cur.tile? a.toNat = some t) (rw' : t.ro = false) (small : b.toNat < 2 ^ 32)
      (words : off % 4 = 0) (free : s.rowsBusy a.toNat row (row + 16) = false) :
      tileOrigin a b true 0 s = .ok (a.toNat, t) s :=
    tileOrigin_ok ⟨small, fun _ => words, fun no => absurd rfl no, free⟩ (writable_ok low tile rw')
  refine ⟨fun goes low tile sound free => ?_, fun goes bad => ?_, fun goes low tile rw' small words free inside => ?_,
    fun goes low tile rw' small words free outside => ?_, fun goes fits canon places => ?_,
    fun goes fits canon rep room places => ?_, fun goes fits canon loads => ?_, fun goes fits canon stores => ?_,
    fun goes => ?_, fun goes => ?_, fun goes => ?_, fun goes => ?_, fun goes => ?_, fun goes => ?_, fun goes => ?_,
    fun goes => ?_, fun goes => ⟨fun low => ?_, fun high => ?_⟩, fun goes => ⟨fun low => ?_, fun high => ?_⟩,
    fun goes => ⟨fun low => ?_, fun high => ?_⟩, fun goes => ?_⟩
  · have origin : tileOrigin a b false side s = .ok (a.toNat, t) s :=
      tileOrigin_ok ⟨sound.1, sound.2.1, sound.2.2, free⟩ (heldTile_ok low tile)
    have elements : (tab 1024 fun i => if mask.getLsbD i then t.vldElem side row off (i / 64) (i % 64) else 0) =
        tab 1024 fun i => if mask.getLsbD i then element i else 0 := by
      simp only [vldElem_eq]
      rfl
    have reads {u : State} (clean : (if side = 0 then rowsSound t ((tab 16 (row + ·)).filter fun i => decide (i < t.rows)) off 256
        else Act.pure ()) s = .ok () u) : exec (.vld r o x) s =
          u.writes ql l [.vec d mask (tab 1024 fun i => if mask.getLsbD i then element i else 0)] := by
      rw [exec_vld, ← elements]
      exact vld_reads goes origin clean
    refine ⟨fun poison soft => reads ?_, fun sideways => reads (congrFun (if_neg sideways) s), fun lines ok => reads ?_,
      fun p h va lines bad => ?_⟩
    · split
      · exact rowsSound_clean _ _ _ _ poison soft
      · rfl
    · exact (congrFun (if_pos lines) s).trans ok
    · simp only [exec_vld, execVld]
      exact issue_uncorr goes (Act.bind_eq origin (Act.bind_eq (a := s) rfl
        (Act.bind_of_stop ((congrFun (if_pos lines) s).trans bad))))
  · simp only [exec_vld, execVld]
    exact issue_trap goes (Act.bind_of_stop (Act.bind_of_stop (heldTile_bad bad)))
  · have origin := origin low tile rw' small words free
    refine ⟨fun untyped => ?_, fun tag settles typed retag => ?_, fun typed conflict => ?_⟩
    · rw [exec_vst, vst_stores goes origin inside tile (Or.inl ⟨untyped, rfl⟩), if_pos untyped]
      rfl
    · rw [exec_vst, vst_stores goes origin inside tile (Or.inr ⟨typed, retag⟩), if_neg typed]
      rfl
    · rw [exec_vst]
      exact vst_conflicts goes origin inside typed conflict
  · rw [exec_vst]
    exact vst_outside goes (origin low tile rw' small words free) outside
  · obtain ⟨w, loads⟩ := readPieces_ok (es := s.lanesAt x o a) (at' := (·.2)) (size := fun _ => size) (y := fun e => y e.1)
      (named _ canon) (named _ fun i on => (places i on).1) (named _ fun i on => (places i on).2.1)
      (named _ fun i on => (places i on).2.2)
    refine ⟨w, ?_⟩
    rw [exec_vldg, vldg_loads (named _ fits) (named _ canon) goes loads]
    refine congrArg (fun v => w.writes qlg l [.vec d mask v]) (tab_congr fun i inside => ?_)
    refine (getD_collected (f := fun i => (i, at' i)) (fun e => s.seen (y e.1).home (y e.1).pa size) (laneValue v) (fun _ => rfl)
      (enabled mask) [] i).trans ?_
    by_cases on : mask.getLsbD i = true
    · rw [if_pos (mem_enabled.mpr ⟨inside, on⟩), if_pos on]
      rfl
    · rw [if_neg fun mem => on (mem_enabled.mp mem).2, if_neg on]
      rfl
  · obtain ⟨w, stores, mem⟩ := storeAll_buffers (es := s.lanesAt x o a) (va := (·.2)) (x := fun e => y e.1)
      (bytes := fun e => leBytes size (regD.getD e.1 0).toNat) 0 rep
      (show s.cur.ph.buf.length + ((enabled mask).map _).length ≤ _ by rw [List.length_map]; exact room)
      (named _ canon) (named _ places)
    refine ⟨w, ?_, mem⟩
    rw [exec_vstg]
    exact vstg_stores (named _ fits) (named _ canon) goes stores
  · rw [exec_vldg]
    exact vldg_loads (named _ fits) (named _ canon) goes loads
  · rw [exec_vstg]
    exact vstg_stores (named _ fits) (named _ canon) goes stores
  · rw [exec_pand, execPand, predOp]
    exact issue_next goes rfl
  · rw [exec_por, execPor, predOp]
    exact issue_next goes rfl
  · rw [exec_pxor, execPxor, predOp]
    exact issue_next goes rfl
  · rw [exec_pnot, execPnot, predOp]
    exact issue_next goes rfl
  · rw [exec_pcnt, execPcnt, predNumber]
    exact issue_gives goes rfl
  · rw [exec_pfirst, execPfirst, predNumber]
    exact issue_gives goes rfl
  · simp only [exec_plen, execPlen, Bool.decide_and]
    exact issue_next goes rfl
  · simp only [exec_pseg, execPseg]
    exact issue_next goes rfl
  · simp only [exec_vtox, execVtox]
    exact issue_gives goes (Act.check_then (decide_eq_true low) rfl)
  · simp only [exec_vtox, execVtox]
    exact issue_trap goes (Act.check_fails (decide_eq_false (Nat.not_lt.mpr high)))
  · simp only [exec_xtov, execXtov]
    refine issue_next goes (Act.check_then (decide_eq_true low) ?_)
    rw [Nat.mod_eq_of_lt low]
    rfl
  · simp only [exec_xtov, execXtov]
    exact issue_trap goes (Act.check_fails (decide_eq_false (Nat.not_lt.mpr high)))
  · simp only [exec_vfmt, execVfmt]
    refine issue_next goes (Act.check_then (decide_eq_true low) ?_)
    rw [show vfmt a.toNat = s.setCur fun c => { c with lates := c.lates ++ [(.x, .sys .x 6 a)] } by
      simp only [vfmt, w64, BitVec.ofNat_toNat, BitVec.setWidth_eq]]
    rfl
  · simp only [exec_vfmt, execVfmt]
    exact issue_trap goes (Act.check_fails (decide_eq_false (Nat.not_lt.mpr high)))
  · simp only [exec_vfmtImm, execVfmtImm]
    exact issue_next goes rfl

end Machine
end Sys2Proof

/-! ### Operand slots and accumulator tiles -/

namespace Sys2Proof
namespace Machine

/-! #### Accumulator operands -/

/-- The accumulator tile that the long form itself names. -/
def accNamed (x : Option MC) : Option Word :=
  match x with
  | some e => if e.ic then some (e.cn.setWidth 64) else none
  | none => none

theorem accSrcs_eq (f : BitVec 5) (x : Option MC) : accSrcs f x = if (accNamed x).isSome then [] else [f] := by
  cases x with
  | none => rfl
  | some e =>
    show (if e.ic = true then [] else [f]) = if (if e.ic = true then some _ else none : Option Word).isSome = true then [] else [f]
    split <;> rfl

theorem accArg_eq (x : Option MC) (vs : List Word) :
    accArg x vs = ((accNamed x).getD (vs.headD 0), if (accNamed x).isSome then vs else vs.drop 1) := by
  cases x with
  | none => rfl
  | some e =>
    show (if e.ic = true then _ else _ : Word × List Word) = ((if e.ic = true then some _ else none : Option Word).getD _,
      if (if e.ic = true then some _ else none : Option Word).isSome = true then _ else _)
    split <;> rfl

theorem accLast_eq (x : Option MC) (vs : List Word) : accLast x vs = (accNamed x).getD (vs.getD 2 0) := by
  rw [accLast, accArg_eq]
  match vs with
  | [] => rfl
  | [_] => rfl
  | [_, _] => rfl
  | _ :: _ :: _ :: _ => rfl

section Tiles
variable {v : Word} {s : State} {c : AccTile}

/-- No nest of the strand holds the accumulator tile (R261). -/
def Strand.AccIdle (t : Strand) (v : Word) : Prop := ∀ n ∈ t.nests, n.cfg.holds v.toNat = false

theorem Strand.accIdle_iff (t : Strand) (v : Word) : (!(t.nests.any fun n => n.cfg.holds v.toNat)) = true ↔ t.AccIdle v := by
  simp [Strand.AccIdle]

theorem accTile_absent (absent : s.cur.acc[v.toNat]? = none) : accTile v s = .stop (.trap tHANDLE [v]) := by
  refine Act.bind_eq (a := s) rfl ?_
  rw [absent]
  rfl

variable (held : s.cur.acc[v.toNat]? = some c)
include held

theorem accTile_ok (idle : s.cur.AccIdle v) : accTile v s = .ok (v.toNat, c) s := by
  refine Act.bind_eq (a := s) rfl ?_
  rw [held]
  exact Act.until_then ((s.cur.accIdle_iff v).mpr idle) rfl

theorem accTile_waits (used : ¬ s.cur.AccIdle v) : accTile v s = .stop (.wait 0 s) := by
  refine Act.bind_eq (a := s) rfl ?_
  rw [held]
  exact Act.until_waits (Bool.eq_false_iff.mpr fun idle => used ((s.cur.accIdle_iff v).mp idle))

end Tiles

section Sound
variable {n off len : Nat} {s : State}

theorem accSound_ok (good : ¬ s.mem.spoilt .accumulator (s.accSpot n off) len = true) :
    accSound n off len s = .ok () (s.corrected (16 + Store.accumulator.code) (s.accSpot n off) len) :=
  if_neg good

theorem accSound_bad (bad : s.mem.spoilt .accumulator (s.accSpot n off) len = true) :
    ∃ va, accSound n off len s = .stop (.uncorr .accumulator va s) :=
  ⟨_, if_pos bad⟩

end Sound

/-- NDRAIN of the elements, or of m and l (R268). -/
def drains (side : Bool) (r : Ring) (o : F3) (x : Option MC) : State → Out :=
  let d := o.d.toNat
  issue (r.issue .m 0x6D (lenOf x) (accSrcs o.a x) (if side then [.vec d] else tab 4 fun q => .vec (d + q)) 36) fun vs =>
    (accTile (accArg x vs).1).bind fun p => (if side then accSound p.1 16384 512 else accSound p.1 0 16384).andThen <|
    Act.pure (.of (if side then [.vec d allLanes (p.2.m ++ p.2.l ++ List.replicate 896 0)]
      else tab 4 fun q => .vec (d + q) allLanes ((p.2.c.drop (1024 * q)).take 1024)))

/-- Whether the long form of NDRAIN names m and l. -/
def accSide (x : Option MC) : Bool :=
  match x with
  | some e => e.side
  | none => false

theorem execNdrain_eq (r : Ring) (o : F3) (x : Option MC) (s : State) : execNdrain r o x s = drains (accSide x) r o x s := rfl

/-! #### Slots -/

section Release
variable {s : State} {k n : Nat}

/-- The slots that SLREL names and the strand holds. -/
def State.releasing (s : State) (k n : Nat) : List Nat :=
  (tabFrom id k (min n 64)).filter fun i => (s.slot s.curCore i).heldBy s.cur.key

theorem releases_iff (s : State) (k n : Nat) :
    ((tabFrom id k (min n 64)).all fun i => (s.releasing k n).contains i || s.cur.lostSlot i) = true ↔
      ∀ i ∈ tabFrom id k (min n 64), i ∈ s.releasing k n ∨ i + 64 ∈ s.cur.ph.relSlots := by
  simp [Strand.lostSlot]

theorem still_iff (s : State) (k n : Nat) :
    ((s.releasing k n).all fun i => (s.slot s.curCore i).st == .claimed || (s.slot s.curCore i).st == .full) = true ↔
      ∀ i ∈ s.releasing k n, (s.slot s.curCore i).st = .claimed ∨ (s.slot s.curCore i).st = .full := by
  simp

end Release

section Claim
variable {r : Ring} {o : F3} {s : State} {vs : List Word} {l : Links}

/-- SLCLAIM takes the least run of free slots. -/
theorem slclaim_takes {k : Nat} (goes : s.Goes (r.issue .m 0x60 1 [o.a] [.reg o.d] 2) vs l) (some' : 1 ≤ (vs.headD 0).toNat)
    (low : (vs.headD 0).toNat ≤ 64) (fits : s.heldSlots.length + (vs.headD 0).toNat ≤ s.cur.nslots)
    (run : freeRun (s.slots s.curCore) (vs.headD 0).toNat = some k) :
    execSlclaim r o s = (s.claim k (vs.headD 0).toNat).gives (r.issue .m 0x60 1 [o.a] [.reg o.d] 2) l o.d (w64 k) := by
  rw [execSlclaim]
  refine issue_next goes (Act.bind_eq (a := s) rfl (Act.check_then ?_ (Act.check_then (decide_eq_true fits) ?_)))
  · exact (Bool.and_eq_true ..).mpr ⟨decide_eq_true some', decide_eq_true low⟩
  · rw [run]
    exact Act.then_eq (a := ()) rfl rfl

end Claim

/-- Settles O46: slots are claimed, released and read; accumulator tiles are zeroed, loaded, drained, read and set. -/
theorem slotsAndAccumulators : Obligations.SlotsAndAccumulators := by
  unfold Obligations.SlotsAndAccumulators
  intro r o x s vs l t c key core slots a b qc qr qq named held mine still freed
  refine ⟨fun goes => ⟨fun bad => ?_, fun some' low over' => ?_, fun some' low fits => ⟨fun k run => ?_, fun full now => ?_,
      fun full later => ?_⟩⟩, fun goes => ⟨fun high => ?_, fun low other => ?_, fun low mine still => ?_, fun low mine busy => ?_⟩,
    fun goes => ⟨fun low => ?_, fun all => ?_, fun high => ?_⟩,
    fun u w n ls front runs free word instr goes some' low fits run => ?_, ?_⟩
  · rw [exec_slclaim, execSlclaim]
    refine issue_trap goes (Act.bind_eq (a := s) rfl (Act.check_fails (Bool.eq_false_iff.mpr fun ok => ?_)))
    obtain ⟨some', low⟩ := (Bool.and_eq_true ..).mp ok
    have some' := of_decide_eq_true some'
    have low := of_decide_eq_true low
    have bad : (vs.headD 0).toNat = 0 ∨ 64 < (vs.headD 0).toNat := bad
    omega
  · rw [exec_slclaim, execSlclaim]
    exact issue_trap goes (Act.bind_eq (a := s) rfl (Act.check_then
      ((Bool.and_eq_true ..).mpr ⟨decide_eq_true some', decide_eq_true low⟩)
      (Act.check_fails (decide_eq_false (Nat.not_le.mpr over')))))
  · rw [exec_slclaim]
    exact slclaim_takes goes some' low fits run
  · rw [exec_slclaim, execSlclaim]
    refine issue_gives goes (Act.bind_eq (a := s) rfl (Act.check_then
      ((Bool.and_eq_true ..).mpr ⟨decide_eq_true some', decide_eq_true low⟩) (Act.check_then (decide_eq_true fits) ?_)))
    rw [show freeRun (s.slots s.curCore) (vs.headD 0).toNat = none from full]
    exact congrFun (if_pos now) s
  · rw [exec_slclaim, execSlclaim]
    refine issue_wait goes (Act.bind_eq (a := s) rfl (Act.check_then
      ((Bool.and_eq_true ..).mpr ⟨decide_eq_true some', decide_eq_true low⟩) (Act.check_then (decide_eq_true fits) ?_)))
    rw [show freeRun (s.slots s.curCore) (vs.headD 0).toNat = none from full]
    exact congrFun (if_neg (Bool.eq_false_iff.mp later)) s
  · rw [exec_slrel, execSlrel]
    exact issue_trap goes (Act.bind_eq (a := s) rfl (Act.check_fails (decide_eq_false (Nat.not_le.mpr high))))
  · rw [exec_slrel, execSlrel]
    exact issue_trap goes (Act.bind_eq (a := s) rfl (Act.check_then (decide_eq_true low) (Act.check_fails
      (Bool.eq_false_iff.mpr fun all => other ((releases_iff s _ _).mp all)))))
  · rw [exec_slrel, execSlrel]
    exact issue_next goes (Act.bind_eq (a := s) rfl (Act.check_then (decide_eq_true low) (Act.check_then
      ((releases_iff s _ _).mpr mine) (Act.until_then ((still_iff s _ _).mpr still) (Act.then_eq (a := ()) rfl rfl)))))
  · rw [exec_slrel, execSlrel]
    exact issue_wait goes (Act.bind_eq (a := s) rfl (Act.check_then (decide_eq_true low) (Act.check_then
      ((releases_iff s _ _).mpr mine) (Act.until_waits (Bool.eq_false_iff.mpr fun all => busy ((still_iff s _ _).mp all))))))
  · rw [exec_slqry, execSlqry]
    refine issue_gives goes (Act.bind_eq (a := s) rfl ?_)
    rw [if_neg (show ¬ (vs.headD 0).toNat = 64 from Nat.ne_of_lt low), if_neg (Nat.not_lt.mpr (Nat.le_of_lt low))]
    rfl
  · rw [exec_slqry, execSlqry]
    refine issue_gives goes (Act.bind_eq (a := s) rfl ?_)
    rw [if_pos (show (vs.headD 0).toNat = 64 from all)]
    rfl
  · rw [exec_slqry, execSlqry]
    refine issue_trap goes (Act.bind_eq (a := s) rfl ?_)
    rw [if_neg (show ¬ (vs.headD 0).toNat = 64 from Nat.ne_of_gt high), if_pos (show 64 < (vs.headD 0).toNat from high)]
    rfl
  · rw [exec_slclaimGrant, execSlclaimGrant]
    refine onStrand_next front ?_
    have reads : u.cur.readSrcs .m [(o.a, false)] u.cur.links = .ok [vs.headD 0] ls := by
      have one := eq_of_length_one goes.length
      rw [← one]
      exact goes.reads
    have claim := slclaim_takes goes some' low fits run
    subst word
    rw [if_neg (by rintro ⟨one, two⟩; exact runs.elim one two)]
    simp only [instr, reads]
    rw [if_pos ⟨Option.isSome_iff_exists.mpr ⟨n, run⟩, Option.isNone_iff_eq_none.mpr free⟩]
    exact claim
  · intro named n rest n' side d nth qz ql qd qg qp idle bad read put five all
    refine ⟨?_, ?_, ?_, ?_⟩
    · simp only [five, List.forall_mem_cons]
      refine ⟨fun goes absent => ?_, fun goes absent => ?_, fun goes absent => ?_, fun goes absent => ?_, fun goes absent => ?_,
        fun e mem => nomatch mem⟩
      · simp only [exec_accz, execAccz, accSrcs_eq, accArg_eq]
        exact issue_trap goes (Act.bind_of_stop (accTile_absent absent))
      · simp only [exec_accld, execAccld, accSrcs_eq, accLast_eq]
        exact issue_trap goes (Act.bind_of_stop (accTile_absent absent))
      · simp only [exec_ndrain, execNdrain, accSrcs_eq, accArg_eq]
        exact issue_trap goes (Act.bind_of_stop (accTile_absent absent))
      · simp only [exec_smxrd, execSmxrd, accSrcs_eq, accArg_eq]
        exact issue_trap goes (Act.bind_of_stop (accTile_absent absent))
      · simp only [exec_smxset, execSmxset, accSrcs_eq, accLast_eq]
        exact issue_trap goes (Act.bind_of_stop (accTile_absent absent))
    · simp only [five, List.forall_mem_cons]
      refine ⟨fun goes held used => ?_, fun goes held used => ?_, fun goes held used => ?_, fun goes held used => ?_,
        fun goes held used => ?_, fun e mem => nomatch mem⟩
      · simp only [exec_accz, execAccz, accSrcs_eq, accArg_eq]
        exact issue_wait goes (Act.bind_of_stop (accTile_waits held used))
      · simp only [exec_accld, execAccld, accSrcs_eq, accLast_eq]
        exact issue_wait goes (Act.bind_of_stop (accTile_waits held used))
      · simp only [exec_ndrain, execNdrain, accSrcs_eq, accArg_eq]
        exact issue_wait goes (Act.bind_of_stop (accTile_waits held used))
      · simp only [exec_smxrd, execSmxrd, accSrcs_eq, accArg_eq]
        exact issue_wait goes (Act.bind_of_stop (accTile_waits held used))
      · simp only [exec_smxset, execSmxset, accSrcs_eq, accLast_eq]
        exact issue_wait goes (Act.bind_of_stop (accTile_waits held used))
    · intro held idle
      have tile := accTile_ok held idle
      refine ⟨fun goes => ?_, fun goes on good => ?_, fun goes off good => ?_, fun goes => ⟨fun low good => ?_, fun low bad => ?_,
        fun high => ?_⟩⟩
      · simp only [exec_accz, execAccz, accSrcs_eq, accArg_eq]
        exact issue_next goes (Act.bind_eq tile (Act.then_eq (a := ()) rfl (Act.then_eq (a := ()) rfl rfl)))
      · have side' : accSide x = true := on
        have uses : qd = r.issue .m 0x6D (lenOf x) (if (accNamed x).isSome then [] else [o.a]) [.vec d] 36 :=
          congrArg (fun names => r.issue .m 0x6D (lenOf x) (nth o.a) names 36) (if_pos on)
        rw [uses] at goes ⊢
        rw [exec_ndrain, execNdrain_eq, side', drains, accSrcs_eq]
        simp only [accArg_eq]
        exact issue_next goes (Act.bind_eq tile (Act.then_eq (accSound_ok good) rfl))
      · have side' : accSide x = false := off
        have uses : qd = r.issue .m 0x6D (lenOf x) (if (accNamed x).isSome then [] else [o.a]) (tab 4 fun q => .vec (d + q)) 36 :=
          congrArg (fun names => r.issue .m 0x6D (lenOf x) (nth o.a) names 36) (if_neg (Bool.eq_false_iff.mp off))
        rw [uses] at goes ⊢
        rw [exec_ndrain, execNdrain_eq, side', drains, accSrcs_eq]
        simp only [accArg_eq]
        exact issue_next goes (Act.bind_eq tile (Act.then_eq (accSound_ok good) rfl))
      · simp only [exec_smxrd, execSmxrd, accSrcs_eq, accArg_eq]
        exact issue_next goes (Act.bind_eq tile (Act.check_then (decide_eq_true low) (Act.then_eq (accSound_ok good) rfl)))
      · obtain ⟨va, stops⟩ := accSound_bad bad
        simp only [exec_smxrd, execSmxrd, accSrcs_eq, accArg_eq]
        exact ⟨va, issue_uncorr goes (Act.bind_eq tile (Act.check_then (decide_eq_true low) (Act.bind_of_stop stops)))⟩
      · simp only [exec_smxrd, execSmxrd, accSrcs_eq, accArg_eq]
        exact issue_trap goes (Act.bind_eq tile (Act.check_fails (decide_eq_false (Nat.not_lt.mpr high))))
    · intro held idle
      have tile := accTile_ok held idle
      refine ⟨fun goes low named plain free poison soft => ?_, fun goes low named typed => ?_,
        fun goes => ⟨fun low => ?_, fun high => ?_⟩⟩
      · simp only [exec_accld, execAccld, accSrcs_eq, accLast_eq]
        exact issue_next goes (Act.bind_eq tile (Act.bind_eq (heldTile_ok low named) (Act.check_then (decide_eq_true plain)
          (Act.bind_eq (a := s) rfl (Act.until_then ((Bool.not_eq_true' _).mpr free) (Act.then_eq (rowsSound_clean _ _ _ _ poison soft)
            (Act.then_eq (a := ()) rfl (Act.then_eq (a := ()) rfl rfl))))))))
      · simp only [exec_accld, execAccld, accSrcs_eq, accLast_eq]
        exact issue_trap goes (Act.bind_eq tile (Act.bind_eq (heldTile_ok low named)
          (Act.check_fails (decide_eq_false (Nat.not_le.mpr typed)))))
      · simp only [exec_smxset, execSmxset, accSrcs_eq, accLast_eq]
        exact issue_next goes (Act.bind_eq tile (Act.check_then (decide_eq_true low) (Act.then_eq (a := ()) rfl
          (Act.then_eq (a := ()) rfl rfl))))
      · simp only [exec_smxset, execSmxset, accSrcs_eq, accLast_eq]
        exact issue_trap goes (Act.bind_eq tile (Act.check_fails (decide_eq_false (Nat.not_lt.mpr high))))

end Machine
end Sys2Proof

/-! ### Nests -/

namespace Sys2Proof
namespace Machine

theorem setShadow_ok (f : NestCfg → NestCfg) (s : State) :
    setShadow f s = .ok (.of []) (s.setCur fun t => { t with shadow := f t.shadow }) := rfl

theorem State.slotsRead_clock (s : State) : s.slotsRead.clock = s.clock := by
  have keeps (is : List Nat) (t : State) : (is.foldl (fun (s : State) n => s.setSlot s.curCore n fun o =>
      if o.st = .busy then { o with st := .full } else o) t).clock = t.clock := by
    induction is generalizing t with
    | nil => rfl
    | cons i is ih => exact ih _
  exact keeps _ s

/-! #### NGO's checks (R258) -/

section Start
variable {c : NestCfg} {s : State}

/-- The numbers that the steps name lie in range. -/
structure NestCfg.Ranges (c : NestCfg) (nacc : Nat) : Prop where
  a : inRange (indexRange c.a0 NestLevel.sa c.lv) 64 = true
  b : inRange (indexRange c.b0 NestLevel.sb c.lv) 64 = true
  out : inRange (indexRange c.c0 NestLevel.sc c.lv) nacc = true
  chained : c.mode = 1 → inRange (indexRange c.v0 NestLevel.sb c.lv) 64 = true ∧ c.sx < nacc ∧
    (∀ d ∈ levelOffsets NestLevel.sc false c.lv, (c.c0 : Int) + d ≠ c.sx) ∧ ∃ n d, f32v c.smscale = .fin false n d ∧ n ≠ 0

theorem ngoSlots_ok (ranges : c.Ranges s.cur.acc.length)
    (holds : ∀ i ∈ c.slotsNamed, (s.slot s.curCore i).heldBy s.cur.key = true) : ngoSlots c s = .ok () s := by
  obtain ⟨a, b, out, chained⟩ := ranges
  refine Act.bind_eq (a := s) rfl (Act.check_then ?_ (Act.check_then ?_ (Act.check_passes s (List.all_eq_true.mpr holds))))
  · by_cases smx : c.mode = 1
    · obtain ⟨v, sx, -⟩ := chained smx
      simp [a, b, out, v, sx]
    · simp [a, b, out, smx]
  · by_cases smx : c.mode = 1
    · obtain ⟨-, -, apart, n, d, scale, some'⟩ := chained smx
      rw [scale]
      simpa [some'] using Or.inr apart
    · simp [smx]

/-- The rows of the output have their place, outside tiles (R258, R263). -/
structure NestCfg.Dests (c : NestCfg) (nacc : Nat) : Prop where
  plain : c.epi.kind ≠ 2
  acc : c.epi.kind = 1 → ∀ d ∈ levelOffsets NestLevel.sc true c.lv,
    0 ≤ ((c.epi.dest.toNat % 64 : Nat) : Int) + d * c.epi.dstep.toInt ∧
      ((c.epi.dest.toNat % 64 : Nat) : Int) + d * c.epi.dstep.toInt < nacc
  memory : c.epi.kind = 3 → c.epi.dest.toNat % max 1 (codeBits c.epi.ofmt / 8) = 0 ∧ c.epi.rstr.toNat % c.epi.rowOut = 0

theorem ngoDest_ok (dests : c.Dests s.cur.acc.length) : ngoDest c s = .ok () s := by
  obtain ⟨plain, acc, memory⟩ := dests
  have found : c.epi.kind = 1 → ((levelOffsets NestLevel.sc true c.lv).find? fun d =>
      decide (((c.epi.dest.toNat % 64 : Nat) : Int) + d * c.epi.dstep.toInt < 0) ||
        decide ((s.cur.acc.length : Int) ≤ ((c.epi.dest.toNat % 64 : Nat) : Int) + d * c.epi.dstep.toInt)) = none := by
    refine fun kind => List.find?_eq_none.mpr fun d mem => ?_
    obtain ⟨low, high⟩ := acc kind d mem
    simp only [Bool.or_eq_true, decide_eq_true_iff]
    omega
  refine Act.bind_eq (a := s) rfl ?_
  have cases' (k : Nat) (kind : c.epi.kind = k) : k = 0 ∨ k = 1 ∨ k = 3 ∨ 4 ≤ k := by
    have := kind ▸ plain
    omega
  obtain zero | one | three | high := cases' _ rfl
  · rw [zero]
    rfl
  · have found := found one
    rw [one]
    dsimp only
    rw [found]
    rfl
  · obtain ⟨dest, stride⟩ := memory three
    rw [three]
    exact Act.check_passes s ((Bool.and_eq_true ..).mpr ⟨beq_iff_eq.mpr dest, beq_iff_eq.mpr stride⟩)
  · obtain ⟨k, kind⟩ := Nat.exists_eq_add_of_le' high
    rw [kind]
    rfl

/-- The nest of NGO starts, or is the pending one. -/
def State.ngoStarted (w : State) (c : NestCfg) (r : Ring) : State :=
  let new : Nest := ⟨c, 0, w.clock, [], w.clock, r.sp, r.sn⟩
  if w.cur.nest.isSome then w.setCur fun t => { t with pend := some new }
  else (w.setCur fun t => { t with nest := some new }).post .nestStep w.cur.key

/-- NGO once its checks have passed. -/
theorem ngo_starts {r : Ring} {u w : State} (free : s.cur.pend = none) (some' : s.cur.shadow.total ≠ 0)
    (slots : ngoSlots s.cur.shadow s = .ok () u) (dest : ngoDest s.cur.shadow u = .ok () w) :
    (Act.get.bind fun s => (Act.until s.cur.pend.isNone 0).andThen
      (if s.cur.shadow.total = 0 then (startAct .m 0x6B r (.fill 0 0 0 0 false 0) [] none).andThen noResult
      else (ngoSlots s.cur.shadow).andThen ((ngoDest s.cur.shadow).andThen ((Act.modify fun t => t.ngoStarted s.cur.shadow r).andThen
        noResult)))) s = .ok (.of []) (w.ngoStarted s.cur.shadow r) := by
  refine Act.bind_eq (a := s) rfl (Act.until_then (Option.isNone_iff_eq_none.mpr free) ?_)
  rw [if_neg some']
  exact Act.then_eq slots (Act.then_eq dest rfl)

end Start

/-! #### One step (R259) -/

section Step
variable {n : Nest} {s w : State} {c : AccTile} {res : StepOut}

theorem plainStep_shape {cfg : NestCfg} {st : NestStep} {a b : OpSlot} (done : plainStep cfg st a b c = .ok res) :
    res.sx = none ∧ res.pev = (0, []) := by
  simp only [plainStep] at done
  -- every branch that gives a result gives one of this shape
  repeat' split at done
  all_goals cases done
  all_goals exact ⟨rfl, rfl⟩

theorem State.heal_clean {s : State} (clean : s.mem.poison = []) (st : Store) (addr n : Nat) : s.heal st addr n = s := by
  rw [State.heal, clean]
  rfl

theorem stepSound_clean (st : NestStep) (poison : s.mem.poison = []) (soft : s.mem.soft = []) : stepSound n st s = .ok () s := by
  refine Act.bind_eq (a := s) rfl ?_
  rw [poison, soft]
  rfl

/-- A plain or sparse step that is not the last of its tile. -/
theorem stepAct_plain (plain : n.cfg.mode ≠ 1) (more : (n.cfg.stepAt n.done).last = false)
    (tile : s.cur.acc[(n.cfg.stepAt n.done).c]? = some c) (poison : s.mem.poison = []) (soft : s.mem.soft = [])
    (descs : ∀ i ∈ n.cfg.stepSlots (n.cfg.stepAt n.done), (s.slot s.curCore i).descsOk = true)
    (done : plainStep n.cfg (n.cfg.stepAt n.done) (s.slot s.curCore (n.cfg.stepAt n.done).a)
      (s.slot s.curCore (n.cfg.stepAt n.done).b) c = .ok res) (keeps : res.unrep = false) :
    stepAct n s = .ok none (((s.setCur fun k => k.setAcc (n.cfg.stepAt n.done).c res.c).fpEvents 0 res.ev).fpEvents 0 []) := by
  obtain ⟨sx, pev⟩ := plainStep_shape done
  refine Act.bind_eq (a := s) rfl ?_
  simp only [tile]
  refine Act.then_eq (stepSound_clean _ poison soft) (Act.check_then (List.all_eq_true.mpr descs) ?_)
  rw [if_neg plain, done]
  refine Act.then_eq (a := ()) (t := s) ?_ ?_
  · rw [keeps]
    rfl
  · rw [sx, pev, more]
    refine Act.then_eq (a := ()) (t := s) rfl (Act.then_eq (a := ()) (t := s) ?_ (Act.then_eq (a := ()) rfl
      (Act.then_eq (a := ()) rfl rfl)))
    exact congrArg (Res.ok ()) (s.heal_clean poison ..)

end Step

section Unit
variable {key : Nat} {s u : State} {n : Nest}

/-- The state of a nest's strand whose step may start. -/
structure StepStarts (s : State) (key : Nat) (u : State) (n : Nest) : Prop where
  front : s.Front key u
  nest : u.cur.nest = some n
  live : u.cur.ph.st ≠ .cancelled
  here : u.cur.st ≠ .saved
  power : u.throttled 0 u.curCore = false
  ready : n.ready ≤ u.clock
  more : n.done < n.cfg.total

/-- The slots of a nest's next step. -/
def Nest.slots (n : Nest) : List Nat := n.cfg.stepSlots (n.cfg.stepAt n.done)

theorem nestStep_lost (starts : StepStarts s key u n) (lost : ∃ i ∈ n.slots, (u.slotsRead.slot u.slotsRead.curCore i).heldBy key = false) :
    exec (.nestStep key) s = s.backTo (u.slotsRead.nestStop tNEST (nestArgs 4 n)) := by
  obtain ⟨front, nest, live, here, power, ready, more⟩ := starts
  rw [exec_nestStep, execNestStep]
  refine onStrand_next front ?_
  rw [nest]
  dsimp only
  rw [if_neg (fun h => h.elim live here), if_neg (ne_true_of_eq_false power), if_neg (Nat.not_lt.mpr ready), if_neg (Nat.not_le.mpr more), if_pos]
  simpa [Nest.slots] using lost

theorem nestStep_waits (starts : StepStarts s key u n)
    (held : ∀ i ∈ n.slots, (u.slotsRead.slot u.slotsRead.curCore i).heldBy key = true)
    (short : ∃ i ∈ n.slots, (u.slotsRead.slot u.slotsRead.curCore i).st ≠ .full) :
    let t := u.slotsRead
    let late := n.slots.filter fun i => (t.slot t.curCore i).st != .full
    let since : SMap Nat := late.foldl (fun m i => SMap.set m i (SMap.getD n.since i t.clock)) []
    exec (.nestStep key) s = s.backTo ((t.setCur fun t => { t with nest := some { n with since } }).postOnce
           (if t.slotLimit since then .nestSlotWaitLimit else .nestStep) key) := by
  obtain ⟨front, nest, live, here, power, ready, more⟩ := starts
  rw [exec_nestStep, execNestStep]
  refine onStrand_next front ?_
  rw [nest]
  dsimp only
  rw [if_neg (fun h => h.elim live here), if_neg (ne_true_of_eq_false power), if_neg (Nat.not_lt.mpr ready), if_neg (Nat.not_le.mpr more), if_neg, if_pos]
  · rw [apply_ite (fun next => State.postOnce _ next key)]
    rfl
  · simpa [Nest.slots] using short
  · simpa [Nest.slots] using held

/-- A nest on `w` after its step that began at `clock`: it goes on, or stops with its reason. -/
def Nest.after (n : Nest) (key clock : Nat) (w : State) : Option Nat → State
  | none =>
    let busy := n.slots.foldl (fun (s : State) i => s.setSlot s.curCore i fun k => { k with st := .busy }) (w.unhold .m (some 0))
    let next : Nest := { n with done := n.done + 1, ready := clock + n.cfg.pace (n.cfg.stepAt n.done) n.done, since := [] }
    (busy.setCur fun t => { t with nest := some next }).postOnce .nestStep key
  | some why => w.nestStop tNEST (nestArgs why n)

theorem nestStep_acts (starts : StepStarts s key u n) {w : State} {why : Option Nat}
    (full : ∀ i ∈ n.slots, (u.slotsRead.slot u.slotsRead.curCore i).heldBy key = true ∧
      (u.slotsRead.slot u.slotsRead.curCore i).st = .full)
    (act : stepAct n u.slotsRead = .ok why w) : exec (.nestStep key) s = s.backTo (n.after key u.clock w why) := by
  obtain ⟨front, nest, live, here, power, ready, more⟩ := starts
  rw [exec_nestStep, execNestStep]
  refine onStrand_next front ?_
  rw [nest]
  dsimp only
  rw [if_neg (fun h => h.elim live here), if_neg (ne_true_of_eq_false power), if_neg (Nat.not_lt.mpr ready),
    if_neg (Nat.not_le.mpr more), if_neg, if_neg]
  · simp only [act, u.slotsRead_clock]
    cases why <;> rfl
  · simpa [Nest.slots] using fun i mem => (full i mem).2
  · simpa [Nest.slots] using fun i mem => (full i mem).1

theorem slotLimit_iff {since : SMap Nat} :
    s.slotLimit since = true ↔ s.cur.sys.stl ≠ 0 ∧ ∃ p ∈ since, s.cur.sys.stl.toNat < s.clock - p.2 := by
  rw [State.slotLimit, Bool.and_eq_true, List.any_eq_true, bne_iff_ne]
  simp only [decide_eq_true_iff]
  refine and_congr_left' (not_congr ⟨fun h => BitVec.eq_of_toNat_eq h, fun h => by rw [h]; rfl⟩)

theorem nestSlotWaitLimit_step (front : s.Front key u) (nest : u.cur.nest = some n) :
    exec (.nestSlotWaitLimit key) s = s.backTo (if u.cur.sys.stl ≠ 0 ∧ ∃ p ∈ n.since, (u.slot u.curCore p.1).st ≠ .full ∧
      u.cur.sys.stl.toNat < u.clock - p.2 then u.nestStop tNEST (nestArgs 5 n) else u.postOnce .nestStep key) := by
  rw [exec_nestSlotWaitLimit, execNestSlotWaitLimit]
  refine onStrand_next front ?_
  rw [nest]
  dsimp only
  have limit : u.slotLimit (n.since.filter fun e => (u.slot u.curCore e.1).st != .full) = true ↔
      u.cur.sys.stl ≠ 0 ∧ ∃ p ∈ n.since, (u.slot u.curCore p.1).st ≠ .full ∧ u.cur.sys.stl.toNat < u.clock - p.2 := by
    rw [slotLimit_iff]
    simp only [List.mem_filter, bne_iff_ne, and_assoc]
  by_cases waited : u.slotLimit (n.since.filter fun e => (u.slot u.curCore e.1).st != .full) = true
  · rw [if_pos (limit.mp waited), if_neg]
    simpa using waited
  · rw [if_neg (fun h => waited (limit.mpr h)), if_pos]
    simpa using waited

/-- The state in which a nest that ends has posted NGO's signals. -/
def State.nestDone (u : State) (n : Nest) : State :=
  (u.slotsRead.emitCore .m 0x007 (BitVec.ofNat 32 n.done) 0).starting .m 0x6B { Ring.quiet with sp := n.sp, sn := n.sn }
    (.fill 0 0 0 0 false 0) [] none

theorem nestComplete_ends (front : s.Front key u) (nest : u.cur.nest = some n) (all : n.cfg.total ≤ n.done) (ready : n.ready ≤ u.clock)
   (alone : (u.nestDone n).cur.pend = none) :
    exec (.nestComplete key) s = s.backTo ((u.nestDone n).setCur fun c => { c with nest := none }) := by
  rw [exec_nestComplete, execNestComplete]
  refine onStrand_next front ?_
  rw [nest]
  dsimp only
  rw [if_neg (fun h => h.elim (Nat.not_lt.mpr all) (Nat.not_lt.mpr ready))]
  simp only [show (State.startOp _ .m 0x6B _ _ _ true).2.cur.pend = none from alone]
  rfl

theorem nestComplete_next {m : Nest} (front : s.Front key u) (nest : u.cur.nest = some n) (all : n.cfg.total ≤ n.done) (ready : n.ready ≤ u.clock)
   (next : (u.nestDone n).cur.pend = some m) :
    exec (.nestComplete key) s = s.backTo (((u.nestDone n).setCur fun c =>
      { c with nest := some { m with ready := (u.nestDone n).clock }, pend := none }).postOnce .nestStep key) := by
  rw [exec_nestComplete, execNestComplete]
  refine onStrand_next front ?_
  rw [nest]
  dsimp only
  rw [if_neg (fun h => h.elim (Nat.not_lt.mpr all) (Nat.not_lt.mpr ready))]
  simp only [show (State.startOp _ .m 0x6B _ _ _ true).2.cur.pend = some m from next]
  rfl
end Unit

theorem nqry_value (s : State) (a : BitVec 5) :
    (match a.toNat with
      | 0 => b2n s.cur.nest.isSome + 2 * b2n s.cur.pend.isSome
      | 1 => (s.cur.nest.map fun n => n.completed s.clock).getD 0
      | _ => (s.cur.nest.map fun n => n.cfg.total).getD 0) =
    if a.toNat = 0 then b2n s.cur.nest.isSome + 2 * b2n s.cur.pend.isSome
       else if a.toNat = 1 then (s.cur.nest.map fun n => if s.clock < n.ready then n.done - 1 else n.done).getD 0
       else (s.cur.nest.map fun n => n.cfg.total).getD 0 := by
  obtain zero | one | more : a.toNat = 0 ∨ a.toNat = 1 ∨ 2 ≤ a.toNat := by omega
  · rw [zero]
    rfl
  · rw [one]
    rfl
  · obtain ⟨k, eq⟩ := Nat.exists_eq_add_of_le' more
    rw [eq]
    rfl

end Machine

open Machine

/-- Settles O47: an instruction completes from the outcomes of its checks in order, a step of the nest from the choice
that `execNestStep` makes between its slots' states and its array work. -/
theorem nests : Obligations.Nests := by
  unfold Obligations.Nests
  intro r o y z x s u w vs l b n m key c' res
  refine ⟨fun goes => ⟨fun fits => ?_, fun large => ?_⟩, ⟨fun goes fits sx => ?_, fun large => ?_, fun fits large => ?_⟩,
    fun goes => ?_, fun goes => ?_, fun goes => ⟨fun fits => ?_, fun large => ?_⟩,
    fun goes => ⟨fun aligned canon loads => ⟨fun ok => ?_, fun bad => ?_⟩, fun misaligned => ?_⟩, fun goes => ?_,
    fun goes => ⟨fun pend => ?_, fun free none' => ?_, fun free some' ranges holds dests => ?_, fun free some' slots dest => ?_⟩,
    fun goes => ⟨fun idle => ?_, fun runs => ?_⟩, fun goes => ?_,
    fun front nest live here power ready more => ?_, fun front nest all ready => ⟨nestComplete_ends front nest all ready, nestComplete_next front nest all ready⟩,
    fun front nest => ⟨fun waited => ?_, fun short => ?_⟩⟩
  · rw [exec_nlvl, execNlvl]
    exact issue_ends goes (Act.bind_eq (a := s) rfl (Act.check_then (decide_eq_true fits) (setShadow_ok ..)))
  · rw [exec_nlvl, execNlvl]
    exact issue_trap goes (Act.bind_eq (a := s) rfl (Act.check_fails (decide_eq_false (Nat.not_lt.mpr large))))
  · rw [exec_nops, execNops, decide_eq_true fits, decide_eq_true sx]
    exact issue_ends goes (setShadow_ok ..)
  · rw [exec_nops, execNops]
    refine issue_early_trap (p := (tHANDLE, [z.c0.setWidth 64])) rfl ?_
    rw [decide_eq_false (Nat.not_lt.mpr large)]
    rfl
  · rw [exec_nops, execNops]
    refine issue_early_trap (p := (tHANDLE, [z.sx.setWidth 64])) rfl ?_
    rw [decide_eq_true fits, decide_eq_false (Nat.not_lt.mpr large)]
    rfl
  · rw [exec_nmode, execNmode]
    exact issue_ends goes (setShadow_ok ..)
  · rw [exec_nseg, execNseg]
    exact issue_ends goes (setShadow_ok ..)
  · rw [exec_nscl, execNscl]
    exact issue_ends goes (Act.check_then (decide_eq_true fits) (setShadow_ok ..))
  · rw [exec_nscl, execNscl]
    exact issue_trap goes (Act.check_fails (decide_eq_false (Nat.not_lt.mpr large)))
  · rw [exec_nepi, execNepi]
    exact issue_ends goes (Act.then_eq (checkAddr_passes aligned canon s) (Act.bind_eq (loadOne_ok loads)
      (Act.check_then ok (setShadow_ok ..))))
  · rw [exec_nepi, execNepi]
    exact issue_trap goes (Act.then_eq (checkAddr_passes aligned canon s) (Act.bind_eq (loadOne_ok loads) (Act.check_fails bad)))
  · rw [exec_nepi, execNepi]
    exact issue_trap goes (Act.bind_of_stop (checkAddr_misaligned misaligned s))
  · rw [exec_nepiDef, execNepiDef]
    exact issue_ends goes (setShadow_ok ..)
  · rw [exec_ngo, execNgo]
    exact issue_wait goes (Act.bind_eq (a := s) rfl (Act.until_waits (Option.isNone_eq_false_iff.mpr pend)))
  · rw [exec_ngo, execNgo]
    refine issue_ends goes (Act.bind_eq (a := s) rfl (Act.until_then (Option.isNone_iff_eq_none.mpr free) ?_))
    rw [if_pos none']
    exact Act.then_eq (starting_eq ..) rfl
  · rw [exec_ngo, execNgo]
    obtain ⟨a, b, out, chained⟩ := ranges
    obtain ⟨plain, acc, memory⟩ := dests
    exact issue_ends goes (ngo_starts free some' (ngoSlots_ok ⟨a, b, out, chained⟩ holds) (ngoDest_ok ⟨plain, acc, memory⟩))
  · rw [exec_ngo, execNgo]
    exact issue_ends goes (ngo_starts free some' slots dest)
  · rw [exec_nwait, execNwait]
    refine issue_ends goes (Act.bind_eq (a := s) rfl (Act.until_then ?_ rfl))
    rw [idle]
    rfl
  · rw [exec_nwait, execNwait]
    exact issue_wait goes (Act.bind_eq (a := s) rfl (Act.until_waits (Option.isNone_eq_false_iff.mpr runs)))
  · rw [exec_nqry, execNqry]
    exact issue_gives goes (Act.bind_eq (a := s) rfl (congrArg (fun v => result o.d (w64 v) s) (nqry_value s o.a)))
  · have starts : StepStarts s key u n := ⟨front, nest, live, here, power, ready, more⟩
    refine ⟨fun full => ⟨fun plain more' tile poison soft descs done keeps => ?_, fun act => ?_, fun why act => ?_⟩,
      nestStep_lost starts, nestStep_waits starts⟩
    · exact nestStep_acts starts full (stepAct_plain plain more' tile poison soft descs done keeps)
    · exact nestStep_acts starts full act
    · exact nestStep_acts starts full act
  · rw [nestSlotWaitLimit_step front nest, if_pos waited]
  · rw [nestSlotWaitLimit_step front nest, if_neg short]

end Sys2Proof

/-! ### Host writes -/

namespace Sys2Proof
namespace Machine

section Queue
variable {s : State} {q : Queue} {tail : BitVec 32}

/-- A kick of a parsing queue. -/
theorem kickQueue_parse (parse : q.st = .parse) : s.kickQueue q tail =
    s.setQueue (if tail = q.head then { q with tail := tail, st := .idle, reads := 0 } else { q with tail := tail }) := by
  simp only [State.kickQueue, parse]

theorem kickQueue_dormant (dormant : q.st = .dormant) : s.kickQueue q tail =
    if (s.ctxOf q.ctx).res then (s.setQueue { q with tail := tail }).askSlot { q with tail := tail }
    else ((s.setQueue { q with tail := tail }).setCtx q.ctx fun c => { c with pending := c.pending || c.st != .free }).postOnce
      .contextResident q.ctx := by
  simp only [State.kickQueue, dormant]
  rfl

theorem kickQueue_stale (stale : q.st = .stale) : s.kickQueue q tail =
    (s.setQueue { q with tail := tail, st := .parse, reads := 0 }).postOnce .queueParse q.key := by
  simp only [State.kickQueue, stale]

theorem kickQueue_waits (waits : q.st ∈ [QSt.ready, .parked]) : s.kickQueue q tail = s.setQueue { q with tail := tail } := by
  have ready : q.st = .ready ∨ q.st = .parked := by simpa using waits
  obtain st | st := ready <;> simp only [State.kickQueue, st]

theorem setCtx_same {n : Nat} {f g : Context → Context} (same : f (s.ctxOf n) = g (s.ctxOf n)) : s.setCtx n f = s.setCtx n g := by
  simp only [State.setCtx, SMap.upd]
  rw [show f (SMap.getD s.ctl.ctxs n .free) = g (SMap.getD s.ctl.ctxs n .free) from same]

end Queue

/-! #### Page answers, the method cache and frame pools -/

section Window
variable {s : State} {fn : Nat} {v : Word}

theorem answerPage_resident {rqid : BitVec 32} {req : PageReq}
    (found : s.mem.reqs.find? (fun p => p.rqid == rqid && (s.ctxOf p.ctx).fn == fn) = some req) :
    s.answerPage fn rqid 0 =
      let t := State.countAnswered { s with mem := { s.mem with reqs := s.mem.reqs.erase req } } req
      (s.mem.waits.filter fun w => w.rqid == rqid).foldl (fun s w => s.repost w.item)
        { t with mem := { t.mem with waits := t.mem.waits.filter fun w => w.rqid != rqid } } := by
  simp only [State.answerPage, found]
  rfl

theorem answerPage_failed {rqid : BitVec 32} {req : PageReq} {trap : Nat} (failed : trap ≠ 0)
    (found : s.mem.reqs.find? (fun p => p.rqid == rqid && (s.ctxOf p.ctx).fn == fn) = some req) :
    s.answerPage fn rqid trap =
      (s.mem.waits.filter fun w => w.rqid == rqid).foldl State.dropWait
        ((State.answerAll { s with mem := { s.mem with reqs := s.mem.reqs.erase req } } rqid trap).endWarms req.ctx req.va) := by
  simp only [State.answerPage, found]
  exact if_neg failed

/-- MTFLUSH's GO. -/
def State.flushed (s : State) (v : Word) : State := if v.getLsbD 63 then s.flushMethods (getBits v 32 12) else s

theorem mtflush_go (known : s.alien fn (getBits v 32 12) = false) (retry : v.getLsbD 62 = false) (discard : v.getLsbD 61 = false) :
    s.mtflush fn v = s.flushed v := by
  simp only [State.mtflush, known, retry, discard]
  rfl

theorem mtflush_retry {q : Queue} (known : s.alien fn (getBits v 32 12) = false) (found : s.queue? (queueKey fn (getBits v 0 20)) = some q)
    (parked : q.hasParked = true) (retry : v.getLsbD 62 = true) (discard : v.getLsbD 61 = false) :
    s.mtflush fn v = (s.flushed v).retryParked q := by
  simp only [State.mtflush, known, retry, discard, found, parked]
  rfl

theorem mtflush_discard {q : Queue} (known : s.alien fn (getBits v 32 12) = false) (found : s.queue? (queueKey fn (getBits v 0 20)) = some q)
    (parked : q.hasParked = true) (retry : v.getLsbD 62 = false) (discard : v.getLsbD 61 = true) :
    s.mtflush fn v = (s.flushed v).discardParked q 2 := by
  simp only [State.mtflush, known, retry, discard, found, parked]
  rfl

theorem writeCons_ok {handler : Bool} {tail : BitVec 32} (owned : s.owns fn (s.fnRegs fn).sel.toNat = true)
    (room : ((if handler then (s.ctxOf (s.fnRegs fn).sel.toNat).hprod else (s.ctxOf (s.fnRegs fn).sel.toNat).tprod) - tail).toNat ≤
      2 ^ (if handler then (s.ctxOf (s.fnRegs fn).sel.toNat).record.hqlog2 else (s.ctxOf (s.fnRegs fn).sel.toNat).record.tqlog2)) :
    s.writeCons fn handler tail = (s.setCtx (s.fnRegs fn).sel.toNat fun c =>
      if handler then { c with hcons := tail } else { c with tcons := tail }).flushRings :=
  if_neg fun h => h.elim (fun no => by simp [owned] at no) (Nat.not_lt.mpr room)

/-- The function's registers with the fields of an FPCMD write. -/
def State.fpcmdFields (s : State) (fn : Nat) (v : Word) : State := s.setFn fn fun r => { r with fpcmd := v &&& 0x7F00000000000FFF }

/-- FPSTS after a command on a pool. -/
def State.poolCounted (s : State) (fn id pool size : Nat) : State :=
  let l := SMap.getD s.mem.pools (poolKey id pool) []
  s.setFn fn fun r => { r with fpsts := w64 (l.length + (l.filter fun e => e / 2 ^ 36 == size).length * 2 ^ 32) }

/-- A pool with its entries changed. -/
def State.poolPut (s : State) (id pool : Nat) (l : List Nat) : State :=
  State.writePool { s with mem := { s.mem with pools := SMap.set s.mem.pools (poolKey id pool) l } } id pool

/-- A command of FPCMD that none of its checks refuses. -/
structure FpcmdSound (s : State) (fn : Nat) (v : Word) : Prop where
  go : v.getLsbD 63 = true
  size : getBits v 59 2 ≠ 3
  pool : getBits v 56 3 ≤ 4
  rsv : getBits v 12 44 = 0
  known : (s.fpcmdFields fn v).alien fn (getBits v 0 12) = false
  pools : ((s.fpcmdFields fn v).ctxOf (getBits v 0 12)).record.poollog2 ≠ 0

theorem FpcmdSound.accepted (sound : FpcmdSound s fn v) (op : getBits v 61 2 ≠ 0) :
    ¬ (getBits v 61 2 = 0 ∨ getBits v 59 2 = 3 ∨ 4 < getBits v 56 3 ∨ getBits v 12 44 ≠ 0 ∨
      (s.fpcmdFields fn v).alien fn (getBits v 0 12) = true ∨ ((s.fpcmdFields fn v).ctxOf (getBits v 0 12)).record.poollog2 = 0) := by
  obtain ⟨-, size, pool, rsv, known, pools⟩ := sound
  simp [op, size, rsv, known, pools, pool]

section
variable (sound : FpcmdSound s fn v)
include sound

theorem writeFpcmd_add (op : getBits v 61 2 = 1)
    (ok : (s.fpcmdFields fn v).poolAddOk (getBits v 0 12) (getBits v 56 3) (getBits v 59 2)
      ((s.fpcmdFields fn v).fnRegs fn).fparg.toNat = true) :
    s.writeFpcmd fn v = ((s.fpcmdFields fn v).poolPut (getBits v 0 12) (getBits v 56 3)
      (poolEntry ((s.fpcmdFields fn v).fnRegs fn).fparg.toNat (getBits v 59 2) ::
        SMap.getD s.mem.pools (poolKey (getBits v 0 12) (getBits v 56 3)) [])).poolCounted fn (getBits v 0 12) (getBits v 56 3)
          (getBits v 59 2) := by
  have accepted := sound.accepted (by omega)
  rw [State.writeFpcmd]
  refine (if_neg (by simp [sound.go])).trans ((if_neg accepted).trans ?_)
  rw [op]
  exact congrArg (fun t => State.poolCounted t fn (getBits v 0 12) (getBits v 56 3) (getBits v 59 2)) (if_pos ok)

theorem writeFpcmd_take {e : Nat} (op : getBits v 61 2 = 2)
    (found : (SMap.getD s.mem.pools (poolKey (getBits v 0 12) (getBits v 56 3)) []).find? (fun e => e / 2 ^ 36 == getBits v 59 2) = some e) :
    s.writeFpcmd fn v = (((s.fpcmdFields fn v).poolPut (getBits v 0 12) (getBits v 56 3)
      ((SMap.getD s.mem.pools (poolKey (getBits v 0 12) (getBits v 56 3)) []).erase e)).setFn fn fun r =>
        { r with fparg := w64 (e % 2 ^ 36 * 65536) }).poolCounted fn (getBits v 0 12) (getBits v 56 3) (getBits v 59 2) := by
  have accepted := sound.accepted (by omega)
  rw [State.writeFpcmd]
  refine (if_neg (by simp [sound.go])).trans ((if_neg accepted).trans ?_)
  rw [op]
  simp only [show List.find? (fun e => e / 2 ^ 36 == getBits v 59 2) (SMap.getD (State.setFn s fn _).mem.pools _ []) = some e from found]
  rfl

theorem writeFpcmd_takesNone (op : getBits v 61 2 = 2)
    (found : (SMap.getD s.mem.pools (poolKey (getBits v 0 12) (getBits v 56 3)) []).find? (fun e => e / 2 ^ 36 == getBits v 59 2) = none) :
    s.writeFpcmd fn v = ((s.fpcmdFields fn v).setFn fn fun r => { r with fparg := Word.ones }).poolCounted fn (getBits v 0 12)
      (getBits v 56 3) (getBits v 59 2) := by
  have accepted := sound.accepted (by omega)
  rw [State.writeFpcmd]
  refine (if_neg (by simp [sound.go])).trans ((if_neg accepted).trans ?_)
  rw [op]
  simp only [show List.find? (fun e => e / 2 ^ 36 == getBits v 59 2) (SMap.getD (State.setFn s fn _).mem.pools _ []) = none from found]
  rfl

theorem writeFpcmd_count (op : getBits v 61 2 = 3) :
    s.writeFpcmd fn v = (s.fpcmdFields fn v).poolCounted fn (getBits v 0 12) (getBits v 56 3) (getBits v 59 2) := by
  have accepted := sound.accepted (by omega)
  rw [State.writeFpcmd]
  refine (if_neg (by simp [sound.go])).trans ((if_neg accepted).trans ?_)
  rw [op]
  rfl

end

/-! #### Inspection, trace sinks and the window's reads -/

theorem hostRead_inspd : s.hostRead 0 0x308 = s.inspd := rfl

theorem inspd_breaks (space : getBits s.ctl.inspa 60 4 = 8) (place : getBits s.ctl.inspa 0 52 < 32) :
    s.inspd = (SMap.getD s.ctl.breaks (2 * getBits s.ctl.inspa 52 8 * 16 + getBits s.ctl.inspa 0 52) 0).setWidth 64 := by
  simp only [State.inspd, space]
  exact if_pos place

theorem inspd_inspects (space : getBits s.ctl.inspa 60 4 < 8) :
    s.inspd = (s.inspect (s.fnRegs 0).sel.toNat 0 s.ctl.inspa).getD 0 := by
  rw [State.inspd]
  split
  · omega
  · omega
  · rfl

theorem writeInspd_breaks (space : getBits s.ctl.inspa 60 4 = 8) (place : getBits s.ctl.inspa 0 52 < 32) :
    let key := 2 * getBits s.ctl.inspa 52 8 * 16 + getBits s.ctl.inspa 0 52
    s.writeInspd v = { s with ctl := { s.ctl with breaks := SMap.set s.ctl.breaks key (v.setWidth 32 &&& 0x80003FFF) } } := by
  simp only [State.writeInspd, space]
  exact if_neg (Nat.not_le.mpr place)

theorem writeInspd_resumes (space : getBits s.ctl.inspa 60 4 = 9) (place : getBits s.ctl.inspa 0 52 < 2) :
    s.writeInspd 1 = s.at (2 * getBits s.ctl.inspa 52 8 + getBits s.ctl.inspa 0 52) fun u =>
      if u.cur.st = .halted then u.setCur fun t => { t with st := t.back } else u := by
  simp only [State.writeInspd, space]
  exact (if_neg (Nat.not_le.mpr place)).trans (if_pos trivial)

theorem writeSinkCtl_enables {n : Nat} {k : Sink} (found : s.trc.sinks[n]? = some k) (off : k.enabled = false)
    (enable : v.getLsbD 63 = true) (low : 12 ≤ v.toNat % 32) (high : v.toNat % 32 ≤ 28) :
    let on := { k with ctl := (v &&& 0x400000000000001F) ||| w64 (2 ^ 63), prod := 0, cons := 0, lost := 0 }
    s.writeSinkCtl n v = (tab 5 id).foldl State.syncRecord { s with trc := { s.trc with sinks := s.trc.sinks.set n on } } := by
  simp only [State.writeSinkCtl, found]
  rw [if_neg (ne_true_of_eq_false off), if_neg]
  simp [enable, low, high]

theorem registerWrite_beyond {off : Nat} (virtual : fn ≠ 0) (beyond : 0x150 < off) : execRegisterWrite fn off v s = .next s.ignored := by
  by_cases aligned : off % 8 = 0
  · refine (if_neg (Classical.not_not.mpr aligned)).trans ?_
    -- every register that the table names lies below
    split
    all_goals first | omega | exact congrArg Host.Outcome.next (if_neg virtual)
  · exact if_pos aligned

theorem hostRead_beyond {off : Nat} (outside : off % 8 ≠ 0 ∨ (fn ≠ 0 ∧ 0x150 < off)) : s.hostRead fn off = 0 := by
  by_cases aligned : off % 8 = 0
  · obtain ⟨virtual, beyond⟩ := outside.resolve_left (Classical.not_not.mpr aligned)
    refine (if_neg (Classical.not_not.mpr aligned)).trans ?_
    split
    all_goals first | omega | exact if_neg virtual
  · exact if_pos aligned

theorem hostRead_writeOnly {off : Nat} (writeOnly : off ∈ [0, 8, 0x10, 0x20, 0x40, 0x60]) : s.hostRead fn off = 0 := by
  have physical : off < 0x80 → s.readPhysical off = 0 := fun low => by
    rw [State.readPhysical, if_neg (by omega), if_neg (by omega), if_neg (by omega), if_neg (by omega), if_neg (by omega)]
  have default (off : Nat) (zero : s.readPhysical off = 0) : (if fn = 0 then s.readPhysical off else 0) = 0 := by
    rw [zero, ite_self]
  revert physical
  simp only [List.mem_cons, List.not_mem_nil, or_false] at writeOnly
  obtain rfl | rfl | rfl | rfl | rfl | rfl := writeOnly <;> exact fun physical => default _ (physical (by omega))

end Window

end Machine

open Machine

/-- Settles O48: each write from the equation of its register in the case that the clause names. -/
theorem hostRegisterWrites : Obligations.HostRegisterWrites := by
  unfold Obligations.HostRegisterWrites
  intro fn off n v rqid host pa data s q m req k
  refine ⟨fun found => ?_, fun found => ?_, kickQueue_waits, kickQueue_parse, fun st res => ?_, fun st gone known => ?_,
    kickQueue_stale, fun found => ?_, fun found owned => ?_, fun found => ⟨?_, ?_, ?_⟩,
    fun known => ⟨fun retry discard => ?_, fun found parked => ⟨fun retry discard => ?_, fun retry discard => ?_⟩⟩,
    fun idle go owned => ?_, fun owned => ⟨fun room => ?_, fun room => ?_, fun over' => ?_⟩,
    fun go size pool rsv known pools => ?_, fun space place => ?_, fun space => ?_, fun space place one => ?_,
    fun found off enable low high => ?_, fun unaligned => ?_, ⟨rfl, rfl, rfl, rfl, rfl, rfl, rfl, rfl, rfl, rfl, rfl, rfl, rfl⟩,
    registerWrite_beyond, ⟨rfl, rfl, rfl, rfl, rfl, rfl, rfl, rfl, fun owned => ?_, fun o => hostRead_writeOnly, hostRead_beyond⟩, rfl⟩
  · rw [exec_qkick, execQkick]
    simp only [found]
    exact ⟨fun head old => if_pos ⟨head, old⟩,
      fun far => if_neg fun near => far.elim (Nat.not_lt.mpr near.1) (Nat.not_lt.mpr near.2)⟩
  · rw [exec_qkick, execQkick]
    simp only [found]
  · rw [kickQueue_dormant st, if_pos res]
  · rw [kickQueue_dormant st, if_neg (ne_true_of_eq_false gone)]
    refine congrArg (fun t => State.postOnce t .contextResident q.ctx) (setCtx_same ?_)
    have open' : ((s.ctxOf q.ctx).st != .free) = true := bne_iff_ne.mpr known
    exact congrArg (fun b => { s.ctxOf q.ctx with pending := b }) 
      (show ((s.ctxOf q.ctx).pending || (s.ctxOf q.ctx).st != .free) = true by rw [open', Bool.or_true])
  · rw [exec_qevbits, execQevbits]
    simp only [found]
  · rw [exec_stkick, execStkick]
    simp only [found, owned]
    exact ⟨fun room => if_neg (Nat.not_lt.mpr room), fun over' => if_pos over'⟩
  · exact congrArg Host.Outcome.next (answerPage_resident found)
  · exact congrArg Host.Outcome.next (answerPage_failed (by decide) found)
  · exact congrArg Host.Outcome.next (answerPage_failed (by decide) found)
  · exact congrArg Host.Outcome.next (mtflush_go known retry discard)
  · exact congrArg Host.Outcome.next (mtflush_retry known found parked retry discard)
  · exact congrArg Host.Outcome.next (mtflush_discard known found parked retry discard)
  · rw [exec_tlbinv, execTlbinv]
    refine (if_neg (ne_true_of_eq_false idle)).trans ((if_neg ?_).trans (if_neg ?_))
    · simp [go]
    · simp [owned]
  · exact congrArg Host.Outcome.next (writeCons_ok (handler := false) owned room)
  · exact congrArg Host.Outcome.next (writeCons_ok (handler := true) owned room)
  · exact congrArg Host.Outcome.next (if_pos (Or.inr over'))
  · have sound : FpcmdSound s fn v := ⟨go, size, pool, rsv, known, pools⟩
    exact ⟨fun op ok => congrArg Host.Outcome.next (writeFpcmd_add sound op ok),
      fun e op found => congrArg Host.Outcome.next (writeFpcmd_take sound op found),
      fun op found => congrArg Host.Outcome.next (writeFpcmd_takesNone sound op found),
      fun op => congrArg Host.Outcome.next (writeFpcmd_count sound op)⟩
  · refine ⟨?_, congrArg Host.Outcome.next (writeInspd_breaks space place)⟩
    rw [← inspd_breaks space place]
    rfl
  · rw [← inspd_inspects space]
    rfl
  · rw [one]
    exact congrArg Host.Outcome.next (writeInspd_resumes space place)
  · exact congrArg Host.Outcome.next (writeSinkCtl_enables found off enable low high)
  · exact if_pos unaligned
  · exact if_pos owned

end Sys2Proof

/-! ### Contexts -/

namespace Sys2Proof
namespace Machine

/-! #### Commands (R390, R391) -/

section Command
variable {s : State} {fn cmd : Nat} {ctx : BitVec 12} {sts : List CtxSt} {f : State → State}

theorem command_taken (mine : (s.ctxOf ctx.toNat).st = .free ∨ (s.ctxOf ctx.toNat).fn = fn) (st : (s.ctxOf ctx.toNat).st ∈ sts) :
    s.command fn cmd ctx sts f = f (s.noteCmd fn cmd ctx) := by
  refine if_neg ?_
  have known : (s.noteCmd fn cmd ctx).alien fn ctx.toNat = false := by
    rw [State.alien, Bool.and_eq_false_iff, bne_eq_false_iff_eq, bne_eq_false_iff_eq]
    exact mine
  have listed : sts.contains ((s.noteCmd fn cmd ctx).ctxOf ctx.toNat).st = true := List.contains_iff_mem.mpr st
  rw [known, listed]
  exact Bool.false_ne_true

theorem command_ignored (st : (s.ctxOf ctx.toNat).st ∉ sts) :
    s.command fn cmd ctx sts f = (s.noteCmd fn cmd ctx).ignored := by
  refine if_pos ?_
  have absent : sts.contains ((s.noteCmd fn cmd ctx).ctxOf ctx.toNat).st = false := by
    rw [← Bool.not_eq_true, List.contains_iff_mem]
    exact st
  rw [absent]
  exact Bool.or_true _

end Command

/-! #### Loads, residency and swaps -/

section Load
variable {s t u : State} {ctx err : Nat} {r : CtxRec}

theorem contextLoadChecks_unread (loading : (s.ctxOf ctx).st = .loading) (read : s.readRecord (s.ctxOf ctx).recVa = none) :
    execContextLoadChecks ctx s = .next (s.rejectLoad ctx 1) := by
  refine (if_neg (Classical.not_not.mpr loading)).trans ?_
  rw [read]

theorem contextLoadChecks_again (loading : (s.ctxOf ctx).st = .loading) (read : s.readRecord (s.ctxOf ctx).recVa = some r)
    (loaded : (s.ctxOf ctx).loaded = true) :
    execContextLoadChecks ctx s = .next (if (s.putRecord ctx r).fits ctx
      then ((s.putRecord ctx r).takeResources ctx).setCtx ctx fun c => { c with st := .ready }
      else (s.putRecord ctx r).setCtx ctx fun c => { c with st := .saved, pending := true }) := by
  refine (if_neg (Classical.not_not.mpr loading)).trans ?_
  rw [read]
  exact if_pos loaded

section New
variable (loading : (s.ctxOf ctx).st = .loading) (read : s.readRecord (s.ctxOf ctx).recVa = some r)
  (new : (s.ctxOf ctx).loaded = false)
include loading read new

theorem contextLoadChecks_read (peers : (s.ctxOf ctx).peers ≠ []) :
    execContextLoadChecks ctx s = .next ((s.putRecord ctx r).admitNew ctx ⟨.contextLoadChecks, ctx, 0⟩) := by
  refine (if_neg (Classical.not_not.mpr loading)).trans ?_
  rw [read]
  exact (if_neg (ne_true_of_eq_false new)).trans (if_pos peers)

theorem contextLoadChecks_rejected (peers : (s.ctxOf ctx).peers = [])
    (tables : readTables ctx ⟨.contextLoadChecks, ctx, 0⟩ (s.putRecord ctx r) = .ok (.error err) t) :
    execContextLoadChecks ctx s = .next (t.rejectLoad ctx err) := by
  refine (if_neg (Classical.not_not.mpr loading)).trans ?_
  rw [read]
  refine (if_neg (ne_true_of_eq_false new)).trans ((if_neg (Classical.not_not.mpr peers)).trans ?_)
  rw [tables]

theorem contextLoadChecks_new (peers : (s.ctxOf ctx).peers = [])
    (tables : readTables ctx ⟨.contextLoadChecks, ctx, 0⟩ (s.putRecord ctx r) = .ok (.ok ()) t) :
    execContextLoadChecks ctx s = .next ((t.newArenas ctx).admitNew ctx ⟨.contextLoadChecks, ctx, 0⟩) := by
  refine (if_neg (Classical.not_not.mpr loading)).trans ?_
  rw [read]
  refine (if_neg (ne_true_of_eq_false new)).trans ((if_neg (Classical.not_not.mpr peers)).trans ?_)
  rw [tables]

end New

theorem fillNear_none {it : Post} (absent : (s.ctxOf ctx).record.nttva = 0) : fillNear ctx it s = .ok () s := by
  have read : readNear ctx it (s.ctxOf ctx).record.nttva (s.ctxOf ctx).record.nnt = Ag.pure [] := by
    rw [readNear, if_pos absent]
  rw [fillNear, read]
  rfl

theorem admitNew_waits {it : Post} (full : s.fits ctx = false) :
    s.admitNew ctx it = s.setCtx ctx fun c => { c with st := .saved, pending := true } :=
  if_pos (by rw [full]; rfl)

theorem admitNew_ready {it : Post} (fits : s.fits ctx = true) (filled : fillNear ctx it s = .ok () u) :
    s.admitNew ctx it = (u.takeResources ctx).setCtx ctx fun c => { c with st := .ready, loaded := true, pending := false } := by
  refine (if_neg (by rw [fits]; exact Bool.false_ne_true)).trans ?_
  rw [filled]

theorem admitNew_rejected {it : Post} (fits : s.fits ctx = true) (dropped : fillNear ctx it s = .drop u) :
    s.admitNew ctx it = u.rejectLoad ctx 3 := by
  refine (if_neg (by rw [fits]; exact Bool.false_ne_true)).trans ?_
  rw [dropped]

theorem contextResident_waits (full : s.fits ctx = false) : execContextResident ctx s = .next s :=
  if_pos (Or.inr (by rw [full]; rfl))

section Fits
variable (pending : (s.ctxOf ctx).pending = true) (fits : s.fits ctx = true)
include pending fits

theorem contextResident_fits : ¬ ((!(s.ctxOf ctx).pending) = true ∨ (!s.fits ctx) = true) := by
  simp [pending, fits]

theorem contextResident_reloads (saved : (s.ctxOf ctx).st = .saved) :
    execContextResident ctx s =
      .next ((s.setCtx ctx fun c => { c with st := .loading, pending := false }).postOnce .contextLoadChecks ctx) :=
  (if_neg (contextResident_fits pending fits)).trans (if_pos saved)

theorem contextResident_drains (draining : (s.ctxOf ctx).st = .draining) (out : (s.ctxOf ctx).res = false) :
    execContextResident ctx s = .next ((s.takeResources ctx).setCtx ctx fun c => { c with pending := false }) :=
  (if_neg (contextResident_fits pending fits)).trans ((if_neg (by rw [draining]; decide)).trans
    (if_pos ⟨draining, by rw [out]; rfl⟩))

end Fits

/-- What a SWAP_RELOAD reads the new near tiles with. -/
def State.swapping (s : State) (ctx : Nat) (r : CtxRec) (mt ntt : Word) : State :=
  (s.dropNear ctx).putRecord ctx { r with mtroot := mt, nttva := ntt, arena := (s.ctxOf ctx).record.arena
                                          nbar := (s.ctxOf ctx).record.nbar, diemask := (s.ctxOf ctx).record.diemask
                                          convsz := (s.ctxOf ctx).record.convsz }

section Swap
variable {mt ntt : Word} (swap : (s.ctxOf ctx).swap = some (mt, ntt)) (idle : ∀ k ∈ SMap.vals s.work.tasks, k.ctx ≠ ctx)
include swap idle

omit swap in
theorem tasks_idle : ¬ ((SMap.vals s.work.tasks).any fun k => k.ctx == ctx) = true := by
  simpa using idle

theorem swapReload_unread (read : s.readRecord (s.ctxOf ctx).recVa = none) :
    execSwapReload ctx s = .next (((s.dropNear ctx).giveUp ctx).setCtx ctx fun c => { c with swap := none, lerr := 1 }) := by
  simp only [execSwapReload, swap]
  refine (if_neg (tasks_idle idle)).trans ?_
  rw [read]

theorem swapReload_swaps (read : s.readRecord (s.ctxOf ctx).recVa = some r)
    (filled : fillNear ctx ⟨.swapReload, ctx, 0⟩ (s.swapping ctx r mt ntt) = .ok () t) :
    execSwapReload ctx s = .next ((t.setCtx ctx fun c => { c with swap := none }).flushMethods ctx).wakeDies := by
  simp only [execSwapReload, swap]
  refine (if_neg (tasks_idle idle)).trans ?_
  rw [read]
  dsimp only
  rw [show fillNear ctx ⟨.swapReload, ctx, 0⟩ (State.putRecord _ ctx _) = _ from filled]

theorem swapReload_dropped (read : s.readRecord (s.ctxOf ctx).recVa = some r)
    (dropped : fillNear ctx ⟨.swapReload, ctx, 0⟩ (s.swapping ctx r mt ntt) = .drop t) :
    execSwapReload ctx s = .next (((t.dropNear ctx).giveUp ctx).setCtx ctx fun c => { c with swap := none, lerr := 3 }) := by
  simp only [execSwapReload, swap]
  refine (if_neg (tasks_idle idle)).trans ?_
  rw [read]
  dsimp only
  rw [show fillNear ctx ⟨.swapReload, ctx, 0⟩ (State.putRecord _ ctx _) = _ from dropped]

end Swap

end Load

end Machine

open Machine

/-- Settles O49: a command by whether its context's state is listed, a unit's step by the branch of its definition. -/
theorem contextCommandsAndSteps : Obligations.ContextCommandsAndSteps := by
  unfold Obligations.ContextCommandsAndSteps
  refine ⟨fun fn n ctx s q => ⟨?_, ?_, ?_, ?_, ?_, ?_, ?_, ?_⟩, fun s t u ctx die r mt ntt err => ⟨fun loading => ⟨?_, fun read => ⟨?_, ?_, ?_, ?_⟩⟩,
    admitNew_waits, fun fits => ⟨admitNew_ready fits, admitNew_rejected fits⟩, fun absent it => fillNear_none absent,
    fun pending fits => ⟨contextResident_reloads pending fits, contextResident_drains pending fits⟩,
    fun _ full => contextResident_waits full, fun preempting left' => ?_, fun _ stay => ?_,
    fun swap idle => ⟨swapReload_unread swap idle, fun read => ⟨fun absent => ?_, swapReload_swaps swap idle read, swapReload_dropped swap idle read⟩⟩,
    fun counts unspent used => ?_, fun more => ?_, fun len => ⟨fun unspent => ?_, fun spent calm res => ?_⟩, rfl, fun g h ctx stage => ?_⟩⟩
  · rintro rfl mine used
    exact congrArg Host.Outcome.next (command_ignored (by simpa using used))
  · rintro rfl mine free
    exact congrArg Host.Outcome.next (command_taken mine (by simp [free]))
  · rintro rfl mine st
    exact congrArg Host.Outcome.next (command_taken mine st)
  · rintro rfl mine st
    refine congrArg Host.Outcome.next ((command_taken mine st).trans ?_)
    rfl
  · rintro rfl mine st
    exact congrArg Host.Outcome.next (command_taken mine st)
  · rintro rfl mine st
    exact congrArg Host.Outcome.next (command_taken mine (by simp [st]))
  · rintro rfl mine st one
    exact congrArg Host.Outcome.next ((command_taken mine st).trans (if_neg
      (show ¬ (s.ctxOf ctx.toNat).swap.isSome = true by simp [one])))
  · rintro rfl mine st found owner
    refine congrArg Host.Outcome.next ((command_taken mine st).trans ?_)
    have named : (s.noteCmd fn 7 ctx).queue? (queueKey fn (getBits ((s.noteCmd fn 7 ctx).fnRegs fn).arg0 0 20)) = some q := found
    simp only [named]
    exact if_pos owner
  · exact contextLoadChecks_unread loading
  · intro loaded fits
    exact (contextLoadChecks_again loading read loaded).trans (congrArg Host.Outcome.next (if_pos fits))
  · intro loaded full
    exact (contextLoadChecks_again loading read loaded).trans
      (congrArg Host.Outcome.next (if_neg (ne_true_of_eq_false full)))
  · exact fun new peers => ⟨contextLoadChecks_rejected loading read new peers, contextLoadChecks_new loading read new peers⟩
  · exact fun new peers => contextLoadChecks_read loading read new peers
  · refine if_neg ?_
    simpa [preempting] using left'
  · refine if_pos (Or.inr ?_)
    simpa using stay
  · exact swapReload_swaps swap idle read (fillNear_none absent)
  · exact if_pos ⟨counts, Option.isNone_iff_eq_none.mpr unspent, used⟩
  · exact if_neg fun h => Nat.not_le.mpr more h.2.2
  · exact (if_neg len).trans (if_pos (Or.inl (Option.isNone_iff_eq_none.mpr unspent)))
  · refine (if_neg len).trans (if_neg ?_)
    rw [Option.isNone_eq_false_iff.mpr spent, res]
    simp [calm]
  · rw [Group.before, decide_eq_false_iff_not, ctx]
    omega

end Sys2Proof

/-! ### Plant and firmware -/

namespace Sys2Proof
namespace Machine

section Plant
variable {s : State} {die : Nat} {p : Power}

/-- The plant with die `die` of power state `p`. -/
def State.withDie (s : State) (die : Nat) (p : Power) : State :=
  { s with plant := { s.plant with dies := s.plant.dies.set die p } }

theorem setDie_of (here : s.plant.dies[die]? = some p) (f : Power → Power) : s.setDie die f = s.withDie die (f p) := by
  rw [State.setDie, upd, here]
  rfl

theorem withDie_here (here : s.plant.dies[die]? = some p) (q : Power) : (s.withDie die q).plant.dies[die]? = some q :=
  List.getElem?_set_self (List.getElem?_eq_some_iff.mp here).choose

theorem withDie_withDie (q r : Power) : (s.withDie die q).withDie die r = s.withDie die r :=
  congrArg (fun dies => { s with plant := { s.plant with dies } }) (List.set_set ..)

theorem average_eq {hist : List (List Nat)} (some' : hist ≠ []) (i : Nat) :
    average hist i = (hist.map fun m => m.getD i 0).sum / hist.length := by
  rw [average, Nat.max_eq_right (List.length_pos_iff.mpr some'), List.sum_eq_foldl]

/-- Which consumers of a die POWER_MEASURE throttles. -/
def State.throttles (s : State) (p : Power) : List Bool := tab 4 fun i => decide (s.allotted p i < average p.hist i)

theorem throttles_at {i : Nat} (inside : i < 4) (some' : p.hist ≠ []) : (s.throttles p).getD i false =
    decide (s.allotted p i < (p.hist.map fun m => m.getD i 0).sum / p.hist.length) := by
  rw [List.getD_eq_getElem?_getD, State.throttles, tab_getElem?, if_pos inside, average_eq some']
  rfl

theorem powerMeasure_step (here : s.plant.dies[die]? = some p) (mW : List Nat) :
    execPowerMeasure die mW s = .next (s.withDie die { p with
      hist := (mW :: p.hist).take 10
      throttled := s.throttles { p with hist := (mW :: p.hist).take 10 } }) := by
  rw [execPowerMeasure, setDie_of here, setDie_of (withDie_here here _), withDie_withDie]
  rfl

theorem passes_iff (f : Firmware) (i : FwImage) :
    f.passes i = true ↔ Config.imageSigned i.digest i.signature = true ∧ f.minVer ≤ i.version := by
  rw [Firmware.passes, Bool.and_eq_true, decide_eq_true_iff]

theorem boot_keeps (f : Firmware) (free : Nat) : (f.boot free).minVer = f.minVer ∧ (f.boot free).slot = f.slot ∧
    (f.boot free).images = f.images ∧ (f.boot free).puf = f.puf ∧ (f.boot free).helper = f.helper := by
  rw [Firmware.boot]
  split <;> exact ⟨rfl, rfl, rfl, rfl, rfl⟩

theorem lost_adds (unit : Nat) (lost : List Nat) : unit ∈ (if lost.contains unit then lost else lost ++ [unit]) ∧
    ∀ k ∈ lost, k ∈ (if lost.contains unit then lost else lost ++ [unit]) := by
  by_cases known : unit ∈ lost
  · rw [if_pos (List.contains_iff_mem.mpr known)]
    exact ⟨known, fun _ => id⟩
  · rw [if_neg (fun h => known (List.contains_iff_mem.mp h))]
    exact ⟨List.mem_append_right _ (List.mem_singleton_self _), fun _ => List.mem_append_left _⟩

end Plant

end Machine

open Machine

/-- Settles O50: each act by the branch of its definition; throttling from the average over the ten measurements kept. -/
theorem plantAndFirmware : Obligations.PlantAndFirmware := by
  unfold Obligations.PlantAndFirmware
  intro s t f die unit addr mW loc img p
  refine ⟨rfl, rfl, rfl, fun here cool => ?_, fun hot => ?_, fun here => ⟨_, tab_length .., powerMeasure_step here mW, fun i inside => ?_⟩,
    rfl, rfl, rfl, ?_, fun booted signed new same => ?_, fun refused => ?_, fun i update => ?_, ?_⟩
  · rw [exec_junctionTemperature, execJunctionTemperature, if_neg (Nat.not_le.mpr cool), setDie_of here]
    rfl
  · rw [exec_junctionTemperature, execJunctionTemperature, if_pos hot]
    rfl
  · exact throttles_at inside (by simp)
  · obtain ⟨minVer, slot, images, puf, helper⟩ := boot_keeps s.ctl.fw s.free
    exact ⟨_, rfl, rfl, rfl, rfl, rfl, rfl, rfl, minVer, slot, images, rfl, rfl, puf, helper⟩
  · refine congrArg (fun fw => Host.Outcome.next { s with ctl := { s.ctl with fw } }) (if_pos ?_)
    exact ⟨booted, (passes_iff s.ctl.fw img).mpr ⟨signed, new⟩, same⟩
  · refine congrArg (fun fw => Host.Outcome.next { s with ctl := { s.ctl with fw } }) (if_neg fun taken => ?_)
    obtain ⟨-, passes, same⟩ := taken
    obtain ⟨signed, new⟩ := (passes_iff s.ctl.fw img).mp passes
    obtain unsigned | older | other := refused
    · exact absurd (unsigned.symm.trans signed) Bool.false_ne_true
    · exact absurd new (Nat.not_le.mpr older)
    · exact other same
  · rw [exec_firmwareHeartbeatMiss, execFirmwareHeartbeatMiss]
    simp only [update]
  · exact ⟨_, rfl, (lost_adds ..).1, (lost_adds ..).2, rfl⟩

end Sys2Proof

/-! ### Steps of the units on strands -/

namespace Sys2Proof
namespace Machine

/-! #### Placement (R371, R373) -/

section Place
variable {s : State} {ctx die core n : Nat} {stage : W32} {staged : Bool} {q : Group} {p : Pending} {rest : List Pending}

theorem fillPlaces_places (found : s.group? ctx die stage = some q) (pend : q.pend = p :: rest)
    (stays : q.leaving.map (·.1) ≠ some core) (slot : s.openSlot core staged = some n) :
    State.fillPlaces s ctx die stage staged [core] = (s.updGroup ctx die stage fun q => { q with pend := rest }).placeAt p n := by
  simp only [State.fillPlaces, List.foldl_cons, List.foldl_nil, found, pend, if_neg stays, slot]

theorem fillPlaces_empty {cores : List Nat} (found : s.group? ctx die stage = some q) (pend : q.pend = []) :
    State.fillPlaces s ctx die stage staged cores = s := by
  induction cores with
  | nil => rfl
  | cons core cores ih =>
    rw [State.fillPlaces, List.foldl_cons]
    simp only [found, pend]
    exact ih

theorem putStrand_groups (t : Strand) : (s.putStrand t).work.groups = s.work.groups := by
  rw [State.putStrand, (postOnce_same ..).2.2]
  split <;> rfl

theorem placeAt_groups (p : Pending) (n : Nat) : (s.placeAt p n).work.groups = s.work.groups := by
  rw [State.placeAt]
  split
  · exact putStrand_groups _
  · split
    · rfl
    · exact putStrand_groups _

theorem group?_updGroup (found : s.group? ctx die stage = some q) (f : Group → Group)
    (same : ∀ g, (f g).is ctx die stage = g.is ctx die stage) : (s.updGroup ctx die stage f).group? ctx die stage = some (f q) := by
  have named : q.is ctx die stage = true := (List.find?_eq_some_iff_append.mp found).1
  have same' : (fun g => Group.is g ctx die stage) ∘ (fun g => if g.is ctx die stage then f g else g) =
      fun g => Group.is g ctx die stage := by
    funext g
    rw [Function.comp_apply]
    split
    · exact same g
    · rfl
  rw [State.updGroup, found]
  refine (List.find?_map ..).trans ?_
  rw [same', show s.work.groups.find? (fun g => g.is ctx die stage) = some q from found]
  exact congrArg some (if_pos named)

theorem strandPlace_one (one : (s.work.groups.filter fun p => p.die == die && !p.pend.isEmpty && (s.ctxOf p.ctx).places) = [q])
    (found : s.group? q.ctx die q.stage = some q) (cores : q.cores = [core]) (pend : q.pend = [p]) (stays : q.leaving = none)
    (slot : s.openSlot core false = some n) :
    execStrandPlace die s = .next ((s.updGroup q.ctx die q.stage fun q => { q with pend := [] }).placeAt p n) := by
  rw [execStrandPlace, one]
  have placed : State.fillPlaces s q.ctx die q.stage false [core] =
      (s.updGroup q.ctx die q.stage fun q => { q with pend := [] }).placeAt p n :=
    fillPlaces_places found pend (by simp [stays]) slot
  have left' : State.group? ((s.updGroup q.ctx die q.stage fun q => { q with pend := [] }).placeAt p n) q.ctx die q.stage =
      some { q with pend := [] } := by
    rw [State.group?, placeAt_groups]
    exact group?_updGroup found _ fun _ => rfl
  rw [List.foldl_cons, List.foldl_nil, cores]
  refine congrArg Host.Outcome.next ?_
  rw [show sortNat [core] = [core] from rfl]
  dsimp only
  rw [placed]
  exact fillPlaces_empty left' rfl

end Place

/-! #### Strands that start, end and commit -/

section Strand
variable {s u : State} {k : Nat}

theorem startStrand_fresh (kept : u.cur.kept = []) (rep : u.cur.ph.rep = true) (opened : u.cur.ph.st = .opened)
    (nest : u.cur.nest = none) (spent : u.curCtx.spent = none) (fresh : u.cur.fresh = true) :
    u.startStrand = (u.setCur fun t => { t with
      st := t.back, kept := [], fresh := false
      acc := List.replicate (((u.task u.cur.task).map fun k => k.image.nacc).getD 0) (.zero false) }).emitCore
        .a 0x801 u.cur.sys.grank u.cur.sys.strand := by
  have unspent : u.curCtx.spent.isNone = true := Option.isNone_iff_eq_none.mpr spent
  simp only [State.startStrand, kept, List.foldl_nil, rep, opened, nest, if_true, if_false, reduceCtorEq, false_and,
    Option.isSome_none, Bool.false_eq_true]
  rw [fresh]
  refine (if_pos rfl).trans ?_
  refine congrArg (fun t => State.emitCore t .a 0x801 u.cur.sys.grank u.cur.sys.strand) ((if_pos ?_).trans ?_)
  · exact unspent
  · exact congrArg (fun acc => u.setCur fun t => { t with st := t.back, kept := [], fresh := false, acc }) (if_pos fresh)

theorem strandEnded_ending (front : s.Front k u) (ending : u.cur.st = .ending) (live : u.cur.ph.st ≠ .cancelled)
    (done : u.cur.workDone = true) (answered : u.cur.awaiting = false) :
    execStrandEnded k s = s.backTo (
      let t := if u.cur.ph.st = .committing then u else u.startCommit
      if t.cur.ph.buf.isEmpty && t.nothingOut then t.finishEnd else t.postOnce .strandEnded k) := by
  refine onStrand_next front ?_
  rw [ending]
  refine (if_neg live).trans ((if_neg ?_).trans ?_)
  · rw [done, answered]
    exact Bool.false_ne_true
  · exact (apply_ite Host.Outcome.next ..).symm

theorem strandEnded_waits (front : s.Front k u) (ending : u.cur.st = .ending) (live : u.cur.ph.st ≠ .cancelled)
    (busy : u.cur.workDone = false ∨ u.cur.awaiting = true) : execStrandEnded k s = s.backTo (u.postOnce .strandEnded k) := by
  refine onStrand_next front ?_
  rw [ending]
  refine (if_neg live).trans (if_pos ?_)
  obtain work | out := busy
  · rw [work]
    rfl
  · rw [out]
    exact Bool.or_true _

theorem strandEnded_ended (front : s.Front k u) (ended : u.cur.st = .ended) (done : u.cur.workDone = true)
    (out : u.nothingOut = true) : execStrandEnded k s = s.backTo u.finishStrand := by
  refine onStrand_next front ?_
  rw [ended, done, out]
  rfl

theorem phaseCommitDone_commits (front : s.Front k u) (committing : u.cur.ph.st = .committing) (runs : u.cur.runs = true) :
    execPhaseCommitDone k s = s.backTo (if u.cur.ph.buf.isEmpty then u.finishPhase else u.postOnce .phaseCommitDone k) := by
  refine onStrand_next front ((if_neg ?_).trans (apply_ite Host.Outcome.next ..).symm)
  rintro (open' | still)
  · exact open' committing
  · rw [show (u.cur.st == .running || u.cur.st == .handler) = true from runs] at still
    exact Bool.false_ne_true still

theorem Strand.runs_iff (t : Strand) : t.runs = true ↔ t.st = .running ∨ t.st = .handler := by
  rw [Strand.runs, Bool.or_eq_true, beq_iff_eq, beq_iff_eq]

theorem phaseCancel_bad (front : s.Front k u) (cancelled : u.cur.ph.st = .cancelled) (alive : u.cur.st ≠ .ended)
    (bad : u.checkpointBad = true) : execPhaseCancel k s = s.backTo (u.uncorrAbort .checkpoint (w64 u.ckptSpot)) :=
  onStrand_next front ((if_neg (Classical.not_not.mpr cancelled)).trans ((if_neg alive).trans (if_pos bad)))

theorem phaseCancel_cancels (front : s.Front k u) (cancelled : u.cur.ph.st = .cancelled) (alive : u.cur.st ≠ .ended)
    (good : u.checkpointBad = false) : execPhaseCancel k s = s.backTo (
      if u.cancelPhase.cur.preempt && u.cancelPhase.frameFree then u.cancelPhase.stashStrand 2
      else u.cancelPhase.postOnce .phaseRefetchDone k) :=
  onStrand_next front ((if_neg (Classical.not_not.mpr cancelled)).trans ((if_neg alive).trans (if_neg (ne_true_of_eq_false good))))

section Refetch
variable (front : s.Front k u) (cancelled : u.cur.ph.st = .cancelled) (running : u.cur.st = .running)
include front cancelled running

theorem phaseRefetchDone_waits (asked : ∃ p ∈ u.cur.ph.held, p.ans = 0 ∧ ∃ q ∈ u.mem.reqs, q.rqid = p.rqid) :
    execPhaseRefetchDone k s = s.backTo (u.postOnce .phaseRefetchDone k) := by
  refine onStrand_next front ((if_neg ?_).trans (if_pos ?_))
  · simp [cancelled, running]
  · simpa using asked

theorem phaseRefetchDone_fails (answered : ∀ p ∈ u.cur.ph.held, p.ans = 0 → ∀ q ∈ u.mem.reqs, q.rqid ≠ p.rqid)
    (failed : ∃ p ∈ u.cur.ph.held, p.ans ≠ 0) : execPhaseRefetchDone k s = s.backTo u.endRefetch := by
  refine onStrand_next front ((if_neg ?_).trans ((if_neg ?_).trans (if_pos ?_)))
  · simp [cancelled, running]
  · simpa using answered
  · simpa using failed

theorem phaseRefetchDone_refetches (answered : ∀ p ∈ u.cur.ph.held, p.ans = 0 ∧ ∀ q ∈ u.mem.reqs, q.rqid ≠ p.rqid) :
    execPhaseRefetchDone k s = s.backTo (
      let t := u.refetch (u.cur.ph.held.map Held.va ++ u.cur.ph.input.map fun n => w64 (n * 65536))
      if t.1 then t.2.endRefetch else t.2.postOnce .phaseRefetchDone k) := by
  refine onStrand_next front ((if_neg ?_).trans ((if_neg ?_).trans (if_neg ?_)))
  · simp [cancelled, running]
  · simpa using fun p mem _ => (answered p mem).2
  · simpa using fun p mem => (answered p mem).1

end Refetch

/-! #### Waits that are taken up (R380, R383) -/

/-- The wait of A's instruction `i` can be taken up. -/
structure State.WaitsOn (u : State) (i : Instr) : Prop where
  runs : u.cur.runs = true
  live : u.cur.ph.st ≠ .cancelled
  open' : u.cur.ph.st ≠ .committing
  free : (u.cur.engine .a).arrived = false
  since : (u.cur.engine .a).since.isSome = true
  next : u.nextInstr .a = some i

theorem retake_takes {i : Instr} {due : Bool} {pick : Instr → Option (State → Out)} {f : State → Out} (front : s.Front k u)
    (waits : u.WaitsOn i) (late : due = true → u.waitedOut .a = true) (picked : pick i = some f) :
    retake k due pick s = onStrand k f s := by
  obtain ⟨here, rfl⟩ := front
  obtain ⟨t, found⟩ := Option.isSome_iff_exists.mp here
  obtain ⟨runs, live, open', free, since, next⟩ := waits
  have known : ((s.swapTo k).cur.engine .a).since.isNone = false := Option.isNone_eq_false_iff.mpr since
  have on : (!((s.swapTo k).cur.st == .running || (s.swapTo k).cur.st == .handler) || (s.swapTo k).cur.ph.st == .cancelled ||
      (s.swapTo k).cur.ph.st == .committing || ((s.swapTo k).cur.engine .a).since.isNone || ((s.swapTo k).cur.engine .a).arrived ||
        (due && !(s.swapTo k).waitedOut .a)) = false := by
    rw [show ((s.swapTo k).cur.st == .running || (s.swapTo k).cur.st == .handler) = true from runs, beq_false_of_ne live,
      beq_false_of_ne open', known, free]
    cases due
    · rfl
    · rw [late rfl]
      rfl
  simp only [retake, onStrand, found, on, next, Option.bind_some, picked]
  rfl

theorem holdPeriods_of_waitedOut (out : u.waitedOut .a = true) :
    u.holdPeriods ≤ u.clock - (u.cur.engine .a).since.getD u.clock := by
  rw [State.waitedOut] at out
  cases since : (u.cur.engine .a).since with
  | none => simp [since] at out
  | some n => simpa [since] using out

theorem onStrand_eq {f : State → Out} (front : s.Front k u) :
    onStrand k f s = match f u with | .next t => s.backTo t | other => other := by
  obtain ⟨here, rfl⟩ := front
  obtain ⟨t, found⟩ := Option.isSome_iff_exists.mp here
  simp only [onStrand, found]
  cases f (s.swapTo k) <;> rfl

theorem preemptImmediate_asked (front : s.Front k u) (runs : u.cur.runs = true) (asked : u.cur.preempt = true ∨ u.cur.gy = true)
    (free : u.frameFree = true) :
    execPreemptImmediate k s = s.backTo (State.postOnce
      (if u.stopDue then u.setCur fun t => { t with st := .saved, back := t.st } else u) .preemptImmediate k) := by
  have wanted : ¬ (!u.cur.preempt && !u.cur.gy) = true := by
    rw [Bool.and_eq_true, Bool.not_eq_true', Bool.not_eq_true']
    rintro ⟨no, none'⟩
    simp [no, none'] at asked
  have stops (other : Out) (t : State) : (if (!u.cur.preempt && !u.cur.gy) = true then .next u else if (!u.frameFree) = true then other
      else if (!u.stopDue) = true then .next (u.postOnce .preemptImmediate k) else .next (t.postOnce .preemptImmediate k)) =
      Host.Outcome.next (State.postOnce (if u.stopDue then t else u) .preemptImmediate k) := by
    rw [if_neg wanted, free, if_neg (by decide)]
    cases u.stopDue <;> rfl
  refine onStrand_next front ?_
  obtain running | handler := u.cur.runs_iff.mp runs
  · simp only [running]
    exact stops _ _
  · simp only [handler]
    exact stops _ _

end Strand

end Machine

open Machine

/-- Settles O51: placement from the group's pending list; each other step from the branch of its definition on the strand
at the front; a poll or a time limit runs the waiting instruction. -/
theorem strandUnitSteps : Obligations.StrandUnitSteps := by
  unfold Obligations.StrandUnitSteps
  intro s u w k die g o r loc addr vs l b j x h y runs' reached waits late retaken va' vb qb qc qx qo since counter value counts read
  refine ⟨rfl, fun ctx core n stage staged p rest q => fillPlaces_places,
    fun q p core n one found cores pend stays slot => strandPlace_one one found cores pend stays slot, fun front => ?_⟩
  have runs : runs' → u.cur.runs = true := (u.cur.runs_iff).mpr
  have waitsOn {i : Instr} (w : waits i) : u.WaitsOn i := by
    obtain ⟨⟨run, live, open', free⟩, since, next⟩ := w
    exact ⟨runs run, live, open', free, since, next⟩
  have taken {e i : Instr} {due : Bool} {pick : Instr → Option (State → Out)} (unit : exec e s = retake k due pick s) (w : waits i)
      (out : due = true → u.waitedOut .a = true) (picked : pick i = some (exec i)) : exec e s = onStrand k (exec i) s :=
    unit.trans (retake_takes front (waitsOn w) out picked)
  have again {e i : Instr} (unit : exec e s = onStrand k (exec i) s) : retaken e i := unit.trans (onStrand_eq front)
  have limit {e i : Instr} {pick : Instr → Option (State → Out)} (unit : exec e s = retake k true pick s) (picked : pick i = some (exec i))
      (l : late i) : exec e s = onStrand k (exec i) s := taken unit l.1 (fun _ => l.2) picked
  refine ⟨fun staged taken leaves => ?_, fun held => ?_, startStrand_fresh, fun ending live done answered => ?_,
    strandEnded_waits front, strandEnded_ended front, fun committing run => ?_,
    fun cancelled alive => ⟨phaseCancel_bad front cancelled alive, phaseCancel_cancels front cancelled alive⟩,
    fun cancelled running => ⟨phaseRefetchDone_waits front cancelled running, phaseRefetchDone_fails front cancelled running,
      phaseRefetchDone_refetches front cancelled running⟩,
    fun live unrep => ?_, fun run => ?_, fun run limit dead => ?_, fun run limit => ?_, fun v waiting => ⟨fun run live due => ?_, fun early => ?_⟩,
    fun w => again (taken rfl w (fun h => nomatch h) rfl), fun l => again (limit rfl rfl l), fun l => again (limit rfl rfl l),
    fun l => again (limit rfl rfl l), fun l => again (limit rfl rfl l), fun l => again (limit rfl rfl l), ?_⟩
  · rw [exec_strandStart, execStrandStart]
    exact onStrand_next front (if_neg (by simp [staged, taken, leaves]))
  · rw [exec_strandStart, execStrandStart]
    exact onStrand_next front (if_pos held)
  · intro t gone
    have all : (t.cur.ph.buf.isEmpty && t.nothingOut) = true ↔ gone := by
      rw [Bool.and_eq_true, List.isEmpty_iff]
    have ends : exec (.strandEnded k) s = s.backTo
        (if t.cur.ph.buf.isEmpty && t.nothingOut then t.finishEnd else t.postOnce .strandEnded k) :=
      strandEnded_ending front ending live done answered
    exact ⟨fun g => ends.trans (congrArg s.backTo (if_pos (all.mpr g))),
      fun g => ends.trans (congrArg s.backTo (if_neg fun h => g (all.mp h)))⟩
  · have commits := phaseCommitDone_commits front committing (runs run)
    exact ⟨fun empty => commits.trans (congrArg s.backTo (if_pos (List.isEmpty_iff.mpr empty))),
      fun some' => commits.trans (congrArg s.backTo (if_neg fun h => some' (List.isEmpty_iff.mp h)))⟩
  · rw [exec_holdTimeout, execHoldTimeout]
    exact onStrand_next front ((if_neg (by simp [live, unrep])).trans rfl)
  · rw [exec_uncorrAbort, execUncorrAbort]
    refine onStrand_next front (if_pos ?_)
    rw [Bool.or_eq_true, beq_iff_eq]
    exact run.imp runs id
  · rw [exec_deadlock, execDeadlock]
    refine onStrand_next front (if_pos ?_)
    rw [show (u.cur.st == .running || u.cur.st == .handler) = true from runs run, bne_iff_ne.mpr limit, decide_eq_true dead]
    rfl
  · rw [exec_deadlock, execDeadlock]
    refine onStrand_next front (if_neg ?_)
    rw [Bool.and_eq_true, Bool.and_eq_true, bne_iff_ne, decide_eq_true_iff]
    rintro ⟨⟨-, some'⟩, dead⟩
    exact limit.elim some' (Nat.not_le.mpr dead)
  · rw [exec_waittExpire, execWaittExpire]
    refine onStrand_next front ?_
    have ends : (u.cur.runs && u.cur.ph.st != .cancelled && decide (v.time.toNat ≤ u.ns)) = true := by
      rw [runs run, bne_iff_ne.mpr live, decide_eq_true due]
      rfl
    simp only [waiting, if_pos ends]
    rfl
  · rw [exec_waittExpire, execWaittExpire]
    refine onStrand_next front ?_
    have stays : ¬ (u.cur.runs && u.cur.ph.st != .cancelled && decide (v.time.toNat ≤ u.ns)) = true := by
      rw [decide_eq_false (Nat.not_le.mpr early), Bool.and_false]
      exact Bool.false_ne_true
    simp only [waiting, if_neg stays]
  · refine ⟨fun taken' goes counts past => ?_, fun l goes counts short out => ?_, fun l goes small found valid own member same => ?_,
      fun l goes small named held pending => ?_, fun l goes small found idle open' other => ?_, fun run asked free due => ?_,
      fun run asked free due => ?_, fun saved settled => ?_, fun saved busy => ?_⟩
    · rw [taken (e := .ccwaitPoll k) (due := false) rfl taken' (fun h => nomatch h) rfl]
      obtain ⟨known, place, here, sound⟩ := counts
      refine onStrand_next front ?_
      rw [exec_ccwait, execCcwait]
      refine issue_next goes (Act.bind_eq (counterOf_ok known) (Act.bind_eq (counterRead_ok place here sound) ?_))
      rw [show decide (0 ≤ (w64 (leNat (w.mem.bytes x.home x.pa 8)) - vs.getD 1 0).toInt) = true from decide_eq_true past]
      rfl
    · rw [limit (e := .ccwaitTimeout k) rfl rfl l]
      obtain ⟨known, place, here, sound⟩ := counts
      refine onStrand_next front ?_
      rw [exec_ccwait, execCcwait]
      refine issue_trap goes (Act.bind_eq (counterOf_ok known) (Act.bind_eq (counterRead_ok place here sound) ?_))
      rw [show decide (0 ≤ (w64 (leNat (w.mem.bytes x.home x.pa 8)) - vs.getD 1 0).toInt) = false from
        decide_eq_false (Int.not_le.mpr short)]
      exact Act.bind_of_stop (holdWait_times_out (holdPeriods_of_waitedOut out))
    · rw [limit (e := .bwaitTimeout k) rfl rfl l]
      refine onStrand_next front ?_
      rw [exec_bwait, execBwait]
      refine issue_trap goes (Act.bind_eq (barrierOf_ok ⟨small, found, valid, own⟩) (Act.bind_eq (joined_ok member) ?_))
      rw [show (b.gen != (vs.getD 1 0).setWidth 24) = false from bne_eq_false_iff_eq.mpr same]
      exact Act.bind_of_stop (holdWait_times_out (holdPeriods_of_waitedOut l.2))
    · rw [limit (e := .xcwaitTimeout k) rfl rfl l]
      refine onStrand_next front ?_
      rw [exec_xcwait, execXcwait]
      refine issue_trap goes (Act.bind_eq (heldHandle_ok small named held) (Act.bind_of_stop ?_))
      rw [pending]
      exact holdWait_times_out (holdPeriods_of_waitedOut l.2)
    · rw [limit (e := .stepOpenTimeout k) rfl rfl l]
      refine onStrand_next front ?_
      rw [exec_stbindOpen, execStbindOpen]
      have held : ¬ y.FreeFor u.cur.key := fun free => free.elim (Option.isSome_iff_ne_none.mp open') other
      exact issue_trap goes (Act.bind_eq (sequenceArg_ok ⟨small, found⟩) (Act.bind_eq (a := u) rfl
        (Act.check_then (Option.isNone_iff_eq_none.mpr idle)
          (Act.bind_of_stop (stepFree_times_out held (holdPeriods_of_waitedOut l.2))))))
    · rw [exec_preemptImmediate, preemptImmediate_asked front (runs run) asked free, if_pos due]
    · rw [exec_preemptImmediate, preemptImmediate_asked front (runs run) asked free, if_neg (ne_true_of_eq_false due)]
    · rw [exec_preemptImmediate, execPreemptImmediate]
      refine onStrand_next front ?_
      simp only [saved, if_pos settled]
    · rw [exec_preemptImmediate, execPreemptImmediate]
      refine onStrand_next front ?_
      simp only [saved, if_neg (ne_true_of_eq_false busy)]

end Sys2Proof

/-! ### Steps of the units on memory -/

namespace Sys2Proof
namespace Machine

/-! #### Requests to peers (R405) -/

section Remote
variable {s : State} {tag port : Nat} {r : Remote} {p : Peer}
  (found : s.net.remote.find? (fun q => q.tag == tag) = some r) (open' : r.ans = none) (unsent : r.sentAt = none)
include found open' unsent

theorem remoteRefusalRetry_waits (early : s.ns < r.due ∨ s.notifyWaits r = true) :
    execRemoteRefusalRetry tag s = .next (s.postOnce .remoteRefusalRetry tag) := by
  simp only [execRemoteRefusalRetry, found, open', unsent, Option.isSome_none, Bool.false_eq_true, or_self, if_false]
  exact if_pos early

section Due
variable (due : r.due ≤ s.ns) (free : s.notifyWaits r = false)
include due free

theorem remoteRefusalRetry_noPeer (absent : s.peer r.ctx r.rank = none) :
    execRemoteRefusalRetry tag s = .next (s.answerRemote r 3 [] 0) := by
  simp only [execRemoteRefusalRetry, found, open', unsent, Option.isSome_none, Bool.false_eq_true, or_self, if_false]
  refine (if_neg ?_).trans ?_
  · simp [due, free]
  · rw [absent]

theorem remoteRefusalRetry_noWay (known : s.peer r.ctx r.rank = some p) (away : s.reaches p.reach = false) :
    execRemoteRefusalRetry tag s = .next (s.answerRemote r 3 [] 0) := by
  simp only [execRemoteRefusalRetry, found, open', unsent, Option.isSome_none, Bool.false_eq_true, or_self, if_false]
  refine (if_neg ?_).trans ?_
  · simp [due, free]
  · rw [known]
    exact if_pos (by rw [away]; rfl)

theorem remoteRefusalRetry_sends (known : s.peer r.ctx r.rank = some p) (way : s.reaches p.reach = true)
    (picked : s.pickPort r p.reach = some port) : execRemoteRefusalRetry tag s = .next (s.sendRemote r p port) := by
  simp only [execRemoteRefusalRetry, found, open', unsent, Option.isSome_none, Bool.false_eq_true, or_self, if_false]
  refine (if_neg ?_).trans ?_
  · simp [due, free]
  · rw [known]
    refine (if_neg (by rw [way]; exact Bool.false_ne_true)).trans ?_
    rw [picked]

end Due

end Remote

/-! #### Atomic engines (R292) -/

section Atomic
variable {s : State} {eng : Nat} {q : AtomReq}

/-- The machine once an engine's request has been performed, its events counted. -/
def State.performed (s : State) (eng : Nat) (q : AtomReq) : State :=
  let v := s.mem.atomic q.home q.pa q.op q.size q.opd q.new
  let w := { s with mem := v.2.touchLine eng q.home q.pa }
  if eng < 64 then w.countEvents (eng / 16) q.ctx q.kern 0 (atomicEvents q.op v.1 q.opd) else w

/-- The engine asks for its next turn while requests wait. -/
def State.servesOn (s : State) (eng : Nat) : State :=
  if s.mem.atoms.any fun p => p.eng == eng && p.old.isNone then s.postOnce .atomicEngineServe eng else s

/-- The state with the performed request answered (R292, R294). -/
def State.answersAtom (w : State) (q : AtomReq) (old : Word) : State :=
  let link := decide (2 ^ 20 ≤ q.key ∧ q.key < 2 ^ 20 + 16)
  let atoms := if link || q.post then w.mem.atoms.erase q else w.mem.atoms.map fun p => if p = q then { p with old := some old } else p
  let t := { w with mem := { w.mem with atoms } }
  if link then t.respond (q.key - 2 ^ 20) q.ctx q.chip q.tag 0 0 (if q.post then 0 else old) []
  else if q.post && !decide (2 ^ 43 ≤ q.key) then t.at q.key State.releaseRest else t

theorem atomicEngineServe_serves (next : nextAtom eng s.clock s.mem.atoms = some q) :
    execAtomicEngineServe eng s =
      .next (((s.performed eng q).answersAtom q (s.mem.atomic q.home q.pa q.op q.size q.opd q.new).1).servesOn eng) := by
  simp only [execAtomicEngineServe, next]
  rfl

/-- A fold that takes one of its elements at each step ends with one of them. -/
theorem foldl_mem {α : Type} {f : Option α → α → Option α} (picks : ∀ b r q, f b r = some q → b = some q ∨ r = q) {l : List α}
    {b : Option α} {q : α} (last : l.foldl f b = some q) : b = some q ∨ q ∈ l := by
  induction l generalizing b with
  | nil => exact Or.inl last
  | cons r l ih =>
    obtain first | later := ih last
    · exact (picks b r q first).imp_right fun same => List.mem_cons.mpr (Or.inl same.symm)
    · exact Or.inr (List.mem_cons_of_mem r later)

theorem nextAtom_mem {eng clock : Nat} {rs : List AtomReq} (next : nextAtom eng clock rs = some q) :
    q ∈ rs ∧ q.eng = eng ∧ q.old = none := by
  have waits : q ∈ rs.filter fun r => r.eng == eng && r.old.isNone := by
    simp only [nextAtom, Option.or_eq_some_iff] at next
    obtain late | ⟨-, own | ⟨-, core | ⟨-, any⟩⟩⟩ := next
    · exact List.mem_of_find?_eq_some late
    · refine And.left (List.mem_filter.mp <| (foldl_mem (fun b r q picked => ?_) own).resolve_left nofun)
      cases b with
      | none => exact Or.inr (Option.some.inj picked)
      | some p =>
        dsimp only at picked
        split at picked
        · exact Or.inr (Option.some.inj picked)
        · exact Or.inl picked
    · exact List.mem_of_find?_eq_some core
    · exact List.mem_of_head? any
  simpa using waits

end Atomic

theorem mem_invalidate {m : Mem} {ctx lo n core : Nat} {e : TlbEnt} {l l' : List TlbEnt} (old : SMap.get? m.coreTlb core = some l)
    (new : SMap.get? (m.invalidate ctx lo n).coreTlb core = some l') :
    e ∈ l' ↔ e ∈ l ∧ ¬ (e.ctx = ctx ∧ (n = 0 ∨ overlaps (e.va * 2 ^ levelShift e.level) (2 ^ levelShift e.level) lo (n * 65536) = true)) := by
  have both := (SMap.get?_map m.coreTlb (fun (l : List TlbEnt) => l.filter fun (t : TlbEnt) => !(t.ctx == ctx && (n == 0 ||
    overlaps (t.va * 2 ^ levelShift t.level) (2 ^ levelShift t.level) lo (n * 65536)))) core).symm.trans new
  rw [old] at both
  cases both
  rw [List.mem_filter, Bool.not_eq_true', ← Bool.not_eq_true, Bool.and_eq_true, Bool.or_eq_true, beq_iff_eq, beq_iff_eq]

end Machine

open Machine

/-- Settles O52: each step from the branch of its definition; an engine serves the request that `nextAtom` picks. -/
theorem memoryUnitSteps : Obligations.MemoryUnitSteps := by
  unfold Obligations.MemoryUnitSteps
  intro s u t k tag eng fn a port va wr x f r p q move translated
  refine ⟨fun front => ⟨fun ok => ?_, fun fault code => ?_, fun fault code => ?_, fun moving => ?_⟩,
    fun found open' unsent => ⟨remoteRefusalRetry_waits found open' unsent, fun due free =>
      ⟨remoteRefusalRetry_noPeer found open' unsent due free, remoteRefusalRetry_noWay found open' unsent due free,
        remoteRefusalRetry_sends found open' unsent due free⟩⟩,
    fun next => ?_, fun none' => ?_, fun q' => nextAtom_mem, ⟨fun one still => ?_, fun one waits => ?_, rfl⟩,
    fun go => ⟨fun passed => ?_, fun out => ?_⟩, fun m ctx lo n e core l l' => mem_invalidate, rfl⟩
  · rw [exec_pageWalk, execPageWalk]
    refine onStrand_next front ?_
    rw [show State.translate _ _ _ _ _ _ = _ from ok]
  · rw [exec_pageWalk, execPageWalk]
    refine onStrand_next front ?_
    rw [show State.translate _ _ _ _ _ _ = _ from fault]
    exact congrArg Host.Outcome.next (if_neg code)
  · rw [exec_pageWalk, execPageWalk]
    refine onStrand_next front ?_
    rw [show State.translate _ _ _ _ _ _ = _ from fault]
    exact congrArg Host.Outcome.next (if_pos code)
  · rw [exec_pageWalk, execPageWalk]
    refine onStrand_next front ?_
    rw [show State.translate _ _ _ _ _ _ = _ from moving]
  · have serves : exec (.atomicEngineServe eng) s = _ := atomicEngineServe_serves next
    refine ⟨fun near read => ?_, fun near post entry => ?_, fun near post agent => ?_, fun link => ?_⟩
    · rw [serves, State.answersAtom, decide_eq_false near, read]
      rfl
    · rw [serves, State.answersAtom, decide_eq_false near, post, decide_eq_false (Nat.not_le.mpr entry)]
      rfl
    · rw [serves, State.answersAtom, decide_eq_false near, post, decide_eq_true agent]
      rfl
    · rw [serves, State.answersAtom, decide_eq_true link]
      rfl
  · rw [exec_atomicEngineServe, execAtomicEngineServe, none']
  · rw [exec_pageMoveCopyDone, execPageMoveCopyDone, one]
    simp [still]
  · rw [exec_pageMoveCopyDone, execPageMoveCopyDone, one]
    simp [waits]
  · exact (if_neg (by rw [go]; exact Bool.false_ne_true)).trans (if_neg (ne_true_of_eq_false passed))
  · exact (if_neg (by rw [go]; exact Bool.false_ne_true)).trans (if_pos out)

end Sys2Proof

/-! ### Steps of the units on queues and tasks -/

namespace Sys2Proof
namespace Machine

/-! #### Slots, parsing and fences (R354, R356, R361) -/

section Queue
variable {s t w : State} {die key n : Nat} {q : Queue} {rest : List Nat} {b : List Byte} {it : Post}

theorem queueSlotGrant_grants (asks : s.work.asks.filter (fun k => (s.queue? k).map Queue.die == some die) = key :: rest)
    (free : s.freeQueueSlot die = some n) :
    let asking := { s with work := { s.work with asks := s.work.asks.erase key } }
    let w := if rest.isEmpty then asking else asking.postOnce .queueSlotGrant die
    let st := if q.qsave = 1 then QSt.parked else if q.qsave = 2 then .stale else .idle
    w.queue? key = some q → q.st = .dormant → (w.ctxOf q.ctx).res = true →
      let v := (w.idleQueue { q with st, slot := some n, qsave := 0 }).unparkHead key
      execQueueSlotGrant die s = .next (if q.retry then v.postOnce .queueDispatch die else v) := by
  intro asking w st found dormant res v
  simp only [execQueueSlotGrant, asks, free]
  refine congrArg Host.Outcome.next ?_
  rw [show State.queue? (if rest.isEmpty = true then _ else State.postOnce _ .queueSlotGrant die) key = some q from found]
  refine (if_neg ?_).trans rfl
  rintro (other | away)
  · exact other dormant
  · rw [show (State.ctxOf (if rest.isEmpty = true then _ else State.postOnce _ .queueSlotGrant die) q.ctx).res = true from res] at away
    exact Bool.false_ne_true away

theorem queueSlotGrant_idle (idle : s.work.asks.filter (fun k => (s.queue? k).map Queue.die == some die) = [] ∨
    s.freeQueueSlot die = none) : execQueueSlotGrant die s = .next s := by
  obtain asks | free := idle
  · simp only [execQueueSlotGrant, asks]
  · simp only [execQueueSlotGrant, free]
    generalize s.work.asks.filter _ = asks
    cases asks <;> rfl

theorem unparkHead_moves (found : s.queue? key = some q) (parked : q.st = .parked) (nonblock : q.nonblock = true)
    (room : q.parked.length < 64) : s.unparkHead key = s.idleQueue
      { q with parked := q.parked ++ [(q.head, q.record)], head := q.head + 1, st := .idle, record := [], readyAt := none
               aborts := q.aborts.erase q.head } := by
  rw [State.unparkHead, found]
  exact if_pos ⟨parked, nonblock, room⟩

theorem queueParse_reads (found : s.queue? key = some q) (parse : q.st = .parse) :
    execQueueParse key s = .next (s.readHead q ⟨.queueParse, key, 0⟩) := by
  rw [execQueueParse, found]
  exact congrArg Host.Outcome.next (if_pos parse)

theorem queueReread_step (found : s.queue? key = some q) (parse : q.st = .parse) :
    execQueueReread key s =
      .next (if s.ns < q.nextRd then s.postOnce .queueReread key else s.readHead q ⟨.queueReread, key, 0⟩) := by
  rw [execQueueReread, found]
  exact congrArg Host.Outcome.next (if_neg (Classical.not_not.mpr parse))

section Read
variable (parses : (s.ctxOf q.ctx).parses = true)
include parses

theorem readHead_found (finds : s.Finds q.ctx (q.slotVa q.head) 128 it b) :
    s.readHead q it = if field b 2 1 % 2 = q.lap q.head then s.parsed q b
      else if q.reads < 64 then (s.setQueue { q with reads := q.reads + 1, nextRd := s.ns + 1000 }).postOnce .queueReread q.key
      else (s.setQueue { q with st := .stale }).postError q.ctx q.head.toNat 0x100 0 (queueId q.key) := by
  refine (if_neg (by rw [parses]; exact Bool.false_ne_true)).trans ?_
  rw [agentBytes_ok finds]

theorem readHead_dropped (dropped : (agentBytes q.ctx (q.slotVa q.head) 128 it : Ag (List Byte)) s = .drop t) :
    s.readHead q it =
      (t.setQueue { q with st := .stale }).postError q.ctx q.head.toNat 0x106 (q.slotVa q.head).toNat (queueId q.key) := by
  refine (if_neg (by rw [parses]; exact Bool.false_ne_true)).trans ?_
  rw [dropped]

end Read

theorem parsed_aborted (aborted : q.head ∈ q.aborts) :
    s.parsed q b = s.completeHead { q with record := b, st := .ready, readyAt := none, pick := none } 6 :=
  if_pos (List.contains_iff_mem.mpr aborted)

theorem parsed_lives (lives : q.head ∉ q.aborts) :
    let v := { q with record := b, st := .ready, readyAt := none, pick := none }
    s.parsed q b = if recFence b then
        (if fenceOk (s.ctxOf q.ctx).record.ncnt b then (s.setQueue v).postOnce .fencePacketTest q.key else s.completeHead v 5)
      else if recordOk b then ((s.setQueue v).choose q.key).postOnce .queueDispatch q.die
      else s.completeHead v 5 :=
  if_neg fun h => lives (List.contains_iff_mem.mp h)

section Choose
variable {p : Pick} (found : s.queue? key = some q) (ready : q.st = .ready) (task : recFence q.record = false)
include found ready task

omit ready task in
theorem choose_made (made : q.pick = some p) : s.choose key = s := by
  rw [State.choose, found]
  exact if_pos (Or.inr (Or.inr (by rw [made]; rfl)))

theorem choose_makes (open' : q.pick = none) (read : choosePick q.die q.ctx q.record ⟨.queueDispatch, q.die, key⟩ s = .ok p t) :
    s.choose key = t.setQueue { q with pick := some p } := by
  rw [State.choose, found]
  refine (if_neg ?_).trans ?_
  · simp [ready, task, open']
  · rw [read]

theorem choose_fails (open' : q.pick = none) (read : choosePick q.die q.ctx q.record ⟨.queueDispatch, q.die, key⟩ s = .drop t) :
    s.choose key = t.completeHead q 4 := by
  rw [State.choose, found]
  refine (if_neg ?_).trans ?_
  · simp [ready, task, open']
  · rw [read]

end Choose

theorem zip_map_all {α β : Type} {f : α → β} {l : List α} {p : α × β → Bool} :
    ((l.zip (l.map f)).all p) = true ↔ ∀ a ∈ l, p (a, f a) = true := by
  induction l with
  | nil => simp
  | cons a l ih => simp [ih]

theorem fencePacketTest_step {found : Nat × Nat → List Byte} (held : s.queue? key = some q) (ready : q.st = .ready)
    (fence : recFence q.record = true)
    (finds : ∀ f ∈ fencePairs q.record, s.Finds q.ctx (counterVa (s.ctxOf q.ctx) f.1) 8 ⟨.fencePacketTest, key, 0⟩ (found f)) :
    let hold := ((fencePairs q.record).zip ((fencePairs q.record).map found)).all fun e =>
      decide (0 ≤ (w64 (leNat e.2) - w64 e.1.2).toInt)
    execFencePacketTest key s = .next (if hold then s.completeHead q 0 else s.postOnce .fencePacketTest key) := by
  intro hold
  have reads := Ag.each_ok (f := fun (p : Nat × Nat) => agentBytes q.ctx (counterVa (s.ctxOf q.ctx) p.1) 8 ⟨.fencePacketTest, key, 0⟩)
    (g := found) (s := s) fun f mem => agentBytes_ok (finds f mem)
  rw [execFencePacketTest, held]
  refine (if_neg ?_).trans ?_
  · simp [ready, fence]
  · dsimp only
    rw [reads]

end Queue

/-! #### Dispatch (R362, R363) -/

theorem mem_insertBy {α : Type} {le : α → α → Bool} {x a : α} {l : List α} : a ∈ insertBy le x l ↔ a = x ∨ a ∈ l := by
  induction l with
  | nil => simp [insertBy]
  | cons y l ih =>
    rw [insertBy]
    split
    · exact List.mem_cons
    · rw [List.mem_cons, ih, List.mem_cons]
      exact or_left_comm

theorem mem_sortBy {α : Type} {le : α → α → Bool} {a : α} {l : List α} : a ∈ sortBy le l ↔ a ∈ l := by
  induction l with
  | nil => exact Iff.rfl
  | cons x l ih => rw [sortBy, mem_insertBy, ih, List.mem_cons]

section Dispatch
variable {s : State} {die n : Nat} {q : Queue} {o : Offer}

/-- What an offer of a queue is made of. -/
structure State.Offers (s : State) (q : Queue) (o : Offer) : Prop where
  own : o.q = q
  slot : q.slot.isSome = true
  runs : (s.ctxOf q.ctx).dispatches = true
  head : o.parked = false → s.eligible q = true
  again : o.parked = true → q.retry = true ∧ s.retries q o.record o.pick = true

theorem offers_of_offer? (offer : s.offer? q = some o) : s.Offers q o := by
  simp only [State.offer?] at offer
  split at offer
  · cases offer
  next can =>
    have inside : q.slot.isSome = true ∧ (s.ctxOf q.ctx).dispatches = true := by
      simpa [Option.isSome_iff_ne_none] using can
    obtain ⟨slot, runs⟩ := inside
    split at offer
    next o' _ again =>
      cases offer
      split at again
      next e p _ _ =>
        split at again
        next retries =>
          cases again
          exact ⟨rfl, slot, runs, nofun, fun _ => (Bool.and_eq_true ..).mp retries⟩
        · cases again
      · cases again
    next p _ _ =>
      split at offer
      next ready =>
        cases offer
        exact ⟨rfl, slot, runs, fun _ => ready, nofun⟩
      · cases offer
    · cases offer

theorem candidates_offer (mem : o ∈ s.candidates die) : o.q.die = die ∧ s.offer? o.q = some o := by
  obtain ⟨q, -, offer⟩ := List.mem_filterMap.mp (mem_sortBy.mp mem)
  split at offer
  next here =>
    have own := (offers_of_offer? offer).own
    rw [own]
    exact ⟨here, offer⟩
  · cases offer

theorem noteServed_slot (found : s.queue? o.q.key = some q) (slot : o.q.slot = some n) :
    s.noteServed o = State.setQueue { s with work := { s.work with lastSlot := SMap.set s.work.lastSlot (o.q.die * 8 + o.level) n } }
      { q with servedAt := s.ns } := by
  have kept : State.queue? { s with work := { s.work with lastSlot := SMap.set s.work.lastSlot (o.q.die * 8 + o.level) n } } o.q.key =
      some q := found
  simp only [State.noteServed, slot, kept]
  rfl

end Dispatch

/-! #### Pushes (R364, R431) and retirement (R286, R358) -/

section Push
variable {s u : State} {k qid : Nat} {q : Queue} {e : BufEntry} {es : List BufEntry} {va : Word} {sn : Option Nat} {x y : Xlate}

/-- The release of strand k has come to the QSUBMIT entry `e`. -/
structure State.Pushes (s : State) (k : Nat) (u : State) (e : BufEntry) (es : List BufEntry) (qid : Nat) (va : Word) (sn : Option Nat) :
    Prop where
  front : s.Front k u
  unrep : u.cur.ph.rep = false
  buf : u.cur.ph.buf = e :: es
  kind : e.kind = .submit qid va sn

theorem pushRecord128_ok {item : Post} {r : List Byte} (found : s.queue? k = some q)
    (place : s.InPlace q.ctx (q.slotVa q.tail) .write item y) (here : y.home ≠ 2) :
    pushRecord128 k qid r none item s = .ok () (State.kickQueue
      { s with mem := s.mem.put y.home y.pa (putBytes r 2 [BitVec.ofNat 8 (field r 2 1 / 2 * 2 + q.lap q.tail)]) } q (q.tail + 1)) := by
  simp only [pushRecord128, found, agentWrite_ok place here]

section
variable (pushes : s.Pushes k u e es qid va sn)
include pushes

section
variable (alive : u.cur.st ≠ .saved)
include alive

theorem qsubmitPush_open : ¬ (u.cur.ph.rep = true ∨ u.cur.st = .saved) := fun h =>
  h.elim (ne_true_of_eq_false pushes.unrep) alive

theorem qsubmitPush_absent (absent : u.queue? (queueKey u.curCtx.fn qid) = none) :
    execQsubmitPush k s = s.backTo u.ignored.releaseRest := by
  refine onStrand_next pushes.front ((if_neg (qsubmitPush_open pushes alive)).trans ?_)
  simp only [pushes.buf, pushes.kind, absent]

theorem qsubmitPush_full (found : u.queue? (queueKey u.curCtx.fn qid) = some q) (full : q.full = true) :
    let kind := BufKind.submit qid va (some (sn.getD u.ns))
    let w := u.setPhase fun p => { p with buf := { e with kind } :: p.buf.drop 1 }
    execQsubmitPush k s = s.backTo ((w.postOnce .qsubmitPush k).postOnce .qsubmitFull k) := by
  refine onStrand_next pushes.front ((if_neg (qsubmitPush_open pushes alive)).trans ?_)
  simp only [pushes.buf, pushes.kind, found, full]
  rfl

theorem qsubmitPush_pushes (found : u.queue? (queueKey u.curCtx.fn qid) = some q) (room : q.full = false)
    (read : u.InPlace q.ctx va .read ⟨.qsubmitPush, k, 0⟩ x) (here : x.home ≠ 2)
    (place : u.InPlace q.ctx (q.slotVa q.tail) .write ⟨.qsubmitPush, k, 0⟩ y) (here' : y.home ≠ 2) :
    let r := u.mem.bytes x.home x.pa 128
    let r := putBytes r 2 [BitVec.ofNat 8 (field r 2 1 / 2 * 2 + q.lap q.tail)]
    execQsubmitPush k s =
      s.backTo (State.kickQueue { u with mem := u.mem.put y.home y.pa r } q (q.tail + 1)).releaseRest := by
  refine onStrand_next pushes.front ((if_neg (qsubmitPush_open pushes alive)).trans ?_)
  simp only [pushes.buf, pushes.kind, found, room, Ag.bind, agentRead_ok read here, pushRecord128_ok found place here']
  rfl

end

theorem qsubmitFull_step {since : Nat} (waiting : sn = some since) (found : u.queue? (queueKey u.curCtx.fn qid) = some q)
    (full : q.full = true) :
    execQsubmitFull k s = s.backTo (if u.curCtx.holdNs ≤ u.ns - since
      then (u.postError u.cur.sys.ctx.toNat q.tail.toNat 0x102 0 qid).releaseRest else u.postOnce .qsubmitFull k) := by
  subst waiting
  refine onStrand_next pushes.front ?_
  simp only [pushes.buf, pushes.kind, found, pushes.unrep, full]
  exact (apply_ite Host.Outcome.next ..).symm

end

end Push

section Retire
variable {s t : State} {task : Nat} {p : Task}

section
variable (known : s.task task = some p) (silent : s.emitting (2 ^ 20 + agentUnit p.die) = false)
include known silent

theorem taskRetire_retires (over' : s.retires p = true) :
    execTaskRetire task s = .next (if p.convOf.isSome = true ∨ (s.ctxOf p.ctx).st = .free then s.removeTask p else s.retireSteps p) := by
  simp only [execTaskRetire, known, silent, over']
  exact (apply_ite Host.Outcome.next ..).symm

theorem taskRetire_waits (busy : s.retires p = false) (more : p.drained = false ∨ p.waits ≠ []) :
    execTaskRetire task s = .next s := by
  have none' : (p.drained && p.waits.isEmpty) = false := by
    rw [Bool.and_eq_false_iff, List.isEmpty_eq_false_iff]
    exact more
  simp only [execTaskRetire, known, silent, busy, none']
  rfl

end

theorem retireSteps_added (done : p.done = 1) (counter : p.ccva ≠ 0)
    (add : s.agentAdd (taskKey p.id) p.ctx p.ccva (w64 (field p.record 32 4)) (queueId p.q) ⟨.taskRetire, p.id, 0⟩ = .ok () t) :
    s.retireSteps p = (t.setTask { p with done := 2 }).repost ⟨.taskRetire, p.id, 0⟩ := by
  simp only [State.retireSteps, done, if_neg counter, add]

theorem retireSteps_waits (done : p.done = 2) (out : ∃ r ∈ s.mem.atoms, r.owner = taskKey p.id ∧ r.old = none) :
    s.retireSteps p = s.repost ⟨.taskRetire, p.id, 0⟩ := by
  have waits : (s.mem.atoms.any fun r => r.owner == taskKey p.id && r.old.isNone) = true := by
    simpa using out
  simp only [State.retireSteps, done, waits]
  rfl

theorem retireSteps_completes {q w : Queue} {x : Xlate} (found : s.queue? p.q = some q) (new : p.done = 0) (signal : p.signal ≠ 0)
    (counter : p.ccva = 0) (quiet : field p.record 2 2 = 0) :
    let v := s.setQueue { q with evt := q.evt ||| p.signal }
    let y := (v.setTask { p with done := 1 }).setTask { p with done := 2 }
    y.queue? p.q = some w → y.InPlace p.ctx (w.cring + w64 (32 * (p.index.toNat % w.n))) .write ⟨.taskRetire, p.id, 0⟩ x →
    x.home ≠ 2 → s.retireSteps p = State.removeTask { y with mem := y.mem.put x.home x.pa (p.completion y.ns w) } p := by
  intro v y held place here
  have written := agentWrite_ok (src := queueId p.q) (b := p.completion y.ns w) place here
  dsimp only [y, v] at held written
  simp only [State.retireSteps, new, counter, found, if_neg signal, if_true, quiet, held, written]
  rfl

end Retire


end Machine

open Machine

/-- Settles O53: each step from the branch of its definition; what a candidate is from the offers of the die's queues. -/
theorem queueUnitSteps : Obligations.QueueUnitSteps := by
  unfold Obligations.QueueUnitSteps
  intro s t u die key k n q rest b task p e es qid since va o os it found pick sn x y again
  refine ⟨fun asks free held => queueSlotGrant_grants asks free held, queueSlotGrant_idle, unparkHead_moves, queueParse_reads,
    fun held parse => ⟨fun early => ?_, fun due => ?_⟩, fun parses => ⟨fun finds => ⟨fun lap => ?_, fun lap few => ?_, fun lap many => ?_⟩,
      readHead_dropped parses⟩, ⟨parsed_aborted, fun lives task => ⟨fun ok => ?_, fun bad => ?_⟩, fun lives fence ok => ?_⟩,
    fun held ready task => ⟨choose_makes held ready task, choose_fails held ready task, choose_made held⟩,
    fun held ready fence finds => ?_, ⟨fun silent => ?_, fun emits => ?_, fun o mem => candidates_offer mem⟩, fun offer => ?_,
    fun eligible => ?_, rfl, noteServed_slot, fun front unrep buf => ?_,
    fun known silent over' => ⟨fun gone => ?_, fun conv live => ?_⟩, taskRetire_waits, fun w held new signal counter quiet => retireSteps_completes held new signal counter quiet,
    retireSteps_added, retireSteps_waits⟩
  · exact (queueReread_step held parse).trans (congrArg Host.Outcome.next (if_pos early))
  · exact (queueReread_step held parse).trans (congrArg Host.Outcome.next (if_neg (Nat.not_lt.mpr due)))
  · exact (readHead_found parses finds).trans (if_pos lap)
  · exact (readHead_found parses finds).trans ((if_neg lap).trans (if_pos few))
  · exact (readHead_found parses finds).trans ((if_neg lap).trans (if_neg (Nat.not_lt.mpr many)))
  · exact (parsed_lives lives).trans ((if_neg (ne_true_of_eq_false task)).trans (if_pos ok))
  · exact (parsed_lives lives).trans ((if_neg (ne_true_of_eq_false task)).trans (if_neg (ne_true_of_eq_false bad)))
  · exact (parsed_lives lives).trans ((if_pos fence).trans (if_pos ok))
  · intro hold
    have tested := fencePacketTest_step held ready fence finds
    have all : ((fencePairs q.record).zip ((fencePairs q.record).map found)).all (fun e =>
        decide (0 ≤ (w64 (leNat e.2) - w64 e.1.2).toInt)) = true ↔ hold := by
      rw [zip_map_all]
      simp only [decide_eq_true_iff]
      exact Iff.rfl
    exact ⟨fun h => tested.trans (congrArg Host.Outcome.next (if_pos (all.mpr h))),
      fun h => tested.trans (congrArg Host.Outcome.next (if_neg fun yes => h (all.mp yes)))⟩
  · rw [exec_queueDispatch, execQueueDispatch, if_neg (ne_true_of_eq_false silent)]
  · rw [exec_queueDispatch, execQueueDispatch, if_pos emits]
  · obtain ⟨-, slot, runs, head, again'⟩ := offers_of_offer? offer
    refine ⟨slot, runs, head, fun parked => ?_⟩
    obtain ⟨retry, retries⟩ := again' parked
    obtain ⟨met, room⟩ := (Bool.and_eq_true ..).mp retries
    exact ⟨retry, beq_iff_eq.mp met, room⟩
  · obtain ⟨-, -, met, chosen⟩ := (s.eligible_iff q).mp eligible
    exact ⟨met, chosen⟩
  · intro found push
    refine ⟨fun kind alive => ?_, fun kind held full => ?_⟩
    · have pushes : s.Pushes k u e es qid va sn := ⟨front, unrep, buf, kind⟩
      exact ⟨qsubmitPush_absent pushes alive, fun held room read here place here' =>
        qsubmitPush_pushes pushes alive held room read here place here', fun held full => qsubmitPush_full pushes alive held full⟩
    · have full' := qsubmitFull_step ⟨front, unrep, buf, kind⟩ rfl held full
      exact ⟨fun late => full'.trans (congrArg s.backTo (if_pos late)),
        fun early => full'.trans (congrArg s.backTo (if_neg (Nat.not_le.mpr early)))⟩
  · exact (taskRetire_retires known silent over').trans (congrArg Host.Outcome.next (if_pos gone))
  · refine (taskRetire_retires known silent over').trans (congrArg Host.Outcome.next (if_neg ?_))
    rw [conv]
    exact fun h => h.elim nofun live

end Sys2Proof

/-! ### Steps of the units on links -/

namespace Sys2Proof
namespace Machine

/-! #### Flits (R401, R402) -/

theorem crcBits_lt {n c : Nat} (small : c < 2 ^ 32) : crcBits n c < 2 ^ 32 := by
  induction n generalizing c with
  | zero => exact small
  | succ n ih =>
    have half : c / 2 < 2 ^ 32 := by omega
    rw [crcBits]
    split
    · exact ih (Nat.xor_lt_two_pow half (by decide))
    · exact ih half

theorem crc32c_lt (b : List Byte) : crc32c b < 2 ^ 32 := by
  have fold (c : Nat) (small : c < 2 ^ 32) : b.foldl (fun c x => crcBits 8 (c ^^^ x.toNat)) c < 2 ^ 32 := by
    induction b generalizing c with
    | nil => exact small
    | cons x b ih => exact ih _ (crcBits_lt (Nat.xor_lt_two_pow small (by omega)))
  exact Nat.xor_lt_two_pow (fold _ (by decide)) (by decide)

theorem padTo_length (n : Nat) (b : List Byte) : (padTo n b).length = n := by
  simp [padTo]

theorem flitOk_mkFlit (type : Nat) (payload : List Byte) : flitOk (mkFlit type payload) = true := by
  have length := padTo_length 60 (leBytes 1 type ++ [0] ++ payload)
  rw [flitOk, mkFlit, field]
  rw [List.drop_left' length, List.take_left' length, List.take_of_length_le (Nat.le_of_eq (leBytes_length ..)), leNat_leBytes,
    Nat.mod_eq_of_lt (crc32c_lt _)]
  exact beq_self_eq_true _

/-! #### Requests of peers (R409) -/

section Serve
variable {s t : State} {n : Nat} {q : LinkReq} {ok wr : Bool} {ps : List Piece} {xs : List (Xlate × Piece)}
  {body : List (Xlate × Piece) → State → State}

/-- A context serves the requests of a peer of its group. -/
structure State.Admits (s : State) (q : LinkReq) : Prop where
  ctx : q.ctx < 4096
  used : (s.ctxOf q.ctx).st ≠ .free
  alive : (s.ctxOf q.ctx).st ≠ .tornDown
  peer : ∃ m ∈ (s.ctxOf q.ctx).peers, m.chip = q.src

theorem admits_iff (ctx : q.ctx < 4096) : s.admits q = true ↔ s.Admits q := by
  simp only [State.admits, Bool.and_eq_true, bne_iff_ne, List.any_eq_true, beq_iff_eq]
  exact ⟨fun ⟨⟨used, alive⟩, peer⟩ => ⟨ctx, used, alive, peer⟩, fun ⟨_, used, alive, peer⟩ => ⟨⟨used, alive⟩, peer⟩⟩

theorem serve_malformed (bad : ok = false) : s.serve n q ok wr ps body = .next (s.answer n q 3) :=
  if_pos (Or.inl (by rw [bad]; rfl))

theorem serve_rejected (sound : ok = true) (ctx : q.ctx < 4096) (no : ¬ s.Admits q) :
    s.serve n q ok wr ps body = .next (s.answer n q 2) := by
  have refused : s.admits q = false := Bool.eq_false_iff.mpr fun h => no ((admits_iff ctx).mp h)
  refine (if_neg ?_).trans (if_pos (by rw [refused]; rfl))
  rw [sound]
  exact fun h => h.elim (fun no => nomatch no) (Nat.not_le.mpr ctx)

section
variable (sound : ok = true) (admitted : s.Admits q)
include sound admitted

theorem serve_admitted : s.serve n q ok wr ps body = match State.linkXlate q.ctx wr ps s with
    | .ok xs t => .next (body xs t)
    | .reject => .next (s.answer n q 2)
    | .refuse t => .next (t.answer n q 1)
    | .hold t => .next { t with net := { t.net with kept := t.net.kept ++ [(n, q)] } } := by
  refine (if_neg ?_).trans ((if_neg ?_).trans ?_)
  · rw [sound]
    exact fun h => h.elim (fun no => nomatch no) (Nat.not_le.mpr admitted.ctx)
  · rw [(admits_iff admitted.ctx).mpr admitted]
    exact Bool.false_ne_true
  · cases State.linkXlate q.ctx wr ps s <;> rfl

theorem serve_ok (pages : State.linkXlate q.ctx wr ps s = .ok xs t) : s.serve n q ok wr ps body = .next (body xs t) := by
  rw [serve_admitted sound admitted, pages]

theorem serve_elsewhere (pages : State.linkXlate q.ctx wr ps s = .reject) :
    s.serve n q ok wr ps body = .next (s.answer n q 2) := by
  rw [serve_admitted sound admitted, pages]

theorem serve_refused (pages : State.linkXlate q.ctx wr ps s = .refuse t) :
    s.serve n q ok wr ps body = .next (t.answer n q 1) := by
  rw [serve_admitted sound admitted, pages]

theorem serve_held (pages : State.linkXlate q.ctx wr ps s = .hold t) :
    s.serve n q ok wr ps body = .next { t with net := { t.net with kept := t.net.kept ++ [(n, q)] } } := by
  rw [serve_admitted sound admitted, pages]

/-- A request whose pages are in place, or translate to `xs`. -/
theorem serve_served (y : Word → Xlate) :
    ((∀ p ∈ ps, canonical p.1 = true ∧ s.mem.request? q.ctx p.1 = none ∧
      s.translate q.ctx [] none p.1 (if wr then .write else .read) = .ok (y p.1) s ∧ (y p.1).desc = false ∧ (y p.1).home ≠ 2) →
      s.serve n q ok wr ps body = .next (body (ps.map fun p => (y p.1, p)) s)) ∧
    (State.linkXlate q.ctx wr ps s = .ok xs t → s.serve n q ok wr ps body = .next (body xs t)) :=
  ⟨fun placed => serve_ok sound admitted (linkXlate_ok placed), serve_ok sound admitted⟩

end

theorem reqCarries_iff : reqCarries q = true ↔ q.data.length = q.len ∧ q.len ≤ 1216 ∧ q.opd = 0 ∧ q.opd2 = 0 := by
  simp only [reqCarries, Bool.and_eq_true, beq_iff_eq, decide_eq_true_iff, and_assoc]

/-- Data of an atomic request: the word's size, and the operation of the table of R293. -/
theorem atomic_sound {a : Nat} (sound : a < 64 ∧ a % 16 ≤ 9) :
    let size := if a / 16 % 2 = 1 then 8 else 4
    let op := if a / 32 % 2 = 1 then 10 else a % 16
    ((!decide (a / 32 % 2 = 1) || a % 16 == 0) = true ↔ (op = 10 → a % 16 = 0)) ∧
      ((decide (a / 32 % 2 = 1) || q.opd2 == 0) = true ↔ (op = 10 ∨ q.opd2 = 0)) ∧
      ((!(op == 9 && size == 8)) = true ↔ ¬ (op = 9 ∧ size = 8)) := by
  have other : a % 16 ≠ 10 := by omega
  by_cases cas : a / 32 % 2 = 1 <;> simp [cas, other, Decidable.imp_iff_not_or]


/-- What an atomic or a NOTIFY of a peer queues at the home engine of its word. -/
def State.queueLink (t : State) (n : Nat) (q : LinkReq) (e : Xlate × Piece) (op size : Nat) (new : Word) (post : Bool) : State :=
  t.queueAtom ⟨atomEngine e.1.home e.1.pa, t.clock, 2 ^ 20 + n, q.tag, q.src, 2 ^ 20 + n, none, q.ctx, 65536, op, size, e.1.home,
    e.1.pa, q.opd, new, post, none⟩

/-- The first of the pieces, if there is one. -/
def onFirst (f : Xlate × Piece → State → State) : List (Xlate × Piece) → State → State
  | [], t => t
  | e :: _, t => f e t

theorem linkNotify_serves {ok : Bool} (sound : (q.opk == 3 && q.opa == 0 && q.fmt == 0 && q.data.isEmpty &&
      q.len == 0 && q.opd2 == 0 && decide (q.rva.toNat < 2 ^ 32)) = ok) (small : q.rva.toNat < 2 ^ 32)
    (known : q.rva.toNat < (s.ctxOf q.ctx).record.ncnt) :
    execLinkNotify n q s = s.serve n q ok true [(counterVa (s.ctxOf q.ctx) q.rva.toNat, 8)]
      (onFirst fun e t => t.queueLink n q e 0 8 0 true) := by
  subst sound
  have number : q.rva.toNat % 2 ^ 32 = q.rva.toNat := Nat.mod_eq_of_lt small
  rw [execLinkNotify, number]
  refine (if_neg fun h => Nat.not_le.mpr known h.2.2).trans ?_
  refine congrArg (s.serve n q _ true _) (funext fun xs => funext fun t => ?_)
  cases xs <;> rfl

theorem linkNotify_unknown (sound : (q.opk == 3 && q.opa == 0 && q.fmt == 0 && q.data.isEmpty &&
      q.len == 0 && q.opd2 == 0 && decide (q.rva.toNat < 2 ^ 32)) = true) (small : q.rva.toNat < 2 ^ 32)
    (admitted : s.Admits q) (unknown : (s.ctxOf q.ctx).record.ncnt ≤ q.rva.toNat) :
    execLinkNotify n q s = .next (s.answer n q 2) := by
  have number : q.rva.toNat % 2 ^ 32 = q.rva.toNat := Nat.mod_eq_of_lt small
  rw [execLinkNotify, number]
  exact if_pos ⟨sound, (admits_iff admitted.ctx).mpr admitted, unknown⟩

/-- The operation and the size of an atomic request. -/
def linkOpOf (q : LinkReq) : Nat := if q.opa.toNat / 32 % 2 = 1 then 10 else q.opa.toNat % 16
def linkSizeOf (q : LinkReq) : Nat := if q.opa.toNat / 16 % 2 = 1 then 8 else 4

/-- The encoding of an atomic request is sound (R409). -/
structure LinkAtomic (q : LinkReq) : Prop where
  opk : q.opk = 4
  fmt : q.fmt = 0
  small : q.opa.toNat < 64
  known : q.opa.toNat % 16 ≤ 9
  swap : linkOpOf q = 10 → q.opa.toNat % 16 = 0
  float : ¬ (linkOpOf q = 9 ∧ linkSizeOf q = 8)
  data : q.data = []
  len : q.len = 0
  opd2 : linkOpOf q = 10 ∨ q.opd2 = 0
  aligned : q.rva.toNat % linkSizeOf q = 0

theorem linkAtomic_serves (sound : LinkAtomic q) : execLinkAtomic n q s = s.serve n q true true [(q.rva, linkSizeOf q)]
    (onFirst fun e t => if e.1.home = 1 ∧ linkOpOf q ∉ [0, 8, 10] then t.answer n q 2 else t.queueLink n q e (linkOpOf q) (linkSizeOf q) q.opd2 false) := by
  obtain ⟨opk, fmt, small, known, swap, float, data, len, opd2, aligned⟩ := sound
  obtain ⟨swap', opd2', float'⟩ := atomic_sound (q := q) ⟨small, known⟩
  have ok : (q.opk == 4 && q.fmt == 0 && decide (q.opa.toNat < 64) && decide (q.opa.toNat % 16 ≤ 9) &&
      (!decide (q.opa.toNat / 32 % 2 = 1) || q.opa.toNat % 16 == 0) && !(linkOpOf q == 9 && linkSizeOf q == 8) && q.data.isEmpty &&
      q.len == 0 && (decide (q.opa.toNat / 32 % 2 = 1) || q.opd2 == 0) && q.rva.toNat % linkSizeOf q == 0) = true := by
    rw [swap'.mpr swap, opd2'.mpr opd2, show (!(linkOpOf q == 9 && linkSizeOf q == 8)) = true from float'.mpr float]
    simp [opk, fmt, small, known, data, len, aligned]
  simp only [execLinkAtomic, decide_eq_true_eq]
  refine Eq.trans ?_ (congrArg (fun b => s.serve n q b true _ _) ok)
  refine congrArg (s.serve n q _ true [(q.rva, linkSizeOf q)]) (funext fun xs => funext fun t => ?_)
  cases xs with
  | nil => rfl
  | cons e xs =>
    refine ite_congr (propext (and_congr_right fun _ => ?_)) (fun _ => rfl) fun _ => rfl
    simp [linkOpOf]

/-- What an AGREE does once it is admitted (R412). -/
def State.agreed (s : State) (n : Nat) (q : LinkReq) : State :=
  let mine := s.net.colls.find? fun e => e.2.ctx == q.ctx && e.2.n == q.rva.toNat
  if ((s.ctxOf q.ctx).rankOf q.src).bind treeParent ≠ some (s.ctxOf q.ctx).rank ∨ (mine.isNone ∧ q.rva.toNat < (s.ctxOf q.ctx).colls) then
    s.answer n q 2
  else
    let t := { s with net := { s.net with agrees := s.net.agrees ++ [(n, q)] } }
    match mine with
    | some e => t.postOnce .collectiveExpand e.1
    | none => t

theorem linkAgree_serves (sound : (q.opk == 5 && decide (q.opa.toNat ≤ 4) && q.data.length == q.len && decide (q.len ≤ 1232) &&
      q.opd2 == 0 && getBits q.opd 24 8 == 0) = true) (admitted : s.Admits q) :
    execLinkAgree n q s = .next (s.agreed n q) := by
  rw [execLinkAgree]
  refine (serve_ok (xs := []) (t := s) (ps := []) (wr := false) sound admitted rfl).trans rfl

end Serve

/-! #### Responses, ports and frames (R403 to R406) -/

section Ports
variable {s : State} {n lanes seq ack : Nat} {frame : List Byte} {fs : List (List Byte)}

theorem carries_iff (p : Port) : p.carries = true ↔ p.st = .up ∨ p.st = .degraded := by
  rw [Port.carries, Bool.or_eq_true, beq_iff_eq, beq_iff_eq]

theorem portTrainingEnd_step (trains : s.trains n = true) :
    execPortTrainingEnd n lanes s = if min lanes (s.port n).peerLanes < 2 then .next (s.trainFail n)
      else
        let w := if 8 ≤ min lanes (s.port n).peerLanes then 8 else if 4 ≤ min lanes (s.port n).peerLanes then 4 else 2
        let up := s.setPort n fun p => { p with lanes := w, fails := 0, resends := 0, trainAt := none }
        .next (((up.enterPort n (if w = 8 then .up else .degraded)).resend n).pump n) :=
  if_neg (by rw [trains]; exact Bool.false_ne_true)

/-- The flits of a frame that the port takes. -/
def State.takeFlits (s : State) (n ack : Nat) (frame : List Byte) (got : List (List Byte) × Bool) : State :=
  let w := s.setPort n fun p => p.acked ack
  let w := w.setPort n fun p => { p with rxSeq := (p.rxSeq + got.1.length) % 4096, nak := got.2 }
  let w := got.1.foldl (State.flitIn n) w
  State.pump (if got.2 || got.1.any fun f => field f 0 1 != 0 then w.sendAck n ((frame.drop 6).take 6) else w) n

theorem frameReceive_takes (carries : (s.port n).carries = true)
    (own : beNat ((frame.drop 12).take 2) = s.ctl.fw.etherType.toNat) (parsed : parseFrame frame = some (seq, ack, false, fs)) :
    execObdaokFrameReceive n frame s = .next (s.takeFlits n ack frame (acceptFlits ((s.port n).rxSeq + 1) seq fs)) := by
  refine (if_neg ?_).trans ?_
  · simp [carries, own]
  · rw [parsed]
    rfl

end Ports

end Machine

open Machine

/-- Settles O54: a request is served when its encoding is sound, its peer admitted and its pages in place; the other steps
by the branch of their definitions. -/
theorem linkUnitSteps : Obligations.LinkUnitSteps := by
  unfold Obligations.LinkUnitSteps
  intro s t n lanes q x r xs y frame seq ack fs off b p admitted carried pages placed served add write f k reduction read notify a size
    op atomic agree c
  have admits : admitted → s.Admits q := fun ⟨ctx, used, alive, peer⟩ => ⟨ctx, used, alive, peer⟩
  have writes : (q.opk == 0 && q.opa == 0 && q.fmt == 0 && reqCarries q) = true ↔ write := by
    simp only [Bool.and_eq_true, beq_iff_eq, reqCarries_iff, and_assoc]
    exact Iff.rfl
  have reads : (q.opk == 2 && q.opa == 0 && q.fmt == 0 && q.data.isEmpty && decide (q.len ≤ 1216) && q.opd == 0 && q.opd2 == 0) = true ↔
      read := by
    simp only [Bool.and_eq_true, beq_iff_eq, List.isEmpty_iff, decide_eq_true_iff, and_assoc]
    exact Iff.rfl
  have agrees : agree → (q.opk == 5 && decide (q.opa.toNat ≤ 4) && q.data.length == q.len && decide (q.len ≤ 1232) && q.opd2 == 0 &&
      getBits q.opd 24 8 == 0) = true := by
    rintro ⟨opk, opa, data, len, opd2, rsv⟩
    simp only [Bool.and_eq_true, beq_iff_eq, decide_eq_true_iff]
    exact ⟨⟨⟨⟨⟨opk, opa⟩, data⟩, len⟩, opd2⟩, rsv⟩
  have notifies : notify → q.rva.toNat < 2 ^ 32 ∧ (q.opk == 3 && q.opa == 0 && q.fmt == 0 && q.data.isEmpty && q.len == 0 &&
      q.opd2 == 0 && decide (q.rva.toNat < 2 ^ 32)) = true := by
    rintro ⟨opk, opa, fmt, data, len, opd2, small⟩
    simp only [Bool.and_eq_true, beq_iff_eq, List.isEmpty_iff, decide_eq_true_iff]
    exact ⟨small, ⟨⟨⟨⟨⟨opk, opa⟩, fmt⟩, data⟩, len⟩, opd2⟩, small⟩
  refine ⟨fun sound adm => ?_, fun sound adm => ?_, fun sound adm => ?_, fun sound adm => ⟨fun known => ?_, fun unknown => ?_⟩,
    fun sound adm => ?_, fun sound adm child => ⟨fun new open' => ?_, fun m mine => ?_⟩, fun bad => ?_, fun bad => ?_,
    fun sound ctx no => ?_, fun sound adm pages => ?_, fun sound adm pages => ?_, fun sound adm pages => ?_,
    fun found => ⟨fun st => ?_, fun st => ?_, fun st => ?_, fun st early => ?_, fun st late => ?_⟩,
    rfl, fun trains => ?_, rfl, rfl, fun inside down => ?_, fun inside up => ?_,
    fun trains => ⟨fun wide => ?_, fun narrow => ?_, fun few => ?_, fun two => ?_⟩, fun carries => ⟨?_, ?_⟩, fun inside => ?_, fun failed => ?_,
    fun other => ?_, rfl, fun carries own => ⟨fun bad => ?_, fun parsed => ?_⟩, fun up degraded => ?_, fun next => rfl, flitOk_mkFlit, ?_⟩
  · exact serve_served (writes.mpr sound) (admits adm) y
  · refine serve_served ?_ (admits adm) y
    obtain ⟨opk, opa, fmt, carried, align, len⟩ := sound
    simp only [Bool.and_eq_true, beq_iff_eq, reqCarries_iff, decide_eq_true_iff]
    exact ⟨⟨⟨⟨⟨opk, opa⟩, fmt⟩, carried⟩, align⟩, len⟩
  · exact serve_served (reads.mpr sound) (admits adm) y
  · obtain ⟨small, ok⟩ := notifies sound
    have unit : exec (.linkNotify n q) s = _ := linkNotify_serves ok small known
    obtain ⟨near, far⟩ := serve_served (s := s) (t := t) (n := n) (xs := xs)
      (body := onFirst fun e t => t.queueLink n q e 0 8 0 true) rfl (admits adm) y
    refine ⟨fun place => unit.trans (near place), fun found => unit.trans ((far found).trans (congrArg Host.Outcome.next ?_))⟩
    cases xs <;> rfl
  · obtain ⟨small, ok⟩ := notifies sound
    exact linkNotify_unknown ok small (admits adm) unknown
  · obtain ⟨opk, fmt, small, known, swap, float, data, len, opd2, aligned⟩ := sound
    have unit : exec (.linkAtomic n q) s = _ := linkAtomic_serves ⟨opk, fmt, small, known, swap, float, data, len, opd2, aligned⟩
    obtain ⟨near, far⟩ := serve_served (s := s) (t := t) (n := n) (xs := xs) (ps := [(q.rva, size)]) (wr := true)
      (body := onFirst fun e t => if e.1.home = 1 ∧ op ∉ [0, 8, 10] then t.answer n q 2
        else t.queueLink n q e op size q.opd2 false) rfl (admits adm) y
    refine ⟨fun place => unit.trans (near place), fun found => unit.trans ((far found).trans (congrArg Host.Outcome.next ?_))⟩
    cases xs <;> rfl
  · refine (linkAgree_serves (agrees sound) (admits adm)).trans (congrArg Host.Outcome.next ((if_neg ?_).trans ?_))
    · exact fun h => h.elim (fun no => no child) fun over' => Nat.not_lt.mpr open' over'.2
    · rw [new]
  · refine (linkAgree_serves (agrees sound) (admits adm)).trans (congrArg Host.Outcome.next ((if_neg ?_).trans ?_))
    · rw [mine]
      exact fun h => h.elim (fun no => no child) fun over' => nomatch over'.1
    · rw [mine]
  · exact serve_malformed (Bool.eq_false_iff.mpr fun ok => bad (writes.mp ok))
  · exact serve_malformed (Bool.eq_false_iff.mpr fun ok => bad (reads.mp ok))
  · exact serve_rejected (writes.mpr sound) ctx fun ⟨ctx, used, alive, peer⟩ => no ⟨ctx, used, alive, peer⟩
  · exact serve_elsewhere (writes.mpr sound) (admits adm) pages
  · exact serve_refused (writes.mpr sound) (admits adm) pages
  · exact serve_held (writes.mpr sound) (admits adm) pages
  · rw [exec_linkResponse, execLinkResponse, found]
    simp only [st]
  · rw [exec_linkResponse, execLinkResponse, found]
    simp only [st]
  · rw [exec_linkResponse, execLinkResponse, found]
    simp only [st]
  · rw [exec_linkResponse, execLinkResponse, found]
    simp only [st]
    exact if_neg (Nat.not_lt.mpr early)
  · rw [exec_linkResponse, execLinkResponse, found]
    simp only [st]
    exact if_pos late
  · exact congrArg Host.Outcome.next (if_pos trains)
  · exact congrArg Host.Outcome.next (if_neg fun h => h.elim (Nat.not_le.mpr inside) (Classical.not_not.mpr down))
  · exact congrArg Host.Outcome.next (if_pos (Or.inr up))
  · exact (portTrainingEnd_step trains).trans (if_neg (Nat.not_lt.mpr wide))
  · exact (portTrainingEnd_step trains).trans (if_pos narrow)
  · exact congrArg Host.Outcome.next ((if_pos trains).trans (if_neg (Nat.ne_of_lt few)))
  · exact congrArg Host.Outcome.next ((if_pos trains).trans (if_pos two))
  · exact congrArg Host.Outcome.next (if_pos ((carries_iff _).mpr carries))
  · exact congrArg Host.Outcome.next (if_pos ((carries_iff _).mpr carries))
  · exact congrArg Host.Outcome.next (if_neg (Nat.not_le.mpr inside))
  · exact congrArg Host.Outcome.next (if_pos failed)
  · exact congrArg Host.Outcome.next (if_neg other)
  · rw [exec_obdaokFrameReceive, execObdaokFrameReceive, bad]
    have on : (s.port n).carries = true := (carries_iff _).mpr carries
    refine if_neg ?_
    simp [on, own]
  · exact frameReceive_takes ((carries_iff _).mpr carries) own parsed
  · refine if_pos (Or.inl ?_)
    have idle : (s.port n).carries = false := Bool.eq_false_iff.mpr fun h => ((carries_iff _).mp h).elim up degraded
    rw [idle]
    rfl
  · simp [crc32c, crcBits]

end Sys2Proof

/-! ### Work entries, collectives, streams and trace units -/

namespace Sys2Proof
namespace Machine

/-! ### The acceptance of a chain's entry -/

/-- A record read on LK is the bytes in memory. -/
theorem linkRecord_ok {s t : State} {va : Word} {x : Xlate} (found : s.ownXlate va .read = .ok x t) (here : x.home ≠ 2)
    (clean : t.mem.poisoned x.home x.pa 64 = false) : linkRecord va s = .ok (t.mem.bytes x.home x.pa 64) t := by
  refine Act.bind_eq (xlate_ok found) ?_
  rw [if_neg here, clean]
  rfl

/-- What acceptance of a single entry with the record b leaves, the state having been t when b was read. -/
def State.entryTaken (t : State) (k : Nat) (o : AsyncOp) (hand : Nat) (va : Word) (arm : Bool) (last : Option Nat)
    (b : List Byte) : State :=
  match qpeBad t.curCtx arm (qpeOf b) with
  | some off => t.badRecord o hand va off
  | none =>
    let r := t.addEntry hand va arm last (qpeOf b)
    if (qpeOf b).next = 0 then r.2.accepted o hand
    else State.post ((r.2.unhold o.g (some o.id)).setCur fun t => t.updOp o.id fun o =>
      { o with kind := .accept (qpeOf b).next false arm hand (some r.1) }) .linkChainAcceptance k o.id

section
variable {s u t : State} {k op hand : Nat} {o : AsyncOp} {va : Word} {arm : Bool} {last : Option Nat} {x : Xlate}

/-- A chain whose handle has not failed has its next record taken while the device has room for an entry. -/
theorem acceptStep_takes (kind : o.kind = .accept va false arm hand last)
    (sound : ∀ h ∈ u.cur.hand, h.held = true → h.id = hand → h.status = 0) (room : u.net.work.length < Config.armedEntries)
    (found : u.ownXlate va .read = .ok x t) (here : x.home ≠ 2) (clean : t.mem.poisoned x.home x.pa 64 = false) :
    acceptStep k o u = .ok () (t.entryTaken k o hand va arm last (t.mem.bytes x.home x.pa 64)) := by
  have unfailed : (u.cur.hand.any fun h => h.held && h.id == hand && h.status != 0) = false := by
    rw [List.any_eq_false]
    intro h mem failed
    simp only [Bool.and_eq_true, beq_iff_eq, bne_iff_ne, ne_eq] at failed
    exact failed.2 (sound h mem failed.1.1 failed.1.2)
  unfold acceptStep
  rw [kind]
  refine Act.bind_eq (a := u) rfl ?_
  rw [if_neg (ne_true_of_eq_false unfailed), if_neg Bool.false_ne_true, if_neg (Nat.not_le.mpr room)]
  exact Act.bind_eq (linkRecord_ok found here clean) rfl

theorem entryTaken_last {b : List Byte} (good : qpeBad t.curCtx arm (qpeOf b) = none) (ends : (qpeOf b).next = 0) :
    t.entryTaken k o hand va arm last b = (t.addEntry hand va arm last (qpeOf b)).2.accepted o hand := by
  simp only [State.entryTaken, good, ends, if_true]

theorem entryTaken_bad {b : List Byte} {off : Nat} (bad : qpeBad t.curCtx arm (qpeOf b) = some off) :
    t.entryTaken k o hand va arm last b = t.badRecord o hand va off := by
  simp only [State.entryTaken, bad]

end

/-! ### Work entries -/

section
variable {s t : State} {n : Nat} {w : WorkEnt} {b : List Byte}

/-- An armed entry reads its local data and fires. -/
def State.fireData (s : State) (n : Nat) (w : WorkEnt) : Out :=
  match (if w.e.op ≤ 1 then agentBytes w.ctx w.e.lva w.e.len.toNat ⟨.workEntryFire, n, 0⟩ else Ag.pure [] : Ag (List Byte)) s with
  | .wait u => .next u
  | .drop u => .next (u.failEntry n w 4)
  | .ok data u => .next (u.fireEntry n w data)

theorem fireData_none (bare : 1 < w.e.op) : s.fireData n w = .next (s.fireEntry n w []) := by
  rw [State.fireData, if_neg (Nat.not_le.mpr bare)]
  rfl

theorem fireData_found (data : w.e.op ≤ 1) (found : s.Finds w.ctx w.e.lva w.e.len.toNat ⟨.workEntryFire, n, 0⟩ b) :
    s.fireData n w = .next (s.fireEntry n w b) := by
  rw [State.fireData, if_pos data, agentBytes_ok found]

theorem fireData_dropped (data : w.e.op ≤ 1)
    (dropped : (agentBytes w.ctx w.e.lva w.e.len.toNat ⟨.workEntryFire, n, 0⟩ : Ag (List Byte)) s = .drop t) :
    s.fireData n w = .next (t.failEntry n w 4) := by
  rw [State.fireData, if_pos data, dropped]

variable (found : SMap.get? s.net.work n = some w) (armed : w.fired = false) (first : w.prev = none)
  (here : s.armerAway w = false)
include found armed first here

/-- An entry without a counter fires when it is armed. -/
theorem workEntryFire_free (free : w.e.armk = noCounter) : execWorkEntryFire n s = s.fireData n w := by
  simp only [execWorkEntryFire, found, armed, first, here, free, if_true]
  rfl

/-- An entry with a counter fires once the counter has passed, and asks again before. -/
theorem workEntryFire_counted (counted : w.e.armk ≠ noCounter)
    (read : s.Finds w.ctx (counterVa (s.ctxOf w.ctx) w.e.armk.toNat) 8 ⟨.workEntryFire, n, 0⟩ b) :
    execWorkEntryFire n s = if 0 ≤ (w64 (leNat b) - w.e.armt).toInt then s.fireData n w
      else .next (s.repost ⟨.workEntryFire, n, 0⟩) := by
  simp only [execWorkEntryFire, found, armed, first, here, if_neg counted, Ag.bind, agentBytes_ok read, Ag.pure]
  by_cases passed : 0 ≤ (w64 (leNat b) - w.e.armt).toInt
  · rw [decide_eq_true passed, if_pos passed]
    rfl
  · rw [decide_eq_false passed, if_neg passed]
    rfl

end

/-- An entry that has fired and whose requests and stores are done is over. -/
theorem workEntryComplete_over {s : State} {n : Nat} {w : WorkEnt} (found : SMap.get? s.net.work n = some w)
    (fired : w.fired = true) (answered : ∀ r ∈ s.net.remote, r.key ≠ workKey n) (stored : ∀ a ∈ s.mem.stores, a.key ≠ workKey n) :
    execWorkEntryComplete n s = if w.status ≠ 0 then .next (s.failEntry n w w.status) else
      let x := { s with net := { s.net with work := SMap.del s.net.work n } }
      let y := if w.e.cmpk = noCounter then x
        else x.agentPut w.key w.ctx (counterVa (x.ctxOf w.ctx) w.e.cmpk.toNat) [] (some w.e.cinc) noSource
      .next ((y.countHandle w.key w.hand).settleHandle w.key w.hand) := by
  have noRequest : (s.net.remote.any fun r => r.key == workKey n) = false :=
    List.any_eq_false.mpr fun r mem => ne_true_of_eq_false (beq_false_of_ne (answered r mem))
  have noStore : (s.mem.stores.any fun a => a.key == workKey n) = false :=
    List.any_eq_false.mpr fun a mem => ne_true_of_eq_false (beq_false_of_ne (stored a mem))
  rw [execWorkEntryComplete, found]
  refine (if_neg ?_).trans (if_neg (ne_true_of_eq_false noStore))
  simp [fired, noRequest]

/-! ### Streams -/

section
variable {s : State} {ctx sid : Nat} {v : Stream}

theorem cadenceTick_due (found : s.stream? ctx sid = some v) (due : v.due ≤ s.ns) (res : (s.ctxOf ctx).res = true) :
    execCadenceTick ctx sid s =
      .next (((s.setStream ctx sid { v with due := v.due + v.period }).tickStream ctx sid v.due).sendStep ctx sid) := by
  rw [execCadenceTick, found]
  exact (if_neg (Nat.not_lt.mpr due)).trans (if_pos res)

theorem cadenceTick_early (found : s.stream? ctx sid = some v) (early : s.ns < v.due) :
    execCadenceTick ctx sid s = .next (s.sendStep ctx sid) := by
  rw [execCadenceTick, found]
  exact if_pos early

theorem streamDeadline_waiting (found : s.stream? ctx sid = some v) (waits : v.st = .waiting) (res : (s.ctxOf ctx).res = true) :
    execStreamDeadline ctx sid s = if v.tick + v.grace ≤ s.ns then .next (s.beginStep ctx sid 1)
      else .next (s.postOnce .streamDeadline ctx sid) := by
  rw [execStreamDeadline, found]
  exact if_neg (by simp [waits, res])

end

/-- Settles O55: each unit takes its step where the hypotheses name the branch. -/
theorem workStreamAndTraceUnitSteps : Obligations.WorkStreamAndTraceUnitSteps := by
  unfold Obligations.WorkStreamAndTraceUnitSteps
  intro s t u k n op die ctx sid src task since w c o b v p r va arm hand last x
  refine ⟨?_, fun found armed first here free => ?_, fun found armed first here counted read => ?_,
    fun found fired answered stored => ?_, fun found => ?_, fun found waits out => ?_, fun found => ?_, ?_, fun found => ?_⟩
  · intro under kind sound room found here clean read
    have takes : exec (.linkChainAcceptance k op) s = s.backTo (t.entryTaken k o hand va arm last b) := by
      rw [exec_linkChainAcceptance, execLinkChainAcceptance, read]
      exact runOp_ok under (acceptStep_takes kind sound room found here clean)
    exact ⟨fun good ends => takes.trans (by rw [entryTaken_last good ends]), fun off bad => takes.trans (by rw [entryTaken_bad bad])⟩
  · rw [exec_workEntryFire, workEntryFire_free found armed first here free]
    exact ⟨fireData_none, fireData_found, fireData_dropped⟩
  · rw [exec_workEntryFire, workEntryFire_counted found armed first here counted read]
    exact ⟨fun early => if_neg (Int.not_le.mpr early), fun passed bare => (if_pos passed).trans (fireData_none bare)⟩
  · rw [exec_workEntryComplete, workEntryComplete_over found fired answered stored]
    exact ⟨fun failed => if_pos failed, fun fine => if_neg (Classical.not_not.mpr fine)⟩
  · rw [exec_collectiveExpand, execCollectiveExpand]
    simp only [found]
    refine ⟨fun stage free => ?_, fun stage behind => ?_, fun stage free armk => ?_, fun stage => ?_, fun stage => ?_,
      fun stage => ?_, fun stage stored => ?_⟩
    · simp only [stage]
      exact if_neg (ne_true_of_eq_false free)
    · simp only [stage]
      exact if_pos behind
    · simp only [stage]
      refine (if_neg fun busy => ne_true_of_eq_false free busy.2).trans ?_
      rw [if_pos armk]
      rfl
    all_goals simp only [stage]
    have noStore : (s.mem.stores.any fun a => a.key == collKey n) = false :=
      List.any_eq_false.mpr fun a mem => ne_true_of_eq_false (beq_false_of_ne (stored a mem))
    exact congrArg Host.Outcome.next (if_neg (ne_true_of_eq_false noStore))
  · rw [exec_linkHoldTimeout, execLinkHoldTimeout, found]
    simp only [waits, out]
    exact ⟨fun passed => if_neg (Nat.not_lt.mpr passed), fun within => if_pos within⟩
  · refine ⟨fun due res => ?_, fun early => ?_, fun waits res => ?_, fun more room quiet place here read => ?_, fun drained => ?_⟩
    · rw [exec_cadenceTick, cadenceTick_due found due res]
    · rw [exec_cadenceTick, cadenceTick_early found early]
    · rw [exec_streamDeadline, streamDeadline_waiting found waits res]
      exact ⟨fun late => if_pos late, fun early => if_neg (Nat.not_le.mpr early)⟩
    · rw [exec_streamRecordAdmit, execStreamRecordAdmit, found]
      refine (if_neg (not_or.mpr ⟨more, Nat.not_le.mpr room⟩)).trans ((if_neg (ne_true_of_eq_false quiet)).trans ?_)
      dsimp only
      rewrite [agentRead_ok place here, read]
      rfl
    · rw [exec_streamRecordAdmit, execStreamRecordAdmit, found]
      exact if_pos (.inl drained)
  · rw [exec_traceSync, execTraceSync]
  · rw [exec_traceEmitResume, execTraceEmitResume, found]
    refine ⟨fun full => if_pos full, fun room unit => (if_neg (ne_true_of_eq_false room)).trans ?_⟩
    exact congrArg Host.Outcome.next (if_neg (ne_true_of_eq_false (decide_eq_false (Nat.not_lt.mpr unit))))

end Machine
end Sys2Proof
